-- ==== Sys2Proof/Word.lean ====
section
/-! DEFINITION. The word types of the ZE64 and the sorted association list every table of the state is kept in. -/

namespace Sys2Proof

/-- A scalar register, a granule or a memory word without its full/empty bit (R8, R51). -/
abbrev Word := BitVec 64

/-- The smallest unit of a memory access (R110). -/
abbrev Byte := BitVec 8

/-- A pointer (R168): kind [63:60], x [59:53], y [52:46], offset [45:0]. -/
abbrev Ptr := BitVec 64

/-- A finite table keyed by number, kept with strictly rising keys. -/
abbrev AMap (α : Type) := List (Nat × α)

end Sys2Proof
end

