-- ==== Sys2Proof/Syntax.lean ====
section
/-! DEFINITION. The rows of the opcode table as syntax: one constructor of Instr per row. Instruction rows carry
their decoded operands, with the effect of the unit's prefix words folded in (R25, R28, R29); command rows and rows
for the acts of engines, homes, launch unit, trace unit, firmware, host and links carry what the act needs. -/

namespace Sys2Proof

abbrev SReg := Fin 32
abbrev PReg := Fin 8
abbrev MReg := Fin 8
abbrev VReg := Fin 64
abbrev DReg := Fin 16

/-- Conditions of `cmp`, `vcmp` and `dcmp` (R106). -/
inductive Cond | eq | ne | lt | ge | le | gt
  deriving DecidableEq, Repr, Inhabited

/-- Element types, in the order of their codes (R217). -/
inductive ElemTy | i8 | i16 | i32 | i64 | n8 | n16 | n32 | n64 | f64 | f32 | bf16 | f16 | e4m3 | e5m2
  deriving DecidableEq, Repr, Inhabited

/-- Rounding modes (R221). -/
inductive Rnd | rne | rtz | rup | rdn | rna
  deriving DecidableEq, Repr, Inhabited

/-- The vector prefix as the instruction uses it (R28); no prefix is mask 0, merge, dynamic rounding, no vc. -/
structure VPfx where
  mask : MReg
  zero : Bool
  rnd  : Option Rnd
  vc   : Option VReg
  deriving DecidableEq, Repr, Inhabited

/-- How a scalar memory access is made (R29): fetch, relaxed or by leap. -/
inductive MemMode | plain | relaxed | leap
  deriving DecidableEq, Repr, Inhabited

/-- The operations of ATOM (R115). -/
inductive AmoOp | add | and | or | xor | min | max | minu | maxu | swap | cas
  deriving DecidableEq, Repr, Inhabited

/-- A unit refused by the decode checks (R34, R35). `cause` is 1 illegal instruction, 2 reserved encoding,
3 illegal prefix. -/
structure DecodeFault where
  cause  : Nat
  word   : BitVec 32
  pos    : Nat
  reason : Nat
  deriving DecidableEq, Repr, Inhabited

/-- What an access does at its home (R52, R110, R112, R115, R118, R119, R190, R250, R252). -/
inductive AccOp
  | load (n : Nat)
  | store (n : Nat) (v : Word)
  | take
  | peek
  | give (v : Word)
  | post (v : Word)
  | void
  | probe
  | amo (f : AmoOp) (v e : Word)
  | barini (c : Nat)
  | barexp (c : Nat)
  | barwt (ph : Bool)
  | storeBytes (mask : Nat) (v : Word)
  | addElem (n : Nat) (et : ElemTy) (v : Word) (rnd : Rnd) (ftz : Bool)
  | pfix
  deriving DecidableEq, Repr, Inhabited

/-- Where the word of a pointer lives (R51, R171). Channel and controller offsets are guest offsets, not yet translated. -/
inductive Place
  | spad (tile off : Nat)
  | chan (ch off : Nat)
  | tier2 (ctl off : Nat)
  | host (bus : Nat)
  | tileCtrl (tile off : Nat)
  | devCtrl (unit off : Nat)
  deriving DecidableEq, Repr, Inhabited

/-- A request on its way to a home (R54, R202). `addr` is the pointer the unit named, `at_` the place it is now sent
to (a stub's target once a stub was followed, R212) and `home` what the maps in force at its injection make of that
(R16), `key` the memory key of its word once resolved, `ow` the way back, `legs` the part of it that lies behind the
first home, `stub` the charge of the stubs it followed, if any, `first` the cycle of its first arrival at the home, `limit`
SYTO, `turn` its number among the accesses that reached a home whose block was being moved (R211). -/
structure Req where
  uid   : Nat
  fid   : Nat
  part  : Nat
  partn : Nat
  src   : Nat
  sup   : Bool
  rx    : Bool
  addr  : Ptr
  at_   : Ptr
  home  : Place
  op    : AccOp
  inj   : Nat
  key   : Nat
  ow    : Nat
  legs  : Nat
  stub  : Option Nat
  kbits : Nat
  first : Option Nat
  limit : Nat
  view  : Nat
  turn  : Option Nat
  deriving DecidableEq, Repr, Inhabited

/-- What came of an access at its home; `host` marks a major page fault (R176). -/
inductive AccRes
  | done (vals : List Word) (flags : Nat)
  | fault (cause info tick : Nat) (host : Bool)
  deriving DecidableEq, Repr, Inhabited

/-- The answer to a request, on its way back to the thread wherever it stands (R199). -/
structure Answer where
  uid  : Nat
  fid  : Nat
  part : Nat
  addr : Ptr
  stub : Option Nat
  res  : AccRes
  deriving DecidableEq, Repr, Inhabited

/-- A remote-register write in flight (R192). -/
structure RputMsg where
  uid    : Nat
  fid    : Nat
  partn  : Nat
  serial : Nat
  src    : Nat
  dst    : Nat
  ptr    : Ptr
  val    : Word
  ow     : Nat
  deriving DecidableEq, Repr, Inhabited

/-- An access that a leap carries to its new tile (R196): `code` 0 store, 1 sign-extended and 2 zero-extended load of
`size` bytes, 3 synchronising load, 4 probe, 5 atomic; `reg` its destination. -/
structure LeapAcc where
  ptr  : Ptr
  op   : AccOp
  code : Nat
  size : Nat
  reg  : Nat
  deriving DecidableEq, Repr, Inhabited

/-- A leaping thread's context in flight (R191, R197): `time` is T, `sent` the cycle of the
first send and `inj` its tick, `why` the reason
it was refused on arrival. -/
structure LeapMsg where
  uid   : Nat
  src   : Nat
  slot  : Nat
  dst   : Nat
  time  : Nat
  sent  : Nat
  inj   : Nat
  charge : Nat
  fpc   : Ptr
  npc   : Ptr
  ptr   : Ptr
  why   : Nat
  acc   : Option LeapAcc
  deriving DecidableEq, Repr, Inhabited

/-- An event of local-time mode in flight (R350, R358). -/
structure EventMsg where
  partn  : Nat
  serial : Nat
  src    : Nat
  dst    : Nat
  t      : Word
  pay0   : Word
  pay1   : Word
  uid    : Nat
  inj    : Nat
  sent   : Nat
  deriving DecidableEq, Repr, Inhabited

/-- An almanac, vigil or exit promise in flight (R354, R355, R357). -/
structure PromiseMsg where
  partn  : Nat
  serial : Nat
  src    : Nat
  dst    : Nat
  value  : Word
  deriving DecidableEq, Repr, Inhabited

/-- An `lkset` registration in flight (R361). -/
structure LinkMsg where
  uid    : Nat
  fid    : Nat
  partn  : Nat
  serial : Nat
  src    : Nat
  dst    : Nat
  slot   : Nat
  look   : Nat
  ptr    : Ptr
  charge : Nat
  ow     : Nat
  deriving DecidableEq, Repr, Inhabited

/-- A `dqsteal` visit in flight (R391): the victims still to visit, `here` first. -/
structure StealMsg where
  uid    : Nat
  fid    : Nat
  partn  : Nat
  serial : Nat
  src    : Nat
  here   : Nat
  rest   : List Nat
  charge : Nat
  inj    : Nat
  deriving DecidableEq, Repr, Inhabited

/-- A job handed over by `jpush` (R116): its four command words, the thread and register that take the status. `seg` is
the segment a job starts at after a save (R332), `done` the elements it delivered in the segments before, `half` the numbers
of those that it delivered in that segment before the save, `skipped` whether it skipped one, `owed` the charge it
has run up, `ran` that it has run before. -/
structure Job where
  jid    : Nat
  uid    : Nat
  tid    : Nat
  partn  : Nat
  serial : Nat
  tile   : Nat
  reg    : SReg
  enq    : Nat
  cmd    : Ptr
  w0     : Word
  w1     : Word
  w2     : Word
  w3     : Word
  seg    : Nat
  done   : Nat
  half   : List Nat
  skipped : Bool
  owed   : Nat
  ran    : Bool
  deriving DecidableEq, Repr, Inhabited

/-- The members of one collective are matched by this key (R335): a replica group, or a team. -/
structure CollKey where
  partn : Nat
  team  : Option Nat
  group : Nat
  cid   : Nat
  deriving DecidableEq, Repr, Inhabited

/-- A team about to be started, or restored (R380, R381). -/
structure Placement where
  partn  : Nat
  serial : Nat
  ox     : Nat
  oy     : Nat
  w0     : Word
  w1     : Word
  w2     : Word
  w3     : Word
  queue  : Option Nat
  job    : Option Job
  restore : Bool
  deriving DecidableEq, Repr, Inhabited

/-- What an uncorrectable error strikes (R412). -/
inductive ErrTarget
  | memory (key : Nat)
  | scalar (uid : Nat) (r : SReg)
  | pred (uid : Nat) (p : PReg)
  | mask (uid : Nat) (m : MReg)
  | granule (tile g : Nat)
  deriving DecidableEq, Repr, Inhabited

/-- A peer link that trained (R428): its lanes, whether they are reversed, and the partner's device identifier. -/
structure Trained where
  link    : Nat
  width   : Nat
  rev     : Bool
  partner : Word
  deriving DecidableEq, Repr, Inhabited

/-- What bring-up finds (R430): the bad columns of each die (none: the die has more than one bad column), firmware
and memory training outcomes, the links that trained. -/
structure BringUpIn where
  signature : Bool
  rollback  : Bool
  training  : Bool
  bad       : List (Option Nat)
  links     : List Trained
  deriving DecidableEq, Repr, Inhabited

/-- A firmware image as its checks see it (R431). -/
structure FwImage where
  version   : Nat
  security  : Nat
  signed    : Bool
  deriving DecidableEq, Repr, Inhabited

/-- A core's temperature as firmware reads it, with the threshold and hysteresis it sets for the core (R80). -/
structure Thermal where
  tile   : Nat
  temp   : Nat
  thresh : Nat
  hyst   : Nat
  deriving DecidableEq, Repr, Inhabited

/-- What a member of a collective tells the others when it joins: its parameters and its contribution, or that it lies
in a fenced rectangle (R335, R344). -/
structure CollPeer where
  rank   : Nat
  g      : Nat
  op     : Nat
  rop    : Nat
  et     : ElemTy
  n      : Nat
  root   : Nat
  vals   : List Word
  fenced : Bool
  deriving DecidableEq, Repr, Inhabited

/-- A request of a peer device's copy unit (R324), over a link. `write` holds the word to store, none asks for the word
read; with `add` the word is added lane by lane (R331). -/
structure PeerReq where
  link  : Nat
  partn : Nat
  ptr   : Ptr
  write : Option Word
  add   : Option ElemTy
  deriving DecidableEq, Repr, Inhabited

/-- A host access through a function's BAR (R424). Function 0 is the physical function, n + 1 serves partition n. -/
structure HostReq where
  fn    : Nat
  bar   : Nat
  off   : Nat
  write : Option Word
  deriving DecidableEq, Repr, Inhabited

/-- The registers that are written without a row of their own (R4): a system register of a partition or core, or a
word of CTRL space. -/
inductive RegTarget
  | sys (uid n : Nat)
  | tile (partn tile off : Nat)
  | dev (partn unit off : Nat)
  deriving DecidableEq, Repr, Inhabited

/-- What a command row or a row for an act of an engine, home, unit or outside agent acts on, one constructor per such
row of the opcode table, named as the row's constructor of Instr. -/
inductive Act
  -- command words at the head of a core's queue (R44)
  | mma (cl ci : Nat)
  | mzero (cl ci : Nat)
  | mfmt (cl ci : Nat)
  | mstore (cl ci : Nat)
  | mcheck (cl ci : Nat)
  | copy (cl ci : Nat)
  | fill (cl ci : Nat)
  | gather (cl ci : Nat)
  | scatter (cl ci : Nat)
  | scatteradd (cl ci : Nat)
  | coll (cl ci : Nat)
  | digest (cl ci : Nat)
  | launch (job : Job)
  -- acts of the engines and homes
  | jobEnd (cl : Nat) (cu : Bool)
  | jobStatusWord (job : Job) (status : Word)
  | collProceed (key : CollKey) (peers : List CollPeer)
  | memberTimeout (cl jid : Nat)
  | digestDecision (key : CollKey) (peers : List (Nat × Option (BitVec 128)))
  | homeAccess (r : Req)
  | tableWalk (r : Req)
  | accessResponse (a : Answer)
  | relaxedAccessCompletion (a : Answer)
  | busyResend (r : Req)
  | syncTimeout (r : Req)
  | rendezvousRelease (partn serial k : Nat)
  | rendezvousTimeout (uid stamp : Nat)
  | rputArrival (m : RputMsg)
  | leapArrival (m : LeapMsg)
  | leapBounce (m : LeapMsg)
  | leapResend (m : LeapMsg)
  | arrivalAcknowledgement (tile slot : Nat)
  | containmentReset (partn rect : Nat)
  | resume (tile slot tid : Nat)
  | deliver (tile slot tid : Nat)
  | terminate (tile slot tid : Nat)
  | vacate (tile slot tid : Nat)
  | restore (tile slot tid : Nat)
  | saveWriteAcknowledgement (tile uid : Nat)
  | contextSaveFault (tile uid cause : Nat) (ptr : Ptr)
  | slotDisable (tile : Nat)
  | slotReenable (tile : Nat)
  | rankingRefresh (l : List Thermal)
  | save (partn serial : Nat)
  | teamTerminate (partn serial : Nat)
  | discard (partn serial : Nat)
  | sliceExpiry (partn serial stamp : Nat)
  | teamSave (partn serial : Nat)
  | preemptionTimeout (partn serial stamp : Nat)
  | scan
  | placement (p : Placement)
  | create (partn : Nat)
  | delete (partn : Nat)
  | switchIn (partn q : Nat)
  | switchOut (partn q : Nat)
  | tailWrite (partn q : Nat) (v : Word)
  | headRead (partn q index : Nat)
  | calendBoundary
  | translationShootdown (partn tile : Nat) (v : Word)
  | relocate (tile block : Nat)
  | retireStub (tile block : Nat)
  | reinstate (tile block : Nat)
  | thermalEvacuation (tile : Nat) (banks : List Nat)
  | poolSupply (partn : Nat) (v : Word)
  | moveCompletion (tile : Nat)
  | correctedError (tile bank : Nat)
  | uncorrectableError (t : ErrTarget)
  | parityReplay (uid : Nat)
  | rowSparing (ch bank row : Nat)
  | spareSwitch (ch : Nat)
  | spareRowError (ch : Nat)
  | unfence (partn rect : Nat)
  | checkpointNow
  | restoreTierOne
  | invalidate
  | checkpointComplete
  | modulePowerFailure
  | bringUp (i : BringUpIn)
  | firmwareUpload (i : FwImage)
  | keyInstall (partn : Nat) (ciphertext : List Word)
  | flitReplay (link : Nat) (again : Bool)
  | peerLinkDown (link : Nat)
  | peerRequest (p : PeerReq)
  | hostBarAccess (h : HostReq)
  | timeSync (d : Int)
  | eventEntry (m : EventMsg)
  | eventBusyAnswer (m : EventMsg)
  | eventResend (src dst : Nat)
  | eventDispatch (tile : Nat)
  | endOfLocalTime (tile uid : Nat)
  | almanacMessage (m : PromiseMsg)
  | almanacHoldExpiry (tile slot : Nat)
  | vigilRound (tile stamp : Nat)
  | vigilEvent (m : PromiseMsg)
  | linkRegistration (m : LinkMsg)
  | hold (partn tid : Nat)
  | release (partn tid : Nat)
  | step (partn tid : Nat)
  | cancel (partn tid : Nat)
  | releaseOne (partn tid : Nat)
  | armedTaskEntryWrite (partn entry word : Nat) (v : Word)
  | debugWindowWrite (tile off : Nat) (v : Word)
  | dump (partn : Nat) (p : Ptr)
  | triggerArm (partn k : Nat) (v : Word)
  | triggerTransition (partn k : Nat)
  | solsticePulse (partn : Nat)
  | histogramClear (die : Nat)
  | traceRecordWrite
  | fqbWrite (partn : Nat) (v : Word)
  | fqrWrite (partn : Nat) (v : Word)
  | hfqbWrite (v : Word)
  | hfqrWrite (v : Word)
  | divsClear (partn : Nat) (v : Word)
  | registerWrite (t : RegTarget) (v : Word)
  | stealVisit (m : StealMsg)
  | peerLinkUp (link width : Nat) (rev : Bool) (partner : BitVec 64)
  | restoreTierOneComplete
  deriving DecidableEq, Repr, Inhabited

/-- The rows of the opcode table. An instruction row carries its decoded operands; a row for a command or for an act
of an engine, home, unit or outside agent acts on what State.act holds (an Act of the same name). -/
inductive Instr
  -- SYS (R90-R99)
  | nop
  | trap (imm : BitVec 12)
  | eret
  | ebreak (imm : BitVec 12)
  | mfs (d : SReg) (n : BitVec 12)
  | mts (a : SReg) (n : BitVec 12)
  | tfork (d a : SReg)
  | texit
  | tyield
  | tmark (imm : BitVec 12)
  | safept (a : SReg)
  | fence (scope : Fin 6) (engines : BitVec 3)
  | rclr (d : SReg)
  -- ALU (R100-R102)
  | add (d a b : SReg)
  | sub (d a b : SReg)
  | mul (d a b : SReg)
  | mulh (d a b : SReg)
  | mulhu (d a b : SReg)
  | div (d a b : SReg)
  | divu (d a b : SReg)
  | rem (d a b : SReg)
  | remu (d a b : SReg)
  | and (d a b : SReg)
  | or (d a b : SReg)
  | xor (d a b : SReg)
  | andn (d a b : SReg)
  | orn (d a b : SReg)
  | sll (d a b : SReg)
  | srl (d a b : SReg)
  | sra (d a b : SReg)
  | rol (d a b : SReg)
  | min (d a b : SReg)
  | max (d a b : SReg)
  | minu (d a b : SReg)
  | maxu (d a b : SReg)
  | clz (d a : SReg)
  | ctz (d a : SReg)
  | pop (d a : SReg)
  | sext (d a : SReg) (w : Fin 3)
  | zext (d a : SReg) (w : Fin 3)
  | bfx (d a b : SReg)
  | bfi (d a b : SReg)
  | sel (d a b : SReg) (k : PReg)
  -- immediate forms (R103-R105)
  | addi (d a : SReg) (imm : Int)
  | andi (d a : SReg) (imm : Int)
  | ori (d a : SReg) (imm : Int)
  | xori (d a : SReg) (imm : Int)
  | slli (d a : SReg) (n : Fin 64)
  | srli (d a : SReg) (n : Fin 64)
  | srai (d a : SReg) (n : Fin 64)
  | roli (d a : SReg) (n : Fin 64)
  | lih (d : SReg) (pos : Fin 4) (imm : BitVec 16)
  | lihK (d : SReg) (pos : Fin 4) (imm : BitVec 16)
  -- compares and predicates (R106, R107)
  | cmp (p : PReg) (cc : Cond) (u : Bool) (a b : SReg)
  | cmpImm (p : PReg) (cc : Cond) (u : Bool) (a : SReg) (imm : BitVec 13)
  | pand (d a b : PReg)
  | por (d a b : PReg)
  | pxor (d a b : PReg)
  | pandn (d a b : PReg)
  | pnot (d a : PReg)
  | pmov (d : PReg) (a : SReg)
  | pget (d : SReg) (a : PReg)
  -- branches (R108, R109)
  | b (disp : BitVec 26)
  | bl (disp : BitVec 26)
  | bp (p : PReg) (disp : BitVec 22)
  | bpNot (p : PReg) (disp : BitVec 22)
  | jr (a : SReg)
  | jlr (d a : SReg)
  -- scalar memory access (R110, R111); disp counts accesses of the form's size
  | ldb (t a : SReg) (disp : Int) (mode : MemMode)
  | ldbu (t a : SReg) (disp : Int) (mode : MemMode)
  | ldh (t a : SReg) (disp : Int) (mode : MemMode)
  | ldhu (t a : SReg) (disp : Int) (mode : MemMode)
  | ldw (t a : SReg) (disp : Int) (mode : MemMode)
  | ldwu (t a : SReg) (disp : Int) (mode : MemMode)
  | ldd (t a : SReg) (disp : Int) (mode : MemMode)
  | stb (t a : SReg) (disp : Int) (mode : MemMode)
  | sth (t a : SReg) (disp : Int) (mode : MemMode)
  | stw (t a : SReg) (disp : Int) (mode : MemMode)
  | std (t a : SReg) (disp : Int) (mode : MemMode)
  -- synchronising access (R112)
  | take (t a : SReg) (disp : Int) (lp : Bool)
  | peek (t a : SReg) (disp : Int) (lp : Bool)
  | give (t a : SReg) (disp : Int) (lp : Bool)
  | post (t a : SReg) (disp : Int) (lp : Bool)
  | void (a : SReg) (disp : Int) (lp : Bool)
  | probe (k : PReg) (a : SReg) (disp : Int) (lp : Bool)
  -- atomics (R115)
  | amoadd (d a b : SReg) (lp : Bool)
  | amoand (d a b : SReg) (lp : Bool)
  | amoor (d a b : SReg) (lp : Bool)
  | amoxor (d a b : SReg) (lp : Bool)
  | amomin (d a b : SReg) (lp : Bool)
  | amomax (d a b : SReg) (lp : Bool)
  | amominu (d a b : SReg) (lp : Bool)
  | amomaxu (d a b : SReg) (lp : Bool)
  | amoswap (d a b : SReg) (lp : Bool)
  | amocas (d a b : SReg) (lp : Bool)
  -- FAB (R187-R192)
  | dist (d a : SReg) (k : Fin 6)
  | padd (d a b : SReg)
  | pmk (d a b : SReg)
  | pfld (d a : SReg) (f : Fin 4)
  | pfix (d a : SReg)
  | leap (a : SReg)
  | rput (a b : SReg)
  | paddi (d a : SReg) (imm : Int)
  -- RV (R127-R131)
  | rvinit (k : Fin 24) (a : SReg)
  | rvarr (k : Fin 24)
  | rvwait (k : Fin 24)
  | rvtest (p : PReg) (k : Fin 24)
  -- JOB (R116-R119)
  | jpush (d a : SReg) (q : Fin 3)
  | jpushW (d a : SReg) (q : Fin 3)
  | barini (a b : SReg)
  | barexp (a b : SReg)
  | barwt (a b : SReg)
  -- EVT (R360-R364)
  | evsend (d : Fin 16) (a b : SReg)
  | evnext (d : Fin 30)
  | evnull
  | lkset (k : Fin 8) (a b : SReg)
  -- WORK (R389-R391)
  | dqpush (d a b : SReg)
  | dqpop (d : Fin 30) (k : PReg)
  | dqsplit
  | dqsteal (d : Fin 30) (k : PReg)
  | dqcnt (d : SReg)
  -- VA (R241, R242)
  | vadd (d a b : VReg) (et : ElemTy) (q : VPfx)
  | vsub (d a b : VReg) (et : ElemTy) (q : VPfx)
  | vmul (d a b : VReg) (et : ElemTy) (q : VPfx)
  | vmin (d a b : VReg) (et : ElemTy) (q : VPfx)
  | vmax (d a b : VReg) (et : ElemTy) (q : VPfx)
  | vfma (d a b : VReg) (et : ElemTy) (q : VPfx)
  | vfms (d a b : VReg) (et : ElemTy) (q : VPfx)
  | vdiv (d a b : VReg) (et : ElemTy) (q : VPfx)
  | vabs (d a : VReg) (et : ElemTy) (q : VPfx)
  | vneg (d a : VReg) (et : ElemTy) (q : VPfx)
  | vmulh (d a b : VReg) (et : ElemTy) (q : VPfx)
  -- VL (R243)
  | vand (d a b : VReg) (et : ElemTy) (q : VPfx)
  | vor (d a b : VReg) (et : ElemTy) (q : VPfx)
  | vxor (d a b : VReg) (et : ElemTy) (q : VPfx)
  | vandn (d a b : VReg) (et : ElemTy) (q : VPfx)
  | vshl (d a b : VReg) (et : ElemTy) (q : VPfx)
  | vshr (d a b : VReg) (et : ElemTy) (q : VPfx)
  | vsra (d a b : VReg) (et : ElemTy) (q : VPfx)
  -- VC (R244)
  | vcmp (m : MReg) (cc : Cond) (a b : VReg) (et : ElemTy) (q : VPfx)
  -- VS (R245)
  | vsqrt (d a : VReg) (et : ElemTy) (q : VPfx)
  | vrcp (d a : VReg) (et : ElemTy) (q : VPfx)
  | vrsqrt (d a : VReg) (et : ElemTy) (q : VPfx)
  | vexp2 (d a : VReg) (et : ElemTy) (q : VPfx)
  | vlog2 (d a : VReg) (et : ElemTy) (q : VPfx)
  | vtanh (d a : VReg) (et : ElemTy) (q : VPfx)
  -- VX (R246)
  | vcvt (d a : VReg) (dt st : ElemTy) (q : VPfx)
  -- VP (R247, R248)
  | vperm (d a b : VReg) (et : ElemTy) (q : VPfx)
  | vslide (d a : VReg) (b : SReg) (et : ElemTy) (q : VPfx)
  | vbcast (d : VReg) (a : SReg) (et : ElemTy) (q : VPfx)
  | vextr (d : SReg) (a : VReg) (b : SReg) (et : ElemTy) (q : VPfx)
  | vins (d : VReg) (a b : SReg) (et : ElemTy) (q : VPfx)
  | vredsum (d a : VReg) (et : ElemTy) (q : VPfx)
  | vredmax (d a : VReg) (et : ElemTy) (q : VPfx)
  | vredmin (d a : VReg) (et : ElemTy) (q : VPfx)
  -- VK (R255)
  | mand (d a b : MReg) (q : VPfx)
  | mor (d a b : MReg) (q : VPfx)
  | mxor (d a b : MReg) (q : VPfx)
  | mnot (d a : MReg) (q : VPfx)
  | mpop (d : SReg) (a : MReg) (q : VPfx)
  | mfirst (d : SReg) (a : MReg) (q : VPfx)
  | mset (d : MReg) (a : SReg) (q : VPfx)
  | mget (d : SReg) (a : MReg) (q : VPfx)
  -- VM (R249-R254, R300)
  | vld (t : VReg) (a : SReg) (et : ElemTy) (rx : Bool) (q : VPfx)
  | vlds (t : VReg) (w : Fin 4) (a b : SReg) (rx : Bool) (q : VPfx)
  | vldx (t i : VReg) (a : SReg) (et : ElemTy) (rx : Bool) (q : VPfx)
  | vst (t : VReg) (a : SReg) (et : ElemTy) (rx : Bool) (q : VPfx)
  | vsts (t : VReg) (w : Fin 4) (a b : SReg) (rx : Bool) (q : VPfx)
  | vstx (t i : VReg) (a : SReg) (et : ElemTy) (rx : Bool) (q : VPfx)
  | vstxa (t i : VReg) (a : SReg) (et : ElemTy) (rx : Bool) (q : VPfx)
  | amov (t : VReg) (a : SReg) (q : VPfx)
  | aput (t : VReg) (a : SReg) (q : VPfx)
  -- DA (R269-R272)
  | dadd (d a b : DReg)
  | dsub (d a b : DReg)
  | dmul (d a b : DReg)
  | ddiv (d a b : DReg)
  | dfma (d a b : DReg)
  | dsqrt (d a : DReg)
  | dneg (d a : DReg)
  | dabs (d a : DReg)
  | dmov (d a : DReg)
  | dround (d a : DReg)
  | dcmp (p : PReg) (cc : Cond) (a b : DReg)
  -- DX (R273)
  | dcvtf (d : DReg) (a : SReg)
  | dcvtd (d : SReg) (a : DReg)
  | dcvti (d : DReg) (a : SReg)
  | dcvtdi (d : SReg) (a : DReg)
  | dhead (d : SReg) (a : DReg)
  | dclass (d : SReg) (a : DReg)
  -- DM, prec (R268, R275-R278)
  | ldn (t : DReg) (a : SReg) (disp : Int)
  | stn (t : DReg) (a : SReg) (disp : Int)
  | prec (n : Fin 17) (p : Nat)
  | precReg (n : Fin 17) (a : SReg)
  -- a unit refused by the decode checks (R34)
  | illegalInstruction (f : DecodeFault)
  -- command words at the head of a core's queue (R44)
  | mma
  | mzero
  | mfmt
  | mstore
  | mcheck
  | copy
  | fill
  | gather
  | scatter
  | scatteradd
  | coll
  | digest
  | launch
  -- acts of the engines and homes
  | jobEnd
  | jobStatusWord
  | collProceed
  | memberTimeout
  | digestDecision
  | homeAccess
  | tableWalk
  | accessResponse
  | relaxedAccessCompletion
  | busyResend
  | syncTimeout
  | rendezvousRelease
  | rendezvousTimeout
  | rputArrival
  | leapArrival
  | leapBounce
  | leapResend
  | arrivalAcknowledgement
  | containmentReset
  | resume
  | deliver
  | terminate
  | vacate
  | restore
  | saveWriteAcknowledgement
  | contextSaveFault
  | slotDisable
  | slotReenable
  | rankingRefresh
  | save
  | teamTerminate
  | discard
  | sliceExpiry
  | teamSave
  | preemptionTimeout
  | scan
  | placement
  | create
  | delete
  | switchIn
  | switchOut
  | tailWrite
  | headRead
  | calendBoundary
  | translationShootdown
  | relocate
  | retireStub
  | reinstate
  | thermalEvacuation
  | poolSupply
  | moveCompletion
  | correctedError
  | uncorrectableError
  | parityReplay
  | rowSparing
  | spareSwitch
  | spareRowError
  | unfence
  | checkpointNow
  | restoreTierOne
  | invalidate
  | checkpointComplete
  | modulePowerFailure
  | bringUp
  | firmwareUpload
  | keyInstall
  | flitReplay
  | peerLinkDown
  | peerRequest
  | hostBarAccess
  | timeSync
  | eventEntry
  | eventBusyAnswer
  | eventResend
  | eventDispatch
  | endOfLocalTime
  | almanacMessage
  | almanacHoldExpiry
  | vigilRound
  | vigilEvent
  | linkRegistration
  | hold
  | release
  | step
  | cancel
  | releaseOne
  | armedTaskEntryWrite
  | debugWindowWrite
  | dump
  | triggerArm
  | triggerTransition
  | solsticePulse
  | histogramClear
  | traceRecordWrite
  | fqbWrite
  | fqrWrite
  | hfqbWrite
  | hfqrWrite
  | divsClear
  | registerWrite
  | stealVisit
  | peerLinkUp
  | restoreTierOneComplete
  deriving DecidableEq, Repr, Inhabited

/-- The row of an act. -/
def Act.row : Act → Instr
  | .mma _ _ => .mma
  | .mzero _ _ => .mzero
  | .mfmt _ _ => .mfmt
  | .mstore _ _ => .mstore
  | .mcheck _ _ => .mcheck
  | .copy _ _ => .copy
  | .fill _ _ => .fill
  | .gather _ _ => .gather
  | .scatter _ _ => .scatter
  | .scatteradd _ _ => .scatteradd
  | .coll _ _ => .coll
  | .digest _ _ => .digest
  | .launch _ => .launch
  | .jobEnd _ _ => .jobEnd
  | .jobStatusWord _ _ => .jobStatusWord
  | .collProceed _ _ => .collProceed
  | .memberTimeout _ _ => .memberTimeout
  | .digestDecision _ _ => .digestDecision
  | .homeAccess _ => .homeAccess
  | .tableWalk _ => .tableWalk
  | .accessResponse _ => .accessResponse
  | .relaxedAccessCompletion _ => .relaxedAccessCompletion
  | .busyResend _ => .busyResend
  | .syncTimeout _ => .syncTimeout
  | .rendezvousRelease _ _ _ => .rendezvousRelease
  | .rendezvousTimeout _ _ => .rendezvousTimeout
  | .rputArrival _ => .rputArrival
  | .leapArrival _ => .leapArrival
  | .leapBounce _ => .leapBounce
  | .leapResend _ => .leapResend
  | .arrivalAcknowledgement _ _ => .arrivalAcknowledgement
  | .containmentReset _ _ => .containmentReset
  | .resume _ _ _ => .resume
  | .deliver _ _ _ => .deliver
  | .terminate _ _ _ => .terminate
  | .vacate _ _ _ => .vacate
  | .restore _ _ _ => .restore
  | .saveWriteAcknowledgement _ _ => .saveWriteAcknowledgement
  | .contextSaveFault _ _ _ _ => .contextSaveFault
  | .slotDisable _ => .slotDisable
  | .slotReenable _ => .slotReenable
  | .rankingRefresh _ => .rankingRefresh
  | .save _ _ => .save
  | .teamTerminate _ _ => .teamTerminate
  | .discard _ _ => .discard
  | .sliceExpiry _ _ _ => .sliceExpiry
  | .teamSave _ _ => .teamSave
  | .preemptionTimeout _ _ _ => .preemptionTimeout
  | .scan => .scan
  | .placement _ => .placement
  | .create _ => .create
  | .delete _ => .delete
  | .switchIn _ _ => .switchIn
  | .switchOut _ _ => .switchOut
  | .tailWrite _ _ _ => .tailWrite
  | .headRead _ _ _ => .headRead
  | .calendBoundary => .calendBoundary
  | .translationShootdown _ _ _ => .translationShootdown
  | .relocate _ _ => .relocate
  | .retireStub _ _ => .retireStub
  | .reinstate _ _ => .reinstate
  | .thermalEvacuation _ _ => .thermalEvacuation
  | .poolSupply _ _ => .poolSupply
  | .moveCompletion _ => .moveCompletion
  | .correctedError _ _ => .correctedError
  | .uncorrectableError _ => .uncorrectableError
  | .parityReplay _ => .parityReplay
  | .rowSparing _ _ _ => .rowSparing
  | .spareSwitch _ => .spareSwitch
  | .spareRowError _ => .spareRowError
  | .unfence _ _ => .unfence
  | .checkpointNow => .checkpointNow
  | .restoreTierOne => .restoreTierOne
  | .invalidate => .invalidate
  | .checkpointComplete => .checkpointComplete
  | .modulePowerFailure => .modulePowerFailure
  | .bringUp _ => .bringUp
  | .firmwareUpload _ => .firmwareUpload
  | .keyInstall _ _ => .keyInstall
  | .flitReplay _ _ => .flitReplay
  | .peerLinkDown _ => .peerLinkDown
  | .peerRequest _ => .peerRequest
  | .hostBarAccess _ => .hostBarAccess
  | .timeSync _ => .timeSync
  | .eventEntry _ => .eventEntry
  | .eventBusyAnswer _ => .eventBusyAnswer
  | .eventResend _ _ => .eventResend
  | .eventDispatch _ => .eventDispatch
  | .endOfLocalTime _ _ => .endOfLocalTime
  | .almanacMessage _ => .almanacMessage
  | .almanacHoldExpiry _ _ => .almanacHoldExpiry
  | .vigilRound _ _ => .vigilRound
  | .vigilEvent _ => .vigilEvent
  | .linkRegistration _ => .linkRegistration
  | .hold _ _ => .hold
  | .release _ _ => .release
  | .step _ _ => .step
  | .cancel _ _ => .cancel
  | .releaseOne _ _ => .releaseOne
  | .armedTaskEntryWrite _ _ _ _ => .armedTaskEntryWrite
  | .debugWindowWrite _ _ _ => .debugWindowWrite
  | .dump _ _ => .dump
  | .triggerArm _ _ _ => .triggerArm
  | .triggerTransition _ _ => .triggerTransition
  | .solsticePulse _ => .solsticePulse
  | .histogramClear _ => .histogramClear
  | .traceRecordWrite => .traceRecordWrite
  | .fqbWrite _ _ => .fqbWrite
  | .fqrWrite _ _ => .fqrWrite
  | .hfqbWrite _ => .hfqbWrite
  | .hfqrWrite _ => .hfqrWrite
  | .divsClear _ _ => .divsClear
  | .registerWrite _ _ => .registerWrite
  | .stealVisit _ => .stealVisit
  | .peerLinkUp _ _ _ _ => .peerLinkUp
  | .restoreTierOneComplete => .restoreTierOneComplete

end Sys2Proof
end

