-- ==== Sys2Proof/Decode.lean ====
section
/-! DEFINITION. Decoding of a unit (R22-R41) on numbers, total on any words and rejecting by cause, then the encoder
written from the same tables, and the decoding of one opcode-table word. -/

namespace Sys2Proof

/-! ### Fields and immediates -/

/-- `len` bits of a word from bit `lo` up. -/
def fld (w lo len : Nat) : Nat := w / 2 ^ lo % 2 ^ len

/-- A number of w bits read as two's complement. -/
def sx (w n : Nat) : Int := if n < 2 ^ (w - 1) then (n : Int) else (n : Int) - 2 ^ w

def rS (n : Nat) : SReg := Fin.ofNat 32 n
def rP (n : Nat) : PReg := Fin.ofNat 8 n
def rM (n : Nat) : MReg := Fin.ofNat 8 n
def rV (n : Nat) : VReg := Fin.ofNat 64 n
def rD (n : Nat) : DReg := Fin.ofNat 16 n

/-- Immediate of `addi` and `paddi` (R25): `body` is that of the immediate prefix. -/
def immS (body : Option Nat) (w : Nat) : Int :=
  match body with
  | none => sx 16 (fld w 0 16)
  | some b => sx 40 (b * 65536 + fld w 0 16)

/-- Immediate of `andi`, `ori` and `xori` (R25). -/
def immU (body : Option Nat) (w : Nat) : Int :=
  match body with
  | none => (fld w 0 16 : Int)
  | some b => sx 40 (b * 65536 + fld w 0 16)

/-- Displacement of format M, in accesses (R25). -/
def immD (body : Option Nat) (w : Nat) : Int :=
  match body with
  | none => sx 12 (fld w 0 12)
  | some b => sx 36 (b * 4096 + fld w 0 12)

/-- The element type of a code (R217); 14 and 15 name none. -/
def ElemTy.ofCode : Nat → Option ElemTy
  | 0 => some .i8 | 1 => some .i16 | 2 => some .i32 | 3 => some .i64
  | 4 => some .n8 | 5 => some .n16 | 6 => some .n32 | 7 => some .n64
  | 8 => some .f64 | 9 => some .f32 | 10 => some .bf16 | 11 => some .f16
  | 12 => some .e4m3 | 13 => some .e5m2
  | _ => none

def ElemTy.code : ElemTy → Nat
  | .i8 => 0 | .i16 => 1 | .i32 => 2 | .i64 => 3 | .n8 => 4 | .n16 => 5 | .n32 => 6 | .n64 => 7
  | .f64 => 8 | .f32 => 9 | .bf16 => 10 | .f16 => 11 | .e4m3 => 12 | .e5m2 => 13

/-- The condition of a code (R40); 6 and 7 are out of range. -/
def Cond.ofCode : Nat → Option Cond
  | 0 => some .eq | 1 => some .ne | 2 => some .lt | 3 => some .ge | 4 => some .le | 5 => some .gt
  | _ => none

def Cond.code : Cond → Nat
  | .eq => 0 | .ne => 1 | .lt => 2 | .ge => 3 | .le => 4 | .gt => 5

/-- A rounding mode of R221 by its code. -/
def Rnd.ofCode : Nat → Option Rnd
  | 1 => some .rne | 2 => some .rtz | 3 => some .rup | 4 => some .rdn | 5 => some .rna
  | _ => none

def Rnd.code : Option Rnd → Nat
  | none => 0 | some .rne => 1 | some .rtz => 2 | some .rup => 3 | some .rdn => 4 | some .rna => 5

/-! ### Element types an instruction allows (R239) -/

def ElemTy.any (_ : ElemTy) : Bool := true
/-- Codes 0 to 11. -/
def ElemTy.upTo11 (e : ElemTy) : Bool := decide (e.code ≤ 11)
/-- Codes 0 to 7, the integers. -/
def ElemTy.isInt (e : ElemTy) : Bool := decide (e.code ≤ 7)
/-- Codes 8 to 11. -/
def ElemTy.isFlt (e : ElemTy) : Bool := decide (8 ≤ e.code) && decide (e.code ≤ 11)

/-! ### Prefixes -/

/-- The prefixes of a unit: each with its word and position (R27-R30). -/
structure Pfxs where
  vec : Option (Nat × Nat)
  mem : Option (Nat × Nat)
  imm : Option (Nat × Nat)
  deriving DecidableEq, Repr, Inhabited

def Pfxs.none : Pfxs := { vec := .none, mem := .none, imm := .none }

/-- What an instruction accepts of prefixes (R32, R33). -/
structure Accepts where
  vec  : Bool
  mem  : Bool
  imm  : Bool
  rnd  : Bool
  zero : Bool
  vc   : Bool
  rx   : Bool
  lp   : Bool
  deriving DecidableEq, Repr, Inhabited

def Accepts.nothing : Accepts :=
  { vec := false, mem := false, imm := false, rnd := false, zero := false, vc := false, rx := false, lp := false }
def Accepts.immOnly : Accepts := { Accepts.nothing with imm := true }
def Accepts.vector : Accepts := { Accepts.nothing with vec := true, zero := true }
def Accepts.vectorRnd : Accepts := { Accepts.vector with rnd := true }

/-- What an instruction word accepts (R32, R33, R240, R243, R255, R300). -/
def acceptsOf (w : Nat) : Accepts :=
  match fld w 26 6 with
  | 0x02 => .immOnly
  | 0x03 => .immOnly
  | 0x04 => .immOnly
  | 0x05 => .immOnly
  | 0x15 => .immOnly
  | 0x32 => .immOnly
  | 0x10 => { Accepts.immOnly with mem := true, rx := true, lp := true }
  | 0x11 => { Accepts.immOnly with mem := true, rx := true, lp := true }
  | 0x12 => { Accepts.immOnly with mem := true, lp := true }
  | 0x13 => { Accepts.nothing with mem := true, lp := true }
  | 0x20 =>
    match fld w 0 4 with
    | 0 => .vectorRnd
    | 1 => .vectorRnd
    | 2 => .vectorRnd
    | 5 => { Accepts.vectorRnd with vc := true }
    | 6 => { Accepts.vectorRnd with vc := true }
    | 7 => .vectorRnd
    | _ => .vector
  | 0x21 => .vector
  | 0x22 => .vector
  | 0x23 => .vectorRnd
  | 0x24 => .vectorRnd
  | 0x25 => if fld w 0 4 = 5 then .vectorRnd else .vector
  | 0x27 => .vector
  | 0x26 =>
    match fld w 0 4 with
    | 7 => { Accepts.vector with mem := true }
    | 8 => { Accepts.vector with zero := false, mem := true }
    | n => { Accepts.vector with zero := decide (n < 3), mem := true, rx := true }
  | _ => .nothing

/-- The decode faults of R35. -/
def badUnit (cause w pos reason : Nat) : DecodeFault :=
  { cause := cause, word := BitVec.ofNat 32 w, pos := pos, reason := reason }

/-- Step 4 of R34 for the vector prefix. -/
def refuseVec (a : Accepts) (p : Option (Nat × Nat)) : Option DecodeFault :=
  match p with
  | none => none
  | some (w, pos) =>
    if a.vec = false then some (badUnit 3 w pos 3)
    else if (fld w 10 1 = 1 && !a.vc) || (fld w 17 3 ≠ 0 && !a.rnd) || (fld w 20 1 = 1 && !a.zero) then
      some (badUnit 3 w pos 4)
    else none

/-- Step 4 of R34 for the memory prefix. -/
def refuseMem (a : Accepts) (p : Option (Nat × Nat)) : Option DecodeFault :=
  match p with
  | none => none
  | some (w, pos) =>
    if a.mem = false then some (badUnit 3 w pos 3)
    else if (fld w 23 1 = 1 && (fld w 21 2 = 1 || !a.rx)) || (fld w 21 2 = 1 && !a.lp) then some (badUnit 3 w pos 4)
    else none

/-- Step 4 of R34 for the immediate prefix. -/
def refuseImm (a : Accepts) (p : Option (Nat × Nat)) : Option DecodeFault :=
  match p with
  | none => none
  | some (w, pos) => if a.imm = false then some (badUnit 3 w pos 3) else none

/-- Of two refusals the one whose prefix comes first. -/
def firstBad (a b : Option DecodeFault) : Option DecodeFault :=
  match a, b with
  | none, _ => b
  | _, none => a
  | some x, some y => if x.pos ≤ y.pos then some x else some y

/-- Step 4 of R34: the first prefix in address order that the instruction does not accept. The spec gives no order among
the checks of step 4 (DESIGN CHOICE, log 85). -/
def refusePfx (w : Nat) (p : Pfxs) : Option DecodeFault :=
  firstBad (refuseVec (acceptsOf w) p.vec) (firstBad (refuseMem (acceptsOf w) p.mem) (refuseImm (acceptsOf w) p.imm))

/-- The vector prefix as the instruction sees it (R28). -/
def vpfxOf (p : Pfxs) : VPfx :=
  match p.vec with
  | none => { mask := 0, zero := false, rnd := none, vc := none }
  | some (w, _) =>
    { mask := rM (fld w 21 3), zero := fld w 20 1 = 1, rnd := Rnd.ofCode (fld w 17 3),
      vc := if fld w 10 1 = 1 then some (rV (fld w 11 6)) else none }

/-- The memory prefix as a scalar access sees it (R29). -/
def memOf (p : Pfxs) : MemMode :=
  match p.mem with
  | none => .plain
  | some (w, _) => if fld w 23 1 = 1 then .relaxed else if fld w 21 2 = 1 then .leap else .plain

def rxOf (p : Pfxs) : Bool := decide (memOf p = .relaxed)
def lpOf (p : Pfxs) : Bool := decide (memOf p = .leap)

def immOf (p : Pfxs) : Option Nat :=
  match p.imm with
  | none => none
  | some (w, _) => some (fld w 0 24)

/-! ### Instruction words -/

/-- Steps 2 and 3 of R34 on an instruction word. -/
inductive WordRes | ill | rsv | ok (i : Instr)
  deriving DecidableEq, Repr, Inhabited

/-- Step 3 of R34: the fields that must be zero, or in range, are. -/
def chk (good : Bool) (i : Instr) : WordRes := if good then .ok i else .rsv

/-- The et field in bits [lo + 3 : lo] against the types the page allows (R34 steps 2 and 3). -/
def withEt (n : Nat) (allowed : ElemTy → Bool) (k : ElemTy → WordRes) : WordRes :=
  match ElemTy.ofCode n with
  | none => .rsv
  | some e => if allowed e then k e else .ill

def withCond (n : Nat) (k : Cond → WordRes) : WordRes :=
  match Cond.ofCode n with
  | none => .rsv
  | some c => k c

/-- System registers below 0x100 (R71). -/
def sysUser : List Nat :=
  [0x000, 0x001, 0x002, 0x003, 0x004, 0x008, 0x010, 0x011, 0x012, 0x013, 0x014, 0x015, 0x020, 0x021, 0x022, 0x030,
   0x031, 0x032, 0x033, 0x034, 0x040, 0x041, 0x042, 0x043, 0x050, 0x051, 0x052, 0x053, 0x054, 0x060, 0x061, 0x062,
   0x070, 0x071, 0x080]

/-- Supervisor registers (R149, R178, R205, R208, R324). -/
def sysSup : List Nat :=
  [0x100, 0x101, 0x102, 0x103, 0x104, 0x108, 0x110, 0x111, 0x112, 0x113, 0x114, 0x115, 0x118, 0x119, 0x11A, 0x11B,
   0x11C, 0x11D, 0x11E, 0x11F, 0x120, 0x121, 0x122, 0x123]

/-- A system-register number that step 2 of R34 passes. -/
def sysListed (sup : Bool) (n : Nat) : Bool :=
  if n < 0x100 then decide (n ∈ sysUser) else if sup then decide (n ∈ sysSup) else true

def fD (w : Nat) : Nat := fld w 21 5
def fA (w : Nat) : Nat := fld w 16 5
def fB (w : Nat) : Nat := fld w 11 5

def decSys (sup : Bool) (w : Nat) : WordRes :=
  match fld w 12 4 with
  | 0 => chk (fD w = 0 && fA w = 0 && fld w 0 12 = 0) .nop
  | 1 => chk (fD w = 0 && fA w = 0) (.trap (BitVec.ofNat 12 (fld w 0 12)))
  | 2 => chk (fD w = 0 && fA w = 0 && fld w 0 12 = 0) .eret
  | 3 => chk (fD w = 0 && fA w = 0) (.ebreak (BitVec.ofNat 12 (fld w 0 12)))
  | 4 => if sysListed sup (fld w 0 12) then chk (fA w = 0) (.mfs (rS (fD w)) (BitVec.ofNat 12 (fld w 0 12))) else .ill
  | 5 => if sysListed sup (fld w 0 12) then chk (fD w = 0) (.mts (rS (fA w)) (BitVec.ofNat 12 (fld w 0 12))) else .ill
  | 6 => chk (fld w 0 12 = 0) (.tfork (rS (fD w)) (rS (fA w)))
  | 7 => chk (fD w = 0 && fA w = 0 && fld w 0 12 = 0) .texit
  | 8 => chk (fD w = 0 && fA w = 0 && fld w 0 12 = 0) .tyield
  | 9 => chk (fD w = 0 && fA w = 0) (.tmark (BitVec.ofNat 12 (fld w 0 12)))
  | 10 => chk (fD w = 0 && fld w 0 12 = 0) (.safept (rS (fA w)))
  | 11 => chk (fD w = 0 && fA w = 0 && fld w 3 1 = 0 && fld w 7 5 = 0 && fld w 0 3 < 6)
            (.fence (Fin.ofNat 6 (fld w 0 3)) (BitVec.ofNat 3 (fld w 4 3)))
  | 12 => chk (fA w = 0 && fld w 0 12 = 0) (.rclr (rS (fD w)))
  | _ => .ill

def decAlu (w : Nat) : WordRes :=
  let z := decide (fld w 6 5 = 0)
  let d := rS (fD w)
  let a := rS (fA w)
  let b := rS (fB w)
  match fld w 0 6 with
  | 0 => chk z (.add d a b)
  | 1 => chk z (.sub d a b)
  | 2 => chk z (.mul d a b)
  | 3 => chk z (.mulh d a b)
  | 4 => chk z (.mulhu d a b)
  | 5 => chk z (.div d a b)
  | 6 => chk z (.divu d a b)
  | 7 => chk z (.rem d a b)
  | 8 => chk z (.remu d a b)
  | 9 => chk z (.and d a b)
  | 10 => chk z (.or d a b)
  | 11 => chk z (.xor d a b)
  | 12 => chk z (.andn d a b)
  | 13 => chk z (.orn d a b)
  | 14 => chk z (.sll d a b)
  | 15 => chk z (.srl d a b)
  | 16 => chk z (.sra d a b)
  | 17 => chk z (.rol d a b)
  | 18 => chk z (.min d a b)
  | 19 => chk z (.max d a b)
  | 20 => chk z (.minu d a b)
  | 21 => chk z (.maxu d a b)
  | 22 => chk (z && decide (fB w = 0)) (.clz d a)
  | 23 => chk (z && decide (fB w = 0)) (.ctz d a)
  | 24 => chk (z && decide (fB w = 0)) (.pop d a)
  | 25 => chk (z && decide (fB w < 3)) (.sext d a (Fin.ofNat 3 (fB w)))
  | 26 => chk (z && decide (fB w < 3)) (.zext d a (Fin.ofNat 3 (fB w)))
  | 27 => chk z (.bfx d a b)
  | 28 => chk z (.bfi d a b)
  | 29 => chk (fld w 9 2 = 0) (.sel d a b (rP (fld w 6 3)))
  | _ => .ill

def decShi (w : Nat) : WordRes :=
  let z := decide (fld w 6 8 = 0)
  let n := Fin.ofNat 64 (fld w 0 6)
  match fld w 14 2 with
  | 0 => chk z (.slli (rS (fD w)) (rS (fA w)) n)
  | 1 => chk z (.srli (rS (fD w)) (rS (fA w)) n)
  | 2 => chk z (.srai (rS (fD w)) (rS (fA w)) n)
  | _ => chk z (.roli (rS (fD w)) (rS (fA w)) n)

def decLih (w : Nat) : WordRes :=
  chk (fld w 16 2 = 0)
    (if fld w 18 1 = 1 then .lihK (rS (fD w)) (Fin.ofNat 4 (fld w 19 2)) (BitVec.ofNat 16 (fld w 0 16))
     else .lih (rS (fD w)) (Fin.ofNat 4 (fld w 19 2)) (BitVec.ofNat 16 (fld w 0 16)))

def decCmp (w : Nat) : WordRes :=
  withCond (fld w 20 3) fun c =>
    if fld w 13 1 = 1 then
      .ok (.cmpImm (rP (fld w 23 3)) c (fld w 19 1 = 1) (rS (fld w 14 5)) (BitVec.ofNat 13 (fld w 0 13)))
    else chk (fld w 0 8 = 0) (.cmp (rP (fld w 23 3)) c (fld w 19 1 = 1) (rS (fld w 14 5)) (rS (fld w 8 5)))

def decPred (w : Nat) : WordRes :=
  let z := decide (fld w 3 8 = 0)
  let pd := decide (fD w < 8)
  let pa := decide (fA w < 8)
  let pb := decide (fB w < 8)
  match fld w 0 3 with
  | 0 => chk (z && pd && pa && pb) (.pand (rP (fD w)) (rP (fA w)) (rP (fB w)))
  | 1 => chk (z && pd && pa && pb) (.por (rP (fD w)) (rP (fA w)) (rP (fB w)))
  | 2 => chk (z && pd && pa && pb) (.pxor (rP (fD w)) (rP (fA w)) (rP (fB w)))
  | 3 => chk (z && pd && pa && pb) (.pandn (rP (fD w)) (rP (fA w)) (rP (fB w)))
  | 4 => chk (z && pd && pa && decide (fB w = 0)) (.pnot (rP (fD w)) (rP (fA w)))
  | 5 => chk (z && pd && decide (fB w = 0)) (.pmov (rP (fD w)) (rS (fA w)))
  | 6 => chk (z && pa && decide (fB w = 0)) (.pget (rS (fD w)) (rP (fA w)))
  | _ => .ill

def decJr (w : Nat) : WordRes :=
  match fld w 0 11 with
  | 0 => chk (fD w = 0 && fB w = 0) (.jr (rS (fA w)))
  | 1 => chk (fB w = 0) (.jlr (rS (fD w)) (rS (fA w)))
  | _ => .ill

def decLd (w : Nat) (d : Int) (m : MemMode) : WordRes :=
  match fld w 12 4 with
  | 0 => .ok (.ldb (rS (fD w)) (rS (fA w)) d m)
  | 1 => .ok (.ldbu (rS (fD w)) (rS (fA w)) d m)
  | 2 => .ok (.ldh (rS (fD w)) (rS (fA w)) d m)
  | 3 => .ok (.ldhu (rS (fD w)) (rS (fA w)) d m)
  | 4 => .ok (.ldw (rS (fD w)) (rS (fA w)) d m)
  | 5 => .ok (.ldwu (rS (fD w)) (rS (fA w)) d m)
  | 6 => .ok (.ldd (rS (fD w)) (rS (fA w)) d m)
  | _ => .ill

def decSt (w : Nat) (d : Int) (m : MemMode) : WordRes :=
  match fld w 12 4 with
  | 0 => .ok (.stb (rS (fD w)) (rS (fA w)) d m)
  | 1 => .ok (.sth (rS (fD w)) (rS (fA w)) d m)
  | 2 => .ok (.stw (rS (fD w)) (rS (fA w)) d m)
  | 3 => .ok (.std (rS (fD w)) (rS (fA w)) d m)
  | _ => .ill

def decSync (w : Nat) (d : Int) (lp : Bool) : WordRes :=
  match fld w 12 4 with
  | 0 => .ok (.take (rS (fD w)) (rS (fA w)) d lp)
  | 1 => .ok (.peek (rS (fD w)) (rS (fA w)) d lp)
  | 2 => .ok (.give (rS (fD w)) (rS (fA w)) d lp)
  | 3 => .ok (.post (rS (fD w)) (rS (fA w)) d lp)
  | 4 => chk (fD w = 0) (.void (rS (fA w)) d lp)
  | 5 => chk (fD w < 8) (.probe (rP (fD w)) (rS (fA w)) d lp)
  | _ => .ill

def decAtom (w : Nat) (lp : Bool) : WordRes :=
  let z := decide (fld w 4 7 = 0)
  match fld w 0 4 with
  | 0 => chk z (.amoadd (rS (fD w)) (rS (fA w)) (rS (fB w)) lp)
  | 1 => chk z (.amoand (rS (fD w)) (rS (fA w)) (rS (fB w)) lp)
  | 2 => chk z (.amoor (rS (fD w)) (rS (fA w)) (rS (fB w)) lp)
  | 3 => chk z (.amoxor (rS (fD w)) (rS (fA w)) (rS (fB w)) lp)
  | 4 => chk z (.amomin (rS (fD w)) (rS (fA w)) (rS (fB w)) lp)
  | 5 => chk z (.amomax (rS (fD w)) (rS (fA w)) (rS (fB w)) lp)
  | 6 => chk z (.amominu (rS (fD w)) (rS (fA w)) (rS (fB w)) lp)
  | 7 => chk z (.amomaxu (rS (fD w)) (rS (fA w)) (rS (fB w)) lp)
  | 8 => chk z (.amoswap (rS (fD w)) (rS (fA w)) (rS (fB w)) lp)
  | 9 => chk z (.amocas (rS (fD w)) (rS (fA w)) (rS (fB w)) lp)
  | _ => .ill

def decFab (w : Nat) : WordRes :=
  let z := decide (fld w 4 7 = 0)
  match fld w 0 4 with
  | 0 => chk (z && decide (fB w < 6)) (.dist (rS (fD w)) (rS (fA w)) (Fin.ofNat 6 (fB w)))
  | 1 => chk z (.padd (rS (fD w)) (rS (fA w)) (rS (fB w)))
  | 2 => chk z (.pmk (rS (fD w)) (rS (fA w)) (rS (fB w)))
  | 3 => chk (z && decide (fB w < 4)) (.pfld (rS (fD w)) (rS (fA w)) (Fin.ofNat 4 (fB w)))
  | 4 => chk (z && decide (fB w = 0)) (.pfix (rS (fD w)) (rS (fA w)))
  | 5 => chk (z && decide (fD w = 0) && decide (fB w = 0)) (.leap (rS (fA w)))
  | 6 => chk (z && decide (fD w = 0)) (.rput (rS (fA w)) (rS (fB w)))
  | _ => .ill

def decRv (w : Nat) : WordRes :=
  let z := decide (fld w 5 7 = 0) && decide (fld w 0 5 < 24)
  let k := Fin.ofNat 24 (fld w 0 5)
  match fld w 12 4 with
  | 0 => chk (z && decide (fD w = 0)) (.rvinit k (rS (fA w)))
  | 1 => chk (z && decide (fD w = 0) && decide (fA w = 0)) (.rvarr k)
  | 2 => chk (z && decide (fD w = 0) && decide (fA w = 0)) (.rvwait k)
  | 3 => chk (z && decide (fD w < 8) && decide (fA w = 0)) (.rvtest (rP (fD w)) k)
  | _ => .ill

def decJob (w : Nat) : WordRes :=
  let z := decide (fld w 5 6 = 0)
  match fld w 0 4 with
  | 0 =>
    chk (z && decide (fB w < 3))
      (if fld w 4 1 = 1 then .jpushW (rS (fD w)) (rS (fA w)) (Fin.ofNat 3 (fB w))
       else .jpush (rS (fD w)) (rS (fA w)) (Fin.ofNat 3 (fB w)))
  | 1 => chk (z && decide (fld w 4 1 = 0) && decide (fD w = 0)) (.barini (rS (fA w)) (rS (fB w)))
  | 2 => chk (z && decide (fld w 4 1 = 0) && decide (fD w = 0)) (.barexp (rS (fA w)) (rS (fB w)))
  | 3 => chk (z && decide (fld w 4 1 = 0) && decide (fD w = 0)) (.barwt (rS (fA w)) (rS (fB w)))
  | _ => .ill

def decEvt (w : Nat) : WordRes :=
  let z := decide (fld w 4 7 = 0)
  match fld w 0 4 with
  | 0 => chk (z && decide (fD w % 2 = 0)) (.evsend (Fin.ofNat 16 (fD w / 2)) (rS (fA w)) (rS (fB w)))
  | 1 => chk (z && decide (fD w < 30) && decide (fA w = 0) && decide (fB w = 0)) (.evnext (Fin.ofNat 30 (fD w)))
  | 2 => chk (z && decide (fD w = 0) && decide (fA w = 0) && decide (fB w = 0)) .evnull
  | 3 => chk (z && decide (fD w < 8)) (.lkset (Fin.ofNat 8 (fD w)) (rS (fA w)) (rS (fB w)))
  | _ => .ill

def decWork (w : Nat) : WordRes :=
  let z := decide (fld w 4 7 = 0)
  let zk := decide (fld w 9 2 = 0) && decide (fld w 4 2 = 0) && decide (fA w = 0) && decide (fB w = 0)
  match fld w 0 4 with
  | 0 => chk z (.dqpush (rS (fD w)) (rS (fA w)) (rS (fB w)))
  | 1 => chk (zk && decide (fD w < 30)) (.dqpop (Fin.ofNat 30 (fD w)) (rP (fld w 6 3)))
  | 2 => chk (z && decide (fD w = 0) && decide (fA w = 0) && decide (fB w = 0)) .dqsplit
  | 3 => chk (zk && decide (fD w < 30)) (.dqsteal (Fin.ofNat 30 (fD w)) (rP (fld w 6 3)))
  | 4 => chk (z && decide (fA w = 0) && decide (fB w = 0)) (.dqcnt (rS (fD w)))
  | _ => .ill

/-! Format V (R240). -/

def fVd (w : Nat) : Nat := fld w 20 6
def fVa (w : Nat) : Nat := fld w 14 6
def fVb (w : Nat) : Nat := fld w 8 6

def decVa (w : Nat) (q : VPfx) : WordRes :=
  let d := rV (fVd w)
  let a := rV (fVa w)
  let b := rV (fVb w)
  match fld w 0 4 with
  | 0 => withEt (fld w 4 4) ElemTy.upTo11 fun e => .ok (.vadd d a b e q)
  | 1 => withEt (fld w 4 4) ElemTy.upTo11 fun e => .ok (.vsub d a b e q)
  | 2 => withEt (fld w 4 4) ElemTy.upTo11 fun e => .ok (.vmul d a b e q)
  | 3 => withEt (fld w 4 4) ElemTy.upTo11 fun e => .ok (.vmin d a b e q)
  | 4 => withEt (fld w 4 4) ElemTy.upTo11 fun e => .ok (.vmax d a b e q)
  | 5 => withEt (fld w 4 4) ElemTy.upTo11 fun e => .ok (.vfma d a b e q)
  | 6 => withEt (fld w 4 4) ElemTy.upTo11 fun e => .ok (.vfms d a b e q)
  | 7 => withEt (fld w 4 4) ElemTy.upTo11 fun e => .ok (.vdiv d a b e q)
  | 8 => withEt (fld w 4 4) ElemTy.upTo11 fun e => chk (fVb w = 0) (.vabs d a e q)
  | 9 => withEt (fld w 4 4) ElemTy.upTo11 fun e => chk (fVb w = 0) (.vneg d a e q)
  | 10 => withEt (fld w 4 4) ElemTy.isInt fun e => .ok (.vmulh d a b e q)
  | _ => .ill

def decVl (w : Nat) (q : VPfx) : WordRes :=
  let d := rV (fVd w)
  let a := rV (fVa w)
  let b := rV (fVb w)
  match fld w 0 4 with
  | 0 => withEt (fld w 4 4) ElemTy.any fun e => .ok (.vand d a b e q)
  | 1 => withEt (fld w 4 4) ElemTy.any fun e => .ok (.vor d a b e q)
  | 2 => withEt (fld w 4 4) ElemTy.any fun e => .ok (.vxor d a b e q)
  | 3 => withEt (fld w 4 4) ElemTy.any fun e => .ok (.vandn d a b e q)
  | 4 => withEt (fld w 4 4) ElemTy.isInt fun e => .ok (.vshl d a b e q)
  | 5 => withEt (fld w 4 4) ElemTy.isInt fun e => .ok (.vshr d a b e q)
  | 6 => withEt (fld w 4 4) ElemTy.isInt fun e => .ok (.vsra d a b e q)
  | _ => .ill

def decVc (w : Nat) (q : VPfx) : WordRes :=
  match fld w 0 4 with
  | 0 =>
    withEt (fld w 4 4) ElemTy.upTo11 fun e =>
      withCond (fld w 23 3) fun c => .ok (.vcmp (rM (fld w 20 3)) c (rV (fVa w)) (rV (fVb w)) e q)
  | _ => .ill

def decVs (w : Nat) (q : VPfx) : WordRes :=
  let d := rV (fVd w)
  let a := rV (fVa w)
  match fld w 0 4 with
  | 0 => withEt (fld w 4 4) ElemTy.isFlt fun e => chk (fVb w = 0) (.vsqrt d a e q)
  | 1 => withEt (fld w 4 4) ElemTy.isFlt fun e => chk (fVb w = 0) (.vrcp d a e q)
  | 2 => withEt (fld w 4 4) ElemTy.isFlt fun e => chk (fVb w = 0) (.vrsqrt d a e q)
  | 3 => withEt (fld w 4 4) ElemTy.isFlt fun e => chk (fVb w = 0) (.vexp2 d a e q)
  | 4 => withEt (fld w 4 4) ElemTy.isFlt fun e => chk (fVb w = 0) (.vlog2 d a e q)
  | 5 => withEt (fld w 4 4) ElemTy.isFlt fun e => chk (fVb w = 0) (.vtanh d a e q)
  | _ => .ill

def decVx (w : Nat) (q : VPfx) : WordRes :=
  match fld w 0 4 with
  | 0 =>
    withEt (fld w 4 4) ElemTy.any fun e =>
      withEt (fld w 8 4) ElemTy.any fun t => chk (fld w 12 2 = 0) (.vcvt (rV (fVd w)) (rV (fVa w)) t e q)
  | _ => .ill

def decVp (w : Nat) (q : VPfx) : WordRes :=
  let e4 := fld w 4 4
  match fld w 0 4 with
  | 0 => withEt e4 ElemTy.any fun e => .ok (.vperm (rV (fVd w)) (rV (fVa w)) (rV (fVb w)) e q)
  | 1 => withEt e4 ElemTy.any fun e => chk (fVb w < 32) (.vslide (rV (fVd w)) (rV (fVa w)) (rS (fVb w)) e q)
  | 2 => withEt e4 ElemTy.any fun e => chk (fVa w < 32 && fVb w = 0) (.vbcast (rV (fVd w)) (rS (fVa w)) e q)
  | 3 => withEt e4 ElemTy.any fun e =>
           chk (fVd w < 32 && fVb w < 32) (.vextr (rS (fVd w)) (rV (fVa w)) (rS (fVb w)) e q)
  | 4 => withEt e4 ElemTy.any fun e =>
           chk (fVa w < 32 && fVb w < 32) (.vins (rV (fVd w)) (rS (fVa w)) (rS (fVb w)) e q)
  | 5 => withEt e4 ElemTy.upTo11 fun e => chk (fVb w = 0) (.vredsum (rV (fVd w)) (rV (fVa w)) e q)
  | 6 => withEt e4 ElemTy.upTo11 fun e => chk (fVb w = 0) (.vredmax (rV (fVd w)) (rV (fVa w)) e q)
  | 7 => withEt e4 ElemTy.upTo11 fun e => chk (fVb w = 0) (.vredmin (rV (fVd w)) (rV (fVa w)) e q)
  | _ => .ill

def decVk (w : Nat) (q : VPfx) : WordRes :=
  let z := decide (fld w 4 4 = 0)
  let md := decide (fVd w < 8)
  let ma := decide (fVa w < 8)
  let mb := decide (fVb w < 8)
  let b0 := decide (fVb w = 0)
  let d := rM (fVd w)
  let a := rM (fVa w)
  match fld w 0 4 with
  | 0 => chk (z && md && ma && mb) (.mand d a (rM (fVb w)) q)
  | 1 => chk (z && md && ma && mb) (.mor d a (rM (fVb w)) q)
  | 2 => chk (z && md && ma && mb) (.mxor d a (rM (fVb w)) q)
  | 3 => chk (z && md && ma && b0) (.mnot d a q)
  | 4 => chk (z && decide (fVd w < 32) && ma && b0) (.mpop (rS (fVd w)) a q)
  | 5 => chk (z && decide (fVd w < 32) && ma && b0) (.mfirst (rS (fVd w)) a q)
  | 6 => chk (z && md && decide (fVa w < 32) && b0) (.mset d (rS (fVa w)) q)
  | 7 => chk (z && decide (fVd w < 32) && ma && b0) (.mget (rS (fVd w)) a q)
  | _ => .ill

/-! Format VM (R249, R300). -/

def decVm (w : Nat) (rx : Bool) (q : VPfx) : WordRes :=
  let t := rV (fVd w)
  let a := rS (fld w 9 5)
  let b := rS (fld w 4 5)
  let e4 := fld w 5 4
  let z4 := decide (fld w 4 1 = 0)
  let vi0 := decide (fVa w = 0)
  let vw := decide (fVa w < 4)
  match fld w 0 4 with
  | 0 => withEt e4 ElemTy.any fun e => chk (z4 && vi0) (.vld t a e rx q)
  | 1 => chk vw (.vlds t (Fin.ofNat 4 (fVa w)) a b rx q)
  | 2 => withEt e4 ElemTy.any fun e => chk z4 (.vldx t (rV (fVa w)) a e rx q)
  | 3 => withEt e4 ElemTy.any fun e => chk (z4 && vi0) (.vst t a e rx q)
  | 4 => chk vw (.vsts t (Fin.ofNat 4 (fVa w)) a b rx q)
  | 5 => withEt e4 ElemTy.any fun e => chk z4 (.vstx t (rV (fVa w)) a e rx q)
  | 6 => withEt e4 ElemTy.upTo11 fun e => chk z4 (.vstxa t (rV (fVa w)) a e rx q)
  | 7 => chk (vi0 && decide (fld w 4 5 = 0)) (.amov t a q)
  | 8 => chk (vi0 && decide (fld w 4 5 = 0)) (.aput t a q)
  | _ => .ill

def decDa (w : Nat) : WordRes :=
  let z := decide (fld w 4 7 = 0)
  let ad := decide (fD w < 16)
  let aa := decide (fA w < 16)
  let ab := decide (fB w < 16)
  let b0 := decide (fB w = 0)
  let d := rD (fD w)
  let a := rD (fA w)
  let b := rD (fB w)
  match fld w 0 4 with
  | 0 => chk (z && ad && aa && ab) (.dadd d a b)
  | 1 => chk (z && ad && aa && ab) (.dsub d a b)
  | 2 => chk (z && ad && aa && ab) (.dmul d a b)
  | 3 => chk (z && ad && aa && ab) (.ddiv d a b)
  | 4 => chk (z && ad && aa && ab) (.dfma d a b)
  | 5 => chk (z && ad && aa && b0) (.dsqrt d a)
  | 6 => chk (z && ad && aa && b0) (.dneg d a)
  | 7 => chk (z && ad && aa && b0) (.dabs d a)
  | 8 => chk (z && ad && aa && b0) (.dmov d a)
  | 9 => chk (z && ad && aa && b0) (.dround d a)
  | 10 => withCond (fld w 4 3) fun c =>
            chk (decide (fld w 7 4 = 0) && decide (fD w < 8) && aa && ab) (.dcmp (rP (fD w)) c a b)
  | _ => .ill

def decDx (w : Nat) : WordRes :=
  let z := decide (fld w 4 7 = 0) && decide (fB w = 0)
  let ad := decide (fD w < 16)
  let aa := decide (fA w < 16)
  match fld w 0 4 with
  | 0 => chk (z && ad) (.dcvtf (rD (fD w)) (rS (fA w)))
  | 1 => chk (z && aa) (.dcvtd (rS (fD w)) (rD (fA w)))
  | 2 => chk (z && ad) (.dcvti (rD (fD w)) (rS (fA w)))
  | 3 => chk (z && aa) (.dcvtdi (rS (fD w)) (rD (fA w)))
  | 4 => chk (z && aa) (.dhead (rS (fD w)) (rD (fA w)))
  | 5 => chk (z && aa) (.dclass (rS (fD w)) (rD (fA w)))
  | _ => .ill

def decDm (w : Nat) (d : Int) : WordRes :=
  match fld w 12 4 with
  | 0 => chk (fD w < 16) (.ldn (rD (fD w)) (rS (fA w)) d)
  | 1 => chk (fD w < 16) (.stn (rD (fD w)) (rS (fA w)) d)
  | _ => .ill

def decPrec (w : Nat) : WordRes :=
  if fA w = 0 then
    chk (fD w < 17 && 8 ≤ fld w 0 16 && fld w 0 16 ≤ 4096) (.prec (Fin.ofNat 17 (fD w)) (fld w 0 16))
  else chk (fD w < 17 && fld w 0 16 = 0) (.precReg (Fin.ofNat 17 (fD w)) (rS (fA w)))

/-- Steps 2 and 3 of R34 on the instruction word of a unit, with the prefixes' contribution (R38-R41). -/
def decWord (sup : Bool) (w : Nat) (p : Pfxs) : WordRes :=
  let im := immOf p
  let q := vpfxOf p
  match fld w 26 6 with
  | 0x00 => decSys sup w
  | 0x01 => decAlu w
  | 0x02 => .ok (.addi (rS (fD w)) (rS (fA w)) (immS im w))
  | 0x03 => .ok (.andi (rS (fD w)) (rS (fA w)) (immU im w))
  | 0x04 => .ok (.ori (rS (fD w)) (rS (fA w)) (immU im w))
  | 0x05 => .ok (.xori (rS (fD w)) (rS (fA w)) (immU im w))
  | 0x06 => decShi w
  | 0x07 => decLih w
  | 0x08 => decCmp w
  | 0x09 => decPred w
  | 0x0A => .ok (.b (BitVec.ofNat 26 (fld w 0 26)))
  | 0x0B => .ok (.bl (BitVec.ofNat 26 (fld w 0 26)))
  | 0x0C => .ok (if fld w 22 1 = 1 then .bpNot (rP (fld w 23 3)) (BitVec.ofNat 22 (fld w 0 22))
                 else .bp (rP (fld w 23 3)) (BitVec.ofNat 22 (fld w 0 22)))
  | 0x0D => decJr w
  | 0x10 => decLd w (immD im w) (memOf p)
  | 0x11 => decSt w (immD im w) (memOf p)
  | 0x12 => decSync w (immD im w) (lpOf p)
  | 0x13 => decAtom w (lpOf p)
  | 0x14 => decFab w
  | 0x15 => .ok (.paddi (rS (fD w)) (rS (fA w)) (immS im w))
  | 0x17 => decRv w
  | 0x18 => decJob w
  | 0x19 => decEvt w
  | 0x1A => decWork w
  | 0x20 => decVa w q
  | 0x21 => decVl w q
  | 0x22 => decVc w q
  | 0x23 => decVs w q
  | 0x24 => decVx w q
  | 0x25 => decVp w q
  | 0x26 => decVm w (rxOf p) q
  | 0x27 => decVk w q
  | 0x30 => decDa w
  | 0x31 => decDx w
  | 0x32 => decDm w (immD im w)
  | 0x33 => decPrec w
  | _ => .ill

/-! ### Units -/

/-- A decoded unit with its number of words; `more` asks for a further word. -/
inductive Decoded
  | unit (i : Instr) (words : Nat)
  | bad (f : DecodeFault) (words : Nat)
  | more
  deriving DecidableEq, Repr, Inhabited

/-- Whether a word is a prefix (R27). -/
def isPfx (w : Nat) : Bool := decide (fld w 26 6 = 63)

/-- Step 1 of R34 on one prefix word: its semantic-reserved fields (R28-R31). -/
def pfxReserved (w : Nat) : Bool :=
  match fld w 24 2 with
  | 0 => decide (fld w 0 4 ≠ 0) || decide (6 ≤ fld w 17 3)
  | 1 => decide (fld w 0 4 ≠ 0) || decide (2 ≤ fld w 21 2)
  | 2 => false
  | _ => true

/-- Adds a prefix, refusing a kind already present (R27). -/
def addPfx (p : Pfxs) (w pos : Nat) : Option Pfxs :=
  match fld w 24 2 with
  | 0 => if p.vec = none then some { p with vec := some (w, pos) } else none
  | 1 => if p.mem = none then some { p with mem := some (w, pos) } else none
  | _ => if p.imm = none then some { p with imm := some (w, pos) } else none

/-- The checks of R34 steps 1 to 4 in order, on the words from position `pos` on. A third prefix that also repeats a kind
has reason 1: the spec does not say which of reasons 1 and 2 it has (DESIGN CHOICE, log 85). -/
def decFrom (sup : Bool) (p : Pfxs) (pos : Nat) : List (BitVec 32) → Decoded
  | [] => .more
  | x :: rest =>
    let w := x.toNat
    if isPfx w then
      if pfxReserved w then .bad (badUnit 2 w pos 0) (pos + 1)
      else if pos = 2 then .bad (badUnit 3 w pos 1) (pos + 1)
      else
        match addPfx p w pos with
        | none => .bad (badUnit 3 w pos 2) (pos + 1)
        | some p' => decFrom sup p' (pos + 1) rest
    else
      match decWord sup w p with
      | .ill => .bad (badUnit 1 w pos 0) (pos + 1)
      | .rsv => .bad (badUnit 2 w pos 0) (pos + 1)
      | .ok i =>
        match refusePfx w p with
        | some f => .bad f (pos + 1)
        | none => .unit i (pos + 1)

/-- Decodes the unit at the head of a list of words. `sup` is the mode (R34 step 2). -/
def decodeUnit (sup : Bool) (ws : List (BitVec 32)) : Decoded := decFrom sup Pfxs.none 0 ws

/-- The instruction at the head of a list of words and the words after it; none where decoding refuses. -/
def decode (sup : Bool) (ws : List (BitVec 32)) : Option (Instr × List (BitVec 32)) :=
  match decodeUnit sup ws with
  | .unit i n => some (i, ws.drop n)
  | _ => none

/-! ### The encoder (R23-R41, prefix order of R37) -/

/-- The fields of one instruction word and of its prefixes: vector prefix, memory body, immediate body. -/
structure Enc where
  word : Nat
  vec  : Option VPfx
  mem  : Nat
  imm  : Option Nat
  deriving DecidableEq, Repr, Inhabited

def VPfx.none : VPfx := { mask := 0, zero := false, rnd := .none, vc := .none }

def Enc.plain (w : Nat) : Enc := { word := w, vec := none, mem := 0, imm := none }

def encA (op d a b fn : Nat) : Nat := op * 67108864 + d * 2097152 + a * 65536 + b * 2048 + fn
def encI (op d a imm : Nat) : Nat := op * 67108864 + d * 2097152 + a * 65536 + imm
def encM (op t a fn disp : Nat) : Nat := op * 67108864 + t * 2097152 + a * 65536 + fn * 4096 + disp
def encS (d a sub imm : Nat) : Nat := d * 2097152 + a * 65536 + sub * 4096 + imm
def encV (op d a b et vf : Nat) : Nat := op * 67108864 + d * 1048576 + a * 16384 + b * 256 + et * 16 + vf
def encVM (t i a b fn : Nat) : Nat := 0x26 * 67108864 + t * 1048576 + i * 16384 + a * 512 + b * 16 + fn

/-- A number as w bits of two's complement. -/
def low (w : Nat) (i : Int) : Nat := (i % (2 ^ w : Int)).toNat

def fitsS (w : Nat) (i : Int) : Bool := decide (-(2 ^ (w - 1) : Int) ≤ i) && decide (i < 2 ^ (w - 1))

/-- An instruction of format I with a sign-extended immediate (R25). -/
def encImmS (op d a : Nat) (imm : Int) : Enc :=
  if fitsS 16 imm then .plain (encI op d a (low 16 imm))
  else { word := encI op d a (low 16 imm), vec := none, mem := 0, imm := some (low 40 imm / 65536) }

/-- An instruction of format I whose unprefixed immediate is zero-extended (R25). -/
def encImmU (op d a : Nat) (imm : Int) : Enc :=
  if 0 ≤ imm ∧ imm < 65536 then .plain (encI op d a (low 16 imm))
  else { word := encI op d a (low 16 imm), vec := none, mem := 0, imm := some (low 40 imm / 65536) }

def memBody : MemMode → Nat
  | .plain => 0
  | .relaxed => 8388608
  | .leap => 2097152

def lpBody (lp : Bool) : Nat := if lp then 2097152 else 0
def rxBody (rx : Bool) : Nat := if rx then 8388608 else 0

/-- An instruction of format M (R25). -/
def encDisp (op t a fn : Nat) (disp : Int) (mem : Nat) : Enc :=
  if fitsS 12 disp then { word := encM op t a fn (low 12 disp), vec := none, mem := mem, imm := none }
  else { word := encM op t a fn (low 12 disp), vec := none, mem := mem, imm := some (low 36 disp / 4096) }

def encVec (w : Nat) (q : VPfx) : Enc :=
  { word := w, vec := if q = VPfx.none then none else some q, mem := 0, imm := none }

def encVmem (w : Nat) (rx : Bool) (q : VPfx) : Enc := { encVec w q with mem := rxBody rx }

def vecWord (q : VPfx) : Nat :=
  0x3F * 67108864 + q.mask.val * 2097152 + (if q.zero then 1048576 else 0) + Rnd.code q.rnd * 131072
    + (match q.vc with | none => 0 | some r => r.val * 2048 + 1024)

def memWord (body : Nat) : Nat := 0x3F * 67108864 + 16777216 + body
def immWord (body : Nat) : Nat := 0x3F * 67108864 + 33554432 + body

/-- The words of an encoding in the order of R37. -/
def Enc.words (e : Enc) : List (BitVec 32) :=
  (match e.vec with | none => [] | some q => [BitVec.ofNat 32 (vecWord q)])
    ++ (if e.mem = 0 then [] else [BitVec.ofNat 32 (memWord e.mem)])
    ++ (match e.imm with | none => [] | some b => [BitVec.ofNat 32 (immWord b)])
    ++ [BitVec.ofNat 32 e.word]

/-- The encoding of an instruction row; none for a row that has no instruction word. -/
def enc : Instr → Option Enc
  | .nop => some (.plain 0)
  | .trap i => some (.plain (encS 0 0 1 i.toNat))
  | .eret => some (.plain (encS 0 0 2 0))
  | .ebreak i => some (.plain (encS 0 0 3 i.toNat))
  | .mfs d n => some (.plain (encS d 0 4 n.toNat))
  | .mts a n => some (.plain (encS 0 a 5 n.toNat))
  | .tfork d a => some (.plain (encS d a 6 0))
  | .texit => some (.plain (encS 0 0 7 0))
  | .tyield => some (.plain (encS 0 0 8 0))
  | .tmark i => some (.plain (encS 0 0 9 i.toNat))
  | .safept a => some (.plain (encS 0 a 10 0))
  | .fence s e => some (.plain (encS 0 0 11 (s.val + e.toNat * 16)))
  | .rclr d => some (.plain (encS d 0 12 0))
  | .add d a b => some (.plain (encA 1 d a b 0))
  | .sub d a b => some (.plain (encA 1 d a b 1))
  | .mul d a b => some (.plain (encA 1 d a b 2))
  | .mulh d a b => some (.plain (encA 1 d a b 3))
  | .mulhu d a b => some (.plain (encA 1 d a b 4))
  | .div d a b => some (.plain (encA 1 d a b 5))
  | .divu d a b => some (.plain (encA 1 d a b 6))
  | .rem d a b => some (.plain (encA 1 d a b 7))
  | .remu d a b => some (.plain (encA 1 d a b 8))
  | .and d a b => some (.plain (encA 1 d a b 9))
  | .or d a b => some (.plain (encA 1 d a b 10))
  | .xor d a b => some (.plain (encA 1 d a b 11))
  | .andn d a b => some (.plain (encA 1 d a b 12))
  | .orn d a b => some (.plain (encA 1 d a b 13))
  | .sll d a b => some (.plain (encA 1 d a b 14))
  | .srl d a b => some (.plain (encA 1 d a b 15))
  | .sra d a b => some (.plain (encA 1 d a b 16))
  | .rol d a b => some (.plain (encA 1 d a b 17))
  | .min d a b => some (.plain (encA 1 d a b 18))
  | .max d a b => some (.plain (encA 1 d a b 19))
  | .minu d a b => some (.plain (encA 1 d a b 20))
  | .maxu d a b => some (.plain (encA 1 d a b 21))
  | .clz d a => some (.plain (encA 1 d a 0 22))
  | .ctz d a => some (.plain (encA 1 d a 0 23))
  | .pop d a => some (.plain (encA 1 d a 0 24))
  | .sext d a w => some (.plain (encA 1 d a w 25))
  | .zext d a w => some (.plain (encA 1 d a w 26))
  | .bfx d a b => some (.plain (encA 1 d a b 27))
  | .bfi d a b => some (.plain (encA 1 d a b 28))
  | .sel d a b k => some (.plain (encA 1 d a b (29 + k.val * 64)))
  | .addi d a i => some (encImmS 2 d a i)
  | .andi d a i => some (encImmU 3 d a i)
  | .ori d a i => some (encImmU 4 d a i)
  | .xori d a i => some (encImmU 5 d a i)
  | .slli d a n => some (.plain (encI 6 d a n))
  | .srli d a n => some (.plain (encI 6 d a (16384 + n.val)))
  | .srai d a n => some (.plain (encI 6 d a (32768 + n.val)))
  | .roli d a n => some (.plain (encI 6 d a (49152 + n.val)))
  | .lih d p i => some (.plain (encI 7 d (p.val * 8) i.toNat))
  | .lihK d p i => some (.plain (encI 7 d (p.val * 8 + 4) i.toNat))
  | .cmp p c u a b => some (.plain (8 * 67108864 + p.val * 8388608 + c.code * 1048576 + u.toNat * 524288 + a.val * 16384
                                     + b.val * 256))
  | .cmpImm p c u a i => some (.plain (8 * 67108864 + p.val * 8388608 + c.code * 1048576 + u.toNat * 524288
                                         + a.val * 16384 + 8192 + i.toNat))
  | .pand d a b => some (.plain (encA 9 d a b 0))
  | .por d a b => some (.plain (encA 9 d a b 1))
  | .pxor d a b => some (.plain (encA 9 d a b 2))
  | .pandn d a b => some (.plain (encA 9 d a b 3))
  | .pnot d a => some (.plain (encA 9 d a 0 4))
  | .pmov d a => some (.plain (encA 9 d a 0 5))
  | .pget d a => some (.plain (encA 9 d a 0 6))
  | .b d => some (.plain (10 * 67108864 + d.toNat))
  | .bl d => some (.plain (11 * 67108864 + d.toNat))
  | .bp p d => some (.plain (12 * 67108864 + p.val * 8388608 + d.toNat))
  | .bpNot p d => some (.plain (12 * 67108864 + p.val * 8388608 + 4194304 + d.toNat))
  | .jr a => some (.plain (encA 13 0 a 0 0))
  | .jlr d a => some (.plain (encA 13 d a 0 1))
  | .ldb t a d m => some (encDisp 16 t a 0 d (memBody m))
  | .ldbu t a d m => some (encDisp 16 t a 1 d (memBody m))
  | .ldh t a d m => some (encDisp 16 t a 2 d (memBody m))
  | .ldhu t a d m => some (encDisp 16 t a 3 d (memBody m))
  | .ldw t a d m => some (encDisp 16 t a 4 d (memBody m))
  | .ldwu t a d m => some (encDisp 16 t a 5 d (memBody m))
  | .ldd t a d m => some (encDisp 16 t a 6 d (memBody m))
  | .stb t a d m => some (encDisp 17 t a 0 d (memBody m))
  | .sth t a d m => some (encDisp 17 t a 1 d (memBody m))
  | .stw t a d m => some (encDisp 17 t a 2 d (memBody m))
  | .std t a d m => some (encDisp 17 t a 3 d (memBody m))
  | .take t a d lp => some (encDisp 18 t a 0 d (lpBody lp))
  | .peek t a d lp => some (encDisp 18 t a 1 d (lpBody lp))
  | .give t a d lp => some (encDisp 18 t a 2 d (lpBody lp))
  | .post t a d lp => some (encDisp 18 t a 3 d (lpBody lp))
  | .void a d lp => some (encDisp 18 0 a 4 d (lpBody lp))
  | .probe k a d lp => some (encDisp 18 k a 5 d (lpBody lp))
  | .amoadd d a b lp => some { Enc.plain (encA 19 d a b 0) with mem := lpBody lp }
  | .amoand d a b lp => some { Enc.plain (encA 19 d a b 1) with mem := lpBody lp }
  | .amoor d a b lp => some { Enc.plain (encA 19 d a b 2) with mem := lpBody lp }
  | .amoxor d a b lp => some { Enc.plain (encA 19 d a b 3) with mem := lpBody lp }
  | .amomin d a b lp => some { Enc.plain (encA 19 d a b 4) with mem := lpBody lp }
  | .amomax d a b lp => some { Enc.plain (encA 19 d a b 5) with mem := lpBody lp }
  | .amominu d a b lp => some { Enc.plain (encA 19 d a b 6) with mem := lpBody lp }
  | .amomaxu d a b lp => some { Enc.plain (encA 19 d a b 7) with mem := lpBody lp }
  | .amoswap d a b lp => some { Enc.plain (encA 19 d a b 8) with mem := lpBody lp }
  | .amocas d a b lp => some { Enc.plain (encA 19 d a b 9) with mem := lpBody lp }
  | .dist d a k => some (.plain (encA 20 d a k 0))
  | .padd d a b => some (.plain (encA 20 d a b 1))
  | .pmk d a b => some (.plain (encA 20 d a b 2))
  | .pfld d a f => some (.plain (encA 20 d a f 3))
  | .pfix d a => some (.plain (encA 20 d a 0 4))
  | .leap a => some (.plain (encA 20 0 a 0 5))
  | .rput a b => some (.plain (encA 20 0 a b 6))
  | .paddi d a i => some (encImmS 21 d a i)
  | .rvinit k a => some (.plain (encM 23 0 a 0 k))
  | .rvarr k => some (.plain (encM 23 0 0 1 k))
  | .rvwait k => some (.plain (encM 23 0 0 2 k))
  | .rvtest p k => some (.plain (encM 23 p 0 3 k))
  | .jpush d a q => some (.plain (encA 24 d a q 0))
  | .jpushW d a q => some (.plain (encA 24 d a q 16))
  | .barini a b => some (.plain (encA 24 0 a b 1))
  | .barexp a b => some (.plain (encA 24 0 a b 2))
  | .barwt a b => some (.plain (encA 24 0 a b 3))
  | .evsend d a b => some (.plain (encA 25 (2 * d.val) a b 0))
  | .evnext d => some (.plain (encA 25 d 0 0 1))
  | .evnull => some (.plain (encA 25 0 0 0 2))
  | .lkset k a b => some (.plain (encA 25 k a b 3))
  | .dqpush d a b => some (.plain (encA 26 d a b 0))
  | .dqpop d k => some (.plain (encA 26 d 0 0 (1 + k.val * 64)))
  | .dqsplit => some (.plain (encA 26 0 0 0 2))
  | .dqsteal d k => some (.plain (encA 26 d 0 0 (3 + k.val * 64)))
  | .dqcnt d => some (.plain (encA 26 d 0 0 4))
  | .vadd d a b e q => some (encVec (encV 32 d a b e.code 0) q)
  | .vsub d a b e q => some (encVec (encV 32 d a b e.code 1) q)
  | .vmul d a b e q => some (encVec (encV 32 d a b e.code 2) q)
  | .vmin d a b e q => some (encVec (encV 32 d a b e.code 3) q)
  | .vmax d a b e q => some (encVec (encV 32 d a b e.code 4) q)
  | .vfma d a b e q => some (encVec (encV 32 d a b e.code 5) q)
  | .vfms d a b e q => some (encVec (encV 32 d a b e.code 6) q)
  | .vdiv d a b e q => some (encVec (encV 32 d a b e.code 7) q)
  | .vabs d a e q => some (encVec (encV 32 d a 0 e.code 8) q)
  | .vneg d a e q => some (encVec (encV 32 d a 0 e.code 9) q)
  | .vmulh d a b e q => some (encVec (encV 32 d a b e.code 10) q)
  | .vand d a b e q => some (encVec (encV 33 d a b e.code 0) q)
  | .vor d a b e q => some (encVec (encV 33 d a b e.code 1) q)
  | .vxor d a b e q => some (encVec (encV 33 d a b e.code 2) q)
  | .vandn d a b e q => some (encVec (encV 33 d a b e.code 3) q)
  | .vshl d a b e q => some (encVec (encV 33 d a b e.code 4) q)
  | .vshr d a b e q => some (encVec (encV 33 d a b e.code 5) q)
  | .vsra d a b e q => some (encVec (encV 33 d a b e.code 6) q)
  | .vcmp m c a b e q => some (encVec (encV 34 (m.val + c.code * 8) a b e.code 0) q)
  | .vsqrt d a e q => some (encVec (encV 35 d a 0 e.code 0) q)
  | .vrcp d a e q => some (encVec (encV 35 d a 0 e.code 1) q)
  | .vrsqrt d a e q => some (encVec (encV 35 d a 0 e.code 2) q)
  | .vexp2 d a e q => some (encVec (encV 35 d a 0 e.code 3) q)
  | .vlog2 d a e q => some (encVec (encV 35 d a 0 e.code 4) q)
  | .vtanh d a e q => some (encVec (encV 35 d a 0 e.code 5) q)
  | .vcvt d a t e q => some (encVec (encV 36 d a t.code e.code 0) q)
  | .vperm d a b e q => some (encVec (encV 37 d a b e.code 0) q)
  | .vslide d a b e q => some (encVec (encV 37 d a b e.code 1) q)
  | .vbcast d a e q => some (encVec (encV 37 d a 0 e.code 2) q)
  | .vextr d a b e q => some (encVec (encV 37 d a b e.code 3) q)
  | .vins d a b e q => some (encVec (encV 37 d a b e.code 4) q)
  | .vredsum d a e q => some (encVec (encV 37 d a 0 e.code 5) q)
  | .vredmax d a e q => some (encVec (encV 37 d a 0 e.code 6) q)
  | .vredmin d a e q => some (encVec (encV 37 d a 0 e.code 7) q)
  | .mand d a b q => some (encVec (encV 39 d a b 0 0) q)
  | .mor d a b q => some (encVec (encV 39 d a b 0 1) q)
  | .mxor d a b q => some (encVec (encV 39 d a b 0 2) q)
  | .mnot d a q => some (encVec (encV 39 d a 0 0 3) q)
  | .mpop d a q => some (encVec (encV 39 d a 0 0 4) q)
  | .mfirst d a q => some (encVec (encV 39 d a 0 0 5) q)
  | .mset d a q => some (encVec (encV 39 d a 0 0 6) q)
  | .mget d a q => some (encVec (encV 39 d a 0 0 7) q)
  | .vld t a e rx q => some (encVmem (encVM t 0 a (e.code * 2) 0) rx q)
  | .vlds t w a b rx q => some (encVmem (encVM t w a b 1) rx q)
  | .vldx t i a e rx q => some (encVmem (encVM t i a (e.code * 2) 2) rx q)
  | .vst t a e rx q => some (encVmem (encVM t 0 a (e.code * 2) 3) rx q)
  | .vsts t w a b rx q => some (encVmem (encVM t w a b 4) rx q)
  | .vstx t i a e rx q => some (encVmem (encVM t i a (e.code * 2) 5) rx q)
  | .vstxa t i a e rx q => some (encVmem (encVM t i a (e.code * 2) 6) rx q)
  | .amov t a q => some (encVec (encVM t 0 a 0 7) q)
  | .aput t a q => some (encVec (encVM t 0 a 0 8) q)
  | .dadd d a b => some (.plain (encA 48 d a b 0))
  | .dsub d a b => some (.plain (encA 48 d a b 1))
  | .dmul d a b => some (.plain (encA 48 d a b 2))
  | .ddiv d a b => some (.plain (encA 48 d a b 3))
  | .dfma d a b => some (.plain (encA 48 d a b 4))
  | .dsqrt d a => some (.plain (encA 48 d a 0 5))
  | .dneg d a => some (.plain (encA 48 d a 0 6))
  | .dabs d a => some (.plain (encA 48 d a 0 7))
  | .dmov d a => some (.plain (encA 48 d a 0 8))
  | .dround d a => some (.plain (encA 48 d a 0 9))
  | .dcmp p c a b => some (.plain (encA 48 p a b (10 + c.code * 16)))
  | .dcvtf d a => some (.plain (encA 49 d a 0 0))
  | .dcvtd d a => some (.plain (encA 49 d a 0 1))
  | .dcvti d a => some (.plain (encA 49 d a 0 2))
  | .dcvtdi d a => some (.plain (encA 49 d a 0 3))
  | .dhead d a => some (.plain (encA 49 d a 0 4))
  | .dclass d a => some (.plain (encA 49 d a 0 5))
  | .ldn t a d => some (encDisp 50 t a 0 d 0)
  | .stn t a d => some (encDisp 50 t a 1 d 0)
  | .prec n p => some (.plain (encI 51 n 0 p))
  | .precReg n a => some (.plain (encI 51 n a 0))
  | .illegalInstruction _ => none
  | .mma => none
  | .mzero => none
  | .mfmt => none
  | .mstore => none
  | .mcheck => none
  | .copy => none
  | .fill => none
  | .gather => none
  | .scatter => none
  | .scatteradd => none
  | .coll => none
  | .digest => none
  | .launch => none
  | .jobEnd => none
  | .jobStatusWord => none
  | .collProceed => none
  | .memberTimeout => none
  | .digestDecision => none
  | .homeAccess => none
  | .tableWalk => none
  | .accessResponse => none
  | .relaxedAccessCompletion => none
  | .busyResend => none
  | .syncTimeout => none
  | .rendezvousRelease => none
  | .rendezvousTimeout => none
  | .rputArrival => none
  | .leapArrival => none
  | .leapBounce => none
  | .leapResend => none
  | .arrivalAcknowledgement => none
  | .containmentReset => none
  | .resume => none
  | .deliver => none
  | .terminate => none
  | .vacate => none
  | .restore => none
  | .saveWriteAcknowledgement => none
  | .contextSaveFault => none
  | .slotDisable => none
  | .slotReenable => none
  | .rankingRefresh => none
  | .save => none
  | .teamTerminate => none
  | .discard => none
  | .sliceExpiry => none
  | .teamSave => none
  | .preemptionTimeout => none
  | .scan => none
  | .placement => none
  | .create => none
  | .delete => none
  | .switchIn => none
  | .switchOut => none
  | .tailWrite => none
  | .headRead => none
  | .calendBoundary => none
  | .translationShootdown => none
  | .relocate => none
  | .retireStub => none
  | .reinstate => none
  | .thermalEvacuation => none
  | .poolSupply => none
  | .moveCompletion => none
  | .correctedError => none
  | .uncorrectableError => none
  | .parityReplay => none
  | .rowSparing => none
  | .spareSwitch => none
  | .spareRowError => none
  | .unfence => none
  | .checkpointNow => none
  | .restoreTierOne => none
  | .invalidate => none
  | .checkpointComplete => none
  | .modulePowerFailure => none
  | .bringUp => none
  | .firmwareUpload => none
  | .keyInstall => none
  | .flitReplay => none
  | .peerLinkDown => none
  | .peerRequest => none
  | .hostBarAccess => none
  | .timeSync => none
  | .eventEntry => none
  | .eventBusyAnswer => none
  | .eventResend => none
  | .eventDispatch => none
  | .endOfLocalTime => none
  | .almanacMessage => none
  | .almanacHoldExpiry => none
  | .vigilRound => none
  | .vigilEvent => none
  | .linkRegistration => none
  | .hold => none
  | .release => none
  | .step => none
  | .cancel => none
  | .releaseOne => none
  | .armedTaskEntryWrite => none
  | .debugWindowWrite => none
  | .dump => none
  | .triggerArm => none
  | .triggerTransition => none
  | .solsticePulse => none
  | .histogramClear => none
  | .traceRecordWrite => none
  | .fqbWrite => none
  | .fqrWrite => none
  | .hfqbWrite => none
  | .hfqrWrite => none
  | .divsClear => none
  | .registerWrite => none
  | .stealVisit => none
  | .peerLinkUp => none
  | .restoreTierOneComplete => none

/-- The words of an instruction, prefixes first (R37). -/
def encode (i : Instr) : List (BitVec 32) :=
  match enc i with
  | some e => e.words
  | none => []

/-- The instruction of an opcode-table word: the words of the number, lowest first, given to the decoder. -/
def decodeTableWord (nbits w : Nat) : Option Instr :=
  let v := w % 2 ^ nbits
  match decode false [BitVec.ofNat 32 v, BitVec.ofNat 32 (v / 2 ^ 32), BitVec.ofNat 32 (v / 2 ^ 64)] with
  | some (i, _) => some i
  | none => none

end Sys2Proof
end

