-- ==== Sys2Proof/Config.lean ====
section
/-! DEFINITION. What the manual leaves to the implementation or to the outside: constants with a value are DESIGN
CHOICE (each named in a log entry); opaque constants are free values, of which nothing can be proved. -/

namespace Sys2Proof.Config

/-- Latency of a host-window access (R79: "its latency is set by the host"): a free value. Log 13. -/
opaque hostLatency : Nat

/-- Latency of a peer-device access (R320: "set by the peer"): a free value. Log 13. -/
opaque peerLatency : Nat

/-- A word that a peer device returns (R324): a free value, by a counter of the state. Log 3. -/
opaque peerWord : Nat → BitVec 64

/-- How a peer device answers an access (R323, R324): served, or refused with a cause, its detail and whether the host
driver is notified. A free value. Log 3. -/
opaque peerAnswer : Nat → Option (Nat × Nat × Bool)

/-- What a key makes of a 16-byte block at a place (R372, AES-XTS with the line's place as tweak): some permutation of the
blocks, a free value. Log 84. -/
opaque blockCipher (key block : Nat) : BitVec 128 ≃ BitVec 128

/-- The ticks that a trace record takes from its source to the trace unit (R410): a free value. Log 58. -/
opaque recordWay : (src : Nat) → Nat

/-- The cycles in which a controller copies a row into its spare (R419): a free value. Log 91. -/
opaque rowCopy : Nat

/-- A byte of an encrypted dump (R411): a free value. Log 3. -/
opaque cipherWord : Nat → BitVec 64

/-- The MSI-X vector of a virtual function that is raised for launch-queue progress (R426), not stated. Log 3. -/
opaque progressVector : Nat

/-- Whether a write to the host driver's ring ends in an error completion (R151), which the host decides: a free value.
Log 3. -/
opaque hostWriteFails : Nat → Bool

/-- A word of a record that no rule gives a value (R410). Log 3. -/
opaque openWord : Nat → BitVec 64

/-- Where a class F function begins to return the upper of the two values that bracket its true result, by function
code (12 for `vlog2` where its result is negative), element type and the bits of the lower value, as a place in the order
of the operand's encodings (R245: either of the two values, monotonic, the same on every core). A free value. Log 14. -/
opaque classFSplit : Nat → ElemTy → Nat → Int

end Sys2Proof.Config
end

