-- ==== Sys2Proof/Machine/State.lean ====
section
/-! DEFINITION. The state of the ZE64 as plain data: threads, tiles, ports, clusters, partitions, device units, the
messages in flight, and the state right after reset. -/

namespace Sys2Proof.Machine

/-- Reasons a step stops with a fault. -/
inductive Fault
  /-- Raised by the meaning of an instruction row when no unit is being executed (State.cur names no living thread):
  a core executes instructions only for a thread (R10, R12). Safe. -/
  | noThread
  /-- Raised by a row for an act of an engine, home or outside agent whose subject does not exist in the state (no
  such job, request, thread, team or move): the act cannot happen there. Safe. -/
  | notEnabled
  deriving DecidableEq, Repr

/-- Reasons a step is refused. -/
inductive Refusal
  /-- Raised by an arm of exec whose row has no meaning yet. Safe. -/
  | notModelled (mnemonic : String)
  deriving DecidableEq, Repr

/-! ### Threads -/

/-- Where a thread stands (R10, R75): in a slot, vacated from it (R159), on its way to another tile, or in a core's
arrival queue (R197). -/
inductive Standing | inSlot | vacated | transit | queued
  deriving DecidableEq, Repr, Inhabited

/-- What a unit needs before it may issue (R57, R69, R130): registers it reads, registers it writes that an
outstanding access may have emptied, and the waits for earlier relaxed accesses and events. -/
structure Need where
  sr : List SReg
  sd : List SReg
  pr : List PReg
  mr : List MReg
  vr : List VReg
  vd : List VReg
  rx : Bool
  ev : Bool
  deriving DecidableEq, Repr, Inhabited

/-- What a redundant pair's thread presents to the store comparator (R85). -/
structure Present where
  kind  : Nat
  ptr   : Word
  width : Nat
  data  : List Word
  deriving DecidableEq, Repr, Inhabited

/-- Why a thread does not issue (R75, R76). `evHeld` is an `evsend` that found 16 events held (R350), `evEnter` one over a
self link whose event has not been entered (R137). -/
inductive Wait
  | none
  | issue (n : Need)
  | relaxedFull
  | access (fid : Nat)
  | rvwait (k : Fin 24)
  | rvarr (k : Fin 24)
  | jobQueue (job : Job) (q : Nat) (w : Bool)
  | jobDone (jid : Nat)
  | evnext (d : Fin 30) (since : Nat)
  | evHeld (m : EventMsg)
  | evEnter (m : EventMsg)
  | leap
  | fence (engines : BitVec 3) (system : Bool)
  | tyield (until_ : Nat)
  | amov (put : Bool) (t : VReg) (off : Nat) (q : VPfx) (npc : Ptr) (jobs : List Nat) (since : Nat)
  | safept
  | comparator (p : Present)
  | lvq
  deriving DecidableEq, Repr, Inhabited

/-- What to do with the answers of a unit's accesses when all have come. -/
inductive FlOp
  | loadS (t : SReg) (n : Nat) (sx : Bool)
  | storeS
  | syncLoad (t : SReg)
  | probe (k : PReg)
  | amo (d : SReg)
  | pfix (d : SReg)
  | vload (t : VReg) (w pw : Nat) (mask : Word) (zero : Bool)
  | vstore
  | ldn (t : DReg) (ptr : Ptr)
  | stn (flags : Nat)
  | rput
  | lkset (k : Fin 8) (target look : Nat)
  | steal (d : Fin 30) (k : PReg)
  | fault
  deriving DecidableEq, Repr, Inhabited

/-- A fault found for one part of a unit (R154): cause, detail, pointer, tick. -/
structure PartFault where
  cause : Nat
  info  : Nat
  addr  : Word
  tick  : Nat
  host  : Bool
  deriving DecidableEq, Repr, Inhabited

/-- A part not sent yet (R251). `line` marks a word of a 64-byte access, which is sent with its others in one cycle:
its message bits, none for the words after the first. -/
structure PartReq where
  part : Nat
  ptr  : Ptr
  op   : AccOp
  line : Option Nat
  deriving DecidableEq, Repr, Inhabited

/-- A part that has been sent (R154, R251): once it is performed, the cycle in which its answer is back at the router
that the unit sent it to. -/
structure Sent where
  part : Nat
  ptr  : Ptr
  back : Option Nat
  deriving DecidableEq, Repr, Inhabited

/-- A unit whose accesses are under way (R54, R56, R154). `sent` holds the parts of the run under way, `minEnd` the
cycle before which the run does not end (R254, R267). -/
structure Flight where
  fid    : Nat
  rx     : Bool
  fpc    : Ptr
  npc    : Ptr
  op     : FlOp
  first  : Nat
  parts  : Nat
  out    : List Nat
  pend   : List (List PartReq)
  got    : AMap (List Word)
  flags  : Nat
  bad    : AMap PartFault
  sent   : List Sent
  minEnd : Nat
  charge : Nat
  stub   : Option Nat
  fee    : Nat
  lv     : Nat
  done   : Bool
  deriving DecidableEq, Repr, Inhabited

/-- The fault record (R140, R141). -/
structure FaultRec where
  cause : Word
  addr  : Word
  pc    : Word
  info  : Word
  tsc   : Word
  deriving DecidableEq, Repr, Inhabited

/-- A fault that is delivered at the thread's next unit (R186, R212, R295). -/
structure LateFault where
  cause : Nat
  addr  : Word
  info  : Word
  tick  : Nat
  deriving DecidableEq, Repr, Inhabited

/-- The distance meter (R184). -/
structure Meter where
  dmt  : Word
  dml  : Word
  cnt  : Bool
  trap : Bool
  jobs : Bool
  deriving DecidableEq, Repr, Inhabited

/-- Dennum system registers (R260, R261). -/
structure DnRegs where
  prc   : Nat
  dlive : Nat
  dctl  : Word
  dslot : Nat
  deriving DecidableEq, Repr, Inhabited

/-- Vector system registers (R235, R236). -/
structure VecRegs where
  vctl  : Word
  vstat : Word
  vbnd  : Word
  deriving DecidableEq, Repr, Inhabited

/-- Local-time registers (R346). -/
structure LtRegs where
  vck  : Word
  esrc : Word
  vend : Word
  vgdl : Word
  zlk  : Word
  deriving DecidableEq, Repr, Inhabited

/-- An entry of a pair's load-value queue (R84): one unit's result, kept by the number of that unit among those that
enter one. `pending` holds the place of an access or job that has not ended, by its number; `got` is what came of a
unit's accesses, faults included. -/
inductive LvEntry
  | pending (id : Nat)
  | vals (vs : List Word)
  | got (g : AMap (List Word)) (flags : Nat) (bad : AMap PartFault) (stub : Option Nat)
  deriving DecidableEq, Repr, Inhabited

/-- A thread with everything that travels with it (R67, R71, R72, R124, R158). `origins` are the slots it has leapt from
whose arrival acknowledgement is on its way (R198), `saved` the words last written to its save record, `away` code and
operand of the wait that its swap withdrew (R158, R159), `recSlot` the slot it was vacated from (R157), `rvOn` whether the
cycles of its `rvwait` are being counted (R132), `rvDue` the cycle in which its parked `rvarr` is counted after a
release (R129), `ending` that it ends once its relaxed accesses have been performed (R96, R384). -/
structure Thread where
  partn  : Nat
  serial : Nat
  tser   : Nat
  sup    : Bool
  role   : Nat
  ltm    : Bool
  tile   : Nat
  slot   : Nat
  stand  : Standing
  pc     : Ptr
  s      : AMap Word
  sEmpty : BitVec 32
  sOut   : BitVec 32
  sPois  : BitVec 32
  p      : BitVec 8
  pEmpty : BitVec 8
  pPois  : BitVec 8
  m      : AMap Word
  mEmpty : BitVec 8
  mPois  : BitVec 8
  vn     : Nat
  dwin   : Nat
  rows   : List Nat
  rvRec  : BitVec 24
  rvArr  : BitVec 24
  inHandler : Bool
  resume : Nat
  fr     : FaultRec
  tvec   : Word
  meter  : Meter
  dn     : DnRegs
  vec    : VecRegs
  lt     : LtRegs
  racc   : Word
  syto   : Word
  rvto   : Word
  wait   : Wait
  readyAt : Nat
  released : Bool
  stopped : Bool
  held    : Bool
  exempt  : Bool
  debugged : Bool
  stepping : Bool
  flights : List Flight
  rxNext  : Nat
  late    : List LateFault
  table   : Option Ptr
  jobsIn  : List (SReg × Nat)
  rvSince : Nat
  rvSpent : Nat
  rvDue   : Option Nat
  displaced : Option Nat
  leaving : Nat
  lvq     : AMap LvEntry
  lvSeq   : Nat
  origins : List (Nat × Nat)
  saved   : List Word
  recSlot : Nat
  away    : Option (Nat × Word)
  rvOn    : Bool
  ending  : Bool
  deriving DecidableEq, Repr, Inhabited

/-! ### Tiles -/

/-- A scratchpad block's directory state (R206). -/
inductive BlockState | present | forwarded | vacated
  deriving DecidableEq, Repr, Inhabited

structure Block where
  st     : BlockState
  lodged : Bool
  count  : Nat
  stub   : Ptr
  deriving DecidableEq, Repr, Inhabited

/-- A relocation under way on a tile (R211), of a partition's block, since a tick; `latest` while no RLCMD write has followed
the one that started it. `held` are the accesses that wait for its end, in order of arrival: those of threads, and acts of
the hardware that made one; `stalled` are acts that a condition makes due again once the move is over. -/
structure Move where
  partn  : Nat
  since  : Nat
  reason : Nat
  block  : Nat
  dest   : Ptr
  ack    : Option Req
  latest : Bool
  held   : List Act
  stalled : List Act
  deriving DecidableEq, Repr, Inhabited

/-- The orphan word (R201). -/
structure Orphan where
  count  : Nat
  reason : Nat
  slot   : Nat
  source : Nat
  deriving DecidableEq, Repr, Inhabited

/-- A range of a deque (R387). -/
structure Range where
  lo  : Word
  hi  : Word
  tag : Word
  deriving DecidableEq, Repr, Inhabited

/-- An outbound link slot (R348, R354). -/
structure OutLink where
  dst   : Nat
  look  : Nat
  sent  : Word
  lastMsg : Option Nat
  hold  : Option Word
  deriving DecidableEq, Repr, Inhabited

/-- An inbound link (R348, R351). -/
structure InLink where
  src  : Nat
  look : Nat
  p    : Word
  deriving DecidableEq, Repr, Inhabited

/-- A pending event (R349): its stamp, payload, sender and order of arrival. -/
structure Event where
  t    : Word
  pay0 : Word
  pay1 : Word
  src  : Nat
  deriving DecidableEq, Repr, Inhabited

/-- What the examinations and end tests of one cycle go by (R351, R352): the floor and whether all threads were parked,
as they stood at the cycle's start; once a dispatch or an end has taken place in it (`spent`), the lowest pending event
before that. -/
structure EvSnap where
  cycle : Nat
  floor : Word
  allParked : Bool
  head  : Option Event
  spent : Bool
  deriving DecidableEq, Repr, Inhabited

/-- The event unit of a tile (R345-R359). `kept` are the words F and H of a team that has been saved, till the next team's
event unit is set up. -/
structure Evu where
  active  : Bool
  closed  : Bool
  cck     : Word
  out     : AMap OutLink
  inb     : AMap InLink
  pending : List Event
  held    : List EventMsg
  snap    : Option EvSnap
  blockedFrom : Option Nat
  lastRound : Option Nat
  rounds  : Nat
  blkH    : Word
  blkHead : Option Event
  ltmt    : Word
  drops   : Nat
  kept    : Option (Word × Word)
  deriving DecidableEq, Repr, Inhabited

/-- An entry of the context cache (R156, R159): the vacated thread, whether its save record is written. -/
structure CacheEnt where
  uid     : Nat
  written : Bool
  kept    : Bool
  deriving DecidableEq, Repr, Inhabited

/-- A tile (R8) beside its scratchpad words and threads: `temp`, `thresh` and `hyst` are the core's temperature and its
limits, `thermAt` the tick at which it last disabled or re-enabled a slot (R80), `sample` the record that it latched at the
latest Solstice pulse (R407). -/
structure Tile where
  last     : Nat
  lastIssue : Option Nat
  lastPc   : Ptr
  disabled : List Nat
  reserved : List Nat
  temp     : Nat
  thresh   : Nat
  hyst     : Nat
  thermAt  : Option Nat
  arrivals : List LeapMsg
  cache    : List CacheEnt
  pool     : AMap Word
  poolEmpty : List Nat
  poolPois : List Nat
  csav     : Word
  dqsp     : Word
  evsp     : Word
  tcw      : AMap Nat
  orphan   : Orphan
  blocks   : AMap Block
  rldst    : Word
  rlout    : Nat
  rlblk    : Nat
  rlReq    : Option Req
  poolWait : Bool
  move     : Option Move
  moves    : List (Nat × Nat)
  corr     : AMap (Nat × Nat)
  waiters  : List Req
  deque    : List Range
  sample   : BitVec 32
  evu      : Evu
  deriving DecidableEq, Repr, Inhabited

/-! ### Ports -/

/-- A cached leaf (R177). -/
structure Leaf where
  partn : Nat
  lvl   : Nat
  base  : Nat
  frame : Nat
  w     : Bool
  x     : Bool
  enc   : Bool
  lock  : Bool
  deriving DecidableEq, Repr, Inhabited

/-- A row-sparing copy of a tier-one device (R419). -/
structure Sparing where
  bank  : Nat
  row   : Nat
  spare : Nat
  deriving DecidableEq, Repr, Inhabited

/-- Where an access in a port's list stands (R177): it waits for a walker, its walk is under way until a cycle, or it
waits for earlier accesses to its word alone. -/
inductive WalkPhase | waiting | walking (until_ : Nat) | ready
  deriving DecidableEq, Repr, Inhabited

/-- An access that could not be performed on arrival at a port; `o` is its offset behind the port. -/
structure WalkEnt where
  r     : Req
  o     : Nat
  phase : WalkPhase
  deriving DecidableEq, Repr, Inhabited

/-- A tier-one or tier-two port; `walks` is in order of arrival. `rowErrs` counts the corrected errors of rows, by bank and
row, `toSpare` are rows that wait for the copy under way (R419). -/
structure Port where
  leaves  : List Leaf
  walks   : List WalkEnt
  waiters : List Req
  spared  : List (Nat × Nat × Nat)
  badSpares : List (Nat × Nat)
  copying : Option Sparing
  rowErrs : AMap Nat
  toSpare : List (Nat × Nat)
  deriving DecidableEq, Repr, Inhabited

/-! ### Clusters -/

/-- A core's format context and check state (R286, R287, R295). -/
structure MxCtx where
  afmt : Nat
  bfmt : Nat
  rnd  : Nat
  rplanes : Nat
  arec : Ptr
  brec : Ptr
  orec : Ptr
  chkN : Nat
  chkR : Nat
  cnt  : Nat
  deriving DecidableEq, Repr, Inhabited

/-- How a word is delivered: whole, the bytes of a mask, added lane by lane, to a peer device, or added there; or no word
at all: an element passed over, of which only the reads count (R330). -/
inductive DelivKind | word | bytes (mask : Nat) | addLanes (et : ElemTy) | peer (peer : Nat) | peerAdd (peer : Nat) (et : ElemTy) | pass
  deriving DecidableEq, Repr, Inhabited

/-- One word an engine delivers at its job's end (R294, R321, R331). `pos` numbers the element it belongs to, `bytes`
is what it adds to the barrier object, `elems` the elements it completes, `clear` the accumulator bytes it zeroes,
`charge` its late charge, `rcharge` that of the read it comes from. -/
structure Deliv where
  pos  : Nat
  ptr  : Ptr
  val  : Word
  kind : DelivKind
  bytes : Nat
  elems : Nat
  clear : List (Nat × Nat)
  charge : Nat
  rcharge : Nat
  deriving DecidableEq, Repr, Inhabited

/-- An event that ends a job early (R297, R323): status, reason, the page fault to post, the rectangle to contain. -/
structure JobEv where
  status : Nat
  reason : Nat
  page : Option (Ptr × Nat × Bool)
  rect : Option Nat
  deriving DecidableEq, Repr, Inhabited

/-- A job in its engine (R284, R319): what it has done at its start and will deliver at its end. `count` is what it
has completed, `bytes` what that adds to the barrier object, `acc` the block a checked job may commit, `evAt` the element
or position that met the event, `phase` the cycles of the phase in which elements are sent, `links` its peer links. -/
structure Running where
  job    : Job
  ci     : Nat
  start  : Nat
  stop   : Nat
  consumed : Nat
  ev     : Option JobEv
  count  : Nat
  checked : Bool
  bytes  : Nat
  acc    : List Host.Cell
  recs   : List Word
  deliv  : List Deliv
  skip   : Bool
  skipped : Bool
  charge : Nat
  links  : List Nat
  evAt   : Nat
  phase  : Nat
  deriving DecidableEq, Repr, Inhabited

/-- The matrix engine of a cluster (R282-R286). -/
structure Mxe where
  last   : Nat
  queues : AMap (List Job)
  ctxs   : AMap MxCtx
  run    : Option Running
  deriving DecidableEq, Repr, Inhabited

/-- A collective that has sent its contribution (R319, R335). -/
structure CollSlot where
  job   : Job
  ci    : Nat
  key   : CollKey
  rank  : Nat
  g     : Nat
  contrib : List Word
  joined : Nat
  proceeding : Bool
  result : List Word
  count : Nat
  links : List Nat
  digest : BitVec 128
  status : Option Word
  deriving DecidableEq, Repr, Inhabited

/-- A registered digest region (R337); `coll` is the collective that folds it. -/
structure DigestReg where
  ptr   : Ptr
  len   : Nat
  group : Nat
  coll  : Option Nat
  deriving DecidableEq, Repr, Inhabited

/-- The copy unit of a cluster (R319, R337). -/
structure Cu where
  last   : Nat
  queues : AMap (List Job)
  run    : Option Running
  slots  : List CollSlot
  regs   : AMap (List DigestReg)
  deriving DecidableEq, Repr, Inhabited

structure Cluster where
  mxe : Mxe
  cu  : Cu
  deriving DecidableEq, Repr, Inhabited

/-! ### Partitions -/

/-- A supervisor or host fault-queue entry (R150), with the order keys of R14; `tag` names the channel, bank or link of a
notice (R151), 0 for other entries. -/
structure Entry where
  cause : Word
  tid   : Nat
  addr  : Word
  pc    : Word
  info  : Word
  tsc   : Nat
  loc   : Word
  flags : Nat
  src   : Nat
  tag   : Nat
  deriving DecidableEq, Repr, Inhabited

/-- A partition's frame while it is live (R172, R178). -/
structure Frame where
  ox   : Nat
  oy   : Nat
  w    : Nat
  h    : Nat
  chans : List Nat
  ptroot : Word
  hwsz : Word
  conf : Bool
  deriving DecidableEq, Repr, Inhabited

/-- A launch queue (R374-R376). `head` is the head entry once read, with `reading` while the read is in flight and `tried`
once a scan has tried it. -/
structure Queue where
  lqb  : Word
  lqn  : Nat
  lqt  : Nat
  lqp  : Nat
  resident : Bool
  retired : Nat
  rejected : Nat
  reason : Nat
  prio : Nat
  en   : Bool
  lqsv : Word
  reading : Bool
  head : Option (List Word)
  tried : Bool
  deriving DecidableEq, Repr, Inhabited

/-- A rendezvous point (R123). -/
structure Point where
  expected : Nat
  arrived  : Nat
  phase    : Bool
  closed   : Bool
  deriving DecidableEq, Repr, Inhabited

/-- Where a team came from, for its retirement (R379, R382). -/
inductive TeamSrc | sup | host (q : Nat) | device (job : Job)
  deriving DecidableEq, Repr, Inhabited

/-- A pre-emption request (R162, R166): who made it. -/
inductive PreReq | slice | preq | both
  deriving DecidableEq, Repr, Inhabited

/-- A placed team (R10, R378-R384). -/
structure Team where
  ox   : Nat
  oy   : Nat
  w    : Nat
  h    : Nat
  t    : Nat
  v    : Nat
  win  : Nat
  pair : Bool
  ltm  : Bool
  sup  : Bool
  prio : Nat
  sd   : Nat
  slice : Nat
  sliceEnd : Nat
  launch : Nat
  words : List Word
  src  : TeamSrc
  started : Bool
  holding : Bool
  points : AMap Point
  req  : Option PreReq
  reqAt : Nat
  reason : Nat
  deriving DecidableEq, Repr, Inhabited

/-- What a saved core of a team holds beside its threads (R165, R305, R365). -/
structure CoreImage where
  tile  : Nat
  deque : List Range
  dqsp  : Word
  evsp  : Word
  evu   : Evu
  acc   : List Host.Cell
  ctx   : MxCtx
  mjobs : List Job
  cjobs : List Job
  regs  : List DigestReg
  deriving DecidableEq, Repr, Inhabited

/-- One saved scratchpad word (R165). -/
structure SavedWord where
  val  : Word
  full : Bool
  pois : Bool
  deriving DecidableEq, Repr, Inhabited

/-- A listed range as it is saved: its words in order, none for one that is not the team's to save (R214). -/
structure SavedRange where
  ptr   : Ptr
  words : List (Option SavedWord)
  deriving DecidableEq, Repr, Inhabited

/-- A saved thread with the granules of its rows and those of them that are poisoned. -/
structure SavedThread where
  uid  : Nat
  th   : Thread
  grans : List (Nat × Word)
  pois : List Nat
  deriving DecidableEq, Repr, Inhabited

/-- A team image in a pool slot (R165, R386). -/
structure Image where
  partn : Nat
  serial : Nat
  team  : Team
  slot  : Nat
  order : Nat
  tsc   : Nat
  threads : List SavedThread
  cores : List CoreImage
  ranges : List SavedRange
  deriving DecidableEq, Repr, Inhabited

/-- A containment rectangle (R415). -/
structure Rect where
  x : Nat
  y : Nat
  w : Nat
  h : Nat
  valid  : Bool
  fenced : Bool
  resets : Nat
  deriving DecidableEq, Repr, Inhabited

/-- A trigger (R409): its four words, the `tmark` units counted since it was armed, and the latest unit that met its
start and its stop condition: cycle, TID, PC. -/
structure Trigger where
  w0 : Word
  w1 : Word
  w2 : Word
  w3 : Word
  marks : Nat
  startHit : Option (Nat × Nat × Word)
  stopHit : Option (Nat × Nat × Word)
  deriving DecidableEq, Repr, Inhabited

/-- The trace unit's block of a partition (R395, R400). -/
structure TraceBlk where
  tctl : Bool
  trb  : Word
  trn  : Nat
  trw  : Nat
  trr  : Nat
  dbqb : Word
  dbqn : Nat
  dbqw : Nat
  dbqr : Nat
  dbqv : Nat
  solp : Nat
  lastPulse : Option Nat
  trigs : AMap Trigger
  dcmdOut : Nat
  dcmdTid : Nat
  dcmdHold : Bool
  entries : AMap (AMap Word)
  dbStuck : Bool
  heldDbg : List Entry
  deriving DecidableEq, Repr, Inhabited

/-- A partition's block: PCTL registers (R370), shared system registers (R149, R178, R205, R208, R324) and what it
owns. `frameAt` is the tick from which its frame is in force (R16), `keybox` the words that stand in its key mailbox
(R432). -/
structure Partition where
  pstate : Nat
  pout   : Nat
  pfrm   : Word
  pchl   : AMap Word
  proot  : Word
  phws   : Word
  pconf  : Bool
  pkey   : Bool
  keyNo  : Nat
  psup   : AMap Word
  preqOut : Nat
  preqSerial : Option Nat
  tspb   : Word
  tspn   : Nat
  tsps   : Nat
  frame  : Option Frame
  oldFrame : Option Frame
  frameAt : Nat
  fqb    : Word
  fqn    : Nat
  fqw    : Nat
  fqr    : Nat
  ptmo   : Word
  fqNoted : Bool
  fqStuck : Bool
  heldEnt : List Entry
  tshs   : Nat
  rlpb   : Word
  rlpn   : Nat
  rlpw   : Nat
  rlpr   : Nat
  rlgb   : Word
  rlgn   : Nat
  rlgw   : Nat
  rlgr   : Nat
  drain  : Nat
  drainReport : Nat
  peerb  : Word
  peern  : Nat
  grpb   : Word
  divs   : Word
  queues : AMap Queue
  devq   : List Job
  devHead : Option Nat
  devTried : Bool
  teams  : AMap Team
  lastSerial : Nat
  saved  : List Image
  saveOrder : Nat
  rects  : AMap Rect
  trace  : TraceBlk
  hwba   : Word
  keybox : AMap Word
  supDue : Bool
  deriving DecidableEq, Repr, Inhabited

/-! ### Device units -/

/-- A trace record held by the trace unit (R410). -/
structure TraceRec where
  partn : Nat
  tid   : Nat
  kind  : Nat
  pc    : Word
  arg   : Nat
  tick  : Nat
  src   : Nat
  deriving DecidableEq, Repr, Inhabited

/-- A die's histogram engine (R408). `conf` says that a confidential partition's records are in its bins (R411). -/
structure Hist where
  hsel : Nat
  hbas : Nat
  hshf : Nat
  htot : Nat
  bins : AMap Nat
  conf : Bool
  deriving DecidableEq, Repr, Inhabited

/-- A broadcast of the calend network (R15, R204). -/
inductive BcKind
  | substitution (die bad : Nat)
  | create (partn : Nat)
  | delete (partn : Nat)
  | shootdown (partn : Nat) (v : Word)
  | notice (parts : List Nat) (host : Bool) (e : Entry)
  deriving DecidableEq, Repr, Inhabited

structure Broadcast where
  src    : Nat
  calend : Nat
  kind   : BcKind
  deriving DecidableEq, Repr, Inhabited

/-- A Falori link (R427, R428). -/
structure Link where
  state : Nat
  width : Nat
  rev   : Bool
  retrains : Nat
  replays  : Nat
  dis   : Bool
  partner : Word
  failed : Nat
  deriving DecidableEq, Repr, Inhabited

/-- What leaves the device (R373, R424, R426, R324, R411). -/
inductive OutMsg
  | msix (fn vector : Nat)
  | hostRead (fn bar off : Nat) (v : Word)
  | hostAbort (fn bar off : Nat)
  | peerRead (partn : Nat) (ptr : Ptr) (v : Word)
  | peerAck (partn : Nat) (ptr : Ptr)
  | peerRefused (partn : Nat) (ptr : Ptr) (cause info : Nat)
  | peerStore (peer : Nat) (ptr : Ptr) (v : Word)
  | peerAdd (peer : Nat) (ptr : Ptr) (v : Word) (et : ElemTy)
  | contribution (key : CollKey) (m : CollPeer)
  | collFenced (key : CollKey) (rank : Nat)
  | digest (key : CollKey) (rank : Nat) (d : BitVec 128)
  | poweredDown
  deriving DecidableEq, Repr, Inhabited

/-- A message or timed act in flight: the act that happens, its cycle, and whether it comes after the issues of that
cycle (R193); messages of one cycle are in order of age and source (R53, R202). -/
structure Timed where
  cycle : Nat
  late  : Bool
  age   : Nat
  src   : Nat
  act   : Act
  deriving DecidableEq, Repr, Inhabited

/-- The unit being executed (R27). -/
structure Cur where
  uid  : Nat
  fpc  : Ptr
  npc  : Ptr
  fx   : Nat
  word : BitVec 32
  pos  : Nat
  deriving DecidableEq, Repr, Inhabited

/-- The whole device. `behind` names the tile whose move an access of the act in hand has met (R211); `fqStuck`,
`dbStuck` and `hostStuck` say that a ring word could not be written (R151); `substs` are the spare substitutions that
firmware is asked to make, each a die and its new bad column (R174). `cipher` names the key number under which memory holds
a 64-byte line (R372); `again` are acts that met an earlier access to their word and are tried again in the next cycle
(R53). -/
structure State where
  cycle   : Nat
  tsc     : Nat
  slew    : Int
  slewAt  : Nat
  aligned : Bool
  issueFrom : Nat
  agenda  : List Timed
  timers  : List (Nat × Act)
  cur     : Option Cur
  act     : Option Act
  behind  : Option Nat
  again   : List Act
  fresh   : Nat
  nextUid : Nat
  nextId  : Nat
  threads : AMap Thread
  tiles   : AMap Tile
  ports   : AMap Port
  clusters : AMap Cluster
  parts   : AMap Partition
  mem     : List Host.Cell
  empty   : List Nat
  poison  : List Nat
  acc     : List Host.Cell
  scanDue : Option Nat
  lastPlaced : AMap Nat
  hists   : AMap Hist
  records : List TraceRec
  hfqb    : Word
  hfqn    : Nat
  hfqw    : Nat
  hfqr    : Nat
  hfqv    : Nat
  hostStuck : Bool
  hostEnt : List Entry
  casts   : List Broadcast
  substs  : List (Nat × Nat)
  calend  : Nat
  bad     : AMap Nat
  cipher  : AMap Nat
  ranking : AMap Nat
  ckReserve : Bool
  ckState : Nat
  ckPower : Bool
  ckts    : Word
  frozen  : Bool
  powerLost : Bool
  links   : AMap Link
  bootStep : Nat
  bootFail : Nat
  recovery : Bool
  fwVersion : Nat
  fwMinSec : Nat
  fwPending : Option FwImage
  outbox  : List OutMsg
  deriving DecidableEq, Repr

/-! ### Values after reset -/

def Block.reset : Block := { st := .present, lodged := false, count := 0, stub := 0 }

/-- The event unit with no team (R345, R359). -/
def Evu.reset : Evu :=
  { active := false, closed := false, cck := 0, out := [], inb := [], pending := [], held := [], snap := none,
    blockedFrom := none, lastRound := none, rounds := 0, blkH := 0, blkHead := none, ltmt := 0, drops := 0, kept := none }

def Tile.reset : Tile :=
  { last := 15, lastIssue := none, lastPc := 0, disabled := [], reserved := [], temp := 0, thresh := 100, hyst := 10, thermAt := none, arrivals := [], cache := [],
    pool := [], poolEmpty := [], poolPois := [], csav := 0, dqsp := 0, evsp := 0, tcw := [],
    orphan := { count := 0, reason := 0, slot := 0, source := 0 }, blocks := [], rldst := 0, rlout := 0, rlblk := 0, rlReq := none, poolWait := false, move := none,
    moves := [], corr := [], waiters := [], deque := [], sample := 0, evu := Evu.reset }

def Port.reset : Port :=
  { leaves := [], walks := [], waiters := [], spared := [], badSpares := [], copying := none, rowErrs := [], toSpare := [] }

/-- The reset context: bf16 by bf16, no records, checking off (R287, R295). -/
def MxCtx.reset : MxCtx :=
  { afmt := 10, bfmt := 10, rnd := 0, rplanes := 0, arec := 0, brec := 0, orec := 0, chkN := 0, chkR := 0, cnt := 0 }

def Cluster.reset : Cluster :=
  { mxe := { last := 7, queues := [], ctxs := [], run := none },
    cu := { last := 7, queues := [], run := none, slots := [], regs := [] } }

def Queue.reset : Queue :=
  { lqb := 0, lqn := 0, lqt := 0, lqp := 0, resident := false, retired := 0, rejected := 0, reason := 0, prio := 0,
    en := false, lqsv := 0, reading := false, head := none, tried := false }

def Point.reset : Point := { expected := 0, arrived := 0, phase := false, closed := false }

def Rect.reset : Rect := { x := 0, y := 0, w := 0, h := 0, valid := false, fenced := false, resets := 0 }

def Trigger.reset : Trigger := { w0 := 0, w1 := 0, w2 := 0, w3 := 0, marks := 0, startHit := none, stopHit := none }

def TraceBlk.reset : TraceBlk :=
  { tctl := false, trb := 0, trn := 0, trw := 0, trr := 0, dbqb := 0, dbqn := 0, dbqw := 0, dbqr := 0, dbqv := 0,
    solp := 0, lastPulse := none, trigs := [], dcmdOut := 0, dcmdTid := 0, dcmdHold := false, entries := [],
    dbStuck := false, heldDbg := [] }

def Partition.reset : Partition :=
  { pstate := 0, pout := 0, pfrm := 0, pchl := [], proot := 0, phws := 0, pconf := false, pkey := false, keyNo := 0, psup := [],
    preqOut := 0, preqSerial := none, tspb := 0, tspn := 0, tsps := 0, frame := none, oldFrame := none, frameAt := 0, fqb := 0, fqn := 0, fqw := 0,
    fqr := 0, ptmo := 0, fqNoted := false, fqStuck := false, heldEnt := [], tshs := 0, rlpb := 0, rlpn := 0, rlpw := 0, rlpr := 0,
    rlgb := 0, rlgn := 0, rlgw := 0, rlgr := 0, drain := 0, drainReport := 0, peerb := 0, peern := 0, grpb := 0,
    divs := 0, queues := [], devq := [], devHead := none, devTried := false, teams := [], lastSerial := 0, saved := [], saveOrder := 0, rects := [],
    trace := TraceBlk.reset, hwba := 0, keybox := [], supDue := false }

def Hist.reset : Hist := { hsel := 16, hbas := 0, hshf := 2, htot := 0, bins := [], conf := false }

def Link.reset : Link :=
  { state := 0, width := 0, rev := false, retrains := 0, replays := 0, dis := false, partner := 0, failed := 0 }

/-- The per-thread system registers at reset, for a claim of V vector registers and W granules (R71). -/
def Thread.reset : Thread :=
  { partn := 0, serial := 0, tser := 0, sup := false, role := 0, ltm := false, tile := 0, slot := 0,
    stand := .inSlot, pc := 0, s := [], sEmpty := 0, sOut := 0, sPois := 0, p := 0, pEmpty := 0, pPois := 0, m := [],
    mEmpty := 0, mPois := 0, vn := 0, dwin := 0, rows := [], rvRec := 0, rvArr := 0, inHandler := false, resume := 0,
    fr := { cause := 0, addr := 0, pc := 0, info := 0, tsc := 0 }, tvec := 0,
    meter := { dmt := 0, dml := BitVec.allOnes 64, cnt := true, trap := false, jobs := false },
    dn := { prc := 64, dlive := 0, dctl := 0, dslot := 2 }, vec := { vctl := 0, vstat := 0, vbnd := 0 },
    lt := { vck := 0, esrc := 0, vend := BitVec.allOnes 64, vgdl := 256, zlk := 16 }, racc := 0,
    syto := 0x10000, rvto := 0x04000000, wait := .none, readyAt := 0, released := false, stopped := false, held := false, exempt := false,
    debugged := false, stepping := false, flights := [], rxNext := 0, late := [], table := none, jobsIn := [], rvSince := 0,
    rvSpent := 0, rvDue := none, displaced := none, leaving := 0, lvq := [], lvSeq := 0, origins := [], saved := [], recSlot := 0, away := none,
    rvOn := false, ending := false }

/-- The device right after reset: no partition, no thread, memory with nothing listed; bring-up is the first thing
that happens (R430). The bring-up it performs finds sound firmware, memories that train, no bad column and no
trained link (DESIGN CHOICE, log 11). -/
def State.reset : State :=
  { cycle := 0, tsc := 0, slew := 0, slewAt := 0, aligned := false, issueFrom := 0,
    agenda := [{ cycle := 0, late := false, age := 0, src := 0,
                 act := .bringUp { signature := true, rollback := true, training := true,
                                   bad := [some 32, some 32, some 32, some 32], links := [] } }],
    timers := [], cur := none, act := none, behind := none, again := [], fresh := 0, nextUid := 0, nextId := 0, threads := [], tiles := [], ports := [],
    clusters := [], parts := [], mem := [], empty := [], poison := [], acc := [], scanDue := none, lastPlaced := [],
    hists := [], records := [], hfqb := 0, hfqn := 0, hfqw := 0, hfqr := 0, hfqv := 0, hostStuck := false, hostEnt := [], casts := [], substs := [],
    calend := 0, bad := [], cipher := [], ranking := [], ckReserve := true, ckState := 0, ckPower := true, ckts := 0, frozen := false, powerLost := false, links := [], bootStep := 0, bootFail := 0,
    recovery := false, fwVersion := 0, fwMinSec := 0, fwPending := none, outbox := [] }

end Sys2Proof.Machine
end

