-- ==== Sys2Proof/Machine/Maps.lean ====
section
/-! DEFINITION. Tables with strictly rising keys, sets of numbers kept the same way, memory bytes in their one
canonical form, and access to the parts of the state. -/

namespace Sys2Proof.Machine

/-- The entry of a key. -/
def look {α : Type} (m : AMap α) (k : Nat) : Option α :=
  match m with
  | [] => none
  | (j, v) :: t => if j = k then some v else look t k

/-- Sets the entry of a key. -/
def ins {α : Type} (m : AMap α) (k : Nat) (v : α) : AMap α :=
  match m with
  | [] => [(k, v)]
  | (j, w) :: t => if j < k then (j, w) :: ins t k v else if j = k then (k, v) :: t else (k, v) :: (j, w) :: t

/-- Removes the entry of a key. -/
def del {α : Type} (m : AMap α) (k : Nat) : AMap α :=
  match m with
  | [] => []
  | (j, w) :: t => if j = k then del t k else (j, w) :: del t k

def lookD {α : Type} (m : AMap α) (k : Nat) (d : α) : α := (look m k).getD d

/-- Applies a function to a present entry. -/
def upd {α : Type} (m : AMap α) (k : Nat) (f : α → α) : AMap α :=
  match look m k with
  | some v => ins m k (f v)
  | none => m

/-- The keys are strictly rising. -/
def keysRise {α : Type} : AMap α → Bool
  | [] => true
  | [_] => true
  | (j, _) :: (k, v) :: t => decide (j < k) && keysRise ((k, v) :: t)

/-- Adds a number to a rising list. -/
def setAdd (l : List Nat) (k : Nat) : List Nat :=
  match l with
  | [] => [k]
  | j :: t => if j < k then j :: setAdd t k else if j = k then j :: t else k :: j :: t

/-- Removes a number from a rising list. -/
def setDel (l : List Nat) (k : Nat) : List Nat :=
  match l with
  | [] => []
  | j :: t => if j = k then setDel t k else j :: setDel t k

def setPut (l : List Nat) (k : Nat) (b : Bool) : List Nat := if b then setAdd l k else setDel l k

/-! ### Memory: strictly rising addresses, no entry equal to zero, which is what an unlisted address reads as -/

/-- What an unlisted address reads as: zero (R51; the host window and the retention region by log 5). -/
def memDefault : Byte := 0

def memGet (m : List Host.Cell) (a : Nat) : Byte :=
  match m with
  | [] => memDefault
  | (j, v) :: t => if j = a then v else memGet t a

def memSet (m : List Host.Cell) (a : Nat) (b : Byte) : List Host.Cell :=
  match m with
  | [] => if b = memDefault then [] else [(a, b)]
  | (j, v) :: t =>
    if j < a then (j, v) :: memSet t a b
    else if j = a then if b = memDefault then t else (a, b) :: t
    else if b = memDefault then (j, v) :: t else (a, b) :: (j, v) :: t

/-- The canonical form: strictly rising addresses, no entry that an unlisted address would read as. -/
def Memory.wf : List Host.Cell → Bool
  | [] => true
  | [(_, v)] => decide (v ≠ memDefault)
  | (j, v) :: (k, w) :: t => decide (v ≠ memDefault) && decide (j < k) && Memory.wf ((k, w) :: t)

/-- n bytes from address a as a little-endian number (R53). -/
def memRead (m : List Host.Cell) (a : Nat) : Nat → Nat
  | 0 => 0
  | n + 1 => (memGet m a).toNat + 256 * memRead m (a + 1) n

/-- Stores the low n bytes of a number little-endian from address a up (R53). -/
def memWrite (m : List Host.Cell) (a : Nat) (v : Nat) : Nat → List Host.Cell
  | 0 => m
  | n + 1 => memWrite (memSet m a (BitVec.ofNat 8 (v % 256))) (a + 1) (v / 256) n

def memWord (m : List Host.Cell) (a : Nat) : Word := BitVec.ofNat 64 (memRead m a 8)

def memPutWord (m : List Host.Cell) (a : Nat) (v : Word) : List Host.Cell := memWrite m a v.toNat 8

/-! ### Parts of the state -/

def tileOf (s : State) (t : Nat) : Tile := lookD s.tiles t Tile.reset
def modTile (s : State) (t : Nat) (f : Tile → Tile) : State := { s with tiles := ins s.tiles t (f (tileOf s t)) }

def portOf (s : State) (p : Nat) : Port := lookD s.ports p Port.reset
def modPort (s : State) (p : Nat) (f : Port → Port) : State := { s with ports := ins s.ports p (f (portOf s p)) }

def clusterAt (s : State) (c : Nat) : Cluster := lookD s.clusters c Cluster.reset
def modCluster (s : State) (c : Nat) (f : Cluster → Cluster) : State :=
  { s with clusters := ins s.clusters c (f (clusterAt s c)) }
def modMxe (s : State) (c : Nat) (f : Mxe → Mxe) : State := modCluster s c fun k => { k with mxe := f k.mxe }
def modCu (s : State) (c : Nat) (f : Cu → Cu) : State := modCluster s c fun k => { k with cu := f k.cu }

def partOf (s : State) (p : Nat) : Partition := lookD s.parts p Partition.reset
def modPart (s : State) (p : Nat) (f : Partition → Partition) : State := { s with parts := ins s.parts p (f (partOf s p)) }

def threadOf (s : State) (u : Nat) : Option Thread := look s.threads u
def modThread (s : State) (u : Nat) (f : Thread → Thread) : State := { s with threads := upd s.threads u f }

def teamOf (s : State) (p serial : Nat) : Option Team := look (partOf s p).teams serial
def modTeam (s : State) (p serial : Nat) (f : Team → Team) : State :=
  modPart s p fun q => { q with teams := upd q.teams serial f }

def queueOf (p : Partition) (q : Nat) : Queue := lookD p.queues q Queue.reset
def modQueue (s : State) (p q : Nat) (f : Queue → Queue) : State :=
  modPart s p fun k => { k with queues := ins k.queues q (f (queueOf k q)) }

def evuOf (s : State) (t : Nat) : Evu := (tileOf s t).evu
def modEvu (s : State) (t : Nat) (f : Evu → Evu) : State := modTile s t fun k => { k with evu := f k.evu }

def rectOf (p : Partition) (r : Nat) : Rect := lookD p.rects r Rect.reset
def trigOf (p : Partition) (k : Nat) : Trigger := lookD p.trace.trigs k Trigger.reset
def modTrace (s : State) (p : Nat) (f : TraceBlk → TraceBlk) : State := modPart s p fun q => { q with trace := f q.trace }
def histOf (s : State) (d : Nat) : Hist := lookD s.hists d Hist.reset
def modHist (s : State) (d : Nat) (f : Hist → Hist) : State := { s with hists := ins s.hists d (f (histOf s d)) }
def linkOf (s : State) (l : Nat) : Link := lookD s.links l Link.reset
def modLink (s : State) (l : Nat) (f : Link → Link) : State := { s with links := ins s.links l (f (linkOf s l)) }

/-- The threads that satisfy a test, by internal name. -/
def threadsWhere (s : State) (f : Nat → Thread → Bool) : List Nat := (s.threads.filter fun e => f e.1 e.2).map (·.1)

/-- The thread that stands in, or keeps, a slot of a tile. -/
def atSlot (s : State) (t slot : Nat) : Option Nat :=
  (threadsWhere s fun _ th => decide (th.tile = t ∧ th.slot = slot) && decide (th.stand = .inSlot ∨ th.stand = .vacated)).head?

/-- The thread that occupies a slot: one that stands in it or keeps it, or a leaping one until its arrival is
acknowledged (R198). -/
def occupant (s : State) (t slot : Nat) : Option Nat :=
  match atSlot s t slot with
  | some u => some u
  | none => (threadsWhere s fun _ th => decide (th.tile = t ∧ th.slot = slot) || decide ((t, slot) ∈ th.origins)).head?

/-- Folds a state transformer over a list. -/
def forEach {α : Type} (l : List α) (f : State → α → State) (s : State) : State := l.foldl f s

/-- Puts an element behind those whose key is not greater. -/
def insertOn {α : Type} (key : α → Nat) (x : α) : List α → List α
  | [] => [x]
  | y :: l => if key x < key y then x :: y :: l else y :: insertOn key x l

/-- A list by a key, equal keys in their order. -/
def sortOn {α : Type} (key : α → Nat) (l : List α) : List α := l.foldl (fun a x => insertOn key x a) []

/-- The tick of the current cycle (R2): the value the counter holds at its start. -/
def now (s : State) : Nat := s.tsc

/-- The tick of a later cycle by the formula of R2, from the counter's present value. -/
def tickAt (s : State) (c : Nat) : Nat := s.tsc + (4 * c / 9 - 4 * s.cycle / 9)

/-- The first cycle whose tick is at or after a given one, by the formula of R2. -/
def cycleOfTick (s : State) (t : Nat) : Nat :=
  if t ≤ s.tsc then s.cycle
  else
    let k := 4 * s.cycle / 9 + (t - s.tsc)
    (9 * k + 3) / 4

/-- A place in the agenda comes before another: cycle, then after-issue class, then age, then source (R53, R202). -/
def Timed.before (a b : Timed) : Bool :=
  decide (a.cycle < b.cycle)
    || (decide (a.cycle = b.cycle)
        && ((!a.late && b.late)
            || (decide (a.late = b.late) && (decide (a.age < b.age) || (decide (a.age = b.age) && decide (a.src < b.src))))))

/-- Enters an act into a list in order, behind its equals. -/
def enterTimed (l : List Timed) (x : Timed) : List Timed :=
  match l with
  | [] => [x]
  | y :: t => if x.before y then x :: y :: t else y :: enterTimed t x

def sched (s : State) (x : Timed) : State := { s with agenda := enterTimed s.agenda x }

/-- An act at a cycle that carries no message: its age is the present tick and its source 0. -/
def schedAt (s : State) (cycle : Nat) (a : Act) : State :=
  sched s { cycle := cycle, late := false, age := s.tsc, src := 0, act := a }

/-- Some block is being moved (R211). -/
def anyMove (s : State) : Bool := s.tiles.any fun e => e.2.move.isSome

/-- Drops the acts of the agenda, and of those held behind a move, that satisfy a test. -/
def unsched (s : State) (f : Act → Bool) : State :=
  let s1 := { s with agenda := s.agenda.filter fun x => !f x.act }
  if anyMove s then
    { s1 with tiles := s1.tiles.map fun e =>
        (e.1, { e.2 with move := e.2.move.map fun m => { m with held := m.held.filter fun a => !f a } }) }
  else s1

/-- The acts that are on their way or held behind a move. -/
def pendingActs (s : State) : List Act :=
  s.agenda.map (·.act) ++ s.tiles.flatMap fun e => match e.2.move with | some m => m.held | none => []

/-- A fresh number. -/
def freshId (s : State) : State := { s with nextId := s.nextId + 1 }

/-- A fresh index for the free values of Config. -/
def freshFree (s : State) : State := { s with fresh := s.fresh + 1 }

end Sys2Proof.Machine
end

