-- ==== Sys2Proof/Machine/Num.lean ====
section
/-! DEFINITION. Element types as numbers, exact binary arithmetic and its rounding (R217-R225), the integer
operations of vector elements and additions to memory (R218, R252). -/

namespace Sys2Proof.Machine

/-- Width in bits (R217). -/
def ewidth : ElemTy → Nat
  | .i8 => 8 | .i16 => 16 | .i32 => 32 | .i64 => 64 | .n8 => 8 | .n16 => 16 | .n32 => 32 | .n64 => 64
  | .f64 => 64 | .f32 => 32 | .bf16 => 16 | .f16 => 16 | .e4m3 => 8 | .e5m2 => 8

def eSigned (e : ElemTy) : Bool := decide (e.code < 4)
def eFloat (e : ElemTy) : Bool := decide (8 ≤ e.code)

/-- A binary format (R219, R223). -/
structure Fmt where
  w : Nat
  fb : Nat
  eb : Nat
  bias : Nat
  deriving DecidableEq, Repr, Inhabited

/-- The format of a floating type; the integer types have none and answer that of f64. -/
def efmt : ElemTy → Fmt
  | .f32 => ⟨32, 23, 8, 127⟩
  | .bf16 => ⟨16, 7, 8, 127⟩
  | .f16 => ⟨16, 10, 5, 15⟩
  | .e4m3 => ⟨8, 3, 4, 7⟩
  | .e5m2 => ⟨8, 2, 5, 15⟩
  | _ => ⟨64, 52, 11, 1023⟩

/-- The canonical NaN (R220). -/
def canonNaN : ElemTy → Nat
  | .f64 => 0x7FF8000000000000 | .f32 => 0x7FC00000 | .f16 => 0x7E00 | .bf16 => 0x7FC0 | .e4m3 => 0x7F
  | .e5m2 => 0x7E | _ => 0

/-! Flags in the bit order of VSTAT (R236). -/
def fNV : Nat := 1
def fDZ : Nat := 2
def fOF : Nat := 4
def fUF : Nat := 8
def fNX : Nat := 16

/-- A floating value: NaN (signalling or not), infinity, or a sign with m × 2^e. -/
inductive FV
  | nan (sig : Bool)
  | inf (neg : Bool)
  | fin (neg : Bool) (m : Nat) (e : Int)
  deriving DecidableEq, Repr, Inhabited

def Fmt.emin (f : Fmt) : Int := 1 - (f.bias : Int)

/-- Reads an encoding (R219, R220, R223). -/
def readF (et : ElemTy) (b : Nat) : FV :=
  let f := efmt et
  let s := decide (b / 2 ^ (f.w - 1) % 2 = 1)
  let ex := b / 2 ^ f.fb % 2 ^ f.eb
  let fr := b % 2 ^ f.fb
  if et = .e4m3 then
    if ex = 15 ∧ fr = 7 then .nan false
    else if ex = 0 then .fin s fr (f.emin - f.fb) else .fin s (2 ^ f.fb + fr) ((ex : Int) - f.bias - f.fb)
  else if ex = 2 ^ f.eb - 1 then
    if fr = 0 then .inf s else .nan (decide (et ≠ .e5m2) && decide (fr < 2 ^ (f.fb - 1)))
  else if ex = 0 then .fin s fr (f.emin - f.fb)
  else .fin s (2 ^ f.fb + fr) ((ex : Int) - f.bias - f.fb)

/-- A subnormal encoding. -/
def isSub (et : ElemTy) (b : Nat) : Bool :=
  let f := efmt et
  decide (b / 2 ^ f.fb % 2 ^ f.eb = 0) && decide (b % 2 ^ f.fb ≠ 0)

/-- Reads an operand under flush-to-zero (R222). -/
def readFz (et : ElemTy) (ftz : Bool) (b : Nat) : FV :=
  if ftz && isSub et b then .fin (decide (b / 2 ^ (ewidth et - 1) % 2 = 1)) 0 0 else readF et b

/-- The largest finite magnitude as m × 2^e (R219, R223). -/
def maxFin (et : ElemTy) : Nat × Int :=
  let f := efmt et
  if et = .e4m3 then (14, 5) else (2 ^ (f.fb + 1) - 1, (2 ^ f.eb - 2 : Int) - f.bias - f.fb)

def signBit (et : ElemTy) (neg : Bool) : Nat := if neg then 2 ^ (ewidth et - 1) else 0

def encInf (et : ElemTy) (neg : Bool) : Nat := signBit et neg + (2 ^ (efmt et).eb - 1) * 2 ^ (efmt et).fb

/-- Encodes n × 2^q, which the format holds, q at or above its least quantum. -/
def encFin (et : ElemTy) (neg : Bool) (n : Nat) (q : Int) : Nat :=
  let f := efmt et
  if n < 2 ^ f.fb then signBit et neg + n
  else
    let n' := if n = 2 ^ (f.fb + 1) then 2 ^ f.fb else n
    let q' := if n = 2 ^ (f.fb + 1) then q + 1 else q
    signBit et neg + (q' - (f.emin - f.fb) + 1).toNat * 2 ^ f.fb + (n' - 2 ^ f.fb)

/-! ### Rounding (R221) -/

/-- m × 2^e (and a little more when `st`) cut to a multiple of 2^q: the multiple, and what was cut: 0 nothing, 1 less
than half, 2 half, 3 more than half. -/
def cutAt (m : Nat) (e q : Int) (st : Bool) : Nat × Nat :=
  if q ≤ e then (m * 2 ^ (e - q).toNat, if st then 1 else 0)
  else
    let d := 2 ^ (q - e).toNat
    let r := m % d
    (m / d,
      if r = 0 ∧ st = false then 0 else if 2 * r < d then 1 else if 2 * r = d ∧ st = false then 2 else 3)

/-- Whether the cut is rounded up in magnitude. -/
def roundUp (mode : Rnd) (neg : Bool) (n cls : Nat) : Bool :=
  match mode with
  | .rne => decide (cls = 3) || (decide (cls = 2) && decide (n % 2 = 1))
  | .rtz => false
  | .rup => decide (cls ≠ 0) && !neg
  | .rdn => decide (cls ≠ 0) && neg
  | .rna => decide (2 ≤ cls)

def roundCut (mode : Rnd) (neg : Bool) (c : Nat × Nat) : Nat := if roundUp mode neg c.1 c.2 then c.1 + 1 else c.1

/-- a × 2^e ≤ b × 2^f. -/
def leMag (a : Nat) (e : Int) (b : Nat) (f : Int) : Bool :=
  if e ≤ f then decide (a ≤ b * 2 ^ (f - e).toNat) else decide (a * 2 ^ (e - f).toNat ≤ b)

/-- What overflow gives (R221), or the bound of R224. -/
def overflowTo (et : ElemTy) (mode : Rnd) (neg : Bool) (bound : Option (Nat × Int)) : Nat :=
  match bound with
  | some (m, e) =>
    let f := efmt et
    let l := (Nat.log2 m : Int) + e
    let q := max l f.emin - f.fb
    encFin et neg (cutAt m e q false).1 q
  | none =>
    let toInf := match mode with | .rne => true | .rna => true | .rtz => false | .rup => !neg | .rdn => neg
    if toInf then encInf et neg else encFin et neg (maxFin et).1 (maxFin et).2

/-- Rounds ±m × 2^e, m ≠ 0 (R221, R222): the encoding and the flags. `st` says that the exact value lies a little
above in magnitude; `bound` is B' of R224. -/
def packMag (et : ElemTy) (mode : Rnd) (ftz : Bool) (bound : Option (Nat × Int)) (neg : Bool) (m : Nat) (e : Int)
    (st : Bool) : Nat × Nat :=
  let f := efmt et
  let l := (Nat.log2 m : Int) + e
  let q := max l f.emin - f.fb
  let c := cutAt m e q st
  let n := roundCut mode neg c
  let lim := bound.getD (maxFin et)
  -- R224 compares the value rounded with unbounded exponent
  let q0 := l - f.fb
  if leMag (roundCut mode neg (cutAt m e q0 st)) q0 lim.1 lim.2 = false then (overflowTo et mode neg bound, fOF + fNX)
  else
    let tiny := decide (l < f.emin)
      && !(decide (l + 1 = f.emin) && decide (roundCut mode neg (cutAt m e (l - f.fb) st) = 2 ^ (f.fb + 1)))
    let nx := decide (c.2 ≠ 0)
    if ftz && decide (n ≠ 0) && decide (n < 2 ^ f.fb) then (signBit et neg, fUF + fNX)
    else (encFin et neg n q, (if nx then fNX else 0) + (if tiny && nx then fUF else 0))

/-- An exact result with the flags raised in forming it; `st` as in packMag. -/
structure Ex where
  v  : FV
  st : Bool
  fl : Nat
  deriving DecidableEq, Repr, Inhabited

def Ex.ok (v : FV) : Ex := { v := v, st := false, fl := 0 }
def Ex.nan (fl : Nat) : Ex := { v := .nan false, st := false, fl := fl }

/-- Rounds an exact result into a format (R220-R222, R224). -/
def pack (et : ElemTy) (mode : Rnd) (ftz : Bool) (bound : Option (Nat × Int)) (x : Ex) : Nat × Nat :=
  match x.v with
  | .nan _ => (canonNaN et, x.fl)
  | .inf s =>
    (match bound with | none => encInf et s | some _ => overflowTo et mode s bound, x.fl)
  | .fin s 0 _ => if x.st then let r := packMag et mode ftz bound s 1 (-20000) true; (r.1, r.2 ||| x.fl) else (signBit et s, x.fl)
  | .fin s m e => let r := packMag et mode ftz bound s m e x.st; (r.1, r.2 ||| x.fl)

/-! ### Exact operations -/

/-- Invalid when an operand is a signalling NaN (R220). -/
def sigFlag : FV → Nat
  | .nan true => fNV
  | _ => 0

def FV.isNaN : FV → Bool
  | .nan _ => true
  | _ => false

def FV.neg : FV → FV
  | .nan s => .nan s
  | .inf s => .inf (!s)
  | .fin s m e => .fin (!s) m e

def FV.sign : FV → Bool
  | .nan _ => false
  | .inf s => s
  | .fin s _ _ => s

def signed (s : Bool) (m : Nat) : Int := if s then -(m : Int) else m

/-- x + y; the sign of an exact zero sum follows R221. -/
def exAdd (mode : Rnd) (x y : FV) : Ex :=
  let fl := sigFlag x ||| sigFlag y
  match x, y with
  | .nan _, _ => Ex.nan fl
  | _, .nan _ => Ex.nan fl
  | .inf a, .inf b => if a = b then Ex.ok (.inf a) else Ex.nan fNV
  | .inf a, _ => Ex.ok (.inf a)
  | _, .inf b => Ex.ok (.inf b)
  | .fin a m e, .fin b n f =>
    if m = 0 ∧ n = 0 then Ex.ok (.fin (if a = b then a else decide (mode = .rdn)) 0 0)
    else
      let g := min e f
      let t := signed a (m * 2 ^ (e - g).toNat) + signed b (n * 2 ^ (f - g).toNat)
      if t = 0 then Ex.ok (.fin (decide (mode = .rdn)) 0 0) else Ex.ok (.fin (decide (t < 0)) t.natAbs g)

def exMul (x y : FV) : Ex :=
  let fl := sigFlag x ||| sigFlag y
  match x, y with
  | .nan _, _ => Ex.nan fl
  | _, .nan _ => Ex.nan fl
  | .inf a, .inf b => Ex.ok (.inf (a != b))
  | .inf a, .fin b n _ => if n = 0 then Ex.nan fNV else Ex.ok (.inf (a != b))
  | .fin a m _, .inf b => if m = 0 then Ex.nan fNV else Ex.ok (.inf (a != b))
  | .fin a m e, .fin b n f => Ex.ok (.fin (a != b) (m * n) (e + f))

/-- x × y + c, rounded once by the caller (R241). A product of zero and infinity is invalid whatever c is, a quiet NaN too
(DESIGN CHOICE, log 99). -/
def exFma (mode : Rnd) (x y c : FV) : Ex :=
  let p := exMul x y
  let fl := p.fl ||| sigFlag c
  match p.v with
  | .nan _ => Ex.nan fl
  | v => let r := exAdd mode v c; { r with fl := r.fl ||| fl }

/-- x / y to `bits` bits or more, with the rest in `st` (R242). -/
def exDiv (bits : Nat) (x y : FV) : Ex :=
  let fl := sigFlag x ||| sigFlag y
  match x, y with
  | .nan _, _ => Ex.nan fl
  | _, .nan _ => Ex.nan fl
  | .inf _, .inf _ => Ex.nan fNV
  | .inf a, .fin b _ _ => Ex.ok (.inf (a != b))
  | .fin a _ _, .inf b => Ex.ok (.fin (a != b) 0 0)
  | .fin a m e, .fin b n f =>
    if n = 0 then (if m = 0 then Ex.nan fNV else { v := .inf (a != b), st := false, fl := fDZ })
    else if m = 0 then Ex.ok (.fin (a != b) 0 0)
    else
      let k := bits + Nat.log2 n + 2 - Nat.log2 m
      { v := .fin (a != b) (m * 2 ^ k / n) (e - f - k), st := decide (m * 2 ^ k % n ≠ 0), fl := 0 }

/-- The integer square root, bit by bit: `fuel` bits from the top. -/
def isqrtFrom (n : Nat) : Nat → Nat → Nat
  | 0, r => r
  | k + 1, r => if (r + 2 ^ k) * (r + 2 ^ k) ≤ n then isqrtFrom n k (r + 2 ^ k) else isqrtFrom n k r

def isqrt (n : Nat) : Nat := isqrtFrom n (Nat.log2 n / 2 + 1) 0

/-- √x to `bits` bits or more (R245). -/
def exSqrt (bits : Nat) (x : FV) : Ex :=
  match x with
  | .nan _ => Ex.nan (sigFlag x)
  | .inf true => Ex.nan fNV
  | .inf false => Ex.ok (.inf false)
  | .fin s 0 _ => Ex.ok (.fin s 0 0)
  | .fin true _ _ => Ex.nan fNV
  | .fin false m e =>
    let k := 2 * bits + 4
    let k' := if (e - k) % 2 = 0 then k else k + 1
    let n := m * 2 ^ k'
    let r := isqrt n
    { v := .fin false r ((e - k') / 2), st := decide (r * r ≠ n), fl := 0 }

/-! ### Order -/

/-- x < y for values other than NaN; zeros are equal. -/
def ltF (x y : FV) : Bool :=
  match x, y with
  | .nan _, _ => false
  | _, .nan _ => false
  | .inf a, .inf b => a && !b
  | .inf a, .fin _ _ _ => a
  | .fin _ _ _, .inf b => !b
  | .fin a m e, .fin b n f =>
    let g := min e f
    decide (signed a (m * 2 ^ (e - g).toNat) < signed b (n * 2 ^ (f - g).toNat))

/-- x = y for values other than NaN; zeros are equal. -/
def eqF (x y : FV) : Bool := !x.isNaN && !y.isNaN && !ltF x y && !ltF y x

/-- The order of `vmin` and `vmax` (R242): as ltF with −0 below +0. -/
def belowF (x y : FV) : Bool := ltF x y || (eqF x y && x.sign && !y.sign)

/-! ### Conversions -/

/-- B' of R224 from a bound value. -/
def boundOf (et : ElemTy) (b : FV) : Nat × Int :=
  match b with
  | .fin _ m e =>
    if m = 0 then maxFin et
    else if leMag m e (maxFin et).1 (maxFin et).2 = false then maxFin et
    else
      let f := efmt et
      let l := (Nat.log2 m : Int) + e
      let q := max l f.emin - f.fb
      ((cutAt m e q false).1, q)
  | _ => maxFin et

/-- The types that a conversion bounds (R224). -/
def narrow (et : ElemTy) : Bool := decide (10 ≤ et.code)

/-- Rounds to an integer and saturates (R225). -/
def toInt (lo hi : Int) (mode : Rnd) (x : FV) : Int × Nat :=
  match x with
  | .nan _ => (0, fNV)
  | .inf s => (if s then lo else hi, fNV)
  | .fin s m e =>
    let c := cutAt m e 0 false
    let v := signed s (roundCut mode s c)
    if v < lo then (lo, fNV) else if hi < v then (hi, fNV) else (v, if c.2 = 0 then 0 else fNX)

/-- Bounds of an integer type (R218). -/
def intLo (et : ElemTy) : Int := if eSigned et then -(2 ^ (ewidth et - 1) : Int) else 0
def intHi (et : ElemTy) : Int := if eSigned et then 2 ^ (ewidth et - 1) - 1 else 2 ^ ewidth et - 1

/-- The value of an integer element. -/
def readI (et : ElemTy) (b : Nat) : Int := if eSigned et then sx (ewidth et) (b % 2 ^ ewidth et) else (b % 2 ^ ewidth et : Nat)

/-- An integer wrapped into w bits. -/
def wrapI (w : Nat) (v : Int) : Nat := (v % (2 ^ w : Int)).toNat

/-! ### Addition of elements, as `vstxa`, `vredsum`, SCATTERADD and COLL use it -/

/-- x + y in an element type: wrapping, or rounded (R218, R221, R222). -/
def addElem (et : ElemTy) (mode : Rnd) (ftz : Bool) (x y : Nat) : Nat × Nat :=
  if eFloat et then pack et mode ftz none (exAdd mode (readFz et ftz x) (readFz et ftz y))
  else (wrapI (ewidth et) (readI et x + readI et y), 0)

/-- Minimum or maximum of two elements (R241, R242). -/
def minmaxElem (et : ElemTy) (ftz isMax : Bool) (x y : Nat) : Nat × Nat :=
  if eFloat et then
    let a := readFz et ftz x
    let b := readFz et ftz y
    let z := fun (v : Nat) => if ftz && isSub et v then signBit et (decide (v / 2 ^ (ewidth et - 1) % 2 = 1)) else v
    if a.isNaN || b.isNaN then (canonNaN et, sigFlag a ||| sigFlag b)
    else if belowF a b = isMax then (z y, 0) else (z x, 0)
  else if decide (readI et x < readI et y) = isMax then (y, 0) else (x, 0)

end Sys2Proof.Machine
end

