-- ==== Sys2Proof/Machine/Place.lean ====
section
/-! DEFINITION. Pointers, the limits of their kinds, frames and substitution, homes, routes, distance and charge
(R168-R183), latencies of a route (R79). -/

namespace Sys2Proof.Machine

def pKind (p : Ptr) : Nat := p.toNat / 2 ^ 60
def pX (p : Ptr) : Nat := p.toNat / 2 ^ 53 % 128
def pY (p : Ptr) : Nat := p.toNat / 2 ^ 46 % 128
def pOff (p : Ptr) : Nat := p.toNat % 2 ^ 46

/-- The pointer of a kind, x, y and offset (R168). -/
def mkPtr (k x y o : Nat) : Ptr := BitVec.ofNat 64 (k * 2 ^ 60 + x * 2 ^ 53 + y * 2 ^ 46 + o)

/-- A pointer with another offset. -/
def withOff (p : Ptr) (o : Nat) : Ptr := BitVec.ofNat 64 (p.toNat / 2 ^ 46 * 2 ^ 46 + o)

/-- Adds a signed byte count to the offset; none outside 0 to 2^46 - 1 (R25). -/
def addOff (p : Ptr) (d : Int) : Option Ptr :=
  let o := (pOff p : Int) + d
  if 0 ≤ o ∧ o < 2 ^ 46 then some (withOff p o.toNat) else none

/-- A pointer moved by a byte count; past the last offset it wraps (log 22). -/
def offBy (p : Ptr) (n : Nat) : Ptr := withOff p ((pOff p + n) % 2 ^ 46)

/-- A field of a word: `n` bits from bit `lo`. -/
def bits (w : Word) (lo n : Nat) : Nat := w.toNat / 2 ^ lo % 2 ^ n

def bit (w : Word) (i : Nat) : Bool := decide (bits w i 1 = 1)

/-- A word with `n` bits from bit `lo` replaced. -/
def setBits (w : Word) (lo n v : Nat) : Word :=
  BitVec.ofNat 64 (w.toNat - bits w lo n * 2 ^ lo + (v % 2 ^ n) * 2 ^ lo)

/-! ### Frames (R172) and limits (R169) -/

def frameOf (s : State) (partn : Nat) : Option Frame := (partOf s partn).frame

/-- The logical tile number of a guest place. -/
def tileAt (f : Frame) (x y : Nat) : Nat := 64 * (f.oy + y) + (f.ox + x)

/-- The guest coordinates of a tile. -/
def guestX (f : Frame) (tile : Nat) : Nat := tile % 64 - f.ox
def guestY (f : Frame) (tile : Nat) : Nat := tile / 64 - f.oy

/-- CORE and s3 pack guest x in [14:8] and guest y in [6:0] (R71). -/
def packCore (x y : Nat) : Nat := x * 256 + y

/-- The limits of a pointer's kind: 0 none broken, else FINFO 1 kind, 2 coordinate, 3 offset (R88 step 1, R169). -/
def limits (f : Frame) (p : Ptr) : Nat :=
  match pKind p with
  | 0 => if f.w ≤ pX p ∨ f.h ≤ pY p then 2 else if 2 ^ 20 ≤ pOff p then 3 else 0
  | 2 => if f.chans.length ≤ pX p ∨ pY p ≠ 0 then 2 else 0
  | 3 => if pX p ≠ 0 ∨ pY p ≠ 0 then 2 else 0
  | 4 => if pX p ≠ 0 ∨ pY p ≠ 0 then 2 else 0
  | 5 => if pX p ≠ 0 ∨ pY p ≠ 0 then 2 else if f.hwsz.toNat ≤ pOff p then 3 else 0
  | 6 =>
    if pX p = 127 then (if 6 < pY p then 2 else if 2 ^ 20 ≤ pOff p then 3 else 0)
    else if f.w ≤ pX p ∨ f.h ≤ pY p then 2 else if 2 ^ 20 ≤ pOff p then 3 else 0
  | _ => 1

def limitsOf (s : State) (partn : Nat) (p : Ptr) : Nat :=
  match frameOf s partn with
  | none => 2
  | some f => limits f p

/-- The limits of a kind-1 pointer (R169): a register 1-31 of a slot of a guest tile. -/
def regLimits (f : Frame) (p : Ptr) : Nat :=
  if f.w ≤ pX p ∨ f.h ≤ pY p then 2 else if 2 ^ 9 ≤ pOff p ∨ pOff p % 32 = 0 then 3 else 0

/-! ### Homes (R51, R171, R172) -/

/-- The place of a pointer within its limits (R171, R172, R425). -/
def placeIn (f : Frame) (hwba : Nat) (p : Ptr) : Place :=
  match pKind p with
  | 0 => .spad (tileAt f (pX p) (pY p)) (pOff p)
  | 2 => .chan (f.chans.getD (pX p) 0) (pOff p)
  | 3 =>
    let c := f.chans.length
    let g := pOff p / 4096 % c
    .chan (f.chans.getD g 0) (pOff p / 4096 / c * 4096 + pOff p % 4096)
  | 4 => .tier2 (pOff p / 4096 % 16) (pOff p / 4096 / 16 * 4096 + pOff p % 4096)
  | 5 => .host (hwba + pOff p)
  | _ => if pX p = 127 then .devCtrl (pY p) (pOff p) else .tileCtrl (tileAt f (pX p) (pY p)) (pOff p)

/-- A frame holds a tile. -/
def Frame.holds (f : Frame) (tile : Nat) : Bool :=
  decide (f.ox ≤ tile % 64 ∧ tile % 64 < f.ox + f.w ∧ f.oy ≤ tile / 64 ∧ tile / 64 < f.oy + f.h)

/-- The partition whose frame holds a tile. -/
def partAt (s : State) (tile : Nat) : Option Nat :=
  (s.parts.find? fun e => match e.2.frame with | some f => f.holds tile | none => false).map (·.1)

/-- The guest pointer of a tile's scratchpad offset. -/
def tilePtr (s : State) (partn tile off : Nat) : Ptr :=
  match frameOf s partn with
  | none => mkPtr 0 0 0 off
  | some f => mkPtr 0 (guestX f tile) (guestY f tile) off

def placeOf (s : State) (partn : Nat) (p : Ptr) : Option Place :=
  match frameOf s partn with
  | none => none
  | some f => some (placeIn f (partOf s partn).hwba.toNat p)

/-- The frame by which a packet in flight goes on: the partition's, or the one it had when it was deleted (R16). -/
def mapOf (s : State) (partn : Nat) : Option Frame :=
  match frameOf s partn with
  | some f => some f
  | none => (partOf s partn).oldFrame

/-- The frame that was in force at a tick: that of a partition which has been created again since is the one before (R16). -/
def mapAt (s : State) (partn tick : Nat) : Option Frame :=
  if tick < (partOf s partn).frameAt then
    match (partOf s partn).oldFrame with
    | some f => some f
    | none => mapOf s partn
  else mapOf s partn

/-- The place that a packet injected at a tick is sent on to. -/
def placeOn (s : State) (partn tick : Nat) (p : Ptr) : Option Place :=
  (mapAt s partn tick).map fun f => placeIn f (partOf s partn).hwba.toNat p

/-! Keys of memory bytes. -/

def keySpad (tile off : Nat) : Nat := tile * 2 ^ 20 + off
def keyChan (ch addr : Nat) : Nat := 2 ^ 40 + ch * 2 ^ 33 + addr
def keyTier2 (ctl addr : Nat) : Nat := 2 ^ 44 + ctl * 2 ^ 37 + addr
def keyHost (bus : Nat) : Nat := 2 ^ 65 + bus

/-- Capacity behind a port (R175): 6 GiB for a channel, 96 GiB for a controller. Ports 0-47 are channels. -/
def portCap (port : Nat) : Nat := if port < 48 then 6 * 2 ^ 30 else 96 * 2 ^ 30

def keyPort (port addr : Nat) : Nat := if port < 48 then keyChan port addr else keyTier2 (port - 48) addr

/-! ### Routers (R173, R180) -/

/-- The bad column of a die (R173). -/
def badOf (s : State) (die : Nat) : Nat := lookD s.bad die 32

/-- Die number of a logical tile, 2 down + across (R395). -/
def dieOf (tile : Nat) : Nat := 2 * (tile / 64 / 32) + tile % 64 / 32

/-- The physical router of a logical tile. -/
def physTile (s : State) (tile : Nat) : Nat × Nat :=
  let x := tile % 64
  let c := x % 32
  let c' := if c < badOf s (dieOf tile) then c else c + 1
  (if x < 32 then c' else 33 + c', tile / 64)

def attachChan (ch : Nat) : Nat × Nat :=
  let n := ch % 24
  (if ch < 24 then 0 else 65, if n < 12 then 4 + 2 * n else 36 + 2 * (n - 12))

def attachTier2 (ctl : Nat) : Nat × Nat :=
  ([4, 12, 20, 28, 37, 45, 53, 61].getD (ctl % 8) 4, if ctl < 8 then 0 else 63)

def attachHost : Nat × Nat := (32, 0)

def dist1 (a b : Nat) : Nat := (a - b) + (b - a)
def hops (a b : Nat × Nat) : Nat := dist1 a.1 b.1 + dist1 a.2 b.2
def crossX (a b : Nat × Nat) : Nat := if (a.1 ≤ 32 ∧ 33 ≤ b.1) ∨ (b.1 ≤ 32 ∧ 33 ≤ a.1) then 1 else 0
def crossY (a b : Nat × Nat) : Nat := if (a.2 ≤ 31 ∧ 32 ≤ b.2) ∨ (b.2 ≤ 31 ∧ 32 ≤ a.2) then 1 else 0
def crossings (a b : Nat × Nat) : Nat := crossX a b + crossY a b

/-- Route length in q (R181) with the endpoint extra. -/
def routeLen (a b : Nat × Nat) (e : Nat) : Nat := 3 * hops a b + 12 * crossX a b + 12 * crossY a b + e

/-- The router of a place and its endpoint extra (R180, R181). -/
def routerOf (s : State) : Place → (Nat × Nat) × Nat
  | .spad t _ => (physTile s t, 0)
  | .tileCtrl t _ => (physTile s t, 0)
  | .chan c _ => (attachChan c, 24)
  | .tier2 c _ => (attachTier2 c, 88)
  | .host _ => (attachHost, 176)
  | .devCtrl _ _ => (attachHost, 0)

/-- Route length from a tile to a place. -/
def lenTo (s : State) (tile : Nat) (pl : Place) : Nat :=
  routeLen (physTile s tile) (routerOf s pl).1 (routerOf s pl).2

/-- Route length between two tiles. -/
def lenTiles (s : State) (a b : Nat) : Nat := routeLen (physTile s a) (physTile s b) 0

/-- The bits of an access kind's messages (R182); 6 stands for `amocas`. -/
def kindBits : Nat → Nat
  | 0 => 192 | 1 => 192 | 2 => 640 | 3 => 640 | 4 => 2624 | 5 => 256 | _ => 320

/-- `charge(p, k)` from a tile (R183); pointers within their limits. -/
def chargeIn (s : State) (f : Frame) (tile : Nat) (p : Ptr) (k : Nat) : Nat :=
  match pKind p with
  | 1 => kindBits k * lenTiles s tile (tileAt f (pX p) (pY p))
  | 6 => 0
  | _ => kindBits k * lenTo s tile (placeIn f 0 p)

def charge (s : State) (partn tile : Nat) (p : Ptr) (k : Nat) : Nat :=
  match frameOf s partn with
  | none => 0
  | some f => chargeIn s f tile p k

/-! ### Latency of a route (R79) -/

/-- One way between routers, in cycles: 2 a hop and 8 a die crossing. -/
def owTiles (s : State) (a b : Nat) : Nat :=
  2 * hops (physTile s a) (physTile s b) + 8 * crossings (physTile s a) (physTile s b)

/-- One way from a tile to a place: die crossings count for tiles and device units only (R79). -/
def owTo (s : State) (tile : Nat) (pl : Place) : Nat :=
  match pl with
  | .spad t _ => owTiles s tile t
  | .tileCtrl t _ => owTiles s tile t
  | .chan c _ => 2 * hops (physTile s tile) (attachChan c)
  | .tier2 c _ => 2 * hops (physTile s tile) (attachTier2 c)
  | .host _ => 0
  | .devCtrl _ _ => 2 * hops (physTile s tile) attachHost + 8 * crossings (physTile s tile) attachHost

/-- The part of an access's latency that is not the route (R79). -/
def baseLat (pl : Place) (atomic : Bool) : Nat :=
  match pl with
  | .spad _ _ => if atomic then 16 else 12
  | .tileCtrl _ _ => if atomic then 16 else 12
  | .chan _ _ => 200
  | .tier2 _ _ => 640
  | .host _ => Config.hostLatency
  | .devCtrl _ _ => 48

/-- Latency of an access from a tile to a place. -/
def latTo (s : State) (tile : Nat) (pl : Place) (atomic : Bool) : Nat := baseLat pl atomic + 2 * owTo s tile pl

/-- Latency of an 8-byte plain load through a pointer (R87, R177). -/
def loadLat (s : State) (partn tile : Nat) (p : Ptr) : Nat :=
  match placeOf s partn p with
  | none => 0
  | some pl => latTo s tile pl false

/-! ### Source numbers (R13) and clusters (R9) -/

def clusterOfTile (tile : Nat) : Nat := 16 * (tile / 64 / 2) + tile % 64 / 4
/-- The core of a tile within its cluster, 0-7 (R283: in order of (y, x)). -/
def coreInCluster (tile : Nat) : Nat := 4 * (tile / 64 % 2) + tile % 4
def tileOfCore (cl ci : Nat) : Nat := 64 * (2 * (cl / 16) + ci / 4) + 4 * (cl % 16) + ci % 4
def srcMxe (cl : Nat) : Nat := 4096 + 2 * cl
def srcCu (cl : Nat) : Nat := 4097 + 2 * cl
def srcLaunch : Nat := 5120
def srcTrace : Nat := 5121
/-- A tier-two controller, a peer link, the host interface. -/
def srcTier2 (ctl : Nat) : Nat := if ctl < 8 then 5122 + ctl else 5135 + ctl
def srcLink (l : Nat) : Nat := if l < 12 then 5130 + l else 5139 + l
def srcHost : Nat := 5142
def srcFirmware : Nat := 5163

end Sys2Proof.Machine
end

