-- ==== Sys2Proof/Machine/Regs.lean ====
section
/-! DEFINITION. Registers of a thread (R67, R68, R73) and the packed system registers that follow from its state (R71,
R72). Every register has one home, read and written through these accessors. -/

namespace Sys2Proof.Machine

/-! ### Scalars, predicates and masks -/

/-- s0 reads zero (R67). -/
def sget (th : Thread) (r : SReg) : Word := if r = 0 then 0 else lookD th.s r.val 0

/-- A write by the thread's own instruction sets the register full (R68); writes to s0 are discarded (R67). -/
def sset (r : SReg) (v : Word) (th : Thread) : Thread :=
  if r = 0 then th
  else
    { th with s := ins th.s r.val v, sEmpty := th.sEmpty &&& ~~~(1#32 <<< r.val),
              sOut := th.sOut &&& ~~~(1#32 <<< r.val), sPois := th.sPois &&& ~~~(1#32 <<< r.val) }

def sEmptyAt (th : Thread) (r : SReg) : Bool := th.sEmpty.getLsbD r.val && decide (r ≠ 0)
/-- Emptied by an outstanding relaxed load, `jpush` or `evnext` (R68, R69). -/
def sOutAt (th : Thread) (r : SReg) : Bool := th.sOut.getLsbD r.val && decide (r ≠ 0)
/-- Armed: emptied by `rclr` and not written since (R192). -/
def sArmed (th : Thread) (r : SReg) : Bool := sEmptyAt th r && !sOutAt th r

/-- Empties a register for `rclr` (R99). -/
def sclear (r : SReg) (th : Thread) : Thread := if r = 0 then th else { th with sEmpty := th.sEmpty ||| (1#32 <<< r.val) }

/-- Empties a destination at issue of a relaxed load, `jpush` or `evnext` (R68). -/
def sOutstanding (r : SReg) (th : Thread) : Thread :=
  if r = 0 then th
  else { th with sEmpty := th.sEmpty ||| (1#32 <<< r.val), sOut := th.sOut ||| (1#32 <<< r.val) }

/-- Fills a register with the value it holds (R58). -/
def sfill (r : SReg) (th : Thread) : Thread :=
  { th with sEmpty := th.sEmpty &&& ~~~(1#32 <<< r.val), sOut := th.sOut &&& ~~~(1#32 <<< r.val) }

/-- p0 is true (R67). -/
def pget (th : Thread) (p : PReg) : Bool := if p = 0 then true else th.p.getLsbD p.val

def pset (p : PReg) (v : Bool) (th : Thread) : Thread :=
  if p = 0 then th
  else
    { th with p := if v then th.p ||| (1#8 <<< p.val) else th.p &&& ~~~(1#8 <<< p.val),
              pEmpty := th.pEmpty &&& ~~~(1#8 <<< p.val), pPois := th.pPois &&& ~~~(1#8 <<< p.val) }

def pclear (p : PReg) (th : Thread) : Thread := if p = 0 then th else { th with pEmpty := th.pEmpty ||| (1#8 <<< p.val) }

/-- m0 is all ones (R67). -/
def mget (th : Thread) (m : MReg) : Word := if m = 0 then BitVec.allOnes 64 else lookD th.m m.val 0

def mset (m : MReg) (v : Word) (th : Thread) : Thread :=
  if m = 0 then th
  else { th with m := ins th.m m.val v, mEmpty := th.mEmpty &&& ~~~(1#8 <<< m.val), mPois := th.mPois &&& ~~~(1#8 <<< m.val) }

/-! ### The pooled register file (R73) -/

/-- rows(V, W). -/
def rowsFor (v w : Nat) : Nat := v + (w + 7) / 8

/-- Pool index of granule i of vector register r. -/
def vgran (th : Thread) (r i : Nat) : Nat := 8 * th.rows.getD r 0 + i

/-- Pool index of granule g of the dennum window. -/
def wgran (th : Thread) (g : Nat) : Nat := 8 * th.rows.getD (th.vn + g / 8) 0 + g % 8

def granGet (s : State) (tile g : Nat) : Word := lookD (tileOf s tile).pool g 0

/-- Writing a granule sets it full and clears its poison. -/
def granSet (tile g : Nat) (v : Word) (s : State) : State :=
  modTile s tile fun t =>
    { t with pool := ins t.pool g v, poolEmpty := setDel t.poolEmpty g, poolPois := setDel t.poolPois g }

/-- A vector register as a number of 512 bits. -/
def vget (s : State) (th : Thread) (r : Nat) : Nat :=
  (List.range 8).foldl (fun a i => a + (granGet s th.tile (vgran th r i)).toNat * 2 ^ (64 * i)) 0

def vset (s : State) (th : Thread) (r : Nat) (v : Nat) : State :=
  (List.range 8).foldl (fun s i => granSet th.tile (vgran th r i) (BitVec.ofNat 64 (v / 2 ^ (64 * i) % 2 ^ 64)) s) s

/-- Marks a vector register's granules empty (R253) or full. -/
def vmark (s : State) (th : Thread) (r : Nat) (empty : Bool) : State :=
  modTile s th.tile fun t =>
    { t with poolEmpty := (List.range 8).foldl (fun l i => setPut l (vgran th r i) empty) t.poolEmpty }

def vEmptyAt (s : State) (th : Thread) (r : Nat) : Bool :=
  decide (r < th.vn) && (List.range 8).any fun i => decide (vgran th r i ∈ (tileOf s th.tile).poolEmpty)

def vPoisAt (s : State) (th : Thread) (r : Nat) : Bool :=
  decide (r < th.vn) && (List.range 8).any fun i => decide (vgran th r i ∈ (tileOf s th.tile).poolPois)

/-- Granule g of the dennum window. -/
def winGet (s : State) (th : Thread) (g : Nat) : Word := granGet s th.tile (wgran th g)
def winSet (s : State) (th : Thread) (g : Nat) (v : Word) : State := granSet th.tile (wgran th g) v s

/-- Element i of a vector value. -/
def elem (w v i : Nat) : Nat := v / 2 ^ (w * i) % 2 ^ w

/-- Sums elements into a vector value, lowest first. -/
def joinElems (w : Nat) : List Nat → Nat
  | [] => 0
  | x :: t => x % 2 ^ w + 2 ^ w * joinElems w t

/-! ### Packed read-only registers -/

/-- TID (R71). -/
def tidOf (th : Thread) : Nat := th.partn * 2 ^ 40 + th.serial * 2 ^ 24 + th.tser

def coreOf (s : State) (th : Thread) : Nat :=
  match frameOf s th.partn with
  | none => 0
  | some f => packCore (guestX f th.tile) (guestY f th.tile)

/-- MODE (R72). -/
def modeOf (th : Thread) : Nat :=
  (if th.sup then 1 else 0) + th.role * 4 + (if th.ltm then 16 else 0) + (if th.vn = 0 ∧ th.dwin = 0 then 32 else 0)

/-- TEAM (R71). -/
def teamReg (s : State) (th : Thread) : Nat :=
  match teamOf s th.partn th.serial with
  | none => th.serial
  | some t => th.serial + t.w * 2 ^ 16 + t.h * 2 ^ 24 + t.t * 2 ^ 32

/-- PART (R71). -/
def partReg (s : State) (th : Thread) : Nat :=
  match frameOf s th.partn with
  | none => th.partn
  | some f => th.partn + f.w * 2 ^ 16 + f.h * 2 ^ 24

/-- DMC (R184). -/
def dmcOf (m : Meter) : Nat := (if m.cnt then 1 else 0) + (if m.trap then 2 else 0) + (if m.jobs then 4 else 0)

/-- The logical tile of a guest place of a thread's partition. -/
def guestTile (s : State) (partn x y : Nat) : Option Nat :=
  match frameOf s partn with
  | none => none
  | some f => if x < f.w ∧ y < f.h then some (tileAt f x y) else none

/-- Whether a tile lies in a team's rectangle. -/
def inTeam (s : State) (partn serial tile : Nat) : Bool :=
  match frameOf s partn, teamOf s partn serial with
  | some f, some t =>
    let x := tile % 64 - f.ox
    let y := tile / 64 - f.oy
    decide (f.ox ≤ tile % 64) && decide (f.oy ≤ tile / 64) && decide (t.ox ≤ x) && decide (x < t.ox + t.w)
      && decide (t.oy ≤ y) && decide (y < t.oy + t.h)
  | _, _ => false

/-- The tiles of a team, in order of guest (y, x). -/
def teamTiles (s : State) (partn serial : Nat) : List Nat :=
  match frameOf s partn, teamOf s partn serial with
  | some f, some t => (List.range t.h).flatMap fun j => (List.range t.w).map fun i => tileAt f (t.ox + i) (t.oy + j)
  | _, _ => []

/-- The living threads of a team. -/
def teamThreads (s : State) (partn serial : Nat) : List Nat :=
  threadsWhere s fun _ th => decide (th.partn = partn ∧ th.serial = serial)

/-- The other thread of a redundant pair (R83). -/
def mateOf (s : State) (u : Nat) : Option Nat :=
  match threadOf s u with
  | none => none
  | some th =>
    if th.role = 0 then none
    else (threadsWhere s fun v t =>
      decide (t.partn = th.partn ∧ t.serial = th.serial ∧ t.tser = th.tser) && decide (v ≠ u)).head?

/-- The fenced valid rectangle that holds a tile, if any (R416, R417). -/
def rectAt (s : State) (partn tile : Nat) (fenced : Bool) : Option Nat :=
  match frameOf s partn with
  | none => none
  | some f =>
    ((partOf s partn).rects.filter fun e =>
      let r := e.2
      let x := tile % 64 - f.ox
      let y := tile / 64 - f.oy
      decide (f.ox ≤ tile % 64) && decide (f.oy ≤ tile / 64) && r.valid && (r.fenced || !fenced)
        && decide (r.x ≤ x) && decide (x < r.x + r.w) && decide (r.y ≤ y) && decide (y < r.y + r.h)).head?.map (·.1)

def fencedAt (s : State) (partn tile : Nat) : Bool := (rectAt s partn tile true).isSome

end Sys2Proof.Machine
end

