-- ==== Sys2Proof/Machine/Ops.lean ====
section
/-! DEFINITION. The named operations over memory and registers: one word at its home (R51-R53, R63, R64, R112, R115),
translation (R175-R177), stores and reads of the hardware itself, waiting at the owner (R113), queue entries (R150,
R151), taking an exception (R140-R153) and the return from one (R93, R146), and how a unit issues and ends. -/

namespace Sys2Proof.Machine

/-! ### One word at its home -/

def wordFull (s : State) (k : Nat) : Bool := decide (k ∉ s.empty)
def wordPois (s : State) (k : Nat) : Bool := decide (k ∈ s.poison)
def wordAt (s : State) (k : Nat) : Word := memWord s.mem k

/-- A 16-byte block as it lies in memory under a key number; 0 is no key. -/
def enciphered (key block : Nat) (v : BitVec 128) : BitVec 128 := if key = 0 then v else Config.blockCipher key block v

/-- A 16-byte block as a key number reads what lies in memory. -/
def deciphered (key block : Nat) (v : BitVec 128) : BitVec 128 := if key = 0 then v else (Config.blockCipher key block).symm v

/-- Two words of a block seen under one key number, as another sees what lies there. -/
def otherView (cur view block : Nat) (lo hi : Word) : Word × Word :=
  let v := deciphered view block (enciphered cur block (hi ++ lo))
  (v.extractLsb' 0 64, v.extractLsb' 64 64)

/-- The words of a line, as another key number sees what lies there. -/
def lineSeen (m : List Host.Cell) (cur view line : Nat) : List Word :=
  (List.range 4).flatMap fun j =>
    let x := otherView cur view (4 * line + j) (memWord m (64 * line + 16 * j)) (memWord m (64 * line + 16 * j + 8))
    [x.1, x.2]

/-- The words kept in memory are those of a line under one key number, that of the leaf it was last reached through (0:
none). An access through a leaf of another view makes that view the current one; what lies behind the port stays the same
(R372). -/
def setView (s : State) (k view : Nat) : State :=
  let line := k / 64
  let cur := lookD s.cipher line 0
  if k < 2 ^ 40 ∨ cur = view then s
  else
    { s with mem := (lineSeen s.mem cur view line).zipIdx.foldl (fun m x => memPutWord m (64 * line + 8 * x.2) x.1) s.mem,
             cipher := if view = 0 then del s.cipher line else ins s.cipher line view }

/-- A word of tier one or two as it lies there, whatever key it was written under. -/
def rawWord (s : State) (k : Nat) : Word := wordAt (setView s k 0) k

/-- Writes a word with its full/empty bit; its poison is cleared. -/
def putWord (s : State) (k : Nat) (v : Word) (full : Bool) : State :=
  { s with mem := memPutWord s.mem k v, empty := setPut s.empty k (!full), poison := setDel s.poison k }

/-- New values of the atomics (R115). -/
def amoNew (f : AmoOp) (old v e : Word) : Word :=
  match f with
  | .add => old + v
  | .and => old &&& v
  | .or => old ||| v
  | .xor => old ^^^ v
  | .min => if old.slt v then old else v
  | .max => if v.slt old then old else v
  | .minu => if old.ult v then old else v
  | .maxu => if v.ult old then old else v
  | .swap => v
  | .cas => if old = e then v else old

/-- A barrier object (R63): phase [63], expected [62:32], arrived [31:0]. -/
def barMake (phase : Bool) (expected arrived : Nat) : Word :=
  BitVec.ofNat 64 ((if phase then 2 ^ 63 else 0) + expected % 2 ^ 31 * 2 ^ 32 + arrived % 2 ^ 32)

/-- The check that follows an addition (R64). -/
def barCheck (phase : Bool) (expected arrived : Nat) : Word :=
  if expected ≠ 0 ∧ expected ≤ arrived then barMake (!phase) expected (arrived - expected)
  else barMake phase expected arrived

/-- Adds bytes to `expected` (R118). -/
def barExpect (old : Word) (c : Nat) : Word :=
  barCheck (bit old 63) (min (bits old 32 31 + c) 0x7FFFFFFF) (bits old 0 32)

/-- Adds bytes to `arrived` (R64). -/
def barArrive (old : Word) (n : Nat) : Word :=
  barCheck (bit old 63) (bits old 32 31) (min (bits old 0 32 + n) 0xFFFFFFFF)

/-- A word with the bytes of a mask taken from another. -/
def mixBytes (old new : Word) (mask : Nat) : Word :=
  BitVec.ofNat 64 ((List.range 8).foldl (fun a i =>
    a + (if mask / 2 ^ i % 2 = 1 then bits new (8 * i) 8 else bits old (8 * i) 8) * 2 ^ (8 * i)) 0)

/-- The bytes of an n-byte access at byte j of its word. -/
def byteMask (j n : Nat) : Nat := (2 ^ n - 1) * 2 ^ j

/-- What one access does to one word. -/
inductive Perf
  | done (vals : List Word) (new : Option (Word × Bool)) (flags : Nat)
  | waits
  deriving DecidableEq, Repr, Inhabited

/-- One access at one word (R52, R110, R112, R115, R118, R119, R252): `j` is the byte of the word it starts at, `old`
and `full` the word as it stands. -/
def performWord (op : AccOp) (j : Nat) (old : Word) (full : Bool) : Perf :=
  match op with
  | .load n => .done [BitVec.ofNat 64 (bits old (8 * j) (8 * n))] none 0
  | .store n v => .done [] (some (mixBytes old (v <<< (8 * j)) (byteMask j n), true)) 0
  | .take => if full then .done [old] (some (old, false)) 0 else .waits
  | .peek => if full then .done [old] none 0 else .waits
  | .give v => if full then .waits else .done [] (some (v, true)) 0
  | .post v => .done [] (some (v, true)) 0
  | .void => .done [] (some (old, false)) 0
  | .probe => .done [if full then 1 else 0] none 0
  | .amo f v e => .done [old] (some (amoNew f old v e, true)) 0
  | .barini c => .done [] (some (barMake false c 0, true)) 0
  | .barexp c => .done [] (some (barExpect old c, true)) 0
  | .barwt ph => if bit old 63 = ph then .waits else .done [] none 0
  | .addElem n et v rnd ftz =>
    let r := addElem et rnd ftz (bits old (8 * j) (8 * n)) v.toNat
    .done [] (some (mixBytes old (BitVec.ofNat 64 (r.1 * 2 ^ (8 * j))) (byteMask j n), true)) r.2
  | .storeBytes mask v => .done [] (some (mixBytes old v mask, true)) 0
  | .pfix => .done [] none 0

/-- Whether an access needs the page's w (R176, R177). -/
def isWrite : AccOp → Bool
  | .load _ => false
  | .peek => false
  | .probe => false
  | .barwt _ => false
  | .pfix => false
  | _ => true

/-- Whether an access takes a poisoned word without consuming it (R414): it writes the whole word. -/
def coversWord : AccOp → Bool
  | .store n _ => decide (n = 8)
  | .storeBytes mask _ => decide (mask = 255)
  | .post _ => true
  | .barini _ => true
  | _ => false

/-- The access kind of an operation, as for `dist` (R89, R142). -/
def opKind : AccOp → Nat
  | .load _ => 0
  | .take => 0
  | .peek => 0
  | .probe => 0
  | .barwt _ => 0
  | .pfix => 0
  | .amo _ _ _ => 5
  | .addElem _ _ _ _ _ => 5
  | _ => 1

/-! ### Owners of words and their wait lists (R113) -/

/-- The place number of R142 for poisoned data. -/
def placeNum (k : Nat) : Nat := if k < 2 ^ 40 then 0 else if k < 2 ^ 44 then 1 else 2

/-- The port of a key at or above 2^40. -/
def keyToPort (k : Nat) : Nat := if k < 2 ^ 44 then (k - 2 ^ 40) / 2 ^ 33 else 48 + (k - 2 ^ 44) / 2 ^ 37

def waitersAt (s : State) (k : Nat) : List Req :=
  if k < 2 ^ 40 then (tileOf s (k / 2 ^ 20)).waiters else (portOf s (keyToPort k)).waiters

def setWaiters (s : State) (k : Nat) (l : List Req) : State :=
  if k < 2 ^ 40 then modTile s (k / 2 ^ 20) fun t => { t with waiters := l }
  else modPort s (keyToPort k) fun p => { p with waiters := l }

/-- Two requests are the same operation. -/
def sameReq (a b : Req) : Bool := decide (a.uid = b.uid ∧ a.fid = b.fid ∧ a.part = b.part)

/-- Whether the latency of an operation is an atomic's (R79, R254). -/
def isAtomic : AccOp → Bool
  | .amo _ _ _ => true
  | .addElem _ _ _ _ _ => true
  | _ => false

/-- What an operation takes at its place beyond a plain access: it leaves after its performance, so that two packets of
one source to one home arrive in the order in which they were sent (R79, R203). -/
def extraLat (r : Req) : Nat := if isAtomic r.op then baseLat r.home true - baseLat r.home false else 0

/-- Sends the answer of a request back along its way (R199). What it fills is seen by the issues of the next cycle (R57,
R77). -/
def answer (s : State) (r : Req) (res : AccRes) : State :=
  let a : Answer := { uid := r.uid, fid := r.fid, part := r.part, addr := r.addr, stub := r.stub, res := res }
  sched s { cycle := s.cycle + r.ow + extraLat r, late := r.rx, age := r.inj, src := r.src,
            act := if r.rx then .relaxedAccessCompletion a else .accessResponse a }

def answerFault (s : State) (r : Req) (cause info : Nat) (host : Bool) : State :=
  answer s r (.fault cause info (now s) host)

/-- Takes back the pending timeout of a SYNC wait. -/
def dropTimeout (s : State) (r : Req) : State :=
  unsched s fun a => match a with | .syncTimeout q => sameReq q r | _ => false

/-- Examines the waiters of a word in the order of their arrival and performs those whose condition holds (R113), in one
pass: a waiter that changes the word changes it for those after it, and those before it are not examined again (DESIGN
CHOICE, log 80). -/
def serveList (s : State) (k : Nat) : List Req → State × List Req
  | [] => (s, [])
  | w :: t =>
    if w.key / 8 * 8 = k then
      let s0 := setView s k w.view
      match performWord w.op (w.key % 8) (wordAt s0 k) (wordFull s k) with
      | .done vals new fl =>
        let s1 := match new with | some (v, f) => putWord s0 k v f | none => s0
        serveList (dropTimeout (answer s1 w (.done vals fl)) w) k t
      | .waits => let r := serveList s k t; (r.1, w :: r.2)
    else let r := serveList s k t; (r.1, w :: r.2)

def serve (s : State) (k : Nat) : State :=
  if (waitersAt s k).any fun w => decide (w.key / 8 * 8 = k) then
    let r := serveList s k (waitersAt s k)
    setWaiters r.1 k r.2
  else s

/-- Writes a word at its home and serves its waiters. -/
def writeWord (s : State) (k : Nat) (v : Word) (full : Bool) : State := serve (putWord s k v full) k

/-! ### Translation (R175-R177) -/

/-- A table entry; a table outside the memory it is placed in reads as an entry that is not valid (log 20). -/
def tableEntry (s : State) (place addr : Nat) : Word :=
  if addr + 8 ≤ portCap place then rawWord s (keyPort place addr) else 0

/-- A valid entry that breaks R176. -/
def entryBroken (e : Word) : Bool :=
  decide (bits e 46 6 ≠ 0)
    || (if bit e 1 then decide (bits e 7 5 ≠ 0) || decide (bits e 52 6 ≠ 0) else decide (bits e 2 5 ≠ 0))

/-- The page size at a tree level. -/
def pageSize (lvl : Nat) : Nat := 2 ^ (36 - 4 * lvl)

/-- A leaf that the port cannot use: misplaced, beyond its memory, in the retention region while it is reserved
(R421), or encrypted in a partition without a key (R372). -/
def leafUnusable (s : State) (port partn lvl : Nat) (e : Word) : Bool :=
  let a := bits e 12 34 * 4096
  decide (a % pageSize lvl ≠ 0) || decide (portCap port < a + pageSize lvl)
    || (s.ckReserve && decide (48 ≤ port) && decide (a < 0x1800000000) && decide (0x1300000000 < a + pageSize lvl))
    || (bit e 5 && !(partOf s partn).pkey)

/-- What a walk ends in: a leaf with its level, or the level of the page fault and the entry's host bit. -/
inductive Walk
  | leaf (lvl : Nat) (e : Word)
  | none (lvl : Nat) (host : Bool)
  deriving DecidableEq, Repr, Inhabited

/-- The walk of R175 from an entry at a level; `n` bounds the levels below it. -/
def walkFrom (s : State) (port partn o : Nat) : Nat → Nat → Word → Walk
  | n, lvl, e =>
    if bit e 0 = false then .none lvl (bit e 6)
    else if entryBroken e then .none lvl false
    else if bit e 1 then (if leafUnusable s port partn lvl e then .none lvl false else .leaf lvl e)
    else
      match n with
      | 0 => .none 6 false
      | n + 1 => walkFrom s port partn o n (lvl + 1)
          (tableEntry s (bits e 52 6) (bits e 7 39 * 128 + 8 * (o / 2 ^ (36 - 4 * (lvl + 1)) % 16)))

/-- The root entry of a partition's tree for an offset. -/
def rootEntry (s : State) (partn o : Nat) : Word :=
  match mapOf s partn with
  | none => 0
  | some f => tableEntry s (bits f.ptroot 52 6) (bits f.ptroot 13 33 * 8192 + 8 * (o / 2 ^ 36 % 1024))

def walk (s : State) (port partn o : Nat) : Walk := walkFrom s port partn o 6 0 (rootEntry s partn o)

/-- Latency of one table read from a port (R177). -/
def tableLat (port place : Nat) : Nat :=
  let a := if port < 48 then attachChan port else attachTier2 (port - 48)
  if place < 48 then 200 + 4 * hops a (attachChan place) else 640 + 4 * hops a (attachTier2 (place - 48))

/-- The time the table reads of a walk take. -/
def walkLatFrom (s : State) (port o : Nat) : Nat → Nat → Word → Nat
  | 0, _, _ => 0
  | n + 1, lvl, e =>
    if bit e 0 = false ∨ entryBroken e ∨ bit e 1 then 0
    else tableLat port (bits e 52 6) + walkLatFrom s port o n (lvl + 1)
      (tableEntry s (bits e 52 6) (bits e 7 39 * 128 + 8 * (o / 2 ^ (36 - 4 * (lvl + 1)) % 16)))

def walkLat (s : State) (port partn o : Nat) : Nat :=
  match mapOf s partn with
  | none => 0
  | some f => tableLat port (bits f.ptroot 52 6) + walkLatFrom s port o 6 0 (rootEntry s partn o)

/-- A cached leaf covers an offset. -/
def Leaf.covers (l : Leaf) (partn o : Nat) : Bool :=
  decide (l.partn = partn) && decide (l.base ≤ o) && decide (o < l.base + pageSize l.lvl)

def cached (s : State) (port partn o : Nat) : Option Leaf := (portOf s port).leaves.find? fun l => l.covers partn o

/-- Drops the least recently used unlocked leaf of a list in use order, most recent first. -/
def dropOldest : List Leaf → List Leaf
  | [] => []
  | l :: t => if t.any (fun x => !x.lock) then l :: dropOldest t else if l.lock then l :: t else t

/-- Enters a walked leaf (R177): at most 2,048 locked leaves, 4,096 entries. -/
def cacheLeaf (s : State) (port : Nat) (l : Leaf) : State :=
  modPort s port fun p =>
    let lock := l.lock && decide ((p.leaves.filter (·.lock)).length < 2048)
    let ls := if p.leaves.length < 4096 then p.leaves else dropOldest p.leaves
    { p with leaves := { l with lock := lock } :: ls }

/-- Moves a used leaf to the front. -/
def useLeaf (s : State) (port : Nat) (l : Leaf) : State :=
  modPort s port fun p => { p with leaves := l :: p.leaves.erase l }

def leafOf (partn o lvl : Nat) (e : Word) : Leaf :=
  { partn := partn, lvl := lvl, base := o / pageSize lvl * pageSize lvl, frame := bits e 12 34 * 4096, w := bit e 2,
    x := bit e 3, enc := bit e 5, lock := bit e 4 }

/-- The physical address of an offset, or the page or protection fault (R177). -/
inductive Xlat
  | ok (addr : Nat)
  | page (lvl : Nat) (host : Bool)
  | prot
  deriving DecidableEq, Repr, Inhabited

def leafXlat (l : Leaf) (o : Nat) (write fetch : Bool) : Xlat :=
  if (write && !l.w) || (fetch && !l.x) then .prot else .ok (l.frame + (o - l.base))

/-- Translates with the walk done at once; a leaf found is cached. -/
def translate (s : State) (port partn o : Nat) (write fetch : Bool) : State × Xlat :=
  match cached s port partn o with
  | some l => (useLeaf s port l, leafXlat l o write fetch)
  | none =>
    match walk s port partn o with
    | .none lvl h => (s, .page lvl h)
    | .leaf lvl e =>
      let l := leafOf partn o lvl e
      (cacheLeaf s port l, leafXlat l o write fetch)

/-- The key number under which a leaf reaches its lines: that of its partition where enc is set (R372). -/
def viewOf (s : State) (port partn o : Nat) : Nat :=
  match cached s port partn o with
  | some l => if l.enc then (partOf s partn).keyNo else 0
  | none => 0

/-! ### Reads and stores of the hardware itself -/

/-- A word the hardware reaches through a pointer: its key, or cause and detail of the failure. -/
inductive Hw
  | ok (key : Nat)
  | bad (cause info : Nat) (host : Bool)
  deriving DecidableEq, Repr, Inhabited

def Hw.key : Hw → Nat
  | .ok k => k
  | .bad _ _ _ => 0

/-- The block of a scratchpad offset (R206). -/
def blockAt (s : State) (tile b : Nat) : Block := lookD (tileOf s tile).blocks b Block.reset
def blockOf (s : State) (tile off : Nat) : Block := blockAt s tile (off / 256)
def modBlock (s : State) (tile b : Nat) (f : Block → Block) : State :=
  modTile s tile fun t => { t with blocks := ins t.blocks b (f (lookD t.blocks b Block.reset)) }

def isSpad : Place → Bool
  | .spad _ _ => true
  | _ => false

/-- Follows stubs to the block that holds a scratchpad word (R212): the word's key or the failure, the pointer it ends
at, and the tiles and blocks left through their stubs. `n` bounds the chain. -/
def throughStubs (s : State) (partn : Nat) : Nat → Ptr → Hw × Ptr × List (Nat × Nat)
  | 0, p => (.bad 0x0B 0 false, p, [])
  | n + 1, p =>
    match placeOf s partn p with
    | some (.spad tile off) =>
      if fencedAt s partn tile then (.bad 0x08 6 false, p, [])
      else
        match (blockOf s tile off).st with
        | .present => (.ok (keySpad tile off), p, [])
        | .forwarded =>
          let r := throughStubs s partn n (offBy (blockOf s tile off).stub (off % 256))
          (r.1, r.2.1, (tile, off / 256) :: r.2.2)
        | .vacated => (.bad 0x0B 0 false, p, [])
    | _ => (.bad 0x08 1 false, p, [])

/-- A chain of stubs followed to its end, however long: no block is left twice, since a forwarded block is no destination
(R206). -/
def stubEnd (s : State) (partn : Nat) (p : Ptr) : Hw × Ptr × List (Nat × Nat) :=
  throughStubs s partn ((s.tiles.map fun e => e.2.blocks.length).sum + 1) p

/-! ### Moves (R211) -/

/-- The destination block of a move. -/
def destBlock (s : State) (m : Move) : Option (Nat × Nat) :=
  (mapAt s m.partn m.since).map fun f => (tileAt f (pX m.dest) (pY m.dest), pOff m.dest / 256)

/-- The tile whose move holds a block as its source or its destination. -/
def movedBy (s : State) (tile b : Nat) : Option Nat :=
  if anyMove s then
    s.tiles.findSome? fun e =>
      match e.2.move with
      | some m => if (e.1 = tile ∧ m.block = b) ∨ destBlock s m = some (tile, b) then some e.1 else none
      | none => none
  else none

/-- What a move holds for a tile: the accesses that reached that tile, and the hardware's at the mover. -/
def heldByMove (mover tile : Nat) (m : Move) : Nat :=
  (m.held.filter fun a => match a with
    | .homeAccess r => (match r.home with | .spad t _ => decide (t = tile) | _ => false)
    | _ => decide (mover = tile)).length

/-- Accesses that wait at a tile. -/
def tileWaits (s : State) (tile : Nat) : Nat :=
  (tileOf s tile).waiters.length
    + if anyMove s then (s.tiles.map fun e => match e.2.move with | some m => heldByMove e.1 tile m | none => 0).sum else 0

def holdAct (s : State) (mover : Nat) (a : Act) : State :=
  modTile s mover fun t => { t with move := t.move.map fun m => { m with held := m.held ++ [a] } }

/-- Marks that an access of the hardware has met a block which is being moved: the act that makes it waits. -/
def meetMove (s : State) (l : List (Nat × Nat)) : State :=
  if anyMove s then
    match l.findSome? fun x => movedBy s x.1 x.2 with
    | some m => { s with behind := some m }
    | none => s
  else s

/-- An act that a condition makes due, and makes due again. -/
def polledAct : Act → Bool
  | .mma _ _ | .mzero _ _ | .mfmt _ _ | .mstore _ _ | .mcheck _ _ => true
  | .copy _ _ | .fill _ _ | .gather _ _ | .scatter _ _ | .scatteradd _ _ | .coll _ _ | .digest _ _ => true
  | .teamSave _ _ | .memberTimeout _ _ => true
  | _ => false

/-- Marks that an access of the hardware has met an earlier one to its word: the act that makes it waits (R53). -/
def meetEarlier (s : State) (met : Bool) : State := if met then { s with behind := some (s.behind.getD 4096) } else s

/-- An act that met a move waits for its end: one that has its own time is held in order of arrival, or tried again 64
cycles later where the list is full (R113, R211); one that a condition makes due is due again after the move (log 50). One
that met an earlier access to its word is tried again in the next cycle. -/
def postpone (s : State) (mover : Nat) (a : Act) : State :=
  if 4096 ≤ mover then
    if polledAct a then { s with again := s.again ++ [a] } else schedAt s (s.cycle + 1) a
  else if polledAct a then
    modTile s mover fun t => { t with move := t.move.map fun m => { m with stalled := m.stalled ++ [a] } }
  else if 64 ≤ tileWaits s mover then schedAt s (s.cycle + 64) a
  else holdAct s mover a

/-- An act that a condition makes due is waiting for the end of a move, or for an earlier access. -/
def stalled (s : State) (a : Act) : Bool :=
  decide (a ∈ s.again) || s.tiles.any fun e => match e.2.move with | some m => decide (a ∈ m.stalled) | none => false

/-- Counts an access served through a stub, saturating (R210). -/
def countStub (s : State) (tile b : Nat) : State :=
  modBlock s tile b fun k => { k with count := min (k.count + 1) 0xFFFFFFFF }

def countStubs (l : List (Nat × Nat)) (s : State) : State := l.foldl (fun s x => countStub s x.1 x.2) s

/-- The word behind a port that an offset leads to as the caches and trees now stand, by its key. -/
def portWord (s : State) (port partn o : Nat) : Option Nat :=
  match cached s port partn o, walk s port partn o with
  | some l, _ => some (keyPort port (l.frame + (o - l.base)) / 8)
  | none, .leaf lvl e => let l := leafOf partn o lvl e; some (keyPort port (l.frame + (o - l.base)) / 8)
  | none, .none _ _ => none

/-- An access that reached a port before waits there for the word of a key. -/
def earlierAtPort (s : State) (port k : Nat) : Bool :=
  (portOf s port).walks.any fun e => decide (e.r.op ≠ .pfix) && decide (portWord s port e.r.partn e.o = some (k / 8))

/-- The scratchpad word that a request on its way leads to, by its key. -/
def reqWord (s : State) (r : Req) : Option Nat :=
  match r.home with
  | .spad _ _ => match (stubEnd s r.partn r.at_).1 with | .ok k => some (k / 8) | .bad _ _ _ => none
  | _ => none

/-- An access that a move held is still on its way to the word of a key; one that follows the stub later stays behind it
(R211). -/
def earlierOnWay (s : State) (k : Nat) : Bool :=
  s.agenda.any fun x => match x.act with
    | .homeAccess r => r.turn.isSome && decide (reqWord s r = some (k / 8))
    | _ => false

/-- The block at which a resolved pointer ends. -/
def endBlock (s : State) (partn : Nat) (p : Ptr) : List (Nat × Nat) :=
  match placeOf s partn p with
  | some (.spad t o) => [(t, o / 256)]
  | _ => []

/-- Resolves a pointer for the hardware: limits, stubs, translation (R169, R177, R212). A block that is being moved, present
or not, and an earlier access to the word are met (R53, R211). -/
def hwKey (s : State) (partn : Nat) (p : Ptr) (write fetch : Bool) : State × Hw :=
  if limitsOf s partn p ≠ 0 then (s, .bad 0x08 (limitsOf s partn p) false)
  else
    let port := fun (n o : Nat) =>
      match translate s n partn o write fetch with
      | (s1, .ok a) => (meetEarlier (setView s1 (keyPort n a) (viewOf s1 n partn o)) (earlierAtPort s n (keyPort n a)), Hw.ok (keyPort n a))
      | (s1, .page l h) => (s1, Hw.bad 0x09 (l + if write then 16 else 0) h)
      | (s1, .prot) => (s1, Hw.bad 0x0A ((if write then 1 else 0) + if write then 16 else 0) false)
    match placeOf s partn p with
    | some (.spad _ _) =>
      let r := stubEnd s partn p
      (meetEarlier (meetMove (countStubs r.2.2 s) (r.2.2 ++ endBlock s partn r.2.1))
        (match r.1 with | .ok k => !r.2.2.isEmpty && earlierOnWay s k | .bad _ _ _ => false), r.1)
    | some (.chan c o) => port c o
    | some (.tier2 c o) => port (48 + c) o
    | some (.host b) => (s, .ok (keyHost b))
    | _ => (s, .bad 0x08 1 false)

/-- A whole-word store of the hardware that sets the word full. -/
def hwStore (s : State) (partn : Nat) (p : Ptr) (v : Word) : State :=
  match hwKey s partn p true false with
  | (s1, .ok k) => writeWord s1 k v true
  | (s1, .bad _ _ _) => s1

/-- A store of the hardware as a request of its own, which nothing waits for. -/
def storeReq (partn tile : Nat) (p : Ptr) (pl : Place) (v : Word) (tick : Nat) : Req :=
  { uid := 2 ^ 64 + tile, fid := 0, part := 0, partn := partn, src := tile, sup := true, rx := false, addr := p, at_ := p, home := pl,
    op := .store 8 v, inj := tick, key := 0, ow := 0, legs := 0, stub := none, kbits := 1, first := none, limit := 0, view := 0,
    turn := none }

/-- A plain store of a core into its own scratchpad, through stubs (R349, R387). One that meets a block which is being moved
is held there as a request (R211). -/
def spillStore (s : State) (tile off : Nat) (v : Word) : State :=
  match partAt s tile with
  | none => s
  | some n =>
    let p := tilePtr s n tile off
    let r := stubEnd s n p
    match (r.2.2 ++ endBlock s n r.2.1).findSome? fun x => (movedBy s x.1 x.2).map fun m => (m, x) with
    | some (m, x) =>
      let q := tilePtr s n x.1 (256 * x.2 + off % 256)
      holdAct (freshId s) m (.homeAccess { storeReq n tile q (.spad x.1 (256 * x.2 + off % 256)) v (now s) with turn := some s.nextId })
    | none =>
      let s1 := countStubs r.2.2 s
      match r.1 with | .ok k => writeWord s1 k v true | .bad _ _ _ => s1

/-- A plain read of the hardware: the word, or cause and detail; poisoned data is cause 0x1C. -/
def hwLoad (s : State) (partn : Nat) (p : Ptr) : State × (Hw × Word) :=
  match hwKey s partn p false false with
  | (s1, .ok k) =>
    if wordPois s1 (k / 8 * 8) then (s1, (.bad 0x1C (placeNum k) false, 0)) else (s1, (.ok k, wordAt s1 (k / 8 * 8)))
  | (s1, b) => (s1, (b, 0))

/-- All words of an entry at a pointer can be written (R151). -/
def hwWritable (s : State) (partn : Nat) (p : Ptr) : State × Bool :=
  (List.range 8).foldl (fun a i =>
    match hwKey a.1 partn (offBy p (8 * i)) true false with
    | (s1, .ok k) => (s1, a.2)
    | (s1, .bad _ _ _) => (s1, false)) (s, true)

/-- Writes words 1 and up, then word 0 (R150, R209, R410). -/
def hwRecord (s : State) (partn : Nat) (p : Ptr) (ws : List Word) : State :=
  match ws with
  | [] => s
  | w0 :: t =>
    let s1 := (t.foldl (fun (a : State × Nat) w => (hwStore a.1 partn (offBy p (8 * a.2)) w, a.2 + 1)) (s, 1)).1
    hwStore s1 partn p w0

/-! ### Queues of entries (R150, R151, R373, R399) -/

/-- The eight words of an entry. -/
def Entry.words (e : Entry) : List Word :=
  [e.cause, BitVec.ofNat 64 e.tid, e.addr, e.pc, e.info, BitVec.ofNat 64 e.tsc, e.loc, BitVec.ofNat 64 e.flags]

/-- Keeps held entries in the order of R14. -/
def enterEntry (l : List Entry) (e : Entry) : List Entry :=
  match l with
  | [] => [e]
  | x :: t =>
    if e.tsc < x.tsc ∨ (e.tsc = x.tsc ∧ e.src < x.src) then e :: x :: t else x :: enterEntry t e

def sub32 (a b : Nat) : Nat := (a + 2 ^ 32 - b) % 2 ^ 32

/-- What the host driver sees of a fault (R411): of a confidential partition its identity, the cause code and class, the
physical coordinates and the tick; the other fields are zero (DEDUCED, log 59). -/
def hostView (s : State) (e : Entry) : Entry :=
  if e.cause ≠ 0 ∧ (frameOf s (e.tid / 2 ^ 40)).any (·.conf) then
    { e with cause := BitVec.ofNat 64 (bits e.cause 0 10), tid := e.tid / 2 ^ 40 * 2 ^ 40, addr := 0, pc := 0, info := 0,
             loc := BitVec.ofNat 64 (bits e.loc 32 32 * 2 ^ 32) }
  else e

/-- Puts an entry where it waits to be posted: entries go out in the order of R14, once their tick has passed
(log 87). -/
def postHost (s : State) (e : Entry) : State := { s with hostEnt := enterEntry s.hostEnt (hostView s e) }
def postSup (s : State) (partn : Nat) (e : Entry) : State := modPart s partn fun p => { p with heldEnt := enterEntry p.heldEnt e }
def postDbg (s : State) (partn : Nat) (e : Entry) : State := modTrace s partn fun t => { t with heldDbg := enterEntry t.heldDbg e }

/-- A ring has room. -/
def hasRoom (base : Word) (n w r : Nat) : Bool := decide (base ≠ 0 ∧ n ≠ 0 ∧ sub32 w r ≠ n)

/-- A fault found before an entry's is still to be answered to its thread: the entry it may make comes first (R14). -/
def earlierFault (s : State) (e : Entry) : Bool :=
  let first := fun (tick u : Nat) => match threadOf s u with
    | some th => decide (tick < e.tsc ∨ (tick = e.tsc ∧ th.tile < e.src))
    | none => false
  s.agenda.any (fun x => match x.act with
      | .accessResponse a => match a.res with | .fault _ _ t _ => first t a.uid | _ => false
      | _ => false)
    || s.threads.any fun x => decide (x.2.role ≠ 2) && x.2.flights.any fun f => !f.rx && f.bad.any fun b => first b.2.tick x.1

/-- The oldest of some entries, if it can be posted now. -/
def entryDue (s : State) (stuck room : Bool) (l : List Entry) : Option Entry :=
  match l with
  | e :: _ => if !stuck && room && decide (e.tsc < now s) && !earlierFault s e then some e else none
  | [] => none

/-- Posts an entry into the host driver's queue (R373): a write may end in an error completion (R151). -/
def hostRing (s : State) (e : Entry) : State :=
  if Config.hostWriteFails s.fresh then { freshFree s with hostStuck := true }
  else
    let base := keyHost (s.hfqb.toNat + 64 * (s.hfqw % s.hfqn))
    let s1 := (e.words.foldl (fun (a : State × Nat) w => (putWord a.1 (base + 8 * a.2) w true, a.2 + 1)) (freshFree s, 0)).1
    { s1 with hfqw := (s1.hfqw + 1) % 2 ^ 32, outbox := s1.outbox ++ [.msix 0 s1.hfqv], hostEnt := s1.hostEnt.erase e }

/-- Submits a broadcast (R15): at most four of a source in a calend, a fifth counts into the next. -/
def submit (s : State) (src : Nat) (k : BcKind) : State × Nat :=
  let c := now s / 64
  let last := s.casts.foldl (fun a b => if b.src = src then max a b.calend else a) 0
  let mine := fun n => (s.casts.filter fun b => decide (b.src = src ∧ b.calend = n)).length
  let e := max (c + 2) last
  let at_ := if 4 ≤ mine e then e + 1 else e
  ({ s with casts := s.casts ++ [{ src := src, calend := at_, kind := k }] }, at_)

/-- The pointer of an entry of the supervisor fault queue. -/
def fqSlot (p : Partition) : Ptr := offBy p.fqb (64 * (p.fqw % p.fqn))

/-- The notice of code 4 (R151, R420): to the host driver's queue alone, announced as every notice is. -/
def noticeFq (s : State) (partn : Nat) : State :=
  if (partOf s partn).fqNoted then s
  else
    (submit (modPart s partn fun p => { p with fqNoted := true }) srcFirmware (.notice [] true
      { cause := 0, tid := 0, addr := fqSlot (partOf s partn), pc := 0, info := BitVec.ofNat 64 (4 + partn * 256),
        tsc := now s, loc := 0, flags := 0, src := srcFirmware, tag := 0 })).1

/-- Posts an entry into a partition's fault queue (R150); a ring word that cannot be written stops its postings until FQB
or FQR is written (R151). -/
def supRing (s : State) (partn : Nat) (e : Entry) : State :=
  let p := partOf s partn
  match hwWritable s partn (fqSlot p) with
  | (s1, false) => noticeFq (modPart s1 partn fun q => { q with fqStuck := true }) partn
  | (s1, true) =>
    modPart (hwRecord s1 partn (fqSlot p) e.words) partn fun q => { q with fqw := (q.fqw + 1) % 2 ^ 32, heldEnt := q.heldEnt.erase e }

/-- The pointer of an entry of the debug queue. -/
def dbqSlot (t : TraceBlk) : Ptr := offBy t.dbqb (64 * (t.dbqw % t.dbqn))

/-- Posts an entry into the debug queue (R395, R399); DBQV names an entry of the physical function's table (R426). -/
def dbgRing (s : State) (partn : Nat) (e : Entry) : State :=
  let t := (partOf s partn).trace
  match hwWritable s partn (dbqSlot t) with
  | (s1, false) => modTrace s1 partn fun q => { q with dbStuck := true }
  | (s1, true) =>
    let s2 := modTrace (hwRecord s1 partn (dbqSlot t) e.words) partn fun q =>
      { q with dbqw := (q.dbqw + 1) % 2 ^ 32, heldDbg := q.heldDbg.erase e }
    if t.dbqv / 2 ^ 11 % 2 = 1 then { s2 with outbox := s2.outbox ++ [.msix 0 (t.dbqv % 2 ^ 11)] } else s2

/-- The entry of a partition's two queues that is posted next. -/
def partNext (s : State) (n : Nat) (p : Partition) : Option State :=
  match entryDue s p.fqStuck (hasRoom p.fqb p.fqn p.fqw p.fqr) p.heldEnt with
  | some e => some (supRing s n e)
  | none =>
    match entryDue s p.trace.dbStuck (hasRoom p.trace.dbqb p.trace.dbqn p.trace.dbqw p.trace.dbqr) p.trace.heldDbg with
    | some e => some (dbgRing s n e)
    | none => none

/-- What is no row of its own and would meet a block that is being moved waits for the end of the move (R211). -/
def unmet (o : Option State) : Option State := o.filter fun t => t.behind.isNone

/-- The entry of any queue that is posted next. -/
def postNext (s : State) : Option State :=
  match entryDue s s.hostStuck (hasRoom s.hfqb s.hfqn s.hfqw s.hfqr) s.hostEnt with
  | some e => some (hostRing s e)
  | none => s.parts.findSome? fun x => unmet (partNext s x.1 x.2)

/-! ### Taking an exception -/

/-- The class of a cause (R142): 0 user, 1 supervisor, 2 containment, 3 debug. -/
def causeClass (c : Nat) : Nat :=
  if c = 0x09 ∨ c = 0x0A ∨ c = 0x19 ∨ c = 0x1B ∨ c = 0x1D then 1 else if c = 0x1C then 2 else if c = 0x18 then 3 else 0

/-- A fault as it is raised (R141): `fpc` the unit's first word, `tick` when it was found, `host` a major page fault. -/
structure FaultIn where
  cause : Nat
  addr  : Word
  info  : Word
  progress : Nat
  fpc   : Ptr
  tick  : Nat
  host  : Bool
  deriving DecidableEq, Repr, Inhabited

def FaultIn.fcause (f : FaultIn) : Word := BitVec.ofNat 64 (f.cause + causeClass f.cause * 256 + f.progress * 2 ^ 32)

/-- The fault record of R141. -/
def FaultIn.record (f : FaultIn) : FaultRec :=
  { cause := f.fcause, addr := f.addr, pc := f.fpc, info := f.info, tsc := BitVec.ofNat 64 f.tick }

/-- The location word of an entry (R150). -/
def locWord (s : State) (th : Thread) : Word :=
  let ph := physTile s th.tile
  match frameOf s th.partn with
  | none => 0
  | some f => BitVec.ofNat 64 (guestX f th.tile * 256 + guestY f th.tile + th.slot * 2 ^ 16 + ph.1 * 2 ^ 40 + ph.2 * 2 ^ 32)

def faultEntry (s : State) (th : Thread) (f : FaultIn) (flags : Nat) : Entry :=
  { cause := f.fcause, tid := tidOf th, addr := f.addr, pc := f.fpc, info := f.info, tsc := f.tick, loc := locWord s th,
    flags := flags, src := th.tile, tag := 0 }

/-- What every fault does to its thread: the unit is over and nothing of it waits (R143). -/
def faulted (ready : Nat) (f : FaultIn) (th : Thread) : Thread :=
  { th with wait := .none, readyAt := ready, resume := 0, released := false, exempt := false,
            held := th.held || th.stepping, stepping := false, pc := f.fpc }

/-- Posts a fault that stops its thread: to the supervisor fault queue, or to the host driver's for a thread of a
supervisor team (R147-R149). -/
def postStop (s : State) (th : Thread) (f : FaultIn) (flags : Nat) : State :=
  if th.sup then postHost s (faultEntry s th f flags)
  else
    let s1 := postSup s th.partn (faultEntry s th f flags)
    if flags / 4 % 2 = 1 then postHost s1 (faultEntry s th f flags) else s1

/-- Escalation (R147): flags 1 escalated, 2 nested; the record is kept for a nested fault. -/
def escalate (s : State) (u : Nat) (th : Thread) (f : FaultIn) (ready : Nat) : State :=
  let nested := th.inHandler
  let s1 := modThread s u fun t =>
    { faulted ready f t with stopped := true, fr := if nested then t.fr else f.record }
  postStop s1 th f (if nested then 3 else 1)

/-- Delivery of a user-class fault to the thread's own handler (R146). -/
def deliverUser (s : State) (u : Nat) (th : Thread) (f : FaultIn) (ready : Nat) : State :=
  if th.tvec = 0 ∨ th.inHandler then escalate s u th f ready
  else modThread s u fun t => { faulted ready f t with fr := f.record, inHandler := true, pc := t.tvec }

/-- A supervisor-class fault stops the thread (R149). -/
def deliverSup (s : State) (u : Nat) (th : Thread) (f : FaultIn) (ready : Nat) : State :=
  let s1 := modThread s u fun t => { faulted ready f t with stopped := true, fr := f.record }
  postStop s1 th f (if f.host || decide (f.cause = 0x1B) || decide (f.cause = 0x1D) then 4 else 0)

/-- What a unit has still to inject: a message of its tile whose tick, or of an access whose cycle, has not come. -/
def notInjected (s : State) (inside : Nat → Bool) (x : Timed) : Bool :=
  match x.act with
  | .homeAccess r => inside r.src && decide (r.legs = 0 ∧ s.cycle + r.ow + baseLat r.home false ≤ x.cycle + 1)
  | .rputArrival _ | .eventEntry _ | .linkRegistration _ | .stealVisit _ => inside x.src && decide (now s < x.age)
  | _ => false

/-- The boundary of a rectangle is fenced, once: nothing inside injects any more, and its reset is the next thing that
happens (R416). -/
def fenceRect (s : State) (partn r : Nat) : State :=
  if (rectOf (partOf s partn) r).fenced then s
  else
    let s1 := modPart s partn fun p => { p with rects := upd p.rects r fun q =>
      { q with fenced := true, resets := min (q.resets + 1) 0xFFFF } }
    let s2 := { s1 with agenda := s1.agenda.filter fun x => !notInjected s (fun t => decide (rectAt s partn t false = some r)) x }
    schedAt s2 s2.cycle (.containmentReset partn r)

/-- Poisoned data (R153, R416): inside a valid rectangle the rectangle is fenced, and its reset is the next thing that
happens; outside every rectangle the thread stops. -/
def deliverPoison (s : State) (u : Nat) (th : Thread) (f : FaultIn) (ready : Nat) : State :=
  let s1 := modThread s u fun t => { faulted ready f t with stopped := true, fr := f.record }
  match rectAt s th.partn th.tile false with
  | none => postSup s1 th.partn (faultEntry s th f 0)
  | some r =>
    let e := faultEntry s th f 4
    fenceRect (postHost (postSup s1 th.partn e) e) th.partn r

/-- A debug fault (R92, R399): held for the agent, or escalated where none is attached. The trailing thread of a pair
posts no entry of its own (R397). -/
def deliverDebug (s : State) (u : Nat) (th : Thread) (f : FaultIn) (ready : Nat) : State :=
  if (partOf s th.partn).trace.dbqb = 0 then
    let s1 := modThread s u fun t => { faulted ready f t with stopped := true, fr := f.record }
    postStop s1 th f 1
  else
    let s1 := modThread s u fun t => { faulted ready f t with held := true, debugged := true, fr := f.record }
    if th.role = 2 then s1 else postDbg s1 th.partn (faultEntry s th f 0)

/-- TAKING AN EXCEPTION (R140-R153): by the cause's class. A thread that has been terminated takes none. -/
def takeFault (s : State) (u : Nat) (f : FaultIn) (ready : Nat) : State :=
  match threadOf s u with
  | none => s
  | some th =>
    if th.ending then s
    else
    match causeClass f.cause with
    | 0 => deliverUser s u th f ready
    | 1 => deliverSup s u th f ready
    | 2 => deliverPoison s u th f ready
    | _ => deliverDebug s u th f ready

/-! ### Acts -/

/-- Runs the meaning of a row for an act: its subject is what State.act holds, and is taken from there. An act whose
access meets a block that is being moved does nothing yet and waits for the end of the move (R211). -/
def actRow (s : State) (k : Act → State → Option State) : Host.Outcome State Fault Refusal :=
  match s.act with
  | none => .fault .notEnabled
  | some a =>
    match k a { s with act := none } with
    | some t => .next (match t.behind with | some m => postpone { s with act := none } m a | none => t)
    | none => .fault .notEnabled

/-! ### How a unit issues and ends -/

/-- Runs a meaning for the thread of the unit being executed. -/
def withCur (s : State) (k : Cur → Thread → State) : Host.Outcome State Fault Refusal :=
  match s.cur with
  | none => .fault .noThread
  | some c =>
    match threadOf s c.uid with
    | none => .fault .noThread
    | some th => .next (k c th)

/-- The slot has issued (R78); another slot's `tyield` ends (R91), no earlier than its own 8 cycles. -/
def issued (s : State) (c : Cur) : State :=
  match threadOf s c.uid with
  | none => { s with cur := none }
  | some th =>
    let s1 := modTile { s with cur := none } th.tile fun t => { t with last := th.slot, lastIssue := some s.cycle, lastPc := c.fpc }
    { s1 with threads := s1.threads.map fun e =>
        match e.2.wait with
        | .tyield n =>
          if e.2.tile = th.tile ∧ e.1 ≠ c.uid then (e.1, { e.2 with readyAt := min e.2.readyAt (max n (s.cycle + 1)) })
          else e
        | _ => e }

/-- The end of a unit in its thread: the next unit's address, the cycle of readiness, no resume count (R77, R154); a
stepped thread is held at its next unit (R403). -/
def unitOver (npc : Ptr) (ready : Nat) (th : Thread) : Thread :=
  { th with pc := npc, readyAt := ready, resume := 0, wait := .none, released := false, exempt := false,
            held := th.held || th.stepping, stepping := false }

/-- A unit of fixed latency completes: its effect on its thread, then its end (R77, R79, R87). -/
def retire (s : State) (c : Cur) (lat : Nat) (f : Thread → Thread) : State :=
  modThread (issued s c) c.uid fun th => unitOver c.npc (s.cycle + c.fx + lat) (f th)

/-- As retire, with the next unit elsewhere. -/
def retireTo (s : State) (c : Cur) (lat : Nat) (target : Ptr) (f : Thread → Thread) : State :=
  modThread (issued s c) c.uid fun th => unitOver target (s.cycle + c.fx + lat) (f th)

/-- The unit does not issue: its thread parks (R69, R76). -/
def parkUnit (s : State) (c : Cur) (w : Wait) : State :=
  modThread { s with cur := none } c.uid fun th => { th with wait := w }

/-- The unit has issued and its thread waits. -/
def waitUnit (s : State) (c : Cur) (w : Wait) : State := modThread (issued s c) c.uid fun th => { th with wait := w }

/-- A fault found in execution: delivered in place of the unit at the end of its latency (R141, R144, R266). -/
def raiseAt (lat : Nat) (s : State) (c : Cur) (cause : Nat) (addr info : Word) (progress : Nat) : State :=
  takeFault (issued s c) c.uid
    { cause := cause, addr := addr, info := info, progress := progress, fpc := c.fpc, tick := now s, host := false }
    (s.cycle + c.fx + lat)

/-- A fault of a unit that has issued, delivered when the unit would have been over (R266): its thread waits till then as
for an access. -/
def raiseEnd (lat : Nat) (s : State) (c : Cur) (cause : Nat) (addr info : Word) (progress : Nat) : State :=
  let b : PartFault := { cause := cause, info := info.toNat, addr := addr, tick := now s, host := false }
  let f : Flight := { fid := s.nextId, rx := false, fpc := c.fpc, npc := c.npc, op := .fault, first := progress,
                      parts := progress + 2, out := [], pend := [], got := [], flags := 0, bad := [(progress, b)], sent := [],
                      minEnd := 0, charge := 0, stub := none, fee := 0, lv := 0, done := false }
  schedAt (modThread (freshId (issued s c)) c.uid fun th => { th with flights := th.flights ++ [f], wait := .access f.fid })
    (s.cycle + c.fx + lat - 1)
    (.accessResponse { uid := c.uid, fid := f.fid, part := f.parts, addr := 0, stub := none, res := .done [] 0 })

/-- A fault found at issue (R141, R144): its first handler unit is ready 8 cycles later (R266; DEDUCED for the other
units, log 21). -/
def raise (s : State) (c : Cur) (cause : Nat) (addr info : Word) (progress : Nat) : State :=
  raiseAt 8 s c cause addr info progress

/-- The return from an exception (R93, R146): the handler state ends and the whole unit at FPC executes again, with
the resume count of FCAUSE where it is a restartable one. -/
def returnFrom (restartable : Bool) (th : Thread) : Thread :=
  { th with inHandler := false, pc := th.fr.pc, resume := if restartable then bits th.fr.cause 32 32 else 0 }

/-! ### What a unit needs (R57, R58, R69, R130) -/

def Need.none : Need := { sr := [], sd := [], pr := [], mr := [], vr := [], vd := [], rx := false, ev := false }

/-- A relaxed access of the thread is outstanding. -/
def rxOut (th : Thread) : Bool := th.flights.any fun f => f.rx && !f.done

/-- Relaxed accesses outstanding (R56). -/
def rxCount (th : Thread) : Nat := (th.flights.filter fun f => f.rx && !f.done).length

/-- An event that a thread sent has not been entered or discarded yet (R130, R350). -/
def evOut (s : State) (u : Nat) : Bool :=
  ((pendingActs s).any fun a => match a with | .eventEntry m => decide (m.uid = u) | .eventBusyAnswer m => decide (m.uid = u) | _ => false)
    || s.tiles.any fun e => e.2.evu.held.any fun m => decide (m.uid = u)

/-- A register that an outstanding or faulted relaxed load will have filled. -/
def FlOp.fills : FlOp → Need → Bool
  | .loadS t _ _, n => decide (t ∈ n.sr)
  | .vload t _ _ _ _, n => decide (t ∈ n.vr)
  | _, _ => false

/-- A deferred fault that this unit must deliver (R58). -/
def deferredDue (th : Thread) (n : Need) : Bool :=
  th.flights.any fun f => f.rx && f.done && !f.bad.isEmpty && (n.rx || f.op.fills n)

def needMet (s : State) (u : Nat) (th : Thread) (n : Need) : Bool :=
  n.sr.all (fun r => !sEmptyAt th r) && n.sd.all (fun r => !(sEmptyAt th r && sOutAt th r))
    && n.pr.all (fun r => !th.pEmpty.getLsbD r.val) && n.mr.all (fun r => !th.mEmpty.getLsbD r.val)
    && n.vr.all (fun r => !vEmptyAt s th r.val) && n.vd.all (fun r => !vEmptyAt s th r.val) && !((n.rx || deferredDue th n) && rxOut th) && !(n.ev && evOut s u)

/-- A poisoned register among those the unit reads (R414). -/
def poisonRead (s : State) (th : Thread) (n : Need) : Bool :=
  n.sr.any (fun r => th.sPois.getLsbD r.val && decide (r ≠ 0)) || n.pr.any (fun r => th.pPois.getLsbD r.val && decide (r ≠ 0))
    || n.mr.any (fun r => th.mPois.getLsbD r.val && decide (r ≠ 0)) || n.vr.any (fun r => vPoisAt s th r.val)

/-- Delivers the deferred fault earliest in program order; the others are discarded (R58). -/
def deliverDeferred (s : State) (c : Cur) (th : Thread) : State :=
  match th.flights.find? fun f => f.rx && f.done && !f.bad.isEmpty with
  | none => s
  | some f =>
    match f.bad with
    | [] => s
    | (j, b) :: _ =>
      let s1 := modThread (issued s c) c.uid fun t => { t with flights := t.flights.filter fun g => !(g.rx && g.done) }
      takeFault s1 c.uid
        { cause := b.cause, addr := b.addr, info := BitVec.ofNat 64 (b.info + 2 ^ 63), progress := if f.parts = 1 then 0 else j,
          fpc := f.fpc, tick := b.tick, host := b.host }
        (s.cycle + c.fx + 8)

/-- Issues a unit: parked while its needs are not met, a deferred fault or a poisoned register in place of it, else
its own effect. -/
def unit (s : State) (n : Need) (k : Cur → Thread → State) : Host.Outcome State Fault Refusal :=
  withCur s fun c th =>
    if needMet s c.uid th n = false then parkUnit s c (.issue n)
    else if deferredDue th n then deliverDeferred s c th
    else if poisonRead s th n then raise s c 0x1C 0 3 th.resume
    else k c th

/-- As unit, with a check that is made at issue, before a poisoned register is seen: the fault it gives is raised in place
of the unit. -/
def unitChecked (s : State) (n : Need) (bad : Cur → Thread → Option State) (k : Cur → Thread → State) :
    Host.Outcome State Fault Refusal :=
  withCur s fun c th =>
    if needMet s c.uid th n = false then parkUnit s c (.issue n)
    else if deferredDue th n then deliverDeferred s c th
    else
      match bad c th with
      | some t => t
      | none => if poisonRead s th n then raise s c 0x1C 0 3 th.resume else k c th

/-- Wakes a thread whose unissued unit has what it needs: ready from the next cycle (R77). -/
def recheck (s : State) (u : Nat) : State :=
  match threadOf s u with
  | none => s
  | some th =>
    match th.wait with
    | .issue n =>
      if needMet s u th n then modThread s u fun t => { t with wait := .none, readyAt := max t.readyAt (s.cycle + 1) } else s
    | .relaxedFull =>
      if rxCount th < 8 then modThread s u fun t => { t with wait := .none, readyAt := max t.readyAt (s.cycle + 1) } else s
    | _ => s

/-- Makes a waiting thread ready from the next cycle at its present unit. -/
def wake (s : State) (u : Nat) : State :=
  modThread s u fun t => { t with wait := .none, readyAt := max t.readyAt (s.cycle + 1) }

/-- A waiting unit completes in this cycle: ready from the next (R77). -/
def complete (s : State) (u : Nat) (npc : Ptr) (f : Thread → Thread) : State :=
  modThread s u fun t => unitOver npc (s.cycle + 1) (f t)

/-! ### The distance meter (R184, R185) -/

/-- What a charge adds to DMT, which saturates (R185): this much is withdrawn when the unit faults, so that DMT is what
it was (R143). -/
def meterGain (th : Thread) (c : Nat) : Nat :=
  if th.meter.cnt then min (th.meter.dmt.toNat + c) (2 ^ 64 - 1) - th.meter.dmt.toNat else 0

/-- Adds a charge, saturating. -/
def meterAdd (c : Nat) (th : Thread) : Thread :=
  { th with meter := { th.meter with dmt := BitVec.ofNat 64 (min (th.meter.dmt.toNat + c) (2 ^ 64 - 1)) } }

/-- The charge traps (R185). -/
def meterTraps (th : Thread) (c : Nat) : Bool :=
  th.meter.cnt && th.meter.trap && decide (th.meter.dml.toNat < th.meter.dmt.toNat + c)

/-- `meter(p, k)` for a charge already computed: the fault 0x0F, or the addition and then the rest of the unit. -/
def metered (s : State) (c : Cur) (th : Thread) (p : Word) (ch progress : Nat) (k : State → State) : State :=
  if th.meter.cnt = false then k s
  else if meterTraps th ch then raise s c 0x0F p (BitVec.ofNat 64 ch) progress
  else k (modThread s c.uid (meterAdd ch))

/-- Withdraws the charge of a unit that faulted after it was metered (R185). -/
def meterBack (c : Nat) (th : Thread) : Thread :=
  { th with meter := { th.meter with dmt := th.meter.dmt - BitVec.ofNat 64 c } }

/-- The sum of two additions, either of which may not be made. -/
def addFee (a b : Option Nat) : Option Nat :=
  match a, b with
  | none, x => x
  | x, none => x
  | some x, some y => some (x + y)

/-- An addition made after issue (R186): saturating, with the fault at the thread's next unit where DMT exceeds DML after
it, an addition of 0 included. -/
def lateCharge (s : State) (u : Nat) (ch : Nat) : State :=
  match threadOf s u with
  | none => s
  | some th =>
    if th.meter.cnt = false then s
    else
      let t := meterAdd ch th
      if th.meter.trap ∧ t.meter.dml.toNat < t.meter.dmt.toNat then
        modThread s u fun x =>
          let y := meterAdd ch x
          { y with late := y.late ++ [{ cause := 0x0F, addr := 0, info := BitVec.ofNat 64 (ch % 2 ^ 63 + 2 ^ 63), tick := now s }] }
      else modThread s u (meterAdd ch)

end Sys2Proof.Machine
end

