-- ==== Sys2Proof/Machine/Flags.lean ====
section
/-! DEFINITION. Conditions of the compares (R106, R244), the sticky flags and their traps (R236, R238), VCTL's fields
(R235). -/

namespace Sys2Proof.Machine

/-- A condition from "less" and "equal" (R106). -/
def condHolds (cc : Cond) (lt eq : Bool) : Bool :=
  match cc with
  | .eq => eq
  | .ne => !eq
  | .lt => lt
  | .ge => !lt
  | .le => lt || eq
  | .gt => !(lt || eq)

/-- `cmp`: signed, or unsigned with `.u` (R106). -/
def cmpWords (cc : Cond) (u : Bool) (x y : Word) : Bool := condHolds cc (if u then x.ult y else x.slt y) (decide (x = y))

/-- The rounding mode a field names; 0 is RNE (R235). -/
def dynRnd (n : Nat) : Rnd := (Rnd.ofCode n).getD .rne

/-- The rounding mode of an instruction (R238). -/
def rndOf (th : Thread) (q : VPfx) : Rnd := q.rnd.getD (dynRnd (bits th.vec.vctl 0 3))

def ftzOf (th : Thread) : Bool := bit th.vec.vctl 3

/-- The trap enables in the bit order of VSTAT (R235). -/
def trapMask (th : Thread) : Nat := bits th.vec.vctl 4 5

/-- The enabled flags among those raised. -/
def trapping (th : Thread) (fl : Nat) : Bool := decide (fl &&& trapMask th ≠ 0)

/-- ORs flags into VSTAT (R237). -/
def stick (fl : Nat) (th : Thread) : Thread :=
  { th with vec := { th.vec with vstat := th.vec.vstat ||| BitVec.ofNat 64 fl } }

/-- The lowest index whose flags trap. -/
def firstTrap (th : Thread) : List Nat → Nat → Nat
  | [], _ => 0
  | f :: t, i => if trapping th f then i else firstTrap th t (i + 1)

/-- FINFO of an arithmetic fault of the vector unit (R238). -/
def arithInfo (fl element : Nat) : Word := BitVec.ofNat 64 (fl + element * 256 + 65536)

def orAll (l : List Nat) : Nat := l.foldl (· ||| ·) 0

end Sys2Proof.Machine
end

