-- ==== Sys2Proof/Machine/Operands.lean ====
section
/-! DEFINITION. Effective pointers and the issue checks of memory instructions (R25, R88, R169), breakpoints and
watchpoints (R396-R399), the store comparator of a redundant pair (R85), and how the accesses of a unit are sent
(R54, R56, R154, R251). -/

namespace Sys2Proof.Machine

/-! ### Issue checks -/

/-- Steps 1 to 4 of R88 on a pointer: cause and detail of the first that fails. `sync` forbids the host window,
`spadOnly` everything but kind 0. -/
def checkPtr (s : State) (th : Thread) (p : Ptr) (n : Nat) (sync spadOnly : Bool) : Option (Nat × Nat) :=
  let l := limitsOf s th.partn p
  if l ≠ 0 then some (0x08, l)
  else if (sync && decide (pKind p = 5)) || (spadOnly && decide (pKind p ≠ 0)) then some (0x08, 4)
  else if pKind p = 6 ∧ th.sup = false then some (0x04, 0)
  else if pOff p % n ≠ 0 then some (0x07, n)
  else none

/-! ### Armed tasks (R396-R399) -/

/-- A running thread matches an armed entry (R397). -/
def armedFor (th : Thread) (e : AMap Word) : Bool :=
  let w := lookD e 0 0
  bit w 48 && (if bit w 49 then decide (bits w 24 24 = tidOf th / 2 ^ 24) else decide (bits w 0 48 = tidOf th))

/-- FINFO of a breakpoint or watchpoint hit (R399). -/
def debugInfo (number kind source entry : Nat) : Word :=
  BitVec.ofNat 64 (number + kind * 16 + source * 4096 + entry * 65536)

/-- The breakpoint that a unit's address hits: entry and number, lowest first (R398). -/
def breakHit (s : State) (th : Thread) (pc : Ptr) : Option Word :=
  if th.exempt then none
  else
    ((partOf s th.partn).trace.entries.findSome? fun e =>
      if armedFor th e.2 then
        ((List.range 8).find? fun k => bit (lookD e.2 0 0) (50 + k) && decide (lookD e.2 (1 + k) 0 = pc)).map
          fun k => debugInfo k 0 1 e.1
      else none)

/-- The watchpoint that an access hits; `kind` is 1 read, 2 write, 3 both (R398). -/
def watchHit (s : State) (th : Thread) (p : Ptr) (kind : Nat) : Option Word :=
  if th.exempt then none
  else
    ((partOf s th.partn).trace.entries.findSome? fun e =>
      if armedFor th e.2 then
        ((List.range 4).find? fun j =>
          bit (lookD e.2 0 0) (58 + j) && decide ((lookD e.2 (9 + 2 * j) 0).toNat ≤ p.toNat)
            && decide (p.toNat ≤ (lookD e.2 (10 + 2 * j) 0).toNat)
            && decide ((bits (lookD e.2 (17 + j) 0) 0 2) &&& kind ≠ 0)).map
          fun j => debugInfo j kind 2 e.1
      else none)

/-! ### The store comparator (R85) -/

/-- The bit-wise difference of the first differing word of two presentations. -/
def firstDiff : List Word → List Word → Word
  | a :: s, b :: t => if a = b then firstDiff s t else a ^^^ b
  | [], b :: _ => b
  | a :: _, [] => a
  | [], [] => 0

/-- The words of a presentation in the order in which they are compared (DESIGN CHOICE, log 79): pointer, data words, then
the kind and the width by the numbers of the model, since the rule gives neither an order nor a code. -/
def Present.words (p : Present) : List Word := p.ptr :: p.data ++ [BitVec.ofNat 64 p.kind, BitVec.ofNat 64 p.width]

/-- The redundancy mismatch: raised once, naming the leading thread; both threads stop. -/
def mismatch (s : State) (c : Cur) (mate : Nat) (p q : Present) : State :=
  let s1 := modThread s mate fun t => { t with wait := .none, stopped := true }
  raise s1 c 0x19 p.ptr (firstDiff p.words q.words) 0

/-- An effect that leaves a pair waits until both threads have presented it, and is then released once: the trailing
thread goes on beside the leading one without the effect. -/
def gateWith (s : State) (c : Cur) (th : Thread) (p : Present) (differ : Nat → Present → State) (k : State → State) : State :=
  if th.role = 0 ∨ th.released then k s
  else
    match mateOf s c.uid with
    | none => k s
    | some m =>
      let mw := match threadOf s m with | some t => t.wait | none => .none
      if th.role = 2 then
        let s1 := parkUnit s c (.comparator p)
        match mw with
        | .comparator _ => wake s1 m
        | _ => s1
      else
        match mw with
        | .comparator q =>
          if q = p then k (modThread (wake s m) m fun t => { t with released := true }) else differ m q
        | _ => parkUnit s c (.comparator p)

/-- As gateWith, for an effect that is released whole or not at all. -/
def gate (s : State) (c : Cur) (th : Thread) (p : Present) (k : State → State) : State :=
  gateWith s c th p (fun m q => mismatch s c m p q) k

/-! ### Save records (R157, R158) -/

/-- The pointer of a vacated thread's save record (R157). -/
def recordPtr (s : State) (th : Thread) : Ptr := offBy (tileOf s th.tile).csav (1024 * th.recSlot)

/-- Word 0x100 of a save record (R158). -/
def recordFull (th : Thread) : Word := BitVec.ofNat 64 ((~~~th.sEmpty).toNat / 2 * 2 + th.p.toNat / 2 * 2 ^ 32)

/-! ### Sending accesses -/

/-- The request of one part. -/
def reqFor (s : State) (u : Nat) (th : Thread) (f : Flight) (kb : Nat) (sync : Bool) (q : PartReq) (at_ : Nat) : Req :=
  { uid := u, fid := f.fid, part := q.part, partn := th.partn, src := th.tile, sup := th.sup, rx := f.rx, addr := q.ptr,
    at_ := q.ptr, home := .spad th.tile 0, op := q.op, inj := tickAt s at_, key := 0, ow := 0, legs := 0, stub := none,
    kbits := kb, first := none, limit := if sync then th.syto.toNat else 0, view := 0, turn := none }

/-- Whether SYTO bounds the operation's wait (R114). -/
def isSync : AccOp → Bool
  | .take => true
  | .peek => true
  | .give _ => true
  | _ => false

/-- The bits an operation moves (R182, R212): `amocas` has its own. -/
def opBits : AccOp → Nat
  | .amo .cas _ _ => 320
  | op => kindBits (opKind op)

/-- Sends one request at a cycle: performed at its home a route and its latency later (log 15). -/
def sendPart (s : State) (u : Nat) (th : Thread) (f : Flight) (q : PartReq) (at_ : Nat) : State :=
  match placeOf s th.partn q.ptr with
  | none => s
  | some pl =>
    let ow := owTo s th.tile pl
    let r := { reqFor s u th f (q.line.getD (opBits q.op)) (isSync q.op) q at_ with ow := ow, home := pl }
    sched s { cycle := at_ + ow + baseLat pl false - 1, late := false, age := r.inj, src := th.tile,
              act := .homeAccess r }

/-- Sends the parts of a run, one a cycle from a cycle on, the words of a 64-byte access together (R251). -/
def sendRun (s : State) (u : Nat) (th : Thread) (f : Flight) : List PartReq → Nat → State
  | [], _ => s
  | q :: t, at_ => sendRun (sendPart s u th f q at_) u th f t (if q.line.isSome then at_ else at_ + 1)

/-- Changes one flight of a thread. -/
def modFlight (s : State) (u fid : Nat) (g : Flight → Flight) : State :=
  modThread s u fun t => { t with flights := t.flights.map fun f => if f.fid = fid then g f else f }

def flightOf (th : Thread) (fid : Nat) : Option Flight := th.flights.find? fun f => decide (f.fid = fid)

/-- The cycle before which a run of parts sent one a cycle does not end (R254, R267): the time of its other parts and
the largest latency among them. -/
def runEnd (s : State) (th : Thread) (run : List PartReq) (from_ : Nat) : Nat :=
  let parts := (run.filter fun q => q.line.isNone).length
  let lat := run.foldl (fun a q =>
    match placeOf s th.partn q.ptr with
    | some pl => max a (latTo s th.tile pl (isAtomic q.op))
    | none => a) 0
  from_ + (parts - 1) + lat - 1

/-- The unit reads a dennum, part by part. -/
def FlOp.isLdn : FlOp → Bool
  | .ldn _ _ => true
  | _ => false

/-- The load-value queue entries that a pair's thread may still enter (R84); no bound outside a leading thread. -/
def lvPlaces (s : State) (u : Nat) (th : Thread) : Nat :=
  match (mateOf s u).bind (threadOf s) with
  | some t => if th.role = 1 then 16 - t.lvq.length else 2 ^ 16
  | none => 2 ^ 16

/-- The leading thread's parts hold their places in the queue, one each (R280). -/
def lvHold (s : State) (u fid : Nat) (th : Thread) (n : Nat) : State :=
  match mateOf s u with
  | some m =>
    if th.role = 1 then
      modThread (modThread s m fun t => { t with lvq := (List.range n).foldl (fun l i => ins l (th.lvSeq + i) (.pending fid)) t.lvq })
        u fun t => { t with lvSeq := t.lvSeq + n }
    else s
  | none => s

/-- Sends the next run of a flight from a cycle on; of an `ldn` of a leading thread as many parts as the load-value queue
has room for. -/
def sendNext (s : State) (u fid at_ : Nat) : State :=
  match threadOf s u with
  | none => s
  | some th =>
    match flightOf th fid with
    | none => s
    | some f =>
      match f.pend with
      | [] => s
      | whole :: rest =>
        let from_ := if f.rx then max at_ th.rxNext else at_
        let room := if f.op.isLdn then lvPlaces s u th else whole.length
        let run := whole.take room
        let s0 := if f.op.isLdn then lvHold s u fid th run.length else s
        let s1 := if run.isEmpty then s0 else modFlight s0 u fid fun g =>
          { g with pend := if whole.length ≤ room then rest else whole.drop room :: rest, out := g.out ++ run.map (·.part),
                   sent := (if g.out.isEmpty then [] else g.sent) ++ run.map fun q => { part := q.part, ptr := q.ptr, back := none },
                   minEnd := max g.minEnd (runEnd s th run from_) }
        let s2 := if f.rx then modThread s1 u fun t => { t with rxNext := from_ + max 1 (run.filter fun q => q.line.isNone).length } else s1
        sendRun s2 u th f run from_

/-- Whether an earlier relaxed access of the thread still has parts to send. -/
def sendBlocked (th : Thread) (fid : Nat) : Bool :=
  th.flights.any fun f => decide (f.fid < fid) && f.rx && !f.done && !f.pend.isEmpty

/-- Sends the first runs of relaxed accesses that waited for earlier ones to be sent. -/
def kick (s : State) (u : Nat) : State :=
  match threadOf s u with
  | none => s
  | some th =>
    match th.flights.find? fun f => f.rx && !f.done && f.out.isEmpty && !f.pend.isEmpty with
    | none => s
    | some f => if sendBlocked th f.fid then s else sendNext s u f.fid (s.cycle + 1)

/-- A new flight for the unit being executed. -/
def mkFlight (s : State) (c : Cur) (th : Thread) (rx : Bool) (op : FlOp) (parts ch : Nat) (runs : List (List PartReq)) : Flight :=
  { fid := s.nextId, rx := rx, fpc := c.fpc, npc := c.npc, op := op, first := th.resume, parts := parts, out := [],
    pend := runs, got := [], flags := 0, bad := [], sent := [], minEnd := 0, charge := meterGain th ch, stub := none, fee := 0,
    lv := th.lvSeq, done := false }

/-! ### The load-value queue of a redundant pair (R84) -/

/-- Ends the wait of a pair's thread for the load-value queue. -/
def lvWake (s : State) (u : Nat) : State :=
  match threadOf s u with
  | some th => match th.wait with | .lvq => wake s u | _ => s
  | none => s

/-- The leading thread's unit enters its result, or holds its place for it. -/
def lvEnter (s : State) (u : Nat) (th : Thread) (e : LvEntry) : State :=
  match mateOf s u with
  | none => s
  | some m =>
    if th.role = 1 then
      lvWake (modThread (modThread s m fun t => { t with lvq := ins t.lvq th.lvSeq e }) u fun t => { t with lvSeq := th.lvSeq + 1 }) m
    else s

/-- The leading thread has room in the queue again: it issues, or its `ldn` reads further parts. -/
def lvFreed (s : State) (u : Nat) : State :=
  match threadOf s u with
  | none => s
  | some th =>
    match th.flights.find? fun f => f.op.isLdn && f.bad.isEmpty && !f.pend.isEmpty with
    | some f => sendNext s u f.fid (s.cycle + 1)
    | none => lvWake s u

/-- The trailing thread's unit takes its entry out of the queue. -/
def lvLeave (s : State) (u : Nat) : State :=
  let s1 := modThread s u fun t => { t with lvq := del t.lvq t.lvSeq, lvSeq := t.lvSeq + 1 }
  match mateOf s u with
  | some m => lvFreed s1 m
  | none => s1

/-- The leading thread parks while the queue holds 16 entries. -/
def lvRoom (s : State) (c : Cur) (th : Thread) (k : State) : State :=
  match mateOf s c.uid with
  | none => k
  | some m =>
    match threadOf s m with
    | some t => if th.role = 1 ∧ 16 ≤ t.lvq.length then parkUnit s c .lvq else k
    | none => k

/-- A unit whose result is known when it issues: a thread outside a pair and a leading thread compute it, a trailing
thread takes it from the queue and parks while its entry is absent. -/
def lvShare (s : State) (c : Cur) (th : Thread) (own : State → State × List Word) (fin : List Word → State → State) : State :=
  if th.role = 2 then
    match look th.lvq th.lvSeq with
    | some (.vals vs) => fin vs (lvLeave s c.uid)
    | some _ => fin [] (lvLeave s c.uid)
    | none => if (mateOf s c.uid).isNone then let r := own s; fin r.2 r.1 else parkUnit s c .lvq
  else
    lvRoom s c th
      (let r := own s
       fin r.2 (lvEnter r.1 c.uid th (.vals r.2)))

/-- A unit whose effect the leading thread alone performs and whose fault at issue both threads take (R84, R86): the fault
is found by the leading thread and enters the queue, else the unit enters its completion; the trailing thread takes it. -/
def lvLead (s : State) (c : Cur) (th : Thread) (bad : Option (Nat × Word × Word)) (go rest : State → State) : State :=
  if th.role = 2 then
    match look th.lvq th.lvSeq with
    | some (.got _ _ ((_, b) :: _) _) => raise (lvLeave s c.uid) c b.cause b.addr (BitVec.ofNat 64 b.info) 0
    | some _ => rest (lvLeave s c.uid)
    | none => if (mateOf s c.uid).isNone then rest s else parkUnit s c .lvq
  else
    lvRoom s c th
      (match bad with
      | some (cause, addr, info) =>
        raise (lvEnter s c.uid th (.got [] 0 [(0, { cause := cause, info := info.toNat, addr := addr, tick := now s, host := false })] none))
          c cause addr info 0
      | none => go s)

/-- The completion of such a unit enters the queue. -/
def lvOver (s : State) (u : Nat) : State :=
  match threadOf s u with
  | some th => lvEnter s u th (.vals [])
  | none => s

/-- The number of parts of an `ldn` whose head has not been read: more than any head can give. -/
def ldnHead : Nat := 8192

/-- The parts that a trailing thread's `ldn` finds in the queue are its answers, in their order: the head alone until it
knows how many limbs follow (R280). -/
def lvPull (u : Nat) : Nat → State → State
  | 0, s => s
  | n + 1, s =>
    match threadOf s u with
    | none => s
    | some th =>
      match th.flights.find? fun g => g.op.isLdn && !g.done, look th.lvq th.lvSeq with
      | some g, some e =>
        let part := g.first + (th.lvSeq - g.lv)
        if th.role ≠ 2 ∨ (part ≠ g.first ∧ (g.parts = ldnHead ∨ g.parts ≤ part)) then s
        else
          let go := fun (p : Word) (stub : Option Nat) (r : AccRes) =>
            lvPull u n (schedAt (lvLeave s u) (max s.cycle g.minEnd)
              (.accessResponse { uid := u, fid := g.fid, part := part, addr := p, stub := stub, res := r }))
          match e with
          | .got _ _ ((_, b) :: _) stub => go b.addr stub (.fault b.cause b.info b.tick b.host)
          | .got ((_, vs) :: _) _ [] stub => go 0 stub (.done vs 0)
          | _ => s
      | _, _ => s

/-- The answer by which a trailing thread's unit takes what the leading one's accesses brought. -/
def lvAnswer (u : Nat) (f : Flight) : Answer :=
  { uid := u, fid := f.fid, part := f.parts, addr := 0, stub := none, res := .done [] 0 }

def lvAct (u : Nat) (f : Flight) : Act :=
  if f.rx then .relaxedAccessCompletion (lvAnswer u f) else .accessResponse (lvAnswer u f)

/-- Has a trailing thread's unit take its result at a cycle; a relaxed one's is seen by the issues of the next (R77). -/
def schedLv (s : State) (cycle u : Nat) (f : Flight) : State :=
  sched s { cycle := cycle, late := f.rx, age := s.tsc, src := 0, act := lvAct u f }

/-- A trailing thread's flight: it sends nothing and takes its result from the queue as soon as it is there. A relaxed load
that does not find it goes on with its destination empty, as the leading thread's does (DESIGN CHOICE, log 94). -/
def lvFollow (s : State) (c : Cur) (th : Thread) (f : Flight) : State :=
  if f.op.isLdn then lvPull c.uid 16 s
  else
  match look th.lvq th.lvSeq with
  | some (.got g fl bad stub) =>
    schedLv (modFlight (lvLeave s c.uid) c.uid f.fid fun x => { x with got := g, flags := fl, bad := bad, stub := stub })
      (s.cycle + c.fx + 7) c.uid f
  | _ => modThread s c.uid fun t => { t with lvSeq := t.lvSeq + 1 }

/-- The charges that a unit's accesses ran up after its issue: of the stubs they followed, or of the legs of a `pfix`. -/
def Flight.fees (f : Flight) : Option Nat := if f.fee = 0 then f.stub else addFee f.stub (some f.fee)

/-- A part that a leading thread's `ldn` has read goes into its place in the queue, with the charge of the stubs that it
followed (R86, R280). -/
def lvPart (s : State) (u : Nat) (th : Thread) (f : Flight) (a : Answer) : State :=
  match mateOf s u with
  | some m =>
    if th.role = 1 ∧ f.op.isLdn ∧ a.part < f.parts then
      let e := match a.res with
        | .done vs _ => LvEntry.got [(a.part, vs)] 0 [] a.stub
        | .fault cause info tick host =>
          .got [] 0 [(a.part, { cause := cause, info := info, addr := a.addr, tick := tick, host := host })] a.stub
      lvPull m 16 (modThread s m fun t => { t with lvq := ins t.lvq (f.lv + a.part - f.first) e })
    else s
  | none => s

/-- An `ldn` that ends at a part takes the entries of later parts back. -/
def lvCut (s : State) (u : Nat) (f : Flight) (j : Nat) : State :=
  match threadOf s u with
  | none => s
  | some th =>
    if f.op.isLdn = false ∨ th.role = 0 then s
    else
      let n := min th.lvSeq (f.lv + j + 1 - f.first)
      let s1 := modThread s u fun t => { t with lvSeq := n }
      match mateOf s u with
      | some m => if th.role = 1 then modThread s1 m fun t => { t with lvq := t.lvq.filter fun e => decide (e.1 < n) } else s1
      | none => s1

/-- What a leading thread's accesses brought goes to its partner: to its unit if that waits, else into the queue. -/
def lvGive (s : State) (u : Nat) (f : Flight) : State :=
  match threadOf s u, mateOf s u with
  | some th, some m =>
    if th.role = 1 ∧ f.op.isLdn = false ∧ f.op ≠ .fault then
      match threadOf s m with
      | none => s
      | some t =>
        match t.flights.find? fun g => decide (g.lv = f.lv) && !g.done && decide (g.op ≠ .fault) with
        | some g =>
          schedLv (modFlight (modThread s m fun x => { x with lvq := del x.lvq f.lv }) m g.fid fun x =>
              { x with got := f.got, flags := f.flags, bad := f.bad, stub := f.fees }) (max s.cycle g.minEnd) m g
        | none =>
          lvWake (modThread s m fun x => { x with lvq := ins x.lvq f.lv (.got f.got f.flags f.bad (f.fees)) }) m
    else s
  | _, _ => s

/-- Starts the accesses of a unit. A plain unit's thread waits for them; a relaxed one's goes on after 8 cycles. The
trailing thread of a pair sends nothing: it takes its result from the load-value queue (R84). -/
def startFlightAt (delay : Nat) (s : State) (c : Cur) (th : Thread) (rx : Bool) (op : FlOp) (parts ch : Nat)
    (runs : List (List PartReq)) : State :=
  let f0 := mkFlight s c th rx op parts ch (if th.role = 2 then [] else runs)
  let f := if th.role = 2 ∧ op.isLdn then { f0 with out := runs.flatMap fun r => r.map (·.part) } else f0
  let s1 := freshId (issued s c)
  let s2 := modThread s1 c.uid fun t =>
    if rx then { unitOver c.npc (s.cycle + c.fx + 8) t with flights := t.flights ++ [f] }
    else { t with flights := t.flights ++ [f], wait := .access f.fid }
  if th.role = 2 then lvFollow (modFlight s2 c.uid f.fid fun g => { g with minEnd := s.cycle + c.fx + 7 }) c th f
  else
    let s3 := if op.isLdn then s2 else lvEnter s2 c.uid th (.pending f.fid)
    if rx && sendBlocked th f.fid then s3
    else sendNext s3 c.uid f.fid (s.cycle + c.fx + delay)

/-- As startFlightAt, with the first part sent at issue. -/
def startFlight (s : State) (c : Cur) (th : Thread) (rx : Bool) (op : FlOp) (parts ch : Nat) (runs : List (List PartReq)) : State :=
  startFlightAt 0 s c th rx op parts ch runs

/-- The effective pointer of a scalar access (R25); `none` is the address fault with FINFO 3. -/
def eaOf (th : Thread) (a : SReg) (disp : Int) : Option Ptr := addOff (sget th a) disp

end Sys2Proof.Machine
end

