-- ==== Sys2Proof/Machine/Alu.lean ====
section
/-! DEFINITION. The ALU group, the immediate forms, the compares and the predicate group (R100-R107). -/

namespace Sys2Proof.Machine

/-- An instruction that reads scalars and writes one with latency 8 (R100, R103). -/
def scalarUnit (s : State) (rd : List SReg) (d : SReg) (f : Thread → Word) : Host.Outcome State Fault Refusal :=
  unit s { Need.none with sr := rd, sd := [d] } fun c th => retire s c 8 (sset d (f th))

/-- An instruction that reads scalars and predicates and writes a predicate with latency 8 (R106, R107). -/
def predUnit (s : State) (rd : List SReg) (pr : List PReg) (d : PReg) (f : Thread → Bool) : Host.Outcome State Fault Refusal :=
  unit s { Need.none with sr := rd, pr := pr } fun c th => retire s c 8 (pset d (f th))

/-! ### Operations on words (R100-R102) -/

def mulHigh (x y : Word) : Word := BitVec.ofInt 64 (x.toInt * y.toInt / 2 ^ 64)
def mulHighU (x y : Word) : Word := BitVec.ofNat 64 (x.toNat * y.toNat / 2 ^ 64)

/-- Division truncating towards zero; −2^63 / −1 is −2^63 (R101). -/
def divS (x y : Word) : Word := BitVec.ofInt 64 (x.toInt.tdiv y.toInt)
def remS (x y : Word) : Word := BitVec.ofInt 64 (x.toInt.tmod y.toInt)
def divU (x y : Word) : Word := BitVec.ofNat 64 (x.toNat / y.toNat)
def remU (x y : Word) : Word := BitVec.ofNat 64 (x.toNat % y.toNat)

/-- The shift amount of a word (R100). -/
def shamt (y : Word) : Nat := bits y 0 6

def leadingZeros (x : Word) : Word := BitVec.ofNat 64 (if x = 0 then 64 else 63 - Nat.log2 x.toNat)

/-- The index of the lowest one among the first n bits, or n. -/
def lowestOne (x : Nat) : Nat → Nat
  | 0 => 0
  | n + 1 => if x % 2 = 1 then 0 else 1 + lowestOne (x / 2) n

def trailingZeros (x : Word) : Word := BitVec.ofNat 64 (lowestOne x.toNat 64)

/-- The number of ones among the low n bits. -/
def onesIn (x : Nat) : Nat → Nat
  | 0 => 0
  | n + 1 => x % 2 + onesIn (x / 2) n

def popCount (x : Word) : Word := BitVec.ofNat 64 (onesIn x.toNat 64)

/-- The width of a width code: 8, 16 or 32 (R40). -/
def codeWidth (w : Fin 3) : Nat := 8 * 2 ^ w.val

def signExt (x : Word) (w : Nat) : Word := BitVec.ofInt 64 (sx w (bits x 0 w))
def zeroExt (x : Word) (w : Nat) : Word := BitVec.ofNat 64 (bits x 0 w)

/-- `bfx` (R102). -/
def fieldGet (x y : Word) : Word := BitVec.ofNat 64 (x.toNat / 2 ^ bits y 0 6 % 2 ^ bits y 8 6)

/-- `bfi` (R102): bits that would lie above bit 63 are dropped. -/
def fieldPut (old x y : Word) : Word :=
  let pos := bits y 0 6
  let mask := BitVec.ofNat 64 ((2 ^ bits y 8 6 - 1) * 2 ^ pos)
  (old &&& ~~~mask) ||| ((x <<< pos) &&& mask)

/-! ### ALU -/

def execAdd (d a b : SReg) (s : State) : Host.Outcome State Fault Refusal :=
  scalarUnit s [a, b] d fun th => sget th a + sget th b

def execSub (d a b : SReg) (s : State) : Host.Outcome State Fault Refusal :=
  scalarUnit s [a, b] d fun th => sget th a - sget th b

def execMul (d a b : SReg) (s : State) : Host.Outcome State Fault Refusal :=
  scalarUnit s [a, b] d fun th => sget th a * sget th b

def execMulh (d a b : SReg) (s : State) : Host.Outcome State Fault Refusal :=
  scalarUnit s [a, b] d fun th => mulHigh (sget th a) (sget th b)

def execMulhu (d a b : SReg) (s : State) : Host.Outcome State Fault Refusal :=
  scalarUnit s [a, b] d fun th => mulHighU (sget th a) (sget th b)

/-- Division by zero is the arithmetic fault with FINFO 1 (R101). -/
def divUnit (s : State) (d a b : SReg) (f : Word → Word → Word) : Host.Outcome State Fault Refusal :=
  unit s { Need.none with sr := [a, b], sd := [d] } fun c th =>
    if sget th b = 0 then raise s c 0x16 0 1 0 else retire s c 8 (sset d (f (sget th a) (sget th b)))

def execDiv (d a b : SReg) (s : State) : Host.Outcome State Fault Refusal := divUnit s d a b divS

def execDivu (d a b : SReg) (s : State) : Host.Outcome State Fault Refusal := divUnit s d a b divU

def execRem (d a b : SReg) (s : State) : Host.Outcome State Fault Refusal := divUnit s d a b remS

def execRemu (d a b : SReg) (s : State) : Host.Outcome State Fault Refusal := divUnit s d a b remU

def execAnd (d a b : SReg) (s : State) : Host.Outcome State Fault Refusal :=
  scalarUnit s [a, b] d fun th => sget th a &&& sget th b

def execOr (d a b : SReg) (s : State) : Host.Outcome State Fault Refusal :=
  scalarUnit s [a, b] d fun th => sget th a ||| sget th b

def execXor (d a b : SReg) (s : State) : Host.Outcome State Fault Refusal :=
  scalarUnit s [a, b] d fun th => sget th a ^^^ sget th b

def execAndn (d a b : SReg) (s : State) : Host.Outcome State Fault Refusal :=
  scalarUnit s [a, b] d fun th => sget th a &&& ~~~(sget th b)

def execOrn (d a b : SReg) (s : State) : Host.Outcome State Fault Refusal :=
  scalarUnit s [a, b] d fun th => sget th a ||| ~~~(sget th b)

def execSll (d a b : SReg) (s : State) : Host.Outcome State Fault Refusal :=
  scalarUnit s [a, b] d fun th => sget th a <<< shamt (sget th b)

def execSrl (d a b : SReg) (s : State) : Host.Outcome State Fault Refusal :=
  scalarUnit s [a, b] d fun th => sget th a >>> shamt (sget th b)

def execSra (d a b : SReg) (s : State) : Host.Outcome State Fault Refusal :=
  scalarUnit s [a, b] d fun th => (sget th a).sshiftRight (shamt (sget th b))

def execRol (d a b : SReg) (s : State) : Host.Outcome State Fault Refusal :=
  scalarUnit s [a, b] d fun th => (sget th a).rotateLeft (shamt (sget th b))

def execMin (d a b : SReg) (s : State) : Host.Outcome State Fault Refusal :=
  scalarUnit s [a, b] d fun th => if (sget th a).slt (sget th b) then sget th a else sget th b

def execMax (d a b : SReg) (s : State) : Host.Outcome State Fault Refusal :=
  scalarUnit s [a, b] d fun th => if (sget th a).slt (sget th b) then sget th b else sget th a

def execMinu (d a b : SReg) (s : State) : Host.Outcome State Fault Refusal :=
  scalarUnit s [a, b] d fun th => if (sget th a).ult (sget th b) then sget th a else sget th b

def execMaxu (d a b : SReg) (s : State) : Host.Outcome State Fault Refusal :=
  scalarUnit s [a, b] d fun th => if (sget th a).ult (sget th b) then sget th b else sget th a

def execClz (d a : SReg) (s : State) : Host.Outcome State Fault Refusal :=
  scalarUnit s [a] d fun th => leadingZeros (sget th a)

def execCtz (d a : SReg) (s : State) : Host.Outcome State Fault Refusal :=
  scalarUnit s [a] d fun th => trailingZeros (sget th a)

def execPop (d a : SReg) (s : State) : Host.Outcome State Fault Refusal :=
  scalarUnit s [a] d fun th => popCount (sget th a)

def execSext (d a : SReg) (w : Fin 3) (s : State) : Host.Outcome State Fault Refusal :=
  scalarUnit s [a] d fun th => signExt (sget th a) (codeWidth w)

def execZext (d a : SReg) (w : Fin 3) (s : State) : Host.Outcome State Fault Refusal :=
  scalarUnit s [a] d fun th => zeroExt (sget th a) (codeWidth w)

def execBfx (d a b : SReg) (s : State) : Host.Outcome State Fault Refusal :=
  scalarUnit s [a, b] d fun th => fieldGet (sget th a) (sget th b)

/-- `bfi` reads d as well (R102). -/
def execBfi (d a b : SReg) (s : State) : Host.Outcome State Fault Refusal :=
  scalarUnit s [a, b, d] d fun th => fieldPut (sget th d) (sget th a) (sget th b)

def execSel (d a b : SReg) (k : PReg) (s : State) : Host.Outcome State Fault Refusal :=
  unit s { Need.none with sr := [a, b], sd := [d], pr := [k] } fun c th =>
    retire s c 8 (sset d (if pget th k then sget th a else sget th b))

/-! ### Immediate forms (R103-R105) -/

def execAddi (d a : SReg) (imm : Int) (s : State) : Host.Outcome State Fault Refusal :=
  scalarUnit s [a] d fun th => sget th a + BitVec.ofInt 64 imm

def execAndi (d a : SReg) (imm : Int) (s : State) : Host.Outcome State Fault Refusal :=
  scalarUnit s [a] d fun th => sget th a &&& BitVec.ofInt 64 imm

def execOri (d a : SReg) (imm : Int) (s : State) : Host.Outcome State Fault Refusal :=
  scalarUnit s [a] d fun th => sget th a ||| BitVec.ofInt 64 imm

def execXori (d a : SReg) (imm : Int) (s : State) : Host.Outcome State Fault Refusal :=
  scalarUnit s [a] d fun th => sget th a ^^^ BitVec.ofInt 64 imm

def execSlli (d a : SReg) (n : Fin 64) (s : State) : Host.Outcome State Fault Refusal :=
  scalarUnit s [a] d fun th => sget th a <<< n.val

def execSrli (d a : SReg) (n : Fin 64) (s : State) : Host.Outcome State Fault Refusal :=
  scalarUnit s [a] d fun th => sget th a >>> n.val

def execSrai (d a : SReg) (n : Fin 64) (s : State) : Host.Outcome State Fault Refusal :=
  scalarUnit s [a] d fun th => (sget th a).sshiftRight n.val

def execRoli (d a : SReg) (n : Fin 64) (s : State) : Host.Outcome State Fault Refusal :=
  scalarUnit s [a] d fun th => (sget th a).rotateLeft n.val

def execLih (d : SReg) (pos : Fin 4) (imm : BitVec 16) (s : State) : Host.Outcome State Fault Refusal :=
  scalarUnit s [] d fun _ => imm.setWidth 64 <<< (16 * pos.val)

/-- `lih.k` reads d (R105). -/
def execLihK (d : SReg) (pos : Fin 4) (imm : BitVec 16) (s : State) : Host.Outcome State Fault Refusal :=
  scalarUnit s [d] d fun th => setBits (sget th d) (16 * pos.val) 16 imm.toNat

/-! ### Compares and predicates (R106, R107) -/

def execCmp (p : PReg) (cc : Cond) (u : Bool) (a b : SReg) (s : State) : Host.Outcome State Fault Refusal :=
  predUnit s [a, b] [] p fun th => cmpWords cc u (sget th a) (sget th b)

/-- The 13-bit immediate is sign-extended, also where it is compared unsigned (R106). -/
def execCmpImm (p : PReg) (cc : Cond) (u : Bool) (a : SReg) (imm : BitVec 13) (s : State) : Host.Outcome State Fault Refusal :=
  predUnit s [a] [] p fun th => cmpWords cc u (sget th a) (imm.signExtend 64)

def execPand (d a b : PReg) (s : State) : Host.Outcome State Fault Refusal :=
  predUnit s [] [a, b] d fun th => pget th a && pget th b

def execPor (d a b : PReg) (s : State) : Host.Outcome State Fault Refusal :=
  predUnit s [] [a, b] d fun th => pget th a || pget th b

def execPxor (d a b : PReg) (s : State) : Host.Outcome State Fault Refusal :=
  predUnit s [] [a, b] d fun th => pget th a != pget th b

def execPandn (d a b : PReg) (s : State) : Host.Outcome State Fault Refusal :=
  predUnit s [] [a, b] d fun th => pget th a && !pget th b

def execPnot (d a : PReg) (s : State) : Host.Outcome State Fault Refusal := predUnit s [] [a] d fun th => !pget th a

def execPmov (d : PReg) (a : SReg) (s : State) : Host.Outcome State Fault Refusal :=
  predUnit s [a] [] d fun th => decide (sget th a ≠ 0)

def execPget (d : SReg) (a : PReg) (s : State) : Host.Outcome State Fault Refusal :=
  unit s { Need.none with sd := [d], pr := [a] } fun c th => retire s c 8 (sset d (if pget th a then 1 else 0))

end Sys2Proof.Machine
end

