-- ==== Sys2Proof/Machine/Branch.lean ====
section
/-! DEFINITION. Branches and jumps (R26, R108, R109). -/

namespace Sys2Proof.Machine

/-- The unit after the branch word (R108); a branch takes no prefix, so its word is the unit. -/
def linkOfPc (c : Cur) : Word := offBy c.fpc 4

/-- A relative branch (R108): the target is checked whether or not the branch is taken. -/
def branchUnit (s : State) (n : Need) (disp : Int) (taken : Thread → Bool) (f : Cur → Thread → Thread) :
    Host.Outcome State Fault Refusal :=
  unit s n fun c th =>
    match addOff c.fpc (4 * disp) with
    | none => raise s c 0x08 c.fpc 3 0
    | some t => retireTo s c 8 (if taken th then t else c.npc) (f c)

def execB (disp : BitVec 26) (s : State) : Host.Outcome State Fault Refusal :=
  branchUnit s Need.none disp.toInt (fun _ => true) fun _ th => th

def execBl (disp : BitVec 26) (s : State) : Host.Outcome State Fault Refusal :=
  branchUnit s { Need.none with sd := [31] } disp.toInt (fun _ => true) fun c th => sset 31 (linkOfPc c) th

def execBp (p : PReg) (disp : BitVec 22) (s : State) : Host.Outcome State Fault Refusal :=
  branchUnit s { Need.none with pr := [p] } disp.toInt (fun th => pget th p) fun _ th => th

def execBpNot (p : PReg) (disp : BitVec 22) (s : State) : Host.Outcome State Fault Refusal :=
  branchUnit s { Need.none with pr := [p] } disp.toInt (fun th => !pget th p) fun _ th => th

/-- Kinds that hold code (R87). -/
def codeKind (k : Nat) : Bool := decide (k = 0) || decide (k = 2) || decide (k = 3) || decide (k = 4)

/-- A jump through a register (R109). -/
def jumpUnit (s : State) (n : Need) (a : SReg) (f : Cur → Thread → Thread) : Host.Outcome State Fault Refusal :=
  unit s n fun c th =>
    let t := sget th a
    if codeKind (pKind t) = false then raise s c 0x08 t 1 0
    else if pOff t % 4 ≠ 0 then raise s c 0x07 t 4 0
    else retireTo s c 8 t (f c)

def execJr (a : SReg) (s : State) : Host.Outcome State Fault Refusal :=
  jumpUnit s { Need.none with sr := [a] } a fun _ th => th

def execJlr (d a : SReg) (s : State) : Host.Outcome State Fault Refusal :=
  jumpUnit s { Need.none with sr := [a], sd := [d] } a fun c th => sset d (linkOfPc c) th

end Sys2Proof.Machine
end

