-- ==== Sys2Proof/Machine/Rendezvous.lean ====
section
/-! DEFINITION. Rendezvous points: `rvinit`, `rvarr`, `rvwait`, `rvtest`, the release and the timeout (R123-R135). -/

namespace Sys2Proof.Machine

def setBit24 (b : BitVec 24) (k : Nat) (v : Bool) : BitVec 24 := if v then b ||| (1#24 <<< k) else b &&& ~~~(1#24 <<< k)

def pointOf (t : Team) (k : Nat) : Point := lookD t.points k Point.reset

/-- The points of a thread's team; without a team every point is uninitialised. -/
def pointAt (s : State) (th : Thread) (k : Nat) : Point :=
  match teamOf s th.partn th.serial with
  | some t => pointOf t k
  | none => Point.reset

def modPoint (s : State) (partn serial k : Nat) (f : Point → Point) : State :=
  modTeam s partn serial fun t => { t with points := ins t.points k (f (pointOf t k)) }

/-- 2 × (w + h) + 16 of a team (R126). -/
def wireTime (s : State) (th : Thread) : Nat :=
  match teamOf s th.partn th.serial with
  | some t => 2 * (t.w + t.h) + 16
  | none => 16

/-- FADDR of cause 0x0E (R133). -/
def rvAddr (detail k : Nat) : Word := BitVec.ofNat 64 (detail * 2 ^ 60 + k)

/-- The team's thread limit (R128): a pair counts once. -/
def threadLimit (s : State) (th : Thread) : Nat :=
  let living := (threadsWhere s fun _ t => decide (t.partn = th.partn ∧ t.serial = th.serial ∧ t.role ≠ 2)).length
  match teamOf s th.partn th.serial with
  | some t => max t.launch living
  | none => living

/-- Applies a change of the rendezvous bits to a thread and to the trailing thread of its pair (R134). -/
def setRv (s : State) (u k : Nat) (f : Thread → Thread) : State :=
  match mateOf s u with
  | some m => modThread (modThread s u f) m f
  | none => modThread s u f

/-- Counts an arrival of this cycle; the arrival that completes the phase closes the point and its release follows
(R126, R129). -/
def arrive (s : State) (u : Nat) (th : Thread) (k : Nat) : State :=
  let p := pointAt s th k
  let s1 := setRv s u k fun t => { t with rvRec := setBit24 t.rvRec k p.phase, rvArr := setBit24 t.rvArr k true }
  let full := decide (p.arrived + 1 = p.expected)
  let s2 := modPoint s1 th.partn th.serial k fun q => { q with arrived := q.arrived + 1, closed := full }
  if full then schedAt s2 (s.cycle + wireTime s th) (.rendezvousRelease th.partn th.serial k) else s2

def execRvinit (k : Fin 24) (a : SReg) (s : State) : Host.Outcome State Fault Refusal :=
  unit s { Need.none with sr := [a], rx := true, ev := true } fun c th =>
    let lat := wireTime s th
    let n := (sget th a).toNat
    let bad := fun (detail : Nat) => some (0x0E, rvAddr detail k.val, (0 : Word))
    lvLead s c th
      (if n = 0 ∨ threadLimit s th < n then bad 3 else if 0 < (pointAt s th k.val).arrived then bad 2 else none)
      (fun s => lvOver (retire (modPoint s th.partn th.serial k.val fun p => { p with expected := n }) c lat id) c.uid)
      fun s => retire s c lat id

def execRvarr (k : Fin 24) (s : State) : Host.Outcome State Fault Refusal :=
  unit s { Need.none with rx := true, ev := true } fun c th =>
    let p := pointAt s th k.val
    lvLead s c th (if p.expected = 0 then some (0x0E, rvAddr 4 k.val, 0) else none)
      (fun s =>
        if th.rvArr.getLsbD k.val ∨ p.closed then waitUnit s c (.rvarr k)
        else lvOver (retire (arrive s c.uid th k.val) c 8 id) c.uid)
      fun s => retire s c 8 id

/-- Starts, or starts again, the count of parked cycles towards RVTO (R132). A pair's trailing thread has no count of its
own: the leading thread's timeout is both threads' (R134). -/
def rvCount (s : State) (u : Nat) : State :=
  match threadOf s u with
  | none => s
  | some th =>
    if th.role = 2 then s
    else
    let s1 := modThread s u fun t => { t with rvSince := s.cycle, rvOn := true }
    if th.rvto = 0 then s1 else schedAt s1 (s.cycle + (th.rvto.toNat - th.rvSpent)) (.rendezvousTimeout u s.cycle)

/-- Stops the count where it runs: the cycles so far are kept. -/
def rvPause (s : State) (u : Nat) : State :=
  match threadOf s u with
  | none => s
  | some th =>
    match th.wait with
    | .rvwait _ =>
      if th.rvOn then
        unsched (modThread s u fun t => { t with rvSpent := t.rvSpent + (s.cycle - t.rvSince), rvOn := false })
          fun a => match a with | .rendezvousTimeout v _ => decide (v = u) | _ => false
      else s
    | _ => s

/-- The leading thread's `rvwait` completes, ready in a cycle: the trailing thread's completes a cycle later (R134). A
trailing thread that has not issued it yet learns so from the load-value queue, although R84 does not list `rvwait`
(DESIGN CHOICE, log 24). -/
def rvFollow (s : State) (u : Nat) (th : Thread) (ready : Nat) : State :=
  match mateOf s u with
  | none => s
  | some m =>
    match threadOf s m with
    | none => s
    | some t =>
      match t.wait with
      | .rvwait _ =>
        modThread (modThread s m fun x => { unitOver (offBy x.pc 4) (ready + 1) x with lvSeq := x.lvSeq + 1 }) u
          fun x => { x with lvSeq := x.lvSeq + 1 }
      | _ => lvEnter s u th (.vals [BitVec.ofNat 64 ready])

/-- The fault of a rendezvous timeout. -/
def rvFault (pc : Ptr) (k info tick : Nat) : FaultIn :=
  { cause := 0x0E, addr := rvAddr 1 k, info := BitVec.ofNat 64 info, progress := 0, fpc := pc, tick := tick, host := false }

def execRvwait (k : Fin 24) (s : State) : Host.Outcome State Fault Refusal :=
  unit s { Need.none with rx := true } fun c th =>
    if th.role = 2 then
      match look th.lvq th.lvSeq with
      | some (.got _ _ ((_, b) :: _) _) =>
        takeFault (issued (lvLeave s c.uid) c) c.uid (rvFault c.fpc k.val b.info b.tick) (s.cycle + c.fx + 8)
      | some e =>
        let lead := match e with | .vals (v :: _) => v.toNat | _ => 0
        retire (lvLeave s c.uid) c (max 8 (lead + 1 - (s.cycle + c.fx))) id
      | none => waitUnit s c (.rvwait k)
    else if (pointAt s th k.val).phase ≠ th.rvRec.getLsbD k.val then
      lvRoom s c th (rvFollow (retire s c 8 id) c.uid th (s.cycle + c.fx + 8))
    else rvCount (modThread (waitUnit s c (.rvwait k)) c.uid fun t => { t with rvSpent := 0 }) c.uid

def execRvtest (p : PReg) (k : Fin 24) (s : State) : Host.Outcome State Fault Refusal :=
  unit s { Need.none with rx := true } fun c th =>
    lvShare s c th
      (fun s => (s, [if (pointAt s th k.val).phase ≠ th.rvRec.getLsbD k.val then 1 else 0]))
      fun vs s => retire s c 8 (pset p (decide (vs.headD 0 = 1)))

/-- A parked `rvwait` completes in this cycle. -/
def rvwaitDone (s : State) (u : Nat) : State :=
  match threadOf s u with
  | none => s
  | some th =>
    match th.wait with
    | .rvwait _ =>
      let s1 := unsched (complete s u (offBy th.pc 4) id) fun a =>
        match a with | .rendezvousTimeout v _ => decide (v = u) | _ => false
      rvFollow (modThread s1 u fun t => { t with rvOn := false }) u th (s.cycle + 1)
    | _ => s

/-- A parked `rvarr` is counted in the cycle after the release, as if it had issued in it (R129), or waits for the next
release where the point has closed again. -/
def rvarrAgain (s : State) (u : Nat) : State :=
  let s1 := modThread s u fun t => { t with rvDue := none }
  match threadOf s u with
  | none => s
  | some th =>
    match th.wait with
    | .rvarr k =>
      if (pointAt s th k.val).closed then s1
      else lvOver (modThread (arrive s1 u th k.val) u fun t => unitOver (offBy t.pc 4) (s.cycle + 1) t) u
    | _ => s1

/-- The parked arrival that is counted next in this cycle: the lowest core, then the lowest slot (R126). -/
def arrivalDue (s : State) : Option (Nat × Thread) :=
  s.threads.foldl (fun a e =>
    if e.2.rvDue.any fun c => decide (c ≤ s.cycle) then
      match a with
      | none => some e
      | some b => if e.2.tile * 16 + e.2.slot < b.2.tile * 16 + b.2.slot then some e else a
    else a) none

/-- The release of a point (R126). -/
def releasePoint (s : State) (partn serial k : Nat) : State :=
  let s1 := modPoint s partn serial k fun p => { p with phase := !p.phase, arrived := 0, closed := false }
  let us := teamThreads s partn serial
  let s2 := us.foldl (fun s u => modThread s u fun t => { t with rvArr := setBit24 t.rvArr k false }) s1
  let waits := fun (w : Wait) (u : Nat) =>
    match threadOf s2 u with | some th => decide (th.wait = w) && decide (th.role ≠ 2) | none => false
  if h : k < 24 then
    let s3 := forEach (us.filter (waits (.rvwait ⟨k, h⟩))) rvwaitDone s2
    forEach (us.filter (waits (.rvarr ⟨k, h⟩))) (fun s u => modThread s u fun t => { t with rvDue := some (s.cycle + 1) }) s3
  else s2

def execRendezvousRelease (s : State) : Host.Outcome State Fault Refusal :=
  actRow s fun a s => match a with | .rendezvousRelease partn serial k => some (releasePoint s partn serial k) | _ => none

/-- FINFO of a timeout (R133): the rows and columns that hold a thread that has not arrived. -/
def missing (s : State) (th : Thread) (k : Nat) : Nat :=
  match teamOf s th.partn th.serial, frameOf s th.partn with
  | some t, some f =>
    let late := (threadsWhere s fun _ x => decide (x.partn = th.partn ∧ x.serial = th.serial) && !x.rvArr.getLsbD k).filterMap
      fun u => threadOf s u
    let row := fun j => late.any fun x => decide ((guestY f x.tile - t.oy) % 32 = j)
    let col := fun j => late.any fun x => decide ((guestX f x.tile - t.ox) % 32 = j)
    (List.range 32).foldl (fun a j => a + (if row j then 2 ^ j else 0) + (if col j then 2 ^ (32 + j) else 0)) 0
  | _, _ => 0

/-- The rendezvous timeout of a parked thread (R132): both threads of a pair take it. -/
def rvTimeout (s : State) (u : Nat) (th : Thread) (k : Nat) : State :=
  let f := fun (t : Thread) => rvFault t.pc k (missing s th k) (now s)
  let s1 := takeFault s u (f th) (s.cycle + 1)
  match mateOf s u with
  | none => s1
  | some m =>
    match threadOf s m with
    | none => s1
    | some t =>
      match t.wait with
      | .rvwait _ => takeFault s1 m (f t) (s.cycle + 1)
      | _ => modThread (modThread s1 m fun x =>
          { x with lvq := ins x.lvq th.lvSeq (.got [] 0 [(0, { cause := 0x0E, info := missing s th k, addr := rvAddr 1 k, tick := now s, host := false })] none) })
          u fun x => { x with lvSeq := th.lvSeq + 1 }

def execRendezvousTimeout (s : State) : Host.Outcome State Fault Refusal :=
  actRow s fun a s =>
    match a with
    | .rendezvousTimeout u stamp =>
      match threadOf s u with
      | none => some s
      | some th =>
        match th.wait with
        | .rvwait k => if th.rvSince = stamp then some (rvTimeout s u th k.val) else some s
        | _ => some s
    | _ => none

end Sys2Proof.Machine
end

