-- ==== Sys2Proof/Machine/Fabric.lean ====
section
/-! DEFINITION. The pointer instructions (R187-R192), leaps in flight (R191, R196-R198) and remote-register writes on
arrival (R192, R193, R200, R201). -/

namespace Sys2Proof.Machine

/-! ### Pointer arithmetic -/

/-- Whether `dist` accepts a kind of pointer with an access kind (R187). -/
def distAccepts (kind k : Nat) : Bool :=
  match kind with
  | 1 => decide (k = 1) || decide (k = 4)
  | 0 => true
  | 6 => true
  | 5 => decide (k ≠ 4) && decide (k ≠ 5)
  | _ => decide (k ≠ 4)

/-- The limits of R169 with kind 1 among the kinds. -/
def anyLimits (s : State) (partn : Nat) (p : Ptr) : Nat :=
  match frameOf s partn with
  | none => 2
  | some f => if pKind p = 1 then regLimits f p else limits f p

/-- A pointer that breaks a limit of R169 and whose kind the operand k does not accept names the limit (DESIGN CHOICE,
log 97). -/
def execDist (d a : SReg) (k : Fin 6) (s : State) : Host.Outcome State Fault Refusal :=
  unit s { Need.none with sr := [a], sd := [d] } fun c th =>
    let p := sget th a
    let l := anyLimits s th.partn p
    if l ≠ 0 then raise s c 0x08 p (BitVec.ofNat 64 l) 0
    else if distAccepts (pKind p) k.val = false then raise s c 0x08 p 1 0
    else retire s c 8 (sset d (BitVec.ofNat 64 (charge s th.partn th.tile p k.val)))

/-- `padd` and `paddi` (R188). -/
def pointerAdd (s : State) (rd : List SReg) (d a : SReg) (v : Thread → Int) : Host.Outcome State Fault Refusal :=
  unit s { Need.none with sr := rd, sd := [d] } fun c th =>
    match addOff (sget th a) (v th) with
    | none => raise s c 0x08 (sget th a) 3 0
    | some p => retire s c 8 (sset d p)

def execPadd (d a b : SReg) (s : State) : Host.Outcome State Fault Refusal :=
  pointerAdd s [a, b] d a fun th => (sget th b).toInt

def execPaddi (d a : SReg) (imm : Int) (s : State) : Host.Outcome State Fault Refusal :=
  pointerAdd s [a] d a fun _ => imm

/-- The pointer that `pmk` builds (R189). -/
def pointerMake (x y : Word) : Ptr := mkPtr (bits x 16 4) (bits x 8 7) (bits x 0 7) y.toNat

def execPmk (d a b : SReg) (s : State) : Host.Outcome State Fault Refusal :=
  unit s { Need.none with sr := [a, b], sd := [d] } fun c th =>
    if 2 ^ 46 ≤ (sget th b).toNat then raise s c 0x08 (sget th b) 3 0
    else retire s c 8 (sset d (pointerMake (sget th a) (sget th b)))

/-- The field that `pfld` names (R189). -/
def pointerField (f : Fin 4) (p : Ptr) : Nat :=
  match f.val with
  | 0 => pKind p
  | 1 => pX p
  | 2 => pY p
  | _ => pOff p

def execPfld (d a : SReg) (f : Fin 4) (s : State) : Host.Outcome State Fault Refusal :=
  unit s { Need.none with sr := [a], sd := [d] } fun c th =>
    retire s c 8 (sset d (BitVec.ofNat 64 (pointerField f (sget th a))))

/-- `pfix` (R190): a walk of the block's stubs from its home. -/
def execPfix (d a : SReg) (s : State) : Host.Outcome State Fault Refusal :=
  unit s { Need.none with sr := [a], sd := [d], rx := true } fun c th =>
    let p := sget th a
    let l := limitsOf s th.partn p
    if l ≠ 0 then raise s c 0x08 p (BitVec.ofNat 64 l) 0
    else if pKind p ≠ 0 then lvShare s c th (fun st => (st, [p])) fun vs st => retire st c 8 (sset d (vs.headD 0))
    else
      match watchHit s th p 1 with
      | some i => raise s c 0x18 p i th.resume
      | none =>
        let ch := charge s th.partn th.tile p 0
        lvRoom s c th (metered s c th p ch 0 fun s1 =>
          startFlight s1 c th false (.pfix d) 1 ch [[{ part := 0, ptr := p, op := .pfix, line := none }]])

/-! ### Leaps -/

/-- The time of a leap (R191). -/
def leapTime (s : State) (a b : Nat) : Nat :=
  24 + 4 * hops (physTile s a) (physTile s b) + 16 * crossings (physTile s a) (physTile s b)

/-- Why a leap is refused at issue (R191, R347, R417); 0 where it is not. Reason 5 has no place in R191's order: it comes after
3 and 2 and before 1 (DESIGN CHOICE, log 96). -/
def leapRefused (s : State) (th : Thread) (dst : Nat) : Nat :=
  if th.role ≠ 0 then 3
  else if th.vn ≠ 0 ∨ th.dwin ≠ 0 then 2
  else if th.ltm then 5
  else if inTeam s th.partn th.serial dst = false then 1
  else if fencedAt s th.partn dst then 6
  else 0

/-- Sends a thread's context on its way (R191): the source slot stays reserved. -/
def startLeap (s : State) (c : Cur) (th : Thread) (p : Ptr) (dst ch : Nat) (acc : Option LeapAcc) : State :=
  let t := leapTime s th.tile dst
  let m : LeapMsg := { uid := c.uid, src := th.tile, slot := th.slot, dst := dst, time := t, sent := s.cycle + c.fx, inj := tickAt s (s.cycle + c.fx),
                       charge := meterGain th ch, fpc := c.fpc, npc := c.npc, ptr := p, why := 0, acc := acc }
  let s1 := modThread (issued s c) c.uid fun x => { x with stand := .transit, wait := .leap }
  let s2 := modTile s1 th.tile fun k => { k with reserved := setAdd k.reserved th.slot }
  sched s2 { cycle := s.cycle + c.fx + t - 1, late := false, age := tickAt s (s.cycle + c.fx), src := th.tile,
             act := .leapArrival m }

/-- `leap` (R191). -/
def execLeap (a : SReg) (s : State) : Host.Outcome State Fault Refusal :=
  unit s { Need.none with sr := [a], rx := true } fun c th =>
    let p := sget th a
    if pKind p ≠ 0 ∧ pKind p ≠ 1 then raise s c 0x08 p 1 0
    else
      match guestTile s th.partn (pX p) (pY p) with
      | none => raise s c 0x08 p 2 0
      | some dst =>
        let r := leapRefused s th dst
        if r ≠ 0 then raise s c 0x1F p (BitVec.ofNat 64 r) 0
        else if dst = th.tile then retire s c 8 id
        else
          let ch := kindBits 4 * lenTiles s th.tile dst
          metered s c th p ch 0 fun s1 => startLeap s1 c th p dst ch none

/-- A slot a thread can take: no thread stands in it or keeps it, enabled, not reserved (R95, R197). -/
def freeSlot (s : State) (tile : Nat) : Option Nat :=
  (List.range 16).find? fun k =>
    (atSlot s tile k).isNone && decide (k ∉ (tileOf s tile).disabled) && decide (k ∉ (tileOf s tile).reserved)

/-- The flight of the access that a leap carried (R196). -/
def leapOp (a : LeapAcc) : FlOp :=
  match a.code with
  | 0 => .storeS
  | 1 => .loadS (rS a.reg) a.size true
  | 2 => .loadS (rS a.reg) a.size false
  | 3 => .syncLoad (rS a.reg)
  | 4 => .probe (rP a.reg)
  | _ => .amo (rS a.reg)

/-- The arriving thread takes a slot: the leap is over, or its access is made from the new tile (R191, R196); a
displaced thread (`why` 100) keeps the wait it came with (R82). -/
def landLeap (s : State) (m : LeapMsg) (slot : Nat) : State :=
  let s1 := modThread s m.uid fun th =>
    { th with tile := m.dst, slot := slot, stand := .inSlot, origins := th.origins ++ [(m.src, m.slot)] }
  let s2 := schedAt s1 (s.cycle + owTiles s m.src m.dst) (.arrivalAcknowledgement m.src m.slot)
  if m.why = 100 then
    let s3 := recheck (modThread s2 m.uid fun th => { th with readyAt := max th.readyAt (s.cycle + 1) }) m.uid
    match threadOf s3 m.uid with
    | some th => match th.wait with | .rvwait _ => if th.held then s3 else rvCount s3 m.uid | _ => s3
    | none => s3
  else
  match m.acc with
  | none => modThread s2 m.uid fun th => unitOver m.npc (s.cycle + 1) th
  | some a =>
    let f : Flight := { fid := s.nextId, rx := false, fpc := m.fpc, npc := m.npc, op := leapOp a, first := 0, parts := 1,
                        out := [], pend := [[{ part := 0, ptr := a.ptr, op := a.op, line := none }]], got := [], flags := 0, bad := [],
                        sent := [], minEnd := 0, charge := m.charge, stub := none, fee := 0, lv := 0, done := false }
    let s3 := modThread (freshId s2) m.uid fun th => { th with flights := th.flights ++ [f], wait := .access f.fid }
    sendNext s3 m.uid f.fid (s.cycle + 1)

/-- A slot has become free: the head of the arrival queue takes it before anything else (R197). -/
def slotFreed (s : State) (tile : Nat) : State :=
  match (tileOf s tile).arrivals, freeSlot s tile with
  | m :: rest, some k => landLeap (modTile s tile fun t => { t with arrivals := rest }) m k
  | _, _ => s

/-- A leap reaches its target (R197, R417). -/
def leapArrives (s : State) (m : LeapMsg) : State :=
  match threadOf s m.uid with
  | none => s
  | some th =>
    let back := fun (why : Nat) => schedAt s (s.cycle + m.time) (.leapBounce { m with why := if m.why = 100 then 100 else why })
    if fencedAt s th.partn m.dst then back 6
    else
      match (tileOf s m.dst).arrivals, freeSlot s m.dst with
      | [], some k => landLeap s m k
      | q, _ =>
        if q.length < 4 then
          modThread (modTile s m.dst fun t => { t with arrivals := t.arrivals ++ [m] }) m.uid fun x => { x with stand := .queued }
        else back 0

/-- A refused leap ends at its source slot: the charge is withdrawn and PC is left at the unit (R197). -/
def leapFails (s : State) (m : LeapMsg) (reason : Nat) : State :=
  let s1 := modTile s m.src fun t => { t with reserved := setDel t.reserved m.slot }
  let s2 := modThread s1 m.uid fun th => meterBack m.charge { th with stand := .inSlot }
  takeFault s2 m.uid { cause := 0x1F, addr := m.ptr, info := BitVec.ofNat 64 reason, progress := 0, fpc := m.fpc,
                       tick := now s, host := false } (s.cycle + 1)

/-- A bounced context is back at its source (R197). -/
def leapReturns (s : State) (m : LeapMsg) : State :=
  match threadOf s m.uid with
  | none => s
  | some th =>
    if m.why = 100 then schedAt s (s.cycle + 64) (.leapResend m)
    else if m.why ≠ 0 then leapFails s m m.why
    else if th.syto ≠ 0 ∧ m.sent + th.syto.toNat ≤ s.cycle then leapFails s m 4
    else schedAt s (s.cycle + 64) (.leapResend m)

/-- A context is sent again, with the injection tick of its first send (R197, R202). -/
def leapSent (s : State) (m : LeapMsg) : State :=
  sched s { cycle := s.cycle + m.time, late := false, age := m.inj, src := m.src, act := .leapArrival m }

def execLeapArrival (s : State) : Host.Outcome State Fault Refusal :=
  actRow s fun a s => match a with | .leapArrival m => some (leapArrives s m) | _ => none

def execLeapBounce (s : State) : Host.Outcome State Fault Refusal :=
  actRow s fun a s => match a with | .leapBounce m => some (leapReturns s m) | _ => none

def execLeapResend (s : State) : Host.Outcome State Fault Refusal :=
  actRow s fun a s => match a with | .leapResend m => some (leapSent s m) | _ => none

/-- The source slot is freed (R191): its thread no longer occupies it. -/
def originFreed (s : State) (tile slot : Nat) : State :=
  let s1 := modTile s tile fun t => { t with reserved := setDel t.reserved slot }
  { s1 with threads := s1.threads.map fun e => (e.1, { e.2 with origins := e.2.origins.filter fun x => decide (x ≠ (tile, slot)) }) }

def execArrivalAcknowledgement (s : State) : Host.Outcome State Fault Refusal :=
  actRow s fun a s =>
    match a with
    | .arrivalAcknowledgement tile slot =>
      some (slotFreed (originFreed s tile slot) tile)
    | _ => none

/-! ### Remote-register writes -/

/-- `rput` (R192). -/
def execRput (a b : SReg) (s : State) : Host.Outcome State Fault Refusal :=
  unit s { Need.none with sr := [a, b], rx := true } fun c th =>
    let p := sget th a
    let l := if pKind p = 1 then anyLimits s th.partn p else 1
    if l ≠ 0 then raise s c 0x08 p (BitVec.ofNat 64 l) 0
    else
      match watchHit s th p 2, guestTile s th.partn (pX p) (pY p) with
      | some i, _ => raise s c 0x18 p i th.resume
      | none, none => raise s c 0x08 p 2 0
      | none, some dst =>
        gate s c th { kind := 1, ptr := p, width := 8, data := [sget th b] } fun s0 =>
          let ch := charge s th.partn th.tile p 1
          metered s0 c th p ch 0 fun s1 =>
            let s2 := startFlight s1 c th false .rput 1 ch []
            if th.role = 2 then s2
            else
              let ow := owTiles s th.tile dst
              let m : RputMsg := { uid := c.uid, fid := s1.nextId, partn := th.partn, serial := th.serial, src := th.tile,
                                   dst := dst, ptr := p, val := sget th b, ow := ow }
              sched s2 { cycle := s.cycle + c.fx + ow + 11, late := true, age := tickAt s (s.cycle + c.fx), src := th.tile,
                         act := .rputArrival m }

/-- The thread that an `rput` reaches: the one in the slot, resident or vacated, or the leaping thread that still
occupies it; the leading one of a pair (R192, R198). -/
def rputTarget (s : State) (tile slot : Nat) : Option Nat :=
  let l := threadsWhere s fun _ th => decide (th.tile = tile ∧ th.slot = slot) || decide ((tile, slot) ∈ th.origins)
  match l.head? with
  | none => none
  | some u =>
    match threadOf s u with
    | some th => if th.role = 2 then mateOf s u else some u
    | none => none

/-- Why an `rput` is refused (R192); 0 where it is accepted. -/
def rputReason (s : State) (m : RputMsg) : Nat :=
  if fencedAt s m.partn m.dst then 5
  else
    match rputTarget s m.dst (bits m.ptr 5 4) with
    | none => 1
    | some u =>
      match threadOf s u with
      | none => 1
      | some th =>
        if th.partn ≠ m.partn ∨ th.serial ≠ m.serial then 2
        else if bit th.racc 0 = false then 3
        else if sArmed th (rS (bits m.ptr 0 5)) = false then 4
        else 0

/-- FINFO of cause 0x0C (R200). -/
def rputInfo (p : Ptr) (reason : Nat) : Nat := reason + bits p 5 4 * 256 + bits p 0 5 * 4096

/-- An arriving `rput` is written or answered NACK and counted (R192, R201). -/
def rputArrives (s : State) (m : RputMsg) : State :=
  let reason := rputReason s m
  let back := fun (st : State) (r : AccRes) =>
    schedAt st (st.cycle + m.ow) (.accessResponse { uid := m.uid, fid := m.fid, part := 0, addr := m.ptr, stub := none, res := r })
  if reason = 0 then
    match rputTarget s m.dst (bits m.ptr 5 4) with
    | none => s
    | some u =>
      let w := fun (st : State) (v : Nat) => recheck (modThread st v (sset (rS (bits m.ptr 0 5)) m.val)) v
      let s1 := w s u
      back (match mateOf s u with | some v => w s1 v | none => s1) (.done [] 0)
  else
    let s1 := modTile s m.dst fun t => { t with orphan :=
      { count := min (t.orphan.count + 1) 0xFFFFFFFF, reason := reason, slot := bits m.ptr 5 4, source := m.src } }
    back s1 (.fault 0x0C (rputInfo m.ptr reason) (now s) false)

def execRputArrival (s : State) : Host.Outcome State Fault Refusal :=
  actRow s fun a s => match a with | .rputArrival m => some (rputArrives s m) | _ => none

end Sys2Proof.Machine
end

