-- ==== Sys2Proof/Machine/Memory.lean ====
section
/-! DEFINITION. Scalar loads and stores, synchronising accesses and atomics (R110-R115), barrier objects (R118, R119),
by fetch, relaxed or by leap (R29, R111, R195, R196). -/

namespace Sys2Proof.Machine

/-- A scalar access: its size, the checks it asks for, its kind for watchpoints, what it does at the home, what its
answer does, and what the comparator of a pair sees of it (0: nothing). -/
structure Scalar where
  n     : Nat
  sync  : Bool
  spad  : Bool
  wk    : Nat
  op    : AccOp
  fl    : FlOp
  pres  : Nat
  data  : List Word
  code  : Nat
  reg   : Nat
  deriving DecidableEq, Repr, Inhabited

/-- The charge of an access (R89, R183): of a sub-word access that of an 8-byte one. -/
def scalarCharge (s : State) (th : Thread) (p : Ptr) (op : AccOp) : Nat :=
  match frameOf s th.partn with
  | none => 0
  | some f => if pKind p = 6 then 0 else opBits op * lenTo s th.tile (placeIn f 0 p)

/-- The access of a unit made in fetch mode (R195), from the comparator on. -/
def fetchAccess (s : State) (c : Cur) (th : Thread) (p : Ptr) (x : Scalar) (rx : Bool) : State :=
  let ch := scalarCharge s th p x.op
  let go := fun (st : State) =>
    metered st c th p ch 0 fun s1 => startFlight s1 c th rx x.fl 1 ch [[{ part := 0, ptr := p, op := x.op, line := none }]]
  if x.pres = 0 then lvRoom s c th (go s) else gate s c th { kind := x.pres, ptr := p, width := x.n, data := x.data } go

/-- The access of a unit made by leap (R196). -/
def leapAccess (s : State) (c : Cur) (th : Thread) (p : Ptr) (x : Scalar) : State :=
  match placeOf s th.partn p with
  | some (.spad dst _) =>
    if dst = th.tile then fetchAccess s c th p x false
    else
      let r := leapRefused s th dst
      if r ≠ 0 then raise s c 0x1F p (BitVec.ofNat 64 r) 0
      else
        let ch := kindBits 4 * lenTiles s th.tile dst
        metered s c th p ch 0 fun s1 =>
          startLeap s1 c th p dst ch (some { ptr := p, op := x.op, code := x.code, size := x.n, reg := x.reg })
  | _ => fetchAccess s c th p x false

/-- A scalar access from its effective pointer on: the checks of R88 steps 1 to 4, the watchpoints, then the access. A
displacement that leaves the offset range is found before the kind and the coordinates are looked at (DESIGN CHOICE,
log 26). -/
def scalarAccess (s : State) (c : Cur) (th : Thread) (base : Word) (p : Option Ptr) (x : Scalar) (m : MemMode) : State :=
  match p with
  | none => raise s c 0x08 base 3 0
  | some p =>
    match checkPtr s th p x.n x.sync x.spad with
    | some (cause, info) => raise s c cause p (BitVec.ofNat 64 info) 0
    | none =>
      match watchHit s th p x.wk with
      | some i => raise s c 0x18 p i th.resume
      | none =>
        match m with
        | .leap => leapAccess s c th p x
        | .relaxed => fetchAccess s c th p x true
        | .plain => fetchAccess s c th p x false

/-- A ninth relaxed access parks until one of the eight completes (R56). -/
def relaxedRoom (s : State) (c : Cur) (th : Thread) (rx : Bool) (k : State) : State :=
  if rx && decide (8 ≤ rxCount th) then parkUnit s c .relaxedFull else k

/-! ### Loads and stores (R110, R111) -/

def isRx (m : MemMode) : Bool := decide (m = .relaxed)

def loadUnit (s : State) (t a : SReg) (disp : Int) (m : MemMode) (n : Nat) (sx : Bool) : Host.Outcome State Fault Refusal :=
  unit s { Need.none with sr := [a], sd := [t], rx := !isRx m } fun c th =>
    relaxedRoom s c th (isRx m)
      (let s1 := scalarAccess s c th (sget th a) (eaOf th a (disp * n))
        { n := n, sync := false, spad := false, wk := 1, op := .load n, fl := .loadS t n sx, pres := 0, data := [],
          code := if sx then 1 else 2, reg := t.val } m
       if isRx m && decide (s1.nextId ≠ s.nextId) then modThread s1 c.uid (sOutstanding t) else s1)

def storeUnit (s : State) (t a : SReg) (disp : Int) (m : MemMode) (n : Nat) : Host.Outcome State Fault Refusal :=
  unit s { Need.none with sr := [t, a], rx := !isRx m } fun c th =>
    relaxedRoom s c th (isRx m)
      (scalarAccess s c th (sget th a) (eaOf th a (disp * n))
        { n := n, sync := false, spad := false, wk := 2, op := .store n (sget th t), fl := .storeS, pres := 2,
          data := [zeroExtBytes n (sget th t)], code := 0, reg := 0 } m)
where
  zeroExtBytes (n : Nat) (v : Word) : Word := BitVec.ofNat 64 (bits v 0 (8 * n))

def execLdb (t a : SReg) (disp : Int) (m : MemMode) (s : State) : Host.Outcome State Fault Refusal := loadUnit s t a disp m 1 true
def execLdbu (t a : SReg) (disp : Int) (m : MemMode) (s : State) : Host.Outcome State Fault Refusal := loadUnit s t a disp m 1 false
def execLdh (t a : SReg) (disp : Int) (m : MemMode) (s : State) : Host.Outcome State Fault Refusal := loadUnit s t a disp m 2 true
def execLdhu (t a : SReg) (disp : Int) (m : MemMode) (s : State) : Host.Outcome State Fault Refusal := loadUnit s t a disp m 2 false
def execLdw (t a : SReg) (disp : Int) (m : MemMode) (s : State) : Host.Outcome State Fault Refusal := loadUnit s t a disp m 4 true
def execLdwu (t a : SReg) (disp : Int) (m : MemMode) (s : State) : Host.Outcome State Fault Refusal := loadUnit s t a disp m 4 false
def execLdd (t a : SReg) (disp : Int) (m : MemMode) (s : State) : Host.Outcome State Fault Refusal := loadUnit s t a disp m 8 false
def execStb (t a : SReg) (disp : Int) (m : MemMode) (s : State) : Host.Outcome State Fault Refusal := storeUnit s t a disp m 1
def execSth (t a : SReg) (disp : Int) (m : MemMode) (s : State) : Host.Outcome State Fault Refusal := storeUnit s t a disp m 2
def execStw (t a : SReg) (disp : Int) (m : MemMode) (s : State) : Host.Outcome State Fault Refusal := storeUnit s t a disp m 4
def execStd (t a : SReg) (disp : Int) (m : MemMode) (s : State) : Host.Outcome State Fault Refusal := storeUnit s t a disp m 8

/-! ### Synchronising accesses (R112) -/

def lpMode (lp : Bool) : MemMode := if lp then .leap else .plain

/-- `take` and `peek`. -/
def syncLoadUnit (s : State) (t a : SReg) (disp : Int) (lp : Bool) (op : AccOp) (wk pres : Nat) :
    Host.Outcome State Fault Refusal :=
  unit s { Need.none with sr := [a], sd := [t], rx := true } fun c th =>
    scalarAccess s c th (sget th a) (eaOf th a (disp * 8))
      { n := 8, sync := true, spad := false, wk := wk, op := op, fl := .syncLoad t, pres := pres, data := [], code := 3,
        reg := t.val } (lpMode lp)

/-- `give` and `post`. -/
def syncStoreUnit (s : State) (t a : SReg) (disp : Int) (lp : Bool) (op : Word → AccOp) (pres : Nat) :
    Host.Outcome State Fault Refusal :=
  unit s { Need.none with sr := [t, a], rx := true } fun c th =>
    scalarAccess s c th (sget th a) (eaOf th a (disp * 8))
      { n := 8, sync := true, spad := false, wk := 2, op := op (sget th t), fl := .storeS, pres := pres,
        data := [sget th t], code := 0, reg := 0 } (lpMode lp)

def execTake (t a : SReg) (disp : Int) (lp : Bool) (s : State) : Host.Outcome State Fault Refusal :=
  syncLoadUnit s t a disp lp .take 3 0

def execPeek (t a : SReg) (disp : Int) (lp : Bool) (s : State) : Host.Outcome State Fault Refusal :=
  syncLoadUnit s t a disp lp .peek 1 0

def execGive (t a : SReg) (disp : Int) (lp : Bool) (s : State) : Host.Outcome State Fault Refusal :=
  syncStoreUnit s t a disp lp .give 3

def execPost (t a : SReg) (disp : Int) (lp : Bool) (s : State) : Host.Outcome State Fault Refusal :=
  syncStoreUnit s t a disp lp .post 4

def execVoid (a : SReg) (disp : Int) (lp : Bool) (s : State) : Host.Outcome State Fault Refusal :=
  unit s { Need.none with sr := [a], rx := true } fun c th =>
    scalarAccess s c th (sget th a) (eaOf th a (disp * 8))
      { n := 8, sync := true, spad := false, wk := 2, op := .void, fl := .storeS, pres := 5, data := [], code := 0, reg := 0 }
      (lpMode lp)

/-- `probe` leaves its predicate empty until the answer (R68). -/
def execProbe (k : PReg) (a : SReg) (disp : Int) (lp : Bool) (s : State) : Host.Outcome State Fault Refusal :=
  unit s { Need.none with sr := [a], rx := true } fun c th =>
    let s1 := scalarAccess s c th (sget th a) (eaOf th a (disp * 8))
      { n := 8, sync := true, spad := false, wk := 1, op := .probe, fl := .probe k, pres := 0, data := [], code := 4,
        reg := k.val } (lpMode lp)
    if s1.nextId ≠ s.nextId then modThread s1 c.uid (pclear k) else s1

/-! ### Atomics (R115) -/

/-- `amocas` reads d as the expected value. -/
def amoUnit (s : State) (d a b : SReg) (lp : Bool) (f : AmoOp) : Host.Outcome State Fault Refusal :=
  let cas := decide (f = .cas)
  unit s { Need.none with sr := if cas then [a, b, d] else [a, b], sd := [d], rx := true } fun c th =>
    scalarAccess s c th (sget th a) (some (sget th a))
      { n := 8, sync := true, spad := false, wk := 3, op := .amo f (sget th b) (if cas then sget th d else 0), fl := .amo d,
        pres := 6, data := if cas then [sget th b, sget th d] else [sget th b], code := 5, reg := d.val } (lpMode lp)

def execAmoadd (d a b : SReg) (lp : Bool) (s : State) : Host.Outcome State Fault Refusal := amoUnit s d a b lp .add
def execAmoand (d a b : SReg) (lp : Bool) (s : State) : Host.Outcome State Fault Refusal := amoUnit s d a b lp .and
def execAmoor (d a b : SReg) (lp : Bool) (s : State) : Host.Outcome State Fault Refusal := amoUnit s d a b lp .or
def execAmoxor (d a b : SReg) (lp : Bool) (s : State) : Host.Outcome State Fault Refusal := amoUnit s d a b lp .xor
def execAmomin (d a b : SReg) (lp : Bool) (s : State) : Host.Outcome State Fault Refusal := amoUnit s d a b lp .min
def execAmomax (d a b : SReg) (lp : Bool) (s : State) : Host.Outcome State Fault Refusal := amoUnit s d a b lp .max
def execAmominu (d a b : SReg) (lp : Bool) (s : State) : Host.Outcome State Fault Refusal := amoUnit s d a b lp .minu
def execAmomaxu (d a b : SReg) (lp : Bool) (s : State) : Host.Outcome State Fault Refusal := amoUnit s d a b lp .maxu
def execAmoswap (d a b : SReg) (lp : Bool) (s : State) : Host.Outcome State Fault Refusal := amoUnit s d a b lp .swap
def execAmocas (d a b : SReg) (lp : Bool) (s : State) : Host.Outcome State Fault Refusal := amoUnit s d a b lp .cas

/-! ### Barrier objects (R118, R119) -/

/-- `barini` and `barexp`: the operand is s[b][30:0]. -/
def barUnit (s : State) (a b : SReg) (op : Nat → AccOp) (pres : Nat) : Host.Outcome State Fault Refusal :=
  unit s { Need.none with sr := [a, b], rx := true } fun c th =>
    scalarAccess s c th (sget th a) (some (sget th a))
      { n := 8, sync := false, spad := true, wk := 2, op := op (bits (sget th b) 0 31), fl := .storeS, pres := pres,
        data := [BitVec.ofNat 64 (bits (sget th b) 0 31)], code := 0, reg := 0 } .plain

def execBarini (a b : SReg) (s : State) : Host.Outcome State Fault Refusal := barUnit s a b .barini 7
def execBarexp (a b : SReg) (s : State) : Host.Outcome State Fault Refusal := barUnit s a b .barexp 8

def execBarwt (a b : SReg) (s : State) : Host.Outcome State Fault Refusal :=
  unit s { Need.none with sr := [a, b], rx := true } fun c th =>
    scalarAccess s c th (sget th a) (some (sget th a))
      { n := 8, sync := false, spad := true, wk := 1, op := .barwt (bit (sget th b) 0), fl := .storeS, pres := 0, data := [],
        code := 0, reg := 0 } .plain

end Sys2Proof.Machine
end

