-- ==== Sys2Proof/Machine/ClassF.lean ====
section
/-! DEFINITION. The class F functions of R245: the true result to 256 bits and more, and its two bracketing values. -/

namespace Sys2Proof.Machine

/-- Precision of the fixed-point results below, in bits after the point. -/
def fxBits : Nat := 320

def fxOne : Nat := 2 ^ fxBits

/-- 2 × atanh(p / q) for p / q below 1/2, in fixed point: the odd powers over odd numbers. -/
def atanh2 (p q : Nat) : Nat :=
  let t := p * fxOne / q
  let r := (List.range 170).foldl (fun (a : Nat × Nat) k =>
    (a.1 * p / q * p / q, a.2 + a.1 / (2 * k + 1))) (t, 0)
  2 * r.2

def fxLn2 : Nat := atanh2 1 3

/-- exp of a fixed-point number below 1, by its power series. -/
def fxExp (y : Nat) : Nat :=
  ((List.range 100).foldl (fun (a : Nat × Nat) k => (a.1 * y / fxOne / (k + 1), a.2 + a.1)) (fxOne, 0)).2

/-- 2 ^ f for a fixed-point f below 1. -/
def fxExp2 (f : Nat) : Nat := fxExp (f * fxLn2 / fxOne)

/-- ±m × 2^e times 2^k rounded down. -/
def floorAt (neg : Bool) (m : Nat) (e : Int) (k : Nat) : Int :=
  let x : Int := e + k
  let v := signed neg m
  if 0 ≤ x then v * 2 ^ x.toNat else v / (2 ^ (-x).toNat : Nat)

/-- A true value: m × 2^e exactly, or a little above it when `st`. -/
def exFrom (neg : Bool) (m : Nat) (e : Int) (st : Bool) : Ex := { v := .fin neg m e, st := st, fl := 0 }

def exRsqrt (x : FV) : Ex :=
  match x with
  | .nan _ => Ex.nan (sigFlag x)
  | .inf true => Ex.nan fNV
  | .inf false => Ex.ok (.fin false 0 0)
  | .fin s 0 _ => { v := .inf s, st := false, fl := fDZ }
  | .fin true _ _ => Ex.nan fNV
  | .fin false m e =>
    -- m × 2^e with e even
    let m' := if e % 2 = 0 then m else 2 * m
    let e' := if e % 2 = 0 then e else e - 1
    let k := fxBits + Nat.log2 m' + 2
    let r := isqrt (2 ^ (2 * k) / m')
    exFrom false r (-k - e' / 2) (decide (r * r * m' ≠ 2 ^ (2 * k)))

def exExp2 (x : FV) : Ex :=
  match x with
  | .nan _ => Ex.nan (sigFlag x)
  | .inf true => Ex.ok (.fin false 0 0)
  | .inf false => Ex.ok (.inf false)
  | .fin _ 0 _ => exFrom false 1 0 false
  | .fin s m e =>
    if 12 < (Nat.log2 m : Int) + e then exFrom false 1 (if s then -4000 else 4000) true
    else
      let t := floorAt s m e fxBits
      let n := t / (fxOne : Int)
      let f := (t % (fxOne : Int)).toNat
      let whole := decide (0 ≤ e) || decide (m % 2 ^ (-e).toNat = 0)
      if whole then exFrom false 1 n false else exFrom false (fxExp2 f) (n - fxBits) true

def exLog2 (x : FV) : Ex :=
  match x with
  | .nan _ => Ex.nan (sigFlag x)
  | .inf true => Ex.nan fNV
  | .inf false => Ex.ok (.inf false)
  | .fin _ 0 _ => { v := .inf true, st := false, fl := fDZ }
  | .fin true _ _ => Ex.nan fNV
  | .fin false m e =>
    let l := Nat.log2 m
    let n := (l : Int) + e
    if m = 2 ^ l then (if n = 0 then Ex.ok (.fin false 0 0) else exFrom (decide (n < 0)) n.natAbs 0 false)
    else
      -- log2 of m / 2^l, between 0 and 1
      let g := atanh2 (m - 2 ^ l) (m + 2 ^ l) * fxOne / fxLn2
      let t := n * (fxOne : Int) + g
      if t < 0 then exFrom true (t.natAbs - 1) (-fxBits) true else exFrom false t.toNat (-fxBits) true

def exTanh (x : FV) : Ex :=
  match x with
  | .nan _ => Ex.nan (sigFlag x)
  | .inf s => exFrom s 1 0 false
  | .fin s 0 _ => Ex.ok (.fin s 0 0)
  | .fin s m e =>
    let l := (Nat.log2 m : Int) + e
    if l < -30 then exFrom s (m * 2 ^ 64 - 1) (e - 64) true
    else if 7 < l then exFrom s (fxOne - 1) (-fxBits) true
    else
      let y := (floorAt false m (e + 1) fxBits).toNat * fxOne / fxLn2
      let g := fxExp2 (y % fxOne) * 2 ^ (y / fxOne)
      exFrom s ((g - fxOne) * fxOne / (g + fxOne)) (-fxBits) true

/-- The place of an operand in the order of its magnitudes with their signs. -/
def operandKey (et : ElemTy) (b : Nat) : Int :=
  signed (decide (b / 2 ^ (ewidth et - 1) % 2 = 1)) (b % 2 ^ (ewidth et - 1))

/-- The value is at or above twice the largest power of two of the format: overflow whatever is returned. -/
def tooLarge (et : ElemTy) (m : Nat) (e : Int) : Bool := decide ((2 ^ (efmt et).eb : Int) - 1 - (efmt et).bias ≤ (Nat.log2 m : Int) + e)

/-- A class F result (R245): correctly rounded in f16 and bf16; in f32 and f64 the lower or the upper bracketing value
(in magnitude) by the split of Config, overflow as R221; negative results of `vlog2` have a split of their own, under code
12. `code` is the function's, `b` the operand read. -/
def packF (code : Nat) (et : ElemTy) (mode : Rnd) (ftz : Bool) (b : Nat) (x : Ex) : Nat × Nat :=
  if ewidth et = 16 then pack et mode ftz none x
  else
    match x.v with
    | .fin s m e =>
      if m = 0 ∨ tooLarge et m e then pack et mode ftz none x
      else
        let lo := packMag et .rtz ftz none s m e x.st
        if lo.2 &&& fNX = 0 then lo
        else
          let split := Config.classFSplit (if code = 4 ∧ s then 12 else code) et (packMag et .rtz false none false m e x.st).1
          let key := operandKey et b
          let upper := match code with
            | 2 => decide (key ≤ split)
            | 5 => decide (split ≤ key.natAbs)
            | _ => if s then decide (key ≤ split) else decide (split ≤ key)
          let hi := packMag et (if s then .rdn else .rup) ftz none s m e x.st
          if upper = false then lo
          else if hi.2 &&& fOF ≠ 0 then (overflowTo et mode s none, fOF + fNX)
          else hi
    | _ => pack et mode ftz none x

end Sys2Proof.Machine
end

