-- ==== Sys2Proof/Machine/Vector.lean ====
section
/-! DEFINITION. The vector unit's arithmetic, logic, compares, special functions, conversions, permutations,
reductions and mask operations (R234-R248, R255). -/

namespace Sys2Proof.Machine

/-- Issues a unit that names vector registers: the first at or above VN raises the claim fault (R234). -/
def claimed (s : State) (rs : List VReg) (n : Need) (k : Cur → Thread → State) : Host.Outcome State Fault Refusal :=
  unitChecked s n
    (fun c th => (rs.find? fun r => decide (th.vn ≤ r.val)).map fun r => raise s c 0x05 0 (BitVec.ofNat 64 r.val) 0) k

/-- Elements of a type in a register. -/
def lanes (et : ElemTy) : Nat := 512 / ewidth et

def active (th : Thread) (q : VPfx) (i : Nat) : Bool := (mget th q.mask).getLsbD i

/-- The governing mask, the vector sources, and vd under merge (R237). -/
def vneed (d : VReg) (srcs : List VReg) (q : VPfx) : Need :=
  { Need.none with mr := [q.mask], vr := if q.zero then srcs else srcs ++ [d], vd := [d] }

/-- One result per element with its flags: an inactive element raises none (R237). -/
def laneResults (th : Thread) (q : VPfx) (n : Nat) (old : Nat → Nat) (f : Nat → Nat × Nat) : List (Nat × Nat) :=
  (List.range n).map fun i => if active th q i then f i else (if q.zero then 0 else old i, 0)

/-- Writes the results, or takes the arithmetic fault with nothing changed (R238). -/
def vfinish (s : State) (c : Cur) (th : Thread) (rs : List (Nat × Nat)) (lat : Nat) (w : List Nat → State → State) : State :=
  let fls := rs.map (·.2)
  let fl := orAll fls
  if trapping th fl then raiseEnd lat s c 0x16 0 (arithInfo fl (firstTrap th fls 0)) 0
  else retire (w (rs.map (·.1)) s) c lat (stick fl)

/-- An element-wise instruction on vector sources. -/
def laneUnit (s : State) (d : VReg) (srcs : List VReg) (et : ElemTy) (q : VPfx) (lat : Nat)
    (f : Thread → (Nat → Nat → Nat) → Nat → Nat × Nat) : Host.Outcome State Fault Refusal :=
  claimed s (d :: srcs) (vneed d srcs q) fun c th =>
    let w := ewidth et
    let src := fun r i => elem w (vget s th r) i
    vfinish s c th (laneResults th q (lanes et) (fun i => src d.val i) (f th src)) lat
      fun vs s => vset s th d.val (joinElems w vs)

/-! ### VA (R241, R242) -/

/-- A floating operation of two operands on encodings. -/
def flt2 (th : Thread) (q : VPfx) (et : ElemTy) (f : Rnd → FV → FV → Ex) (x y : Nat) : Nat × Nat :=
  let z := ftzOf th
  pack et (rndOf th q) z none (f (rndOf th q) (readFz et z x) (readFz et z y))

def int2 (et : ElemTy) (f : Int → Int → Int) (x y : Nat) : Nat × Nat := (wrapI (ewidth et) (f (readI et x) (readI et y)), 0)

def arith2 (s : State) (d a b : VReg) (et : ElemTy) (q : VPfx) (lat : Nat) (ff : Rnd → FV → FV → Ex)
    (fi : Nat → Nat → Nat × Nat) : Host.Outcome State Fault Refusal :=
  laneUnit s d [a, b] et q lat fun th src i =>
    if eFloat et then flt2 th q et ff (src a.val i) (src b.val i) else fi (src a.val i) (src b.val i)

def execVadd (d a b : VReg) (et : ElemTy) (q : VPfx) (s : State) : Host.Outcome State Fault Refusal :=
  arith2 s d a b et q 8 exAdd (int2 et (· + ·))

def execVsub (d a b : VReg) (et : ElemTy) (q : VPfx) (s : State) : Host.Outcome State Fault Refusal :=
  arith2 s d a b et q 8 (fun m x y => exAdd m x y.neg) (int2 et (· - ·))

def mulLat (et : ElemTy) : Nat := if et = .f64 then 16 else 8

def execVmul (d a b : VReg) (et : ElemTy) (q : VPfx) (s : State) : Host.Outcome State Fault Refusal :=
  arith2 s d a b et q (mulLat et) (fun _ x y => exMul x y) (int2 et (· * ·))

def execVmin (d a b : VReg) (et : ElemTy) (q : VPfx) (s : State) : Host.Outcome State Fault Refusal :=
  laneUnit s d [a, b] et q 8 fun th src i => minmaxElem et (ftzOf th) false (src a.val i) (src b.val i)

def execVmax (d a b : VReg) (et : ElemTy) (q : VPfx) (s : State) : Host.Outcome State Fault Refusal :=
  laneUnit s d [a, b] et q 8 fun th src i => minmaxElem et (ftzOf th) true (src a.val i) (src b.val i)

/-- `vfma` and `vfms`: c is vc, or vd where no vc is named. -/
def fmaUnit (s : State) (d a b : VReg) (et : ElemTy) (q : VPfx) (minus : Bool) : Host.Outcome State Fault Refusal :=
  let c := q.vc.getD d
  laneUnit s d (if q.vc.isSome then [a, b, c] else [a, b, d]) et q (mulLat et) fun th src i =>
    let x := src a.val i
    let y := src b.val i
    let z := src c.val i
    if eFloat et then
      let r := readFz et (ftzOf th)
      pack et (rndOf th q) (ftzOf th) none (exFma (rndOf th q) (r x) (r y) (if minus then (r z).neg else r z))
    else
      let m := readI et x * readI et y
      (wrapI (ewidth et) (if minus then m - readI et z else m + readI et z), 0)

def execVfma (d a b : VReg) (et : ElemTy) (q : VPfx) (s : State) : Host.Outcome State Fault Refusal := fmaUnit s d a b et q false
def execVfms (d a b : VReg) (et : ElemTy) (q : VPfx) (s : State) : Host.Outcome State Fault Refusal := fmaUnit s d a b et q true

/-- Integer `vdiv` (R242). -/
def divElem (et : ElemTy) (x y : Nat) : Nat × Nat :=
  if readI et y = 0 then (2 ^ ewidth et - 1, fDZ) else (wrapI (ewidth et) ((readI et x).tdiv (readI et y)), 0)

def execVdiv (d a b : VReg) (et : ElemTy) (q : VPfx) (s : State) : Host.Outcome State Fault Refusal :=
  arith2 s d a b et q 24 (fun _ x y => exDiv 64 x y) (divElem et)

/-- `vabs` and `vneg` on floating types change at most the sign bit; a NaN becomes canonical (R241, R222). -/
def signElem (et : ElemTy) (negate : Bool) (x : Nat) : Nat × Nat :=
  match readF et x with
  | .nan sig => (canonNaN et, if sig then fNV else 0)
  | _ =>
    let h := 2 ^ (ewidth et - 1)
    (if negate then (x + h) % (2 * h) else x % h, 0)

def execVabs (d a : VReg) (et : ElemTy) (q : VPfx) (s : State) : Host.Outcome State Fault Refusal :=
  laneUnit s d [a] et q 8 fun _ src i =>
    let x := src a.val i
    if eFloat et then signElem et false x else (wrapI (ewidth et) (readI et x).natAbs, 0)

def execVneg (d a : VReg) (et : ElemTy) (q : VPfx) (s : State) : Host.Outcome State Fault Refusal :=
  laneUnit s d [a] et q 8 fun _ src i =>
    let x := src a.val i
    if eFloat et then signElem et true x else (wrapI (ewidth et) (0 - readI et x), 0)

def execVmulh (d a b : VReg) (et : ElemTy) (q : VPfx) (s : State) : Host.Outcome State Fault Refusal :=
  laneUnit s d [a, b] et q 8 fun _ src i =>
    (wrapI (ewidth et) (readI et (src a.val i) * readI et (src b.val i) / 2 ^ ewidth et), 0)

/-! ### VL (R243) -/

def bitUnit (s : State) (d a b : VReg) (et : ElemTy) (q : VPfx) (f : Nat → Nat → Nat) : Host.Outcome State Fault Refusal :=
  laneUnit s d [a, b] et q 8 fun _ src i => (f (src a.val i) (src b.val i), 0)

def execVand (d a b : VReg) (et : ElemTy) (q : VPfx) (s : State) : Host.Outcome State Fault Refusal := bitUnit s d a b et q (· &&& ·)
def execVor (d a b : VReg) (et : ElemTy) (q : VPfx) (s : State) : Host.Outcome State Fault Refusal := bitUnit s d a b et q (· ||| ·)
def execVxor (d a b : VReg) (et : ElemTy) (q : VPfx) (s : State) : Host.Outcome State Fault Refusal := bitUnit s d a b et q (· ^^^ ·)
def execVandn (d a b : VReg) (et : ElemTy) (q : VPfx) (s : State) : Host.Outcome State Fault Refusal :=
  bitUnit s d a b et q fun x y => x &&& ((2 ^ ewidth et - 1) ^^^ y)
def execVshl (d a b : VReg) (et : ElemTy) (q : VPfx) (s : State) : Host.Outcome State Fault Refusal :=
  bitUnit s d a b et q fun x y => x * 2 ^ (y % ewidth et) % 2 ^ ewidth et
def execVshr (d a b : VReg) (et : ElemTy) (q : VPfx) (s : State) : Host.Outcome State Fault Refusal :=
  bitUnit s d a b et q fun x y => x / 2 ^ (y % ewidth et)
def execVsra (d a b : VReg) (et : ElemTy) (q : VPfx) (s : State) : Host.Outcome State Fault Refusal :=
  bitUnit s d a b et q fun x y => wrapI (ewidth et) (sx (ewidth et) x / (2 ^ (y % ewidth et) : Nat))

/-! ### VC (R244) -/

/-- A comparison of two elements with its flags. -/
def cmpElem (cc : Cond) (et : ElemTy) (ftz : Bool) (x y : Nat) : Bool × Nat :=
  if eFloat et then
    let a := readFz et ftz x
    let b := readFz et ftz y
    if a.isNaN || b.isNaN then
      (decide (cc = .ne), if cc = .eq ∨ cc = .ne then sigFlag a ||| sigFlag b else fNV)
    else (condHolds cc (ltF a b) (eqF a b), 0)
  else (condHolds cc (decide (readI et x < readI et y)) (decide (readI et x = readI et y)), 0)

def execVcmp (m : MReg) (cc : Cond) (a b : VReg) (et : ElemTy) (q : VPfx) (s : State) : Host.Outcome State Fault Refusal :=
  claimed s [a, b] { Need.none with mr := if q.zero then [q.mask] else [q.mask, m], vr := [a, b] } fun c th =>
    let w := ewidth et
    let old := mget th m
    vfinish s c th
      (laneResults th q (lanes et) (fun i => if old.getLsbD i then 1 else 0) fun i =>
        let r := cmpElem cc et (ftzOf th) (elem w (vget s th a.val) i) (elem w (vget s th b.val) i)
        (if r.1 then 1 else 0, r.2))
      8 fun vs s => modThread s c.uid (mset m (BitVec.ofNat 64 (joinElems 1 vs)))

/-! ### VS (R245) -/

def specialUnit (s : State) (d a : VReg) (et : ElemTy) (q : VPfx) (f : Thread → FV → Nat → Nat × Nat) :
    Host.Outcome State Fault Refusal :=
  laneUnit s d [a] et q 24 fun th src i =>
    let b := src a.val i
    f th (readFz et (ftzOf th) b) (if ftzOf th && isSub et b then 0 else b)

def execVsqrt (d a : VReg) (et : ElemTy) (q : VPfx) (s : State) : Host.Outcome State Fault Refusal :=
  specialUnit s d a et q fun th x _ => pack et (rndOf th q) (ftzOf th) none (exSqrt 64 x)

def execVrcp (d a : VReg) (et : ElemTy) (q : VPfx) (s : State) : Host.Outcome State Fault Refusal :=
  specialUnit s d a et q fun th x _ => pack et (rndOf th q) (ftzOf th) none (exDiv 64 (.fin false 1 0) x)

def execVrsqrt (d a : VReg) (et : ElemTy) (q : VPfx) (s : State) : Host.Outcome State Fault Refusal :=
  specialUnit s d a et q fun th x b => packF 2 et (rndOf th q) (ftzOf th) b (exRsqrt x)

def execVexp2 (d a : VReg) (et : ElemTy) (q : VPfx) (s : State) : Host.Outcome State Fault Refusal :=
  specialUnit s d a et q fun th x b => packF 3 et (rndOf th q) (ftzOf th) b (exExp2 x)

def execVlog2 (d a : VReg) (et : ElemTy) (q : VPfx) (s : State) : Host.Outcome State Fault Refusal :=
  specialUnit s d a et q fun th x b => packF 4 et (rndOf th q) (ftzOf th) b (exLog2 x)

def execVtanh (d a : VReg) (et : ElemTy) (q : VPfx) (s : State) : Host.Outcome State Fault Refusal :=
  specialUnit s d a et q fun th x b => packF 5 et (rndOf th q) (ftzOf th) b (exTanh x)

/-! ### VX (R246) -/

/-- Converts one element. -/
def cvtElem (dt st : ElemTy) (mode : Rnd) (ftz : Bool) (vbnd : Nat) (x : Nat) : Nat × Nat :=
  if eFloat dt then
    let v : FV := if eFloat st then readFz st ftz x else .fin (decide (readI st x < 0)) (readI st x).natAbs 0
    let bound := if narrow dt then some (boundOf dt (readF .f64 (vbnd % 2 ^ 63))) else none
    pack dt mode ftz bound { v := v, st := false, fl := sigFlag v }
  else if eFloat st then
    let r := toInt (intLo dt) (intHi dt) mode (readFz st ftz x)
    (wrapI (ewidth dt) r.1, r.2)
  else
    let v := readI st x
    if ewidth st < ewidth dt then (wrapI (ewidth dt) v, 0)
    else if v < intLo dt then (wrapI (ewidth dt) (intLo dt), fNV)
    else if intHi dt < v then (wrapI (ewidth dt) (intHi dt), fNV)
    else (wrapI (ewidth dt) v, 0)

def execVcvt (d a : VReg) (dt st : ElemTy) (q : VPfx) (s : State) : Host.Outcome State Fault Refusal :=
  claimed s [d, a] (vneed d [a] q) fun c th =>
    let n := 512 / max (ewidth st) (ewidth dt)
    vfinish s c th
      (laneResults th q n (fun i => elem (ewidth dt) (vget s th d.val) i) fun i =>
        cvtElem dt st (rndOf th q) (ftzOf th) th.vec.vbnd.toNat (elem (ewidth st) (vget s th a.val) i))
      8 fun vs s => vset s th d.val (joinElems (ewidth dt) vs)

/-! ### VP (R247, R248) -/

def execVperm (d a b : VReg) (et : ElemTy) (q : VPfx) (s : State) : Host.Outcome State Fault Refusal :=
  laneUnit s d [a, b] et q 8 fun _ src i => (src a.val (src b.val i % lanes et), 0)

/-- An element-wise instruction that also reads scalars. -/
def laneScalar (s : State) (d : VReg) (srcs : List VReg) (rs : List SReg) (et : ElemTy) (q : VPfx)
    (f : Thread → (Nat → Nat → Nat) → Nat → Nat × Nat) : Host.Outcome State Fault Refusal :=
  claimed s (d :: srcs) { vneed d srcs q with sr := rs } fun c th =>
    let src := fun r i => elem (ewidth et) (vget s th r) i
    vfinish s c th (laneResults th q (lanes et) (fun i => src d.val i) (f th src)) 8
      fun vs s => vset s th d.val (joinElems (ewidth et) vs)

def execVslide (d a : VReg) (b : SReg) (et : ElemTy) (q : VPfx) (s : State) : Host.Outcome State Fault Refusal :=
  laneScalar s d [a] [b] et q fun th src i =>
    let j := (i : Int) + (sget th b).toInt
    (if 0 ≤ j ∧ j < lanes et then src a.val j.toNat else 0, 0)

def execVbcast (d : VReg) (a : SReg) (et : ElemTy) (q : VPfx) (s : State) : Host.Outcome State Fault Refusal :=
  laneScalar s d [] [a] et q fun th _ _ => (bits (sget th a) 0 (ewidth et), 0)

/-- j = k mod n in the non-negative sense (R5). -/
def laneOf (et : ElemTy) (k : Word) : Nat := (k.toInt % (lanes et : Int)).toNat

def execVextr (d : SReg) (a : VReg) (b : SReg) (et : ElemTy) (q : VPfx) (s : State) : Host.Outcome State Fault Refusal :=
  claimed s [a] { Need.none with sr := [b], sd := [d], mr := [q.mask], vr := [a] } fun c th =>
    let j := laneOf et (sget th b)
    let x := elem (ewidth et) (vget s th a.val) j
    let v : Int := if et.code < 4 then sx (ewidth et) x else x
    retire s c 8 (if active th q j then sset d (BitVec.ofInt 64 v) else if q.zero then sset d 0 else id)

def execVins (d : VReg) (a b : SReg) (et : ElemTy) (q : VPfx) (s : State) : Host.Outcome State Fault Refusal :=
  claimed s [d] { Need.none with sr := [a, b], mr := [q.mask], vr := [d] } fun c th =>
    let w := ewidth et
    let j := laneOf et (sget th b)
    let vs := (List.range (lanes et)).map fun i =>
      if i = j ∧ active th q j then bits (sget th a) 0 w else elem w (vget s th d.val) i
    retire (vset s th d.val (joinElems w vs)) c 8 id

/-- One stage of the tree: lane i with lane i + s. -/
def redStage (op : Nat → Nat → Nat × Nat) (l : List Nat) : List (Nat × Nat) :=
  let h := l.length / 2
  (l.take h).zipWith op (l.drop h)

/-- The tree of R231 over a power of two of elements. -/
def redTree (op : Nat → Nat → Nat × Nat) : Nat → List Nat → Nat → Nat × Nat
  | 0, l, fl => (l.headD 0, fl)
  | k + 1, l, fl =>
    let r := redStage op l
    redTree op k (r.map (·.1)) (fl ||| orAll (r.map (·.2)))

/-- The identity of a reduction (R231): sum 0, maximum 1, minimum 2. -/
def redIdentity (et : ElemTy) (kind : Nat) : Nat :=
  match kind with
  | 0 => if eFloat et then signBit et true else 0
  | 1 => if eFloat et then encInf et true else wrapI (ewidth et) (intLo et)
  | _ => if eFloat et then encInf et false else wrapI (ewidth et) (intHi et)

def redUnit (s : State) (d a : VReg) (et : ElemTy) (q : VPfx) (kind : Nat) (op : Thread → Nat → Nat → Nat × Nat) :
    Host.Outcome State Fault Refusal :=
  claimed s [d, a] { Need.none with mr := [q.mask], vr := [a], vd := [d] } fun c th =>
    let w := ewidth et
    let l := (List.range (lanes et)).map fun i =>
      if active th q i then elem w (vget s th a.val) i else redIdentity et kind
    let r := redTree (op th) (Nat.log2 (lanes et)) l 0
    vfinish s c th [r] 8 fun vs s => vset s th d.val (joinElems w vs)

def execVredsum (d a : VReg) (et : ElemTy) (q : VPfx) (s : State) : Host.Outcome State Fault Refusal :=
  redUnit s d a et q 0 fun th x y => addElem et (rndOf th q) (ftzOf th) x y

def execVredmax (d a : VReg) (et : ElemTy) (q : VPfx) (s : State) : Host.Outcome State Fault Refusal :=
  redUnit s d a et q 1 fun th x y => minmaxElem et (ftzOf th) true x y

def execVredmin (d a : VReg) (et : ElemTy) (q : VPfx) (s : State) : Host.Outcome State Fault Refusal :=
  redUnit s d a et q 2 fun th x y => minmaxElem et (ftzOf th) false x y

/-! ### VK (R255) -/

/-- A mask result where q is set; elsewhere the old bit, or 0 under zero. -/
def maskMix (th : Thread) (d : MReg) (q : VPfx) (v : Word) : Word :=
  let m := mget th q.mask
  (v &&& m) ||| (if q.zero then 0 else mget th d &&& ~~~m)

def maskUnit (s : State) (d : MReg) (ms : List MReg) (rs : List SReg) (q : VPfx) (f : Thread → Word) : Host.Outcome State Fault Refusal :=
  unit s { Need.none with sr := rs, mr := q.mask :: (if q.zero then ms else ms ++ [d]) } fun c th =>
    retire s c 8 (mset d (maskMix th d q (f th)))

def execMand (d a b : MReg) (q : VPfx) (s : State) : Host.Outcome State Fault Refusal :=
  maskUnit s d [a, b] [] q fun th => mget th a &&& mget th b
def execMor (d a b : MReg) (q : VPfx) (s : State) : Host.Outcome State Fault Refusal :=
  maskUnit s d [a, b] [] q fun th => mget th a ||| mget th b
def execMxor (d a b : MReg) (q : VPfx) (s : State) : Host.Outcome State Fault Refusal :=
  maskUnit s d [a, b] [] q fun th => mget th a ^^^ mget th b
def execMnot (d a : MReg) (q : VPfx) (s : State) : Host.Outcome State Fault Refusal :=
  maskUnit s d [a] [] q fun th => ~~~mget th a
def execMset (d : MReg) (a : SReg) (q : VPfx) (s : State) : Host.Outcome State Fault Refusal :=
  maskUnit s d [] [a] q fun th => sget th a

/-- The forms that write a scalar from ma AND q. -/
def maskRead (s : State) (d : SReg) (a : MReg) (q : VPfx) (f : Word → Nat) : Host.Outcome State Fault Refusal :=
  unit s { Need.none with sd := [d], mr := [q.mask, a] } fun c th =>
    retire s c 8 (sset d (BitVec.ofNat 64 (f (mget th a &&& mget th q.mask))))

/-- Ones among bits 0 to n - 1. -/
def onesTo (w : Word) : Nat → Nat
  | 0 => 0
  | n + 1 => onesTo w n + (if w.getLsbD n then 1 else 0)

def execMpop (d : SReg) (a : MReg) (q : VPfx) (s : State) : Host.Outcome State Fault Refusal :=
  maskRead s d a q fun w => onesTo w 64
def execMfirst (d : SReg) (a : MReg) (q : VPfx) (s : State) : Host.Outcome State Fault Refusal :=
  maskRead s d a q fun w => ((List.range 64).find? fun i => w.getLsbD i).getD 64
def execMget (d : SReg) (a : MReg) (q : VPfx) (s : State) : Host.Outcome State Fault Refusal :=
  maskRead s d a q fun w => w.toNat

end Sys2Proof.Machine
end

