-- ==== Sys2Proof/Machine/VecMem.lean ====
section
/-! DEFINITION. Vector loads and stores (R249-R254) and the accumulator moves (R300, R301, R307). -/

namespace Sys2Proof.Machine

/-- The pointers of a unit's active parts, from the resume count on; a pointer outside the offset range is none. -/
abbrev Parts := List (Nat × Option Ptr)

/-- The issue checks of the parts in order (R250): the first failure with its pointer. `sync` forbids the host window. -/
def checkParts (s : State) (th : Thread) (base : Word) (n : Nat) (sync : Bool) (ps : Parts) : Option (Nat × Nat × Word) :=
  ps.findSome? fun x =>
    match x.2 with
    | none => some (0x08, 3, base)
    | some p => (checkPtr s th p n sync false).map fun f => (f.1, f.2, p)

/-- The watchpoint that the first of the parts hits (R398). -/
def watchParts (s : State) (th : Thread) (wk : Nat) (ps : Parts) : Option (Word × Word) :=
  ps.findSome? fun x => match x.2 with | some p => (watchHit s th p wk).map fun i => (p, i) | none => none

/-- Consecutive parts that reach one destination router (R251). -/
def runsOf (s : State) (partn : Nat) : List PartReq → List (List PartReq)
  | [] => []
  | q :: t =>
    let dest := fun (x : PartReq) => (placeOf s partn x.ptr).map fun pl => (routerOf s pl).1
    match runsOf s partn t with
    | [] => [[q]]
    | [] :: rs => [q] :: rs
    | (x :: r) :: rs => if dest q = dest x then (q :: x :: r) :: rs else [q] :: (x :: r) :: rs

/-- A vector access from its base pointer on. -/
structure VAcc where
  rx    : Bool
  align : Nat
  sync  : Bool
  wk    : Nat
  pres  : Nat
  data  : List Word
  fl    : FlOp
  parts : Nat
  deriving DecidableEq, Repr, Inhabited

/-- Checks, comparator, meter and sending of a vector access (R250, R251, R253, R254). `reqs` are its parts with what
they do; `none` is the state after a unit with no active part. -/
def vecAccess (s : State) (c : Cur) (th : Thread) (base : Word) (x : VAcc) (ps : Parts) (reqs : List PartReq) (ch : Nat)
    (empty : State) (sent : Thread → State → State) : State :=
  let l := limitsOf s th.partn base
  if l ≠ 0 then raise s c 0x08 base (BitVec.ofNat 64 l) th.resume
  else if x.sync ∧ pKind base = 5 then raise s c 0x08 base 4 th.resume
  else if pKind base = 6 ∧ th.sup = false then raise s c 0x04 base 0 th.resume
  else
    match checkParts s th base x.align x.sync ps with
    | some (cause, info, p) => raise s c cause p (BitVec.ofNat 64 info) th.resume
    | none =>
      match watchParts s th x.wk ps with
      | some (p, i) => raise s c 0x18 p i th.resume
      | none =>
        if reqs.isEmpty then empty
        else
          let runs := if x.wk = 1 then [reqs] else runsOf s th.partn reqs
          let go := fun (st : State) =>
            metered st c th base ch th.resume fun s1 => sent th (startFlight s1 c th x.rx x.fl x.parts ch runs)
          if x.pres = 0 then lvRoom s c th (go s)
          else gate s c th { kind := x.pres, ptr := base, width := x.align, data := x.data } go

/-- The charge of one access through a checked pointer. -/
def partCharge (s : State) (th : Thread) (k : Nat) (ps : Parts) : Nat :=
  ps.foldl (fun a x => match x.2 with | some p => a + charge s th.partn th.tile p k | none => a) 0

/-- Word i of a vector value. -/
def vword (v i : Nat) : Word := BitVec.ofNat 64 (elem 64 v i)

/-- Bit e of the mask governs element e; a word of a line is active if an element in it is (R250). -/
def lineActive (th : Thread) (q : VPfx) (et : ElemTy) (i : Nat) : Bool :=
  let k := 64 / ewidth et
  (List.range k).any fun j => active th q (i * k + j)

/-- The bytes of the active elements of word i. -/
def lineBytes (th : Thread) (q : VPfx) (et : ElemTy) (i : Nat) : Nat :=
  let k := 64 / ewidth et
  let b := ewidth et / 8
  (List.range k).foldl (fun a j => a + (if active th q (i * k + j) then byteMask (j * b) b else 0)) 0

/-- vt as a load without an active part leaves it: the elements of the parts from `first` on, `pw` bits each, follow the
policy; those before it were performed in an earlier run (R154). -/
def vpolicy (s : State) (th : Thread) (t : VReg) (w pw first : Nat) (q : VPfx) : State :=
  vset s th t.val (joinElems w ((List.range (512 / w)).map fun i =>
    if q.zero ∧ first ≤ i * w / pw then 0 else elem w (vget s th t.val) i))

/-- A relaxed load empties vt at issue (R253). -/
def emptied (rx : Bool) (t : VReg) (before : State) (th : Thread) (s : State) : State :=
  if rx && decide (s.nextId ≠ before.nextId) then vmark s th t.val true else s

/-- Words of a 64-byte access: the first carries the bits of the access. -/
def lineReqs (l : List (Nat × Ptr × AccOp)) (kb : Nat) : List PartReq :=
  match l with
  | [] => []
  | (i, p, o) :: t =>
    { part := i, ptr := p, op := o, line := some kb } :: t.map fun x => { part := x.1, ptr := x.2.1, op := x.2.2, line := some 0 }

/-- `vld` and `vst`: eight words of one line. What a `vst` presents to the comparator is its mask and all eight words,
inactive elements too (DESIGN CHOICE, log 95). -/
def lineUnit (s : State) (t : VReg) (a : SReg) (et : ElemTy) (rx : Bool) (q : VPfx) (load : Bool) :
    Host.Outcome State Fault Refusal :=
  let n := if load then vneed t [] q else { Need.none with mr := [q.mask], vr := [t] }
  claimed s [t] { n with sr := [a], rx := !rx } fun c th =>
    relaxedRoom s c th rx
      (let p := sget th a
       let acts := (List.range 8).filter fun i => decide (th.resume ≤ i) && lineActive th q et i
       let ps : Parts := acts.map fun i => (i, addOff p (8 * i))
       let v := vget s th t.val
       -- the alignment is the line's (R250); the check of a part is made on the line's base for it
       let mis := decide (pOff p % 64 ≠ 0) && !acts.isEmpty
       let reqs := lineReqs (ps.filterMap fun x => x.2.map fun y =>
         (x.1, y, if load then AccOp.load 8 else .storeBytes (lineBytes th q et x.1) (vword v x.1))) (kindBits (if load then 2 else 3))
       let fl := if load then FlOp.vload t (ewidth et) 64 (mget th q.mask) q.zero else .vstore
       let x : VAcc := { rx := rx, align := if mis then 64 else 8, sync := false, wk := if load then 1 else 2,
                         pres := if load then 0 else 9, data := if load then [] else mget th q.mask :: (List.range 8).map (vword v),
                         fl := fl, parts := 8 }
       if mis ∧ limitsOf s th.partn p = 0 ∧ (pKind p ≠ 6 ∨ th.sup) then
         let first := (ps.head?.bind (·.2)).getD p
         if ps.head?.any (fun x => x.2.isNone) then raise s c 0x08 p 3 th.resume
         else if limitsOf s th.partn first ≠ 0 then raise s c 0x08 first (BitVec.ofNat 64 (limitsOf s th.partn first)) th.resume
         else raise s c 0x07 first 64 th.resume
       else
         vecAccess s c th p x ps reqs (charge s th.partn th.tile p (if load then 2 else 3))
           (retire (if load then vpolicy s th t (ewidth et) 64 th.resume q else s) c 8 id)
           fun th s1 => if load then emptied rx t s th s1 else s1)

def execVld (t : VReg) (a : SReg) (et : ElemTy) (rx : Bool) (q : VPfx) (s : State) : Host.Outcome State Fault Refusal :=
  lineUnit s t a et rx q true

def execVst (t : VReg) (a : SReg) (et : ElemTy) (rx : Bool) (q : VPfx) (s : State) : Host.Outcome State Fault Refusal :=
  lineUnit s t a et rx q false

/-- The strided and indexed forms (R250): element i through its own pointer. `kind` 0 load, 1 store, 2 addition. -/
def elemUnit (s : State) (rs : List VReg) (t : VReg) (srs : List SReg) (a : SReg) (w : Nat) (rx : Bool) (q : VPfx) (kind : Nat)
    (et : ElemTy) (ptr : State → Thread → Nat → Option Ptr) : Host.Outcome State Fault Refusal :=
  let load := decide (kind = 0)
  let n := if load then vneed t (rs.erase t) q else { Need.none with mr := [q.mask], vr := rs }
  claimed s rs { n with sr := srs, rx := !rx } fun c th =>
    relaxedRoom s c th rx
      (let p := sget th a
       let v := vget s th t.val
       let ps : Parts := ((List.range (512 / w)).filter fun i => decide (th.resume ≤ i) && active th q i).map fun i => (i, ptr s th i)
       let value := fun i => BitVec.ofNat 64 (elem w v i)
       let op := fun i => match kind with
         | 0 => AccOp.load (w / 8)
         | 1 => .store (w / 8) (value i)
         | _ => .addElem (w / 8) et (value i) (rndOf th q) (ftzOf th)
       let reqs : List PartReq := ps.filterMap fun x => x.2.map fun y => { part := x.1, ptr := y, op := op x.1, line := none }
       let fl := if load then FlOp.vload t w w (mget th q.mask) q.zero else .vstore
       let x : VAcc := { rx := rx, align := w / 8, sync := decide (kind = 2), wk := match kind with | 0 => 1 | 1 => 2 | _ => 3,
                         pres := match kind with | 0 => 0 | 1 => 10 | _ => 11,
                         data := if load then [] else reqs.flatMap fun r => [r.ptr, value r.part], fl := fl, parts := 512 / w }
       let k := match kind with | 0 => 0 | 1 => 1 | _ => 5
       vecAccess s c th p x ps reqs (partCharge s th k ps)
         (retire (if load then vpolicy s th t w w th.resume q else s) c 8 id)
         fun th s1 => if load then emptied rx t s th s1 else s1)

/-- Width of a strided form. -/
def strideBits (w : Fin 4) : Nat := 8 * 2 ^ w.val

def stridePtr (a b : SReg) (_ : State) (th : Thread) (i : Nat) : Option Ptr := addOff (sget th a) (i * (sget th b).toInt)

def indexPtr (a : SReg) (vi : VReg) (w : Nat) (s : State) (th : Thread) (i : Nat) : Option Ptr :=
  addOff (sget th a) ((elem w (vget s th vi.val) i * (w / 8) : Nat) : Int)

def execVlds (t : VReg) (w : Fin 4) (a b : SReg) (rx : Bool) (q : VPfx) (s : State) : Host.Outcome State Fault Refusal :=
  elemUnit s [t] t [a, b] a (strideBits w) rx q 0 .n8 (stridePtr a b)

def execVsts (t : VReg) (w : Fin 4) (a b : SReg) (rx : Bool) (q : VPfx) (s : State) : Host.Outcome State Fault Refusal :=
  elemUnit s [t] t [a, b] a (strideBits w) rx q 1 .n8 (stridePtr a b)

/-- `vldx` with vt = vi is the operand-overlap fault (R155). -/
def execVldx (t i : VReg) (a : SReg) (et : ElemTy) (rx : Bool) (q : VPfx) (s : State) : Host.Outcome State Fault Refusal :=
  if t = i then
    claimed s [t, i] { Need.none with sr := [a], rx := !rx } fun c _ =>
      raise s c 0x06 0 (BitVec.ofNat 64 (t.val + i.val * 256)) 0
  else elemUnit s [t, i] t [a] a (ewidth et) rx q 0 et (indexPtr a i (ewidth et))

def execVstx (t i : VReg) (a : SReg) (et : ElemTy) (rx : Bool) (q : VPfx) (s : State) : Host.Outcome State Fault Refusal :=
  elemUnit s [t, i] t [a] a (ewidth et) rx q 1 et (indexPtr a i (ewidth et))

def execVstxa (t i : VReg) (a : SReg) (et : ElemTy) (rx : Bool) (q : VPfx) (s : State) : Host.Outcome State Fault Refusal :=
  elemUnit s [t, i] t [a] a (ewidth et) rx q 2 et (indexPtr a i (ewidth et))

/-! ### `amov` and `aput` (R300, R301) -/

/-- Key of a byte of a core's accumulator region (R282, R285). -/
def accKey (tile off : Nat) : Nat := tile * 32768 + off

/-- Jobs that touch the region: MMA, MZERO, MSTORE. -/
def touchesAcc (j : Job) : Bool := let o := bits j.w3 56 8; decide (o = 1) || decide (o = 2) || decide (o = 4)

/-- The jobs of a core that an accumulator move joins: those enqueued before this cycle. -/
def accJobs (s : State) (tile : Nat) : List Nat :=
  let m := (clusterAt s (clusterOfTile tile)).mxe
  let run := match m.run with | some r => if r.job.tile = tile then [r.job] else [] | none => []
  ((run ++ lookD m.queues (coreInCluster tile) []).filter fun j => touchesAcc j && decide (j.enq < s.cycle)).map (·.jid)

/-- Bit w of the governing mask. -/
def wordOn (th : Thread) (q : VPfx) (w : Nat) : Bool := (mget th q.mask).getLsbD w

/-- `amov`: what vt becomes from the words of the region. -/
def amovValue (s : State) (th : Thread) (t : VReg) (q : VPfx) (ws : List Word) : Nat :=
  joinElems 64 ((List.range 8).map fun w =>
    if wordOn th q w then (ws.getD w 0).toNat else if q.zero then 0 else elem 64 (vget s th t.val) w)

def accWords (s : State) (tile o : Nat) : List Word := (List.range 8).map fun w => memWord s.acc (accKey tile (o + 8 * w))

/-- `aput`: the words of vt whose mask bit is set go to the region. -/
def aputWords (s : State) (th : Thread) (t : VReg) (o : Nat) (q : VPfx) : State :=
  { s with acc := (List.range 8).foldl (fun m w =>
      if wordOn th q w then memPutWord m (accKey th.tile (o + 8 * w)) (vword (vget s th t.val) w) else m) s.acc }

/-- The move itself, ready 16 cycles later (R300); an `amov` of a leading thread enters its words (R307). -/
def accMove (s : State) (u : Nat) (th : Thread) (put : Bool) (t : VReg) (o : Nat) (q : VPfx) (npc : Ptr) (ready : Nat) : State :=
  let fin := fun (st : State) => modThread st u fun x => unitOver npc ready x
  if put then fin (if th.role = 2 then s else aputWords s th t o q)
  else
    let ws := accWords s th.tile o
    fin (lvEnter (vset s th t.val (amovValue s th t q ws)) u th (.vals ws))

def accUnit (s : State) (t : VReg) (a : SReg) (q : VPfx) (put : Bool) : Host.Outcome State Fault Refusal :=
  let n := if put then { Need.none with mr := [q.mask], vr := [t] } else vneed t [] q
  claimed s [t] { n with sr := [a] } fun c th =>
    let o := (sget th a).toNat
    if o % 64 ≠ 0 then raise s c 0x07 (sget th a) 64 0
    else if 0x7FC0 < o then raise s c 0x08 (sget th a) 3 0
    else
      let go := fun (st : State) =>
        match accJobs st th.tile with
        | [] => accMove (issued st c) c.uid th put t o q c.npc (st.cycle + c.fx + 16)
        | js => waitUnit st c (.amov put t o q c.npc js st.cycle)
      if put then
        gate s c th { kind := 12, ptr := sget th a, width := 64, data := mget th q.mask :: (List.range 8).map (vword (vget s th t.val)) }
          fun st => if th.role = 2 then retire st c 16 id else go st
      else if th.role = 2 then
        lvShare s c th (fun st => (st, accWords st th.tile o)) fun ws st =>
          retire (vset st th t.val (amovValue st th t q ws)) c 16 id
      else lvRoom s c th (go s)

def execAmov (t : VReg) (a : SReg) (q : VPfx) (s : State) : Host.Outcome State Fault Refusal := accUnit s t a q false
def execAput (t : VReg) (a : SReg) (q : VPfx) (s : State) : Host.Outcome State Fault Refusal := accUnit s t a q true

/-- The issue cycle of an accumulator move that waits. -/
def accSince (s : State) (u : Nat) : Nat :=
  match threadOf s u with
  | some th => match th.wait with | .amov _ _ _ _ _ _ c => c | _ => 0
  | none => 0

/-- A job has left the engine idle: the moves that waited for it alone are made, in the order of their issue (R300, R301). -/
def accJoin (s : State) (jid : Nat) : State :=
  forEach (sortOn (accSince s) (threadsWhere s fun _ th => match th.wait with | .amov _ _ _ _ _ js _ => decide (jid ∈ js) | _ => false))
    (fun s u =>
      match threadOf s u with
      | none => s
      | some th =>
        match th.wait with
        | .amov put t o q npc js since =>
          let rest := js.erase jid
          if rest.isEmpty then accMove s u th put t o q npc (s.cycle + 16)
          else modThread s u fun x => { x with wait := .amov put t o q npc rest since }
        | _ => s) s

end Sys2Proof.Machine
end

