-- ==== Sys2Proof/Machine/Engine.lean ====
section
/-! DEFINITION. What the matrix engine and the copy unit share: queues and turns (R283, R284, R319), engine reads and
deliveries (R294, R297, R321, R323), the barrier-object addition, the status word (R47, R117) and the posting of page
faults (R298). -/

namespace Sys2Proof.Machine

/-! ### Command words (R42-R44) -/

def cmdOpcode (j : Job) : Nat := bits j.w3 56 8
def cmdBarsel (j : Job) : Nat := bits j.w3 40 8
def cmdFlag (j : Job) (i : Nat) : Bool := bit j.w3 (48 + i)

/-- The command word as one number of 256 bits. -/
def cmdNat (j : Job) : Nat := j.w0.toNat + j.w1.toNat * 2 ^ 64 + j.w2.toNat * 2 ^ 128 + j.w3.toNat * 2 ^ 192

/-- Field [lo + n - 1 : lo] of a command word. -/
def cmdField (j : Job) (lo n : Nat) : Nat := cmdNat j / 2 ^ lo % 2 ^ n

/-! ### Reads of an engine -/

/-- The valid rectangle that a poisoned word lies in: that of its tile, or for a word of tier one or two that of the
pushing core (DEDUCED, log 23). -/
def wordRect (s : State) (j : Job) (k : Nat) : Option Nat :=
  rectAt s j.partn (if k < 2 ^ 40 then k / 2 ^ 20 else j.tile) false

/-- The event of a poisoned word. -/
def poisonEv (s : State) (j : Job) (k reason : Nat) : JobEv :=
  match wordRect s j k with
  | some r => { status := 6, reason := reason, page := none, rect := some r }
  | none => { status := 5, reason := 6, page := none, rect := none }

/-- The event of a failed access (R297, R323). -/
def hwEv (p : Ptr) (cause info : Nat) (host : Bool) (reason : Nat) : JobEv :=
  if cause = 0x09 then { status := 4, reason := reason, page := some (p, info + 256, host), rect := none }
  else if cause = 0x0A then { status := 5, reason := 0x00A, page := none, rect := none }
  else if cause = 0x08 ∧ info = 6 then { status := 6, reason := reason, page := none, rect := none }
  else { status := 5, reason := reason, page := none, rect := none }

/-- The event of an access that a peer device refuses; a page fault there has FINFO[9] = 1 (R323). -/
def peerEv (p : Ptr) (a : Nat × Nat × Bool) (reason : Nat) : JobEv :=
  if a.1 = 0x09 then { status := 4, reason := reason, page := some (p, a.2.1 % 256 + 256 + 512, a.2.2), rect := none }
  else if a.1 = 0x1C then { status := 5, reason := 6, page := none, rect := none }
  else hwEv p a.1 a.2.1 a.2.2 reason

/-- Whether the skip flag passes over an event: all but poison, fencing and link loss (R330). -/
def skippable (e : JobEv) : Bool := decide (e.status = 4) || (decide (e.status = 5) && decide (e.reason ≠ 6))

def badOperand (reason : Nat) : JobEv := { status := 5, reason := reason, page := none, rect := none }

/-- The word that holds an address, read plainly. -/
def engWord (s : State) (j : Job) (reason : Nat) (p : Ptr) : State × (JobEv ⊕ Word) :=
  match hwKey s j.partn p false false with
  | (s1, .bad c i h) => (s1, .inl (hwEv p c i h reason))
  | (s1, .ok k) =>
    let w := k / 8 * 8
    if wordPois s1 w then (s1, .inl (poisonEv s1 j w reason)) else (s1, .inr (wordAt s1 w))

/-- n bytes at an n-aligned address. -/
def engBytes (s : State) (j : Job) (reason : Nat) (p : Ptr) (n : Nat) : State × (JobEv ⊕ Nat) :=
  match engWord s j reason p with
  | (s1, .inr w) => (s1, .inr (bits w (8 * (pOff p % 8)) (8 * n)))
  | (s1, .inl e) => (s1, .inl e)

/-- The value at base + d bytes; outside the offset range the operand's failure (R323). -/
def engAt (s : State) (j : Job) (reason : Nat) (base : Ptr) (d : Int) (n : Nat) : State × (JobEv ⊕ Nat) :=
  match addOff base d with
  | none => (s, .inl (badOperand reason))
  | some p => engBytes s j reason p n

/-- Four words of a record. -/
def engRecord (s : State) (j : Job) (reason : Nat) (p : Ptr) : State × (JobEv ⊕ List Word) :=
  (List.range 4).foldl (fun a (i : Nat) =>
    match a.2 with
    | .inl _ => a
    | .inr l =>
      match engAt a.1 j reason p (8 * i) 8 with
      | (s1, .inr v) => (s1, .inr (l ++ [BitVec.ofNat 64 v]))
      | (s1, .inl e) => (s1, .inl e)) (s, .inr [])

/-- Reads a list of values in order, up to the first failure: what was read before it, and the failure. -/
def engMap {α β : Type} (f : State → α → State × (JobEv ⊕ β)) (l : List α) (s : State) : State × List β × Option JobEv :=
  let r := l.foldl (fun (a : State × List β × Option JobEv) x =>
    match a.2.2 with
    | some _ => a
    | none =>
      match f a.1 x with
      | (s1, .inr v) => (s1, v :: a.2.1, none)
      | (s1, .inl e) => (s1, a.2.1, some e)) (s, [], none)
  (r.1, r.2.1.reverse, r.2.2)

/-! ### Places, times and charges (R291, R299, R320, R326) -/

/-- A number for a place, the same for every word that lies there. -/
def placeId : Place → Nat
  | .spad t _ => t
  | .chan c _ => 4096 + c
  | .tier2 c _ => 4160 + c
  | .host _ => 4200
  | .tileCtrl t _ => 4300 + t
  | .devCtrl u _ => 8400 + u

/-- A byte range cut at 4 KiB boundaries of the offset, so that each piece has one place (R171). -/
def pieces : Nat → Ptr → Nat → List (Ptr × Nat)
  | 0, _, _ => []
  | k + 1, p, n =>
    let m := min n (4096 - pOff p % 4096)
    if n = 0 then [] else (p, m) :: pieces k (offBy p m) (n - m)

def rangePieces (p : Ptr) (n : Nat) : List (Ptr × Nat) := pieces (n / 4096 + 2) p n

/-- Bytes by place of a list of ranges. -/
def bytesByPlace (s : State) (partn : Nat) (l : List (Ptr × Nat)) : AMap Nat :=
  (l.flatMap fun x => rangePieces x.1 x.2).foldl (fun (m : AMap Nat) x =>
    if limitsOf s partn x.1 ≠ 0 then m
    else match placeOf s partn x.1 with
      | some pl => ins m (placeId pl) (lookD m (placeId pl) 0 + x.2)
      | none => m) []

/-- The largest latency of an 8-byte access from a tile over the places of a list of ranges (R79). -/
def worstLat (s : State) (partn tile : Nat) (l : List (Ptr × Nat)) : Nat :=
  (l.flatMap fun x => rangePieces x.1 x.2).foldl (fun a x =>
    if limitsOf s partn x.1 ≠ 0 then a else max a (loadLat s partn tile x.1)) 0

/-- The 64-byte aligned lines that a range overlaps, up to the last offset (R299). -/
def linesOf (p : Ptr) (n : Nat) : List Ptr :=
  if n = 0 then []
  else
    let a := pOff p / 64
    (List.range ((min (pOff p + n) (2 ^ 46) - 1) / 64 - a + 1)).map fun i => withOff p ((a + i) * 64)

/-- The range of `n` bytes at a displacement from a pointer; one that starts past the last offset is charged 0 (R299). -/
def rangeAt (p : Ptr) (d n : Nat) : List (Ptr × Nat) := if n = 0 ∨ 2 ^ 46 ≤ pOff p + d then [] else [(withOff p (pOff p + d), n)]

/-- The lines of one group of ranges, each once. -/
def groupLines (l : List (Ptr × Nat)) : List Ptr :=
  (l.flatMap fun x => linesOf x.1 x.2).foldl (fun a p => if p ∈ a then a else a ++ [p]) []

/-- A place that a plain read reaches: its pointer keeps the limits, a valid leaf maps it, its block is present and it is
not fenced (R299). -/
def reachable (s : State) (partn : Nat) (p : Ptr) : Bool := match (hwKey s partn p false false).2 with | .ok _ => true | .bad _ _ _ => false

/-- The charge of lines from the pushing core; a line that breaks a limit or cannot be read is charged 0 (R299). -/
def linesCharge (s : State) (partn tile k : Nat) (l : List Ptr) : Nat :=
  l.foldl (fun a p => if reachable s partn p then a + charge s partn tile p k else a) 0

def groupsCharge (s : State) (partn tile k : Nat) (gs : List (List (Ptr × Nat))) : Nat :=
  gs.foldl (fun a g => a + linesCharge s partn tile k (groupLines g)) 0

/-! ### Deliveries -/

/-- Adds lane by lane (R331): integers wrap, floating lanes round by RNE. -/
def addLanes (et : ElemTy) (old v : Word) : Word :=
  let w := ewidth et
  BitVec.ofNat 64 (joinElems w ((List.range (64 / w)).map fun i =>
    (addElem et .rne false (elem w old.toNat i) (elem w v.toNat i)).1))

/-- A word sent to a peer device, which answers for it (R324). -/
def peerDeliver (s : State) (reason : Nat) (p : Ptr) (m : OutMsg) : State × Option JobEv :=
  (freshFree { s with outbox := s.outbox ++ [m] }, (Config.peerAnswer s.fresh).map fun a => peerEv p a reason)

/-- Delivers one word at its home, or the event that stops it; `reason` names the destination. -/
def deliverWord (s : State) (j : Job) (reason : Nat) (d : Deliv) : State × Option JobEv :=
  match d.kind with
  | .pass => (s, none)
  | .peer n => peerDeliver s reason d.ptr (.peerStore n d.ptr d.val)
  | .peerAdd n et => peerDeliver s reason d.ptr (.peerAdd n d.ptr d.val et)
  | kind =>
    match hwKey s j.partn d.ptr true false with
    | (s1, .bad c i h) => (s1, some (hwEv d.ptr c i h reason))
    | (s1, .ok k0) =>
      let k := k0 / 8 * 8
      match kind with
      | .bytes mask =>
        if mask ≠ 255 ∧ wordPois s1 k then (s1, some (poisonEv s1 j k 6))
        else (writeWord s1 k (mixBytes (wordAt s1 k) d.val mask) true, none)
      | .addLanes et =>
        if wordPois s1 k then (s1, some (poisonEv s1 j k reason))
        else (writeWord s1 k (addLanes et (wordAt s1 k) d.val) true, none)
      | _ => (writeWord s1 k d.val true, none)

/-- What a run of deliveries came to: bytes for the barrier object, elements, charge, an element skipped, the event; `got`
are the bytes by position, the last first. -/
structure Delivered where
  st : State
  bytes : Nat
  elems : Nat
  got : List (Nat × Nat)
  charge : Nat
  skipped : Bool
  ev : Option JobEv

/-- Zeroes accumulator bytes of a core (R294). -/
def accClear (tile : Nat) (l : List (Nat × Nat)) (s : State) : State :=
  { s with acc := l.foldl (fun m x => memWrite m (accKey tile x.1) 0 x.2) s.acc }

/-- Whether no word of an element meets an event that the skip flag passes over (R330). -/
def canDeliver (s : State) (j : Job) (ds : List Deliv) : Bool :=
  let served := fun (i : Nat) => match Config.peerAnswer (s.fresh + i) with | some a => !skippable (peerEv 0 a 2) | none => true
  ds.zipIdx.all fun x =>
    match x.1.kind with
    | .pass => true
    | .peer _ => served x.2
    | .peerAdd _ _ => served x.2
    | _ => match (hwKey s j.partn x.1.ptr true false).2 with
      | .ok _ => true
      | .bad c i _ => decide (c = 0x08 ∧ i = 6)

/-- The elements of a list of deliveries. -/
def byElem : List Deliv → List (List Deliv)
  | [] => []
  | d :: t =>
    match byElem t with
    | (e :: r) :: l => if e.pos = d.pos then (d :: e :: r) :: l else [d] :: (e :: r) :: l
    | l => [d] :: l

/-- Bytes delivered at a position join those before them. -/
def gotBytes (pos n : Nat) : List (Nat × Nat) → List (Nat × Nat)
  | (p, m) :: l => if p = pos then (p, m + n) :: l else (pos, n) :: (p, m) :: l
  | [] => [(pos, n)]

/-- One delivery of an element that is not passed over. -/
def deliverOne (j : Job) (reason : Nat) (a : Delivered) (d : Deliv) : Delivered :=
  if a.ev.isSome then a
  else
    let c := a.charge + d.rcharge
    match deliverWord a.st j reason d with
    | (s1, some e) => { a with st := s1, ev := some e, charge := c }
    | (s1, none) =>
      { st := accClear j.tile d.clear s1, bytes := a.bytes + d.bytes, elems := a.elems + d.elems,
        got := if d.bytes = 0 then a.got else gotBytes d.pos d.bytes a.got, charge := c + d.charge,
        skipped := a.skipped || decide (d.kind = .pass), ev := none }

/-- One element: with skip, it is passed over where a word of it cannot be delivered; the answers of a peer to it are
spent. -/
def deliverElem (j : Job) (reason : Nat) (skip : Bool) (a : Delivered) (ds : List Deliv) : Delivered :=
  if a.ev.isSome then a
  else if skip && !canDeliver a.st j ds then
    { a with st := { a.st with fresh := a.st.fresh + ds.length }, skipped := true, charge := ds.foldl (fun n d => n + d.rcharge) a.charge }
  else ds.foldl (deliverOne j reason) a

/-- Delivers in order until an event. -/
def deliverAll (j : Job) (reason : Nat) (skip : Bool) (l : List Deliv) (s : State) : Delivered :=
  (byElem l).foldl (deliverElem j reason skip) { st := s, bytes := 0, elems := 0, got := [], charge := 0, skipped := false, ev := none }

/-! ### The end of a job -/

/-- The barrier-object addition of a job (R43, R64, R297): not made to a poisoned word, whose event it answers. -/
def barAdd (s : State) (j : Job) (n : Nat) : State × Option JobEv :=
  if cmdBarsel j = 0 then (s, none)
  else
    match hwKey s j.partn (tilePtr s j.partn j.tile (0xFF800 + 8 * cmdBarsel j)) true false with
    | (s1, .bad c i h) => (s1, some (hwEv 0 c i h 0))
    | (s1, .ok k) =>
      if wordPois s1 k then
        (s1, some (match rectAt s1 j.partn (k / 2 ^ 20) false with
          | some r => { status := 6, reason := 6, page := none, rect := some r }
          | none => { status := 5, reason := 6, page := none, rect := none }))
      else (writeWord s1 k (barArrive (wordAt s1 k) n) true, none)

/-- The location word of an entry an engine raises for a pushing core. -/
def jobLoc (s : State) (j : Job) : Word :=
  let ph := physTile s j.tile
  let slot := match threadOf s j.uid with | some th => th.slot | none => 0
  match frameOf s j.partn with
  | none => 0
  | some f => BitVec.ofNat 64 (guestX f j.tile * 256 + guestY f j.tile + slot * 2 ^ 16 + ph.1 * 2 ^ 40 + ph.2 * 2 ^ 32)

/-- An entry raised by an engine. -/
def jobEntry (s : State) (j : Job) (src cause : Nat) (addr info : Word) (flags : Nat) : Entry :=
  { cause := BitVec.ofNat 64 (cause + 256), tid := j.tid, addr := addr, pc := j.cmd, info := info, tsc := now s,
    loc := jobLoc s j, flags := flags, src := src, tag := 0 }

/-- Posts the page fault of a job (R298). -/
def postPage (s : State) (j : Job) (src : Nat) (pg : Ptr × Nat × Bool) : State :=
  let e := jobEntry s j src 0x09 pg.1 (BitVec.ofNat 64 pg.2.1) (if pg.2.2 then 4 else 0)
  let s1 := postSup s j.partn e
  if pg.2.2 then postHost s1 e else s1

/-- What an event does beside ending the job: the page fault is posted, containment starts. -/
def jobEvent (s : State) (j : Job) (src : Nat) (e : Option JobEv) : State :=
  match e with
  | none => s
  | some e =>
    let s1 := match e.page with | some pg => postPage s j src pg | none => s
    match e.rect with | some r => fenceRect s1 j.partn r | none => s1

/-- A status word (R47). -/
def statusWord (status progress : Nat) : Word :=
  BitVec.ofNat 64 ((if status = 0 then 2 ^ 63 else 0) + status * 2 ^ 56 + progress % 2 ^ 56)

/-- The status word lands 8 cycles after the end (R284): the issues of the next cycle see what it fills (R77). -/
def schedStatus (s : State) (cycle src : Nat) (j : Job) (w : Word) : State :=
  sched s { cycle := cycle, late := true, age := s.tsc, src := src, act := .jobStatusWord j w }

/-- The engine holds a page-fault entry for a core (R151). -/
def entryHeld (s : State) (partn tile src cause : Nat) : Bool :=
  match frameOf s partn with
  | none => false
  | some f => (partOf s partn).heldEnt.any fun e =>
      decide (e.src = src) && decide (bits e.cause 0 8 = cause) && decide (bits e.loc 0 16 = guestX f tile * 256 + guestY f tile)

/-! ### Status words arrive (R117) -/

/-- A status word fills the job register that waits for it. -/
def fillStatus (j : Job) (w : Word) (t : Thread) : Thread :=
  if t.jobsIn.any fun x => decide (x.2 = j.jid) then
    { sset j.reg w t with jobsIn := t.jobsIn.filter fun x => decide (x.2 ≠ j.jid) }
  else t

/-- The status word reaches a thread of a team that is saved: its register in the image takes it, and a `jpush.w` that waits
for it is over (R117, R382). -/
def landSaved (s : State) (u : Nat) (j : Job) (w : Word) : State :=
  modPart s j.partn fun p => { p with saved := p.saved.map fun i => { i with threads := i.threads.map fun x =>
    if x.uid = u then
      { x with th := let t := fillStatus j w x.th
                     if t.wait = .jobDone j.jid then unitOver (offBy t.pc 4) t.readyAt t else t }
    else x } }

/-- Writes a status word into the job register of a thread that waits for it. -/
def landStatus (s : State) (u : Nat) (j : Job) (w : Word) : State :=
  match threadOf s u with
  | none => landSaved s u j w
  | some th =>
    let s1 := modThread s u (fillStatus j w)
    match th.wait with
    | .jobDone k => if k = j.jid then modThread s1 u fun t => unitOver (offBy t.pc 4) (s.cycle + 1) t else s1
    | _ => recheck s1 u

/-- A pair's trailing thread that has not reached its `jpush` yet finds the word in the queue (R84). -/
def landLv (s : State) (u : Nat) (j : Job) (w : Word) : State :=
  modThread s u fun t => { t with lvq := t.lvq.map fun e =>
    match e.2 with | .pending k => if k = j.jid then (e.1, .vals [w]) else e | _ => e }

def statusArrives (s : State) (j : Job) (w : Word) : State :=
  let s1 := landStatus s j.uid j w
  match mateOf s j.uid with
  | none => s1
  | some m => landStatus (landLv s1 m j w) m j w

/-! ### Turns (R284, R319) -/

/-- The visible heads of the cores of a cluster, in the order last + 1, last + 2, … -/
def headInTurn (s : State) (queues : AMap (List Job)) (last : Nat) (ok : Nat → Job → Bool) : Option (Nat × Job) :=
  (List.range 8).findSome? fun k =>
    let ci := (last + 1 + k) % 8
    match lookD queues ci [] with
    | j :: _ => if decide (j.enq + 8 ≤ s.cycle) && ok ci j then some (ci, j) else none
    | [] => none

/-- The oldest push that is parked on a full queue of a core, or of a partition's device queue (R116, R283). -/
def parkedPush (s : State) (q : Nat) (mine : Job → Bool) : Option (Nat × Job × Bool) :=
  s.threads.foldl (fun (a : Option (Nat × Job × Bool)) e =>
    match e.2.wait with
    | .jobQueue j k w =>
      if k = q ∧ mine j then
        match a with
        | some (_, i, _) => if j.jid < i.jid then some (e.1, j, w) else a
        | none => some (e.1, j, w)
      else a
    | _ => a) none

/-- Puts a job at the end of its queue: 0 matrix, 1 copy, 2 the partition's device queue (R116). -/
def enterQueue (s : State) (j : Job) (q : Nat) : State :=
  let j' := { j with enq := s.cycle }
  let cl := clusterOfTile j.tile
  let ci := coreInCluster j.tile
  match q with
  | 0 => modMxe s cl fun m => { m with queues := ins m.queues ci (lookD m.queues ci [] ++ [j']) }
  | 1 => modCu s cl fun m => { m with queues := ins m.queues ci (lookD m.queues ci [] ++ [j']) }
  | _ => modPart s j.partn fun p => { p with devq := p.devq ++ [j'] }

/-- A job's register becomes empty when the job is enqueued (R68, R116). -/
def awaitStatus (d : SReg) (jid : Nat) (th : Thread) : Thread :=
  if d = 0 then th else { sOutstanding d th with jobsIn := th.jobsIn ++ [(d, jid)] }

/-- A parked push is enqueued: its thread is ready from the next cycle, or waits for the job (R77, R116). -/
def unparkPush (s : State) (q : Nat) (mine : Job → Bool) : State :=
  match parkedPush s q mine with
  | none => s
  | some (u, j, w) =>
    modThread (enterQueue s j q) u fun th =>
      let t := awaitStatus j.reg j.jid th
      if w then { t with wait := .jobDone j.jid } else unitOver (offBy t.pc 4) (s.cycle + 1) t

/-- The job at the head of a core's queue starts: its entry is freed. -/
def takeHead (s : State) (cl ci : Nat) (cu : Bool) : State :=
  let tile := tileOfCore cl ci
  let s1 :=
    if cu then modCu s cl fun m => { m with queues := ins m.queues ci ((lookD m.queues ci []).drop 1), last := ci }
    else modMxe s cl fun m => { m with queues := ins m.queues ci ((lookD m.queues ci []).drop 1), last := ci }
  unparkPush s1 (if cu then 1 else 0) fun j => decide (j.tile = tile)

/-- The head of a core's queue that may start in this cycle, for a command row. -/
def headOf (s : State) (cl ci : Nat) (cu : Bool) : Option Job :=
  (lookD (if cu then (clusterAt s cl).cu.queues else (clusterAt s cl).mxe.queues) ci []).head?

end Sys2Proof.Machine
end

