-- ==== Sys2Proof/Machine/Command.lean ====
section
/-! DEFINITION. The checks of a command word at push (R46) with the field maps of every command: each break by its bit
number. -/

namespace Sys2Proof.Machine

/-- Set bits of a range that must be zero: each names its own number. -/
def setBitsIn (j : Job) (lo n : Nat) : List Nat := ((List.range n).map (lo + ·)).filter fun i => decide (cmdField j i 1 = 1)

/-- A field that breaks a limit names its lowest bit. -/
def breaks (bad : Bool) (lo : Nat) : List Nat := if bad then [lo] else []

/-- A field that the value of another field forces to zero names its lowest bit (R46). -/
def fieldZero (j : Job) (lo n : Nat) : List Nat := breaks (decide (cmdField j lo n ≠ 0)) lo

/-- The kind of a pointer field is 0, 2, 3 or 4. -/
def kindOk (p : Nat) : Bool := let k := p / 2 ^ 60; decide (k = 0) || decide (k = 2) || decide (k = 3) || decide (k = 4)

/-- A pointer field at bit `lo`, aligned. -/
def ptrField (j : Job) (lo align : Nat) : List Nat :=
  let p := cmdField j lo 64
  breaks (!kindOk p || decide (p % align ≠ 0)) lo

/-- A pointer field that may also be all zero. -/
def ptrOrZero (j : Job) (lo : Nat) : List Nat := let p := cmdField j lo 64; breaks (decide (p ≠ 0) && !kindOk p) lo

/-- Operand format pairs (R288): chunk, cycles of array work as a fraction of K, f64 accumulator. -/
def fmtPair (a b : Nat) : Option (Nat × Nat × Nat × Bool) :=
  if a = 10 ∧ (b = 10 ∨ b = 0x10) then some (16, 1, 1, false)
  else if a = 11 ∧ b = 11 then some (16, 1, 1, false)
  else if (a = 12 ∨ a = 13) ∧ (b = 12 ∨ b = 13) then some (32, 1, 2, false)
  else if (a = 0x11 ∨ a = 0x12) ∧ (b = 0x11 ∨ b = 0x12) then some (32, 1, 2, false)
  else if a = 0x13 ∧ b = 0x13 then some (32, 1, 2, false)
  else if a = 9 ∧ b = 9 then some (8, 4, 1, false)
  else if a = 8 ∧ b = 8 then some (4, 16, 1, true)
  else none

/-- The first operand format has a row in the table of R288. -/
def afmtKnown (a : Nat) : Bool := decide ((8 ≤ a ∧ a ≤ 13) ∨ (0x11 ≤ a ∧ a ≤ 0x13))

/-- Flag bits that a command does not define, and barsel where the command has none: each of their bits must be zero, and
the lowest one set is named (DESIGN CHOICE, log 90). -/
def flagZero (j : Job) (used : List Nat) (bar : Bool) : List Nat :=
  ((List.range 6).map (240 + ·)).filter (fun i => decide (cmdField j i 1 = 1) && decide (i ∉ used))
    ++ (if bar then [] else setBitsIn j 232 8)

def mmaBreaks (j : Job) : List Nat := flagZero j [240] true ++ ptrField j 0 1 ++ ptrField j 64 1

def mzeroBreaks (j : Job) : List Nat := flagZero j [] false ++ setBitsIn j 0 192 ++ setBitsIn j 204 16

def mfmtBreaks (j : Job) : List Nat :=
  let a := cmdField j 192 8
  let b := cmdField j 200 8
  let r := cmdField j 211 4
  flagZero j [] false ++ ptrOrZero j 0 ++ ptrOrZero j 64 ++ ptrOrZero j 128
    ++ (if (fmtPair a b).isSome then [] else if afmtKnown a then [200] else [192])
    ++ breaks (decide (6 ≤ cmdField j 208 3)) 208 ++ breaks (decide (r = 1 ∨ 9 ≤ r)) 211 ++ setBitsIn j 215 17

def mstoreBreaks (j : Job) : List Nat :=
  flagZero j [240] true ++ ptrField j 0 1 ++ ptrOrZero j 64 ++ setBitsIn j 184 8 ++ breaks (decide (14 ≤ cmdField j 204 4)) 204
    ++ setBitsIn j 208 12

def mcheckBreaks (j : Job) : List Nat :=
  let n := cmdField j 192 8
  let r := cmdField j 200 6
  flagZero j [] false ++ setBitsIn j 0 192 ++ breaks (decide ((n = 0 ∧ r ≠ 0) ∨ (n ≠ 0 ∧ r = 0))) 200 ++ setBitsIn j 206 26

/-- The shape pointer and the run length that goes with it (R327, R328). -/
def shapeBreaks (s : State) (j : Job) : List Nat :=
  let p := cmdField j 128 64
  let w := cmdField j 192 20
  let mine := (tilePtr s j.partn j.tile 0).toNat / 2 ^ 46
  breaks (decide (p ≠ 0) && decide (p / 2 ^ 46 ≠ mine ∨ p % 32 ≠ 0)) 128
    ++ breaks (decide ((p = 0 ∧ w = 0) ∨ (p ≠ 0 ∧ w ≠ 0))) 192

def copyBreaks (s : State) (j : Job) : List Nat :=
  flagZero j [] true ++ ptrField j 0 8 ++ ptrField j 64 8 ++ shapeBreaks s j ++ setBitsIn j 228 4

def fillBreaks (s : State) (j : Job) : List Nat :=
  flagZero j [] true ++ ptrField j 0 8 ++ shapeBreaks s j ++ setBitsIn j 212 8 ++ setBitsIn j 228 4

/-- GATHER, SCATTER and SCATTERADD (R329). A field that the command itself has no use for, seg of SCATTERADD and et of the
others, is bits that must be zero: the lowest one set is named (DESIGN CHOICE, log 90). -/
def listBreaks (j : Job) (op : Nat) : List Nat :=
  let add := decide (op = 0x13)
  flagZero j (if op = 0x11 then [240, 241] else if op = 0x12 then [241] else []) true
    ++ ptrField j 0 8 ++ ptrField j 64 (if cmdField j 215 1 = 1 then 8 else 4) ++ ptrField j 128 8
    ++ breaks (decide (cmdField j 192 20 = 0)) 192 ++ breaks (decide (cmdField j 212 3 = 7)) 212
    ++ (if add then setBitsIn j 224 4 ++ breaks (decide (12 ≤ cmdField j 228 4)) 228 else setBitsIn j 228 4)

def collBreaks (j : Job) : List Nat :=
  let team := cmdFlag j 0
  let op := cmdField j 188 2
  let red := decide (op ≤ 1)
  let et := cmdField j 184 4
  let n := cmdField j 160 24
  let w := match ElemTy.ofCode et with | some e => ewidth e | none => 64
  flagZero j [240] true ++ ptrField j 0 8 ++ ptrField j 64 8 ++ breaks (decide (n = 0 ∨ n * w % 64 ≠ 0)) 160
    ++ breaks (decide (if red then 12 ≤ et else 14 ≤ et)) 184
    ++ (if red then breaks (decide (cmdField j 190 2 = 3)) 190 else fieldZero j 190 2)
    ++ (if team then fieldZero j 192 4 else [])
    ++ (if team then breaks (decide (cmdField j 196 6 = 0)) 196 else fieldZero j 196 6)
    ++ (if team then breaks (decide (cmdField j 196 6 < cmdField j 202 6)) 202 else fieldZero j 202 6)
    ++ (if op = 3 then [] else fieldZero j 208 6) ++ setBitsIn j 214 18

def digestBreaks (j : Job) : List Nat :=
  let n := cmdField j 64 40
  flagZero j [] false ++ ptrField j 0 8 ++ breaks (decide (n < 8 ∨ n % 8 ≠ 0)) 64 ++ setBitsIn j 108 124

/-- LAUNCH (R378); `sup` says that the supervisor flag is accepted. -/
def launchBreaks (j : Job) (sup : Bool) : List Nat :=
  let t := cmdField j 140 4 + 1
  flagZero j [240, 241, 242] false ++ breaks (cmdFlag j 2 && !sup) 242 ++ ptrField j 0 4
    ++ breaks (cmdFlag j 0 && decide (t % 2 = 1)) 140 ++ breaks (decide (64 < cmdField j 144 7)) 144
    ++ breaks (decide (2048 < cmdField j 151 12)) 151 ++ breaks (decide (12 < cmdField j 165 4)) 165 ++ setBitsIn j 201 31

/-- The queue of an opcode (R44). -/
def cmdQueue (op : Nat) : Option Nat :=
  if 1 ≤ op ∧ op ≤ 5 then some 0 else if 0x10 ≤ op ∧ op ≤ 0x16 then some 1 else if op = 0x20 then some 2 else none

/-- Every bit number that a break of R46 names; 256 for the opcode or the queue. -/
def cmdBreaks (s : State) (j : Job) (q : Nat) (sup : Bool) : List Nat :=
  let op := cmdOpcode j
  if cmdQueue op ≠ some q then [256]
  else
    setBitsIn j 246 2 ++
      (if op = 1 then mmaBreaks j else if op = 2 then mzeroBreaks j else if op = 3 then mfmtBreaks j
       else if op = 4 then mstoreBreaks j else if op = 5 then mcheckBreaks j else if op = 0x10 then copyBreaks s j
       else if op = 0x14 then fillBreaks s j else if op = 0x15 then collBreaks j else if op = 0x16 then digestBreaks j
       else if op = 0x20 then launchBreaks j sup else listBreaks j op)

/-- FINFO of the illegal-command fault: the lowest bit number that any break names. -/
def illegalCommand (s : State) (j : Job) (q : Nat) (sup : Bool) : Option Nat :=
  (cmdBreaks s j q sup).foldl (fun a n => minNat a n) none
where
  minNat (a : Option Nat) (n : Nat) : Option Nat := match a with | none => some n | some m => some (min m n)

end Sys2Proof.Machine
end

