-- ==== Sys2Proof/Machine/Matrix.lean ====
section
/-! DEFINITION. The matrix engine's operands, products, stores and self-check (R285-R297, R309-R317). -/

namespace Sys2Proof.Machine

/-! ### Contexts and records -/

def ctxOf (s : State) (cl ci : Nat) : MxCtx := lookD (clusterAt s cl).mxe.ctxs ci MxCtx.reset

def setCtx (s : State) (cl ci : Nat) (f : MxCtx → MxCtx) : State :=
  modMxe s cl fun m => { m with ctxs := ins m.ctxs ci (f (lookD m.ctxs ci MxCtx.reset)) }

/-- The accumulator's element type and size (R286). -/
def accType (c : MxCtx) : ElemTy := if c.afmt = 8 ∧ c.bfmt = 8 then .f64 else .f32
def accSize (c : MxCtx) : Nat := ewidth (accType c) / 8

/-- The element type of a format code; 0x11-0x13 are the block-scaled types (R229). -/
def fmtElem (f : Nat) : ElemTy :=
  match f with
  | 0x11 => .e4m3
  | 0x12 => .e5m2
  | 0x13 => .i8
  | 0x10 => .bf16
  | n => (ElemTy.ofCode n).getD .bf16

/-- Element size in bytes of an operand format. -/
def fmtSize (f : Nat) : Nat := ewidth (fmtElem f) / 8

def isBlocked (f : Nat) : Bool := decide (0x11 ≤ f ∧ f ≤ 0x13)

/-- Field of a record of four words. -/
def recField (ws : List Word) (lo n : Nat) : Nat := bits (ws.getD (lo / 64) 0) (lo % 64) n

def recSet (ws : List Word) (lo n : Nat) : List Nat := ((List.range n).map (lo + ·)).filter fun i => decide (recField ws i 1 = 1)

def recPtr (ws : List Word) (lo : Nat) : List Nat :=
  let p := recField ws lo 64
  if kindOk p ∧ p % 8 = 0 then [] else [lo]

/-- Breaks of a tensor parameter record (R229, R230) by bit number; `want` is the format it must have. -/
def recBreaks (ws : List Word) (want : Nat) : List Nat :=
  let f := recField ws 0 8
  let s := recField ws 8 4
  let k := recField ws 12 4
  let known := decide (f ≤ 0x0D) || decide (0x10 ≤ f ∧ f ≤ 0x13)
  (if known && decide (f = want) then [] else [0])
    ++ (if f = 0x10 then
          (if 2 ≤ s ∧ s ≤ 8 then [] else [8]) ++ (if 2 ≤ k ∧ k ≤ s then [] else [12]) ++ (if recField ws 16 2 = 3 then [16] else [])
        else recSet ws 8 10)
    ++ recSet ws 18 14
    ++ (if f = 0x10 then recPtr ws 64 ++ recPtr ws 128 else recSet ws 64 64 ++ recSet ws 128 64)
    ++ (if isBlocked f then recPtr ws 192 else recSet ws 192 64)

def leastNat (l : List Nat) : Option Nat := l.foldl (fun a n => some (match a with | none => n | some m => min m n)) none

/-- The event of a record that breaks a limit (R230). -/
def recEv (n : Nat) : JobEv := { status := 5, reason := 0x100 + n % 256, page := none, rect := none }

/-! ### Unfold descriptors (R310, R311) -/

structure Unfold where
  base : Ptr
  H : Nat
  W : Nat
  C : Nat
  R : Nat
  S : Nat
  rs : Nat
  ps : Nat
  sy : Nat
  sx : Nat
  dy : Nat
  dx : Nat
  pt : Nat
  pl : Nat
  OW : Nat
  p0 : Nat
  deriving DecidableEq, Repr, Inhabited

def unfoldOf (ws : List Word) : Unfold :=
  let f := recField ws
  { base := ws.getD 0 0, H := f 64 16, W := f 80 16, C := f 96 16, R := f 112 8, S := f 120 8, rs := f 128 24, ps := f 152 24,
    sy := f 176 4, sx := f 180 4, dy := f 184 4, dx := f 188 4, pt := f 192 8, pl := f 200 8, OW := f 208 16, p0 := f 224 32 }

def unfoldOk (u : Unfold) (sa k0 K : Nat) : Bool :=
  kindOk u.base.toNat && [u.H, u.W, u.C, u.R, u.S, u.sy, u.sx, u.dy, u.dx, u.OW].all (0 < ·)
    && decide (u.base.toNat % sa = 0) && decide (u.rs % sa = 0) && decide (u.ps % sa = 0) && decide (k0 + K ≤ u.R * u.S * u.C)

/-- The offset of element (i, k) from base; none for padding (R311). -/
def unfoldAt (u : Unfold) (sa i k : Nat) : Option Nat :=
  let q := u.p0 + i
  let c := k % u.C
  let rx := k / u.C % u.S
  let ry := k / (u.C * u.S)
  let iy : Int := (q / u.OW * u.sy + ry * u.dy : Nat) - (u.pt : Int)
  let ix : Int := (q % u.OW * u.sx + rx * u.dx : Nat) - (u.pl : Int)
  if 0 ≤ iy ∧ iy < u.H ∧ 0 ≤ ix ∧ ix < u.W then some (iy.toNat * u.rs + ix.toNat * u.ps + c * sa) else none

/-! ### The job's operands (R289, R290) -/

/-- What an MMA job reads by: its fields, the context and the records. -/
structure Mma where
  a : Ptr
  b : Ptr
  lda : Nat
  ldb : Nat
  k0 : Nat
  M : Nat
  N : Nat
  K : Nat
  acc : Nat
  unfold_ : Bool
  afmt : Nat
  bfmt : Nat
  ch : Nat
  kmul : Nat
  kdiv : Nat
  et : ElemTy
  planes : Nat
  arec : List Word
  brec : List Word
  desc : List Word
  deriving DecidableEq, Repr, Inhabited

/-- Planes read of a BPI operand: the override of MFMT, else the record's (R287, R313). -/
def planesOf (c : MxCtx) (brec : List Word) : Nat := if c.rplanes ≠ 0 then c.rplanes else recField brec 12 4

def mmaOf (j : Job) (c : MxCtx) (arec brec desc : List Word) : Mma :=
  let p := (fmtPair c.afmt c.bfmt).getD (16, 1, 1, false)
  { a := j.w0, b := j.w1, lda := cmdField j 128 24, ldb := cmdField j 152 24, k0 := cmdField j 176 16, M := cmdField j 192 6 + 1,
    N := cmdField j 198 6 + 1, K := cmdField j 204 16, acc := cmdField j 220 12, unfold_ := cmdFlag j 0, afmt := c.afmt,
    bfmt := c.bfmt, ch := p.1, kmul := p.2.1, kdiv := p.2.2.1, et := accType c, planes := planesOf c brec, arec := arec,
    brec := brec, desc := desc }

/-- A block-scaled element (R228): the value of the element times its block scale. -/
def scaleBlock (h : Nat) (x : FV) : FV :=
  let E := h / 4 % 256
  let m := h % 4
  if E = 255 then .nan false
  else if E = 0 ∧ m = 0 then .fin false 0 0
  else
    match x with
    | .fin s n e => .fin s (n * (4 + m)) (e + E - 129)
    | v => v

/-- The value of a raw element of an operand type; integers are exact. -/
def rawValue (et : ElemTy) (v : Nat) : FV :=
  if eFloat et then readF et v else .fin (decide (readI et v < 0)) (readI et v).natAbs 0

/-- Element at a byte offset of a block-scaled operand. -/
def blockedAt (s : State) (j : Job) (reason : Nat) (base : Ptr) (f d : Nat) (bscale : Ptr) : State × (JobEv ⊕ FV) :=
  match engAt s j 4 bscale (2 * (d / 32)) 2 with
  | (s1, .inl e) => (s1, .inl e)
  | (s1, .inr h) =>
    match engAt s1 j reason base d 1 with
    | (s2, .inl e) => (s2, .inl e)
    | (s2, .inr v) => (s2, .inr (scaleBlock (h % 1024) (rawValue (fmtElem f) v)))

def denseAt (s : State) (j : Job) (reason : Nat) (base : Ptr) (f d : Nat) : State × (JobEv ⊕ FV) :=
  match engAt s j reason base d (fmtSize f) with
  | (s1, .inl e) => (s1, .inl e)
  | (s1, .inr v) => (s1, .inr (rawValue (fmtElem f) v))

/-- A(i, k) of a job. -/
def elemA (s : State) (j : Job) (m : Mma) (i k : Nat) : State × (JobEv ⊕ FV) :=
  if m.unfold_ then
    let u := unfoldOf m.desc
    match unfoldAt u (fmtSize m.afmt) i k with
    | none => (s, .inr (.fin false 0 0))
    | some d => denseAt s j 1 u.base m.afmt d
  else if isBlocked m.afmt then blockedAt s j 1 m.a m.afmt (i * m.lda + k) (m.arec.getD 3 0)
  else denseAt s j 1 m.a m.afmt (i * m.lda + k * fmtSize m.afmt)

/-- G of a BPI record. -/
def groupOf (brec : List Word) : Nat := 32 * 2 ^ recField brec 16 2

/-- The value of a BPI element from its planes, scale and zero point (R227). -/
def bpiValue (planes q scale zp : Nat) : FV :=
  let t : Int := sx 8 q / (2 ^ (8 - planes) : Nat) * (2 ^ (8 - planes) : Nat) + (if planes < 8 then 2 ^ (7 - planes) else 0) - sx 8 zp
  readF .bf16 (pack .bf16 .rne false none (exMul (readF .bf16 scale) (.fin (decide (t < 0)) t.natAbs 0))).1

/-- B(k, j) of a BPI operand (R226, R313). -/
def bpiAt (s : State) (j : Job) (m : Mma) (k col : Nat) : State × (JobEv ⊕ FV) :=
  let e := col * m.ldb + k
  let g := e / groupOf m.brec
  let r := engMap (fun s (i : Nat) => engAt s j 2 m.b (i * (m.N * m.ldb / 8) + e / 8) 1) (List.range m.planes) s
  match r.2.2 with
  | some ev => (r.1, .inl ev)
  | none =>
    match engAt r.1 j 3 (m.brec.getD 1 0) (2 * g) 2 with
    | (s1, .inl ev) => (s1, .inl ev)
    | (s1, .inr sc) =>
      match engAt s1 j 3 (m.brec.getD 2 0) g 1 with
      | (s2, .inl ev) => (s2, .inl ev)
      | (s2, .inr zp) =>
        let q := (r.2.1.zipIdx.foldl (fun a x => a + x.1 / 2 ^ (e % 8) % 2 * 2 ^ (7 - x.2)) 0)
        (s2, .inr (bpiValue m.planes q sc zp))

def elemB (s : State) (j : Job) (m : Mma) (k col : Nat) : State × (JobEv ⊕ FV) :=
  if m.bfmt = 0x10 then bpiAt s j m k col
  else if isBlocked m.bfmt then blockedAt s j 2 m.b m.bfmt (col * m.ldb + k) (m.brec.getD 3 0)
  else denseAt s j 2 m.b m.bfmt (col * m.ldb + k * fmtSize m.bfmt)

/-! ### Products (R232, R290) -/

/-- The exact sum of the products of one chunk. -/
def chunkSum (l : List (FV × FV)) : FV :=
  match l with
  | [] => .fin false 0 0
  | x :: t => t.foldl (fun a y => (exAdd .rne a (exMul y.1 y.2).v).v) (exMul x.1 x.2).v

/-- Adds a chunk sum into an accumulator element (R232). -/
def accAdd (et : ElemTy) (old : Nat) (x : FV) : Nat := (pack et .rne false none (exAdd .rne (readF et old) x)).1

/-- Cuts a list into rows of n. -/
def rows {α : Type} (n : Nat) : Nat → List α → List (List α)
  | 0, _ => []
  | k + 1, l => l.take n :: rows n k (l.drop n)

/-- The block after one more chunk, row by row. -/
def mmaStep (m : Mma) (block : List (List Nat)) (as bs : List (List FV)) : List (List Nat) :=
  block.zipWith (fun (row : List Nat) (a : List FV) => row.zipWith (fun x b => accAdd m.et x (chunkSum (a.zip b))) bs) as

/-- Reads the operands of one chunk. -/
def chunkRead (s : State) (j : Job) (m : Mma) (c : Nat) : State × (JobEv ⊕ (List (List FV) × List (List FV))) :=
  let k := fun (n : Nat) => m.k0 + c * m.ch + n
  let ra := engMap (fun s (x : Nat) => elemA s j m (x / m.ch) (k (x % m.ch))) (List.range (m.M * m.ch)) s
  match ra.2.2 with
  | some e => (ra.1, .inl e)
  | none =>
    let rb := engMap (fun s (x : Nat) => elemB s j m (k (x % m.ch)) (x / m.ch)) (List.range (m.N * m.ch)) ra.1
    match rb.2.2 with
    | some e => (rb.1, .inl e)
    | none => (rb.1, .inr (rows m.ch m.M ra.2.1, rows m.ch m.N rb.2.1))

/-- Runs the chunks from one on: the block, the chunks completed, the event. -/
def mmaRun (j : Job) (m : Mma) : Nat → Nat → State → List (List Nat) → State × List (List Nat) × Nat × Option JobEv
  | 0, c, s, block => (s, block, c, none)
  | n + 1, c, s, block =>
    match chunkRead s j m c with
    | (s1, .inl e) => (s1, block, c, some e)
    | (s1, .inr (as, bs)) => mmaRun j m n (c + 1) s1 (mmaStep m block as bs)

/-- Byte of element (i, j) of a block in a region (R285). -/
def accOff (acc e i j : Nat) : Nat := acc * 8 + (64 * i + j) * e

def accBlock (s : State) (tile acc e M N : Nat) : List (List Nat) :=
  (List.range M).map fun i => (List.range N).map fun k => memRead s.acc (accKey tile (accOff acc e i k)) e

/-- Writes a block's bytes into memory cells, from a base key on. -/
def putBlock (cells : List Host.Cell) (base acc e : Nat) (block : List (List Nat)) : List Host.Cell :=
  block.zipIdx.foldl (fun c row => row.1.zipIdx.foldl (fun c x => memWrite c (base + accOff acc e row.2 x.2) x.1 e) c) cells

def commitBlock (s : State) (tile acc e : Nat) (block : List (List Nat)) : State :=
  { s with acc := putBlock s.acc (accKey tile 0) acc e block }

/-! ### Start checks (R290, R309) -/

def accFits (acc e M N : Nat) : Bool := decide (acc * 8 % e = 0) && decide (acc * 8 + (64 * (M - 1) + N) * e ≤ 0x8000)

/-- A record that a format needs, read from its pointer; `none` where it needs none. -/
def needRecord (s : State) (j : Job) (need : Bool) (p : Ptr) (reason : Nat) : State × (JobEv ⊕ List Word) :=
  if need = false then (s, .inr []) else engRecord s j reason p

/-- The checks of planes, K and accumulator block, in that order. -/
def mmaFits (c : MxCtx) (m : Mma) : Option JobEv :=
  if m.bfmt = 0x10 ∧ recField m.brec 8 4 < m.planes then some (badOperand 2)
  else if m.K = 0 ∨ m.K % m.ch ≠ 0 then some (badOperand 8)
  else if accFits m.acc (accSize c) m.M m.N = false then some (badOperand 7)
  else none

/-- The checks of A, of B and of their scales: strides, alignments, and the coordinate and offset limits of their
pointers (R290, R309). -/
def mmaChecks (lim : Ptr → Bool) (m : Mma) : Option JobEv :=
  let sa := fmtSize m.afmt
  let sb := fmtSize m.bfmt
  let badA :=
    if m.unfold_ then isBlocked m.afmt || !unfoldOk (unfoldOf m.desc) sa m.k0 m.K || !lim (unfoldOf m.desc).base
    else !lim m.a || (if isBlocked m.afmt then decide (m.a.toNat % 32 ≠ 0 ∨ m.lda % 32 ≠ 0 ∨ m.k0 % 32 ≠ 0)
      else decide (m.a.toNat % sa ≠ 0 ∨ m.lda % sa ≠ 0))
  let badB := !lim m.b ||
    (if m.bfmt = 0x10 then
        decide (m.b.toNat % 8 ≠ 0 ∨ m.ldb % groupOf m.brec ≠ 0 ∨ m.ldb < m.k0 + m.K ∨ m.N * m.ldb % 64 ≠ 0)
     else if isBlocked m.bfmt then decide (m.b.toNat % 32 ≠ 0 ∨ m.ldb % 32 ≠ 0 ∨ m.k0 % 32 ≠ 0)
     else decide (m.b.toNat % sb ≠ 0 ∨ m.ldb % sb ≠ 0))
  if badA then some (badOperand 1)
  else if badB then some (badOperand 2)
  else if m.bfmt = 0x10 ∧ !(lim (m.brec.getD 1 0) && lim (m.brec.getD 2 0)) then some (badOperand 3)
  else if (isBlocked m.afmt && !lim (m.arec.getD 3 0)) || (isBlocked m.bfmt && !lim (m.brec.getD 3 0)) then some (badOperand 4)
  else none

/-- Reads what the start checks need and makes them in their order (R290): the job's operands or the event, and the
records read. An unfold descriptor is read with the checks of A (R309, R310). -/
def mmaStart (s : State) (j : Job) (c : MxCtx) : State × (JobEv ⊕ Mma) × List (Ptr × Nat) :=
  let needA := isBlocked c.afmt
  let needB := decide (0x10 ≤ c.bfmt)
  let bad := fun (p : Ptr) => decide (p = 0) || decide (p.toNat % 32 ≠ 0)
  if needA && bad c.arec then (s, .inl (badOperand 1), [])
  else if needB && bad c.brec then (s, .inl (badOperand 2), [])
  else
    let la := if needA then [(c.arec, 32)] else []
    match needRecord s j needA c.arec 1 with
    | (s1, .inl e) => (s1, .inl e, la)
    | (s1, .inr arec) =>
      let lb := la ++ (if needB then [(c.brec, 32)] else [])
      match needRecord s1 j needB c.brec 2 with
      | (s2, .inl e) => (s2, .inl e, lb)
      | (s2, .inr brec) =>
        let breaksA := if needA then recBreaks arec c.afmt else []
        let breaksB := if needB then recBreaks brec c.bfmt else []
        match leastNat breaksA, leastNat breaksB with
        | some n, _ => (s2, .inl (recEv n), lb)
        | none, some n => (s2, .inl (recEv n), lb)
        | none, none =>
          let m0 := mmaOf j c arec brec []
          let lim := fun (p : Ptr) => decide (limitsOf s2 j.partn p = 0)
          match mmaFits c m0 with
          | some e => (s2, .inl e, lb)
          | none =>
            if cmdFlag j 0 = false then
              (s2, (match mmaChecks lim m0 with | some e => .inl e | none => .inr m0), lb)
            else if m0.a.toNat % 32 ≠ 0 then (s2, .inl (badOperand 1), lb)
            else
              match engRecord s2 j 1 m0.a with
              | (s3, .inl e) => (s3, .inl e, lb ++ [(m0.a, 32)])
              | (s3, .inr desc) =>
                let m := { m0 with desc := desc }
                (s3, (match mmaChecks lim m with | some e => .inl e | none => .inr m), lb ++ [(m0.a, 32)])

/-! ### What a job reads, for its time and charge (R291, R299, R312, R313) -/

/-- The ranges that row i of a dense A and its block scales take. -/
def rowReads (m : Mma) (i : Nat) : List (Ptr × Nat) :=
  let sa := fmtSize m.afmt
  let d := i * m.lda + m.k0 * sa
  rangeAt m.a d (m.K * sa) ++ (if isBlocked m.afmt then scaleRange (m.arec.getD 3 0) d m.K else [])
where
  /-- The scales of `n` elements from element d on; no element, no scale. -/
  scaleRange (p : Ptr) (d n : Nat) : List (Ptr × Nat) :=
    if n = 0 then [] else rangeAt p (2 * (d / 32)) (2 * ((d + n - 1) / 32 - d / 32 + 1))

/-- The elements that row i of an unfolded A reads. -/
def unfoldReads (m : Mma) (i : Nat) : List (Ptr × Nat) :=
  let sa := fmtSize m.afmt
  let u := unfoldOf m.desc
  (List.range m.K).flatMap fun k => match unfoldAt u sa i (m.k0 + k) with | some d => rangeAt u.base d sa | none => []

/-- The ranges that column n of B, its scales and zero points take. -/
def colReads (m : Mma) (n : Nat) : List (Ptr × Nat) :=
  if m.K = 0 then []
  else if m.bfmt = 0x10 then
    let e := n * m.ldb + m.k0
    let g := groupOf m.brec
    let gs := (e + m.K - 1) / g - e / g + 1
    ((List.range m.planes).flatMap fun p => rangeAt m.b (p * (m.N * m.ldb / 8) + e / 8) ((e + m.K - 1) / 8 - e / 8 + 1))
      ++ rangeAt (m.brec.getD 1 0) (2 * (e / g)) (2 * gs) ++ rangeAt (m.brec.getD 2 0) (e / g) gs
  else
    let sb := fmtSize m.bfmt
    let d := n * m.ldb + m.k0 * sb
    rangeAt m.b d (m.K * sb) ++ (if isBlocked m.bfmt then rowReads.scaleRange (m.brec.getD 3 0) d m.K else [])

/-- What a job's first run reads, in groups whose lines are counted once each (R299): records and dense operands are one
group, every row of an unfolded A is one of its own (R312). -/
def mmaReads (c : MxCtx) (m : Mma) : List (List (Ptr × Nat)) :=
  let recs := (if isBlocked m.afmt then [(c.arec, 32)] else []) ++ (if 0x10 ≤ m.bfmt then [(c.brec, 32)] else [])
    ++ (if m.unfold_ then [(m.a, 32)] else [])
  let a := if m.unfold_ then [] else (List.range m.M).flatMap (rowReads m)
  (recs ++ a ++ (List.range m.N).flatMap (colReads m)) :: (if m.unfold_ then (List.range m.M).map (unfoldReads m) else [])

/-- Whether every place of a list of ranges is a scratchpad of a cluster. -/
def inCluster (s : State) (partn cl : Nat) (l : List (Ptr × Nat)) : Bool :=
  l.all fun x => match placeOf s partn x.1 with | some (.spad t _) => decide (clusterOfTile t = cl) | _ => false

/-- T of an MMA run once (R291). -/
def mmaTime (s : State) (j : Job) (c : MxCtx) (m : Mma) : Nat :=
  let l := (mmaReads c m).flatten
  let cl := clusterOfTile j.tile
  let f := (bytesByPlace s j.partn l).foldl (fun a x =>
    let bw := if x.1 < 4096 ∧ clusterOfTile x.1 = cl then 128 else 64
    max a ((x.2 + bw - 1) / bw)) 0
  let x := if inCluster s j.partn cl l then 0 else worstLat s j.partn j.tile l - 12
  128 + max (m.K * m.kmul / m.kdiv) f + x

/-- Operand bytes of the first `k` steps (R289). -/
def operandBytes (m : Mma) (k : Nat) : Nat :=
  m.M * k * fmtSize m.afmt + (if m.bfmt = 0x10 then k * m.N * m.planes / 8 else k * m.N * fmtSize m.bfmt)

/-! ### Starting jobs (R284) -/

def newRun (s : State) (j : Job) (ci t : Nat) : Running :=
  { job := j, ci := ci, start := s.cycle, stop := s.cycle + t, consumed := s.cycle + t, ev := none, count := 0,
    checked := false, bytes := 0, acc := [], recs := [], deliv := [], skip := false, skipped := false, charge := 0, links := [], evAt := 0, phase := 0 }

/-- The job runs until its end. -/
def startRun (s : State) (cl : Nat) (cu : Bool) (r : Running) : State :=
  let s1 := if cu then modCu s cl fun m => { m with run := some r } else modMxe s cl fun m => { m with run := some r }
  sched s1 { cycle := r.stop, late := false, age := s.tsc, src := if cu then srcCu cl else srcMxe cl, act := .jobEnd cl cu }

/-- T of a job that ends at a start check (R297). -/
def failTime (s : State) (j : Job) (l : List (Ptr × Nat)) : Nat := 8 + worstLat s j.partn j.tile l

/-- A command row of the matrix engine: the head of the core's queue starts. -/
def matrixRow (s : State) (op : Nat) (k : State → Nat → Nat → Job → Running → State × Running) (pick : Act → Option (Nat × Nat)) :
    Host.Outcome State Fault Refusal :=
  actRow s fun a s =>
    match pick a with
    | none => none
    | some (cl, ci) =>
      match headOf s cl ci false, (clusterAt s cl).mxe.run with
      | some j, none =>
        if cmdOpcode j = op ∧ j.enq + 8 ≤ s.cycle then
          let s1 := takeHead s cl ci false
          let r := k s1 cl ci j (newRun s1 j ci 8)
          some (startRun r.1 cl false r.2)
        else none
      | _, _ => none

/-- MMA (R290): an unchecked job's block is committed when it starts, a checked one's when its second run agrees. -/
def startMma (s : State) (cl ci : Nat) (j : Job) (r : Running) : State × Running :=
  let c := ctxOf s cl ci
  match mmaStart s j c with
  | (s1, .inl e, l) =>
    -- a job that ends at a start check is counted like any other (R295), and is not checked (R230, R290, R296)
    let t := s.cycle + failTime s1 j l
    ((countMma s1 cl ci c).1, { r with ev := some e, stop := t, consumed := t })
  | (s1, .inr m, _) =>
    let s2 := countMma s1 cl ci c
    let e := accSize c
    let run := mmaRun j m (m.K / m.ch) 0 s2.1 (accBlock s1 j.tile m.acc e m.M m.N)
    let t := mmaTime s1 j c m
    let stop := s.cycle + (if s2.2 then 2 * t else t)
    let r1 := { r with stop := stop, consumed := stop, checked := s2.2, ev := run.2.2.2, recs := m.arec ++ m.brec ++ m.desc }
    if s2.2 then
      (run.1, { r1 with acc := putBlock [] 0 m.acc e run.2.1, count := if run.2.2.2.isSome then 0 else m.K / m.ch,
                        bytes := if run.2.2.2.isSome then 0 else operandBytes m m.K })
    else
      (commitBlock run.1 j.tile m.acc e run.2.1,
        { r1 with count := run.2.2.1, bytes := operandBytes m (run.2.2.1 * m.ch) })
where
  /-- The MMA counter (R295): whether this job is checked. -/
  countMma (s : State) (cl ci : Nat) (c : MxCtx) : State × Bool :=
    if c.chkN = 0 then (s, false)
    else if c.cnt + 1 = c.chkN then (setCtx s cl ci fun x => { x with cnt := 0 }, true)
    else (setCtx s cl ci fun x => { x with cnt := x.cnt + 1 }, false)

def execMma (s : State) : Host.Outcome State Fault Refusal :=
  matrixRow s 1 startMma fun a => match a with | .mma cl ci => some (cl, ci) | _ => none

/-- MZERO (R292). -/
def startMzero (s : State) (cl ci : Nat) (j : Job) (r : Running) : State × Running :=
  let e := accSize (ctxOf s cl ci)
  let M := cmdField j 192 6 + 1
  let N := cmdField j 198 6 + 1
  let acc := cmdField j 220 12
  if accFits acc e M N then
    let t := s.cycle + 8 + (M * N * e + 511) / 512
    (commitBlock s j.tile acc e (List.replicate M (List.replicate N 0)), { r with stop := t, consumed := t })
  else (s, { r with ev := some (badOperand 7) })

def execMzero (s : State) : Host.Outcome State Fault Refusal :=
  matrixRow s 2 startMzero fun a => match a with | .mzero cl ci => some (cl, ci) | _ => none

/-- MFMT (R287). -/
def startMfmt (s : State) (cl ci : Nat) (j : Job) (r : Running) : State × Running :=
  (setCtx s cl ci fun c =>
    { c with arec := j.w0, brec := j.w1, orec := j.w2, afmt := cmdField j 192 8, bfmt := cmdField j 200 8,
             rnd := cmdField j 208 3, rplanes := cmdField j 211 4 }, r)

def execMfmt (s : State) : Host.Outcome State Fault Refusal :=
  matrixRow s 3 startMfmt fun a => match a with | .mfmt cl ci => some (cl, ci) | _ => none

/-- MCHECK (R295). -/
def startMcheck (s : State) (cl ci : Nat) (j : Job) (r : Running) : State × Running :=
  (setCtx s cl ci fun c => { c with chkN := cmdField j 192 8, chkR := cmdField j 200 6, cnt := 0 }, r)

def execMcheck (s : State) : Host.Outcome State Fault Refusal :=
  matrixRow s 5 startMcheck fun a => match a with | .mcheck cl ci => some (cl, ci) | _ => none

/-! ### MSTORE (R293, R294) -/

/-- One element of the epilogue: scaled, biased, rounded, converted. -/
def epilogue (et oet : ElemTy) (mode : Rnd) (clamp : Nat) (scale : FV) (bias : Option FV) (acc : Nat) : Nat :=
  let x := readF et acc
  let p := exMul x scale
  let v := match bias, p.v with
    | some b, .nan _ => Ex.nan (sigFlag b)
    | some b, v => exAdd mode v b
    | none, _ => p
  let w := readF et (pack et mode false none v).1
  if eFloat oet then
    (pack oet mode false (if narrow oet then some (boundOf oet (readF .f32 (clamp % 2 ^ 31))) else none) (Ex.ok w)).1
  else wrapI (ewidth oet) (toInt (intLo oet) (intHi oet) mode w).1

/-- Groups consecutive elements that fall in one word: one delivery each. -/
def mergeWords (l : List Deliv) : List Deliv :=
  match l with
  | [] => []
  | d :: t =>
    match mergeWords t, d.kind with
    | e :: r, .bytes m =>
      match e.kind with
      | .bytes m' =>
        if e.ptr = d.ptr then
          { d with val := mixBytes d.val e.val m', kind := .bytes (m ||| m'), bytes := d.bytes + e.bytes, elems := d.elems + e.elems,
                   clear := d.clear ++ e.clear } :: r
        else d :: e :: r
      | _ => d :: e :: r
    | r, _ => d :: r

/-- The delivery of one element of n bytes. -/
def elemDeliv (pos : Nat) (p : Ptr) (n v : Nat) (clear : List (Nat × Nat)) : Deliv :=
  let o := pOff p % 8
  { pos := pos, ptr := withOff p (pOff p / 8 * 8), val := BitVec.ofNat 64 (v * 2 ^ (8 * o)), kind := .bytes (byteMask o n), bytes := n,
    elems := 1, clear := clear, charge := 0, rcharge := 0 }

/-- The checks of an output record (R294). -/
def outRecord (s : State) (j : Job) (c : MxCtx) (oet : Nat) : State × (JobEv ⊕ Nat) × List (Ptr × Nat) :=
  if c.orec = 0 then (s, .inr 0, [])
  else if c.orec.toNat % 32 ≠ 0 then (s, .inl (badOperand 0x00B), [])
  else
    match engRecord s j 0x00B c.orec with
    | (s1, .inl e) => (s1, .inl e, [(c.orec, 32)])
    | (s1, .inr ws) =>
      match leastNat (recBreaks ws oet) with
      | some n => (s1, .inl (recEv n), [(c.orec, 32)])
      | none => (s1, .inr (recField ws 32 32), [(c.orec, 32)])

def startMstore (s : State) (cl ci : Nat) (j : Job) (r : Running) : State × Running :=
  let c := ctxOf s cl ci
  let et := accType c
  let e := accSize c
  let M := cmdField j 192 6 + 1
  let N := cmdField j 198 6 + 1
  let acc := cmdField j 220 12
  let oet := (ElemTy.ofCode (cmdField j 204 4)).getD .f32
  let sz := ewidth oet / 8
  let ldc := cmdField j 160 24
  let fail := fun (s : State) (e : JobEv) (l : List (Ptr × Nat)) =>
    let t := s.cycle + failTime s j l
    (s, { r with ev := some e, stop := t, consumed := t })
  if accFits acc e M N = false then fail s (badOperand 7) []
  else
    match outRecord s j c oet.code with
    | (s1, .inl ev, l) => fail s1 ev l
    | (s1, .inr clamp, l) =>
      if j.w0.toNat % sz ≠ 0 ∨ ldc % sz ≠ 0 then fail s1 (badOperand 9) l
      else if j.w1.toNat % e ≠ 0 then fail s1 (badOperand 5) l
      else
        let rb := if j.w1 = 0 then (s1, [], none)
          else engMap (fun s (n : Nat) => engAt s j 5 j.w1 (n * e) e) (List.range N) s1
        let scale := readF .f32 (cmdField j 128 32)
        let done := match rb.2.2 with | some _ => rb.2.1.length | none => M * N
        let bias := fun (n : Nat) => if j.w1 = 0 then none else some (readF et (rb.2.1.getD n 0))
        let out := (List.range done).map fun x =>
          let i := x / N
          let n := x % N
          let v := epilogue et oet (dynRnd c.rnd) clamp scale (bias n) (memRead rb.1.acc (accKey j.tile (accOff acc e i n)) e)
          (addOff j.w0 (i * ldc + n * sz), elemDeliv x (offBy j.w0 (i * ldc + n * sz)) sz v
            (if cmdFlag j 0 then [(accOff acc e i n, e)] else []))
        -- an offset that leaves the range ends the job there (R323)
        let good := out.takeWhile fun x => x.1.isSome
        let ev := if good.length < out.length then some (badOperand 9) else rb.2.2
        let writes := (List.range M).map fun i => (offBy j.w0 (i * ldc), N * sz)
        let t := 32 + (M * N * e + 511) / 512 + (M * N * sz + 63) / 64 + worstLat s1 j.partn j.tile writes
        (rb.1, { r with stop := s.cycle + t, consumed := s.cycle, ev := ev, deliv := mergeWords (good.map (·.2)) })

def execMstore (s : State) : Host.Outcome State Fault Refusal :=
  matrixRow s 4 startMstore fun a => match a with | .mstore cl ci => some (cl, ci) | _ => none

/-! ### Charges at push (R299) -/

/-- The context that will be in force: that of every MFMT already enqueued. -/
def ctxAhead (s : State) (cl ci : Nat) : MxCtx :=
  (lookD (clusterAt s cl).mxe.queues ci []).foldl (fun c j =>
    if cmdOpcode j = 3 then
      { c with arec := j.w0, brec := j.w1, orec := j.w2, afmt := cmdField j 192 8, bfmt := cmdField j 200 8,
               rnd := cmdField j 208 3, rplanes := cmdField j 211 4 }
    else c) (ctxOf s cl ci)

/-- Four words read plainly at push, unchecked; what cannot be read is zero. -/
def peekRecord (s : State) (j : Job) (p : Ptr) : List Word :=
  (List.range 4).map fun (i : Nat) => match engAt s j 0 p (8 * i) 8 with | (_, .inr v) => BitVec.ofNat 64 v | _ => 0

/-- The charge of an MMA or MSTORE at push; the other commands are charged 0. -/
def matrixCharge (s : State) (j : Job) : Nat :=
  let cl := clusterOfTile j.tile
  let c := ctxAhead s cl (coreInCluster j.tile)
  if cmdOpcode j = 1 then
    let m := mmaOf j c (peekRecord s j c.arec) (peekRecord s j c.brec) (if cmdFlag j 0 then peekRecord s j j.w0 else [])
    groupsCharge s j.partn j.tile 2 (mmaReads c m)
  else if cmdOpcode j = 4 then
    let M := cmdField j 192 6 + 1
    let N := cmdField j 198 6 + 1
    let sz := ewidth ((ElemTy.ofCode (cmdField j 204 4)).getD .f32) / 8
    let ldc := cmdField j 160 24
    groupsCharge s j.partn j.tile 2 [(if c.orec = 0 then [] else [(c.orec, 32)]) ++ (if j.w1 = 0 then [] else [(j.w1, N * accSize c)])]
      + groupsCharge s j.partn j.tile 3 [(List.range M).flatMap fun i => rangeAt j.w0 (i * ldc) (N * sz)]
  else 0

/-! ### The end of a matrix job (R284, R295-R298, R316, R317) -/

/-- The elements that differ between two images of a block, in (i, j) order. -/
def diffElems (a b : List Host.Cell) (acc e M N : Nat) : List (Nat × Nat) :=
  ((List.range M).flatMap fun i => (List.range N).map fun k => (i, k)).filter fun x =>
    decide (memRead a (accOff acc e x.1 x.2) e ≠ memRead b (accOff acc e x.1 x.2) e)

/-- FINFO of cause 0x1A (R317). -/
def checkInfo (D : List (Nat × Nat)) (r M : Nat) : Word :=
  let first := D.headD (0, 0)
  let c := first.2
  let rowsD := (D.map (·.1)).eraseDups
  let sub := fun (a b : Nat) => (a + 64 - b % 64) % 64
  let info := fun (row col located row2 : Nat) =>
    BitVec.ofNat 64 (row + col * 256 + located * 65536 + row2 * 2 ^ 24 + min D.length 0xFFFF * 2 ^ 32 + 2 ^ 63)
  if D.any (fun x => decide (x.2 ≠ c)) ∨ 2 < rowsD.length then info first.1 c 2 0
  else
    match rowsD with
    | [a, b] =>
      if sub a b = r ∧ sub b a = r then info a c 1 b
      else if sub a b = r then info a c 0 0
      else if sub b a = r then info b c 0 0
      else info first.1 c 2 0
    | [a] =>
      let one := decide (M ≤ sub a r)
      let two := decide (M ≤ (a + r) % 64)
      if one && two then info a c 1 ((a + r) % 64)
      else if one then info a c 0 0
      else if two then info ((a + r) % 64) c 0 0
      else info first.1 c 2 0
    | _ => info first.1 c 2 0

/-- A late fault of a job at its pusher's next unit (R295); a pair's threads both take it. -/
def jobFault (s : State) (u cause : Nat) (addr info : Word) : State :=
  let f := fun (st : State) (v : Nat) => modThread st v fun t =>
    { t with late := t.late ++ [{ cause := cause, addr := addr, info := info, tick := now s }] }
  match mateOf s u with | some m => f (f s u) m | none => f s u

/-- The second run of a checked job and the comparison (R316): the state, whether it failed, the event. -/
def secondRun (s : State) (cl : Nat) (r : Running) : State × Bool × Option JobEv :=
  let j := r.job
  let c := ctxOf s cl r.ci
  let na := if isBlocked c.afmt then 4 else 0
  let nb := if 0x10 ≤ c.bfmt then 4 else 0
  let m := mmaOf j c (r.recs.take na) ((r.recs.drop na).take nb) (r.recs.drop (na + nb))
  let e := accSize c
  let run := mmaRun j m (m.K / m.ch) 0 s (accBlock s j.tile m.acc e m.M m.N)
  match run.2.2.2 with
  | some ev => (run.1, false, some ev)
  | none =>
    let D := diffElems r.acc (putBlock [] 0 m.acc e run.2.1) m.acc e m.M m.N
    if D.isEmpty then (commitBlock run.1 j.tile m.acc e run.2.1, false, none)
    else (jobFault run.1 j.uid 0x1A j.cmd (checkInfo D c.chkR m.M), true, none)

/-- The end of the job in a matrix engine: deliveries, second run, events, barrier addition, status. -/
def endMatrix (s : State) (cl : Nat) (r : Running) : State :=
  let j := r.job
  let s0 := modMxe s cl fun m => { m with run := none }
  let d := deliverAll j 9 false r.deliv s0
  let ev0 := match d.ev with | some e => some e | none => r.ev
  let chk := if r.checked && ev0.isNone then secondRun d.st cl r else (d.st, false, none)
  let ev := match ev0 with | some e => some e | none => chk.2.2
  let gone := r.checked && ev.isSome
  let s1 := jobEvent chk.1 j (srcMxe cl) ev
  let bar := barAdd s1 j ((if gone then 0 else r.bytes) + d.bytes)
  let s2 := jobEvent bar.1 j (srcMxe cl) bar.2
  let fin := match bar.2 with | some e => some e | none => ev
  let count := if gone || chk.2.1 then 0 else r.count + d.elems
  let status := match fin with | some e => e.status | none => if chk.2.1 then 3 else 0
  let reason := match fin with | some e => e.reason | none => 0
  let prog := reason + count * 2 ^ 32 + (if r.checked then 2 ^ 48 else 0)
  schedStatus (accJoin s2 j.jid) (s.cycle + 8) (srcMxe cl) j (statusWord status prog)

end Sys2Proof.Machine
end

