-- ==== Sys2Proof/Machine/Copy.lean ====
section
/-! DEFINITION. The copy unit: COPY, FILL, GATHER, SCATTER, SCATTERADD, DIGEST and COLL, peers, replica digests and
their decision (R319-R341). -/

namespace Sys2Proof.Machine

/-! ### Peers (R324, R325) -/

/-- The two words of a peer table entry. -/
def peerEntry (s : State) (partn i : Nat) : Word × Word :=
  let p := (partOf s partn).peerb
  ((hwLoad s partn (offBy p (16 * i))).2.2, (hwLoad s partn (offBy p (16 * i + 8))).2.2)

/-- Link states (R427): 2 is up. -/
def linkUp (s : State) (l : Nat) : Bool := decide ((linkOf s l).state = 2) && !(linkOf s l).dis

/-- What a start check reads of the peer table. -/
def peerPlaces (s : State) (partn i : Nat) : List (Ptr × Nat) :=
  if i = 0 ∨ (partOf s partn).peern < i then [] else [(offBy (partOf s partn).peerb (16 * i), 16)]

def lostLink : JobEv := { status := 2, reason := 5, page := none, rect := none }

/-- The link to a peer: the lowest usable one that is up; an invalid entry is the failure of its operand (R324). -/
def peerLink (s : State) (partn i reason : Nat) : JobEv ⊕ Option Nat :=
  if i = 0 then .inr none
  else if (partOf s partn).peern < i ∨ bit (peerEntry s partn i).1 0 = false then .inl (badOperand reason)
  else
    match (List.range 24).find? fun l => bit (peerEntry s partn i).2 l && linkUp s l with
    | some l => .inr (some l)
    | none => .inl lostLink

/-- A word read of a peer device: what it answers is a free value (log 3). -/
def peerRead (s : State) (reason : Nat) (p : Ptr) : State × (JobEv ⊕ Nat) :=
  (freshFree s,
    match Config.peerAnswer s.fresh with | some a => .inl (peerEv p a reason) | none => .inr (Config.peerWord s.fresh).toNat)

/-- A peer place is charged as a kind-5 place (R326). -/
def placeCharge (s : State) (j : Job) (peer : Nat) (p : Ptr) (k : Nat) : Nat :=
  if peer ≠ 0 then kindBits k * lenTo s j.tile (.host 0) else charge s j.partn j.tile p k

/-- Reads a word here or on a peer; an offset addition that leaves the range is the operand's failure (R323). -/
def cuRead (s : State) (j : Job) (peer reason : Nat) (base : Ptr) (d : Int) : State × (JobEv ⊕ Nat) :=
  if peer = 0 then engAt s j reason base d 8
  else match addOff base d with | none => (s, .inl (badOperand reason)) | some p => peerRead s reason p

/-- The latency part of T for a place read and a place written (R320). -/
def cuLat (s : State) (j : Job) (peer : Nat) (l : List (Ptr × Nat)) : Nat :=
  if peer ≠ 0 then Config.peerLatency else worstLat s j.partn j.tile l

/-- A command row of the copy unit: the head of the core's queue starts. -/
def copyRow (s : State) (op : Nat) (k : State → Nat → Nat → Job → Running → State × Running) (pick : Act → Option (Nat × Nat)) :
    Host.Outcome State Fault Refusal :=
  actRow s fun a s =>
    match pick a with
    | none => none
    | some (cl, ci) =>
      match headOf s cl ci true, (clusterAt s cl).cu.run with
      | some j, none =>
        if cmdOpcode j = op ∧ j.enq + 8 ≤ s.cycle then
          let s1 := takeHead s cl ci true
          let r := k s1 cl ci j (newRun s1 j ci 8)
          some (startRun r.1 cl true { r.2 with consumed := s.cycle })
        else none
      | _, _ => none

/-! ### COPY and FILL (R327, R328) -/

/-- A shape: words in a run, runs, planes, source and destination steps. -/
structure Shape where
  w0 : Nat
  c1 : Nat
  c2 : Nat
  ss1 : Int
  ds1 : Int
  ss2 : Int
  ds2 : Int
  deriving DecidableEq, Repr, Inhabited

def shapeOf (ws : List Word) : Shape :=
  { w0 := recField ws 0 20, c1 := recField ws 32 16, c2 := recField ws 48 16, ss1 := sx 32 (recField ws 64 32),
    ds1 := sx 32 (recField ws 96 32), ss2 := sx 32 (recField ws 128 32), ds2 := sx 32 (recField ws 160 32) }

def shapeOk (ws : List Word) : Bool :=
  let h := shapeOf ws
  decide (h.w0 ≠ 0) && decide (recField ws 20 12 = 0) && decide (h.c1 ≠ 0) && decide (h.c2 ≠ 0) && decide (h.ss1 % 8 = 0)
    && decide (h.ds1 % 8 = 0) && decide (h.ss2 % 8 = 0) && decide (h.ds2 % 8 = 0) && decide (recField ws 192 64 = 0)

/-- The shape a command names: its record, or one run. -/
def jobShape (s : State) (j : Job) (words : Nat) : State × (JobEv ⊕ Shape) × List (Ptr × Nat) :=
  if j.w2 = 0 then (s, .inr { w0 := words, c1 := 1, c2 := 1, ss1 := 0, ds1 := 0, ss2 := 0, ds2 := 0 }, [])
  else
    match engRecord s j 4 j.w2 with
    | (s1, .inl e) => (s1, .inl e, [(j.w2, 32)])
    | (s1, .inr ws) => (s1, if shapeOk ws then .inr (shapeOf ws) else .inl (badOperand 4), [(j.w2, 32)])

/-- Source and destination offsets of the positions, in order. -/
def shapePos (h : Shape) : List (Int × Int) :=
  (List.range h.c2).flatMap fun (i2 : Nat) => (List.range h.c1).flatMap fun (i1 : Nat) => (List.range h.w0).map fun (i0 : Nat) =>
    ((8 * i0 : Nat) + h.ss1 * i1 + h.ss2 * i2, (8 * i0 : Nat) + h.ds1 * i1 + h.ds2 * i2)

/-- The runs of a shape as byte ranges from a base. -/
def shapeRuns (h : Shape) (base : Ptr) (src : Bool) : List (Ptr × Nat) :=
  (List.range h.c2).flatMap fun (i2 : Nat) => (List.range h.c1).filterMap fun (i1 : Nat) =>
    (addOff base (if src then h.ss1 * i1 + h.ss2 * i2 else h.ds1 * i1 + h.ds2 * i2)).map fun p => (p, 8 * h.w0)

/-- A word delivered whole to dst + d. -/
def wordDeliv (pos : Nat) (dst : Ptr) (d : Int) (peer v elems charge : Nat) : Option Deliv :=
  (addOff dst d).map fun p =>
    { pos := pos, ptr := p, val := BitVec.ofNat 64 v, kind := if peer ≠ 0 then .peer peer else .word, bytes := 8, elems := elems,
      clear := [], charge := charge, rcharge := 0 }

/-- An element passed over after reads of this charge (R330). -/
def passDeliv (pos rcharge : Nat) : Deliv :=
  { pos := pos, ptr := 0, val := 0, kind := .pass, bytes := 0, elems := 0, clear := [], charge := 0, rcharge := rcharge }

/-- What the reads of a job have come to: its deliveries, the last first, the places its table words lie at, and the
event that ended the reading with the position or element it fell at. -/
structure ReadRun where
  st : State
  deliv : List Deliv
  places : List (Ptr × Nat)
  ev : Option JobEv
  at_ : Nat

/-- One position of a COPY (with a source) or FILL. -/
def copyPosition (j : Job) (speer dpeer : Nat) (src : Option Ptr) (dst : Ptr) (value : Nat) (a : ReadRun) (x : Int × Int) : ReadRun :=
  if a.ev.isSome then a
  else
    let r := match src with | some p => cuRead a.st j speer 1 p x.1 | none => (a.st, .inr value)
    match r.2 with
    | .inl e => { a with st := r.1, ev := some e }
    | .inr v =>
      match wordDeliv a.at_ dst x.2 dpeer v 1 0 with
      | none => { a with st := r.1, ev := some (badOperand 2) }
      | some d => { a with st := r.1, deliv := d :: a.deliv, at_ := a.at_ + 1 }

/-- The positions in order, up to the first event. -/
def copyPositions (s : State) (j : Job) (speer dpeer : Nat) (src : Option Ptr) (dst : Ptr) (value : Nat) (l : List (Int × Int)) : ReadRun :=
  l.foldl (copyPosition j speer dpeer src dst value) { st := s, deliv := [], places := [], ev := none, at_ := 0 }

def failRun (s : State) (j : Job) (r : Running) (e : JobEv) (l : List (Ptr × Nat)) : State × Running :=
  (s, { r with ev := some e, stop := s.cycle + failTime s j l })

/-- The run of a COPY or FILL over a shape: reads at the places of `l` and of a source, deliveries at `dst` (R320, R328). -/
def runShape (s : State) (j : Job) (r : Running) (speer dpeer : Nat) (src : Option Ptr) (dst : Ptr) (value : Nat) (h : Shape)
    (l : List (Ptr × Nat)) (links : List Nat) : State × Running :=
  let k := copyPositions s j speer dpeer src dst value (shapePos h)
  let phase := (8 * h.w0 * h.c1 * h.c2 + 63) / 64
  let rd := max (worstLat s j.partn j.tile l) (match src with | some p => cuLat s j speer (shapeRuns h p true) | none => 0)
  let t := 16 + phase + rd + cuLat s j dpeer (shapeRuns h dst false)
  (k.st, { r with stop := s.cycle + t, ev := k.ev, deliv := k.deliv.reverse, links := links, evAt := k.at_, phase := phase })

def startCopy (s : State) (_ _ : Nat) (j : Job) (r : Running) : State × Running :=
  let speer := cmdField j 212 8
  let dpeer := cmdField j 220 8
  match jobShape s j (cmdField j 192 20) with
  | (s1, .inl e, l) => failRun s1 j r e l
  | (s1, .inr h, l0) =>
    let l := l0 ++ peerPlaces s1 j.partn speer ++ peerPlaces s1 j.partn dpeer
    match peerLink s1 j.partn speer 1, peerLink s1 j.partn dpeer 2 with
    | .inl e, _ => failRun s1 j r e l
    | _, .inl e => failRun s1 j r e l
    | .inr a, .inr b => runShape s1 j r speer dpeer (some j.w0) j.w1 0 h l (a.toList ++ b.toList)

def startFill (s : State) (_ _ : Nat) (j : Job) (r : Running) : State × Running :=
  let dpeer := cmdField j 220 8
  match jobShape s j (cmdField j 192 20) with
  | (s1, .inl e, l) => failRun s1 j r e l
  | (s1, .inr h, l0) =>
    let l := l0 ++ peerPlaces s1 j.partn dpeer
    match peerLink s1 j.partn dpeer 2 with
    | .inl e => failRun s1 j r e l
    | .inr b => runShape s1 j r 0 dpeer none j.w0 j.w1.toNat h l b.toList

def execCopy (s : State) : Host.Outcome State Fault Refusal :=
  copyRow s 0x10 startCopy fun a => match a with | .copy cl ci => some (cl, ci) | _ => none

def execFill (s : State) : Host.Outcome State Fault Refusal :=
  copyRow s 0x14 startFill fun a => match a with | .fill cl ci => some (cl, ci) | _ => none

/-! ### GATHER, SCATTER, SCATTERADD (R329-R332) -/

structure Lists where
  op : Nat
  n : Nat
  ew : Nat
  iw : Nat
  peer : Nat
  seg : Nat
  et : ElemTy
  skip : Bool
  deriving DecidableEq, Repr, Inhabited

def listsOf (j : Job) : Lists :=
  { op := cmdOpcode j, n := cmdField j 192 20, ew := cmdField j 212 3, iw := if cmdField j 215 1 = 1 then 8 else 4,
    peer := cmdField j 216 8, seg := cmdField j 224 4, et := (ElemTy.ofCode (cmdField j 228 4)).getD .n64, skip := cmdFlag j 1 }

/-- The first element of a job that starts at its segment. -/
def firstElem (j : Job) (x : Lists) : Nat := j.seg * 2 ^ x.seg

/-- The words of one element: what is read and where it goes, up to the first failure; a read without a delivery leaves
its charge. -/
def listWords (j : Job) (x : Lists) (i idx : Nat) : List Nat → State → State × List Deliv × Option JobEv
  | [], s => (s, [], none)
  | w :: t, s =>
    let E := 8 * 2 ^ x.ew
    let tb : Int := (idx * E + 8 * w : Nat)
    let lo : Int := (i * E + 8 * w : Nat)
    let gather := decide (x.op = 0x11)
    let r := if gather then cuRead s j x.peer 1 j.w0 tb else cuRead s j 0 1 j.w2 lo
    match r.2 with
    | .inl e => (r.1, [], some e)
    | .inr v =>
      let rp := offBy (if gather then j.w0 else j.w2) (if gather then tb else lo).toNat
      let rc := placeCharge r.1 j (if gather then x.peer else 0) rp 0
      let dst := if gather then j.w2 else j.w0
      let d := if gather then lo else tb
      let dp := if gather then 0 else x.peer
      let wp := offBy dst d.toNat
      let kc := placeCharge r.1 j dp wp (if x.op = 0x13 then 5 else 1)
      match wordDeliv i dst d dp v (if t.isEmpty then 1 else 0) kc with
      | none => (r.1, [passDeliv i rc], some (badOperand 2))
      | some y =>
        let kind : DelivKind := if x.op = 0x13 then (if dp = 0 then .addLanes x.et else .peerAdd dp x.et) else y.kind
        let k := listWords j x i idx t r.1
        (k.1, { y with kind := kind, rcharge := rc } :: k.2.1, k.2.2)

def listElem (j : Job) (x : Lists) (a : ReadRun) (i : Nat) : ReadRun :=
  if a.ev.isSome then a
  else
    match engAt a.st j 3 j.w1 (i * x.iw) x.iw with
    | (s1, .inl e) => { a with st := s1, ev := some e, at_ := i }
    | (s1, .inr idx) =>
      let k := listWords j x i idx (List.range (2 ^ x.ew)) s1
      let E := 8 * 2 ^ x.ew
      let places := if x.peer = 0 then match addOff j.w0 (idx * E : Nat) with | some p => (p, E) :: a.places | none => a.places else a.places
      match k.2.2 with
      | none => { a with st := k.1, deliv := k.2.1.reverse ++ a.deliv, places := places }
      | some e =>
        if x.skip && skippable e then
          { a with st := k.1, deliv := passDeliv i (k.2.1.foldl (fun n d => n + d.rcharge) 0) :: a.deliv, places := places }
        else { a with st := k.1, deliv := k.2.1.reverse ++ a.deliv, places := places, ev := some e, at_ := i }

/-- The charge of the index-list lines of the elements from one up to another (R326). -/
def idxCharge (s : State) (j : Job) (x : Lists) (first last : Nat) : Nat :=
  linesCharge s j.partn j.tile 2 (linesOf (offBy j.w1 (first * x.iw)) ((last - first) * x.iw))

/-- Empties the local buffer of a GATHER before any delivery; a rerun empties nothing (R330, R332). -/
def emptyBuffer (s : State) (j : Job) (x : Lists) : State × Option JobEv :=
  (List.range (x.n * 2 ^ x.ew)).foldl (fun a (w : Nat) =>
    match a.2 with
    | some _ => a
    | none =>
      match addOff j.w2 (8 * w) with
      | none => (a.1, some (badOperand 2))
      | some p =>
        match hwKey a.1 j.partn p true false with
        | (s1, .bad c i h) => (s1, some (hwEv p c i h 2))
        | (s1, .ok k) =>
          if wordPois s1 k then (s1, some (poisonEv s1 j k 2)) else (serve { s1 with empty := setAdd s1.empty k } k, none)) (s, none)

/-- A job that starts at a segment runs the elements from there on, with the times and index lines of those (R320,
R332). -/
def startLists (s : State) (_ _ : Nat) (j : Job) (r : Running) : State × Running :=
  let x := listsOf j
  let pl := peerPlaces s j.partn x.peer
  match peerLink s j.partn x.peer (if x.op = 0x11 then 1 else 2) with
  | .inl e => failRun s j r e pl
  | .inr link =>
    let first := firstElem j x
    let m := x.n - first
    let e0 := if cmdFlag j 0 ∧ j.ran = false then emptyBuffer s j x else (s, none)
    let k := if e0.2.isSome then { st := e0.1, deliv := [], places := [], ev := e0.2, at_ := first }
      else ((List.range x.n).drop first).foldl (listElem j x) { st := e0.1, deliv := [], places := [], ev := none, at_ := first }
    let idx := (offBy j.w1 (first * x.iw), m * x.iw)
    let tab := cuLat s j x.peer k.places
    let loc := worstLat s j.partn j.tile [(offBy j.w2 (first * 8 * 2 ^ x.ew), m * 8 * 2 ^ x.ew)]
    let lists := worstLat s j.partn j.tile (idx :: pl)
    let t := 16 + (m * x.iw + 63) / 64 + m * 2 ^ x.ew + (if x.op = 0x11 then max lists tab + loc else max lists loc + tab)
    let reached := if e0.2.isSome then first else if k.ev.isSome then k.at_ + 1 else x.n
    (k.st, { r with stop := s.cycle + t, ev := k.ev, deliv := k.deliv.reverse, skip := x.skip, skipped := j.skipped,
                    charge := idxCharge s j x first reached, links := link.toList, evAt := k.at_, phase := m * 2 ^ x.ew })

def execGather (s : State) : Host.Outcome State Fault Refusal :=
  copyRow s 0x11 startLists fun a => match a with | .gather cl ci => some (cl, ci) | _ => none

def execScatter (s : State) : Host.Outcome State Fault Refusal :=
  copyRow s 0x12 startLists fun a => match a with | .scatter cl ci => some (cl, ci) | _ => none

def execScatteradd (s : State) : Host.Outcome State Fault Refusal :=
  copyRow s 0x13 startLists fun a => match a with | .scatteradd cl ci => some (cl, ci) | _ => none

/-! ### DIGEST (R337) -/

def startDigest (s : State) (cl ci : Nat) (j : Job) (r : Running) : State × Running :=
  let l := lookD (clusterAt s cl).cu.regs ci []
  if 16 ≤ l.length then (s, { r with ev := some (badOperand 0x00B) })
  else
    (modCu s cl fun m => { m with regs := ins m.regs ci (l ++ [{ ptr := j.w0, len := cmdField j 64 40, group := cmdField j 104 4, coll := none }]) }, r)

def execDigest (s : State) : Host.Outcome State Fault Refusal :=
  copyRow s 0x16 startDigest fun a => match a with | .digest cl ci => some (cl, ci) | _ => none

/-! ### COLL (R333-R336) -/

structure Coll where
  team : Bool
  op : Nat
  rop : Nat
  et : ElemTy
  n : Nat
  cid : Nat
  group : Nat
  root : Nat
  deriving DecidableEq, Repr, Inhabited

def collOf (j : Job) : Coll :=
  { team := cmdFlag j 0, op := cmdField j 188 2, rop := cmdField j 190 2, et := (ElemTy.ofCode (cmdField j 184 4)).getD .n64,
    n := cmdField j 160 24, cid := cmdField j 128 32, group := cmdField j 192 4, root := cmdField j 208 6 }

def collKey (j : Job) : CollKey :=
  let c := collOf j
  { partn := j.partn, team := if c.team then some j.serial else none, group := c.group, cid := c.cid }

/-- Word i of a group entry (R333). -/
def groupWord (s : State) (partn group i : Nat) : Word :=
  (hwLoad s partn (offBy (partOf s partn).grpb (1024 * group + 8 * i))).2.2

/-- Members, own rank and time limit of a group entry; none while it is invalid. -/
def groupOf? (s : State) (partn group : Nat) : Option (Nat × Nat × Nat) :=
  let w := groupWord s partn group 0
  let g := bits w 8 7
  let k := bits w 16 6
  if bit w 0 ∧ 2 ≤ g ∧ g ≤ 64 ∧ k < g then some (g, k, bits w 32 32) else none

/-- Words of an n-element block. -/
def blockWords (c : Coll) : Nat := c.n * ewidth c.et / 64

/-- Words a member contributes and receives (R336). -/
def contribWords (c : Coll) (g rank : Nat) : Nat :=
  match c.op with
  | 1 => g * blockWords c
  | 3 => if rank = c.root then blockWords c else 0
  | _ => blockWords c

def resultWords (c : Coll) (g : Nat) : Nat := if c.op = 2 then g * blockWords c else blockWords c

/-- Source and result buffers overlap. -/
def overlaps (a : Ptr) (n : Nat) (b : Ptr) (m : Nat) : Bool :=
  decide (a.toNat / 2 ^ 46 = b.toNat / 2 ^ 46) && decide (pOff a < pOff b + 8 * m) && decide (pOff b < pOff a + 8 * n)

/-- The links to the other members of a group; the event where an index is invalid, names this device, or has no usable
link that is up (R323, R324, R333). -/
def groupLinks (s : State) (partn group g rank : Nat) : JobEv ⊕ List Nat :=
  (List.range g).foldl (fun a q =>
    let i := bits (groupWord s partn group (1 + q)) 0 8
    match a with
    | .inl e => .inl e
    | .inr l =>
      if q = rank then (if i = 0 then .inr l else .inl (badOperand 7))
      else match peerLink s partn i 7 with
        | .inr (some x) => .inr (l ++ [x])
        | .inr none => .inl (badOperand 7)
        | .inl e => .inl e) (.inr [])

/-- What the start checks of a COLL read: the group entry and the peer entries (R297, R333). -/
def groupPlaces (s : State) (partn group g rank : Nat) : List (Ptr × Nat) :=
  (offBy (partOf s partn).grpb (1024 * group), 8 * (1 + g))
    :: (List.range g).flatMap fun q => if q = rank then [] else peerPlaces s partn (bits (groupWord s partn group (1 + q)) 0 8)

/-- A member of a team collective by its key (R335). -/
def collMembers (s : State) (key : CollKey) : List (Nat × CollSlot) :=
  s.clusters.flatMap fun c => (c.2.cu.slots.filter fun x => decide (x.key = key)).map fun x => (c.1, x)

/-- A collective of this key is still pending on this device: a member waits, or its job is in an engine (R335). -/
def collPending (s : State) (key : CollKey) : Bool :=
  !(collMembers s key).isEmpty
    || s.clusters.any fun c => c.2.cu.run.any fun r => decide (cmdOpcode r.job = 0x15) && decide (collKey r.job = key)

/-- Members of a collective that have joined and are still in an engine (R335). -/
def collRunning (s : State) (key : CollKey) : List (Nat × Running) :=
  s.clusters.filterMap fun c => (c.2.cu.run.filter fun r =>
    decide (cmdOpcode r.job = 0x15) && decide (collKey r.job = key) && r.ev.isNone).map fun r => (c.1, r)

/-- Words of the source buffer: a broadcast's has n elements at every member (R334, R336). -/
def sourceWords (c : Coll) (g : Nat) : Nat := if c.op = 1 then g * blockWords c else blockWords c

/-! ### The end of a copy job (R319, R321, R322) -/

/-- A CU status word: reason, others, count. -/
def cuStatus (status reason others count : Nat) : Word := statusWord status (reason + others * 2 ^ 9 + count * 2 ^ 16)

/-- Ends a job of the copy unit: event, barrier addition, status 8 cycles later. -/
def cuEnd (s : State) (cl : Nat) (j : Job) (ev : Option JobEv) (ok others bytes count : Nat) : State :=
  let s1 := jobEvent s j (srcCu cl) ev
  let bar := barAdd s1 j bytes
  let s2 := jobEvent bar.1 j (srcCu cl) bar.2
  let fin := match bar.2 with | some e => some e | none => ev
  let w := match fin with | some e => cuStatus e.status e.reason 0 count | none => cuStatus ok 0 others count
  schedStatus s2 (s.cycle + 8) (srcCu cl) j w

/-- Adds a charge at completion to the pushing threads (R186, R326), as DMC.jobs stands then (DESIGN CHOICE, log 98). -/
def completionCharge (s : State) (j : Job) (ch : Nat) : State :=
  let f := fun (st : State) (u : Nat) => match threadOf st u with
    | some th => if th.meter.jobs then lateCharge st u ch else st
    | none => st
  match mateOf s j.uid with | some m => f (f s j.uid) m | none => f s j.uid

/-- The regions that a collective was to fold are the core's next collective's again (R337). -/
def unmarkRegs (s : State) (cl jid : Nat) : State :=
  modCu s cl fun m =>
    { m with regs := m.regs.map fun e => (e.1, e.2.map fun d => if d.coll = some jid then { d with coll := none } else d) }

/-- What a member of a job, a rank and a member count tells the others, with its contribution (R335). -/
def collPeer (j : Job) (rank g : Nat) (vals : List Word) : CollPeer :=
  let c := collOf j
  { rank := rank, g := g, op := c.op, rop := c.rop, et := c.et, n := c.n, root := c.root, vals := vals, fenced := false }

def collPeerOf (x : CollSlot) : CollPeer := collPeer x.job x.rank x.g x.contrib

/-- A member that is still in an engine. -/
def runPeer (r : Running) : CollPeer := collPeer r.job (r.recs.getD 1 0).toNat (r.recs.getD 0 0).toNat (r.recs.drop 2)

/-- Two members belong together (R335). -/
def sameColl (x y : CollPeer) : Bool :=
  decide (x.op = y.op ∧ x.rop = y.rop ∧ x.et = y.et ∧ x.n = y.n ∧ x.root = y.root ∧ x.g = y.g ∧ x.rank ≠ y.rank)

/-- Every two of a list of members belong together. -/
def allSame : List CollPeer → Bool
  | [] => true
  | x :: l => l.all (sameColl x) && allSame l

/-- Removes a collective's slot; regions that it has not folded are the core's next collective's again (R337). -/
def dropSlot (s : State) (cl jid : Nat) : State :=
  unsched (unmarkRegs (modCu s cl fun m => { m with slots := m.slots.filter fun x => decide (x.job.jid ≠ jid) }) cl jid) fun a =>
    match a with | .memberTimeout _ k => decide (k = jid) | _ => false

/-- A member of a collective ends early, with what it has delivered. -/
def slotEnds (s : State) (cl : Nat) (x : CollSlot) (status reason : Nat) : State :=
  cuEnd (dropSlot s cl x.job.jid) cl x.job (some { status := status, reason := reason, page := none, rect := none }) 0 0 x.count x.count

/-- Cycles of a job's element phase whose accesses are done (log 66). -/
def phaseDone (s : State) (r : Running) : Nat := s.cycle - r.start + r.phase - (r.stop - r.start)

/-- The first position or element of a running job that is not done. -/
def elemsDone (s : State) (r : Running) : Nat :=
  let x := listsOf r.job
  if 0x11 ≤ cmdOpcode r.job ∧ cmdOpcode r.job ≤ 0x13 then min x.n (firstElem r.job x + phaseDone s r / 2 ^ x.ew) else 8 * phaseDone s r

/-- A running job ends in this cycle, with what it has delivered: an event it has met stands, else the one given. -/
def stopRun (s : State) (cl : Nat) (r : Running) (e : JobEv) : State :=
  let n := elemsDone s r
  let r1 := { r with ev := if r.ev.isSome ∧ r.evAt < n then r.ev else some e, deliv := r.deliv.filter fun d => decide (d.pos < n),
                     stop := s.cycle, consumed := min r.consumed s.cycle,
                     charge := if r.charge = 0 then 0 else idxCharge s r.job (listsOf r.job) (firstElem r.job (listsOf r.job)) n }
  let s1 := unsched (modCu s cl fun m => { m with run := some r1 }) fun a => match a with | .jobEnd k cu => decide (k = cl) && cu | _ => false
  sched s1 { cycle := s.cycle, late := false, age := s.tsc, src := srcCu cl, act := .jobEnd cl true }

/-- All members of a collective end with a status: those that wait, and those still in an engine. -/
def collEnds (s : State) (key : CollKey) (status reason : Nat) : State :=
  forEach (collRunning s key) (fun s y => stopRun s y.1 y.2 { status := status, reason := reason, page := none, rect := none })
    (forEach (collMembers s key) (fun s y => slotEnds s y.1 y.2 status reason) s)

/-- All members of a team collective have sent their contributions. -/
def allJoined (s : State) (key : CollKey) : Bool :=
  key.team.isSome && (match collMembers s key with | [] => false | x :: l => decide (l.length + 1 = x.2.g))

/-- All members of a team collective have joined, in an engine or out of it. -/
def allStarted (s : State) (key : CollKey) : Bool :=
  key.team.isSome && (match collMembers s key with | [] => false | x :: l => decide (l.length + 1 + (collRunning s key).length = x.2.g))

/-- A member of a team collective meets those that have joined, when its job starts (R335): none where they belong together;
a repeated identifier ends the later job alone, a mismatch all. -/
def collMeets (s : State) (key : CollKey) (p : CollPeer) : Option Bool :=
  let all := (collMembers s key).map (fun y => collPeerOf y.2) ++ (collRunning s key).map fun y => runPeer y.2
  if all.any fun q => decide (q.g ≤ all.length) then some false
  else if allSame (p :: all) then none else some true

/-- Another member of a collective lies in a fenced rectangle (R335). -/
def partnerFenced (s : State) (x : CollSlot) : Bool :=
  (collMembers s x.key).any fun y => decide (y.2.job.jid ≠ x.job.jid) && fencedAt s x.key.partn y.2.job.tile

/-- The start of a COLL: its group, its contribution; `recs` keeps g and rank, `links` the links of the group as they are
now (R325, R333). -/
def startColl (s : State) (_ _ : Nat) (j : Job) (r : Running) : State × Running :=
  let c := collOf j
  let grp := if c.team then some (cmdField j 196 6 + 1, cmdField j 202 6, 0) else groupOf? s j.partn c.group
  match grp with
  | none => failRun s j r (badOperand 7) [(offBy (partOf s j.partn).grpb (1024 * c.group), 8)]
  | some (g, rank, tmo) =>
    let l := if c.team then [] else groupPlaces s j.partn c.group g rank
    if c.op = 3 ∧ g ≤ c.root then failRun s j r (badOperand 7) l
    else if overlaps j.w0 (sourceWords c g) j.w1 (resultWords c g) then failRun s j r (badOperand 2) l
    else if c.team = false ∧ collPending s (collKey j) then failRun s j r (badOperand 7) l
    else
      match if c.team then .inr [] else groupLinks s j.partn c.group g rank with
      | .inl e => failRun s j r e l
      | .inr links =>
        let n := contribWords c g rank
        let k := engMap (fun s (i : Nat) => engAt s j 1 j.w0 (8 * i) 8) (List.range n) s
        let s1 := if tmo ≠ 0 then schedAt k.1 (s.cycle + tmo * 2250) (.memberTimeout (clusterOfTile j.tile) j.jid) else k.1
        let p := collPeer j rank g (k.2.1.map (BitVec.ofNat 64))
        match if c.team ∧ k.2.2.isNone then collMeets s1 (collKey j) p else none with
        | some all => failRun (if all then collEnds s1 (collKey j) 5 7 else s1) j r (badOperand 7) l
        | none =>
        (s1, { r with stop := s.cycle + 16 + (8 * n + 63) / 64, ev := k.2.2, links := links,
                      recs := BitVec.ofNat 64 g :: BitVec.ofNat 64 rank :: k.2.1.map (BitVec.ofNat 64) })

def execColl (s : State) : Host.Outcome State Fault Refusal :=
  copyRow s 0x15 startColl fun a => match a with | .coll cl ci => some (cl, ci) | _ => none

/-- A member has left the engine and waits (R319, R335): a replica member tells the others its contribution; in a team a
repeated identifier ends it, a fenced partner ends it FENCED, a mismatch ends all, the last member lets the collective
proceed. -/
def collJoin (s : State) (cl : Nat) (x : CollSlot) : State :=
  let ms := collMembers s x.key
  let s1 := modCu s cl fun m => { m with slots := m.slots ++ [x] }
  if x.key.team.isNone then { s1 with outbox := s1.outbox ++ [.contribution x.key (collPeerOf x)] }
  else if allJoined s x.key then slotEnds s1 cl x 5 7
  else if partnerFenced s1 x then slotEnds s1 cl x 6 7
  else if !allSame (collPeerOf x :: ms.map fun y => collPeerOf y.2) then collEnds s1 x.key 5 7
  else if allJoined s1 x.key then schedAt s1 (s.cycle + 1) (.collProceed x.key []) else s1

/-- The entries of a core's registration list for a group become those that a collective leaving the engine folds; one that
runs again after a save has them already (R332, R337). -/
def markRegs (s : State) (cl ci : Nat) (j : Job) : State :=
  let c := collOf j
  if c.team || j.ran then s
  else
    modCu s cl fun m =>
      { m with regs := ins m.regs ci ((lookD m.regs ci []).map fun d =>
          if d.group = c.group ∧ d.coll = none then { d with coll := some j.jid } else d) }

/-- What elements delivered before a save add to those that the segment's rerun has delivered, bytes and elements: each
position counts once (R321, R322). -/
def halfMore (E : Nat) (half : List Nat) (got : List (Nat × Nat)) : Nat × Nat :=
  half.foldl (fun a p =>
    let n := lookD got p 0
    (a.1 + (E - n), if n = E then a.2 else a.2 + 1)) (0, 0)

/-- The end of the engine's part of a job. -/
def endCopy (s : State) (cl : Nat) (r : Running) : State :=
  let j := r.job
  let s0 := modCu s cl fun m => { m with run := none }
  if cmdOpcode j = 0x15 ∧ r.ev.isNone then
    let g := (r.recs.getD 0 0).toNat
    let rank := (r.recs.getD 1 0).toNat
    collJoin (markRegs s0 cl r.ci j) cl
      { job := j, ci := r.ci, key := collKey j, rank := rank, g := g, contrib := r.recs.drop 2, joined := r.start,
        proceeding := false, result := [], count := 0, links := r.links, digest := 0, status := none }
  else
    let d := deliverAll j 2 r.skip r.deliv s0
    let ev := match d.ev with | some e => some e | none => r.ev
    let x := listsOf j
    let list := decide (0x11 ≤ cmdOpcode j ∧ cmdOpcode j ≤ 0x13)
    let s1 := if cmdOpcode j = 0x15 then unmarkRegs d.st cl j.jid else d.st
    let s2 := if list then completionCharge s1 j (r.charge + d.charge + j.owed) else s1
    let more := halfMore (8 * 2 ^ x.ew) j.half d.got
    cuEnd s2 cl j ev (if r.skipped || d.skipped then 1 else 0) 0 (d.bytes + j.done * 8 * 2 ^ x.ew + more.1) (d.elems + j.done + more.2)

/-! ### A collective proceeds (R336) -/

/-- Elements of a list of words. -/
def wordElems (et : ElemTy) (l : List Word) : List Nat :=
  l.flatMap fun w => (List.range (64 / ewidth et)).map fun i => elem (ewidth et) w.toNat i

def elemWords (et : ElemTy) (l : List Nat) : List Word :=
  let k := 64 / ewidth et
  (rows k ((l.length + k - 1) / k) l).map fun r => BitVec.ofNat 64 (joinElems (ewidth et) r)

/-- Combines two contributions element by element (R233, R336). -/
def combine (c : Coll) (a b : List Nat) : List Nat :=
  a.zipWith (fun x y =>
    match c.rop with
    | 0 => (addElem c.et .rne false x y).1
    | 1 => (minmaxElem c.et false true x y).1
    | _ => (minmaxElem c.et false false x y).1) b

/-- The whole result from the contributions in rank order. -/
def collResult (c : Coll) (xs : List (List Word)) : List Word :=
  match c.op with
  | 2 => xs.flatten
  | 3 => xs.getD c.root []
  | _ =>
    match xs.map (wordElems c.et) with
    | [] => []
    | x :: t => elemWords c.et (t.foldl (combine c) x)

/-- What rank q receives of the result. -/
def collShare (c : Coll) (q : Nat) (res : List Word) : List Word :=
  if c.op = 1 then (res.drop (q * blockWords c)).take (blockWords c) else res

/-! Digests (R338). -/

def gfmul (a k : BitVec 64) : BitVec 64 :=
  (List.range 64).foldl (fun r n =>
    let i := 63 - n
    let t := (r <<< 1) ^^^ (if r.getLsbD 63 then 0x1B else 0)
    if a.getLsbD i then t ^^^ k else t) 0

def digestOf (cid : Nat) (stream : List Word) : BitVec 128 :=
  let k0 := BitVec.ofNat 64 cid ^^^ 0x5A3C96E10F872D4B
  let k1 := BitVec.ofNat 64 cid ^^^ 0xC3A51E69B4D2873F
  let r := stream.foldl (fun (h : Word × Word) w => (gfmul h.1 k0 ^^^ w, gfmul h.2 k1 ^^^ w)) (0, 0)
  let c := BitVec.ofNat 64 stream.length
  (gfmul r.2 k1 ^^^ c) ++ (gfmul r.1 k0 ^^^ c)

/-- The words of the registered regions that a collective folds, in registration order, or the event of the first that
cannot be read (R323, R338). -/
def regionWords (s : State) (j : Job) (ci cl : Nat) : State × List Nat × Option JobEv :=
  let rs := (lookD (clusterAt s cl).cu.regs ci []).filter fun r => decide (r.coll = some j.jid)
  engMap (fun s (a : Ptr × Nat) => engAt s j 1 a.1 (8 * a.2) 8) (rs.flatMap fun r => (List.range (r.len / 8)).map fun i => (r.ptr, i)) s

/-- Delivers a member's share in rising address order; a word beyond the offset range is the destination's event (R323,
R336). -/
def collDeliver (s : State) (x : CollSlot) (res : List Word) : Delivered :=
  let l := (collShare (collOf x.job) x.rank res).zipIdx.map fun w => wordDeliv w.2 x.job.w1 (8 * w.2) 0 w.1.toNat 1 0
  let d := deliverAll x.job 2 false ((l.takeWhile (·.isSome)).filterMap id) s
  if d.ev.isNone ∧ l.any (·.isNone) then { d with ev := some (badOperand 2) } else d

/-- One member of a proceeding collective: its result delivered; a team member ends, a replica sends its digest. -/
def collMember (res : List Word) (s : State) (m : Nat × CollSlot) : State :=
  let x := m.2
  let d := collDeliver s x res
  let s1 := modCu d.st m.1 fun u => { u with slots := u.slots.map fun y =>
    if y.job.jid = x.job.jid then { y with proceeding := true, count := d.bytes } else y }
  let ends := fun (st : State) (e : Option JobEv) => cuEnd (dropSlot st m.1 x.job.jid) m.1 x.job e 0 0 d.bytes d.bytes
  match d.ev, x.key.team with
  | some e, _ => ends s1 (some e)
  | none, some _ => ends s1 none
  | none, none =>
    match regionWords s1 x.job x.ci m.1 with
    | (s2, _, some e) => ends s2 (some e)
    | (s2, ws, none) =>
      let dg := digestOf x.key.cid (res ++ ws.map (BitVec.ofNat 64))
      let s3 := modCu s2 m.1 fun u =>
        { u with regs := ins u.regs x.ci ((lookD u.regs x.ci []).filter fun r => decide (r.coll ≠ some x.job.jid)),
                 slots := u.slots.map fun y => if y.job.jid = x.job.jid then { y with digest := dg } else y }
      { s3 with outbox := s3.outbox ++ [.digest x.key x.rank dg] }

/-- The members of this device and of its peers meet (R335, R344): one in a fenced rectangle ends the others FENCED, a
mismatch ends all, and when every rank has joined the collective proceeds. -/
def collProceeds (s : State) (key : CollKey) (peers : List CollPeer) : Option State :=
  let ms := collMembers s key
  match ms with
  | [] => none
  | (_, x) :: _ =>
    let all := ms.map (fun m => collPeerOf m.2) ++ peers
    let xs := (List.range x.g).map fun q => (all.find? fun p => decide (p.rank = q)).map (·.vals)
    if x.proceeding then none
    else if peers.any (·.fenced) then some (collEnds s key 6 7)
    else if !allSame all then some (collEnds s key 5 7)
    else if xs.any (·.isNone) then none
    else some (forEach ms (collMember (collResult (collOf x.job) (xs.map (·.getD [])))) s)

/-! ### The digest decision (R339, R340) -/

/-- The verdict over all digests: 0 unanimous, 1 majority, 2 undecided, with the minority ranks. -/
def verdict (ds : List (BitVec 128)) : Nat × List Nat :=
  let same := fun (d : BitVec 128) => (ds.filter (· = d)).length
  if ds.all (fun d => ds.all (· = d)) then (0, [])
  else
    match ds.find? fun d => decide (ds.length < 2 * same d) with
    | some v => if 3 ≤ ds.length then (1, (ds.zipIdx.filter fun x => decide (x.1 ≠ v)).map (·.2)) else (2, List.range ds.length)
    | none => (2, List.range ds.length)

/-- The member's end after the decision; a peer whose member a containment reset has discarded ends it FENCED (R344). -/
def digestDecides (s : State) (key : CollKey) (peers : List (Nat × Option (BitVec 128))) : Option State :=
  match collMembers s key with
  | [] => none
  | (cl, x) :: _ =>
    let ds := (List.range x.g).map fun q => if q = x.rank then some x.digest else (look peers q).getD none
    if x.proceeding = false ∨ key.team.isSome ∨ x.status.isSome then none
    else if peers.any fun p => p.2.isNone then some (slotEnds s cl x 6 7)
    else if ds.any (·.isNone) then none
    else
      let v := verdict (ds.map (·.getD 0))
      let inMin := decide (x.rank ∈ v.2)
      let s1 := if v.1 = 0 then s else modPart s key.partn fun p =>
        { p with divs := p.divs ||| BitVec.ofNat 64 (2 ^ key.group + if inMin then 2 ^ (16 + key.group) else 0) }
      if inMin then
        let addr := BitVec.ofNat 64 (v.2.foldl (fun a q => a + 2 ^ q) 0)
        let info := BitVec.ofNat 64 (key.group + (if v.1 = 2 then 16 else 0) + x.g * 2 ^ 8 + x.rank * 2 ^ 16)
        let e := jobEntry s1 x.job (srcCu cl) 0x1B addr info 4
        let s2 := postHost (postSup s1 key.partn e) e
        let w := cuStatus 3 (if v.1 = 1 then 8 else 9) 0 x.count
        some (modCu s2 cl fun u => { u with slots := u.slots.map fun y => if y.job.jid = x.job.jid then { y with status := some w } else y })
      else some (cuEnd (dropSlot s1 cl x.job.jid) cl x.job none 0 (if v.1 = 0 then 0 else 1) x.count x.count)

/-- A member whose divergence entry has been posted ends (R151, R340). -/
def divergedEnds (s : State) (cl : Nat) (x : CollSlot) (w : Word) : State :=
  let s1 := dropSlot s cl x.job.jid
  let bar := barAdd s1 x.job x.count
  let s2 := jobEvent bar.1 x.job (srcCu cl) bar.2
  let w' := match bar.2 with | some e => cuStatus e.status e.reason 0 x.count | none => w
  schedStatus s2 (s.cycle + 8) (srcCu cl) x.job w'

/-- A replica member whose collective has not proceeded in time ends LINK_LOST, in its slot or still in the engine; one
whose group entry has become invalid ends PREEMPTED, one whose partner is fenced FENCED (R323, R335). -/
def memberTimesOut (s : State) (cl jid : Nat) : State :=
  match (clusterAt s cl).cu.slots.find? fun x => decide (x.job.jid = jid) with
  | none =>
    match (clusterAt s cl).cu.run with
    | some r => if r.job.jid = jid then stopRun s cl r { status := 2, reason := 0x00C, page := none, rect := none } else s
    | none => s
  | some x =>
    match x.status with
    | some w => if entryHeld s x.key.partn x.job.tile (srcCu cl) 0x1B then s else divergedEnds s cl x w
    | none =>
      if x.proceeding then s
      else if x.key.team.isNone ∧ (groupOf? s x.key.partn x.key.group).isNone then slotEnds s cl x 7 7
      else if x.key.team.isSome then (if partnerFenced s x then slotEnds s cl x 6 7 else s)
      else slotEnds s cl x 2 0x00C

/-! ### Charges at push (R326) -/

/-- The charge of a COPY or FILL, from the shape record as it stands: each line read and each line written once. -/
def copyCharge (s : State) (j : Job) : Nat :=
  let op := cmdOpcode j
  if op ≠ 0x10 ∧ op ≠ 0x14 then 0
  else
    let h := if j.w2 = 0 then { w0 := cmdField j 192 20, c1 := 1, c2 := 1, ss1 := 0, ds1 := 0, ss2 := 0, ds2 := 0 }
      else shapeOf (peekRecord s j j.w2)
    let lines := fun (peer k : Nat) (gs : List (Ptr × Nat)) =>
      (groupLines gs).foldl (fun b p => if peer ≠ 0 ∨ reachable s j.partn p then b + placeCharge s j peer p k else b) 0
    let rec_ := if j.w2 = 0 then [] else [(j.w2, 32)]
    (if op = 0x10 ∧ cmdField j 212 8 = 0 then lines 0 2 (rec_ ++ shapeRuns h j.w0 true)
      else lines 0 2 rec_ + (if op = 0x10 then lines (cmdField j 212 8) 2 (shapeRuns h j.w0 true) else 0))
      + lines (cmdField j 220 8) 3 (shapeRuns h (if op = 0x10 then j.w1 else j.w0) false)

end Sys2Proof.Machine
end

