-- ==== Sys2Proof/Machine/Fetch.lean ====
section
/-! DEFINITION. Which thread of which core issues (R75, R78), fetching the words of its unit (R22, R87), and the state
in which a unit is executed. -/

namespace Sys2Proof.Machine

/-- The thread's team is being held: no thread of it begins a further unit (R400). -/
def teamHolds (s : State) (th : Thread) : Bool := (teamOf s th.partn th.serial).any (·.holding)

/-- The thread may issue this cycle (R75, R77). One that has been terminated does not (R384). -/
def canIssue (s : State) (th : Thread) : Bool :=
  decide (th.stand = .inSlot) && decide (th.leaving = 0) && !th.stopped && !th.held && !th.ending && !teamHolds s th && decide (th.readyAt ≤ s.cycle)
    && (match th.wait with | .none => true | .tyield _ => true | _ => false)

/-- The lower of two numbers, if any. -/
def minOpt : Option Nat → Nat → Option Nat
  | none, n => some n
  | some m, n => some (min m n)

/-- The lowest tile whose turn in this cycle has not passed and that has a ready thread and has not issued in it:
issueFrom is 0 before the first issue of a cycle, then one more than the tile that issued last. -/
def issueTile (s : State) : Option Nat :=
  s.threads.foldl (fun a e =>
    if canIssue s e.2 && decide (s.issueFrom ≤ e.2.tile + 1) && decide ((tileOf s e.2.tile).lastIssue ≠ some s.cycle) then
      minOpt a e.2.tile
    else a) none

/-- The place of a slot in the rotation that starts after `last` (R78). -/
def turn (last slot : Nat) : Nat := (slot + 31 - last) % 16

/-- The ready thread of a tile that is first in the rotation (R78). -/
def issueThread (s : State) (t : Nat) : Option (Nat × Thread) :=
  s.threads.foldl (fun a e =>
    if canIssue s e.2 && decide (e.2.tile = t) then
      match a with
      | none => some e
      | some b => if turn (tileOf s t).last e.2.slot < turn (tileOf s t).last b.2.slot then some e else a
    else a) none

/-- A fetched word, or the fault of its fetch with its pointer. -/
inductive Fetched
  | word (w : BitVec 32) (fx : Nat)
  | bad (cause info : Nat) (host : Bool)
  deriving DecidableEq, Repr, Inhabited

/-- The time a fetch through a pointer adds to a unit (R87, R177, R212). -/
def fetchLat (s : State) (th : Thread) (p : Ptr) : Nat :=
  match placeOf s th.partn p with
  | none => 0
  | some (.spad t o) =>
    let stubs := (stubEnd s th.partn p).2.2
    let legs := (stubs.foldl (fun (a : Nat × Nat) x =>
      let nxt := match placeOf s th.partn (blockAt s x.1 x.2).stub with | some (.spad u _) => u | _ => x.1
      (a.1 + 2 * owTiles s x.1 nxt + 8, nxt)) (0, t)).1
    (if t = th.tile then 0 else latTo s th.tile (.spad t o) false) + legs
  | some (.chan c o) =>
    latTo s th.tile (.chan c o) false + (if (cached s c th.partn o).isSome then 0 else walkLat s c th.partn o)
  | some (.tier2 c o) =>
    latTo s th.tile (.tier2 c o) false + (if (cached s (48 + c) th.partn o).isSome then 0 else walkLat s (48 + c) th.partn o)
  | some _ => 0

/-- Reads one instruction word (R87): kinds 0, 2, 3 and 4, 4-aligned, the page's x, no poison. -/
def fetchWord (s : State) (th : Thread) (p : Ptr) : State × Fetched :=
  if (decide (pKind p = 0) || decide (pKind p = 2) || decide (pKind p = 3) || decide (pKind p = 4)) = false then
    (s, .bad 0x08 1 false)
  else if limitsOf s th.partn p ≠ 0 then (s, .bad 0x08 (limitsOf s th.partn p) false)
  else if pOff p % 4 ≠ 0 then (s, .bad 0x07 4 false)
  else
    match hwKey s th.partn p false true with
    | (s1, .bad c i h) => (s1, .bad c i h)
    | (s1, .ok k) =>
      if wordPois s1 (k / 8 * 8) then (s1, .bad 0x1C (placeNum k) false)
      else (s1, .word (BitVec.ofNat 32 (memRead s1.mem k 4)) (fetchLat s th p))

/-- What became of fetching and decoding a unit. -/
inductive UnitIn
  | ready (i : Instr) (words : Nat) (w : BitVec 32)
  | refused (f : DecodeFault) (words : Nat) (w : BitVec 32)
  | bad (p : Ptr) (cause info : Nat) (host : Bool)
  deriving DecidableEq, Repr, Inhabited

/-- Fetches words until a unit decodes or fails (R22, R34); the latency is that of the first word's place. -/
def fetchFrom (s : State) (th : Thread) (fx : Nat) : Nat → List (BitVec 32) → State × UnitIn × Nat
  | 0, ws => (s, .refused (badUnit 3 0 2 1) ws.length (ws.getLastD 0), fx)
  | n + 1, ws =>
    let p := offBy th.pc (4 * ws.length)
    match fetchWord s th p with
    | (s1, .bad c i h) => (s1, .bad p c i h, fx)
    | (s1, .word w l) =>
      let fx' := if ws.isEmpty then l else fx
      match decodeUnit th.sup (ws ++ [w]) with
      | .unit i k => (s1, .ready i k w, fx')
      | .bad f k => (s1, .refused f k w, fx')
      | .more => fetchFrom s1 th fx' n (ws ++ [w])

/-- The unit at a thread's PC. -/
def fetchUnit (s : State) (th : Thread) : State × UnitIn × Nat := fetchFrom s th 0 3 []

/-- The restartable units (R154). -/
def restarts : Instr → Bool
  | .vld .. => true
  | .vst .. => true
  | .vlds .. => true
  | .vsts .. => true
  | .vldx .. => true
  | .vstx .. => true
  | .vstxa .. => true
  | .ldn .. => true
  | .stn .. => true
  | _ => false

/-- The unit at an address, as the words there now stand, is a restartable one. -/
def restartsAt (s : State) (th : Thread) (pc : Ptr) : Bool :=
  match (fetchUnit s { th with pc := pc }).2.1 with
  | .ready i _ _ => restarts i
  | _ => false

/-- The state in which a unit is executed (R27): its first word, the unit after it, the fetch latency. -/
def curFor (u : Nat) (th : Thread) (words fx : Nat) (w : BitVec 32) : Cur :=
  { uid := u, fpc := th.pc, npc := offBy th.pc (4 * words), fx := fx, word := w, pos := words - 1 }

/-- What the machine does next. -/
inductive Choice
  | run (i : Instr) (s : State)
  | rest (s : State)

/-- The unit of a thread that is about to issue: a late fault, a breakpoint or a fetch fault in place of it, or its
instruction (R144, R186, R398). A fetch from a block that is being moved is held till the move is over (R211). -/
def issueUnit (s : State) (u : Nat) (th : Thread) : Choice :=
  let c0 := curFor u th 1 0 0
  match th.late with
  | l :: rest =>
    let s1 := modThread (issued s c0) u fun t => { t with late := rest }
    .rest (takeFault s1 u { cause := l.cause, addr := l.addr, info := l.info, progress := th.resume, fpc := th.pc, tick := l.tick,
                            host := false } (s.cycle + 8))
  | [] =>
    match breakHit s th th.pc with
    | some i => .rest (raise s c0 0x18 th.pc i th.resume)
    | none =>
      if (fetchUnit s th).1.behind.isSome then .rest (modThread s u fun t => { t with readyAt := s.cycle + 1 })
      else
      match fetchUnit s th with
      | (s1, .bad p cause info host, fx) =>
        let c := { c0 with fx := fx }
        .rest (takeFault (issued s1 c) u { cause := cause, addr := p, info := BitVec.ofNat 64 info, progress := th.resume, fpc := th.pc,
                                           tick := now s, host := host } (s.cycle + fx + 8))
      | (s1, .refused f k w, fx) => .run (.illegalInstruction f) { s1 with cur := some (curFor u th k fx w) }
      | (s1, .ready i k w, fx) => .run i { s1 with cur := some (curFor u th k fx w) }

/-- The unit that was refused by the decode checks takes its fault (R34, R35). -/
def decodeInfo (f : DecodeFault) : Word :=
  BitVec.ofNat 64 (f.word.toNat + f.pos * 2 ^ 32 + f.reason * 2 ^ 36)

/-- A word of the majors of the dennum unit (R38): DA, DX, DM, `prec`. -/
def dennumWord (w : BitVec 32) : Bool := decide (0x30 ≤ w.toNat / 2 ^ 26 ∧ w.toNat / 2 ^ 26 ≤ 0x33)

/-- A refused dennum unit holds its thread for 8 cycles first (R266). -/
def execIllegalInstruction (f : DecodeFault) (s : State) : Host.Outcome State Fault Refusal :=
  withCur s fun c _ =>
    if dennumWord c.word then raiseEnd 8 s c f.cause 0 (decodeInfo f) 0 else raise s c f.cause 0 (decodeInfo f) 0

end Sys2Proof.Machine
end

