-- ==== Sys2Proof/Machine/Events.lean ====
section
/-! DEFINITION. Local-time mode: the event unit's floor, promises and horizon, dispatch and end, almanacs and vigils,
events in flight, links, and the instructions `evsend`, `evnext`, `evnull`, `lkset` (R345-R368). -/

namespace Sys2Proof.Machine

def maxTime : Nat := 2 ^ 64 - 1

/-- A sum that saturates at 2^64 - 1. -/
def satAdd (w : Word) (n : Nat) : Word := BitVec.ofNat 64 (min (w.toNat + n) maxTime)

def wmin (a b : Word) : Word := if a.ult b then a else b
def wmax (a b : Word) : Word := if a.ult b then b else a

/-! ### Floor, promises, horizon (R351) -/

/-- The living threads of the local-time team on a tile; a pair counts once (R366). -/
def evThreads (s : State) (tile : Nat) : List Nat :=
  threadsWhere s fun _ th => decide (th.tile = tile) && th.ltm && decide (th.role ≠ 2)

def evParked (th : Thread) : Bool := match th.wait with | .evnext _ _ => true | _ => false

def threadsOf (s : State) (us : List Nat) : List Thread := us.filterMap fun u => threadOf s u

def allParkedAt (s : State) (tile : Nat) : Bool := (threadsOf s (evThreads s tile)).all evParked

/-- F: the least VCK among the threads that are not parked, CCK where all are. -/
def evFloor (s : State) (tile : Nat) : Word :=
  match (threadsOf s (evThreads s tile)).filter fun th => !evParked th with
  | [] => (evuOf s tile).cck
  | th :: rest => rest.foldl (fun a x => wmin a x.lt.vck) th.lt.vck

/-- What this cycle's examinations go by (R352): the state at its start. -/
def evNow (s : State) (tile : Nat) : EvSnap :=
  let now := fun (_ : Unit) =>
    { cycle := s.cycle, floor := evFloor s tile, allParked := allParkedAt s tile, head := (evuOf s tile).pending.head?,
      spent := false : EvSnap }
  match (evuOf s tile).snap with
  | some p => if p.cycle = s.cycle then (if p.spent then p else { p with head := (evuOf s tile).pending.head? }) else now ()
  | none => now ()

/-- Keeps what the cycle goes by before a dispatch or an end changes it. -/
def keepSnap (s : State) (tile : Nat) : State := modEvu s tile fun e => { e with snap := some { evNow s tile with spent := true } }

/-- What each inbound link offers the horizon: source, L, promise; the self link only while a thread is not parked. -/
def offers (s : State) (tile : Nat) : List (Nat × Nat × Word) :=
  let n := evNow s tile
  (evuOf s tile).inb.filterMap fun e =>
    if e.2.src = tile then (if n.allParked then none else some (e.2.src, e.2.look, satAdd n.floor e.2.look))
    else some (e.2.src, e.2.look, e.2.p)

/-- H. -/
def horizonAt (s : State) (tile : Nat) : Word :=
  (offers s tile).foldl (fun a o => wmin a o.2.2) (BitVec.ofNat 64 maxTime)

/-- The link that attains H, from the lowest source number. -/
def attaining (s : State) (tile : Nat) : Option (Nat × Nat × Word) :=
  ((offers s tile).filter fun o => decide (o.2.2 = horizonAt s tile)).foldl
    (fun (a : Option (Nat × Nat × Word)) o => match a with | some b => if o.1 < b.1 then some o else a | none => some o) none

/-- Route time of an event, almanac or vigil (R358). -/
def evTime (s : State) (a b : Nat) : Nat := 6 + owTiles s a b

/-! ### Sending promises (R354, R355, R357) -/

/-- A message to the target of an outbound slot. -/
def sendPromise (s : State) (tile slot : Nat) (v : Word) (vigil : Bool) : State :=
  match look (evuOf s tile).out slot, (threadsOf s (threadsWhere s fun _ th => decide (th.tile = tile) && th.ltm)).head? with
  | some l, some th =>
    let m : PromiseMsg := { partn := th.partn, serial := th.serial, src := tile, dst := l.dst, value := v }
    let s1 := modEvu s tile fun e =>
      { e with out := ins e.out slot { l with sent := v, lastMsg := some s.cycle },
               ltmt := satAdd e.ltmt (128 * lenTiles s tile l.dst) }
    sched s1 { cycle := s.cycle + evTime s tile l.dst, late := false, age := s.tsc, src := tile,
               act := if vigil then .vigilEvent m else .almanacMessage m }
  | _, _ => s

/-- Outbound slots that do not lead to the tile itself. -/
def farSlots (s : State) (tile : Nat) : List (Nat × OutLink) := (evuOf s tile).out.filter fun x => decide (x.2.dst ≠ tile)

/-- Sends on each far link whose last value is lower. -/
def sendAll (s : State) (tile : Nat) (vigil : Bool) (value : OutLink → Word) : State :=
  forEach (farSlots s tile) (fun s x => if x.2.sent.ult (value x.2) then sendPromise s tile x.1 (value x.2) vigil else s) s

/-- The last living thread of the team on a core leaves: exit promises, then the pending set and the links go (R357). The
thread is still in the state. -/
def exitPromise (s : State) (u : Nat) : State :=
  match threadOf s u with
  | none => s
  | some th =>
    if th.ltm && (threadsWhere s fun v t => decide (t.tile = th.tile ∧ v ≠ u) && t.ltm).isEmpty then
      let s1 := forEach (farSlots s th.tile) (fun s x => sendPromise s th.tile x.1 (BitVec.ofNat 64 maxTime) false) s
      modEvu s1 th.tile fun e => { e with out := [], inb := [], pending := [], snap := none, blockedFrom := none, rounds := 0 }
    else s

/-- What the start of the next cycle finds (R351, R354, R355): blocked stretches begin and end, promises that have risen
are held for their links. -/
def evuTick (s : State) (tile : Nat) : State :=
  let e := evuOf s tile
  let us := threadsOf s (evThreads s tile)
  if us.isEmpty then s
  else
    let f := evFloor s tile
    let out := e.out.map fun x =>
      let l := x.2
      let p := satAdd f l.look
      let h := match l.hold with | some v => if l.sent.ult v then some v else none | none => none
      (x.1, { l with hold := if l.dst ≠ tile ∧ (wmax l.sent (h.getD 0)).ult p then some p else h })
    let snap : EvSnap := { cycle := s.cycle + 1, floor := f, allParked := us.all evParked, head := none, spent := false }
    if us.all evParked then
      let k := { e with out := out, snap := some snap, blockedFrom := some (e.blockedFrom.getD s.cycle) }
      modEvu s tile fun _ =>
        if e.blockedFrom.isNone then { k with blkH := horizonAt s tile, blkHead := e.pending.head?, rounds := 0 } else k
    else modEvu s tile fun _ => { e with out := out, snap := some snap, blockedFrom := none, rounds := 0 }

/-! ### Dispatch and end (R352, R353) -/

/-- The thread that takes an event: the one parked longest, ties to the lower slot. -/
def taker (s : State) (us : List Nat) (t : Word) : Option Nat :=
  (us.foldl (fun (a : Option (Nat × Nat × Nat)) u =>
    match threadOf s u with
    | some th =>
      match th.wait with
      | .evnext _ since =>
        if t.ult th.lt.vend then
          match a with
          | some (_, n, k) => if since < n ∨ (since = n ∧ th.slot < k) then some (u, since, th.slot) else a
          | none => some (u, since, th.slot)
        else a
      | _ => a
    | none => a) none).map (·.1)

/-- The event that is dispatched in this cycle and its thread; at most one a cycle. -/
def dispatchable (s : State) (tile : Nat) : Option (Event × Nat) :=
  let e := evuOf s tile
  if e.snap.any fun p => p.spent && decide (p.cycle = s.cycle) then none
  else
    match e.pending with
    | x :: _ => if x.t.ult (horizonAt s tile) then (taker s (evThreads s tile) x.t).map fun u => (x, u) else none
    | [] => none

/-- A thread that reaches the end in this cycle. -/
def endable (s : State) (tile : Nat) : Option Nat :=
  let h := horizonAt s tile
  let n := evNow s tile
  (evThreads s tile).find? fun u =>
    match threadOf s u with
    | some th => evParked th && !h.ult th.lt.vend && (match n.head with | some x => !x.t.ult th.lt.vend | none => true)
    | none => false

/-- The three registers of an `evnext`. -/
def evRegs (d : Fin 30) (f : SReg → Thread → Thread) (th : Thread) : Thread :=
  f (rS (d.val + 2)) (f (rS (d.val + 1)) (f (rS d.val) th))

/-- Writes the result of an `evnext`. -/
def evResult (d : Fin 30) (ws : List Word) (th : Thread) : Thread :=
  let t := sset (rS (d.val + 2)) (ws.getD 2 0) (sset (rS (d.val + 1)) (ws.getD 1 0) (sset (rS d.val) (ws.getD 0 0) th))
  match ws.drop 3 with
  | [vck, esrc] => { t with lt := { t.lt with vck := vck, esrc := esrc } }
  | _ => t

/-- A parked `evnext` completes (R363); in a pair its result enters the load-value queue (R366). -/
def evComplete (s : State) (u : Nat) (ws : List Word) : State :=
  match threadOf s u with
  | none => s
  | some th =>
    match th.wait with
    | .evnext d _ =>
      lvEnter (complete s u (offBy th.pc 4) (evResult d ws)) u th (.vals ws)
    | _ => s

/-- Guest coordinates of a tile as ESRC holds them. -/
def guestPack (s : State) (partn tile : Nat) : Nat :=
  match frameOf s partn with
  | some f => packCore (guestX f tile) (guestY f tile)
  | none => 0

/-- The ring words of the pending events beyond the heap (R349): offset and word, in order from the ring's base (log 31). -/
def ringWords (s : State) (tile : Nat) : List (Nat × Word) :=
  let base := (tileOf s tile).evsp.toNat % 2 ^ 20
  (((evuOf s tile).pending.drop 64).flatMap fun (x : Event) => [x.t, x.pay0, x.pay1, BitVec.ofNat 64 x.src]).zipIdx.map fun w =>
    (base + 8 * w.2, w.1)

def spill (s : State) (tile : Nat) : State := (ringWords s tile).foldl (fun s w => spillStore s tile w.1 w.2) s

def dispatchEvent (s : State) (tile : Nat) : Option State :=
  match dispatchable s tile with
  | none => none
  | some (x, u) =>
    match threadOf s u with
    | none => none
    | some th =>
      let s1 := modEvu (keepSnap s tile) tile fun e => { e with pending := e.pending.drop 1, cck := x.t, blockedFrom := none, rounds := 0 }
      some (spill (evComplete s1 u [x.t, x.pay0, x.pay1, x.t, BitVec.ofNat 64 (guestPack s th.partn x.src)]) tile)

def execEventDispatch (s : State) : Host.Outcome State Fault Refusal :=
  actRow s fun a s => match a with | .eventDispatch tile => dispatchEvent s tile | _ => none

def execEndOfLocalTime (s : State) : Host.Outcome State Fault Refusal :=
  actRow s fun a s =>
    match a with
    | .endOfLocalTime tile uid =>
      if endable s tile = some uid then
        some (evComplete (modEvu (keepSnap s tile) tile fun e => { e with blockedFrom := none, rounds := 0 }) uid
          [BitVec.ofNat 64 maxTime, 0, 0])
      else none
    | _ => none

/-! ### Almanacs (R354) -/

/-- What a fenced rectangle turns away is counted at the core that sent it (R417). -/
def countDrop (s : State) (tile : Nat) : State := modEvu s tile fun e => { e with drops := min (e.drops + 1) 0xFFFFFFFF }

def promiseArrives (s : State) (m : PromiseMsg) : State :=
  if fencedAt s m.partn m.dst then countDrop s m.src
  else if (threadsWhere s fun _ th => decide (th.tile = m.dst ∧ th.partn = m.partn ∧ th.serial = m.serial)).isEmpty then s
  else modEvu s m.dst fun e =>
    { e with inb := e.inb.map fun x => (x.1, if x.2.src = m.src then { x.2 with p := wmax x.2.p m.value } else x.2) }

def execAlmanacMessage (s : State) : Host.Outcome State Fault Refusal :=
  actRow s fun a s => match a with | .almanacMessage m => some (promiseArrives s m) | _ => none

/-- A held promise whose 64 cycles have passed. -/
def almanacDue (s : State) (l : OutLink) : Option Word :=
  match l.hold with
  | some v => if l.sent.ult v && (match l.lastMsg with | some c => decide (c + 64 ≤ s.cycle) | none => true) then some v else none
  | none => none

def execAlmanacHoldExpiry (s : State) : Host.Outcome State Fault Refusal :=
  actRow s fun a s =>
    match a with
    | .almanacHoldExpiry tile slot =>
      match look (evuOf s tile).out slot with
      | some l =>
        (almanacDue s l).map fun v =>
          sendPromise (modEvu s tile fun e => { e with out := ins e.out slot { l with hold := none } }) tile slot v false
      | none => none
    | _ => none

/-! ### Vigil rounds (R355, R356) -/

/-- G: the least VGDL that is not zero. -/
def vigilDelay (s : State) (tile : Nat) : Nat :=
  (threadsOf s (evThreads s tile)).foldl (fun a th =>
    let g := bits th.lt.vgdl 0 32
    if g = 0 then a else if a = 0 then g else min a g) 0

/-- A vigil round takes place in this cycle: the stretch it belongs to. -/
def vigilDue (s : State) (tile : Nat) : Option Nat :=
  let e := evuOf s tile
  match e.blockedFrom with
  | some b =>
    let g := vigilDelay s tile
    if g ≠ 0 ∧ b < s.cycle ∧ (s.cycle - b) % g = 0 ∧ e.lastRound ≠ some s.cycle then some b else none
  | none => none

/-- The zero-lookahead fault of a parked thread: its registers are full and unchanged (R363). -/
def zeroLookahead (s : State) (tile : Nat) (o : Nat × Nat × Word) (rounds u : Nat) : State :=
  match threadOf s u with
  | none => s
  | some th =>
    match th.wait with
    | .evnext d _ =>
      let info := guestPack s th.partn o.1 + (if o.1 = tile then 2 ^ 15 else 0) + min rounds 255 * 2 ^ 16
      let b : PartFault := { cause := 0x13, info := info, addr := 0, tick := now s, host := false }
      let s1 := lvEnter s u th (.got [] 0 [(0, b)] none)
      takeFault (modThread s1 u (evRegs d sfill)) u
        { cause := 0x13, addr := 0, info := BitVec.ofNat 64 info, progress := 0, fpc := th.pc, tick := now s, host := false }
        (s.cycle + 1)
    | _ => s

def vigil (s : State) (tile : Nat) : State :=
  let e := evuOf s tile
  let h := horizonAt s tile
  let v := match e.pending.head? with | some x => wmin h x.t | none => h
  let s1 := sendAll s tile true fun l => satAdd v l.look
  let n := if h = e.blkH ∧ e.pending.head? = e.blkHead then min (e.rounds + 1) 255 else 0
  let s2 := modEvu s1 tile fun k => { k with rounds := n, blkH := h, blkHead := e.pending.head?, lastRound := some s.cycle }
  match attaining s tile with
  | some o =>
    if o.2.1 = 0 then
      forEach (threadsWhere s fun _ th => decide (th.tile = tile) && th.ltm && decide (th.role ≠ 2) && evParked th
          && decide (bits th.lt.zlk 0 8 ≠ 0 ∧ bits th.lt.zlk 0 8 ≤ n))
        (fun s u => zeroLookahead s tile o n u) s2
    else s2
  | none => s2

def execVigilRound (s : State) : Host.Outcome State Fault Refusal :=
  actRow s fun a s =>
    match a with
    | .vigilRound tile stamp => if vigilDue s tile = some stamp then some (vigil s tile) else none
    | _ => none

def execVigilEvent (s : State) : Host.Outcome State Fault Refusal :=
  actRow s fun a s => match a with | .vigilEvent m => some (promiseArrives s m) | _ => none

/-! ### Events in flight (R349, R350, R358) -/

/-- Entries that the spill ring holds. -/
def ringRoom (evsp : Word) : Nat := if evsp = 0 then 0 else 64 * 2 ^ bits evsp 32 4

/-- Enters an event behind its equals. -/
def enterEvent (l : List Event) (e : Event) : List Event :=
  match l with
  | [] => [e]
  | x :: t => if e.t.ult x.t ∨ (e.t = x.t ∧ e.src < x.src) then e :: x :: t else x :: enterEvent t e

/-- An event at its target: entered or discarded, unless the heap and the ring are full. -/
def enterOrBusy (s : State) (m : EventMsg) : State × Bool :=
  if fencedAt s m.partn m.dst then (countDrop s m.src, false)
  else if (threadsWhere s fun _ th => decide (th.tile = m.dst ∧ th.partn = m.partn ∧ th.serial = m.serial)).isEmpty then
    (countDrop s m.dst, false)
  else if 64 + ringRoom (tileOf s m.dst).evsp ≤ (evuOf s m.dst).pending.length then (s, true)
  else
    (spill (modEvu s m.dst fun e =>
      { e with pending := enterEvent e.pending { t := m.t, pay0 := m.pay0, pay1 := m.pay1, src := m.src } }) m.dst, false)

/-- Events that a core holds for a target. -/
def heldFor (s : State) (src dst : Nat) : List EventMsg := (evuOf s src).held.filter fun m => decide (m.dst = dst)

/-- An event on its way to its target (R358). -/
def sendEvent (s : State) (m : EventMsg) : State :=
  sched s { cycle := s.cycle + evTime s m.src m.dst, late := false, age := m.inj, src := m.src, act := .eventEntry m }

/-- Joins the held events behind those that were sent before it (R138, R350). -/
def holdEvent (m : EventMsg) : List EventMsg → List EventMsg
  | [] => [m]
  | x :: l => if m.sent < x.sent then m :: x :: l else x :: holdEvent m l

def joinHeld (s : State) (m : EventMsg) : State := modEvu s m.src fun e => { e with held := holdEvent m e.held }

/-- Sends an event in its turn: behind the held ones for its target, or on its way. -/
def postEvent (s : State) (m : EventMsg) : State :=
  let x := { m with sent := s.cycle }
  if (heldFor s m.src m.dst).isEmpty then sendEvent s x else joinHeld s x

/-- The next unit of a thread does not issue before an event that it sent over a self link has been entered (R137). -/
def selfWaits (s : State) (m : EventMsg) : State :=
  if m.src = m.dst then modThread s m.uid fun t => if t.wait = .none then { t with wait := .evEnter m } else t else s

/-- The end of an `evsend` whose event has been posted: one over a self link that is held keeps its thread. -/
def selfHeld (s : State) (m : EventMsg) : State := if m ∈ heldFor s m.src m.dst then selfWaits s m else s

/-- An `evsend` that found 16 events held goes on: it sends its event now and its latency follows (R350, log 44). -/
def evHeldEnds (s : State) (u : Nat) : State :=
  match threadOf s u with
  | some th =>
    match th.wait with
    | .evHeld m => selfHeld (modThread (postEvent s m) u (unitOver (offBy th.pc 4) (s.cycle + 8))) { m with sent := s.cycle }
    | _ => s
  | none => s

/-- An event has been entered or discarded: what waited for that goes on (R130, R137). -/
def evEntered (s : State) (m : EventMsg) : State :=
  match threadOf s m.uid with
  | some th => if th.wait = .evEnter m then wake s m.uid else recheck s m.uid
  | none => s

/-- The cycle from which an `evsend` has waited. -/
def evHeldSince (s : State) (u : Nat) : Nat :=
  match threadOf s u with
  | some th => match th.wait with | .evHeld m => m.sent | _ => 0
  | none => 0

/-- One of the held events of a core has been entered: the `evsend`s that waited for that go on, the longest wait first
(R350). -/
def evHeldWake (s : State) (tile : Nat) : State :=
  let us := threadsWhere s fun _ th => decide (th.tile = tile) && (match th.wait with | .evHeld _ => true | _ => false)
  forEach (sortOn (evHeldSince s) us) evHeldEnds s

/-- The oldest held event for a target leaves, the next one is sent in its turn, and the `evsend`s that waited go on
(R350, R358, log 44). -/
def heldLeaves (s : State) (m : EventMsg) : State :=
  let s1 := evEntered (modEvu s m.src fun e => { e with held := e.held.erase m }) m
  let s2 := match heldFor s1 m.src m.dst with | [] => s1 | x :: _ => sendEvent s1 x
  evHeldWake s2 m.src

/-- The busy answer to an event returns (R350). -/
def answerEvent (s : State) (m : EventMsg) : State := schedAt s (s.cycle + evTime s m.src m.dst) (.eventBusyAnswer m)

/-- An earlier event of the same core for the same target has not been entered: it is held, or its busy answer is on its
way back (R350). -/
def eventBehind (s : State) (m : EventMsg) : Bool :=
  match heldFor s m.src m.dst with
  | h :: _ => decide (h ≠ m)
  | [] => (pendingActs s).any fun a => match a with
    | .eventBusyAnswer x => decide (x.src = m.src ∧ x.dst = m.dst ∧ x ≠ m ∧ x.sent ≤ m.sent)
    | _ => false

/-- An event reaches its target: it is entered or discarded in its turn, or answered busy (R350). -/
def eventArrives (s : State) (m : EventMsg) : State :=
  if eventBehind s m then answerEvent (selfWaits s m) m
  else
    match enterOrBusy s m with
    | (s1, true) => answerEvent (selfWaits s1 m) m
    | (s1, false) => if m ∈ heldFor s m.src m.dst then heldLeaves s1 m else evEntered s1 m

/-- A busy answer is back: the core holds the event from now on, and the oldest held one is sent again 64 cycles later
(R350). -/
def eventRefused (s : State) (m : EventMsg) : State :=
  let s1 := if m ∈ heldFor s m.src m.dst then s else joinHeld s m
  if (heldFor s1 m.src m.dst).head? = some m then schedAt s1 (s1.cycle + 64) (.eventResend m.src m.dst) else s1

def execEventEntry (s : State) : Host.Outcome State Fault Refusal :=
  actRow s fun a s => match a with | .eventEntry m => some (eventArrives s m) | _ => none

def execEventBusyAnswer (s : State) : Host.Outcome State Fault Refusal :=
  actRow s fun a s => match a with | .eventBusyAnswer m => some (eventRefused s m) | _ => none

def execEventResend (s : State) : Host.Outcome State Fault Refusal :=
  actRow s fun a s =>
    match a with
    | .eventResend src dst =>
      match heldFor s src dst with
      | [] => some s
      | m :: _ => some (sendEvent s m)
    | _ => none

/-! ### Links (R348, R361) -/

/-- The outbound slot that leads to a tile. -/
def slotTo (s : State) (tile dst : Nat) : Option (Nat × OutLink) := (evuOf s tile).out.find? fun x => decide (x.2.dst = dst)

/-- Why a registration is refused at its target: 2 it is fenced (R417), 6 its links are closed, 3 its 32 inbound links
are in use; 0 accepted. -/
def linkRefusal (s : State) (partn dst src : Nat) : Nat :=
  let e := evuOf s dst
  if fencedAt s partn dst then 2
  else if e.closed then 6
  else if 32 ≤ e.inb.length ∧ !(e.inb.any fun x => decide (x.2.src = src)) then 3
  else 0

/-- Records an inbound link at its own place or the lowest free one. -/
def recordInbound (s : State) (dst src L : Nat) : State :=
  modEvu s dst fun e =>
    let j := match e.inb.find? fun x => decide (x.2.src = src) with
      | some x => x.1
      | none => ((List.range 32).find? fun j => (look e.inb j).isNone).getD 0
    { e with inb := ins e.inb j { src := src, look := L, p := BitVec.ofNat 64 L } }

/-- The slot takes its new link; the old target's inbound link is withdrawn. -/
def recordOutbound (s : State) (tile k dst L : Nat) : State :=
  let s1 := match look (evuOf s tile).out k with
    | some l => if l.dst = dst then s else modEvu s l.dst fun e => { e with inb := e.inb.filter fun x => decide (x.2.src ≠ tile) }
    | none => s
  modEvu s1 tile fun e => { e with out := ins e.out k { dst := dst, look := L, sent := BitVec.ofNat 64 L, lastMsg := none, hold := none } }

/-- FINFO of cause 0x12 (R360). -/
def lookInfo (reason slot L : Nat) : Nat := reason + slot * 16 + L * 2 ^ 32

def registerLink (s : State) (m : LinkMsg) : State :=
  let back := fun (st : State) (r : AccRes) =>
    schedAt st (st.cycle + m.ow) (.accessResponse { uid := m.uid, fid := m.fid, part := 0, addr := m.ptr, stub := none, res := r })
  match linkRefusal s m.partn m.dst m.src with
  | 0 => back (recordInbound s m.dst m.src m.look) (.done [] 0)
  | 6 => back s (.fault 0x12 (lookInfo 6 m.slot m.look) (now s) false)
  | r => back s (.fault 0x14 r (now s) false)

def execLinkRegistration (s : State) : Host.Outcome State Fault Refusal :=
  actRow s fun a s => match a with | .linkRegistration m => some (registerLink s m) | _ => none

/-! ### Instructions -/

/-- The illegal-instruction fault of a thread that is not in local-time mode (R345). -/
def notLocal (s : State) (c : Cur) : State := raise s c 0x01 0 (BitVec.ofNat 64 (c.word.toNat + c.pos * 2 ^ 32)) 0

/-- The target of `evsend` and `lkset`: its tile, or cause and detail. -/
def evTarget (s : State) (th : Thread) (p : Ptr) : (Nat × Nat) ⊕ Nat :=
  if pKind p ≠ 0 then .inl (0x08, 1)
  else
    match guestTile s th.partn (pX p) (pY p) with
    | none => .inl (0x08, 2)
    | some t => if inTeam s th.partn th.serial t then .inr t else .inl (0x14, 2)

/-- The payload registers of `evsend`. -/
def evPay (d : Fin 16) (i : Nat) : SReg := rS (2 * d.val + i)

def execEvsend (d : Fin 16) (a b : SReg) (s : State) : Host.Outcome State Fault Refusal :=
  unit s { Need.none with sr := [evPay d 0, evPay d 1, a, b], rx := true } fun c th =>
    if th.ltm = false then notLocal s c
    else
      let p := sget th a
      let t := sget th b
      match evTarget s th p with
      | .inl (cause, info) => raise s c cause p (BitVec.ofNat 64 info) 0
      | .inr dst =>
        match slotTo s th.tile dst with
        | none => raise s c 0x14 p 1 0
        | some (k, l) =>
          if t.toNat = maxTime then raise s c 0x12 p (BitVec.ofNat 64 (lookInfo 2 k l.look)) 0
          else if t.toNat < th.lt.vck.toNat + l.look then raise s c 0x12 p (BitVec.ofNat 64 (lookInfo 1 k l.look)) 0
          else
            gate s c th { kind := 13, ptr := p, width := 16, data := [sget th (evPay d 0), sget th (evPay d 1), t] } fun s0 =>
              metered s0 c th p (256 * lenTiles s th.tile dst) 0 fun s1 =>
                let m : EventMsg := { partn := th.partn, serial := th.serial, src := th.tile, dst := dst, t := t,
                                      pay0 := sget th (evPay d 0), pay1 := sget th (evPay d 1), uid := c.uid, inj := now s, sent := s.cycle }
                if th.role = 2 then retire s1 c 8 id
                else if 16 ≤ (evuOf s1 th.tile).held.length then waitUnit s1 c (.evHeld m)
                else selfHeld (retire (postEvent s1 m) c 8 id) m

def execEvnext (d : Fin 30) (s : State) : Host.Outcome State Fault Refusal :=
  unit s { Need.none with sd := [rS d.val, rS (d.val + 1), rS (d.val + 2)], rx := true } fun c th =>
    if th.ltm = false then notLocal s c
    else if th.role = 2 then
      match look th.lvq th.lvSeq with
      | some (.vals ws) => retire (lvLeave s c.uid) c 8 (evResult d ws)
      | some (.got _ _ ((_, b) :: _) _) => raise (lvLeave s c.uid) c b.cause b.addr (BitVec.ofNat 64 b.info) 0
      | _ => parkUnit s c .lvq
    else
      lvRoom s c th
        (modThread (waitUnit (modEvu s th.tile fun e => { e with closed := true }) c (.evnext d s.cycle)) c.uid
          (evRegs d sOutstanding))

def execEvnull (s : State) : Host.Outcome State Fault Refusal :=
  unit s { Need.none with rx := true } fun c th =>
    if th.ltm = false then notLocal s c
    else if th.role = 2 then retire s c 8 id
    else retire (sendAll s th.tile false fun l => satAdd (evNow s th.tile).floor l.look) c 8 id

def execLkset (k : Fin 8) (a b : SReg) (s : State) : Host.Outcome State Fault Refusal :=
  unit s { Need.none with sr := [a, b], rx := true } fun c th =>
    if th.ltm = false then notLocal s c
    else
      let p := sget th a
      let L := (sget th b).toNat
      match evTarget s th p with
      | .inl (cause, info) => raise s c cause p (BitVec.ofNat 64 info) 0
      | .inr dst =>
        if 2 ^ 32 ≤ L then raise s c 0x12 p (BitVec.ofNat 64 (lookInfo 3 k.val 0xFFFFFFFF)) 0
        else if (evuOf s th.tile).closed then raise s c 0x12 p (BitVec.ofNat 64 (lookInfo 4 k.val L)) 0
        else if (slotTo s th.tile dst).any fun x => decide (x.1 ≠ k.val) then
          raise s c 0x12 p (BitVec.ofNat 64 (lookInfo 5 k.val L)) 0
        else
          gate s c th { kind := 14, ptr := p, width := 8, data := [BitVec.ofNat 64 L] } fun s0 =>
            let ch := 192 * lenTiles s th.tile dst
            if dst = th.tile ∧ meterTraps th ch = false then
              lvLead s0 c th (if linkRefusal s0 th.partn dst th.tile = 3 then some (0x14, p, 3) else none)
                (fun st => metered st c th p ch 0 fun s1 =>
                  lvOver (retire (recordOutbound (recordInbound s1 dst th.tile L) th.tile k.val dst L) c 8 id) c.uid)
                (fun st => metered st c th p ch 0 fun s1 => retire s1 c 8 id)
            else
              metered s0 c th p ch 0 fun s1 =>
                let s2 := startFlight s1 c th false (.lkset k dst L) 1 ch []
                if th.role = 2 then s2
                else
                  let ow := owTiles s th.tile dst
                  sched s2 { cycle := s.cycle + c.fx + ow + 11, late := false, age := tickAt s (s.cycle + c.fx), src := th.tile,
                             act := .linkRegistration { uid := c.uid, fid := s1.nextId, partn := th.partn, serial := th.serial,
                                                        src := th.tile, dst := dst, slot := k.val, look := L, ptr := p,
                                                        charge := ch, ow := ow } }

end Sys2Proof.Machine
end

