-- ==== Sys2Proof/Machine/Launch.lean ====
section
/-! DEFINITION. The launch unit: heads and their rejection, the scan, placement and thread start, the end of a thread,
retirement, slices and requests, launch queues, create and delete (R370-R385). -/

namespace Sys2Proof.Machine

/-! ### LAUNCH words (R378) -/

/-- A command word that no thread pushed. -/
def wordsJob (partn : Nat) (ws : List Word) : Job :=
  { jid := 0, uid := 0, tid := 0, partn := partn, serial := 0, tile := 0, reg := 0, enq := 0, cmd := 0, w0 := ws.getD 0 0,
    w1 := ws.getD 1 0, w2 := ws.getD 2 0, w3 := ws.getD 3 0, seg := 0, done := 0, half := [], skipped := false, owed := 0, ran := false }

def jobWords (j : Job) : List Word := [j.w0, j.w1, j.w2, j.w3]

def lW (j : Job) : Nat := cmdField j 128 6 + 1
def lH (j : Job) : Nat := cmdField j 134 6 + 1
def lT (j : Job) : Nat := cmdField j 140 4 + 1
def lV (j : Job) : Nat := cmdField j 144 7
def lWin (j : Job) : Nat := cmdField j 151 12
def lPrio (j : Job) : Nat := cmdField j 163 2
def lSd (j : Job) : Nat := cmdField j 165 4
def lSlice (j : Job) : Nat := cmdField j 169 32
def lPair (j : Job) : Bool := cmdFlag j 0
def lLtm (j : Job) : Bool := cmdFlag j 1
def lSup (j : Job) : Bool := cmdFlag j 2

/-- Why a head can never be placed (R379): 2, 3 or 5; 0 where it can. The checks of a pushed entry were made at push. -/
def launchReject (s : State) (f : Frame) (j : Job) (pushed sup : Bool) : Nat :=
  if f.w < lW j ∨ f.h < lH j then 2
  else if 512 < lT j * rowsFor (lV j) (lWin j) then 3
  else if !pushed && !(cmdBreaks s j 2 sup).isEmpty then 5
  else 0

/-! ### Free rectangles (R74, R380) -/

def overlap (ax ay aw ah bx by_ bw bh : Nat) : Bool :=
  decide (ax < bx + bw) && decide (bx < ax + aw) && decide (ay < by_ + bh) && decide (by_ < ay + ah)

/-- The rectangle at an origin is free: no placed team, no fenced rectangle, T enabled slots on every core. -/
def originFree (s : State) (partn : Nat) (f : Frame) (ox oy w h t : Nat) : Bool :=
  let p := partOf s partn
  decide (ox + w ≤ f.w) && decide (oy + h ≤ f.h)
    && p.teams.all (fun e => !overlap ox oy w h e.2.ox e.2.oy e.2.w e.2.h)
    && p.rects.all (fun e => !(e.2.valid && e.2.fenced && overlap ox oy w h e.2.x e.2.y e.2.w e.2.h))
    && s.tiles.all (fun e =>
        !(overlap ox oy w h (guestX f e.1) (guestY f e.1) 1 1 && decide (f.ox ≤ e.1 % 64) && decide (f.oy ≤ e.1 / 64)
          && decide (16 < t + e.2.disabled.length)))

/-- The lowest guest (y, x) origin that is free. -/
def freeOrigin (s : State) (partn : Nat) (f : Frame) (w h t : Nat) : Option (Nat × Nat) :=
  (List.range (f.h + 1 - h)).findSome? fun y =>
    ((List.range (f.w + 1 - w)).find? fun x => originFree s partn f x y w h t).map fun x => (x, y)

/-! ### Serials (R381) -/

def serialHeld (p : Partition) (n : Nat) : Bool := (look p.teams n).isSome || p.saved.any fun i => decide (i.serial = n)

def nextSerial (p : Partition) : Nat → Nat → Nat
  | 0, n => n
  | k + 1, n => let m := (n + 1) % 65536; if m = 0 ∨ serialHeld p m then nextSerial p k m else m

def newSerial (p : Partition) : Nat := nextSerial p (p.teams.length + p.saved.length + 2) p.lastSerial

/-! ### Timers in ticks -/

def setTimer (s : State) (tick : Nat) (a : Act) : State := { s with timers := s.timers ++ [(tick, a)] }

def scanAt (s : State) (cycle : Nat) : State :=
  { s with scanDue := match s.scanDue with | some n => some (min n cycle) | none => some cycle }

/-- A scan takes place in the next cycle (R380). -/
def scanNext (s : State) : State := scanAt s (s.cycle + 1)

/-- A team's slice starts (R383). -/
def startSlice (s : State) (partn serial from_ : Nat) : State :=
  match teamOf s partn serial with
  | some t =>
    if t.slice = 0 ∨ (t.sup && decide (serial = 0)) then s
    else
      let e := from_ + t.slice * 1000
      setTimer (modTeam s partn serial fun t => { t with sliceEnd := e }) e (.sliceExpiry partn serial e)
  | none => s

/-! ### Launch queues (R374-R377) -/

/-- The tier-one read of a head from the host interface's router (R375). -/
def headLat (s : State) (partn : Nat) (p : Ptr) : Nat :=
  match placeOf s partn p with
  | some (.chan c _) => 200 + 4 * hops attachHost (attachChan c)
  | _ => 200

def headPtr (q : Queue) : Ptr := offBy q.lqb (32 * (q.lqp % q.lqn))

/-- A team whose launch came from a queue is still starting: its entry is placed, LQP not yet advanced. -/
def starting (p : Partition) (q : Nat) : Bool := p.teams.any fun e => !e.2.started && decide (e.2.src = .host q)

/-- Starts the read of a head that a queue has and that is not known yet. -/
def queueKick (s : State) (partn q : Nat) : State :=
  let p := partOf s partn
  let k := queueOf p q
  if p.frame.isSome && k.resident && k.en && decide (k.lqp ≠ k.lqt ∧ k.lqn ≠ 0) && !k.reading && k.head.isNone && !starting p q then
    schedAt (modQueue s partn q fun x => { x with reading := true }) (s.cycle + headLat s partn (headPtr k)) (.headRead partn q k.lqp)
  else s

/-- The head read returns: the head is tried in the next scan. A read that fails leaves no head (log 32). -/
def headReturns (s : State) (partn q index : Nat) : State :=
  let k := queueOf (partOf s partn) q
  if k.reading = false ∨ k.lqp ≠ index ∨ k.resident = false then s
  else
    let r := (List.range 4).foldl (fun (a : State × List Word × Bool) i =>
      match hwLoad a.1 partn (offBy (headPtr k) (8 * i)) with
      | (s1, .ok _, w) => (s1, a.2.1 ++ [w], a.2.2)
      | (s1, _, _) => (s1, a.2.1, false)) (s, [], true)
    let s1 := modQueue r.1 partn q fun x => { x with reading := false, tried := false, head := if r.2.2 then some r.2.1 else none }
    if r.2.2 then scanNext s1 else s1

def execHeadRead (s : State) : Host.Outcome State Fault Refusal :=
  actRow s fun a s => match a with | .headRead partn q i => some (headReturns s partn q i) | _ => none

/-- LQR and LQC of a record. -/
def lqrWord (q : Queue) : Word := BitVec.ofNat 64 (q.retired + q.rejected * 2 ^ 32 + q.reason * 2 ^ 48)
def lqcWord (q : Queue) : Word := BitVec.ofNat 64 (q.prio + if q.en then 4 else 0)

/-- Changes a word of a switched-out queue's record (R376). -/
def recordWord (s : State) (partn : Nat) (q : Queue) (i : Nat) (f : Word → Word) : State :=
  if q.lqsv = 0 then s
  else
    let r := hwLoad s partn (offBy q.lqsv (8 * i))
    hwStore r.1 partn (offBy q.lqsv (8 * i)) (f r.2.2)

def incLow32 (w : Word) : Word := setBits w 0 32 (bits w 0 32 + 1)

/-- The tail write (R375, R376). -/
def tailWritten (s : State) (partn q : Nat) (v : Word) : State :=
  let k := queueOf (partOf s partn) q
  if k.resident then queueKick (modQueue s partn q fun x => { x with lqt := bits v 0 32 }) partn q
  else recordWord s partn k 2 fun _ => BitVec.ofNat 64 (bits v 0 32)

def execTailWrite (s : State) : Host.Outcome State Fault Refusal :=
  actRow s fun a s => match a with | .tailWrite partn q v => some (tailWritten s partn q v) | _ => none

def residentCount (s : State) : Nat :=
  s.parts.foldl (fun a e => a + (e.2.queues.filter fun q => q.2.resident).length) 0

def switchInQueue (s : State) (partn q : Nat) : State :=
  let k := queueOf (partOf s partn) q
  if k.resident ∨ 64 ≤ residentCount s ∨ k.lqsv = 0 then s
  else
    let r := (List.range 6).foldl (fun (a : State × List Word × Bool) i =>
      match hwLoad a.1 partn (offBy k.lqsv (8 * i)) with
      | (s1, .ok _, w) => (s1, a.2.1 ++ [w], a.2.2)
      | (s1, _, _) => (s1, a.2.1, false)) (s, [], true)
    if r.2.2 = false then r.1
    else
      let w := fun i => r.2.1.getD i 0
      let s1 := modQueue r.1 partn q fun x =>
        { x with lqb := w 0, lqn := bits (w 1) 0 13, lqt := bits (w 2) 0 32, lqp := bits (w 3) 0 32, retired := bits (w 4) 0 32,
                 rejected := bits (w 4) 32 16, reason := bits (w 4) 48 9, prio := bits (w 5) 0 2, en := bit (w 5) 2,
                 resident := true, reading := false, head := none }
      scanNext (queueKick s1 partn q)

def switchOutQueue (s : State) (partn q : Nat) : State :=
  let k := queueOf (partOf s partn) q
  if k.resident = false ∨ k.lqsv = 0 then s
  else
    let ws := [k.lqb, BitVec.ofNat 64 k.lqn, BitVec.ofNat 64 k.lqt, BitVec.ofNat 64 k.lqp, lqrWord k, lqcWord k]
    let s1 := (ws.foldl (fun (a : State × Nat) w => (hwStore a.1 partn (offBy k.lqsv (8 * a.2)) w, a.2 + 1)) (s, 0)).1
    modQueue s1 partn q fun x => { x with resident := false, reading := false, head := none }

def execSwitchIn (s : State) : Host.Outcome State Fault Refusal :=
  actRow s fun a s => match a with | .switchIn partn q => some (switchInQueue s partn q) | _ => none

def execSwitchOut (s : State) : Host.Outcome State Fault Refusal :=
  actRow s fun a s => match a with | .switchOut partn q => some (switchOutQueue s partn q) | _ => none

/-- An entry of a queue is placed or rejected: progress advances, the partition's function is interrupted (R426) and the
next head is read. -/
def advanceQueue (s0 : State) (partn q : Nat) : State :=
  let s := { s0 with outbox := s0.outbox ++ [.msix (partn + 1) Config.progressVector] }
  let k := queueOf (partOf s partn) q
  if k.resident then
    queueKick (modQueue s partn q fun x => { x with lqp := (x.lqp + 1) % 2 ^ 32, head := none, reading := false }) partn q
  else recordWord (modQueue s partn q fun x => { x with lqp := (x.lqp + 1) % 2 ^ 32 }) partn k 3 incLow32

/-- A pushed LAUNCH stands at the head of its partition's device queue: the next scan tries it (R377). -/
def execLaunch (s : State) : Host.Outcome State Fault Refusal :=
  actRow s fun a s =>
    match a with
    | .launch j =>
      match (partOf s j.partn).devq with
      | h :: _ => if h = j then some (scanNext (modPart s j.partn fun p => { p with devHead := some j.jid, devTried := false })) else none
      | [] => none
    | _ => none

/-! ### Retirement (R382) -/

/-- A job of a team has not ended. -/
def teamJobs (s : State) (partn serial : Nat) : Bool :=
  let mine := fun (j : Job) => decide (j.partn = partn ∧ j.serial = serial)
  s.clusters.any (fun e =>
    e.2.mxe.queues.any (fun q => q.2.any mine) || e.2.cu.queues.any (fun q => q.2.any mine)
      || e.2.mxe.run.any (fun r => mine r.job) || e.2.cu.run.any (fun r => mine r.job) || e.2.cu.slots.any fun k => mine k.job)
  || (partOf s partn).devq.any mine
  || (partOf s partn).teams.any fun e => !e.2.started && (match e.2.src with | .device j => mine j | _ => false)

/-- The status word of a LAUNCH (R379). -/
def launchStatus (status serial reason : Nat) : Word := statusWord status (serial + reason * 2 ^ 16)

/-- What a team's origin learns of its retirement. -/
def tellOrigin (s : State) (partn serial : Nat) (t : Team) : State :=
  match t.src with
  | .sup => s
  | .host q =>
    let k := queueOf (partOf s partn) q
    let s1 := modQueue s partn q fun x => { x with retired := (x.retired + 1) % 2 ^ 32 }
    if k.resident then s1 else recordWord s1 partn k 4 incLow32
  | .device j => schedStatus s s.cycle srcLaunch j (launchStatus (if t.reason = 0 then 0 else 7) serial t.reason)

/-- Retires a placed team: cores freed, points dropped, deques discarded, a scan in the next cycle. -/
def retireTeam (s : State) (partn serial : Nat) (t : Team) : State :=
  let s1 := forEach (teamTiles s partn serial) (fun s tile =>
    modTile s tile fun k => { k with deque := [], evu := { k.evu with active := false } }) s
  let s2 := tellOrigin s1 partn serial t
  let s3 := modPart s2 partn fun p =>
    { p with teams := del p.teams serial, supDue := p.supDue || (decide (t.src = .sup) && decide (t.reason = 4)) }
  scanNext { s3 with timers := s3.timers.filter fun x =>
    match x.2 with
    | .sliceExpiry a b _ => !decide (a = partn ∧ b = serial)
    | .preemptionTimeout a b _ => !decide (a = partn ∧ b = serial)
    | _ => true }

/-- A team retires when its threads have exited and its jobs have ended. -/
def teamCheck (s : State) (partn serial : Nat) : State :=
  match teamOf s partn serial with
  | some t => if t.started && (teamThreads s partn serial).isEmpty && !teamJobs s partn serial then retireTeam s partn serial t else s
  | none => s

/-! ### The end of a thread (R96) -/

def reqsWithout (u : Nat) (l : List Req) : List Req := l.filter fun r => decide (r.uid ≠ u)

/-- Withdraws a thread's parked waits at the homes, and the acts that only it awaits. -/
def withdrawWaits (s : State) (u : Nat) : State :=
  let s1 := { s with tiles := s.tiles.map fun e => (e.1, { e.2 with waiters := reqsWithout u e.2.waiters }),
                     ports := s.ports.map fun e => (e.1, { e.2 with waiters := reqsWithout u e.2.waiters }) }
  unsched s1 fun a =>
    match a with
    | .syncTimeout r => decide (r.uid = u)
    | .busyResend r => decide (r.uid = u)
    | .rendezvousTimeout v _ => decide (v = u)
    | .stealVisit m => decide (m.uid = u)
    | _ => false

/-- Drops a leap of the thread and frees what it held. -/
def dropLeap (s : State) (u : Nat) : State :=
  let mine := fun (m : LeapMsg) => decide (m.uid = u)
  let leaps := s.agenda.filterMap (fun x =>
      match x.act with
      | .leapArrival m => if mine m then some m else none
      | .leapBounce m => if mine m then some m else none
      | .leapResend m => if mine m then some m else none
      | _ => none)
    ++ s.tiles.flatMap fun e => e.2.arrivals.filter mine
  let s1 := unsched s fun a =>
    match a with | .leapArrival m => mine m | .leapBounce m => mine m | .leapResend m => mine m | _ => false
  let s2 := { s1 with tiles := s1.tiles.map fun e => (e.1, { e.2 with arrivals := e.2.arrivals.filter fun m => !mine m }) }
  forEach leaps (fun s m => slotFreed (modTile s m.src fun t => { t with reserved := setDel t.reserved m.slot }) m.src) s2

/-- The thread leaves its slot and its rows; nothing of it remains but its jobs and messages (R96). -/
def endThread (s : State) (u : Nat) : State :=
  match threadOf s u with
  | none => s
  | some th =>
    let s1 := dropLeap (withdrawWaits (exitPromise s u) u) u
    let s2 := { s1 with threads := del s1.threads u }
    let s3 := modTile s2 th.tile fun t => { t with cache := t.cache.filter fun e => decide (e.uid ≠ u) }
    let s4 := match mateOf s u with | some m => recheck (lvWake s3 m) m | none => s3
    teamCheck (slotFreed s4 th.tile) th.partn th.serial

/-- A thread is ended as `texit` ends it (R96, R152, R384): its parked waits are withdrawn, it issues no more, and it leaves
once its relaxed accesses have been performed. -/
def terminateThread (s : State) (u : Nat) : State :=
  match threadOf s u with
  | none => s
  | some th =>
    if rxOut th then modThread (withdrawWaits s u) u fun t => { t with wait := .none, ending := true, stopped := false, held := false }
    else endThread s u

/-! ### Thread start (R70, R381) -/

/-- Rows of a tile's register file that no claim holds, lowest first (R73). -/
def freeRows (s : State) (tile : Nat) : List Nat :=
  let used := (threadsWhere s fun _ th => decide (th.tile = tile)).flatMap fun u =>
    match threadOf s u with | some th => th.rows | none => []
  (List.range 512).filter fun r => decide (r ∉ used)

/-- The granules of claimed rows become zero and full. -/
def cleanRows (s : State) (tile : Nat) (rows : List Nat) : State :=
  let mine := fun (g : Nat) => decide (g / 8 ∈ rows)
  modTile s tile fun t =>
    { t with pool := t.pool.filter (fun e => !mine e.1), poolEmpty := t.poolEmpty.filter (fun g => !mine g),
             poolPois := t.poolPois.filter fun g => !mine g }

/-- Places a new thread on a tile with its claim. -/
def bear (s : State) (th : Thread) : State :=
  let rows := (freeRows s th.tile).take (rowsFor th.vn th.dwin)
  let s1 := cleanRows s th.tile rows
  { s1 with threads := ins s1.threads s1.nextUid { th with rows := rows }, nextUid := s1.nextUid + 1 }

/-- The scalars a launch gives (R70). -/
def startScalars (l : List Word) : AMap Word :=
  (l.foldl (fun (a : AMap Word × Nat) w => (if w = 0 then a.1 else ins a.1 a.2 w, a.2 + 1)) ([], 1)).1

/-- Thread k of a core of a starting team, in a slot with a role. -/
def launchThread (s : State) (p : Placement) (j : Job) (gx gy tile idx k slot role : Nat) : State :=
  bear s { Thread.reset with
    partn := p.partn, serial := p.serial, tser := 16 * idx + k, sup := lSup j, role := role, ltm := lLtm j, tile := tile, slot := slot,
    pc := j.w0, vn := lV j, dwin := lWin j, readyAt := s.cycle + 1,
    s := startScalars [j.w1, BitVec.ofNat 64 k, BitVec.ofNat 64 (packCore gx gy), BitVec.ofNat 64 (packCore (lW j) (lH j))] }

/-- The core of a starting team: accumulator region and context reset, event unit, deque and spill areas (R381). -/
def resetCore (s : State) (tile : Nat) (ltm : Bool) : State :=
  let s1 := modTile s tile fun t =>
    { t with deque := [], dqsp := 0, evsp := 0,
             evu := { Evu.reset with active := ltm, held := t.evu.held, ltmt := t.evu.ltmt, drops := t.evu.drops } }
  let s2 := { s1 with acc := s1.acc.filter fun c => decide (c.1 / 32768 ≠ tile) }
  modMxe s2 (clusterOfTile tile) fun m => { m with ctxs := del m.ctxs (coreInCluster tile) }

/-- The threads of every core start (R381). -/
def startTeam (s : State) (p : Placement) : State :=
  let j := wordsJob p.partn [p.w0, p.w1, p.w2, p.w3]
  match frameOf s p.partn with
  | none => s
  | some f =>
    let cores := (List.range (lH j)).flatMap fun ty => (List.range (lW j)).map fun tx => (tx, ty)
    forEach cores (fun s c =>
      let gx := p.ox + c.1
      let gy := p.oy + c.2
      let tile := tileAt f gx gy
      forEach (List.range (lT j)) (fun s i =>
        if lPair j then launchThread s p j gx gy tile (c.2 * lW j + c.1) (i / 2) i (1 + i % 2)
        else launchThread s p j gx gy tile (c.2 * lW j + c.1) i i 0) (resetCore s tile (lLtm j))) s

/-- The launch count (R125). -/
def launchCount (j : Job) : Nat := lW j * lH j * lT j / (if lPair j then 2 else 1)

/-- A placement of a new team completes. -/
def placementDone (s : State) (p : Placement) : Option State :=
  match teamOf s p.partn p.serial with
  | none => none
  | some t =>
    let s1 := startTeam (modTeam s p.partn p.serial fun t => { t with started := true }) p
    let s2 := startSlice s1 p.partn p.serial (now s1)
    let s3 := match t.src with | .host q => advanceQueue s2 p.partn q | _ => s2
    some (match t.src with | .device j => teamCheck s3 j.partn j.serial | _ => s3)

/-- A placement is decided: its rectangle is taken, its threads start 16 + 2(w + h) cycles later. -/
def decide_ (s : State) (partn serial ox oy : Nat) (j : Job) (src : TeamSrc) : State :=
  let t : Team :=
    { ox := ox, oy := oy, w := lW j, h := lH j, t := lT j, v := lV j, win := lWin j, pair := lPair j, ltm := lLtm j, sup := lSup j,
      prio := lPrio j, sd := lSd j, slice := lSlice j, sliceEnd := 0, launch := launchCount j, words := jobWords j, src := src,
      started := false, holding := false, points := [(0, { Point.reset with expected := launchCount j })], req := none, reqAt := 0, reason := 0 }
  let t := match src with | .host q => { t with prio := (queueOf (partOf s partn) q).prio } | _ => t
  let s1 := modPart s partn fun p =>
    { p with teams := ins p.teams serial t, lastSerial := if src = .sup then p.lastSerial else serial }
  schedAt s1 (s.cycle + 16 + 2 * (lW j + lH j)) (.placement
    { partn := partn, serial := serial, ox := ox, oy := oy, w0 := j.w0, w1 := j.w1, w2 := j.w2, w3 := j.w3,
      queue := match src with | .host q => some q | _ => none, job := match src with | .device k => some k | _ => none,
      restore := false })

/-! ### The scan (R380) -/

/-- The head of queue q of a partition, 16 its device queue: its command word and priority. -/
def headAt (s : State) (partn q : Nat) : Option (Job × Nat) :=
  let p := partOf s partn
  if q = 16 then
    match p.devq with
    | j :: _ => if p.devHead = some j.jid then some (j, lPrio j) else none
    | [] => none
  else
    let k := queueOf p q
    if k.resident && k.en then k.head.map fun ws => (wordsJob partn ws, k.prio) else none

/-- A pushed entry leaves the device queue: a parked push may enter. -/
def dropDev (s : State) (partn : Nat) : State :=
  unparkPush (modPart s partn fun p => { p with devq := p.devq.drop 1, devHead := none, devTried := false }) 2 fun j => decide (j.partn = partn)

/-- Rejects a head. -/
def rejectHead (s : State) (partn q : Nat) (j : Job) (reason : Nat) : State :=
  if q = 16 then
    let s1 := schedStatus (dropDev s partn) s.cycle srcLaunch j (launchStatus 5 0 reason)
    teamCheck s1 j.partn j.serial
  else
    advanceQueue (modQueue s partn q fun x => { x with rejected := (x.rejected + 1) % 65536, reason := reason }) partn q

/-- Tries a head: rejected, deferred, or placed. -/
def tryHead (s : State) (pr : Nat) (key : Nat) : State :=
  let partn := key / 17
  let q := key % 17
  match headAt s partn q, frameOf s partn with
  | some (j, p), some f =>
    if p ≠ pr ∨ (partOf s partn).pstate ≠ 2 then s
    else
      let r := launchReject s f j (decide (q = 16)) false
      if r ≠ 0 then rejectHead s partn q j r
      else if bits (partOf s partn).divs 16 16 ≠ 0 then s
      else
        match freeOrigin s partn f (lW j) (lH j) (lT j) with
        | none => s
        | some (x, y) =>
          let serial := newSerial (partOf s partn)
          let s1 := decide_ s partn serial x y j (if q = 16 then .device j else .host q)
          let s2 := if q = 16 then dropDev s1 partn else modQueue s1 partn q fun k => { k with head := none }
          { s2 with lastPlaced := ins s2.lastPlaced pr key }
  | _, _ => s

/-- The keys of all queues, starting after the one that last placed. -/
def keysInTurn (s : State) (pr : Nat) : List Nat :=
  let all := s.parts.flatMap fun e => (List.range 17).map fun q => e.1 * 17 + q
  match look s.lastPlaced pr with
  | some l => all.filter (fun k => decide (l < k)) ++ all.filter fun k => decide (k ≤ l)
  | none => all

/-- Saved teams of a priority, oldest save first. -/
def savedAt (s : State) (pr : Nat) : List (Nat × Image) :=
  let l := s.parts.flatMap fun e => (e.2.saved.filter fun i => decide (i.team.prio = pr)).map fun i => (e.1, i)
  l.foldl (fun a x => enter a x) []
where
  enter (l : List (Nat × Image)) (x : Nat × Image) : List (Nat × Image) :=
    match l with
    | [] => [x]
    | y :: t => if x.2.order < y.2.order then x :: y :: t else y :: enter t x

/-- A saved team whose own rectangle qualifies is about to be restored (R385). -/
def tryRestore (s : State) (x : Nat × Image) : State :=
  let t := x.2.team
  match frameOf s x.1 with
  | none => s
  | some f =>
    if originFree s x.1 f t.ox t.oy t.w t.h t.t then
      let s1 := modPart s x.1 fun p =>
        { p with teams := ins p.teams x.2.serial { t with started := false, req := none } }
      schedAt s1 (s.cycle + 16 + 2 * (t.w + t.h)) (.placement
        { partn := x.1, serial := x.2.serial, ox := t.ox, oy := t.oy, w0 := t.words.getD 0 0, w1 := t.words.getD 1 0,
          w2 := t.words.getD 2 0, w3 := t.words.getD 3 0, queue := none, job := none, restore := true })
    else s

/-- A supervisor team that is due is placed ahead of every queue (R371, R416). -/
def trySup (s : State) (partn : Nat) : State :=
  let p := partOf s partn
  let j := wordsJob partn ((List.range 4).map fun i => lookD p.psup i 0)
  match p.frame with
  | some f =>
    if p.supDue = false ∨ launchReject s f j false true ≠ 0 then s
    else
      match freeOrigin s partn f (lW j) (lH j) (lT j) with
      | none => s
      | some (x, y) => modPart (decide_ s partn 0 x y j .sup) partn fun p => { p with supDue := false, pstate := 2 }
  | none => s

/-- The heads that a scan tries count from then on as waiting heads (R375). -/
def markTried (s : State) : State :=
  { s with parts := s.parts.map fun e => (e.1, { e.2 with
      devTried := e.2.devHead.isSome, queues := e.2.queues.map fun q => (q.1, { q.2 with tried := q.2.head.isSome }) }) }

def scanAll (s : State) : State :=
  let s0 := forEach (s.parts.map (·.1)) trySup (markTried { s with scanDue := none })
  forEach [3, 2, 1, 0] (fun s pr =>
    let s1 := forEach (keysInTurn s pr) (fun s k => tryHead s pr k) s
    forEach (savedAt s1 pr) tryRestore s1) s0

def execScan (s : State) : Host.Outcome State Fault Refusal :=
  actRow s fun a s => match a with | .scan => some (scanAll s) | _ => none

/-! ### Slices and requests (R162, R166, R383, R384) -/

/-- A pre-emption request; one made while another stands joins it. -/
def request (s : State) (partn serial : Nat) (r : PreReq) : State :=
  match teamOf s partn serial with
  | none => s
  | some t =>
    if t.req.isSome then (if t.req = some r then s else modTeam s partn serial fun t => { t with req := some .both })
    else
      let s1 := modTeam s partn serial fun t => { t with req := some r, reqAt := now s }
      let p := partOf s partn
      if p.ptmo = 0 then s1 else setTimer s1 (now s + p.ptmo.toNat) (.preemptionTimeout partn serial (now s))

/-- A waiting head (R383) of at least a priority: one that a scan has deferred, and that would be placed if the team's
cores were free. -/
def headWaits (s : State) (partn serial prio : Nat) : Bool :=
  match frameOf s partn with
  | none => false
  | some f =>
    let s1 := modPart s partn fun p => { p with teams := del p.teams serial }
    (List.range 17).any fun q =>
      match headAt s partn q with
      | some (j, pr) =>
        (if q = 16 then (partOf s partn).devTried else (queueOf (partOf s partn) q).tried) && decide (prio ≤ pr) && decide (launchReject s f j (decide (q = 16)) false = 0) && decide (bits (partOf s partn).divs 16 16 = 0)
          && (freeOrigin s1 partn f (lW j) (lH j) (lT j)).isSome
      | none => false

def execSliceExpiry (s : State) : Host.Outcome State Fault Refusal :=
  actRow s fun a s =>
    match a with
    | .sliceExpiry partn serial stamp =>
      match teamOf s partn serial with
      | none => some s
      | some t =>
        if t.sliceEnd ≠ stamp then some s
        else if t.req.isSome ∨ headWaits s partn serial t.prio then some (request s partn serial .slice)
        else some (startSlice s partn serial stamp)
    | _ => none

/-- The outcome of the latest PREQ write. -/
def preqOutcome (s : State) (partn n : Nat) : State := modPart s partn fun p => { p with preqOut := n, preqSerial := none }

/-- PREQ action 1. -/
def execSave (s : State) : Host.Outcome State Fault Refusal :=
  actRow s fun a s =>
    match a with
    | .save partn serial =>
      match teamOf s partn serial with
      | none => some (preqOutcome s partn 1)
      | some t =>
        if serial = 0 then some (preqOutcome s partn 3)
        else if t.started = false then some (preqOutcome s partn 1)
        else some (modPart (request s partn serial .preq) partn fun p => { p with preqOut := 5, preqSerial := some serial })
    | _ => none

/-- A termination takes the place of any other request of the team (R384). -/
def teamEnds (s : State) (partn serial : Nat) : State :=
  modTeam s partn serial fun t => { t with reason := 4, req := none }

/-- Ends every thread of a team; it retires with reason 4 once they have gone and its jobs have ended (R384). -/
def terminateTeam (s : State) (partn serial : Nat) : State :=
  let s1 := teamEnds s partn serial
  teamCheck (forEach (teamThreads s1 partn serial) terminateThread s1) partn serial

/-- PREQ action 2. -/
def execTeamTerminate (s : State) : Host.Outcome State Fault Refusal :=
  actRow s fun a s =>
    match a with
    | .teamTerminate partn serial =>
      match teamOf s partn serial with
      | none => some (preqOutcome s partn 1)
      | some t =>
        if serial = 0 then some (preqOutcome s partn 3)
        else if t.started = false then some (preqOutcome s partn 1)
        else some (preqOutcome (terminateTeam s partn serial) partn 0)
    | _ => none

/-- PREQ action 3: a saved team's slot is freed and the team retires with reason 4. -/
def execDiscard (s : State) : Host.Outcome State Fault Refusal :=
  actRow s fun a s =>
    match a with
    | .discard partn serial =>
      match (partOf s partn).saved.find? fun i => decide (i.serial = serial) with
      | some i =>
        if (teamOf s partn serial).isSome then some (preqOutcome s partn 1)
        else
          let s1 := modPart s partn fun p => { p with saved := p.saved.filter fun k => decide (k.serial ≠ serial) }
          some (preqOutcome (scanNext (tellOrigin s1 partn serial { i.team with reason := 4 })) partn 0)
      | none => some (preqOutcome s partn (if serial = 0 then 3 else 1))
    | _ => none

/-! ### Create and delete (R371) -/

/-- The channels that a block lists. -/
def listedChans (p : Partition) : List Nat :=
  (List.range (bits p.pfrm 32 6)).map fun i => bits (lookD p.pchl (i / 8) 0) (8 * (i % 8)) 6

/-- A field of the block breaks a limit of R370. -/
def blockBroken (s : State) (partn : Nat) : Bool :=
  let p := partOf s partn
  let ox := bits p.pfrm 0 6
  let oy := bits p.pfrm 8 6
  let w := bits p.pfrm 16 7
  let h := bits p.pfrm 24 7
  let c := bits p.pfrm 32 6
  let ch := listedChans p
  let j := wordsJob partn ((List.range 4).map fun i => lookD p.psup i 0)
  decide (ox % 4 ≠ 0 ∨ oy % 2 ≠ 0 ∨ w % 4 ≠ 0 ∨ h % 2 ≠ 0 ∨ w < 4 ∨ h < 2 ∨ 64 < ox + w ∨ 64 < oy + h ∨ c = 0 ∨ 48 < c)
    || ch.any (fun n => decide (48 ≤ n)) || !decide ch.Nodup
    || (List.range c).any (fun i => decide (bits (lookD p.pchl (i / 8) 0) (8 * (i % 8) + 6) 2 ≠ 0))
    || decide (p.phws.toNat % 4096 ≠ 0) || decide (bits p.proot 0 13 ≠ 0 ∨ bits p.proot 46 6 ≠ 0 ∨ bits p.proot 58 6 ≠ 0)
    || !lSup j || !(cmdBreaks s j 2 true).isEmpty

/-- The rectangle or a channel belongs to another live partition. -/
def blockOverlaps (s : State) (partn : Nat) : Bool :=
  let p := partOf s partn
  s.parts.any fun e =>
    decide (e.1 ≠ partn) &&
      match e.2.frame with
      | some f =>
        overlap (bits p.pfrm 0 6) (bits p.pfrm 8 6) (bits p.pfrm 16 7) (bits p.pfrm 24 7) f.ox f.oy f.w f.h
          || (listedChans p).any fun n => decide (n ∈ f.chans)
      | none => decide (e.2.pstate = 1) &&
          (overlap (bits p.pfrm 0 6) (bits p.pfrm 8 6) (bits p.pfrm 16 7) (bits p.pfrm 24 7)
             (bits e.2.pfrm 0 6) (bits e.2.pfrm 8 6) (bits e.2.pfrm 16 7) (bits e.2.pfrm 24 7)
           || (listedChans p).any fun n => decide (n ∈ listedChans e.2))

/-- PCTL action 1. -/
def execCreate (s : State) : Host.Outcome State Fault Refusal :=
  actRow s fun a s =>
    match a with
    | .create partn =>
      let p := partOf s partn
      let out := fun n => some (modPart s partn fun p => { p with pout := n })
      if p.pstate ≠ 0 then out 3
      else if blockBroken s partn then out 1
      else if blockOverlaps s partn then out 2
      else if p.pconf && !p.pkey then out 4
      else some (modPart (submit s srcFirmware (.create partn)).1 partn fun p => { p with pout := 0, pstate := 1 })
    | _ => none

/-- PCTL action 2: of no partition, or while a deletion is under way, busy (DESIGN CHOICE, log 82). -/
def execDelete (s : State) : Host.Outcome State Fault Refusal :=
  actRow s fun a s =>
    match a with
    | .delete partn =>
      let p := partOf s partn
      if !p.teams.isEmpty || !p.saved.isEmpty || decide (p.pstate = 0 ∨ p.pstate = 3) then some (modPart s partn fun p => { p with pout := 3 })
      else
        some (modPart (submit s srcFirmware (.delete partn)).1 partn fun p =>
          { p with pout := 0, pstate := 3, devq := [], devHead := none, supDue := false,
                   queues := p.queues.map fun e => (e.1, Queue.reset) })
    | _ => none

/-- A creation takes effect: the frame is live, for what is injected from now on (R16), and the supervisor team is due. -/
def createEffect (s : State) (partn : Nat) : State :=
  let s1 := modPart s partn fun p =>
    let f : Frame := { ox := bits p.pfrm 0 6, oy := bits p.pfrm 8 6, w := bits p.pfrm 16 7, h := bits p.pfrm 24 7,
                       chans := listedChans p, ptroot := p.proot, hwsz := p.phws, conf := p.pconf }
    { p with supDue := decide (p.pstate = 1), frame := some f, frameAt := now s }
  forEach (List.range 16) (fun s q => queueKick s partn q) (scanAt s1 s1.cycle)

/-- A deletion takes effect: packets that are under way go on by the frame that was (R16). -/
def deleteEffect (s : State) (partn : Nat) : State :=
  modPart s partn fun p => { p with oldFrame := p.frame, frame := none, pstate := 0 }

end Sys2Proof.Machine
end

