-- ==== Sys2Proof/Machine/Jobs.lean ====
section
/-! DEFINITION. Pushing jobs (R42-R46, R66, R116, R186) and the rows by which jobs end: job ends, status words,
collectives (R117, R284, R335-R340). -/

namespace Sys2Proof.Machine

/-! ### jpush (R116) -/

/-- The four words at a pointer, read plainly (R45), or the failure of the first that cannot be read. -/
def pushWords (s : State) (partn : Nat) (p : Ptr) : State × ((Ptr × Nat × Nat) ⊕ List Word) :=
  (List.range 4).foldl (fun a i =>
    match a.2 with
    | .inl _ => a
    | .inr l =>
      match hwLoad a.1 partn (offBy p (8 * i)) with
      | (s1, .bad c x _, _) => (s1, .inl (offBy p (8 * i), c, x))
      | (s1, .ok _, w) => (s1, .inr (l ++ [w]))) (s, .inr [])

/-- Jobs of a queue that wait to start, and its depth (R116, R283, R319, R377). -/
def queueLen (s : State) (j : Job) (q : Nat) : Nat :=
  let c := clusterAt s (clusterOfTile j.tile)
  match q with
  | 0 => (lookD c.mxe.queues (coreInCluster j.tile) []).length
  | 1 => (lookD c.cu.queues (coreInCluster j.tile) []).length
  | _ => (partOf s j.partn).devq.length

def queueDepth (q : Nat) : Nat := if q = 2 then 64 else 4

/-- A job whose charge is known only as it runs: its push meters nothing (R186). -/
def chargedLater (j : Job) : Bool := decide (0x11 ≤ cmdOpcode j ∧ cmdOpcode j ≤ 0x13)

/-- The charge that a push meters (R186, R299, R326). -/
def pushCharge (s : State) (j : Job) (q : Nat) : Nat :=
  match q with | 0 => matrixCharge s j | 1 => copyCharge s j | _ => 0

/-- The job register of a pair's trailing thread takes the status word from the load-value queue (R307, R344). -/
def trailPush (s : State) (c : Cur) (th : Thread) (d : SReg) (w : Bool) : State :=
  if d = 0 ∧ w = false then retire s c 8 id
  else
    match look th.lvq th.lvSeq with
    | some (.vals vs) => retire (lvLeave s c.uid) c 8 (sset d (vs.headD 0))
    | some (.pending jid) =>
      let s1 := lvLeave s c.uid
      if w then modThread (waitUnit s1 c (.jobDone jid)) c.uid (awaitStatus d jid) else retire s1 c 8 (awaitStatus d jid)
    | _ => retire (lvLeave s c.uid) c 8 id

/-- Enqueues the job, or parks until its queue has a free entry. -/
def enqueueJob (s : State) (c : Cur) (th : Thread) (j : Job) (q : Nat) (w : Bool) : State :=
  let s1 := if j.reg = 0 ∧ w = false then freshId s else lvEnter (freshId s) c.uid th (.pending j.jid)
  if queueDepth q ≤ queueLen s1 j q then waitUnit s1 c (.jobQueue j q w)
  else
    let s2 := enterQueue s1 j q
    if w then modThread (waitUnit s2 c (.jobDone j.jid)) c.uid (awaitStatus j.reg j.jid)
    else retire s2 c 8 (awaitStatus j.reg j.jid)

/-- A push (R116). The offset limit of its kind-0 pointer is checked with the pointer's other limits after its alignment,
with FINFO 3: the page's steps do not name it (DESIGN CHOICE, log 26). A command word whose block is being moved is read
when the move is over (R211). -/
def pushUnit (s : State) (d a : SReg) (q : Nat) (w : Bool) : Host.Outcome State Fault Refusal :=
  unit s { Need.none with sr := [a], sd := [d], rx := true } fun c th =>
    let p := sget th a
    if pKind p ≠ 0 ∨ guestTile s th.partn (pX p) (pY p) ≠ some th.tile then raise s c 0x08 p 4 0
    else if pOff p % 32 ≠ 0 then raise s c 0x07 p 32 0
    else if limitsOf s th.partn p ≠ 0 then raise s c 0x08 p (BitVec.ofNat 64 (limitsOf s th.partn p)) 0
    else if sEmptyAt th d then parkUnit s c (.issue { Need.none with sr := [d] })
    else
      if (pushWords s th.partn p).1.behind.isSome then modThread s c.uid fun t => { t with readyAt := s.cycle + 1 }
      else
      match pushWords s th.partn p with
      | (s1, .inl (x, cause, info)) => raise s1 c cause x (BitVec.ofNat 64 info) 0
      | (s1, .inr ws) =>
        let j : Job := { wordsJob th.partn ws with
          jid := s1.nextId, uid := c.uid, tid := tidOf th, serial := th.serial, tile := th.tile, reg := d, cmd := p }
        match illegalCommand s1 j q th.sup with
        | some b => raise s1 c 0x15 p (BitVec.ofNat 64 b) 0
        | none =>
          gate s1 c th { kind := 15 + q, ptr := p, width := 32, data := ws } fun s2 =>
            let go := fun (s : State) => if th.role = 2 then trailPush s c th d w else enqueueJob s c th j q w
            if th.meter.jobs && !chargedLater j then metered s2 c th p (pushCharge s2 j q) 0 go else go s2

def execJpush (d a : SReg) (q : Fin 3) (s : State) : Host.Outcome State Fault Refusal := pushUnit s d a q.val false
def execJpushW (d a : SReg) (q : Fin 3) (s : State) : Host.Outcome State Fault Refusal := pushUnit s d a q.val true

/-! ### Fences on jobs (R60, R98) -/

/-- A job of a thread that has not consumed its command and operand data, in a queue of a mask. -/
def unconsumed (s : State) (u : Nat) (engines : BitVec 3) (system : Bool) : Bool :=
  let mine := fun (j : Job) => decide (j.uid = u)
  let busy := fun (r : Running) => mine r.job && (decide (s.cycle < r.consumed) || (system && decide (r.deliv.any fun d =>
    match d.kind with | .peer _ => true | .peerAdd _ _ => true | _ => decide (pKind d.ptr = 5))))
  s.clusters.any (fun e =>
    (engines.getLsbD 0 && (e.2.mxe.queues.any (fun q => q.2.any mine) || e.2.mxe.run.any busy))
      || (engines.getLsbD 1 && (e.2.cu.queues.any (fun q => q.2.any mine) || e.2.cu.run.any busy)))
  || (engines.getLsbD 2 && s.parts.any fun e => e.2.devq.any fun j => mine j && decide (e.2.devHead ≠ some j.jid))

/-! ### Rows (R284, R117, R335-R340) -/

/-- Teams of a partition whose last job may have ended. -/
def checkTeams (s : State) (partn : Nat) : State :=
  forEach ((partOf s partn).teams.map (·.1)) (fun s serial => teamCheck s partn serial) s

def execJobEnd (s : State) : Host.Outcome State Fault Refusal :=
  actRow s fun a s =>
    match a with
    | .jobEnd cl cu =>
      let r := if cu then (clusterAt s cl).cu.run else (clusterAt s cl).mxe.run
      match r with
      | some r => if r.stop = s.cycle then some (checkTeams (if cu then endCopy s cl r else endMatrix s cl r) r.job.partn) else none
      | none => none
    | _ => none

/-- An access of a partition's thread that is gone is yet to be performed (R382). -/
def straggles (s : State) (partn : Nat) : Bool :=
  let gone := fun (r : Req) => decide (r.partn = partn) && (threadOf s r.uid).isNone
  let act := fun (a : Act) => match a with | .homeAccess r | .busyResend r | .tableWalk r => gone r | _ => false
  s.agenda.any (fun x => act x.act) || s.ports.any (fun e => e.2.walks.any fun w => gone w.r)
    || s.tiles.any fun e => match e.2.move with | some m => m.held.any act | none => false

/-- A status word waits: the team of a LAUNCH that was placed has an access yet to be performed (R379, R382). -/
def statusWaits (s : State) (j : Job) (w : Word) : Bool :=
  decide (cmdOpcode j = 0x20) && decide (bits w 56 7 ≠ 5) && straggles s j.partn

/-- A status word arrives, or is looked at again in the next cycle. -/
def statusDue (s : State) (j : Job) (w : Word) : State :=
  if statusWaits s j w then schedStatus s (s.cycle + 1) srcLaunch j w else statusArrives s j w

def execJobStatusWord (s : State) : Host.Outcome State Fault Refusal :=
  actRow s fun a s => match a with | .jobStatusWord j w => some (statusDue s j w) | _ => none

def execCollProceed (s : State) : Host.Outcome State Fault Refusal :=
  actRow s fun a s => match a with | .collProceed key peers => (collProceeds s key peers).map fun t => checkTeams t key.partn | _ => none

def execMemberTimeout (s : State) : Host.Outcome State Fault Refusal :=
  actRow s fun a s =>
    match a with
    | .memberTimeout cl jid =>
      let t := memberTimesOut s cl jid
      match (clusterAt s cl).cu.slots.find? fun x => decide (x.job.jid = jid) with
      | some x => some (checkTeams t x.job.partn)
      | none => some t
    | _ => none

def execDigestDecision (s : State) : Host.Outcome State Fault Refusal :=
  actRow s fun a s => match a with | .digestDecision key peers => (digestDecides s key peers).map fun t => checkTeams t key.partn | _ => none

end Sys2Proof.Machine
end

