-- ==== Sys2Proof/Machine/System.lean ====
section
/-! DEFINITION. The system group (R90-R99): traps, the return from one, system registers, thread start and end, safe
points, fences. -/

namespace Sys2Proof.Machine

/-! ### Reading a system register (R71, R149, R178, R205, R208, R324) -/

def ofN (n : Nat) : Word := BitVec.ofNat 64 n

/-- The registers of a partition. -/
def partRead (s : State) (th : Thread) (n : Nat) : Word :=
  let p := partOf s th.partn
  match n with
  | 0x100 => p.fqb
  | 0x101 => ofN p.fqn
  | 0x102 => ofN p.fqw
  | 0x103 => ofN p.fqr
  | 0x104 => p.ptmo
  | 0x108 => (tileOf s th.tile).csav
  | 0x110 => match p.frame with | some f => f.ptroot | none => 0
  | 0x112 => ofN p.tshs
  | 0x113 => match p.frame with | some f => ofN (f.chans.length + f.chans.headD 0 * 2 ^ 56) | none => 0
  | 0x114 => match p.frame with | some f => f.hwsz | none => 0
  | 0x115 => ofN p.drain
  | 0x118 => p.rlpb
  | 0x119 => ofN p.rlpn
  | 0x11A => ofN p.rlpw
  | 0x11B => ofN p.rlpr
  | 0x11C => p.rlgb
  | 0x11D => ofN p.rlgn
  | 0x11E => ofN p.rlgw
  | 0x11F => ofN p.rlgr
  | 0x120 => p.peerb
  | 0x121 => ofN p.peern
  | 0x122 => p.grpb
  | 0x123 => p.divs
  | _ => 0

/-- Any system register as a thread reads it. -/
def sysRead (s : State) (th : Thread) (n : Nat) : Word :=
  match n with
  | 0x000 => ofN (coreOf s th)
  | 0x001 => ofN th.slot
  | 0x002 => ofN (tidOf th)
  | 0x003 => ofN (teamReg s th)
  | 0x004 => ofN (partReg s th)
  | 0x008 => ofN (now s)
  | 0x010 => th.tvec
  | 0x011 => th.fr.cause
  | 0x012 => th.fr.addr
  | 0x013 => th.fr.pc
  | 0x014 => th.fr.info
  | 0x015 => th.fr.tsc
  | 0x020 => th.meter.dmt
  | 0x021 => th.meter.dml
  | 0x022 => ofN (dmcOf th.meter)
  | 0x030 => ofN th.dn.prc
  | 0x031 => ofN th.dn.dlive
  | 0x032 => ofN th.dwin
  | 0x033 => th.dn.dctl
  | 0x034 => ofN th.dn.dslot
  | 0x040 => th.vec.vctl
  | 0x041 => th.vec.vstat
  | 0x042 => th.vec.vbnd
  | 0x043 => ofN th.vn
  | 0x050 => th.lt.vck
  | 0x051 => th.lt.esrc
  | 0x052 => th.lt.vend
  | 0x053 => th.lt.vgdl
  | 0x054 => th.lt.zlk
  | 0x060 => th.racc
  | 0x061 => th.syto
  | 0x062 => th.rvto
  | 0x070 => (tileOf s th.tile).dqsp
  | 0x071 => (tileOf s th.tile).evsp
  | 0x080 => ofN (modeOf th)
  | n => partRead s th n

/-! ### Writing one -/

/-- Keeps the dynamic rounding field where a write of 6 or 7 leaves it (R235, R261). -/
def keepRnd (old v : Word) : Word := if 6 ≤ bits v 0 3 then setBits v 0 3 (bits old 0 3) else v

/-- A write of VCTL (R235). -/
def vctlWrite (old v : Word) : Word := keepRnd old (ofN (bits v 0 9))

/-- A write of DCTL: RW fields [4:0] and [20:16], HS fields [12:8] (R261, R94). -/
def dctlWrite (old v : Word) : Word := keepRnd old (v &&& 0x1F001F#64 ||| (old &&& v &&& 0x1F00#64))

/-- A write of a per-thread register; an RO register is unchanged. -/
def threadWrite (n : Nat) (v : Word) (th : Thread) : Thread :=
  match n with
  | 0x010 => { th with tvec := v }
  | 0x011 => { th with fr := { th.fr with cause := v } }
  | 0x012 => { th with fr := { th.fr with addr := v } }
  | 0x013 => { th with fr := { th.fr with pc := v } }
  | 0x014 => { th with fr := { th.fr with info := v } }
  | 0x015 => { th with fr := { th.fr with tsc := v } }
  | 0x020 => { th with meter := { th.meter with dmt := v } }
  | 0x021 => { th with meter := { th.meter with dml := v } }
  | 0x022 => { th with meter := { th.meter with cnt := bit v 0, trap := bit v 1, jobs := bit v 2 } }
  | 0x033 => { th with dn := { th.dn with dctl := dctlWrite th.dn.dctl v } }
  | 0x034 => if 2 ≤ bits v 0 7 ∧ bits v 0 7 ≤ 65 then { th with dn := { th.dn with dslot := bits v 0 7 } } else th
  | 0x040 => { th with vec := { th.vec with vctl := vctlWrite th.vec.vctl v } }
  | 0x041 => { th with vec := { th.vec with vstat := th.vec.vstat &&& v } }
  | 0x042 => { th with vec := { th.vec with vbnd := v } }
  | 0x052 => { th with lt := { th.lt with vend := v } }
  | 0x053 => { th with lt := { th.lt with vgdl := ofN (bits v 0 32) } }
  | 0x054 => { th with lt := { th.lt with zlk := ofN (bits v 0 8) } }
  | 0x060 => { th with racc := ofN (bits v 0 1) }
  | 0x061 => { th with syto := v }
  | 0x062 => { th with rvto := v }
  | _ => th

/-- The limits of a ring base: kind 2 or 3 and aligned, or zero (R4). -/
def ringBaseOk (v : Word) (align : Nat) : Bool :=
  decide (v = 0) || ((decide (pKind v = 2) || decide (pKind v = 3)) && decide (pOff v % align = 0))

/-- The limits of a table base, where zero has no meaning of its own (R4). -/
def tableBaseOk (v : Word) (align : Nat) : Bool :=
  (decide (pKind v = 2) || decide (pKind v = 3)) && decide (pOff v % align = 0)

/-- A power of two in a range. The whole 64-bit value is tested, so that a write which sets a bit outside the field that
the map lists is ignored (DESIGN CHOICE, log 81). -/
def powerIn (v : Word) (lo hi : Nat) : Bool := decide (lo ≤ v.toNat ∧ v.toNat ≤ hi ∧ v.toNat.isPowerOfTwo)

/-- A spill area within the scratchpad (R349, R387): `unit` bytes at size 0. -/
def areaOk (v : Word) (unit : Nat) : Bool :=
  decide (bits v 0 20 % 32 = 0 ∧ bits v 20 12 = 0 ∧ bits v 36 28 = 0 ∧ bits v 32 4 ≤ 9 ∧ bits v 0 20 + unit * 2 ^ bits v 32 4 ≤ 2 ^ 20)

/-- A write of a register shared by a partition or a core that has no row of its own: it takes effect whole or is
ignored (R4). -/
def sharedWrite (s : State) (partn tile n : Nat) (v : Word) : State :=
  let if_ := fun (ok : Bool) (f : Partition → Partition) => if ok then modPart s partn f else s
  match n with
  | 0x101 => if_ (powerIn v 16 65536) fun p => { p with fqn := v.toNat }
  | 0x104 => modPart s partn fun p => { p with ptmo := v }
  | 0x118 => if_ (tableBaseOk v 8) fun p => { p with rlpb := v }
  | 0x119 => if_ (powerIn v 16 4096) fun p => { p with rlpn := v.toNat }
  | 0x11C => if_ (ringBaseOk v 32) fun p => { p with rlgb := v }
  | 0x11D => if_ (powerIn v 16 65536) fun p => { p with rlgn := v.toNat }
  | 0x11F => modPart s partn fun p => { p with rlgr := bits v 0 32 }
  | 0x120 => if_ (tableBaseOk v 16) fun p => { p with peerb := v }
  | 0x121 => if_ (decide (v.toNat ≤ 255)) fun p => { p with peern := v.toNat }
  | 0x122 => if_ (tableBaseOk v 1024) fun p => { p with grpb := v }
  | 0x108 => if ringBaseOk v 16384 then modTile s tile fun t => { t with csav := v } else s
  | 0x070 =>
    if areaOk v 1024 && decide ((tileOf s tile).deque.length ≤ 32) then modTile s tile fun t => { t with dqsp := v } else s
  | 0x071 =>
    if areaOk v 2048 && decide ((tileOf s tile).evu.pending.length ≤ 64) then modTile s tile fun t => { t with evsp := v } else s
  | _ => s

/-- The act of a write to a register that a partition or a core shares; none for an RO register. -/
def sharedAct (u partn tile n : Nat) (v : Word) : Option Act :=
  match n with
  | 0x100 => some (.fqbWrite partn v)
  | 0x103 => some (.fqrWrite partn v)
  | 0x111 => some (.translationShootdown partn tile v)
  | 0x11A => some (.poolSupply partn v)
  | 0x123 => some (.divsClear partn v)
  | 0x102 | 0x110 | 0x112 | 0x113 | 0x114 | 0x115 | 0x11B | 0x11E => none
  | n => if n = 0x070 ∨ n = 0x071 ∨ 0x100 ≤ n then some (.registerWrite (.sys u n) v) else none

/-! ### Instructions -/

def execNop (s : State) : Host.Outcome State Fault Refusal := unit s Need.none fun c _ => retire s c 8 id

def execTrap (imm : BitVec 12) (s : State) : Host.Outcome State Fault Refusal :=
  unit s Need.none fun c _ => raise s c 0x17 0 (ofN imm.toNat) 0

def execEbreak (imm : BitVec 12) (s : State) : Host.Outcome State Fault Refusal :=
  unit s Need.none fun c _ => raise s c 0x18 0 (ofN imm.toNat) 0

/-- `eret` (R93). -/
def execEret (s : State) : Host.Outcome State Fault Refusal :=
  unit s Need.none fun c th =>
    if th.inHandler then
      modThread (issued s c) c.uid fun t => returnFrom (restartsAt s th th.fr.pc) (unitOver t.pc (s.cycle + c.fx + 8) t)
    else raise s c 0x01 0 (ofN (c.word.toNat + c.pos * 2 ^ 32)) 0

/-- A thread in user mode names a register of the supervisor (R34 step 5). -/
def privileged (s : State) (n : BitVec 12) : Bool :=
  match s.cur with
  | none => false
  | some c => match threadOf s c.uid with | some th => !th.sup && decide (0x100 ≤ n.toNat) | none => false

/-- The privileged fault, before anything of the unit takes effect. -/
def raisePrivileged (s : State) : Host.Outcome State Fault Refusal := withCur s fun c _ => raise s c 0x04 0 0 0

def execMfs (d : SReg) (n : BitVec 12) (s : State) : Host.Outcome State Fault Refusal :=
  if privileged s n then raisePrivileged s
  else unit s { Need.none with sd := [d] } fun c th =>
    lvShare s c th (fun s => (s, [sysRead s th n.toNat])) fun vs s => retire s c 8 (sset d (vs.headD 0))

/-- `mts` (R94): a per-thread register is written at once, a shared one by its own act in the same cycle; of a pair,
the leading thread alone writes shared registers. -/
def execMts (a : SReg) (n : BitVec 12) (s : State) : Host.Outcome State Fault Refusal :=
  if privileged s n then raisePrivileged s
  else unit s { Need.none with sr := [a] } fun c th =>
    let v := sget th a
    gate s c th { kind := 19, ptr := ofN n.toNat, width := 8, data := [v] } fun s1 =>
      let s2 := retire s1 c 8 (threadWrite n.toNat v)
      if th.role = 2 then s2
      else match sharedAct c.uid th.partn th.tile n.toNat v with | some a => schedAt s2 s2.cycle a | none => s2

/-- The lowest thread serial from 0x1_0000 upwards that no living thread of the team holds (R381). -/
def freeTser (s : State) (th : Thread) : Nat :=
  let used := (teamThreads s th.partn th.serial).filterMap fun u => (threadOf s u).map (·.tser)
  0x10000 + ((List.range (used.length + 1)).find? fun n => decide (0x10000 + n ∉ used)).getD 0

/-- The thread that `tfork` starts (R95); in local-time mode its local-time registers are its parent's (R347). -/
def forked (s : State) (c : Cur) (th : Thread) (pc : Ptr) (slot : Nat) : Thread :=
  { Thread.reset with
    partn := th.partn, serial := th.serial, tser := freeTser s th, sup := th.sup, ltm := th.ltm, tile := th.tile, slot := slot,
    pc := pc, vn := th.vn, dwin := th.dwin, readyAt := s.cycle + c.fx + 8,
    s := startScalars [sget th (rS 1), ofN slot, sget th (rS 3), sget th (rS 4)], tvec := th.tvec,
    meter := { Thread.reset.meter with dml := th.meter.dml, cnt := th.meter.cnt, trap := th.meter.trap, jobs := th.meter.jobs },
    syto := th.syto, rvto := th.rvto, lt := if th.ltm then th.lt else Thread.reset.lt }

def execTfork (d a : SReg) (s : State) : Host.Outcome State Fault Refusal :=
  unit s { Need.none with sr := [a, rS 1, rS 3, rS 4], sd := [d], rx := true } fun c th =>
    let no := fun (st : State) => retire st c 8 (sset d (BitVec.allOnes 64))
    if th.role ≠ 0 then lvShare s c th (fun st => (st, [BitVec.allOnes 64])) fun _ st => no st
    else
      match freeSlot s th.tile with
      | none => no s
      | some k =>
        if (freeRows s th.tile).length < rowsFor th.vn th.dwin then no s
        else retire (bear s (forked s c th (sget th a) k)) c 8 (sset d (ofN k))

def execTexit (s : State) : Host.Outcome State Fault Refusal :=
  unit s { Need.none with rx := true } fun c _ => endThread (issued s c) c.uid

/-- `tyield` (R91): busy until another slot issues, at most 64 cycles. -/
def execTyield (s : State) : Host.Outcome State Fault Refusal :=
  unit s Need.none fun c _ =>
    modThread (issued s c) c.uid fun t =>
      { unitOver c.npc (s.cycle + c.fx + 64) t with wait := .tyield (s.cycle + c.fx + 8) }

/-- Records are written (R410). -/
def recordsOn (p : Partition) : Bool :=
  p.trace.tctl && (!(p.trace.trigs.any fun k => bit k.2.w0 4) || p.trace.trigs.any fun k => bit k.2.w0 4 && decide (bits k.2.w0 8 2 = 2))

/-- A record goes to the trace unit. -/
def sendRecord (s : State) (r : TraceRec) : State :=
  if recordsOn (partOf s r.partn) then { s with records := s.records ++ [r] } else s

/-- A trigger that is armed or active. -/
def Trigger.live (k : Trigger) : Bool := decide (1 ≤ bits k.w0 8 2 ∧ bits k.w0 8 2 ≤ 2)

/-- The partition's triggers count a `tmark` from their arming; one that reaches its count is met (R409). -/
def countMarks (s : State) (th : Thread) (pc : Word) : State :=
  modTrace s th.partn fun t =>
    { t with trigs := t.trigs.map fun k =>
        let x := k.2
        let n := x.marks + 1
        let hit := some (s.cycle, tidOf th, pc)
        (k.1,
          if x.live then
            { x with marks := n, startHit := if bits x.w0 0 2 = 3 ∧ x.w1.toNat ≤ n ∧ x.marks < x.w1.toNat then hit else x.startHit,
                     stopHit := if bits x.w0 2 2 = 3 ∧ x.w2.toNat ≤ n ∧ x.marks < x.w2.toNat then hit else x.stopHit }
          else x) }

def execTmark (imm : BitVec 12) (s : State) : Host.Outcome State Fault Refusal :=
  unit s Need.none fun c th =>
    let s1 :=
      if th.role = 2 then s
      else
        sendRecord (countMarks s th c.fpc)
          { partn := th.partn, tid := tidOf th, kind := 0, pc := c.fpc, arg := imm.toNat, tick := now s, src := th.tile }
    retire s1 c 8 id

/-- A pre-emption request stands for the team of the thread whose unit is executed. -/
def requested (s : State) : Bool :=
  match s.cur with
  | some c => match threadOf s c.uid with
    | some th => (teamOf s th.partn th.serial).any fun t => t.req.isSome
    | none => false
  | none => false

/-- `safept` (R97); the table's pointer is kept as that of the last safe point passed (R164). -/
def execSafept (a : SReg) (s : State) : Host.Outcome State Fault Refusal :=
  unit s { Need.none with sr := [a], rx := requested s } fun c th =>
    let keep := fun (t : Thread) => { t with table := some (sget th a) }
    if requested s then modThread (waitUnit s c .safept) c.uid keep else retire s c 8 keep

/-- A fence's engine waits are met. -/
def fenceMet (s : State) (u : Nat) (engines : BitVec 3) (system : Bool) : Bool := !unconsumed s u engines system

/-- `fence` (R98): the scope matters for the acknowledgement of engine work only (R60). -/
def execFence (scope : Fin 6) (engines : BitVec 3) (s : State) : Host.Outcome State Fault Refusal :=
  unit s { Need.none with rx := true } fun c th =>
    if fenceMet s c.uid engines (decide (scope = 5)) then retire s c 8 id
    else modThread (waitUnit s c (.fence engines (decide (scope = 5)))) c.uid fun t => { t with readyAt := s.cycle + c.fx + 8 }

/-- The fence of a thread whose engine waits are met ends (R98). -/
def fenceEnds (s : State) (u : Nat) : State :=
  match threadOf s u with
  | some th =>
    match th.wait with
    | .fence e sys => if fenceMet s u e sys then modThread s u fun t => unitOver (offBy t.pc 4) (max t.readyAt (s.cycle + 1)) t else s
    | _ => s
  | none => s

def execRclr (d : SReg) (s : State) : Host.Outcome State Fault Refusal :=
  unit s { Need.none with sd := [d] } fun c _ => retire s c 8 (sclear d)

end Sys2Proof.Machine
end

