-- ==== Sys2Proof/Machine/Trace.lean ====
section
/-! DEFINITION. The trace unit: holds and steps (R400-R404), armed entries (R396, R397), debug windows and the dump
(R405, R406, R411), Solstice pulses and histograms (R407, R408), triggers and trace records (R409, R410). -/

namespace Sys2Proof.Machine

/-! ### What a thread is doing (R75, R76) -/

/-- A request of a thread waits at a home, or behind a move. -/
def atHome (s : State) (u : Nat) : Option Req :=
  let mine := fun (r : Req) => decide (r.uid = u)
  match s.tiles.findSome? fun e =>
    match e.2.waiters.find? mine with
    | some r => some r
    | none =>
      match e.2.move with
      | some m => m.held.findSome? fun a => match a with | .homeAccess r => if mine r then some r else none | _ => none
      | none => none
  with
  | some r => some r
  | none => s.ports.findSome? fun e => e.2.waiters.find? mine

/-- An access that waits on the state of its word (R76). -/
def waitingOp : AccOp → Bool
  | .barwt _ => true
  | op => isSync op

/-- A pair's trailing thread waits for an entry of the load-value queue that its issued unit has not found (R84): no result
is on its way to it. -/
def lvAbsent (s : State) (u : Nat) (th : Thread) (fid : Nat) : Bool :=
  decide (th.role = 2) && !(s.agenda.any fun x => match x.act with
    | .accessResponse a => decide (a.uid = u ∧ a.fid = fid)
    | _ => false)

/-- The thread is parked (R76): its wait is for a condition, not the time of a unit in flight. -/
def isParked (s : State) (u : Nat) (th : Thread) : Bool :=
  th.ending || match th.wait with
  | .none => false
  | .tyield _ => false
  | .fence _ _ => false
  | .evHeld _ => false
  | .evEnter _ => false
  | .access fid => (atHome s u).any (fun r => waitingOp r.op) || lvAbsent s u th fid
  | _ => true

/-- A thread that is parked, or whose next unit has not issued, with no relaxed access out: it can be held, vacated or
displaced (R156, R400). -/
def settled (s : State) (u : Nat) (th : Thread) : Bool :=
  decide (th.stand = .inSlot) && !rxOut th &&
    match th.wait with
    | .none => decide (th.readyAt ≤ s.cycle)
    | .tyield _ => decide (th.readyAt ≤ s.cycle)
    | .leap => false
    | .amov _ _ _ _ _ _ _ => false
    | _ => isParked s u th

/-- The wait code of a save record (R158). -/
def waitCode (s : State) (u : Nat) (th : Thread) : Nat :=
  match th.away, th.wait with
  | some a, _ => a.1
  | none, .issue _ => 1
  | none, .access _ =>
    match atHome s u with
    | some r => match r.op with | .barwt _ => 5 | op => if isSync op then 2 else 0
    | none => 0
  | none, .rvwait _ => 3
  | none, .jobQueue _ _ _ => 4
  | none, .jobDone _ => 4
  | none, .evnext _ _ => 6
  | none, _ => 0

/-- The slot state in the order of R75. A slot that heat has turned off shows 7 where no thread is kept for it, and 6 while
its thread waits in the context cache: both rows fit (DESIGN CHOICE, log 88). -/
def slotState (s : State) (tile slot : Nat) : Nat :=
  match occupant s tile slot with
  | none => if slot ∈ (tileOf s tile).disabled then 7 else 0
  | some u =>
    match threadOf s u with
    | none => 0
    | some th =>
      if th.stand = .transit ∨ th.stand = .queued ∨ th.tile ≠ tile ∨ th.slot ≠ slot then 3
      else if th.stand = .vacated then 6
      else if th.stopped then 5
      else if th.held then 4
      else
        match th.wait with
        | .none => if th.readyAt ≤ s.cycle then 1 else 2
        | .tyield _ => if th.readyAt ≤ s.cycle then 1 else 2
        | _ => if isParked s u th then 3 else 2

/-! ### Hold and step -/

def holdThread (s : State) (u : Nat) : State := rvPause (modThread s u fun t => { t with held := true, stepping := false }) u

/-- A held thread goes on; after a debug fault its next unit is exempt (R402). -/
def freeThread (step : Bool) (s : State) (u : Nat) : State :=
  match threadOf s u with
  | none => s
  | some th =>
    if th.held = false then s
    else
      let s1 := modThread s u fun t =>
        { t with held := false, stepping := step, exempt := t.exempt || t.debugged, debugged := false, readyAt := max t.readyAt (s.cycle + 1) }
      match th.wait with | .rvwait _ => if th.stand = .inSlot then rvCount s1 u else s1 | _ => s1

/-- A team hold is asked for (R400). -/
def startHold (s : State) (partn serial : Nat) : State := modTeam s partn serial fun t => { t with holding := true }

/-- Threads of a held team that have finished their units become held; the hold is done when all are. -/
def holdTick (s : State) (partn serial : Nat) : State :=
  match teamOf s partn serial with
  | some t =>
    if t.holding then
      let s1 := forEach ((teamThreads s partn serial).filter fun u =>
        match threadOf s u with
        | some th => !th.held && (settled s u th || decide (th.stand = .vacated))
        | none => false) holdThread s
      if (threadsOf s1 (teamThreads s1 partn serial)).all (·.held) then modTeam s1 partn serial fun t => { t with holding := false } else s1
    else s
  | none => s

/-- The threads of a partition with a TID (a pair has two). -/
def withTid (s : State) (partn tid : Nat) : List Nat := threadsWhere s fun _ th => decide (th.partn = partn ∧ tidOf th = tid)

/-- The team serial of a TID. -/
def tidSerial (tid : Nat) : Nat := tid / 2 ^ 24 % 2 ^ 16

def dcmdSet (s : State) (partn out tid : Nat) (hold : Bool) : State :=
  modTrace s partn fun t => { t with dcmdOut := out, dcmdTid := tid, dcmdHold := hold }

/-- The team of a TID in its partition. -/
def tidTeam (s : State) (partn tid : Nat) : Option Nat :=
  if tid / 2 ^ 40 = partn ∧ (teamOf s partn (tidSerial tid)).isSome then some (tidSerial tid) else none

/-- The outcome of the latest DCMD write as it stands (R400, R403). Once it has become 0 or 1 it is kept. -/
def dcmdNow (s : State) (partn : Nat) : Nat :=
  let t := (partOf s partn).trace
  if t.dcmdOut ≠ 2 then t.dcmdOut
  else if t.dcmdHold then
    match tidTeam s partn t.dcmdTid with
    | none => 1
    | some n => if (teamOf s partn n).any (·.holding) then 2 else 0
  else
    match threadsOf s (withTid s partn t.dcmdTid) with
    | [] => 1
    | l => if l.any (·.stepping) then 2 else 0

/-- An outcome that was 2 and has been decided is kept. -/
def dcmdSettles (s : State) : Option State :=
  (s.parts.find? fun e => decide (e.2.trace.dcmdOut = 2 ∧ dcmdNow s e.1 ≠ 2)).map fun e =>
    modTrace s e.1 fun t => { t with dcmdOut := dcmdNow s e.1 }

/-- A row on the team of a TID. -/
def teamRow (s : State) (partn tid : Nat) (hold : Bool) (f : Nat → State) (out : Nat) : State :=
  match tidTeam s partn tid with
  | none => dcmdSet s partn 1 tid hold
  | some n => dcmdSet (f n) partn out tid hold

/-- A row on the thread of a TID. -/
def threadRow (s : State) (partn tid : Nat) (f : List Nat → State × Nat) : State :=
  match withTid s partn tid with
  | [] => dcmdSet s partn 1 tid false
  | us => let r := f us; dcmdSet r.1 partn r.2 tid false

def execHold (s : State) : Host.Outcome State Fault Refusal :=
  actRow s fun a s => match a with | .hold partn tid => some (teamRow s partn tid true (fun n => startHold s partn n) 2) | _ => none

def execRelease (s : State) : Host.Outcome State Fault Refusal :=
  actRow s fun a s =>
    match a with
    | .release partn tid =>
      some (teamRow s partn tid false (fun n =>
        forEach (teamThreads s partn n) (freeThread false) (modTeam s partn n fun t => { t with holding := false })) 0)
    | _ => none

def execStep (s : State) : Host.Outcome State Fault Refusal :=
  actRow s fun a s =>
    match a with
    | .step partn tid =>
      some (threadRow s partn tid fun us =>
        if !(threadsOf s us).all (·.held) || (threadsOf s (teamThreads s partn (tidSerial tid))).any (·.stepping) then (s, 3)
        else (forEach us (freeThread true) s, 2))
    | _ => none

/-- Action 4; where no step of the thread has parked, nothing changes (DESIGN CHOICE, log 81). -/
def execCancel (s : State) : Host.Outcome State Fault Refusal :=
  actRow s fun a s =>
    match a with
    | .cancel partn tid =>
      some (threadRow s partn tid fun us =>
        (forEach (us.filter fun u => (threadOf s u).any fun th => th.stepping && isParked s u th) holdThread s, 0))
    | _ => none

def execReleaseOne (s : State) : Host.Outcome State Fault Refusal :=
  actRow s fun a s =>
    match a with
    | .releaseOne partn tid => some (threadRow s partn tid fun us => (forEach us (freeThread false) s, 0))
    | _ => none

/-- DCNT. -/
def dcntWord (s : State) (partn : Nat) : Word :=
  match tidTeam s partn (partOf s partn).trace.dcmdTid with
  | none => 0
  | some n =>
    let l := threadsOf s (teamThreads s partn n)
    ofN ((l.filter (·.held)).length + l.length * 2 ^ 32)

/-! ### Armed task entries (R396, R397) -/

/-- The limits of a word of an entry. A breakpoint is a code pointer: kind 0, 2, 3 or 4, offset a multiple of 4. -/
def entryOk (w : Nat) (v : Word) : Bool :=
  if w = 0 then decide (bits v 62 2 = 0)
  else if w ≤ 8 then decide (pOff v % 4 = 0) && (decide (pKind v = 0) || decide (2 ≤ pKind v ∧ pKind v ≤ 4))
  else if w ≤ 16 then true
  else if w ≤ 20 then decide (v.toNat ≤ 3)
  else decide (v = 0)

def execArmedTaskEntryWrite (s : State) : Host.Outcome State Fault Refusal :=
  actRow s fun a s =>
    match a with
    | .armedTaskEntryWrite partn e w v =>
      if entryOk w v then some (modTrace s partn fun t => { t with entries := ins t.entries e (ins (lookD t.entries e []) w v) })
      else some s
    | _ => none

/-! ### Debug windows (R405, R406) -/

/-- The rendezvous point's word (R123). -/
def pointWord (p : Point) : Word :=
  ofN (p.expected + p.arrived * 2 ^ 17 + (if p.phase then 2 ^ 34 else 0) + if p.closed then 2 ^ 35 else 0)

/-- The team whose origin tile is a tile. -/
def originTeam (s : State) (partn tile : Nat) : Option Team :=
  match frameOf s partn with
  | none => none
  | some f => ((partOf s partn).teams.find? fun e => decide (tileAt f e.2.ox e.2.oy = tile)).map (·.2)

/-- The full bits of the scalars and the predicate values. -/
def fullWord (th : Thread) : Word := ofN ((~~~th.sEmpty).toNat / 2 * 2 + th.p.toNat / 2 * 2 * 2 ^ 32)

/-- The word of a slot's state (R405): without a thread the state alone. -/
def slotWord (s : State) (tile slot : Nat) : Word :=
  ofN (slotState s tile slot + match (occupant s tile slot).bind fun u => (threadOf s u).map fun th => (u, th) with
    | some (u, th) => waitCode s u th * 16 + (if th.inHandler then 256 else 0) + if th.exempt then 512 else 0
    | none => 0)

/-- A word of the first debug window of a thread that a slot of a tile belongs to. -/
def windowWord (s : State) (tile slot : Nat) (th : Thread) (o : Nat) : Word :=
  if o < 0x100 then lookD th.s (o / 8) 0
  else if o = 0x100 then fullWord th
  else if o ≤ 0x140 then lookD th.m ((o - 0x108) / 8) 0
  else if o = 0x148 then th.pc
  else if o = 0x150 then slotWord s tile slot
  else if 0x800 ≤ o ∧ (o - 0x800) / 8 ∈ sysUser then sysRead s th ((o - 0x800) / 8)
  else 0

/-- The thread and the place within its windows of an offset. -/
inductive Window
  | first (o : Nat)
  | vector (r i : Nat)
  | dennum (g : Nat)
  deriving DecidableEq, Repr

def windowAt (off : Nat) : Option (Nat × Window) :=
  if 0x80000 ≤ off ∧ off < 0x90000 then some ((off - 0x80000) / 0x1000, .first (off % 0x1000))
  else if 0xA0000 ≤ off ∧ off < 0xB0000 then some ((off - 0xA0000) / 0x1000, .vector (off % 0x1000 / 64) (off % 64 / 8))
  else if 0xB0000 ≤ off ∧ off < 0xF0000 then some ((off - 0xB0000) / 0x4000, .dennum (off % 0x4000 / 8))
  else none

def windowRead (s : State) (tile slot : Nat) (th : Thread) : Window → Word
  | .first o => windowWord s tile slot th o
  | .vector r i => if r < th.vn then granGet s th.tile (vgran th r i) else 0
  | .dennum g => if g < th.dwin then winGet s th g else 0

/-- A word of the debug area of a tile. -/
def debugRead (s : State) (partn tile off : Nat) : Word :=
  let d := (tileOf s tile).deque
  if off = 0x7000 then ofN (min d.length 32 + (d.length - 32) * 2 ^ 16)
  else if 0x7020 ≤ off ∧ off < 0x7420 then
    match (d.drop (d.length - 32))[(off - 0x7020) / 32]? with
    | some x => [x.lo, x.hi, x.tag, 0].getD (off % 32 / 8) 0
    | none => 0
  else if 0x7800 ≤ off ∧ off < 0x78C0 then
    match originTeam s partn tile with | some t => pointWord (pointOf t ((off - 0x7800) / 8)) | none => 0
  else
    match windowAt off with
    | none => 0
    | some (slot, w) =>
      match (occupant s tile slot).bind (threadOf s) with
      | some th => windowRead s tile slot th w
      | none => if w = .first 0x150 then slotWord s tile slot else 0

/-- The full-bit word empties or fills each register as given and sets the predicates. -/
def setFull (v : Word) (th : Thread) : Thread :=
  { th with sEmpty := (~~~(v.setWidth 32)) &&& 0xFFFFFFFE#32, sOut := th.sOut &&& ~~~(v.setWidth 32), p := BitVec.ofNat 8 (bits v 33 7 * 2) }

/-- A write to the first window of a held or stopped thread. -/
def windowWrite (s : State) (u : Nat) (th : Thread) (o : Nat) (v : Word) : State :=
  if o < 0x100 then modThread s u (sset (rS (o / 8)) v)
  else if o = 0x100 then modThread s u (setFull v)
  else if o = 0x108 then s
  else if o ≤ 0x140 then modThread s u (mset (rP ((o - 0x108) / 8)) v)
  else if o = 0x148 then modThread s u fun t => { t with pc := v, exempt := false }
  else if o < 0x800 ∨ (o - 0x800) / 8 ∉ sysUser then s
  else
    let n := (o - 0x800) / 8
    if n = 0x041 then modThread s u fun t => { t with vec := { t.vec with vstat := ofN (bits v 0 5) } }
    else if n = 0x070 ∨ n = 0x071 then sharedWrite s th.partn th.tile n v
    else modThread s u (threadWrite n v)

def debugWrite (s : State) (tile off : Nat) (v : Word) : State :=
  match windowAt off with
  | none => s
  | some (slot, w) =>
    match occupant s tile slot with
    | none => s
    | some u =>
      match threadOf s u with
      | none => s
      | some th =>
        if !th.held && !th.stopped then s
        else
          match w with
          | .first o => recheck (windowWrite s u th o v) u
          | .vector r i => if r < th.vn then granSet tile (vgran th r i) v s else s
          | .dennum g => if g < th.dwin then winSet s th g v else s

def execDebugWindowWrite (s : State) : Host.Outcome State Fault Refusal :=
  actRow s fun a s => match a with | .debugWindowWrite tile off v => some (debugWrite s tile off v) | _ => none

/-! ### The dump (R411) -/

/-- Writes n words of ciphertext, which no rule states: free values. -/
def cipherWords (partn : Nat) (p : Ptr) : Nat → State → State
  | 0, s => s
  | n + 1, s => cipherWords partn (offBy p 8) n (hwStore (freshFree s) partn p (Config.cipherWord s.fresh))

/-- The debug windows of the partition's held threads are written to the host window, encrypted; without a partition
key nothing is. -/
def execDump (s : State) : Host.Outcome State Fault Refusal :=
  actRow s fun a s =>
    match a with
    | .dump partn p =>
      let l := threadsOf s (threadsWhere s fun _ th => decide (th.partn = partn) && th.held)
      let n := l.foldl (fun a th => a + 512 + 8 * th.vn + th.dwin) 0
      if (partOf s partn).pkey && decide (pKind p = 5) then some (cipherWords partn p n s) else some s
    | _ => none

/-! ### Triggers and records (R409, R410) -/

/-- Writing word 0 arms a trigger. Bit [7], which no rule names, is taken as one that must be zero: a write that sets it is
ignored (DESIGN CHOICE, log 81). -/
def execTriggerArm (s : State) : Host.Outcome State Fault Refusal :=
  actRow s fun a s =>
    match a with
    | .triggerArm partn k v =>
      if bits v 10 54 ≠ 0 ∨ bit v 7 then some s
      else
        some (modTrace s partn fun t =>
          let x := lookD t.trigs k Trigger.reset
          { t with trigs := ins t.trigs k { x with w0 := ofN (bits v 0 7 + 256), marks := 0, startHit := none, stopHit := none } })
    | _ => none

/-- A unit is about to issue: PC conditions of its partition's triggers are met (R409). -/
def markPc (s : State) (th : Thread) : State :=
  if (partOf s th.partn).trace.trigs.isEmpty then s
  else
    modTrace s th.partn fun t =>
      { t with trigs := t.trigs.map fun k =>
          let x := k.2
          let hit := some (s.cycle, tidOf th, (th.pc : Word))
          let who := decide (bits x.w3 0 48 = 0) || decide (bits x.w3 0 48 = tidOf th)
          (k.1,
            if x.live && who then
              { x with startHit := if bits x.w0 0 2 = 1 ∧ x.w1 = th.pc then hit else x.startHit,
                       stopHit := if bits x.w0 2 2 = 1 ∧ x.w2 = th.pc then hit else x.stopHit }
            else x) }

/-- A condition is met in this cycle. -/
def condMet (s : State) (kind : Nat) (v : Word) (hit : Option (Nat × Nat × Word)) : Bool :=
  match kind with
  | 1 => hit.any fun h => decide (h.1 = s.cycle)
  | 2 => decide (v.toNat ≤ now s)
  | 3 => hit.any fun h => decide (h.1 = s.cycle)
  | _ => false

def startMet (s : State) (k : Trigger) : Bool := condMet s (bits k.w0 0 2) k.w1 k.startHit
def stopMet (s : State) (k : Trigger) : Bool := condMet s (bits k.w0 2 2) k.w2 k.stopHit

/-- The state a trigger moves to in this cycle. -/
def trigNext (s : State) (k : Trigger) : Option Nat :=
  match bits k.w0 8 2 with
  | 1 => if startMet s k then some (if stopMet s k then 3 else 2) else none
  | 2 => if stopMet s k then some 3 else none
  | _ => none

/-- The record of a transition: TID and PC of the unit that met the condition, of no stated value for a TSC. -/
def trigRecord (s : State) (partn k : Nat) (hit : Option (Nat × Nat × Word)) : State :=
  match hit with
  | some (_, tid, pc) => { s with records := s.records ++ [{ partn := partn, tid := tid, kind := k + 1, pc := pc, arg := k, tick := now s, src := srcTrace }] }
  | none =>
    let s1 := freshFree (freshFree s)
    { s1 with records := s1.records ++ [{ partn := partn, tid := bits (Config.openWord s.fresh) 0 48, kind := k + 1,
                                          pc := Config.openWord (s.fresh + 1), arg := k, tick := now s, src := srcTrace }] }

def trigMoves (s : State) (partn k : Nat) : Option State :=
  let x := trigOf (partOf s partn) k
  match trigNext s x with
  | none => none
  | some n =>
    let put := fun (st : State) (m : Nat) => modTrace st partn fun t => { t with trigs := ins t.trigs k { x with w0 := setBits x.w0 8 2 m } }
    let hit := if n = 2 then (if bits x.w0 0 2 = 2 then none else x.startHit) else if bits x.w0 2 2 = 2 then none else x.stopHit
    let on := recordsOn (partOf (put s 2) partn)
    let s1 := put (if on then trigRecord s partn k hit else s) n
    match hit with
    | some (_, tid, _) => some (if n = 3 ∧ bit x.w0 6 then startHold s1 partn (tidSerial tid) else s1)
    | none => some s1

def execTriggerTransition (s : State) : Host.Outcome State Fault Refusal :=
  actRow s fun a s => match a with | .triggerTransition partn k => trigMoves s partn k | _ => none

/-- The first trigger of any partition that moves in this cycle. -/
def trigDue (s : State) : Option Act :=
  s.parts.findSome? fun e => (e.2.trace.trigs.find? fun k => (trigNext s k.2).isSome).map fun k => .triggerTransition e.1 k.1

/-- A record that the trace unit holds: it has come from its source (R410). -/
def recordHeld (s : State) (r : TraceRec) : Bool := decide (r.tick + Config.recordWay r.src ≤ now s)

/-- A record that reached the trace unit after its window. -/
def recordLate (r : TraceRec) : Bool := decide (512 < Config.recordWay r.src)

/-- The oldest record held, in the order of R14. -/
def oldestRecord (l : List TraceRec) : Option TraceRec :=
  l.foldl (fun (a : Option TraceRec) r =>
    match a with
    | some b => if r.tick < b.tick ∨ (r.tick = b.tick ∧ r.src < b.src) then some r else a
    | none => some r) none

def recordDue (s : State) : Option TraceRec :=
  match oldestRecord (s.records.filter (recordHeld s)) with
  | some r => if r.tick + 512 < now s then some r else none
  | none => none

/-- Writes a record into its partition's ring, or drops it. -/
def writeRecord (s : State) (r : TraceRec) : State :=
  let t := (partOf s r.partn).trace
  if t.trb = 0 ∨ t.trn = 0 ∨ sub32 t.trw t.trr = t.trn then s
  else
    let p := offBy t.trb (32 * (t.trw % t.trn))
    match hwKey s r.partn p true false with
    | (s1, .bad _ _ _) => s1
    | (s1, .ok _) =>
      let late := if recordLate r then 2 ^ 63 else 0
      modTrace (hwRecord s1 r.partn p [ofN (r.tid + r.kind * 2 ^ 56), r.pc, ofN r.arg, ofN (r.tick % 2 ^ 63 + late)]) r.partn
        fun q => { q with trw := (q.trw + 1) % 2 ^ 32 }

def execTraceRecordWrite (s : State) : Host.Outcome State Fault Refusal :=
  actRow s fun a s =>
    match a with
    | .traceRecordWrite =>
      match recordDue s with
      | some r => some (writeRecord { s with records := s.records.erase r } r)
      | none => none
    | _ => none

/-! ### Pulses and histograms (R407, R408) -/

/-- The first occupied slot of a tile in rotation order. -/
def firstOccupied (s : State) (tile : Nat) : Option Nat :=
  ((List.range 16).map fun i => ((tileOf s tile).last + 1 + i) % 16).find? fun k => (occupant s tile k).isSome

/-- Why a thread did not issue: one that is leaping waits for its arrival. -/
def pulseReason (s : State) (tile u : Nat) (th : Thread) : Nat :=
  if th.stand = .transit ∨ th.stand = .queued ∨ th.tile ≠ tile then 4
  else if th.stand = .vacated then 11
  else if th.stopped || th.held then 10
  else
    match th.wait with
    | .issue _ => 3
    | .relaxedFull => 9
    | .access fid => match waitCode s u th with | 2 => 4 | 5 => 7 | _ => if lvAbsent s u th fid then 6 else 2
    | .leap => 4
    | .rvwait _ => 5
    | .rvarr _ => 5
    | .jobQueue _ _ _ => 6
    | .jobDone _ => 6
    | .amov _ _ _ _ _ _ _ => 6
    | .comparator _ => 6
    | .lvq => 6
    | .evnext _ _ => 8
    | .evHeld _ => 8
    | .evEnter _ => 8
    | .safept => 10
    | _ => 2

/-- The bucket of a PC. -/
def pulseBucket (h : Hist) (pc : Ptr) : Nat :=
  let n := (pOff pc - h.hbas) / 2 ^ h.hshf
  if pOff pc < h.hbas ∨ 4095 ≤ n then 4095 else n

/-- The slots of a tile that are ready in this cycle: one whose unit has issued in it was, too. -/
def readySlots (s : State) (tile : Nat) : Nat :=
  ((List.range 16).filter fun k =>
    decide (slotState s tile k = 1) || (decide ((tileOf s tile).lastIssue = some s.cycle) && decide ((tileOf s tile).last = k))).length

/-- The record that a tile latches at a pulse (R407): bucket, reason, slot, ready slots. Without an occupied slot the slot
described is 0 (DESIGN CHOICE, log 58). -/
def pulseRecord (s : State) (tile : Nat) (h : Hist) : BitVec 32 :=
  let word := fun (bucket reason slot : Nat) => BitVec.ofNat 32 (bucket + reason * 2 ^ 12 + slot * 2 ^ 16 + readySlots s tile * 2 ^ 20)
  if (tileOf s tile).lastIssue = some s.cycle then word (pulseBucket h (tileOf s tile).lastPc) 0 (tileOf s tile).last
  else
    match firstOccupied s tile with
    | none => word 4095 1 0
    | some k =>
      match (occupant s tile k).bind fun u => (threadOf s u).map fun th => (u, th) with
      | some (u, th) => word (pulseBucket h th.pc) (pulseReason s tile u th) k
      | none => word 4095 1 0

/-- The bin of a record: reason and bucket (R408). -/
def recordBin (r : BitVec 32) : Nat := r.toNat % 2 ^ 16

/-- Pulses are folded (R410). -/
def foldsOn (p : Partition) : Bool :=
  !(p.trace.trigs.any fun k => bit k.2.w0 5) || p.trace.trigs.any fun k => bit k.2.w0 5 && decide (bits k.2.w0 8 2 = 2)

/-- The tiles of a partition. -/
def partTiles (s : State) (partn : Nat) : List Nat :=
  match frameOf s partn with
  | none => []
  | some f => (List.range f.h).flatMap fun y => (List.range f.w).map fun x => tileAt f x y

/-- A pulse: every core of the partition latches its record; where its die's engine has selected the partition and pulses
are folded, the record's bin counts it (R407, R408). -/
def foldPulse (s : State) (partn : Nat) : State :=
  let s0 := modTrace s partn fun t => { t with lastPulse := some (now s) }
  let conf := (frameOf s partn).any (·.conf)
  forEach (partTiles s partn) (fun st tile =>
    let rec_ := pulseRecord s tile (histOf s (dieOf tile))
    let s1 := modTile st tile fun t => { t with sample := rec_ }
    if foldsOn (partOf s partn) && decide ((histOf s (dieOf tile)).hsel = partn) then
      modHist s1 (dieOf tile) fun h =>
        { h with bins := ins h.bins (recordBin rec_) (min (lookD h.bins (recordBin rec_) 0 + 1) 0xFFFFFFFF), htot := h.htot + 1,
                 conf := h.conf || conf }
    else s1) s0

def execSolsticePulse (s : State) : Host.Outcome State Fault Refusal :=
  actRow s fun a s => match a with | .solsticePulse partn => some (foldPulse s partn) | _ => none

/-- A partition whose pulse falls at this tick and has not been taken. -/
def pulseDue (s : State) : Option Act :=
  (s.parts.find? fun e =>
    let t := e.2.trace
    e.2.frame.isSome && decide (t.solp ≠ 0 ∧ now s % t.solp = 0 ∧ t.lastPulse ≠ some (now s))).map fun e => .solsticePulse e.1

def execHistogramClear (s : State) : Host.Outcome State Fault Refusal :=
  actRow s fun a s =>
    match a with
    | .histogramClear die => some (modHist s die fun h => { h with bins := [], htot := 0, conf := false })
    | _ => none

end Sys2Proof.Machine
end

