-- ==== Sys2Proof/Machine/Ctrl.lean ====
section
/-! DEFINITION. CTRL space: the words of each tile and of the device units (R152, R201, R210, R359, R370-R374, R384,
R395, R405, R408, R413, R415, R421, R425, R428-R430), fault-queue registers (R149-R151, R373), DIVS (R341), and the
host's accesses through its BARs (R424). -/

namespace Sys2Proof.Machine

/-! ### Words of a tile -/

/-- A link word (R359): guest x and y, valid, L. -/
def linkWord (s : State) (partn tile L : Nat) : Word := ofN (guestPack s partn tile + 2 ^ 15 + L * 2 ^ 32)

/-- The event unit's words (R359). After a team save F and H read as they stood. -/
def evuRead (s : State) (partn tile off : Nat) : Word :=
  let e := evuOf s tile
  if off = 0x6000 then
    ofN ((if e.active then 1 else 0) + (if e.closed then 2 else 0) + (if e.blockedFrom.isSome then 4 else 0) + e.rounds * 256
      + e.pending.length * 2 ^ 32)
  else if off = 0x6008 then e.cck
  else if off = 0x6010 then (e.kept.map (·.2)).getD (horizonAt s tile)
  else if off = 0x6018 then (e.kept.map (·.1)).getD (evFloor s tile)
  else if off = 0x6020 then e.ltmt
  else if off = 0x6028 then ofN e.drops
  else if 0x6040 ≤ off ∧ off < 0x60C0 then
    match look e.out ((off - 0x6040) / 16) with
    | some l => if off % 16 = 0 then linkWord s partn l.dst l.look else l.sent
    | none => 0
  else if 0x6100 ≤ off ∧ off < 0x6300 then
    match look e.inb ((off - 0x6100) / 16) with
    | some l => if off % 16 = 0 then linkWord s partn l.src l.look else l.p
    | none => 0
  else if 0x6400 ≤ off ∧ off < 0x6C00 then
    match e.pending[(off - 0x6400) / 32]? with
    | some x => [x.t, x.pay0, x.pay1, ofN x.src].getD (off % 32 / 8) 0
    | none => 0
  else 0

def orphanWord (o : Orphan) : Word := ofN (o.count + o.reason * 2 ^ 32 + o.slot * 2 ^ 36 + o.source * 2 ^ 40)

def blockCode : BlockState → Nat
  | .present => 0
  | .forwarded => 1
  | .vacated => 2

/-- The directory words of a block (R210). -/
def directoryWord (b : Block) (stub : Bool) : Word :=
  if stub then (if b.st = .forwarded then b.stub else 0)
  else ofN (blockCode b.st + (if b.lodged then 4 else 0) + b.count * 2 ^ 32)

/-- A corrected-error word (R413). -/
def corrOf (t : Tile) (b : Nat) : Nat × Nat := lookD t.corr b (0, 64)

def tileRead (s : State) (partn tile off : Nat) : Word :=
  let t := tileOf s tile
  if 0x4000 ≤ off ∧ off < 0x4080 then ofN (lookD t.tcw ((off - 0x4000) / 8) 0)
  else if off = 0x4100 then orphanWord t.orphan
  else if off = 0x5000 then t.rldst
  else if off = 0x5008 then ofN (t.rlout + t.rlblk * 256)
  else if 0x5100 ≤ off ∧ off < 0x5180 then
    let c := corrOf t ((off - 0x5100) / 8)
    ofN (c.1 + c.2 * 2 ^ 32)
  else if 0x6000 ≤ off ∧ off < 0x6C00 then evuRead s partn tile off
  else if 0x10000 ≤ off ∧ off < 0x20000 then directoryWord (blockAt s tile ((off - 0x10000) / 16)) (decide (off % 16 = 8))
  else debugRead s partn tile off

/-- The act of a thread-control word (R152): none where the write is ignored. -/
def tcwAct (tile slot : Nat) (v : Word) : Option Act :=
  let tid := bits v 16 48
  if bits v 4 12 ≠ 0 then none
  else
    match bits v 0 4 with
    | 1 => some (.resume tile slot tid)
    | 2 => some (.deliver tile slot tid)
    | 3 => some (.terminate tile slot tid)
    | 4 => some (.vacate tile slot tid)
    | 5 => some (.restore tile slot tid)
    | _ => none

/-- The act of RLCMD (R210). -/
def rlAct (tile : Nat) (v : Word) : Option Act :=
  if bits v 4 4 ≠ 0 ∨ bits v 20 44 ≠ 0 then none
  else
    match bits v 0 4 with
    | 1 => some (.relocate tile (bits v 8 12))
    | 2 => some (.retireStub tile (bits v 8 12))
    | 3 => some (.reinstate tile (bits v 8 12))
    | _ => none

def schedOpt (s : State) (a : Option Act) : State := match a with | some a => schedAt s s.cycle a | none => s

def tileWrite (s : State) (tile off : Nat) (v : Word) : State :=
  if 0x4000 ≤ off ∧ off < 0x4080 then schedOpt s (tcwAct tile ((off - 0x4000) / 8) v)
  else if off = 0x4100 then modTile s tile fun t => { t with orphan := { t.orphan with count := bits v 0 32 } }
  else if off = 0x5000 then modTile s tile fun t => { t with rldst := v }
  else if off = 0x5008 then
    match rlAct tile v with
    | some a => schedAt (modTile s tile fun t => { t with rlblk := bits v 8 12 }) s.cycle a
    | none => s
  else if 0x5100 ≤ off ∧ off < 0x5180 then
    modTile s tile fun t => { t with corr := ins t.corr ((off - 0x5100) / 8) (bits v 0 32, bits v 32 16) }
  else if off = 0x6020 then modEvu s tile fun e => { e with ltmt := v }
  else if off = 0x6028 then modEvu s tile fun e => { e with drops := bits v 0 32 }
  else if (windowAt off).isSome then schedAt s s.cycle (.debugWindowWrite tile off v)
  else s

/-! ### The launch unit (R370-R374, R384) -/

def lqRead (q : Queue) (o : Nat) : Word :=
  match o with
  | 0x00 => q.lqb
  | 0x08 => ofN q.lqn
  | 0x10 => ofN q.lqt
  | 0x18 => ofN (q.lqp + if q.resident then 2 ^ 63 else 0)
  | 0x20 => lqrWord q
  | 0x28 => lqcWord q
  | 0x30 => q.lqsv
  | _ => 0

def launchRead (s : State) (off : Nat) : Word :=
  if 0x80000 ≤ off then
    match off with
    | 0x80000 => s.hfqb
    | 0x80008 => ofN s.hfqn
    | 0x80010 => ofN s.hfqw
    | 0x80018 => ofN s.hfqr
    | 0x80020 => ofN s.hfqv
    | _ => 0
  else
    let p := partOf s (off / 0x8000)
    let o := off % 0x8000
    if 0x1000 ≤ o ∧ o < 0x1400 then lqRead (queueOf p ((o - 0x1000) / 0x40)) (o % 0x40)
    else if 0x10 ≤ o ∧ o < 0x40 then lookD p.pchl ((o - 0x10) / 8) 0
    else if 0x80 ≤ o ∧ o < 0xA0 then lookD p.psup ((o - 0x80) / 8) 0
    else
      match o with
      | 0x00 => ofN (p.pout + p.pstate * 16)
      | 0x08 => p.pfrm
      | 0x40 => p.proot
      | 0x50 => p.phws
      | 0x58 => ofN ((if p.pconf then 1 else 0) + if p.pkey then 2 else 0)
      | 0x100 => ofN p.preqOut
      | 0x110 => p.tspb
      | 0x118 => ofN p.tspn
      | 0x120 => ofN p.tsps
      | _ => 0

/-- A write of LQC (R374): an action of 3-15 ignores it as a whole. Of a switched-out queue the record takes the fields too,
so that a switch-in finds them (DEDUCED, log 82). -/
def lqcWrite (s : State) (partn q : Nat) (v : Word) : State :=
  let a := bits v 4 4
  if 3 ≤ a then s
  else
    let k := queueOf (partOf s partn) q
    let s0 := modQueue s partn q fun x =>
      { x with prio := bits v 0 2, en := bit v 2, head := if bit v 2 then x.head else none, reading := x.reading && bit v 2 }
    let s1 := if k.resident then queueKick s0 partn q else recordWord s0 partn k 5 fun _ => ofN (bits v 0 3)
    match a with
    | 1 => schedAt s1 s1.cycle (.switchIn partn q)
    | 2 => schedAt s1 s1.cycle (.switchOut partn q)
    | _ => s1

def lqWrite (s : State) (partn q o : Nat) (v : Word) : State :=
  let k := queueOf (partOf s partn) q
  let still := k.en = false ∧ k.lqp = k.lqt
  match o with
  | 0x00 => if still ∧ tableBaseOk v 32 then modQueue s partn q fun x => { x with lqb := v } else s
  | 0x08 => if still ∧ powerIn v 4 4096 then modQueue s partn q fun x => { x with lqn := v.toNat } else s
  | 0x10 => schedAt s s.cycle (.tailWrite partn q v)
  | 0x28 => lqcWrite s partn q v
  | 0x30 => if tableBaseOk v 64 then modQueue s partn q fun x => { x with lqsv := v } else s
  | _ => s

/-- The act of PCTL. -/
def pctlAct (partn : Nat) (v : Word) : Option Act :=
  match bits v 0 4 with
  | 1 => some (.create partn)
  | 2 => some (.delete partn)
  | _ => none

/-- The act of PREQ (R384). Bits [63:20], to which no rule gives a meaning, are taken as ones that must be zero: a write
that sets one is ignored (DESIGN CHOICE, log 81). -/
def preqAct (partn : Nat) (v : Word) : Option Act :=
  if bits v 20 44 ≠ 0 then none
  else
    match bits v 16 4 with
    | 1 => some (.save partn (bits v 0 16))
    | 2 => some (.teamTerminate partn (bits v 0 16))
    | 3 => some (.discard partn (bits v 0 16))
    | _ => none

/-- A write of the host driver to its fault queue's registers (R373). -/
def hfqWrite (s : State) (off : Nat) (v : Word) : State :=
  match off with
  | 0x80000 => schedAt s s.cycle (.hfqbWrite v)
  | 0x80008 => if powerIn v 16 65536 then { s with hfqn := v.toNat } else s
  | 0x80018 => schedAt s s.cycle (.hfqrWrite v)
  | 0x80020 => { s with hfqv := bits v 0 11 }
  | _ => s

/-- A write to the launch unit's space; the host driver's queue, at 0x8_0000, is written by no thread (R373). -/
def launchWrite (s : State) (off : Nat) (v : Word) : State :=
  if 0x80000 ≤ off then s
  else
    let n := off / 0x8000
    let o := off % 0x8000
    let block := fun (f : Partition → Partition) => if (partOf s n).pstate = 0 then modPart s n f else s
    if 0x1000 ≤ o ∧ o < 0x1400 then lqWrite s n ((o - 0x1000) / 0x40) (o % 0x40) v
    else if 0x10 ≤ o ∧ o < 0x40 then block fun p => { p with pchl := ins p.pchl ((o - 0x10) / 8) v }
    else if 0x80 ≤ o ∧ o < 0xA0 then modPart s n fun p => { p with psup := ins p.psup ((o - 0x80) / 8) v }
    else
      match o with
      | 0x00 => schedOpt s (pctlAct n v)
      | 0x08 => block fun p => { p with pfrm := v &&& 0x3F7F7F3F3F#64 }
      | 0x40 => block fun p => { p with proot := v }
      | 0x50 => block fun p => { p with phws := v }
      | 0x58 => block fun p => { p with pconf := bit v 0 }
      | 0x100 => schedOpt s (preqAct n v)
      | 0x110 => if tableBaseOk v 4096 then modPart s n fun p => { p with tspb := v } else s
      | 0x118 => modPart s n fun p => { p with tspn := bits v 0 16 }
      | 0x120 => if bits v 0 32 % 4096 = 0 then modPart s n fun p => { p with tsps := bits v 0 32 } else s
      | _ => s

/-! ### The trace unit (R395) and the histogram engines (R408) -/

def Trigger.word (k : Trigger) (i : Nat) : Word := [k.w0, k.w1, k.w2, k.w3].getD i 0

def traceRead (s : State) (off : Nat) : Word :=
  if 0x80000 ≤ off then 0
  else
    let n := off / 0x8000
    let o := off % 0x8000
    let t := (partOf s n).trace
    if 0x100 ≤ o ∧ o < 0x180 then (trigOf (partOf s n) ((o - 0x100) / 0x20)).word (o % 0x20 / 8)
    else if 0x400 ≤ o ∧ o < 0x4400 then lookD (lookD t.entries ((o - 0x400) / 0x100) []) (o % 0x100 / 8) 0
    else
      match o with
      | 0x00 => if t.tctl then 1 else 0
      | 0x08 => t.trb
      | 0x10 => ofN t.trn
      | 0x18 => ofN t.trw
      | 0x20 => ofN t.trr
      | 0x40 => t.dbqb
      | 0x48 => ofN t.dbqn
      | 0x50 => ofN t.dbqw
      | 0x58 => ofN t.dbqr
      | 0x60 => ofN t.dbqv
      | 0x80 => ofN t.solp
      | 0x200 => ofN (dcmdNow s n)
      | 0x208 => dcntWord s n
      | _ => 0

/-- The act of DCMD (R400). -/
def dcmdAct (partn : Nat) (v : Word) : Option Act :=
  let tid := bits v 0 48
  if bits v 52 12 ≠ 0 then none
  else
    match bits v 48 4 with
    | 1 => some (.hold partn tid)
    | 2 => some (.release partn tid)
    | 3 => some (.step partn tid)
    | 4 => some (.cancel partn tid)
    | 5 => some (.releaseOne partn tid)
    | _ => none

/-- Words 1 to 3 of a trigger. -/
def Trigger.put (k : Trigger) (i : Nat) (v : Word) : Trigger :=
  match i with
  | 1 => { k with w1 := v }
  | 2 => { k with w2 := v }
  | 3 => { k with w3 := ofN (bits v 0 48) }
  | _ => k

def traceWrite (s : State) (off : Nat) (v : Word) : State :=
  if 0x80000 ≤ off then s
  else
    let n := off / 0x8000
    let o := off % 0x8000
    let set := fun (f : TraceBlk → TraceBlk) => modTrace s n f
    if 0x100 ≤ o ∧ o < 0x180 then
      let k := (o - 0x100) / 0x20
      if o % 0x20 = 0 then schedAt s s.cycle (.triggerArm n k v)
      else set fun t => { t with trigs := ins t.trigs k ((lookD t.trigs k Trigger.reset).put (o % 0x20 / 8) v) }
    else if 0x400 ≤ o ∧ o < 0x4400 then schedAt s s.cycle (.armedTaskEntryWrite n ((o - 0x400) / 0x100) (o % 0x100 / 8) v)
    else
      match o with
      | 0x00 => set fun t => { t with tctl := bit v 0 }
      | 0x08 => if ringBaseOk v 32 then set fun t => { t with trb := v } else s
      | 0x10 => if powerIn v 16 65536 then set fun t => { t with trn := v.toNat } else s
      | 0x20 => set fun t => { t with trr := bits v 0 32 }
      | 0x40 => if ringBaseOk v 64 then set fun t => { t with dbqb := v, dbStuck := false } else s
      | 0x48 => if powerIn v 16 65536 then set fun t => { t with dbqn := v.toNat } else s
      | 0x58 => set fun t => { t with dbqr := bits v 0 32, dbStuck := false }
      | 0x60 => set fun t => { t with dbqv := bits v 0 12 }
      | 0x80 => if 1 ≤ bits v 0 32 ∧ bits v 0 32 ≤ 1023 then s else set fun t => { t with solp := bits v 0 32 }
      | 0x200 => schedOpt s (dcmdAct n v)
      | 0x300 => schedAt s s.cycle (.dump n v)
      | _ => s

def histRead (s : State) (die off : Nat) : Word :=
  let h := histOf s die
  if off < 0x80000 then ofN (lookD h.bins (off / 8) 0)
  else
    match off with
    | 0x80000 => ofN h.hsel
    | 0x80008 => ofN h.hbas
    | 0x80010 => ofN h.hshf
    | 0x80018 => ofN h.htot
    | _ => 0

/-- A write of a histogram register. HSEL takes 17-31 too, to which the map gives no meaning and sets no limit (DESIGN CHOICE,
log 81): no pulse is folded then. -/
def histWrite (s : State) (die off : Nat) (v : Word) : State :=
  match off with
  | 0x80000 =>
    let s1 := modHist s die fun h => { h with hsel := bits v 0 5 }
    if bit v 5 then schedAt s1 s1.cycle (.histogramClear die) else s1
  | 0x80008 => modHist s die fun h => { h with hbas := bits v 0 46 }
  | 0x80010 => if 2 ≤ v.toNat ∧ v.toNat ≤ 15 then modHist s die fun h => { h with hshf := v.toNat } else s
  | _ => s

/-! ### The reliability and host unit -/

def linkStatus (l : Link) : Word :=
  ofN (l.state + l.width * 4 + (if l.rev then 32 else 0) + l.retrains * 256 + l.replays * 2 ^ 16 + if l.dis then 2 ^ 63 else 0)

def rectWord (r : Rect) : Word :=
  ofN (r.x + r.y * 2 ^ 8 + r.w * 2 ^ 16 + r.h * 2 ^ 24 + (if r.valid then 2 ^ 32 else 0) + (if r.fenced then 2 ^ 33 else 0) + r.resets * 2 ^ 48)

def relRead (s : State) (off : Nat) : Word :=
  if off = 0 then ofN (s.bootStep + s.bootFail * 16 + if s.recovery then 256 else 0)
  else if off = 0x10000 then ofN ((if s.ckReserve then 1 else 0) + s.ckState * 16 + if s.ckPower then 256 else 0)
  else if off = 0x10008 then s.ckts
  else if 0x20000 ≤ off ∧ off < 0x20180 then
    let l := linkOf s ((off - 0x20000) / 16)
    if off % 16 = 0 then linkStatus l else l.partner
  else if off = 0x20200 then (if s.aligned then 1 else 0)
  else if 0x30000 ≤ off ∧ off < 0x30080 then (partOf s ((off - 0x30000) / 8)).hwba
  else if 0x50000 ≤ off ∧ off < 0x60000 ∧ off % 0x1000 < 64 then
    rectWord (rectOf (partOf s ((off - 0x50000) / 0x1000)) (off % 0x1000 / 8))
  else 0

/-- A write of CKCTL (R421): an action that is not assigned ignores it. -/
def ckWrite (s : State) (v : Word) : State :=
  let s1 := { s with ckReserve := bit v 0, ckPower := bit v 8 }
  match bits v 1 3 with
  | 0 => s1
  | 1 => schedAt s1 s1.cycle .checkpointNow
  | 2 => schedAt s1 s1.cycle .restoreTierOne
  | 3 => schedAt s1 s1.cycle .invalidate
  | _ => s

/-- The rectangle a write asks for, and whether R415 lets it. -/
def rectAsked (v : Word) (r : Rect) : Rect :=
  { r with x := bits v 0 6, y := bits v 8 6, w := bits v 16 7, h := bits v 24 7, valid := bit v 32 }

def rectOk (s : State) (partn k : Nat) (r : Rect) : Bool :=
  match frameOf s partn with
  | none => false
  | some f =>
    decide (r.x % 4 = 0 ∧ r.y % 2 = 0 ∧ r.w % 4 = 0 ∧ r.h % 2 = 0 ∧ r.x + r.w ≤ f.w ∧ r.y + r.h ≤ f.h)
      && (partOf s partn).rects.all fun e =>
        decide (e.1 = k) || !e.2.valid || !r.valid || !overlap r.x r.y r.w r.h e.2.x e.2.y e.2.w e.2.h

def rectWrite (s : State) (partn k : Nat) (v : Word) : State :=
  let r := rectOf (partOf s partn) k
  let a := rectAsked v r
  if r.fenced then (if a = r ∧ bit v 33 = false then schedAt s s.cycle (.unfence partn k) else s)
  else if rectOk s partn k a then modPart s partn fun p => { p with rects := ins p.rects k a }
  else s

/-- Words of an ML-KEM-1024 ciphertext (FIPS 203): 1,568 bytes. -/
def keyWords : Nat := 196

/-- A word of a partition's key mailbox (R432): once all words of the ciphertext have been written, firmware takes them and
installs the key (DESIGN CHOICE, log 10). -/
def keyWrite (s : State) (partn i : Nat) (v : Word) : State :=
  let box := ins (partOf s partn).keybox i v
  if box.length < keyWords then modPart s partn fun p => { p with keybox := box }
  else schedAt (modPart s partn fun p => { p with keybox := [] }) s.cycle (.keyInstall partn (box.map (·.2)))

def relWrite (s : State) (off : Nat) (v : Word) : State :=
  if off = 0x10000 then ckWrite s v
  else if 0x20000 ≤ off ∧ off < 0x20180 ∧ off % 16 = 0 then
    let l := (off - 0x20000) / 16
    let s1 := modLink s l fun x => { x with dis := bit v 63 }
    if bit v 63 && !(linkOf s l).dis then schedAt s1 s1.cycle (.peerLinkDown l)
    else if !bit v 63 && (linkOf s l).dis then modLink s1 l fun x => { x with state := 1 }
    else s1
  else if 0x30000 ≤ off ∧ off < 0x30080 then modPart s ((off - 0x30000) / 8) fun p => { p with hwba := v }
  else if 0x40000 ≤ off ∧ off < 0x50000 ∧ off % 0x1000 < 8 * keyWords then
    keyWrite s ((off - 0x40000) / 0x1000) (off % 0x1000 / 8) v
  else if 0x50000 ≤ off ∧ off < 0x60000 ∧ off % 0x1000 < 64 then
    rectWrite s ((off - 0x50000) / 0x1000) (off % 0x1000 / 8) v
  else s

/-! ### CTRL space as a whole -/

def devRead (s : State) (unit off : Nat) : Word :=
  match unit with
  | 0 => launchRead s off
  | 1 => traceRead s off
  | 6 => relRead s off
  | n => if 2 ≤ n ∧ n ≤ 5 then histRead s (n - 2) off else 0

def devWrite (s : State) (unit off : Nat) (v : Word) : State :=
  match unit with
  | 0 => launchWrite s off v
  | 1 => traceWrite s off v
  | 6 => relWrite s off v
  | n => if 2 ≤ n ∧ n ≤ 5 then histWrite s (n - 2) off v else s

/-- The aligned word of CTRL space that a place holds. -/
def ctrlRead (s : State) (partn : Nat) : Place → Word
  | .tileCtrl t off => tileRead s partn t (off / 8 * 8)
  | .devCtrl u off => devRead s u (off / 8 * 8)
  | _ => 0

def ctrlWrite (s : State) (pl : Place) (v : Word) : State :=
  match pl with
  | .tileCtrl t off => tileWrite s t (off / 8 * 8) v
  | .devCtrl u off => devWrite s u (off / 8 * 8) v
  | _ => s

/-! ### Rows for register writes -/

def execRegisterWrite (s : State) : Host.Outcome State Fault Refusal :=
  actRow s fun a s =>
    match a with
    | .registerWrite (.sys uid n) v => (threadOf s uid).map fun th => sharedWrite s th.partn th.tile n v
    | .registerWrite (.tile _ tile off) v => some (tileWrite s tile (off / 8 * 8) v)
    | .registerWrite (.dev _ unit off) v => some (devWrite s unit (off / 8 * 8) v)
    | _ => none

def execFqbWrite (s : State) : Host.Outcome State Fault Refusal :=
  actRow s fun a s =>
    match a with
    | .fqbWrite partn v =>
      if ringBaseOk v 64 then some (modPart s partn fun p => { p with fqb := v, fqNoted := false, fqStuck := false }) else some s
    | _ => none

def execFqrWrite (s : State) : Host.Outcome State Fault Refusal :=
  actRow s fun a s =>
    match a with
    | .fqrWrite partn v => some (modPart s partn fun p => { p with fqr := bits v 0 32, fqStuck := false })
    | _ => none

def execHfqbWrite (s : State) : Host.Outcome State Fault Refusal :=
  actRow s fun a s =>
    match a with
    | .hfqbWrite v => if bits v 0 6 = 0 then some { s with hfqb := v, hostStuck := false } else some s
    | _ => none

def execHfqrWrite (s : State) : Host.Outcome State Fault Refusal :=
  actRow s fun a s => match a with | .hfqrWrite v => some { s with hfqr := bits v 0 32, hostStuck := false } | _ => none

/-- DIVS clears the bits written 1 (R341); placements held up by a divergent bit are scanned again. -/
def execDivsClear (s : State) : Host.Outcome State Fault Refusal :=
  actRow s fun a s =>
    match a with
    | .divsClear partn v => some (scanNext (modPart s partn fun p => { p with divs := p.divs &&& ~~~v &&& 0xFFFFFFFF#64 }))
    | _ => none

/-! ### The host's BARs (R424) -/

/-- What an access of the host reaches. -/
inductive BarPlace
  | dev (unit off : Nat)
  | retention (key : Nat)
  | window (partn off : Nat)
  | nothing
  deriving DecidableEq, Repr

/-- The launch and trace blocks of a function lie one behind the other in its BAR0 (log 40). -/
def barPlace (s : State) (h : HostReq) : BarPlace :=
  if s.bootFail ≠ 0 ∧ (h.fn ≠ 0 ∨ h.bar ≠ 0 ∨ h.off ≠ 6 * 0x800000) then .nothing
  else if h.fn = 0 then
    match h.bar with
    | 0 => if h.off / 0x800000 ≤ 6 ∧ h.off % 0x800000 < 0x100000 then .dev (h.off / 0x800000) (h.off % 0x800000) else .nothing
    | 2 =>
      if h.off < 320 * 2 ^ 30 then .retention (keyTier2 (h.off / 4096 % 16) (0x1300000000 + h.off / 4096 / 16 * 4096 + h.off % 4096))
      else .nothing
    | _ => .nothing
  else
    match h.bar with
    | 0 =>
      if h.off < 0x8000 then .dev 0 ((h.fn - 1) * 0x8000 + h.off)
      else if h.off < 0x10000 then .dev 1 ((h.fn - 1) * 0x8000 + (h.off - 0x8000))
      else .nothing
    | 2 => if h.off < 2 ^ 36 then .window (h.fn - 1) h.off else .nothing
    | _ => .nothing

/-- The partition is confidential: the host reads zero of its trace unit and can arm or command nothing there (R411). -/
def confAt (s : State) (partn : Nat) : Bool := (frameOf s partn).any (·.conf)

/-- A die's histogram holds a confidential partition's records, or selects one: its bins, HSEL, HBAS and HSHF are hidden
from the host, HTOT is not (R411). -/
def binsHidden (s : State) (u off : Nat) : Bool :=
  decide (2 ≤ u ∧ u ≤ 5 ∧ off < 0x80018) && ((histOf s (u - 2)).conf || confAt s (histOf s (u - 2)).hsel)

/-- The sum over buckets for a reason. -/
def reasonSum (h : Hist) (reason : Nat) : Nat := h.bins.foldl (fun a b => if b.1 / 4096 = reason then a + b.2 else a) 0

/-- What the host reads of hidden words: zero, but in place of bucket 0 of each reason the sum over its buckets (R411; the
place is the model's choice, log 59). -/
def hiddenRead (s : State) (u off : Nat) : Word :=
  if off < 0x80000 ∧ off / 8 % 4096 = 0 then ofN (reasonSum (histOf s (u - 2)) (off / 8 / 4096)) else 0

def hostDone (s : State) (h : HostReq) (v : Word) : State :=
  match h.write with
  | some _ => s
  | none => { s with outbox := s.outbox ++ [.hostRead h.fn h.bar h.off v] }

def hostAborts (s : State) (h : HostReq) : State := { s with outbox := s.outbox ++ [.hostAbort h.fn h.bar h.off] }

/-- An entry for the page fault of a BAR2 access. -/
def barEntry (s : State) (partn : Nat) (p : Ptr) (info : Nat) : Entry :=
  { cause := 0x109, tid := partn * 2 ^ 40, addr := p, pc := 0, info := ofN info, tsc := now s, loc := 0, flags := 0, src := srcHost,
    tag := 0 }

/-- A BAR2 access through the partition's page tree: an encrypted page of a confidential partition reads zero and ignores
writes; a page fault completes with Completer Abort. -/
def hostWindow (s : State) (h : HostReq) (partn off : Nat) : State :=
  let p := mkPtr 3 0 0 off
  match frameOf s partn, placeOf s partn p with
  | some f, some (.chan c o) =>
    let w := h.write.isSome
    match translate s c partn o w false with
    | (s1, .ok addr) =>
      let enc := (cached s1 c partn o).any (·.enc)
      let k := keyChan c addr / 8 * 8
      if f.conf && enc then hostDone s1 h 0
      else
        let s2 := setView s1 k (viewOf s1 c partn o)
        match h.write with | some v => writeWord s2 k v true | none => hostDone s2 h (wordAt s2 k)
    | (s1, .page l _) => postHost (hostAborts s1 h) (barEntry s1 partn p (l + if w then 16 else 0))
    | (s1, .prot) => hostAborts s1 h
  | _, _ => hostAborts s h

def hostAccess (s : State) (h : HostReq) : State :=
  match barPlace s h with
  | .nothing => hostAborts s h
  | .retention k => hostDone s h (rawWord s (k / 8 * 8))
  | .window partn off => hostWindow s h partn (off / 8 * 8)
  | .dev u off =>
    if u = 1 && confAt s (off / 0x8000) then hostDone s h 0
    else if binsHidden s u off && h.write.isNone then hostDone s h (hiddenRead s u off)
    else match h.write with
      | some v => if u = 0 ∧ 0x80000 ≤ off then hfqWrite s (off / 8 * 8) v else devWrite s u (off / 8 * 8) v
      | none => hostDone s h (devRead s u (off / 8 * 8))

def execHostBarAccess (s : State) : Host.Outcome State Fault Refusal :=
  actRow s fun a s => match a with | .hostBarAccess h => some (hostAccess s h) | _ => none

end Sys2Proof.Machine
end

