-- ==== Sys2Proof/Machine/Dennum.lean ====
section
/-! DEFINITION. The dennum unit (R258-R280): registers in the window, rounding to q bits, arithmetic, conversions,
`prec`, `ldn` and `stn`. -/

namespace Sys2Proof.Machine

/-! ### Registers in the window (R258, R259) -/

/-- Limbs of a precision. -/
def limbsOf (p : Nat) : Nat := (p + 63) / 64

def dlimbs (th : Thread) : Nat := limbsOf th.dn.prc

/-- Granules of a register. -/
def dcap (th : Thread) : Nat := 1 + dlimbs th

def dgran (s : State) (th : Thread) (k i : Nat) : Word := winGet s th (k * dcap th + i)

def dhead (s : State) (th : Thread) (k : Nat) : Word := dgran s th k 0

def headNeg (h : Word) : Bool := bit h 63
def headClass (h : Word) : Nat := bits h 60 3
def headExp (h : Word) : Int := sx 32 (bits h 0 32)

/-- The number whose 64-bit digits are a list, most significant first. -/
def joinLimbs (l : List Word) : Nat := l.foldl (fun a x => a * 2 ^ 64 + x.toNat) 0

/-- The value of a head and limbs (R259). -/
def valueOf (h : Word) (l : List Word) : FV :=
  match headClass h with
  | 0 => .fin (headNeg h) 0 0
  | 1 => .fin (headNeg h) (joinLimbs l) (headExp h + 1 - 64 * l.length)
  | 2 => .inf (headNeg h)
  | 4 => .nan true
  | _ => .nan false

def dlist (s : State) (th : Thread) (k : Nat) : List Word := (List.range (dlimbs th)).map fun i => dgran s th k (i + 1)

def dget (s : State) (th : Thread) (k : DReg) : FV := valueOf (dhead s th k.val) (dlist s th k.val)

/-- A head word (R259). -/
def mkHead (neg : Bool) (cls count : Nat) (e : Int) : Word :=
  BitVec.ofNat 64 ((if neg then 2 ^ 63 else 0) + cls * 2 ^ 60 + count * 2 ^ 48 + (e % 2 ^ 32).toNat)

/-- A significand cut into `n` limbs, most significant first. -/
def cutLimbs (n m : Nat) : List Word := (List.range n).map fun i => BitVec.ofNat 64 (m / 2 ^ (64 * (n - 1 - i)) % 2 ^ 64)

/-- The granules of a value in a register of `n` limbs, or in memory (R259). -/
def dgrans (n : Nat) (v : FV) : List Word :=
  match v with
  | .nan sig => mkHead false (if sig then 4 else 3) 0 0 :: List.replicate n 0
  | .inf s => mkHead s 2 0 0 :: List.replicate n 0
  | .fin s 0 _ => mkHead s 0 0 0 :: List.replicate n 0
  | .fin s m e =>
    let l := Nat.log2 m
    mkHead s 1 n (l + e) :: cutLimbs n (if l < 64 * n then m * 2 ^ (64 * n - 1 - l) else m / 2 ^ (l + 1 - 64 * n))

/-- Writes granules of the window from one on. -/
def winPut (th : Thread) (g : Nat) (ws : List Word) (s : State) : State :=
  (ws.foldl (fun (a : State × Nat) w => (winSet a.1 th a.2 w, a.2 + 1)) (s, g)).1

def dput (th : Thread) (k : DReg) (v : FV) (s : State) : State := winPut th (k.val * dcap th) (dgrans (dlimbs th) v) s

/-- A register that holds a head with zero limbs: a NaN kept bit for bit. -/
def dputHead (th : Thread) (k : DReg) (h : Word) (s : State) : State :=
  winPut th (k.val * dcap th) (h :: List.replicate (dlimbs th) 0) s

/-! ### Rounding to q bits (R262, R263) -/

def drnd (th : Thread) : Rnd := dynRnd (bits th.dn.dctl 0 3)

/-- The largest finite value at q bits: (2 - 2^(1 - q)) × 2^(2^31 - 1). -/
def dmax (neg : Bool) (q : Nat) : FV := .fin neg (2 ^ q - 1) (2 ^ 31 - q)

def dround (mode : Rnd) (q : Nat) (x : Ex) : FV × Nat :=
  match x.v with
  | .nan _ => (.nan false, x.fl)
  | .inf s => (.inf s, x.fl)
  | .fin s 0 e => (.fin s 0 e, x.fl)
  | .fin s m e =>
    let E := (Nat.log2 m : Int) + e
    let c := cutAt m e (E - q + 1) x.st
    let n := roundCut mode s c
    let nx := if c.2 ≠ 0 then fNX else 0
    let E' := if n = 2 ^ q then E + 1 else E
    let n' := if n = 2 ^ q then 2 ^ (q - 1) else n
    if 2 ^ 31 - 1 < E' then
      let toInf := match mode with | .rne => true | .rna => true | .rtz => false | .rup => !s | .rdn => s
      (if toInf then .inf s else dmax s q, x.fl ||| (fOF + fNX))
    else if E' < -(2 ^ 31 : Int) then (.fin s 0 0, x.fl ||| (fUF + fNX))
    else (.fin s n' (E' - q + 1), x.fl ||| nx)

/-- The exponent of the leading bit. -/
def leadExp (m : Nat) (e : Int) : Int := (Nat.log2 m : Int) + e

/-- x + y for rounding to q bits or fewer: an operand far below the other only says which side of it the sum lies. -/
def dsum (mode : Rnd) (q : Nat) (x y : FV) : Ex :=
  match x, y with
  | .fin a m e, .fin b n f =>
    if m = 0 ∨ n = 0 then exAdd mode x y
    else
      let k : Nat := q + 4
      let far := fun (s : Bool) (m : Nat) (e : Int) (t : Bool) =>
        ({ v := .fin s (if s = t then m * 2 ^ k else m * 2 ^ k - 1) (e - k), st := true, fl := 0 } : Ex)
      if leadExp n f + 1 < e - k then far a m e b
      else if leadExp m e + 1 < f - k then far b n f a
      else exAdd mode x y
  | _, _ => exAdd mode x y

/-- x × y + z for rounding to q bits (R270). -/
def dfmaEx (mode : Rnd) (q : Nat) (x y z : FV) : Ex :=
  let p := exMul x y
  let fl := p.fl ||| sigFlag z
  match p.v with
  | .nan _ => Ex.nan fl
  | v => let r := dsum mode q v z; { r with fl := r.fl ||| fl }

/-- x < y for values other than NaN. -/
def dless (x y : FV) : Bool :=
  match x, y with
  | .fin a m e, .fin b n f =>
    if m = 0 ∨ n = 0 then (decide (m = 0 ∧ n ≠ 0) && !b) || (decide (m ≠ 0) && a && decide (n = 0 ∨ !b))
    else if a ≠ b then a
    else if leadExp m e ≠ leadExp n f then (decide (leadExp m e < leadExp n f)) != a
    else ltF x y
  | _, _ => ltF x y

def dequal (x y : FV) : Bool := !x.isNaN && !y.isNaN && !dless x y && !dless y x

/-- Brings an exponent within reach of a rounding to integers or to f64 without changing what it gives. -/
def clampExp (x : FV) : FV :=
  match x with
  | .fin s m e =>
    if m = 0 then x
    else if leadExp m e < -1200 then .fin s 1 (-1200)
    else if 1200 < leadExp m e then .fin s 1 1200
    else x
  | _ => x

/-- Rounds to an integral value, the sign kept (R272). -/
def dintegral (mode : Rnd) (p : Nat) (x : FV) : FV × Nat :=
  match x with
  | .nan sig => if sig then (.nan false, fNV) else (x, 0)
  | .fin s m e =>
    if m = 0 ∨ (p : Int) - 1 ≤ leadExp m e then (x, 0)
    else
      let c := if leadExp m e < -2 then (0, 1) else cutAt m e 0 false
      (.fin s (roundCut mode s c) 0, if c.2 = 0 then 0 else fNX)
  | _ => (x, 0)

/-! ### Checks and ends of a unit -/

/-- FINFO of the precision-exhausted fault (R265). -/
def precInfo (reason need have_ : Nat) : Word := BitVec.ofNat 64 (reason + need * 256 + have_ * 2 ^ 32)

/-- A check of a dennum unit at issue fails: its thread is held for 8 cycles, and the fault is delivered at the end of
them (R266). -/
def draise (s : State) (c : Cur) (cause : Nat) (addr info : Word) (progress : Nat) : State := raiseEnd 8 s c cause addr info progress

/-- `meter(p, k)` of a dennum unit, whose trap is delivered as its other issue faults are (R185, R266). -/
def dmetered (s : State) (c : Cur) (th : Thread) (p : Word) (ch progress : Nat) (k : State → State) : State :=
  if th.meter.cnt = false then k s
  else if meterTraps th ch then draise s c 0x0F p (BitVec.ofNat 64 ch) progress
  else k (modThread s c.uid (meterAdd ch))

/-- A granule of a dennum register is poisoned. -/
def dPois (s : State) (th : Thread) (k : Nat) : Bool :=
  (List.range (dcap th)).any fun i => decide (wgran th (k * dcap th + i) ∈ (tileOf s th.tile).poolPois)

/-- Issues a dennum unit: the first named register at or beyond DLIVE faults (R258, R266); a poisoned one of those that it
reads is consumed (R414). -/
def dunit (s : State) (ds : List DReg) (reads : Thread → List DReg) (n : Need) (k : Cur → Thread → State) :
    Host.Outcome State Fault Refusal :=
  unitChecked s n
    (fun c th =>
      match ds.find? fun d => decide (th.dn.dlive ≤ d.val) with
      | some d => some (draise s c 0x10 0 (precInfo 1 d.val 0) 0)
      | none => if (reads th).any fun d => dPois s th d.val then some (draise s c 0x1C 0 3 th.resume) else none) k

def dtraps (th : Thread) (fl : Nat) : Bool := decide (fl &&& bits th.dn.dctl 16 5 ≠ 0)

/-- ORs flags into DCTL (R264). -/
def dstick (fl : Nat) (th : Thread) : Thread :=
  { th with dn := { th.dn with dctl := th.dn.dctl ||| BitVec.ofNat 64 (fl * 256) } }

/-- FINFO of the dennum unit's arithmetic fault (R264). -/
def darithInfo (fl : Nat) : Word := BitVec.ofNat 64 (fl + 131072)

def dfinish (s : State) (c : Cur) (th : Thread) (fl lat : Nat) (w : State → State) (f : Thread → Thread) : State :=
  if dtraps th fl then raiseEnd lat s c 0x16 0 (darithInfo fl) 0 else retire (w s) c lat fun t => dstick fl (f t)

/-- An operation that writes dd. -/
def dop (s : State) (d : DReg) (srcs : List DReg) (lat : Nat → Nat) (f : Thread → (DReg → FV) → FV × Nat) :
    Host.Outcome State Fault Refusal :=
  dunit s (d :: srcs) (fun _ => srcs) Need.none fun c th =>
    let r := f th (dget s th)
    dfinish s c th r.2 (lat (dlimbs th)) (dput th d r.1) id

/-! ### DA (R269-R272) -/

def dlatAdd (l : Nat) : Nat := 8 + 2 * l
def dlatMul (l : Nat) : Nat := 8 + l * l
def dlatDiv (l : Nat) : Nat := 16 + 4 * l * l

def execDadd (d a b : DReg) (s : State) : Host.Outcome State Fault Refusal :=
  dop s d [a, b] dlatAdd fun th r => dround (drnd th) th.dn.prc (dsum (drnd th) th.dn.prc (r a) (r b))

def execDsub (d a b : DReg) (s : State) : Host.Outcome State Fault Refusal :=
  dop s d [a, b] dlatAdd fun th r => dround (drnd th) th.dn.prc (dsum (drnd th) th.dn.prc (r a) (r b).neg)

def execDmul (d a b : DReg) (s : State) : Host.Outcome State Fault Refusal :=
  dop s d [a, b] dlatMul fun th r => dround (drnd th) th.dn.prc (exMul (r a) (r b))

def execDdiv (d a b : DReg) (s : State) : Host.Outcome State Fault Refusal :=
  dop s d [a, b] dlatDiv fun th r => dround (drnd th) th.dn.prc (exDiv (th.dn.prc + 4) (r a) (r b))

def execDfma (d a b : DReg) (s : State) : Host.Outcome State Fault Refusal :=
  dop s d [a, b, d] dlatMul fun th r => dround (drnd th) th.dn.prc (dfmaEx (drnd th) th.dn.prc (r a) (r b) (r d))

def execDsqrt (d a : DReg) (s : State) : Host.Outcome State Fault Refusal :=
  dop s d [a] dlatDiv fun th r => dround (drnd th) th.dn.prc (exSqrt (th.dn.prc + 4) (r a))

/-- `dneg` and `dabs` change the sign alone; a NaN becomes canonical. -/
def dsign (f : FV → FV) (x : FV) : FV × Nat :=
  match x with
  | .nan sig => (.nan false, if sig then fNV else 0)
  | v => (f v, 0)

def FV.abs : FV → FV
  | .nan s => .nan s
  | .inf _ => .inf false
  | .fin _ m e => .fin false m e

def execDneg (d a : DReg) (s : State) : Host.Outcome State Fault Refusal :=
  dop s d [a] dlatAdd fun _ r => dsign FV.neg (r a)

def execDabs (d a : DReg) (s : State) : Host.Outcome State Fault Refusal :=
  dop s d [a] dlatAdd fun _ r => dsign FV.abs (r a)

def execDmov (d a : DReg) (s : State) : Host.Outcome State Fault Refusal :=
  dunit s [d, a] (fun _ => [a]) Need.none fun c th =>
    retire (winPut th (d.val * dcap th) (dhead s th a.val :: dlist s th a.val) s) c (dlatAdd (dlimbs th)) id

/-- A quiet NaN is returned bit for bit (R272). -/
def execDround (d a : DReg) (s : State) : Host.Outcome State Fault Refusal :=
  dunit s [d, a] (fun _ => [a]) Need.none fun c th =>
    let r := dintegral (drnd th) th.dn.prc (dget s th a)
    dfinish s c th r.2 (dlatAdd (dlimbs th))
      (if headClass (dhead s th a.val) = 3 then dputHead th d (dhead s th a.val) else dput th d r.1) id

/-- A comparison with its flags (R271). -/
def dcompare (cc : Cond) (x y : FV) : Bool × Nat :=
  if x.isNaN || y.isNaN then (decide (cc = .ne), if cc = .eq ∨ cc = .ne then sigFlag x ||| sigFlag y else fNV)
  else (condHolds cc (dless x y) (dequal x y), 0)

def execDcmp (p : PReg) (cc : Cond) (a b : DReg) (s : State) : Host.Outcome State Fault Refusal :=
  dunit s [a, b] (fun _ => [a, b]) Need.none fun c th =>
    let r := dcompare cc (dget s th a) (dget s th b)
    dfinish s c th r.2 (dlatAdd (dlimbs th)) id (pset p r.1)

/-! ### DX (R273) -/

def execDcvtf (d : DReg) (a : SReg) (s : State) : Host.Outcome State Fault Refusal :=
  dunit s [d] (fun _ => []) { Need.none with sr := [a] } fun c th =>
    let x := readF .f64 (sget th a).toNat
    let r := dround (drnd th) th.dn.prc { v := x, st := false, fl := sigFlag x }
    dfinish s c th r.2 (dlatAdd (dlimbs th)) (dput th d r.1) id

def execDcvti (d : DReg) (a : SReg) (s : State) : Host.Outcome State Fault Refusal :=
  dunit s [d] (fun _ => []) { Need.none with sr := [a] } fun c th =>
    let n := (sget th a).toInt
    let r := dround (drnd th) th.dn.prc (Ex.ok (.fin (decide (n < 0)) n.natAbs 0))
    dfinish s c th r.2 (dlatAdd (dlimbs th)) (dput th d r.1) id

def execDcvtd (d : SReg) (a : DReg) (s : State) : Host.Outcome State Fault Refusal :=
  dunit s [a] (fun _ => [a]) { Need.none with sd := [d] } fun c th =>
    let x := dget s th a
    let r := pack .f64 (drnd th) false none { v := clampExp x, st := false, fl := sigFlag x }
    dfinish s c th r.2 (dlatAdd (dlimbs th)) id (sset d (BitVec.ofNat 64 r.1))

def execDcvtdi (d : SReg) (a : DReg) (s : State) : Host.Outcome State Fault Refusal :=
  dunit s [a] (fun _ => [a]) { Need.none with sd := [d] } fun c th =>
    let r := toInt (-(2 ^ 63)) (2 ^ 63 - 1) (drnd th) (clampExp (dget s th a))
    dfinish s c th r.2 (dlatAdd (dlimbs th)) id (sset d (BitVec.ofInt 64 r.1))

def execDhead (d : SReg) (a : DReg) (s : State) : Host.Outcome State Fault Refusal :=
  dunit s [a] (fun _ => [a]) { Need.none with sd := [d] } fun c th => retire s c 8 (sset d (dhead s th a.val))

def execDclass (d : SReg) (a : DReg) (s : State) : Host.Outcome State Fault Refusal :=
  dunit s [a] (fun _ => [a]) { Need.none with sd := [d] } fun c th =>
    let h := dhead s th a.val
    retire s c 8 (sset d (BitVec.ofNat 64 (headClass h + if headNeg h then 8 else 0)))

/-! ### `prec` (R268) -/

/-- A register's granules at another precision, with the flags: a value that is not finite is kept. -/
def reprec (s : State) (th : Thread) (q k : Nat) : List Word × Nat :=
  let n := limbsOf q
  if k < th.dn.dlive then
    let h := dhead s th k
    if headClass h = 1 then
      let r := dround (drnd th) q (Ex.ok (valueOf h (dlist s th k)))
      (dgrans n r.1, r.2)
    else (h :: List.replicate n 0, 0)
  else (0 :: List.replicate n 0, 0)

def precUnit (s : State) (c : Cur) (th : Thread) (n q : Nat) : State :=
  let cap := 1 + limbsOf q
  if th.dwin < n * cap then draise s c 0x10 0 (precInfo 2 (n * cap) th.dwin) 0
  else if (List.range (min n th.dn.dlive)).any (dPois s th) then draise s c 0x1C 0 3 0
  else
    let rs := (List.range n).map (reprec s th q)
    let ws := rs.flatMap (·.1)
    dfinish s c th (orAll (rs.map (·.2))) (8 + 2 * n * limbsOf q)
      (winPut th 0 (ws ++ List.replicate (th.dwin - n * cap) 0))
      fun t => { t with dn := { t.dn with prc := q, dlive := n } }

def execPrec (n : Fin 17) (p : Nat) (s : State) : Host.Outcome State Fault Refusal :=
  unit s Need.none fun c th => precUnit s c th n.val p

def execPrecReg (n : Fin 17) (a : SReg) (s : State) : Host.Outcome State Fault Refusal :=
  unit s { Need.none with sr := [a] } fun c th =>
    let q := (sget th a).toNat
    if q < 8 ∨ 4096 < q then draise s c 0x10 0 (precInfo 3 (min q 0xFFFFFF) 0) 0 else precUnit s c th n.val q

/-! ### `ldn` (R274-R277) -/

/-- FINFO of cause 0x02 from a head or limb (R276). -/
def badDennum (w : Word) : Nat := bits w 32 32

/-- The check of a head; the count of its limbs follows. -/
def headBad (h : Word) : Bool :=
  let cls := headClass h
  decide (4 < cls) || decide (bits h 32 16 ≠ 0) || decide (cls ≠ 1 ∧ bits h 48 12 ≠ 0) || decide (cls = 1 ∧ bits h 48 12 = 0)

/-- The raw form's head without its guard and sticky bits. -/
def rawHead (h : Word) : Word := setBits h 46 2 0

/-- What the raw form becomes with memory parts `got` added (R277). -/
def rawAdd (s : State) (th : Thread) (t : DReg) (got : AMap (List Word)) : State :=
  got.foldl (fun s e =>
    let w := e.2.headD 0
    let g := t.val * dcap th
    let h := winGet s th g
    if e.1 = 0 then winPut th g (w :: List.replicate (dlimbs th) 0) s
    else if e.1 ≤ dlimbs th then winSet s th (g + e.1) w
    else if e.1 = dlimbs th + 1 then
      winSet s th g (h ||| BitVec.ofNat 64 (bits w 63 1 * 2 ^ 46 + (if bits w 0 63 ≠ 0 then 2 ^ 47 else 0)))
    else winSet s th g (h ||| BitVec.ofNat 64 (if w ≠ 0 then 2 ^ 47 else 0))) s

/-- The load parts of the limbs from one on. -/
def limbLoads (ptr : Ptr) (from_ n : Nat) : List PartReq :=
  ((List.range (n + 1)).filter fun i => decide (from_ ≤ i)).map fun i =>
    { part := i, ptr := offBy ptr (8 * i), op := .load 8, line := none }

/-- The first limb pointer that breaks its limits, with FINFO (R276). -/
def limbLimits (s : State) (partn : Nat) (ptr : Ptr) (n : Nat) : Option (Ptr × Nat) :=
  (List.range n).findSome? fun (i : Nat) =>
    match addOff ptr (8 * (i + 1)) with
    | none => some (ptr, 3)
    | some p => let l := limitsOf s partn p; if l ≠ 0 then some (p, l) else none

def limbCharge (s : State) (th : Thread) (ptr : Ptr) (from_ n k : Nat) : Nat :=
  (List.range (n + 1)).foldl (fun a i => if from_ ≤ i then a + charge s th.partn th.tile (offBy ptr (8 * i)) k else a) 0

/-- What the final step of an `ldn` finds in the raw form (R276, R277): the value rounded with its flags, or the need of
the strict fault. -/
def ldnFinal (s : State) (th : Thread) (t : DReg) : (FV × Nat) ⊕ Nat :=
  let h := dhead s th t.val
  if headClass h ≠ 1 then .inl (valueOf h [], 0)
  else
    let l := dlimbs th
    let m := joinLimbs (dlist s th t.val) * 2 + bits h 46 1
    let sticky := bit h 47
    let b := 64 * l + 1 - ((List.range (64 * l + 1)).find? fun i => m.testBit i).getD (64 * l + 1)
    let x : Ex := { v := .fin (headNeg h) m (headExp h - 64 * l), st := sticky, fl := 0 }
    if sticky ∨ th.dn.prc < b then
      if bit th.dn.dctl 3 then .inr (if sticky then 64 * l + 2 else b) else .inl (dround (drnd th) th.dn.prc x)
    else .inl (x.v, 0)

/-- The fault of an `ldn` found in its last step, or in a limb 0 that a resumed one takes from the register: at which
part, cause, FADDR, FINFO (R276). -/
def ldnFault (s : State) (th : Thread) (t : DReg) (ptr : Ptr) : Option (Nat × Nat × Word × Word) :=
  let h := rawHead (dhead s th t.val)
  let last := 1 + bits h 48 12
  let limb := dgran s th t.val 1
  if headClass h = 1 ∧ bit limb 63 = false then some (1, 0x02, offBy ptr 8, BitVec.ofNat 64 (badDennum limb))
  else
    match ldnFinal s th t with
    | .inr need => some (last, 0x10, ptr, precInfo 4 need th.dn.prc)
    | .inl (_, fl) => if dtraps th fl then some (last, 0x16, 0, darithInfo fl) else none

/-- The last step of an `ldn`: its thread is ready at a cycle. -/
def ldnWrite (s : State) (u : Nat) (th : Thread) (t : DReg) (npc : Ptr) (ready : Nat) : State :=
  let h := rawHead (dhead s th t.val)
  match ldnFinal s th t with
  | .inr _ => s
  | .inl (v, fl) =>
    let s1 := if headClass h = 3 ∨ headClass h = 4 then dputHead th t (setBits h 0 32 0) s else dput th t v s
    modThread s1 u fun x => unitOver npc ready (dstick fl x)

/-- The last step of an `ldn` after its parts, or its fault at the end of its latency (R266). -/
def ldnEnd (s : State) (u : Nat) (th : Thread) (t : DReg) (ptr : Ptr) (fpc npc : Ptr) (charge ready : Nat) : State :=
  match ldnFault s th t ptr with
  | none => ldnWrite s u th t npc ready
  | some (j, cause, addr, info) =>
    let b : PartFault := { cause := cause, info := info.toNat, addr := addr, tick := now s, host := false }
    failEnd s u fpc npc charge j b (if j = 1 then s.cycle else ready - 1)
where
  /-- A fault found in the last step waits for the end of the latency. -/
  failEnd (s : State) (u : Nat) (fpc npc : Ptr) (charge j : Nat) (b : PartFault) (at_ : Nat) : State :=
    let f : Flight := { fid := s.nextId, rx := false, fpc := fpc, npc := npc, op := .fault, first := j, parts := j + 2, out := [],
                        pend := [], got := [], flags := 0, bad := [(j, b)], sent := [], minEnd := 0, charge := charge,
                        stub := none, fee := 0, lv := 0, done := false }
    schedAt (modThread (freshId s) u fun th => { th with flights := th.flights ++ [f], wait := .access f.fid }) at_
      (.accessResponse { uid := u, fid := f.fid, part := f.parts, addr := 0, stub := none, res := .done [] 0 })

def execLdn (t : DReg) (a : SReg) (disp : Int) (s : State) : Host.Outcome State Fault Refusal :=
  dunit s [t] (fun th => if th.resume = 0 then [] else [t]) { Need.none with sr := [a], rx := true } fun c th =>
    let c0 := th.resume
    match eaOf th a (disp * 8) with
    | none => draise s c 0x08 (sget th a) 3 c0
    | some ptr =>
      match checkPtr s th ptr 8 false false with
      | some (cause, info) => draise s c cause ptr (BitVec.ofNat 64 info) c0
      | none =>
        match (if c0 = 0 then watchHit s th ptr 1 else none) with
        | some i => draise s c 0x18 ptr i c0
        | none =>
          if c0 = 0 then
            let ch := charge s th.partn th.tile ptr 0
            lvRoom s c th (dmetered s c th ptr ch 0 fun s1 =>
              startFlight s1 c th false (.ldn t ptr) ldnHead ch [[{ part := 0, ptr := ptr, op := .load 8, line := none }]])
          else
            let h := rawHead (dhead s th t.val)
            let n := bits h 48 12
            if headBad h then draise s c 0x02 ptr (BitVec.ofNat 64 (badDennum h)) 0
            else
              match limbLimits s th.partn ptr n with
              | some (p, l) => draise s c 0x08 p (BitVec.ofNat 64 l) c0
              | none =>
                if n < c0 then ldnEnd (issued s c) c.uid th t ptr c.fpc c.npc 0 (s.cycle + c.fx + 2 * dlimbs th)
                else
                  match watchParts s th 1 ((limbLoads ptr c0 n).map fun q => (q.part, some q.ptr)) with
                  | some (p, i) => draise s c 0x18 p i c0
                  | none =>
                    let ch := limbCharge s th ptr c0 n 0
                    lvRoom s c th (dmetered s c th ptr ch c0 fun s1 =>
                      startFlight s1 c th false (.ldn t ptr) (n + 1) ch [limbLoads ptr c0 n])

/-! ### `stn` (R278) -/

/-- The memory form of a value (R274): its head and limbs up to the last that is not zero. -/
def memForm (head : Word) (v : FV) (n : Nat) : List Word :=
  match v with
  | .fin s m e =>
    if m = 0 then [mkHead s 0 0 0]
    else
      let ls := (dgrans n v).drop 1
      let k := ls.length - (ls.reverse.takeWhile (· = 0)).length
      mkHead s 1 k (leadExp m e) :: ls.take k
  | .inf s => [mkHead s 2 0 0]
  | .nan _ => [setBits (setBits head 0 48 0) 48 12 0]

/-- The time of a unit's store parts under R251: run by run, the other parts of the run and its largest latency. -/
def runsTime (s : State) (th : Thread) (runs : List (List PartReq)) : Nat :=
  (runs.map fun r => (r.length - 1) + r.foldl (fun a q =>
    match placeOf s th.partn q.ptr with | some pl => max a (latTo s th.tile pl false) | none => a) 0).sum

/-- The store parts of a memory form from one on. -/
def limbStores (ptr : Ptr) (from_ : Nat) (ws : List Word) : List PartReq :=
  ((List.range ws.length).filter fun i => decide (from_ ≤ i)).map fun i =>
    { part := i, ptr := offBy ptr (8 * i), op := .store 8 (ws.getD i 0), line := none }

/-- The first part in which two presentations of an `stn` differ, each part being one effect (R280). -/
def firstPart (p q : Present) : Nat :=
  if p.kind ≠ q.kind ∨ p.ptr ≠ q.ptr then 0
  else (List.zip p.data q.data).takeWhile (fun x => decide (x.1 = x.2)) |>.length

/-- A pair's threads differ in part n of an `stn` (R85, R280): the parts before it are released, then the mismatch is
raised, naming the leading thread, and both stop. -/
def stnDiffer (s : State) (c : Cur) (th : Thread) (ptr : Ptr) (ws : List Word) (fl mate n : Nat) (q : Present) : State :=
  let ptr' := offBy ptr (8 * n)
  let info := firstDiff (ptr' :: (ws.drop n).take 1) (if q.kind = 13 then offBy q.ptr (8 * n) :: (q.data.drop n).take 1 else q.words)
  let reqs := (limbStores ptr th.resume ws).filter fun r => decide (r.part < n)
  let s1 := modThread s mate fun t => { t with wait := .none, stopped := true }
  if reqs.isEmpty then draise s1 c 0x19 ptr' info th.resume
  else
    let ch := limbCharge s th ptr th.resume (ws.length - 1) 1
    dmetered s1 c th ptr ch th.resume fun s2 =>
      modFlight (startFlightAt (2 * dlimbs th) s2 c th false (.stn fl) (ws.length + 1) ch (runsOf s2 th.partn reqs)) c.uid s2.nextId
        fun f => { f with bad := [(n, { cause := 0x19, info := info.toNat, addr := ptr', tick := now s, host := false })] }

def stnUnit (s : State) (c : Cur) (th : Thread) (ptr : Ptr) (ws : List Word) (fl : Nat) : State :=
  let c0 := th.resume
  let m := ws.length - 1
  match limbLimits s th.partn ptr m with
  | some (p, l) => draise s c 0x08 p (BitVec.ofNat 64 l) c0
  | none =>
    let reqs := limbStores ptr c0 ws
    match watchParts s th 2 (reqs.map fun r => (r.part, some r.ptr)) with
    | some (p, i) => draise s c 0x18 p i c0
    | none =>
      let pres : Present := { kind := 13, ptr := ptr, width := 8, data := ws }
      gateWith s c th pres (fun mate q => stnDiffer s c th ptr ws fl mate (firstPart pres q) q) fun st =>
        let ch := limbCharge st th ptr c0 m 1
        dmetered st c th ptr ch c0 fun s1 =>
          if reqs.isEmpty then retire s1 c (2 * dlimbs th) (dstick fl)
          else startFlightAt (2 * dlimbs th) s1 c th false (.stn fl) (m + 1) ch (runsOf s1 th.partn reqs)

/-- The time of an `stn` of the parts from the resume count on (R267). -/
def stnTime (s : State) (th : Thread) (ptr : Ptr) (ws : List Word) : Nat :=
  2 * dlimbs th + runsTime s th (runsOf s th.partn (limbStores ptr th.resume ws))

def execStn (t : DReg) (a : SReg) (disp : Int) (s : State) : Host.Outcome State Fault Refusal :=
  dunit s [t] (fun _ => [t]) { Need.none with sr := [a], rx := true } fun c th =>
    match eaOf th a (disp * 8) with
    | none => draise s c 0x08 (sget th a) 3 th.resume
    | some ptr =>
      match checkPtr s th ptr 8 false false with
      | some (cause, info) => draise s c cause ptr (BitVec.ofNat 64 info) th.resume
      | none =>
        let ws := memForm (dhead s th t.val) (dget s th t) (dlimbs th)
        if ws.length ≤ th.dn.dslot then stnUnit s c th ptr ws 0
        else if bit th.dn.dctl 4 = false then
          draise s c 0x11 ptr (BitVec.ofNat 64 (ws.length + th.dn.dslot * 65536)) 0
        else
          let r := dround (drnd th) (64 * (th.dn.dslot - 1)) (Ex.ok (dget s th t))
          let ws' := memForm 0 r.1 (th.dn.dslot - 1)
          if dtraps th r.2 then raiseEnd (stnTime s th ptr ws') s c 0x16 0 (darithInfo r.2) 0
          else stnUnit s c th ptr ws' r.2

end Sys2Proof.Machine
end

