-- ==== Sys2Proof/Machine/Work.lean ====
section
/-! DEFINITION. Range deques: `dqpush`, `dqpop`, `dqsplit`, `dqsteal`, `dqcnt` and the steal visit (R387-R393). A deque
is a list from the steal end to the owner end. -/

namespace Sys2Proof.Machine

/-- Entries a spill area holds (R387). -/
def spillRoom (dqsp : Word) : Nat := if dqsp = 0 then 0 else 32 * 2 ^ bits dqsp 32 4

def dequeRoom (s : State) (tile : Nat) : Nat := 32 + spillRoom (tileOf s tile).dqsp

def dequeOf (s : State) (tile : Nat) : List Range := (tileOf s tile).deque

/-- The records of the spilled entries: offset and word, from the area's base in steal order (log 33). -/
def dequeWords (s : State) (tile : Nat) : List (Nat × Word) :=
  let d := dequeOf s tile
  let base := (tileOf s tile).dqsp.toNat % 2 ^ 20
  ((d.take (d.length - 32)).flatMap fun (x : Range) => [x.lo, x.hi, x.tag, 0]).zipIdx.map fun w => (base + 8 * w.2, w.1)

def spillRanges (s : State) (tile : Nat) : State := (dequeWords s tile).foldl (fun s w => spillStore s tile w.1 w.2) s

def setDeque (s : State) (tile : Nat) (d : List Range) : State := spillRanges (modTile s tile fun t => { t with deque := d }) tile

/-- mid (R390). -/
def midOf (lo hi : Word) : Word := BitVec.ofNat 64 (lo.toNat + (hi.toNat - lo.toNat) / 2)

/-- 12 cycles more where the operation touches a spilled entry (R388). -/
def spillLat (touched : Bool) : Nat := if touched then 12 else 0

/-- Cause 0x1E, where the deque has no room for one more range. -/
def dequeFull (s : State) (tile : Nat) : Option (Nat × Word × Word) :=
  let n := (dequeOf s tile).length
  if dequeRoom s tile ≤ n then some (0x1E, 0, BitVec.ofNat 64 (n + dequeRoom s tile * 2 ^ 32)) else none

def execDqpush (d a b : SReg) (s : State) : Host.Outcome State Fault Refusal :=
  unit s { Need.none with sr := [d, a, b], rx := true } fun c th =>
    let lo := sget th a
    let hi := sget th b
    if !lo.ult hi then retire s c 8 id
    else
      gate s c th { kind := 18, ptr := 0, width := 24, data := [lo, hi, sget th d] } fun s0 =>
        let q := dequeOf s0 th.tile
        lvLead s0 c th (dequeFull s0 th.tile)
          (fun s =>
            lvOver (retire (setDeque s th.tile (q ++ [{ lo := lo, hi := hi, tag := sget th d }])) c
              (8 + spillLat (decide (32 ≤ q.length))) id) c.uid)
          fun s => retire s c 8 id

/-- The three registers and the predicate of `dqpop` and `dqsteal`. -/
def takeRange (d : Fin 30) (k : PReg) (vs : List Word) (th : Thread) : Thread :=
  match vs with
  | lo :: hi :: tag :: _ => pset k true (sset (rS (d.val + 2)) tag (sset (rS (d.val + 1)) hi (sset (rS d.val) lo th)))
  | _ => pset k false th

def rangeRegs (d : Fin 30) : List SReg := [rS d.val, rS (d.val + 1), rS (d.val + 2)]

def execDqpop (d : Fin 30) (k : PReg) (s : State) : Host.Outcome State Fault Refusal :=
  unit s { Need.none with sd := rangeRegs d } fun c th =>
    let n := if th.role = 2 then 0 else (dequeOf s th.tile).length
    lvShare s c th
      (fun s =>
        match (dequeOf s th.tile).getLast? with
        | some x => (setDeque s th.tile (dequeOf s th.tile).dropLast, [x.lo, x.hi, x.tag])
        | none => (s, []))
      fun vs s => retire s c (8 + spillLat (decide (32 < n))) (takeRange d k vs)

def execDqsplit (s : State) : Host.Outcome State Fault Refusal :=
  unit s { Need.none with rx := true } fun c th =>
    let q := dequeOf s th.tile
    let cut := q.getLast?.filter fun x => decide (x.hi.toNat - x.lo.toNat ≠ 1)
    lvLead s c th (if cut.isSome then dequeFull s th.tile else none)
      (fun s =>
        match cut with
        | some x =>
          let m := midOf x.lo x.hi
          lvOver (retire (setDeque s th.tile (q.dropLast ++ [{ x with hi := m }, { x with lo := m }])) c
            (8 + spillLat (decide (32 ≤ q.length))) id) c.uid
        | none => lvOver (retire s c 8 id) c.uid)
      fun s => retire s c 8 id

def execDqcnt (d : SReg) (s : State) : Host.Outcome State Fault Refusal :=
  unit s { Need.none with sd := [d] } fun c th =>
    lvShare s c th (fun s => (s, [BitVec.ofNat 64 (dequeOf s th.tile).length])) fun vs s => retire s c 8 (sset d (vs.headD 0))

/-! ### Stealing (R391) -/

/-- The other cores of a core's steal domain, in visiting order. -/
def victims (s : State) (th : Thread) : List Nat :=
  match teamOf s th.partn th.serial, frameOf s th.partn with
  | some t, some f =>
    let tiles := teamTiles s th.partn th.serial
    let me := (guestY f th.tile - t.oy) * t.w + (guestX f th.tile - t.ox)
    let n := 2 ^ t.sd
    let dom := (tiles.zipIdx.filter fun x => decide (x.2 / n = me / n))
    (dom.filter fun x => decide (me < x.2)).map (·.1) ++ (dom.filter fun x => decide (x.2 < me)).map (·.1)
  | _, _ => []

/-- Sends a visit that starts at a cycle: it is performed there after the owner's operations of its cycle (R388). -/
def sendVisit (s : State) (m : StealMsg) (at_ : Nat) : State :=
  sched s { cycle := at_ + owTiles s m.src m.here + 15, late := true, age := m.inj, src := m.src,
            act := .stealVisit { m with charge := m.charge + 256 * lenTiles s m.src m.here } }

def execDqsteal (d : Fin 30) (k : PReg) (s : State) : Host.Outcome State Fault Refusal :=
  unit s { Need.none with sd := rangeRegs d } fun c th =>
    match victims s th with
    | [] => lvShare s c th (fun s => (s, [])) fun vs s => retire s c 8 (takeRange d k vs)
    | v :: rest =>
      lvRoom s c th
        (let s1 := modThread (startFlight s c th false (.steal d k) 1 0 []) c.uid (pclear k)
         if th.role = 2 then s1
         else
           sendVisit s1 { uid := c.uid, fid := s.nextId, partn := th.partn, serial := th.serial, src := th.tile, here := v,
                          rest := rest, charge := 0, inj := tickAt s (s.cycle + c.fx) } (s.cycle + c.fx))

/-- The answer of a steal, with the charge of its visits. -/
def stealAnswer (s : State) (m : StealMsg) (extra : Nat) (vs : List Word) : State :=
  schedAt s (s.cycle + owTiles s m.src m.here + extra)
    (.accessResponse { uid := m.uid, fid := m.fid, part := 0, addr := 0, stub := some m.charge, res := .done vs 0 })

def stealArrives (s : State) (m : StealMsg) : State :=
  match dequeOf s m.here with
  | x :: t =>
    let extra := spillLat (decide (32 < (x :: t).length))
    if x.hi.toNat - x.lo.toNat = 1 then stealAnswer (setDeque s m.here t) m extra [x.lo, x.hi, x.tag]
    else
      let mid := midOf x.lo x.hi
      stealAnswer (setDeque s m.here ({ x with hi := mid } :: t)) m extra [mid, x.hi, x.tag]
  | [] =>
    match m.rest with
    | v :: rest => sendVisit s { m with here := v, rest := rest } (s.cycle + owTiles s m.src m.here + 1)
    | [] => stealAnswer s m 0 []

def execStealVisit (s : State) : Host.Outcome State Fault Refusal :=
  actRow s fun a s => match a with | .stealVisit m => some (stealArrives s m) | _ => none

end Sys2Proof.Machine
end

