-- ==== Sys2Proof/Machine/Home.lean ====
section
/-! DEFINITION. Accesses at their homes and what their answers do to the thread: performing, waiting, stubs, table walks,
busy answers and timeouts (R113, R114, R175-R177, R199, R202, R212, R414), the end of a unit with accesses (R54, R56,
R58, R154, R276, R277). -/

namespace Sys2Proof.Machine

/-! ### Wait lists (R113, R211) -/

/-- Accesses that wait at the home of a key. -/
def waitsAt (s : State) (k : Nat) : Nat :=
  if k < 2 ^ 40 then tileWaits s (k / 2 ^ 20) else (waitersAt s k).length

/-- The busy answer: the requester resends 64 cycles after it arrives. -/
def answerBusy (s : State) (r : Req) : State :=
  schedAt s (s.cycle + r.ow + 64) (.busyResend { r with first := some (r.first.getD s.cycle) })

/-- The key under which an access to a word of CTRL space waits at a tile. -/
def ctrlKey (tile : Nat) : Nat := 2 ^ 66 + tile

/-- Starts the SYTO count of a waiting operation from its first arrival (R114). -/
def startTimeout (s : State) (r : Req) : State :=
  if r.limit = 0 then s else schedAt s (r.first.getD s.cycle + r.limit) (.syncTimeout r)

/-- An operation takes its place in a list: waiters stand in the order in which they first arrived (R113), those of one
cycle in that of their arrival (R53). -/
def queueWait (r : Req) (l : List Req) : List Req :=
  insertOn (fun q => ((q.first.getD 0) * 2 ^ 64 + q.inj) * 2 ^ 16 + q.src) r l

/-- An operation whose condition fails enters the list. -/
def enterWait (s : State) (r : Req) (k : Nat) : State :=
  let r1 := { r with key := k, first := some (r.first.getD s.cycle) }
  let list := k / 8 * 8
  if 64 ≤ waitsAt s list then answerBusy s r1
  else startTimeout (setWaiters s list (queueWait r1 (waitersAt s list))) r1

/-- The time an operation may wait has passed since its first arrival. -/
def outOfTime (s : State) (r : Req) : Bool :=
  match r.first with
  | some f => decide (r.limit ≠ 0 ∧ f + r.limit ≤ s.cycle)
  | none => false

/-! ### Performing -/

/-- A part is performed: later parts may follow it at once, later store parts once its answer is back at the router that
its unit sent it to (R154, R251). -/
def partDone (s : State) (r : Req) : State :=
  let back := s.cycle + if isWrite r.op then r.legs + (if r.legs = 0 then 0 else extraLat r) else 0
  modFlight s r.uid r.fid fun f =>
    { f with sent := f.sent.map fun x => if x.part = r.part then { x with back := some back } else x }

/-- A fault found for a part of a unit stops its later store parts at once (R154). -/
def partFails (s : State) (r : Req) (cause info : Nat) (host : Bool) : State :=
  answerFault (modFlight (partDone s r) r.uid r.fid fun f =>
    { f with bad := ins f.bad r.part { cause := cause, info := info, addr := r.addr, tick := now s, host := host } }) r cause info host

/-- A unit consumes poisoned data at a home (R414). Where its core lies in a valid rectangle, containment begins in this
cycle (R141, R416), unless an earlier part has failed, whose fault it will be. -/
def consumes (s : State) (r : Req) (w : Nat) : State :=
  match threadOf s r.uid with
  | none => partFails s r 0x1C (placeNum w) false
  | some th =>
    match flightOf th r.fid with
    | none => partFails s r 0x1C (placeNum w) false
    | some f =>
      if (rectAt s th.partn th.tile false).isNone || f.bad.any (fun b => decide (b.1 < r.part)) then
        partFails s r 0x1C (placeNum w) false
      else
        deliverPoison s r.uid th
          { cause := 0x1C, addr := r.addr, info := BitVec.ofNat 64 (placeNum w + if r.rx then 2 ^ 63 else 0),
            progress := if f.parts = 1 then 0 else r.part, fpc := f.fpc, tick := now s, host := false } (s.cycle + 1)

/-- Performs an access at the word of a key (R53): `k` is the key of the byte it starts at. -/
def performAt (s0 : State) (r : Req) (k : Nat) : State :=
  let s := partDone s0 r
  let w := k / 8 * 8
  if r.op = .pfix then answer s r (.done [r.at_] 0)
  else if wordPois s w && !coversWord r.op then consumes s r w
  else if outOfTime s r then partFails s r 0x0D (if wordFull s w then 1 else 0) false
  else
    match performWord r.op (k % 8) (wordAt s w) (wordFull s w) with
    | .done vals new fl =>
      let s1 := answer s r (.done vals fl)
      match new with
      | some (v, f) => writeWord s1 w v f
      | none => s1
    | .waits => enterWait s r k

/-- An access to a word of CTRL space, always full: a `give` waits; the acknowledgement of RLCMD action 1 waits for the
move (R210). -/
def performCtrl (s0 : State) (r : Req) (pl : Place) (tile : Nat) : State :=
  let s := partDone s0 r
  let j := pOff r.at_ % 8
  let old := ctrlRead s r.partn pl
  let op := match r.op with | .take => AccOp.peek | .void => .probe | op => op
  if outOfTime s r then partFails s r 0x0D 1 false
  else
    match performWord op j old true with
    | .waits =>
      let r1 := { r with key := ctrlKey tile, first := some (r.first.getD s.cycle) }
      if 64 ≤ tileWaits s tile then answerBusy s r1
      else startTimeout (modTile s tile fun t => { t with waiters := queueWait r1 t.waiters }) r1
    | .done vals new fl =>
      match new with
      | none => answer s r (.done vals fl)
      | some (v, _) =>
        let late := match pl with
          | .tileCtrl t off => decide (off / 8 * 8 = 0x5008) && (match rlAct t v with | some (.relocate _ _) => true | _ => false)
          | _ => false
        match pl with
        | .tileCtrl t _ =>
          if late && (tileOf s t).rlReq.isNone then ctrlWrite (modTile s t fun x => { x with rlReq := some r }) pl v
          else ctrlWrite (answer s r (.done vals fl)) pl v
        | _ => ctrlWrite (answer s r (.done vals fl)) pl v

/-! ### Stubs and moves (R190, R210-R212) -/

/-- Holds an access behind a move: it keeps its turn among those that reach its word, wherever that goes (R211). -/
def holdAccess (s : State) (tile mover : Nat) (r : Req) : State :=
  let r1 := { r with first := some (r.first.getD s.cycle) }
  if 64 ≤ tileWaits s tile then answerBusy s r1
  else holdAct (freshId s) mover (.homeAccess { r1 with turn := some (r1.turn.getD s.nextId) })

/-- Applies the charge of a `pfix` leg to the thread, unless it traps (R190). -/
def pfixCharge (s : State) (r : Req) (c : Nat) : State × Bool :=
  match threadOf s r.uid with
  | none => (s, true)
  | some th =>
    if th.meter.cnt = false then (s, true)
    else if meterTraps th c then (partFails s r 0x0F c false, false)
    else (modFlight (modThread s r.uid (meterAdd c)) r.uid r.fid fun f => { f with charge := f.charge + meterGain th c, fee := f.fee + c }, true)

/-- Sends an access on along a stub; the words of a 64-byte access count once (R210, R251). -/
def redirect (s : State) (tile b : Nat) (r : Req) : State :=
  let p := offBy (blockAt s tile b).stub (pOff r.at_ % 256)
  let s1 := if r.kbits = 0 then s else countStub s tile b
  match placeOn s r.partn r.inj p with
  | some (.spad t o) =>
    let leg := owTiles s tile t
    let go := fun (st : State) (q : Req) (d : Nat) =>
      sched st { cycle := st.cycle + leg + d, late := false, age := r.inj, src := r.src, act := .homeAccess q }
    let q := { r with at_ := p, home := .spad t o, ow := r.ow + leg, legs := r.legs + leg }
    let c := r.kbits * lenTiles s tile t
    if r.op = .pfix then
      match pfixCharge s1 r c with
      | (s2, true) => go s2 q 12
      | (s2, false) => s2
    else go s1 { q with stub := addFee r.stub (some c) } 8
  | _ => partFails s1 r 0x0B 0 false

/-- An access at the tile whose scratchpad holds its word. -/
def spadAccess (s : State) (r : Req) (tile off : Nat) : State :=
  if fencedAt s r.partn tile then partFails s r 0x08 6 false
  else
    match movedBy s tile (off / 256) with
    | some m => holdAccess s tile m r
    | none =>
      match (blockOf s tile off).st with
      | .present => performAt s r (keySpad tile off)
      | .forwarded => redirect s tile (off / 256) r
      | .vacated => partFails s r 0x0B 0 false

/-! ### Ports -/

/-- A word of a 64-byte access, which is sent with its others (R251). -/
def isLine (r : Req) : Bool := decide (r.kbits = 0 ∨ r.kbits = 640)

/-- The access kind of a request (R89, R142): a word of a 64-byte access has that access's. -/
def reqKind (r : Req) : Nat := if isLine r then (if isWrite r.op then 3 else 2) else opKind r.op

/-- What a translation gives an access. -/
def afterXlat (s : State) (r : Req) (port o : Nat) : Xlat → State
  | .ok a =>
    let v := viewOf s port r.partn o
    performAt (setView s (keyPort port a) v) { r with view := v } (keyPort port a)
  | .page l h => partFails s r 0x09 (l + if isWrite r.op then 16 else 0) h
  | .prot => partFails s r 0x0A (reqKind r + if isWrite r.op then 16 else 0) false

/-- The port and the offset behind it of a place. -/
def portOfPlace : Place → Option (Nat × Nat)
  | .chan c o => some (c, o)
  | .tier2 c o => some (48 + c, o)
  | _ => none

/-- The word that a pointer leads to as the stubs, caches and trees now stand: its key, or the place of a word of CTRL
space. -/
def wordOf (s : State) (partn : Nat) (p : Ptr) : Option (Nat ⊕ Place) :=
  match placeOn s partn (now s) p with
  | none => none
  | some (.spad _ _) => match (stubEnd s partn p).1 with | .ok k => some (.inl (k / 8)) | _ => none
  | some (.chan c o) => (portWord s c partn o).map .inl
  | some (.tier2 c o) => (portWord s (48 + c) partn o).map .inl
  | some (.host b) => some (.inl (keyHost b / 8))
  | some (.tileCtrl t o) => some (.inr (.tileCtrl t (o / 8)))
  | some (.devCtrl u o) => some (.inr (.devCtrl u (o / 8)))

/-- Two accesses lead to one word. -/
def sameWord (s : State) (partn : Nat) (p : Ptr) (partn' : Nat) (p' : Ptr) : Bool :=
  match wordOf s partn p, wordOf s partn' p' with
  | some a, some b => decide (a = b)
  | _, _ => false

/-- A part waits while an earlier one of its unit has not been performed (R154, R251, R279), a relaxed access while an
earlier one of its thread to the same word has not (R56); a part is dropped when an earlier one has failed, and when its
unit is over (R154). An access that waits so counts as arriving when its turn comes (DEDUCED, log 15). Of the accesses to
one word that a move held and that reach it in one cycle, one held later goes behind one held earlier (R211). -/
inductive Turn | go | drop | later | behind (age src : Nat)
  deriving DecidableEq, Repr

/-- The parts of a flight that have not been performed. -/
def Flight.ahead (f : Flight) : List Ptr :=
  (f.sent.filter fun x => x.back.isNone).map (·.ptr) ++ f.pend.flatten.map (·.ptr)

/-- The last of the accesses that reach the word of an access in this cycle and that a move held before it (R211). -/
def heldBefore (s : State) (r : Req) : Option Timed :=
  (s.agenda.filter fun x => match x.act with
    | .homeAccess q =>
      decide (x.cycle ≤ s.cycle) && q.turn.any (fun n => r.turn.any fun m => decide (n < m)) && (reqWord s q).isSome
        && decide (reqWord s q = reqWord s r)
    | _ => false).getLast?

def turnOf (s : State) (r : Req) : Turn :=
  let free := match heldBefore s r with | some x => Turn.behind x.age x.src | none => .go
  match threadOf s r.uid with
  | none => free
  | some th =>
    match flightOf th r.fid with
    | none => .drop
    | some f =>
      if f.done || f.bad.any (fun b => decide (b.1 < r.part)) then .drop
      else if !isLine r && f.sent.any (fun x => decide (x.part < r.part) && !(x.back.any fun c => decide (c ≤ s.cycle))) then .later
      else if r.rx && th.flights.any (fun g => decide (g.fid < r.fid) && g.rx && !g.done
          && g.ahead.any fun p => sameWord s r.partn p r.partn r.addr) then .later
      else free

/-- An access in a port's list must be performed before another: it leads to the same word, or both are words of one
64-byte access. -/
def WalkEnt.bars (s : State) (e : WalkEnt) (r : Req) : Bool :=
  (isLine r && decide (e.r.uid = r.uid ∧ e.r.fid = r.fid)) || sameWord s e.r.partn e.r.at_ r.partn r.at_

/-- Starts the walk of an access. -/
def startWalk (s : State) (port : Nat) (e : WalkEnt) : State × WalkEnt :=
  let c := s.cycle + walkLat s port e.r.partn e.o
  (sched s { cycle := c, late := false, age := e.r.inj, src := e.r.src, act := .tableWalk e.r }, { e with phase := .walking c })

def WalkEnt.walks (e : WalkEnt) : Bool := match e.phase with | .walking _ => true | _ => false

/-- An access at a port (R53, R177): with its leaf cached, and no earlier access to its word in the list, it is
performed; else it enters the list, and a miss walks as soon as one of the 64 walkers is free. The words of one 64-byte
access share a walk. -/
def portAccess (s : State) (r : Req) (port o : Nat) : State :=
  let l := (portOf s port).walks
  let enter := fun (st : State) (e : WalkEnt) => modPort st port fun p => { p with walks := p.walks ++ [e] }
  let mate := isLine r && l.any fun e => decide (e.r.uid = r.uid ∧ e.r.fid = r.fid)
  match cached s port r.partn o with
  | some x =>
    if l.any fun e => e.bars s r then enter s { r := r, o := o, phase := .ready }
    else afterXlat (useLeaf s port x) r port o (leafXlat x o (isWrite r.op) false)
  | none =>
    if mate then enter s { r := r, o := o, phase := .ready }
    else if 64 ≤ (l.filter (·.walks)).length then enter s { r := r, o := o, phase := .waiting }
    else let e := startWalk s port { r := r, o := o, phase := .waiting }; enter e.1 e.2

/-- The entry of the waiting accesses that was injected first (R177: oldest first). -/
def oldestWaiting (l : List WalkEnt) : Option WalkEnt :=
  l.foldl (fun a e =>
    if e.phase = .waiting then
      match a with
      | none => some e
      | some b => if e.r.inj < b.r.inj ∨ (e.r.inj = b.r.inj ∧ e.r.src < b.r.src) then some e else a
    else a) none

/-- A free walker takes the oldest waiting access. -/
def takeWalker (s : State) (port : Nat) : State :=
  match oldestWaiting (portOf s port).walks with
  | none => s
  | some e =>
    let x := startWalk s port e
    modPort x.1 port fun p => { p with walks := p.walks.map fun y => if sameReq y.r e.r then x.2 else y }

/-- The first access of a port's list that may be performed: its leaf was found, and no earlier one bars it. -/
def nextReady (s : State) : List WalkEnt → List WalkEnt → Option WalkEnt
  | _, [] => none
  | ahead, e :: t =>
    if e.phase = .ready && !ahead.any fun x => x.bars s e.r then some e else nextReady s (ahead ++ [e]) t

/-- Performs what a port's list lets go, in the order of arrival. -/
def portRun (port : Nat) : Nat → State → State
  | 0, s => s
  | n + 1, s =>
    match nextReady s [] (portOf s port).walks with
    | none => s
    | some e =>
      let s1 := modPort s port fun p => { p with walks := p.walks.filter fun y => !sameReq y.r e.r }
      let x := translate s1 port e.r.partn e.o (isWrite e.r.op) false
      portRun port n (if turnOf s1 e.r = .drop then s1 else afterXlat x.1 e.r port e.o x.2)

/-- The end of a table walk: the leaf is cached, a waiting access takes the walker, and the access goes on, in its turn,
with what the tree holds now. -/
def walkEnds (s : State) (r : Req) : State :=
  match portOfPlace r.home with
  | some (port, o) =>
    let s1 := (translate s port r.partn o (isWrite r.op) false).1
    let s2 := modPort s1 port fun p => { p with walks := p.walks.map fun y => if sameReq y.r r then { y with phase := .ready } else y }
    let s3 := takeWalker s2 port
    portRun port (portOf s3 port).walks.length s3
  | none => s

/-- The walks of a partition under way at a port start again (R179). -/
def restartWalks (s : State) (partn port : Nat) : State :=
  let hit := fun (e : WalkEnt) => e.walks && decide (e.r.partn = partn)
  let s1 := unsched s fun a => match a with
    | .tableWalk q => (portOf s port).walks.any fun e => hit e && sameReq e.r q
    | _ => false
  forEach ((portOf s port).walks.filter hit) (fun st e =>
    let x := startWalk st port e
    modPort x.1 port fun p => { p with walks := p.walks.map fun y => if sameReq y.r e.r then x.2 else y }) s1

/-- A request reaches its home. -/
def arriveHome (s : State) (r : Req) : State :=
  match turnOf s r with
  | .drop => s
  | .later => sched s { cycle := s.cycle + 1, late := false, age := r.inj, src := r.src, act := .homeAccess r }
  | .behind a n => sched s { cycle := s.cycle, late := false, age := a, src := n, act := .homeAccess r }
  | .go =>
    match r.home with
    | .spad t o => spadAccess s r t o
    | .chan c o => portAccess s r c o
    | .tier2 c o => portAccess s r (48 + c) o
    | .host b => performAt s r (keyHost b)
    | .tileCtrl t o => if fencedAt s r.partn t then partFails s r 0x08 6 false else performCtrl s r (.tileCtrl t o) t
    | .devCtrl u o => performCtrl s r (.devCtrl u o) r.src

def execHomeAccess (s : State) : Host.Outcome State Fault Refusal :=
  actRow s fun a s => match a with | .homeAccess r => some (arriveHome s r) | _ => none

def execTableWalk (s : State) : Host.Outcome State Fault Refusal :=
  actRow s fun a s => match a with | .tableWalk r => some (walkEnds s r) | _ => none

/-- A busy operation is sent again, with its injection TSC (R113), to the place that its pointer names: a stub on its way is
followed anew (R212). -/
def resend (s : State) (r : Req) : State :=
  let home := if r.legs = 0 then r.home else (placeOn s r.partn r.inj r.addr).getD r.home
  let q := { r with at_ := r.addr, home := home, ow := r.ow - r.legs, legs := 0, stub := if r.legs = 0 then r.stub else none, turn := none }
  sched s { cycle := s.cycle + q.ow + baseLat q.home false, late := false, age := q.inj, src := q.src, act := .homeAccess q }

def execBusyResend (s : State) : Host.Outcome State Fault Refusal :=
  actRow s fun a s => match a with | .busyResend r => some (resend s r) | _ => none

/-- SYTO cycles have passed: the operation leaves the list, the word unchanged (R114). -/
def timesOut (s : State) (r : Req) : State :=
  let drop := fun (l : List Req) => l.filter fun q => !sameReq q r
  if 2 ^ 66 ≤ r.key then
    let t := r.key - 2 ^ 66
    if (tileOf s t).waiters.any (sameReq r) then
      partFails (modTile s t fun k => { k with waiters := drop k.waiters }) r 0x0D 1 false
    else s
  else
    let w := r.key / 8 * 8
    if (waitersAt s w).any (sameReq r) then
      partFails (setWaiters s w (drop (waitersAt s w))) r 0x0D (if wordFull s w then 1 else 0) false
    else s

def execSyncTimeout (s : State) : Host.Outcome State Fault Refusal :=
  actRow s fun a s => match a with | .syncTimeout r => some (timesOut s r) | _ => none

/-! ### Answers (R54, R56, R58, R154) -/

/-- The elements of a vector load from a part on, below a part, in place: active ones take what their part brought,
inactive ones follow the policy. -/
def vloadValue (s : State) (th : Thread) (t : VReg) (w pw : Nat) (mask : Word) (zero : Bool) (first limit : Nat)
    (got : AMap (List Word)) : Nat :=
  let old := vget s th t.val
  joinElems w ((List.range (512 / w)).map fun e =>
    let part := if pw = 64 then e * w / 64 else e
    if part < first ∨ limit ≤ part then elem w old e
    else if mask.getLsbD e then
      match look got part with
      | some vs => bits (vs.headD 0) (if pw = 64 then e * w % 64 else 0) w
      | none => elem w old e
    else if zero then 0 else elem w old e)

/-- A scalar load's value. -/
def loadExt (n : Nat) (sx : Bool) (v : Word) : Word :=
  let x := bits v 0 (8 * n)
  if sx && decide (2 ^ (8 * n - 1) ≤ x) then BitVec.ofNat 64 (x + 2 ^ 64 - 2 ^ (8 * n)) else BitVec.ofNat 64 x

/-- What the parts below `limit` of a unit did to the machine beside the homes: registers filled, and of a pair's trailing
thread the sticky flags raised. -/
def landParts (s : State) (u : Nat) (th : Thread) (f : Flight) (limit : Nat) : State :=
  let v := (lookD f.got 0 []).headD 0
  match f.op with
  | .loadS t n sx => if limit = 0 then (if f.rx then modThread s u (sfill t) else s) else modThread s u (sset t (loadExt n sx v))
  | .syncLoad t => if limit = 0 then s else modThread s u (sset t v)
  | .amo d => if limit = 0 then s else modThread s u (sset d v)
  | .pfix d => if limit = 0 then s else modThread s u (sset d v)
  | .probe k =>
    if limit = 0 then modThread s u fun t => { t with pEmpty := t.pEmpty &&& ~~~(1#8 <<< k.val) }
    else modThread s u (pset k (decide (v ≠ 0)))
  | .steal d k => if limit = 0 then s else modThread s u (takeRange d k (lookD f.got 0 []))
  | .vload t w pw mask zero => vset s th t.val (vloadValue s th t w pw mask zero f.first limit f.got)
  | .vstore =>
    if th.role = 2 then modThread s u fun t => { t with vec := { t.vec with vstat := t.vec.vstat ||| BitVec.ofNat 64 f.flags } } else s
  | .lkset k target L => if limit = 0 ∨ th.role = 2 then s else recordOutbound s th.tile k.val target L
  | .ldn t _ => rawAdd s th t (f.got.filter fun e => decide (e.1 < limit))
  | _ => s

def dropFlight (u fid : Nat) (s : State) : State :=
  modThread s u fun t => { t with flights := t.flights.filter fun f => decide (f.fid ≠ fid) }

/-- Frees what waited for a relaxed access; a thread that has been terminated ends with its last one (R96, R384). -/
def afterRelaxed (s : State) (u : Nat) : State :=
  if (threadOf s u).any (fun th => th.ending && !rxOut th) then endThread s u else recheck (kick s u) u

/-- The addition for the stubs that a unit's accesses followed (R212). -/
def lateFee (s : State) (u : Nat) (fee : Option Nat) : State :=
  match fee with
  | some c => lateCharge s u c
  | none => s

/-- A relaxed access is over (R56, R58): a failed one stays for the delivery of its fault. -/
def endRelaxed (s : State) (u : Nat) (th : Thread) (f : Flight) (limit : Nat) (failed : Bool) : State :=
  let s1 := lateFee (landParts s u th f limit) u (if failed then none else f.stub)
  let s2 :=
    if failed then modFlight s1 u f.fid fun g => { g with done := true, out := [], pend := [], sent := [] } else dropFlight u f.fid s1
  afterRelaxed s2 u

/-- The last step of an `ldn` whose parts have all been read, ready some cycles later; the stubs that it followed are
charged unless it faults (R143, R212). -/
def ldnEnds (s : State) (u : Nat) (t : DReg) (ptr : Ptr) (f : Flight) (lat : Nat) : State :=
  match threadOf s u with
  | none => s
  | some th =>
    let s1 := if (ldnFault s th t ptr).isNone then lateFee s u f.stub else s
    ldnEnd s1 u ((threadOf s1 u).getD th) t ptr f.fpc f.npc f.charge (s.cycle + 1 + lat)

/-- The fault of a unit at part j (R154): what it completed stays, its charge is withdrawn (R185). -/
def failAt (s : State) (u : Nat) (th : Thread) (f : Flight) (j : Nat) (b : PartFault) : State :=
  if f.rx then endRelaxed s u th f (if f.parts = 1 then 0 else j) true
  else
    let s1 := landParts s u th f (if f.parts = 1 then 0 else j)
    let s2 := dropFlight u f.fid (modThread s1 u (meterBack f.charge))
    takeFault s2 u { cause := b.cause, addr := b.addr, info := BitVec.ofNat 64 b.info, progress := if f.parts = 1 then 0 else j,
                     fpc := f.fpc, tick := b.tick, host := b.host } (s.cycle + 1)

/-- Every part of a unit has been answered well. -/
def succeed (s : State) (u : Nat) (th : Thread) (f : Flight) : State :=
  if f.rx then endRelaxed s u th f f.parts false
  else
    let s1 := dropFlight u f.fid (landParts s u th f f.parts)
    match f.op with
    | .ldn t ptr => ldnEnds s1 u t ptr f (2 * dlimbs th)
    | .stn fl => complete (lateFee s1 u f.stub) u f.npc (dstick fl)
    | _ => complete (lateFee s1 u f.stub) u f.npc id

/-- A part that cannot be answered well, found at the core. -/
def partBad (s : State) (f : Flight) (j cause info : Nat) (addr : Word) : Flight :=
  { f with bad := ins f.bad j { cause := cause, info := info, addr := addr, tick := now s, host := false } }

/-- The limbs of an `ldn` follow its head (R276): checked, metered, sent; the trailing thread of a pair makes the same
checks and takes the limbs from the load-value queue. -/
def ldnLimbs (s : State) (u : Nat) (th : Thread) (f : Flight) (ptr : Ptr) : State × Flight :=
  let h := (lookD f.got 0 []).headD 0
  let n := bits h 48 12
  let g := { f with parts := n + 1 }
  if headBad h then (s, partBad s { f with parts := 2 } 0 0x02 (badDennum h) ptr)
  else if n = 0 then (s, g)
  else
    match limbLimits s th.partn ptr n with
    | some (p, l) => (s, partBad s g 1 0x08 l p)
    | none =>
      match watchParts s th 1 ((List.range n).map fun i => (i + 1, some (offBy ptr (8 * (i + 1))))) with
      | some (p, i) => (s, partBad s g 1 0x18 i.toNat p)
      | none =>
        let ch := limbCharge s th ptr 1 n 0
        if meterTraps th ch then (s, partBad s g 1 0x0F ch ptr)
        else
          (if th.meter.cnt then modThread s u (meterAdd ch) else s,
           if th.role = 2 then { g with out := (List.range n).map (· + 1), charge := g.charge + meterGain th ch }
           else { g with pend := [limbLoads ptr 1 n], charge := g.charge + meterGain th ch })

/-- The first limb that an `ldn` has read has its top bit clear (R276): a head with limbs is a finite value's. -/
def limbBad (f : Flight) : Option (Word × Word) :=
  match f.op with
  | .ldn _ p =>
    match look f.got 1 with
    | some vs => if bit (vs.headD 0) 63 then none else some (offBy p 8, vs.headD 0)
    | none => none
  | _ => none

/-- A head read by an `ldn` that has not asked for its limbs yet. -/
def expands (f : Flight) : Option Ptr :=
  match f.op with
  | .ldn _ ptr => if f.parts = ldnHead ∧ f.out.isEmpty ∧ (look f.got 0).isSome ∧ f.bad.isEmpty then some ptr else none
  | _ => none

/-- What a flight has come to: nothing more to do yet, its next run, a fault at a part, or success. -/
def flightOn (s : State) (u : Nat) (th : Thread) (f : Flight) : State :=
  let put := fun (st : State) (g : Flight) => modFlight st u f.fid fun _ => g
  match f.bad with
  | (j, b) :: _ =>
    if f.out.any (fun p => decide (p ≤ j)) then put s f
    else if f.pend.any (fun r => r.any fun q => decide (q.part < j)) then sendNext (put s f) u f.fid (s.cycle + 1)
    else let s1 := put s f; failAt (lvCut (lvGive s1 u f) u f j) u th f j b
  | [] =>
    if !f.out.isEmpty then put s f
    else if !f.pend.isEmpty then sendNext (put s f) u f.fid (s.cycle + 1)
    else if s.cycle < f.minEnd then
      schedLv (put s f) f.minEnd u f
    else let s1 := put s f; succeed (lvGive s1 u f) u th f

/-- What an answer adds to a flight. -/
def Flight.hears (f : Flight) (a : Answer) : Flight :=
  let g := { f with out := f.out.erase a.part, stub := addFee f.stub a.stub }
  match a.res with
  | .done vals fl => if a.part = f.parts then g else { g with got := ins g.got a.part vals, flags := g.flags ||| fl }
  | .fault cause info tick host =>
    { g with bad := ins g.bad a.part { cause := cause, info := info, addr := a.addr, tick := tick, host := host } }

/-- The flags of an addition reach VSTAT with its acknowledgement (R252). -/
def flagsBack (s : State) (u : Nat) (f : Flight) (a : Answer) : State :=
  match f.op, a.res with
  | .vstore, .done _ fl => modThread s u fun t => { t with vec := { t.vec with vstat := t.vec.vstat ||| BitVec.ofNat 64 fl } }
  | _, _ => s

/-- An answer reaches its thread, wherever it stands (R199). -/
def answered (s : State) (a : Answer) : State :=
  match threadOf s a.uid with
  | none => s
  | some th =>
    match flightOf th a.fid with
    | none => s
    | some f0 =>
      let f := f0.hears a
      let s1 := lvPart (flagsBack s a.uid f0 a) a.uid th f0 a
      match expands f with
      | some ptr =>
        let x := ldnLimbs s1 a.uid th f ptr
        let s2 := flightOn x.1 a.uid ((threadOf x.1 a.uid).getD th) x.2
        if th.role = 2 then lvPull a.uid 16 s2 else s2
      | none =>
        let th1 := (threadOf s1 a.uid).getD th
        match limbBad f with
        | some (p, w) => if (look f.bad 1).isSome then flightOn s1 a.uid th1 f else flightOn s1 a.uid th1 (partBad s1 f 1 0x02 (badDennum w) p)
        | none => flightOn s1 a.uid th1 f

def execAccessResponse (s : State) : Host.Outcome State Fault Refusal :=
  actRow s fun a s => match a with | .accessResponse x => some (answered s x) | _ => none

def execRelaxedAccessCompletion (s : State) : Host.Outcome State Fault Refusal :=
  actRow s fun a s => match a with | .relaxedAccessCompletion x => some (answered s x) | _ => none

end Sys2Proof.Machine
end

