-- ==== Sys2Proof/Machine/Preempt.lean ====
section
/-! DEFINITION. Thread control (R152), the context cache (R156-R161), thermal slots (R80-R82), team saves and their
timeouts (R162-R166, R305, R332, R365, R386), placement and restore (R381, R385). -/

namespace Sys2Proof.Machine

/-! ### Save records (R158) -/

/-- The operand of a wait. -/
def waitOperand (s : State) (u : Nat) (th : Thread) : Word :=
  match th.away, th.wait with
  | some a, _ => a.2
  | none, .issue n => match n.sr.find? (sEmptyAt th ·), n.sd.find? (sEmptyAt th ·) with
    | some r, _ => ofN r.val
    | none, some r => ofN r.val
    | none, none => 0
  | none, .access _ => match atHome s u with | some r => r.addr | none => 0
  | none, .rvwait k => ofN k.val
  | none, .jobQueue j _ _ => ofN j.reg.val
  | none, .jobDone jid => match th.jobsIn.find? fun x => decide (x.2 = jid) with | some x => ofN x.1.val | none => 0
  | none, .evnext d _ => ofN d.val
  | none, _ => 0

/-- The registers of words 0x160 on. -/
def contextRegs : List Nat :=
  [0x002, 0x003, 0x080, 0x010, 0x011, 0x012, 0x013, 0x014, 0x015, 0x020, 0x021, 0x022, 0x030, 0x031, 0x032, 0x033, 0x034, 0x040,
   0x041, 0x042, 0x043, 0x050, 0x051, 0x052, 0x053, 0x054, 0x060, 0x061, 0x062]

/-- The words of a context up to the last that is listed. -/
def contextWords (s : State) (u : Nat) (th : Thread) : List Word :=
  th.pc :: ((List.range 31).map fun i => lookD th.s (i + 1) 0) ++ recordFull th :: ((List.range 7).map fun i => lookD th.m (i + 1) 0)
    ++ [ofN (waitCode s u th + (if th.inHandler then 16 else 0) + (if th.stopped then 32 else 0) + (if th.held then 64 else 0)
          + (if th.exempt then 128 else 0) + th.resume * 2 ^ 32),
        waitOperand s u th, ofN (th.rvRec.toNat + th.rvArr.toNat * 2 ^ 24),
        ofN (coreOf s th + (if th.stand = .vacated then th.recSlot else th.slot) * 2 ^ 16)]
    ++ contextRegs.map (sysRead s th)

/-- The 128 words of a save record. -/
def recordWords (s : State) (u : Nat) (th : Thread) : List Word :=
  let l := contextWords s u th
  l ++ List.replicate (128 - l.length) 0

/-- What a thread's registers become from the words of its save record. -/
def fromRecord (ws : List Word) (th : Thread) : Thread :=
  let w := fun i => ws.getD i 0
  let full := w 32
  let t1 := { th with
    pc := w 0, s := (List.range 31).foldl (fun m i => if w (i + 1) = 0 then del m (i + 1) else ins m (i + 1) (w (i + 1))) th.s,
    sEmpty := ~~~(full.setWidth 32) &&& 0xFFFFFFFE#32, sOut := th.sOut &&& ~~~(full.setWidth 32), p := BitVec.ofNat 8 (bits full 32 7 * 2),
    m := (List.range 7).foldl (fun m i => ins m (i + 1) (w (33 + i))) th.m,
    inHandler := bit (w 40) 4, stopped := bit (w 40) 5, held := bit (w 40) 6, exempt := bit (w 40) 7, resume := bits (w 40) 32 32,
    rvRec := BitVec.ofNat 24 (bits (w 42) 0 24), rvArr := BitVec.ofNat 24 (bits (w 42) 24 24) }
  let t2 := (contextRegs.zipIdx).foldl (fun t x =>
    match x.1 with
    | 0x041 => { t with vec := { t.vec with vstat := w (44 + x.2) } }
    | 0x033 => { t with dn := { t.dn with dctl := w (44 + x.2) } }
    | n => threadWrite n (w (44 + x.2)) t) t1
  { t2 with lt := { t2.lt with vck := w 65, esrc := w 66 } }

/-! ### Swapping out (R156, R159) -/

/-- An entry of a full cache that can be reused, the oldest. -/
def evictable (t : Tile) : Option CacheEnt := t.cache.find? fun e => e.written && !e.kept

def cacheRoom (t : Tile) (n : Nat) : Bool := decide (t.cache.length + n ≤ 8 + (t.cache.filter fun e => e.written && !e.kept).length)

/-- Enters a context into the cache. -/
def cacheEnter (t : Tile) (u : Nat) : Tile :=
  let c := if t.cache.length < 8 then t.cache else match evictable t with | some e => t.cache.erase e | none => t.cache
  { t with cache := c ++ [{ uid := u, written := false, kept := false }] }

/-- The trailing thread of a pair whose leading one executes its unit again: its place in the load-value queue goes, and a
unit that waits for it executes again, too. -/
def withdrawMate (lv : Nat) (t : Thread) : Thread :=
  let t1 := { t with lvq := del t.lvq lv }
  match t.wait with
  | .access fid =>
    match t.flights.find? fun g => decide (g.fid = fid ∧ g.lv = lv) with
    | some g => meterBack g.charge { t1 with wait := .none, lvSeq := lv, flights := t.flights.filter fun x => decide (x.fid ≠ fid) }
    | none => t1
  | _ => t1

/-- Withdraws a SYNC or `barwt` wait: its unit executes again (R159), and the context tells of the wait (R158). In a pair both
threads execute it again. -/
def withdrawSync (s : State) (u : Nat) (th : Thread) : State :=
  match th.wait with
  | .access fid =>
    match atHome s u, flightOf th fid with
    | some _, some f =>
      let tiles := s.tiles.map fun e => (e.1, { e.2 with waiters := reqsWithout u e.2.waiters })
      let ports := s.ports.map fun e => (e.1, { e.2 with waiters := reqsWithout u e.2.waiters })
      let held := { s with tiles := tiles, ports := ports }
      let s1 := { held with tiles := held.tiles.map fun e => (e.1, { e.2 with move := e.2.move.map fun m =>
        { m with held := m.held.filter fun a => match a with | .homeAccess r => decide (r.uid ≠ u) | _ => true } }) }
      let s2 := unsched s1 fun a => match a with | .syncTimeout r => decide (r.uid = u) | _ => false
      let s3 := match mateOf s u with
        | some m => if th.role = 1 then modThread s2 m (withdrawMate f.lv) else s2
        | none => s2
      modThread s3 u fun t =>
        meterBack f.charge { t with wait := .none, away := some (waitCode s u th, waitOperand s u th),
                                    lvSeq := if th.role = 1 then f.lv else t.lvSeq,
                                    flights := t.flights.filter fun g => decide (g.fid ≠ fid) }
    | _, _ => s
  | _ => s

/-- Writes the save record; its acknowledgement, or its failure, follows (R159, R161). -/
def writeRecordOf (s : State) (u : Nat) : State :=
  match threadOf s u with
  | none => s
  | some th =>
    let p := recordPtr s th
    let ws := recordWords s u th
    match (List.range 128).findSome? fun i =>
      match (hwKey s th.partn (offBy p (8 * i)) true false).2 with
      | .bad c _ _ => some c
      | .ok _ => none
    with
    | some c => schedAt s (s.cycle + loadLat s th.partn th.tile p) (.contextSaveFault th.tile u c p)
    | none =>
      let s1 := (ws.foldl (fun (a : State × Nat) w => (hwStore a.1 th.partn (offBy p (8 * a.2)) w, a.2 + 1)) (s, 0)).1
      schedAt (modThread s1 u fun t => { t with saved := ws }) (s.cycle + loadLat s th.partn th.tile p)
        (.saveWriteAcknowledgement th.tile u)

/-- The context leaves its slot. A thread displaced by heat keeps its place in a wait (R81, R82); a SYNC or `barwt` wait of
one vacated by action 4 is withdrawn (R159; the two rules by log 46). -/
def swapOut (s : State) (u : Nat) : State :=
  match threadOf s u with
  | none => s
  | some th =>
    let s1 := rvPause (if th.leaving = 2 then s else withdrawSync s u th) u
    let s2 := modThread s1 u fun t =>
      { t with stand := .vacated, displaced := if th.leaving = 2 then some s.cycle else none, leaving := 0, recSlot := t.slot,
               saved := [] }
    writeRecordOf (modTile s2 th.tile fun t => cacheEnter t u) u

/-! ### Deliveries to a context out of the cache (R160) -/

def inCache (s : State) (tile u : Nat) : Bool := (tileOf s tile).cache.any fun e => decide (e.uid = u)

/-- The words of a save record that a delivery changes: s1-s31, the full bits, the rendezvous bits. -/
def deliveredWords : List Nat := (List.range 32).map (· + 1) ++ [42]

/-- A context out of the cache to which something has been delivered that its save record does not hold. -/
def deliveryDue (s : State) : Option Nat :=
  (s.threads.find? fun e =>
    decide (e.2.stand = .vacated ∧ e.2.saved ≠ []) && !inCache s e.2.tile e.1
      && (let ws := recordWords s e.1 e.2
          deliveredWords.any fun i => decide (ws.getD i 0 ≠ e.2.saved.getD i 0))).map (·.1)

/-- Makes a delivery at the save record: the words that it changed, of the full-bit word the bits. -/
def deliverRecord (s : State) (u : Nat) : State :=
  match threadOf s u with
  | none => s
  | some th =>
    let ws := recordWords s u th
    let s1 := deliveredWords.foldl (fun st i =>
      let new := ws.getD i 0
      let d := new ^^^ th.saved.getD i 0
      let p := offBy (recordPtr s th) (8 * i)
      if d = 0 then st
      else if i = 32 then
        let r := hwLoad st th.partn p
        hwStore r.1 th.partn p (r.2.2 &&& ~~~d ||| (new &&& d))
      else hwStore st th.partn p new) s
    modThread s1 u fun t => { t with saved := deliveredWords.foldl (fun l i => l.set i (ws.getD i 0)) t.saved }

/-- The threads that move together. -/
def together (s : State) (u : Nat) : List Nat := match mateOf s u with | some m => [u, m] | none => [u]

/-- The core that takes a displaced light thread (R82): eligible, coolest in the ranking table, of the lowest number among
equals. -/
def coolest (s : State) (th : Thread) : Option Nat :=
  let ok := (teamTiles s th.partn th.serial).filter fun t =>
    decide (t ≠ th.tile) && decide ((tileOf s t).temp < (tileOf s t).thresh) && (freeSlot s t).isSome
      && !(threadsWhere s fun _ x => decide (x.partn = th.partn ∧ x.serial = th.serial ∧ x.tile = t ∧ x.stand = .inSlot)).isEmpty
  let heat := fun (t : Nat) => lookD s.ranking t 0
  ok.foldl (fun (a : Option Nat) t =>
    match a with
    | some b => if heat t < heat b ∨ (heat t = heat b ∧ t < b) then some t else a
    | none => some t) none

def isLight (th : Thread) : Bool := decide (th.vn = 0 ∧ th.dwin = 0 ∧ th.role = 0) && !th.ltm

/-- Sends a displaced thread away as a leap: never refused for the meter; its wait goes with it (R82). -/
def sendDisplaced (s : State) (u : Nat) (th : Thread) (dst : Nat) : State :=
  let t := leapTime s th.tile dst
  let ch := kindBits 4 * lenTiles s th.tile dst
  let s1 := modThread (rvPause s u) u fun x => { x with stand := .transit, leaving := 0 }
  let s2 := if th.meter.cnt then modThread s1 u (meterAdd ch) else s1
  let s3 := modTile s2 th.tile fun k => { k with reserved := setAdd k.reserved th.slot }
  sched s3 { cycle := s.cycle + t - 1, late := false, age := now s, src := th.tile, act := .leapArrival {
      uid := u, src := th.tile, slot := th.slot, dst := dst, time := t, sent := s.cycle, inj := now s, charge := meterGain th ch,
      fpc := th.pc, npc := th.pc, ptr := 0, why := 100, acc := none } }

/-- Outcome of a thread-control word (R152). -/
def tcwSet (s : State) (tile slot out : Nat) : State := modTile s tile fun t => { t with tcw := ins t.tcw slot out }

/-- A core's contexts can be swapped now: CSAV names a save region, and the cache has room (R157, R159). -/
def canSwap (s : State) (tile n : Nat) : Bool := decide ((tileOf s tile).csav ≠ 0) && cacheRoom (tileOf s tile) n

/-- Threads that leave their slots and are settled: the first that can go, with its pair, or whose swap is refused since
CSAV has become 0 (R157). -/
def leaverDue (s : State) : Option Nat :=
  (s.threads.find? fun e =>
    decide (e.2.leaving ≠ 0) && (together s e.1).all (fun u => match threadOf s u with | some th => settled s u th | none => true)
      && ((decide (e.2.leaving = 2) && isLight e.2 && (coolest s e.2).isSome) || canSwap s e.2.tile (together s e.1).length
          || (decide (e.2.leaving = 1) && decide ((tileOf s e.2.tile).csav = 0)))).map (·.1)

def leave (s : State) (u : Nat) : State :=
  match threadOf s u with
  | none => s
  | some th =>
    match (if th.leaving = 2 ∧ isLight th then coolest s th else none) with
    | some dst => sendDisplaced s u th dst
    | none =>
      if (tileOf s th.tile).csav = 0 then
        tcwSet (forEach (together s u) (fun st v => modThread st v fun t => { t with leaving := 0 }) s) th.tile th.slot 2
      else forEach (together s u) swapOut s

/-! ### Returning (R159, R160) -/

/-- A context read back: a record word that still is as the hardware wrote it stands for what has become of the context
since, wait answers and thread control included (R152, R160). -/
def mergeRecord (read saved now_ : List Word) : List Word :=
  (List.range 128).map fun i => if read.getD i 0 = saved.getD i 0 then now_.getD i 0 else read.getD i 0

/-- A vacated thread takes a slot. A record word that cannot be read counts as 0 (DESIGN CHOICE, log 83). -/
def swapIn (s0 : State) (u slot : Nat) : State :=
  match threadOf s0 u with
  | none => s0
  | some th =>
    let cached := inCache s0 th.tile u
    let s := if cached ∨ th.saved = [] then s0 else deliverRecord s0 u
    let p := recordPtr s th
    let r := if cached then (s, []) else (List.range 128).foldl (fun (a : State × List Word) i =>
      let x := hwLoad a.1 th.partn (offBy p (8 * i)); (x.1, a.2 ++ [x.2.2])) (s, [])
    let d := if cached then 0 else loadLat s th.partn th.tile p
    let s1 := modThread r.1 u fun t =>
      let t1 := if cached then t else fromRecord (mergeRecord r.2 t.saved (recordWords s u t)) t
      { t1 with stand := .inSlot, slot := slot, displaced := none, away := none, saved := [], readyAt := max t.readyAt (s.cycle + 1 + d) }
    let s2 := modTile s1 th.tile fun t => { t with cache := t.cache.filter fun e => decide (e.uid ≠ u) }
    match threadOf s2 u with
    | some t => match t.wait with | .rvwait _ => if t.held then s2 else rvCount s2 u | _ => recheck s2 u
    | none => s2

/-- The displaced thread of a tile that has waited longest. -/
def oldestDisplaced (s : State) (tile : Nat) : Option Nat :=
  (s.threads.foldl (fun (a : Option (Nat × Nat)) e =>
    match e.2.displaced with
    | some c => if e.2.tile = tile ∧ e.2.stand = .vacated ∧ !((tileOf s tile).cache.any fun k => decide (k.uid = e.1) && k.kept) then
        match a with
        | some (_, d) => if c < d then some (e.1, c) else a
        | none => some (e.1, c)
      else a
    | none => a) none).map (·.1)

/-! ### Thread control (R152) -/

/-- The thread of a TID in a slot, or vacated from it (R152): whichever slot the returning one took meanwhile, the thread is
found under the slot that it was vacated from. -/
def tcwThread (s : State) (tile slot tid : Nat) : Option Nat :=
  match (occupant s tile slot).filter fun u => (threadOf s u).any fun th => decide (tidOf th = tid) with
  | some u => some u
  | none => (s.threads.find? fun e =>
      decide (e.2.stand = .vacated ∧ e.2.tile = tile ∧ e.2.recSlot = slot ∧ tidOf e.2 = tid)).map (·.1)

/-- A row of the thread-control word: outcome 1 unless the slot's thread has the TID. -/
def tcwRow (s : State) (tile slot tid : Nat) (f : Nat → Thread → State × Nat) : State :=
  match (tcwThread s tile slot tid).bind fun u => (threadOf s u).map fun th => (u, th) with
  | none => tcwSet s tile slot 1
  | some (u, th) => let r := f u th; tcwSet r.1 tile slot r.2

def execResume (s : State) : Host.Outcome State Fault Refusal :=
  actRow s fun a s =>
    match a with
    | .resume tile slot tid =>
      some (tcwRow s tile slot tid fun u th =>
        if th.stopped = false then (s, 2)
        else
          let n := if restartsAt s th th.pc then bits th.fr.cause 32 32 else 0
          (modThread s u fun t => { t with stopped := false, resume := n, readyAt := max t.readyAt (s.cycle + 1) }, 0))
    | _ => none

def execDeliver (s : State) : Host.Outcome State Fault Refusal :=
  actRow s fun a s =>
    match a with
    | .deliver tile slot tid =>
      some (tcwRow s tile slot tid fun u th =>
        if th.stopped = false ∨ th.tvec = 0 ∨ th.inHandler then (s, 2)
        else (modThread s u fun t =>
          { t with stopped := false, inHandler := true, pc := t.tvec, resume := 0, readyAt := max t.readyAt (s.cycle + 1) }, 0))
    | _ => none

def execTerminate (s : State) : Host.Outcome State Fault Refusal :=
  actRow s fun a s =>
    match a with
    | .terminate tile slot tid => some (tcwRow s tile slot tid fun u _ => (terminateThread s u, 0))
    | _ => none

def execVacate (s : State) : Host.Outcome State Fault Refusal :=
  actRow s fun a s =>
    match a with
    | .vacate tile slot tid =>
      some (tcwRow s tile slot tid fun u th =>
        if (tileOf s tile).csav = 0 ∨ th.stand = .vacated then (s, 2)
        else if !cacheRoom (tileOf s tile) (together s u).length then (s, 3)
        else (forEach (together s u) (fun st v => modThread st v fun t => { t with leaving := 1 }) s, 0))
    | _ => none

/-- Action 5: a thread vacated by action 4 returns; a hold by a faulted save is released (R161). While its slot is disabled
it waits as a displaced thread does (R82). -/
def execRestore (s : State) : Host.Outcome State Fault Refusal :=
  actRow s fun a s =>
    match a with
    | .restore tile slot tid =>
      some (tcwRow s tile slot tid fun u th =>
        let kept := (tileOf s tile).cache.any fun e => decide (e.uid = u) && e.kept
        if th.stand ≠ .vacated ∨ (th.displaced.isSome ∧ kept = false) then (s, 2)
        else
          let free := modTile s tile fun t => { t with cache := t.cache.map fun e => if e.uid = u then { e with kept := false } else e }
          if th.slot ∈ (tileOf s tile).disabled then
            (forEach (together s u) (fun st v => modThread st v fun t => { t with displaced := some (t.displaced.getD s.cycle) }) free, 0)
          else (forEach (together s u) (fun st v => match threadOf st v with
            | some t => if t.stand = .vacated then swapIn st v t.slot else st
            | none => st) free, 0))
    | _ => none

def execSaveWriteAcknowledgement (s : State) : Host.Outcome State Fault Refusal :=
  actRow s fun a s =>
    match a with
    | .saveWriteAcknowledgement tile uid =>
      some (modTile s tile fun t => { t with cache := t.cache.map fun e => if e.uid = uid then { e with written := true } else e })
    | _ => none

/-- The context-save fault (R161); that of a supervisor team's thread goes to the host driver alone (R148). -/
def execContextSaveFault (s : State) : Host.Outcome State Fault Refusal :=
  actRow s fun a s =>
    match a with
    | .contextSaveFault tile uid cause p =>
      match threadOf s uid with
      | none => some s
      | some th =>
        let s1 := modTile s tile fun t => { t with cache := t.cache.map fun e => if e.uid = uid then { e with kept := true } else e }
        let e := faultEntry s th { cause := 0x1D, addr := p, info := ofN cause, progress := 0, fpc := th.pc, tick := now s, host := true } 4
        some (if th.sup then postHost s1 e else postHost (postSup s1 th.partn e) e)
    | _ => none

/-! ### Thermal slots (R80-R82) -/

/-- The slots that change together: a pair's are 2k and 2k + 1. On a core that holds a pair, all slots change in twos: the
rule speaks of the mode, not of the slot (DESIGN CHOICE, log 89). -/
def slotGroup (s : State) (tile slot : Nat) : List Nat :=
  let pair := s.threads.any fun e => decide (e.2.tile = tile) && decide (e.2.role ≠ 0)
  if pair then [slot / 2 * 2, slot / 2 * 2 + 1] else [slot]

/-- A thread of a slot being disabled must be able to go. -/
def canLeave (s : State) (tile slot : Nat) : Bool :=
  match atSlot s tile slot with
  | none => true
  | some u =>
    match threadOf s u with
    | some th => decide (th.stand = .vacated) || (isLight th && (coolest s th).isSome) || canSwap s tile (together s u).length
    | none => true

/-- The slots that a core above its threshold disables next: the highest-numbered enabled one, never slot 0 (R80). -/
def disableNext (s : State) (tile : Nat) : Option (List Nat) :=
  match (List.range 16).reverse.find? fun k => decide (k ≠ 0) && decide (k ∉ (tileOf s tile).disabled) with
  | none => none
  | some k => if 0 ∈ slotGroup s tile k then none else some (slotGroup s tile k)

/-- 10,000 ticks have passed since the core's last change of a slot. -/
def thermalReady (s : State) (t : Tile) : Bool := t.thermAt.all fun n => decide (n + 10000 ≤ now s)

/-- A core that disables or re-enables a slot now (R80); a disable whose thread cannot go waits (R159). -/
def thermalDue (s : State) : Option Act :=
  s.tiles.findSome? fun e =>
    if thermalReady s e.2 = false then none
    else if e.2.thresh < e.2.temp then
      if (disableNext s e.1).any fun g => g.all (canLeave s e.1) then some (.slotDisable e.1) else none
    else if e.2.temp + e.2.hyst < e.2.thresh ∧ e.2.disabled ≠ [] then some (.slotReenable e.1)
    else none

def disableSlot (s : State) (tile slot : Nat) : State :=
  let s1 := modTile s tile fun t => { t with disabled := setAdd t.disabled slot }
  match atSlot s tile slot with
  | some u => modThread s1 u fun t => if t.stand = .inSlot ∧ t.leaving = 0 then { t with leaving := 2 } else t
  | none => s1

def execSlotDisable (s : State) : Host.Outcome State Fault Refusal :=
  actRow s fun a s =>
    match a with
    | .slotDisable tile =>
      match disableNext s tile with
      | none => some s
      | some g =>
        if g.all (canLeave s tile) then
          some (forEach g (fun s k => disableSlot s tile k) (modTile s tile fun t => { t with thermAt := some (now s) }))
        else some s
    | _ => none

/-- A re-enabled slot goes to an arriving leap first, then to the oldest displacement (R82, R197). -/
def enableSlot (s : State) (tile slot : Nat) : State :=
  let s1 := modTile s tile fun t => { t with disabled := setDel t.disabled slot }
  match atSlot s tile slot with
  | some u => modThread s1 u fun t => if t.leaving = 2 then { t with leaving := 0 } else t
  | none => slotFreed s1 tile

/-- A displaced thread's slot is still its own until it returns; the slot that is re-enabled may be another's. -/
def returnDisplaced (s : State) (tile slot : Nat) : State :=
  match oldestDisplaced s tile with
  | none => s
  | some u =>
    match threadOf s u with
    | none => s
    | some th =>
      -- the thread kept under this slot's number keeps the number of the one that returns
      let s1 := match atSlot s tile slot with
        | some v => if v ≠ u then modThread s v fun t => if t.stand = .vacated then { t with slot := th.slot } else t else s
        | none => s
      if (atSlot s1 tile slot).any (fun v => decide (v ≠ u)) then s else swapIn s1 u slot

def execSlotReenable (s : State) : Host.Outcome State Fault Refusal :=
  actRow s fun a s =>
    match a with
    | .slotReenable tile =>
      match (tileOf s tile).disabled with
      | [] => some s
      | k :: _ =>
        let g := slotGroup s tile k
        let s1 := modTile s tile fun t => { t with thermAt := some (now s) }
        some (scanNext (forEach g (fun s k => returnDisplaced s tile k) (forEach g (fun s k => enableSlot s tile k) s1)))
    | _ => none

/-- Firmware reads the cores' temperatures, sets their limits and refreshes the ranking table (R80, R82; log 7). -/
def execRankingRefresh (s : State) : Host.Outcome State Fault Refusal :=
  actRow s fun a s =>
    match a with
    | .rankingRefresh l =>
      some (forEach l (fun s x => modTile s x.tile fun t => { t with temp := x.temp, thresh := x.thresh, hyst := x.hyst })
        { s with ranking := l.foldl (fun m x => ins m x.tile x.temp) s.ranking })
    | _ => none

/-! ### Counting a team (R162-R164) -/

/-- The unit of a stopped or held thread is not in flight. -/
def atRest (s : State) (u : Nat) (th : Thread) : Bool :=
  !rxOut th && match th.wait with
    | .access _ => (atHome s u).isSome
    | .leap => false
    | .amov _ _ _ _ _ _ _ => false
    | .fence _ _ => false
    | .none => decide (th.readyAt ≤ s.cycle)
    | _ => true

/-- A thread's own wait or state counts it. -/
def countedAlone (s : State) (u : Nat) (th : Thread) : Bool :=
  decide (th.stand ≠ .transit) && decide (th.stand ≠ .queued) &&
    (decide (th.stand = .vacated) || ((th.stopped || th.held) && atRest s u th)
      || (!rxOut th && match th.wait with
            | .safept => true
            | .rvwait _ => true
            | .evnext _ _ => true
            | .jobQueue _ _ _ => true
            | .jobDone _ => true
            | .access _ => let c := waitCode s u th; decide (c = 2) || decide (c = 5)
            | _ => false))

/-- The trailing thread of a pair that waits for its counted partner is counted with it. -/
def counted (s : State) (u : Nat) (th : Thread) : Bool :=
  countedAlone s u th
    || (decide (th.role = 2) && !rxOut th && (match th.wait with | .lvq => true | .comparator _ => true | .access _ => true | _ => false)
        && match mateOf s u with
          | some m => match threadOf s m with | some t => countedAlone s m t | none => false
          | none => false)

/-- Messages whose loss a saved team would see are still on their way. -/
def teamTraffic (s : State) (partn serial : Nat) : Bool :=
  let us := teamThreads s partn serial
  (pendingActs s).any fun a =>
    match a with
    | .eventEntry m => decide (m.partn = partn ∧ m.serial = serial)
    | .eventBusyAnswer m => decide (m.partn = partn ∧ m.serial = serial ∧ m ∉ heldFor s m.src m.dst)
    | .almanacMessage m => decide (m.partn = partn ∧ m.serial = serial)
    | .vigilEvent m => decide (m.partn = partn ∧ m.serial = serial)
    | .rendezvousRelease p t _ => decide (p = partn ∧ t = serial)
    | .jobStatusWord j _ => decide (j.uid ∈ us)
    | .accessResponse a => decide (a.uid ∈ us)
    | .relaxedAccessCompletion a => decide (a.uid ∈ us)
    | _ => false

/-- What a running GATHER or SCATTER has delivered by now. -/
def deliveredNow (s : State) (r : Running) : Delivered :=
  deliverAll r.job 2 r.skip (r.deliv.filter fun d => decide (d.pos < elemsDone s r)) s

/-- It has met an event that ends it: it is no longer a job to stop (R323, log 66). -/
def eventMet (s : State) (r : Running) : Bool := r.ev.isSome && decide (r.evAt < elemsDone s r) || (deliveredNow s r).ev.isSome

/-- A team's jobs of the copy unit that a save waits for: these waits count towards PTMO (R332). -/
def copyHolds (s : State) (partn serial : Nat) : Bool :=
  let mine := fun (j : Job) => decide (j.partn = partn ∧ j.serial = serial)
  s.clusters.any fun e =>
    e.2.cu.run.any (fun r => mine r.job && (!(decide (cmdOpcode r.job = 0x11) || decide (cmdOpcode r.job = 0x12)) || eventMet s r))
      || e.2.cu.slots.any (fun k => mine k.job && (k.proceeding || k.status.isSome || allStarted s k.key))

/-- A team's started jobs that a save waits for (R305, R332). -/
def jobsHold (s : State) (partn serial : Nat) : Bool :=
  s.clusters.any (fun e => e.2.mxe.run.any fun r => decide (r.job.partn = partn ∧ r.job.serial = serial)) || copyHolds s partn serial

/-- Every thread of a team with a request is counted: no job of it starts any more. -/
def teamCounted (s : State) (partn serial : Nat) : Bool :=
  match teamOf s partn serial with
  | some t => t.started && t.req.isSome && (teamThreads s partn serial).all fun u => match threadOf s u with | some th => counted s u th | none => true
  | none => false

def saveReady (s : State) (partn serial : Nat) : Bool :=
  teamCounted s partn serial && !teamTraffic s partn serial && !jobsHold s partn serial

/-! ### Live ranges (R163, R164) -/

/-- One word of a table. -/
def tableWord (s : State) (partn : Nat) (p : Ptr) : Option Word :=
  match (hwLoad s partn p).2 with
  | (.ok _, w) => some w
  | _ => none

/-- The ranges of a table: none where it breaks a limit or cannot be read. -/
def tableRanges (s : State) (th : Thread) (p : Ptr) : Option (List (Ptr × Nat)) :=
  if !(decide (pKind p = 0) || decide (pKind p = 2) || decide (pKind p = 3) || decide (pKind p = 4)) || decide (pOff p % 8 ≠ 0) then none
  else
    match tableWord s th.partn p with
    | none => none
    | some w0 =>
      if 1024 < w0.toNat then none
      else
        (List.range w0.toNat).foldl (fun (a : Option (List (Ptr × Nat))) e =>
          match a, tableWord s th.partn (offBy p (8 + 16 * e)), tableWord s th.partn (offBy p (16 + 16 * e)) with
          | some l, some q, some n =>
            let ok := decide (pKind q = 0 ∧ pOff q % 8 = 0 ∧ n.toNat % 8 = 0 ∧ 8 ≤ n.toNat ∧ pOff q + n.toNat ≤ 2 ^ 20)
              && (match guestTile s th.partn (pX q) (pY q) with | some t => inTeam s th.partn th.serial t | none => false)
            if ok then some (l ++ [(q, n.toNat)]) else none
          | _, _, _ => none) (some [])

/-- The ranges a counted thread holds live: those of the table of its last safe point, the whole scratchpad of its core
where it passed none, is stopped or is held. A table pointer of zero is a safe point without a live range (log 45). -/
def liveRanges (s : State) (th : Thread) : Option (List (Ptr × Nat)) :=
  let whole := some [(tilePtr s th.partn th.tile 0, 2 ^ 20)]
  if th.stopped || th.held then whole
  else
    match th.table with
    | none => whole
    | some p => if p = 0 then some [] else tableRanges s th p

/-- The words of a table that are read: its count, and with a count within its limit its entries. -/
def tableReads (s : State) (th : Thread) : List Ptr :=
  if th.stopped || th.held then []
  else
    match th.table with
    | none => []
    | some p =>
      if p = 0 ∨ pKind p = 1 ∨ 5 ≤ pKind p ∨ pOff p % 8 ≠ 0 then []
      else
        match tableWord s th.partn p with
        | none => [p]
        | some n => if 1024 < n.toNat then [p] else p :: (List.range (2 * n.toNat)).map fun i => offBy p (8 + 8 * i)

/-- What reads of the hardware do beside bringing their words: accesses through stubs are counted, and a block that is being
moved is met (R210, R211). -/
def readThrough (s : State) (partn : Nat) (l : List Ptr) : State := l.foldl (fun s p => (hwKey s partn p false false).1) s

/-- Threads whose table cannot be used. -/
def badTables (s : State) (us : List Nat) : List Nat :=
  us.filter fun u => match threadOf s u with | some th => (liveRanges s th).isNone | none => false

/-- The address fault of a bad table, escalated; the thread then counts as stopped. -/
def tableFault (s : State) (u : Nat) : State :=
  match threadOf s u with
  | none => s
  | some th =>
    let f : FaultIn := { cause := 0x08, addr := th.table.getD 0, info := 5, progress := 0, fpc := th.pc, tick := now s, host := false }
    escalate (modThread (withdrawSync s u th) u fun t => { t with away := none }) u th f (s.cycle + 1)

/-! ### The image (R165, R386) -/

/-- A word that lies directly in a lodged block of its tile belongs to another (R214). -/
def inLodged (s : State) (partn : Nat) (p : Ptr) : Bool :=
  match placeOf s partn p with
  | some (.spad tile off) => (blockOf s tile off).lodged && decide ((blockOf s tile off).st = .present)
  | _ => false

/-- A word of a listed range at its current home, through stubs (R214). -/
def savedWord (s : State) (partn : Nat) (p : Ptr) : Option SavedWord :=
  if inLodged s partn p then none
  else
    match (hwKey s partn p false false).2 with
    | .ok k => some { val := wordAt s k, full := wordFull s k, pois := wordPois s k }
    | .bad _ _ _ => none

/-- The listed ranges, each once, as they stand. -/
def savedRanges (s : State) (partn : Nat) (l : List (Ptr × Nat)) : List SavedRange :=
  l.eraseDups.map fun x => { ptr := x.1, words := (List.range (x.2 / 8)).map fun i => savedWord s partn (offBy x.1 (8 * i)) }

/-- The words of listed ranges that are read. -/
def rangeReads (s : State) (partn : Nat) (l : List (Ptr × Nat)) : List Ptr :=
  (l.eraseDups.flatMap fun x => (List.range (x.2 / 8)).map fun i => offBy x.1 (8 * i)).filter fun p => !inLodged s partn p

def savedThread (s : State) (u : Nat) : Option SavedThread :=
  (threadOf s u).map fun th =>
    let gs := th.rows.flatMap fun r => (List.range 8).map fun i => 8 * r + i
    { uid := u, th := th, grans := gs.map (fun g => (g, granGet s th.tile g)), pois := gs.filter fun g => decide (g ∈ (tileOf s th.tile).poolPois) }

/-- The jobs of a core of a team that are saved, in queue order: a collective that waits for members first. -/
def savedCopyJobs (s : State) (cl ci : Nat) (partn serial : Nat) : List Job :=
  let c := (clusterAt s cl).cu
  (c.slots.filter fun k => decide (k.ci = ci ∧ k.job.partn = partn ∧ k.job.serial = serial)).map (fun k => { k.job with ran := true })
    ++ lookD c.queues ci []

def savedCore (s : State) (partn serial tile : Nat) : CoreImage :=
  let cl := clusterOfTile tile
  let ci := coreInCluster tile
  let t := tileOf s tile
  { tile := tile, deque := t.deque, dqsp := t.dqsp, evsp := t.evsp, evu := t.evu, acc := s.acc.filter fun c => decide (c.1 / 32768 = tile),
    ctx := ctxOf s cl ci, mjobs := lookD (clusterAt s cl).mxe.queues ci [], cjobs := savedCopyJobs s cl ci partn serial,
    regs := lookD (clusterAt s cl).cu.regs ci [] }

/-- The GATHER or SCATTER of a core that runs is stopped (R332): what it has delivered stays, and it is saved to start at
its running segment. Whole segments are counted, and of the running one it is noted which elements were delivered: each
counts once, whatever the rerun comes to; every access made is charged (R321, R322, R326). -/
def stopLists (s : State) (cl : Nat) (r : Running) : State :=
  let j := r.job
  let x := listsOf j
  let first := firstElem j x
  let segs := (elemsDone s r - first) / 2 ^ x.seg
  let out := deliveredNow s r
  let edge := first + segs * 2 ^ x.seg
  let whole := deliverAll j 2 r.skip (r.deliv.filter fun d => decide (d.pos < edge)) s
  let more := halfMore (8 * 2 ^ x.ew) (j.half.filter fun p => decide (p < edge)) whole.got
  let half := ((out.got.map (·.1)) ++ j.half).eraseDups.filter fun p => decide (edge ≤ p)
  let j1 := { j with seg := j.seg + segs, done := j.done + whole.elems + more.2, half := half, skipped := j.skipped || whole.skipped,
                     owed := j.owed + out.charge + idxCharge s j x first (elemsDone s r), ran := true, enq := 0 }
  modCu out.st cl fun m => { m with run := none, queues := ins m.queues r.ci (j1 :: lookD m.queues r.ci []) }

def stopAllLists (s : State) (partn serial : Nat) : State :=
  forEach s.clusters (fun s e =>
    match e.2.cu.run with
    | some r => if r.job.partn = partn ∧ r.job.serial = serial then stopLists s e.1 r else s
    | none => s) s

/-- Words padded to a multiple of 64 bytes, where the next section starts. -/
def padLine (l : List Word) : List Word := l ++ List.replicate ((8 - l.length % 8) % 8) 0

/-- Full/empty bits, 64 to a word, the first in bit 0; `n` bounds the words. -/
def bitWords : Nat → List Bool → List Word
  | 0, _ => []
  | n + 1, l =>
    if l.isEmpty then []
    else ofN ((l.take 64).foldr (fun b a => (if b then 1 else 0) + 2 * a) 0) :: bitWords n (l.drop 64)

/-- n words of an accumulator region from a key up. -/
def cellWords : Nat → Nat → List Host.Cell → List Word
  | 0, _, _ => []
  | n + 1, a, l =>
    let x := l.span fun c => decide (c.1 < a + 8)
    memWord x.1 a :: cellWords n (a + 8) x.2

def regionOf (c : CoreImage) : List Word := cellWords 4096 (c.tile * 32768) c.acc

/-- A core's format context and check state in 32 bytes. -/
def ctxWords (c : MxCtx) : List Word :=
  [c.arec, c.brec, c.orec, ofN (c.afmt + c.bfmt * 2 ^ 8 + c.rnd * 2 ^ 16 + c.rplanes * 2 ^ 19 + c.chkN * 2 ^ 24 + c.chkR * 2 ^ 32 + c.cnt * 2 ^ 40)]

/-- The words of a core (R386, log 34): deque, event unit, pending set, accumulator region, context, queued jobs of the
matrix engine and then of the copy unit, pending job registers. -/
def coreWords (s : State) (i : Image) (c : CoreImage) : List Word :=
  padLine (ofN c.deque.length :: c.deque.flatMap (fun x => [x.lo, x.hi, x.tag, 0])
    ++ (List.range 0x60).map (fun k => evuRead s i.partn c.tile (0x6000 + 8 * k))
    ++ c.evu.pending.flatMap (fun e => [e.t, e.pay0, e.pay1, ofN e.src])
    ++ regionOf c ++ ctxWords c.ctx ++ (c.mjobs ++ c.cjobs).flatMap jobWords
    ++ (i.threads.filter fun t => decide (t.th.tile = c.tile)).flatMap fun t => t.th.jobsIn.map fun x => ofN (x.1.val + t.th.slot * 2 ^ 16))

/-- The words of a listed range: pointer, length, data, full/empty bits. -/
def rangeWords (r : SavedRange) : List Word :=
  r.ptr :: ofN (8 * r.words.length) :: r.words.map (fun w => (w.map (·.val)).getD 0)
    ++ bitWords r.words.length (r.words.map fun w => w.any (·.full))

/-- The words of an image from its base (R386): header, contexts, rows, points, cores, ranges. -/
def imageWords (s : State) (i : Image) : List Word :=
  let body := (i.threads.flatMap fun t => recordWords s t.uid t.th) ++ (i.threads.flatMap fun t => t.grans.map (·.2))
    ++ (List.range 24).map (fun k => pointWord (pointOf i.team k)) ++ i.cores.flatMap (coreWords s i)
    ++ padLine (i.ranges.flatMap rangeWords)
  ofN (i.serial + i.team.prio * 2 ^ 16) :: (List.range 4).map (i.team.words.getD · 0)
    ++ [ofN (packCore i.team.ox i.team.oy), ofN i.tsc, ofN (64 + 8 * body.length)] ++ body

/-- The lowest pool slot that holds no image. -/
def poolSlot (p : Partition) : Option Nat := (List.range p.tspn).find? fun n => p.saved.all fun i => decide (i.slot ≠ n)

def makeImage (s : State) (partn serial : Nat) (t : Team) (slot : Nat) : Image :=
  let tiles := teamTiles s partn serial
  let us := tiles.flatMap fun tile => (List.range 16).flatMap fun k =>
    (teamThreads s partn serial).filter fun u => match threadOf s u with | some th => decide (th.tile = tile ∧ th.slot = k) | none => false
  let ranges := us.flatMap fun u => match threadOf s u with | some th => (liveRanges s th).getD [] | none => []
  { partn := partn, serial := serial, team := { t with req := none, started := true, holding := false }, slot := slot,
    order := (partOf s partn).saveOrder, tsc := now s, threads := us.filterMap (savedThread s),
    cores := tiles.map (savedCore s partn serial), ranges := savedRanges s partn ranges }

/-- What a saved team leaves behind: free tiles. The words of the event units stand, F and H among them (R359); the digest
lists are saved (R337). -/
def vacateTeam (s0 : State) (partn serial : Nat) : State :=
  let s := s0
  let us := teamThreads s partn serial
  let tiles := teamTiles s partn serial
  let mine := fun (j : Job) => decide (j.partn = partn ∧ j.serial = serial)
  let s1 := { s with threads := s.threads.filter fun e => decide (e.1 ∉ us) }
  let s2 := forEach tiles (fun s tile =>
    modCu (modTile s tile fun k => { k with deque := [], evu := { k.evu with held := [], kept := some (evFloor s0 tile, horizonAt s0 tile) },
                                            cache := k.cache.filter fun e => decide (e.uid ∉ us) })
      (clusterOfTile tile) fun m => { m with regs := del m.regs (coreInCluster tile) }) s1
  let s3 := { s2 with clusters := s2.clusters.map fun e => (e.1,
    { mxe := { e.2.mxe with queues := e.2.mxe.queues.map fun q => (q.1, q.2.filter fun j => !mine j) },
      cu := { e.2.cu with queues := e.2.cu.queues.map (fun q => (q.1, q.2.filter fun j => !mine j)),
                          slots := e.2.cu.slots.filter fun k => !mine k.job } : Cluster }) }
  unsched s3 fun a =>
    match a with
    | .eventBusyAnswer m => decide (m.partn = partn ∧ m.serial = serial)
    | .eventResend src _ => decide (src ∈ tiles)
    | .rendezvousTimeout u _ => decide (u ∈ us)
    | .saveWriteAcknowledgement _ u => decide (u ∈ us)
    | .contextSaveFault _ u _ _ => decide (u ∈ us)
    | .memberTimeout _ jid => (s.clusters.any fun e => e.2.cu.slots.any fun k => mine k.job && decide (k.job.jid = jid))
    | _ => false

/-- A request ends without a save (R166): threads at safe points go on. -/
def abandon (s : State) (partn serial out : Nat) : State :=
  match teamOf s partn serial with
  | none => s
  | some t =>
    let s1 := modTeam s partn serial fun t => { t with req := none }
    let s2 := forEach (teamThreads s1 partn serial) (fun s u =>
      modThread s u fun th => match th.wait with | .safept => unitOver (offBy th.pc 4) (s.cycle + 1) th | _ => th) s1
    let s3 := if (partOf s2 partn).preqSerial = some serial then preqOutcome s2 partn out else s2
    match t.req with
    | some .preq => s3
    | _ => startSlice s3 partn serial (now s3)

/-- What of a team goes on is stopped: its waits at homes, its rendezvous counts, its GATHERs and SCATTERs. -/
def stopTeam (s : State) (partn serial : Nat) : State :=
  stopAllLists (forEach (teamThreads s partn serial) (fun s u =>
    match threadOf s u with | some th => rvPause (withdrawSync s u th) u | none => s) s) partn serial

/-- The team is saved and its tiles are freed. -/
def saveTeam (s00 : State) (partn serial : Nat) (t : Team) : State :=
  let us := teamThreads s00 partn serial
  let s0 := readThrough s00 partn ((threadsOf s00 us).flatMap (tableReads s00))
  if !(badTables s0 us).isEmpty then forEach (badTables s0 us) tableFault s0
  else
    let s1 := stopTeam s0 partn serial
    let p := partOf s1 partn
    match poolSlot p with
    | none => abandon s0 partn serial 4
    | some slot =>
      let img := makeImage s1 partn serial t slot
      let ws := imageWords s1 img
      if p.tsps < 8 * ws.length ∨ p.tspb = 0 then abandon s0 partn serial 4
      else
        let s := readThrough s1 partn (rangeReads s1 partn ((threadsOf s1 us).flatMap fun th => (liveRanges s1 th).getD []))
        let base := offBy p.tspb (slot * p.tsps)
        let s2 := (ws.foldl (fun (a : State × Nat) w => (hwStore a.1 partn (offBy base (8 * a.2)) w, a.2 + 1)) (s, 0)).1
        let s3 := vacateTeam s2 partn serial
        let s4 := modPart s3 partn fun p => { p with teams := del p.teams serial, saved := p.saved ++ [img], saveOrder := p.saveOrder + 1 }
        let s5 := { s4 with timers := s4.timers.filter fun x => match x.2 with
          | .sliceExpiry a b _ => !decide (a = partn ∧ b = serial)
          | .preemptionTimeout a b _ => !decide (a = partn ∧ b = serial)
          | _ => true }
        scanNext (if p.preqSerial = some serial then preqOutcome s5 partn 0 else s5)

def execTeamSave (s : State) : Host.Outcome State Fault Refusal :=
  actRow s fun a s =>
    match a with
    | .teamSave partn serial =>
      if saveReady s partn serial then (teamOf s partn serial).map (saveTeam s partn serial) else none
    | _ => none

/-- A request passes PTMO (R166): it is abandoned, unless every thread was counted in time and no job of the copy unit keeps
the save waiting (R332): the other waits of a save are not bounded. -/
def execPreemptionTimeout (s : State) : Host.Outcome State Fault Refusal :=
  actRow s fun a s =>
    match a with
    | .preemptionTimeout partn serial stamp =>
      match teamOf s partn serial with
      | some t =>
        if t.req.isNone ∨ t.reqAt ≠ stamp then some s
        else if teamCounted s partn serial ∧ copyHolds s partn serial = false then some s
        else some (abandon s partn serial 2)
      | none => some s
    | _ => none

/-! ### Placement and restore (R381, R385) -/

/-- The words of an image as the pool now holds them (log 34): what lies there is what is restored. A word that cannot be
read counts as 0. -/
def poolWords (s : State) (img : Image) : State × List Word :=
  let p := partOf s img.partn
  let base := offBy p.tspb (img.slot * p.tsps)
  let r := (List.range (imageWords s img).length).foldl (fun (a : State × List Word) i =>
    let x := hwLoad a.1 img.partn (offBy base (8 * i)); (x.1, x.2.2 :: a.2)) (s, [])
  (r.1, r.2.reverse)

/-- Splits a list of words among the parts of a section, each of which takes as many as it has. -/
def shareOut {α : Type} (size : α → Nat) (f : α → List Word → α) (l : List α) (ws : List Word) : List α × List Word :=
  l.foldl (fun (a : List α × List Word) x => (a.1 ++ [f x (a.2.take (size x))], a.2.drop (size x))) ([], ws)

def pointFrom (w : Word) : Point := { expected := bits w 0 17, arrived := bits w 17 17, phase := bit w 34, closed := bit w 35 }

def ctxFrom (ws : List Word) : MxCtx :=
  let w := ws.getD 3 0
  { afmt := bits w 0 8, bfmt := bits w 8 8, rnd := bits w 16 3, rplanes := bits w 19 4, arec := ws.getD 0 0, brec := ws.getD 1 0,
    orec := ws.getD 2 0, chkN := bits w 24 8, chkR := bits w 32 6, cnt := bits w 40 8 }

def jobFrom (j : Job) (ws : List Word) : Job := { j with w0 := ws.getD 0 0, w1 := ws.getD 1 0, w2 := ws.getD 2 0, w3 := ws.getD 3 0 }

/-- Accumulator bytes with those words that differ from the saved ones put in. -/
def accFrom (c : CoreImage) (ws : List Word) : List Host.Cell :=
  ((regionOf c).zip ws).zipIdx.foldl (fun m x =>
    if x.1.1 = x.1.2 then m else memPutWord m (c.tile * 32768 + 8 * x.2) x.1.2) c.acc

/-- A core's part of the image from its words. -/
def coreFrom (c : CoreImage) (ws : List Word) : CoreImage :=
  let d := shareOut (fun _ => 4) (fun (_ : Range) w => { lo := w.getD 0 0, hi := w.getD 1 0, tag := w.getD 2 0 }) c.deque (ws.drop 1)
  let e := shareOut (fun _ => 4) (fun (x : Event) w => { x with t := w.getD 0 0, pay0 := w.getD 1 0, pay1 := w.getD 2 0 })
    c.evu.pending (d.2.drop 0x60)
  let a := e.2.drop 4096
  let m := shareOut (fun _ => 4) jobFrom c.mjobs (a.drop 4)
  let k := shareOut (fun _ => 4) jobFrom c.cjobs m.2
  { c with deque := d.1, evu := { c.evu with pending := e.1 }, acc := accFrom c (e.2.take 4096), ctx := ctxFrom (a.take 4),
           mjobs := m.1, cjobs := k.1 }

/-- A range's words and bits from the pool; a word that was not saved stays so. -/
def rangeFrom (r : SavedRange) (ws : List Word) : SavedRange :=
  let n := r.words.length
  let bs := (ws.drop (2 + n)).flatMap fun w => (List.range 64).map fun i => bit w i
  { r with words := ((r.words.zip ((ws.drop 2).take n)).zip bs).map fun x => x.1.1.map fun w => { w with val := x.1.2, full := x.2 } }

/-- The image that the pool's words make. -/
def imageFrom (s : State) (img : Image) (ws : List Word) : Image :=
  let t := shareOut (fun _ => 128) (fun (x : SavedThread) w => { x with th := fromRecord w x.th }) img.threads (ws.drop 8)
  let r := shareOut (fun (x : SavedThread) => x.grans.length)
    (fun x w => { x with grans := (x.grans.zip w).map fun g => (g.1.1, g.2) }) t.1 t.2
  let points := (List.range 24).foldl (fun m k =>
    let p := pointFrom (r.2.getD k 0)
    if p = pointOf img.team k then m else ins m k p) img.team.points
  let c := shareOut (fun c => (coreWords s img c).length) coreFrom img.cores (r.2.drop 24)
  let g := shareOut (fun x => (rangeWords x).length) rangeFrom img.ranges c.2
  { img with threads := r.1, team := { img.team with points := points }, cores := c.1, ranges := g.1 }

/-- A restored thread: in its own slot, its rows as they were saved; it goes on where it was counted. A slot that has been
disabled meanwhile is emptied as R81 says. -/
def restoreThread (s : State) (x : SavedThread) : State :=
  let s0 := x.grans.foldl (fun s g => granSet x.th.tile g.1 g.2 s) s
  let s1 := modTile s0 x.th.tile fun t => { t with poolPois := x.pois.foldl setAdd t.poolPois }
  let off := decide (x.th.slot ∈ (tileOf s x.th.tile).disabled)
  let t := { x.th with stand := .inSlot, displaced := none, away := none, saved := [], leaving := if off then 2 else 0,
                       readyAt := s.cycle + 1 }
  let t1 := match t.wait with | .safept => unitOver (offBy t.pc 4) (s.cycle + 1) t | _ => t
  let s2 := { s1 with threads := ins s1.threads x.uid t1 }
  match t1.wait with
  | .rvwait _ => if t1.held then s2 else rvCount s2 x.uid
  | _ => s2

/-- A restored core: deque, event unit, region, context, jobs in queue order. Nothing is sent (R365); the wait of 64 cycles
before held events are sent again starts afresh (R350, log 34). -/
def restoreCore (s : State) (c : CoreImage) : State :=
  let cl := clusterOfTile c.tile
  let ci := coreInCluster c.tile
  let now_ := fun (l : List Job) => l.map fun j => { j with enq := s.cycle }
  let s1 := modTile s c.tile fun t =>
    { t with deque := c.deque, dqsp := c.dqsp, evsp := c.evsp, evu := { c.evu with snap := none, drops := t.evu.drops } }
  let s2 := { s1 with acc := c.acc.foldl (fun m b => memSet m b.1 b.2) (s1.acc.filter fun b => decide (b.1 / 32768 ≠ c.tile)) }
  let s3 := modMxe s2 cl fun m => { m with ctxs := ins m.ctxs ci c.ctx, queues := ins m.queues ci (now_ c.mjobs) }
  let s4 := modCu s3 cl fun m => { m with regs := ins m.regs ci c.regs, queues := ins m.queues ci (now_ c.cjobs) }
  let s5 := spillRestore s4 c.tile
  (c.evu.held.map (·.dst)).eraseDups.foldl (fun s d => schedAt s (s.cycle + 64) (.eventResend c.tile d)) s5
where
  /-- The spill words of the deque and of the event ring; a lodged block is not overwritten (R214). -/
  spillRestore (s : State) (tile : Nat) : State :=
    (dequeWords s tile ++ ringWords s tile).foldl (fun s w =>
      if (partAt s tile).any (fun n => inLodged s n (tilePtr s n tile w.1)) then s else spillStore s tile w.1 w.2) s

/-- A saved word goes to the home that its offset now reaches; a lodged block is not overwritten (R214). -/
def restoreWord (s : State) (partn : Nat) (q : Ptr) (w : SavedWord) : State :=
  if inLodged s partn q then s
  else
    match hwKey s partn q true false with
    | (s1, .ok k) =>
      let s2 := writeWord s1 k w.val w.full
      if w.pois then { s2 with poison := setAdd s2.poison k } else s2
    | (s1, _) => s1

def restoreRange (partn : Nat) (s : State) (r : SavedRange) : State :=
  r.words.zipIdx.foldl (fun s x => match x.1 with | some w => restoreWord s partn (offBy r.ptr (8 * x.2)) w | none => s) s

/-- Pushes that were saved parked on the device queue enter it as far as its 64 entries have room now (R116, R377,
R385). -/
def unparkRestored (partn : Nat) : Nat → State → State
  | 0, s => s
  | n + 1, s =>
    if (partOf s partn).devq.length < 64 then unparkRestored partn n (unparkPush s 2 fun j => decide (j.partn = partn)) else s

def restoreTeam (s : State) (p : Placement) : Option State :=
  match (partOf s p.partn).saved.find? fun i => decide (i.serial = p.serial), teamOf s p.partn p.serial with
  | some img0, some _ =>
    let r := poolWords s img0
    let img := imageFrom r.1 img0 r.2
    let s1 := modPart r.1 p.partn fun q =>
      { q with saved := q.saved.filter (fun i => decide (i.serial ≠ p.serial)), teams := ins q.teams p.serial img.team }
    let s2 := img.ranges.foldl (restoreRange p.partn) s1
    let s3 := img.cores.foldl restoreCore s2
    let s4 := unparkRestored p.partn img.threads.length (img.threads.foldl restoreThread s3)
    some (startSlice s4 p.partn p.serial (now s4))
  | _, _ => none

def execPlacement (s : State) : Host.Outcome State Fault Refusal :=
  actRow s fun a s =>
    match a with
    | .placement p => if p.restore then restoreTeam s p else placementDone s p
    | _ => none

end Sys2Proof.Machine
end

