-- ==== Sys2Proof/Machine/Device.lean ====
section
/-! DEFINITION. The acts of homes, firmware, controllers, links and the calend network: relocation (R206-R213), errors,
containment and row sparing (R412-R420), checkpoints (R421-R423), links and peers (R324, R427-R429), bring-up, firmware
and keys (R372, R430, R431), broadcasts (R15, R179, R204, R205). -/

namespace Sys2Proof.Machine

/-! ### Broadcasts and notices (R15, R204, R420) -/

def noticeEntry (s : State) (code tag : Nat) (addr : Word) : Entry :=
  { cause := 0, tid := 0, addr := addr, pc := 0, info := ofN code, tsc := now s, loc := 0, flags := 0, src := srcFirmware, tag := tag }

/-- What a notice is about (R151): a channel, a tile bank, a link. -/
def tagChan (ch : Nat) : Nat := 1 + ch
def tagBank (tile bank : Nat) : Nat := 64 + 16 * tile + bank
def tagLink (l : Nat) : Nat := 2 ^ 17 + l

/-- A notice of a channel, bank or link is held unposted. -/
def noticeHeld (s : State) (tag : Nat) : Bool :=
  s.hostEnt.any (fun e => decide (e.tag = tag)) || s.parts.any fun x => x.2.heldEnt.any fun e => decide (e.tag = tag)

/-- A notice is announced by broadcast (R420); none is raised while one of its channel, bank or link is held (R151). -/
def notice (s : State) (parts : List Nat) (code tag : Nat) (addr : Word) : State :=
  if noticeHeld s tag then s else (submit s srcFirmware (.notice parts true (noticeEntry s code tag addr))).1

/-- A notice whose address no rule states: a free value. -/
def openNotice (s : State) (parts : List Nat) (code tag : Nat) : State :=
  notice (freshFree s) parts code tag (Config.openWord s.fresh)

/-- Cached leaves that a shootdown names are dropped (R179). -/
def shoot (s : State) (partn : Nat) (v : Word) : State :=
  let base := bits v 12 34 * 4096
  let size := pageSize (bits v 48 3)
  let keep := fun (l : Leaf) => decide (l.partn ≠ partn) || (!bit v 51 && (decide (l.base + pageSize l.lvl ≤ base) || decide (base + size ≤ l.base)))
  { s with ports := s.ports.map fun e => (e.1, { e.2 with leaves := e.2.leaves.filter keep }) }

/-- An access that is injected from now on goes by the maps of its injection (R16): its home, its way and its time of arrival
are those of the new maps. -/
def remapLater (s : State) : State :=
  { s with agenda := (s.agenda.map fun x =>
      match x.act with
      | .homeAccess r =>
        if now s ≤ r.inj ∧ r.legs = 0 then
          match placeOn s r.partn r.inj r.at_ with
          | some pl =>
            let ow := owTo s r.src pl
            { x with cycle := x.cycle + ow + baseLat pl false - r.ow - baseLat r.home false,
                     act := .homeAccess { r with home := pl, ow := ow } }
          | none => x
        else x
      | _ => x).foldl enterTimed [] }

/-- The logical tiles of a die whose physical column lies between two. -/
def columnTiles (s : State) (die a b : Nat) : List Nat :=
  (List.range 4096).filter fun t =>
    let x := (physTile s t).1 % 33
    decide (dieOf t = die ∧ min a b ≤ x ∧ x ≤ max a b)

/-- Firmware may change a die's bad column: no team is placed on the columns between, and no present or forwarded block of
a partition lies there (R174). -/
def substOk (s : State) (die b : Nat) : Bool :=
  (columnTiles s die (badOf s die) b).all fun t =>
    match partAt s t with
    | none => true
    | some n =>
      (partOf s n).teams.all (fun e => decide (t ∉ teamTiles s n e.1))
        && decide (((tileOf s t).blocks.filter fun k => decide (k.2.st = .vacated)).length = 4096)

/-- A broadcast takes effect. A substitution whose columns have been used since it was submitted waits again for them to be
empty (R174). A shootdown restarts the partition's walks under way; a notice keeps the tick at which it was raised (R14). -/
def castEffect (s : State) : BcKind → State
  | .substitution die b =>
    if substOk s die b then remapLater { s with bad := ins s.bad die b } else { s with substs := s.substs ++ [(die, b)] }
  | .create n => let s1 := createEffect s n; remapLater { s1 with bootStep := max s1.bootStep 9 }
  | .delete n => remapLater (deleteEffect s n)
  | .shootdown n v => forEach (s.ports.map (·.1)) (fun s port => restartWalks s n port) (shoot s n v)
  | .notice ps host e =>
    let s1 := forEach ps (fun s n => postSup s n e) s
    if host then postHost s1 e else s1

/-- A substitution that firmware is asked for and may make is submitted as a broadcast (R15, R204). -/
def substDue (s : State) : Option State :=
  (s.substs.find? fun x => substOk s x.1 x.2).map fun x =>
    (submit { s with substs := s.substs.erase x } srcFirmware (.substitution x.1 x.2)).1

/-- Broadcasts due, in order of source, then of submission. -/
def inSourceOrder (l : List Broadcast) : List Broadcast := l.foldl put []
where
  put (l : List Broadcast) (x : Broadcast) : List Broadcast :=
    match l with
    | [] => [x]
    | y :: t => if x.src < y.src then x :: y :: t else y :: put t x

/-- The injection tick of an access that has not been performed. -/
def outstandingInj (partn : Nat) : Act → Option Nat
  | .homeAccess r => if r.partn = partn then some r.inj else none
  | .busyResend r => if r.partn = partn then some r.inj else none
  | .eventEntry m => if m.partn = partn then some m.inj else none
  | .eventBusyAnswer m => if m.partn = partn then some m.inj else none
  | .stealVisit m => if m.partn = partn then some m.inj else none
  | _ => none

/-- The injection an agenda entry still stands for, or the tick given where it stands for none. -/
def pendingInj (s : State) (partn : Nat) (x : Timed) (other : Nat) : Nat :=
  let leap := fun (m : LeapMsg) => match threadOf s m.uid with | some th => if th.partn = partn then m.inj else other | none => other
  match outstandingInj partn x.act with
  | some i => i
  | none => match x.act with
    | .rputArrival m => if m.partn = partn then x.age else other
    | .linkRegistration m => if m.partn = partn then x.age else other
    | .almanacMessage m => if m.partn = partn then x.age else other
    | .vigilEvent m => if m.partn = partn then x.age else other
    | .leapArrival m => leap m
    | .leapBounce m => leap m
    | .leapResend m => leap m
    | _ => other

/-- The oldest outstanding injection of a partition, or the present tick (R205). An act of the hardware that a move holds
stands for accesses that reached the block since the move began. -/
def oldestInj (s : State) (partn : Nat) : Nat :=
  let reqs := (s.tiles.flatMap fun e => e.2.waiters) ++ s.ports.flatMap fun e => e.2.waiters ++ e.2.walks.map (·.r)
  let held := s.tiles.flatMap fun e => match e.2.move with
    | some m => m.held.filterMap (fun a => match a with
        | .homeAccess _ => outstandingInj partn a
        | _ => if m.partn = partn then some m.since else none) ++ (if m.stalled ≠ [] ∧ m.partn = partn then [m.since] else [])
    | none => []
  let sent := (s.tiles.flatMap fun e => e.2.evu.held).filterMap fun m => if m.partn = partn then some m.inj else none
  let queued := (s.tiles.flatMap fun e => e.2.arrivals).filterMap fun m =>
    (threadOf s m.uid).bind fun th => if th.partn = partn then some m.inj else none
  let a := s.agenda.foldl (fun n x => min n (pendingInj s partn x (now s))) (now s)
  (held ++ sent ++ queued).foldl min (reqs.foldl (fun n r => if r.partn = partn then min n r.inj else n) a)

/-- A calend begins: broadcasts take effect and DRAIN moves (R15, R205). -/
def calendTurns (s : State) : State :=
  let c := now s / 64
  let due := inSourceOrder (s.casts.filter fun b => decide (b.calend ≤ c))
  let s1 := due.foldl (fun s b => castEffect s b.kind) { s with casts := s.casts.filter (fun b => decide (c < b.calend)), calend := c }
  { s1 with parts := s1.parts.map fun e => (e.1, { e.2 with drain := e.2.drainReport, drainReport := oldestInj s1 e.1 }) }

def execCalendBoundary (s : State) : Host.Outcome State Fault Refusal :=
  actRow s fun a s => match a with | .calendBoundary => if s.calend < now s / 64 then some (calendTurns s) else none | _ => none

/-- A TSHD write (R179): ignored with a bit out of range. -/
def execTranslationShootdown (s : State) : Host.Outcome State Fault Refusal :=
  actRow s fun a s =>
    match a with
    | .translationShootdown partn tile v =>
      if bits v 0 12 ≠ 0 ∨ bits v 46 2 ≠ 0 ∨ bits v 52 12 ≠ 0 ∨ (bits v 48 3 = 7 ∧ bit v 51 = false) then some s
      else
        let r := submit s tile (.shootdown partn v)
        some (modPart r.1 partn fun p => { p with tshs := r.2 })
    | _ => none

/-! ### Relocation (R206-R213) -/

/-- A log record (R209): dropped without a ring or with a full one, and where the ring's page cannot be written, with RLGW
as it was: the rule gives that failure no outcome (DESIGN CHOICE, log 92). -/
def logMove (s : State) (partn reason status : Nat) (old new : Word) : State :=
  let p := partOf s partn
  if p.rlgb = 0 ∨ p.rlgn = 0 ∨ sub32 p.rlgw p.rlgr = p.rlgn then s
  else
    let q := offBy p.rlgb (32 * (p.rlgw % p.rlgn))
    match hwKey s partn q true false with
    | (s1, .bad _ _ _) => s1
    | (s1, .ok _) =>
      modPart (hwRecord s1 partn q [ofN (reason + status * 16), old, new, ofN (now s)]) partn fun p =>
        { p with rlgw := (p.rlgw + 1) % 2 ^ 32 }

def blockPtr (s : State) (partn tile b : Nat) : Ptr := tilePtr s partn tile (256 * b)

/-- A valid destination (R210): a kind-0 pointer inside the partition, 256-aligned, present or vacated, and not the
source. -/
def destOk (s : State) (partn tile b : Nat) (p : Ptr) : Bool :=
  decide (pKind p = 0) && decide (limitsOf s partn p = 0) && decide (pOff p % 256 = 0) &&
    match guestTile s partn (pX p) (pY p) with
    | some t => decide ((blockAt s t (pOff p / 256)).st ≠ .forwarded)
        && !(decide (t = tile) && decide (pOff p / 256 = b))
    | none => false

/-- Starts a move: it is over after D (R211). -/
def startMove (s : State) (partn tile reason b : Nat) (dest : Ptr) (ack : Option Req) : State :=
  let t := (guestTile s partn (pX dest) (pY dest)).getD tile
  let d := 64 + 4 * hops (physTile s tile) (physTile s t) + 16 * crossings (physTile s tile) (physTile s t)
  let m : Move := { partn := partn, since := now s, reason := reason, block := b, dest := dest, ack := ack, latest := true, held := [],
                    stalled := [] }
  schedAt (modTile s tile fun k => { k with move := some m })
    (s.cycle + d) (.moveCompletion tile)

/-- Takes pool entries until one is a valid destination: the next of the tile's queued moves starts (R207). An entry that
cannot be read counts as the pointer 0, and word 2 of a status-2 record holds the entry that was passed over (DESIGN CHOICE,
log 92). -/
def takePool (partn tile reason b : Nat) : Nat → State → State
  | 0, s => s
  | n + 1, s =>
    let p := partOf s partn
    if p.rlpn = 0 ∨ p.rlpb = 0 ∨ sub32 p.rlpw p.rlpr = 0 then
      if (tileOf s tile).poolWait then s
      else logMove (modTile s tile fun t => { t with poolWait := true }) partn reason 1 (blockPtr s partn tile b) 0
    else
      let r := hwLoad s partn (offBy p.rlpb (8 * (p.rlpr % p.rlpn)))
      let s1 := modPart r.1 partn fun q => { q with rlpr := (q.rlpr + 1) % 2 ^ 32 }
      if destOk s1 partn tile b r.2.2 then
        startMove (modTile s1 tile fun t => { t with moves := t.moves.drop 1, poolWait := false }) partn tile reason b r.2.2 none
      else takePool partn tile reason b n (logMove s1 partn reason 2 (blockPtr s partn tile b) r.2.2)

/-- The next queued move of a tile starts, if none is under way; blocks that are no longer present are passed over, with the
wait of such a block for the pool. -/
def moveNext (s : State) (tile : Nat) : State :=
  if (tileOf s tile).move.isSome then s
  else
    let s1 := modTile s tile fun t =>
      let l := t.moves.dropWhile fun m => decide ((lookD t.blocks m.2 Block.reset).st ≠ .present)
      { t with moves := l, poolWait := t.poolWait && decide (l = t.moves) }
    match (tileOf s1 tile).moves, partAt s1 tile with
    | (reason, b) :: _, some partn => takePool partn tile reason b (sub32 (partOf s1 partn).rlpw (partOf s1 partn).rlpr + 1) s1
    | _, _ => s1

def queueMoves (s : State) (tile reason : Nat) (banks : List Nat) : State :=
  let bs := (banks.flatMap fun b => (List.range 256).map fun i => 256 * b + i).filter fun b =>
    decide ((blockAt s tile b).st = .present) && !((tileOf s tile).moves.any fun m => decide (m.2 = b))
  moveNext (modTile s tile fun t => { t with moves := t.moves ++ bs.map fun b => (reason, b) }) tile

/-- The outcome of an RLCMD write; the acknowledgement that waited for it goes out. An earlier write whose move ends
later leaves the outcome of the latest one (R210). -/
def rlDone (s : State) (tile out : Nat) (ack : Option Req) : State :=
  let s1 := modTile s tile fun t => { t with rlout := out, move := t.move.map fun m => { m with latest := false } }
  match ack with | some r => answer s1 r (.done [] 0) | none => s1

def execRelocate (s : State) : Host.Outcome State Fault Refusal :=
  actRow s fun a s =>
    match a with
    | .relocate tile b =>
      let t := tileOf s tile
      let s1 := modTile s tile fun k => { k with rlReq := none }
      if t.move.isSome then some (rlDone s1 tile 3 t.rlReq)
      else if (blockAt s tile b).st ≠ .present then some (rlDone s1 tile 1 t.rlReq)
      else
        match partAt s tile with
        | none => some (rlDone s1 tile 2 t.rlReq)
        | some partn =>
          if destOk s1 partn tile b t.rldst then some (startMove s1 partn tile 3 b t.rldst t.rlReq)
          else some (rlDone s1 tile 2 t.rlReq)
    | _ => none

/-- Actions 2 and 3 of RLCMD. -/
def blockRow (s : State) (tile b : Nat) (old new : BlockState) : State :=
  if (tileOf s tile).move.isSome then rlDone s tile 3 none
  else if (blockAt s tile b).st ≠ old then rlDone s tile 1 none
  else
    rlDone (modBlock s tile b fun k =>
      if new = .present then { k with st := new, lodged := false, count := 0 } else { k with st := new, stub := 0 }) tile 0 none

def execRetireStub (s : State) : Host.Outcome State Fault Refusal :=
  actRow s fun a s => match a with | .retireStub tile b => some (blockRow s tile b .forwarded .vacated) | _ => none

def execReinstate (s : State) : Host.Outcome State Fault Refusal :=
  actRow s fun a s => match a with | .reinstate tile b => some (blockRow s tile b .vacated .present) | _ => none

def execThermalEvacuation (s : State) : Host.Outcome State Fault Refusal :=
  actRow s fun a s => match a with | .thermalEvacuation tile banks => some (queueMoves s tile 2 banks) | _ => none

def execPoolSupply (s : State) : Host.Outcome State Fault Refusal :=
  actRow s fun a s =>
    match a with
    | .poolSupply partn v =>
      let s1 := modPart s partn fun p => { p with rlpw := bits v 0 32 }
      some (forEach ((s1.tiles.filter fun e => !e.2.moves.isEmpty).map (·.1)) (fun s t => if partAt s t = some partn then moveNext s t else s) s1)
    | _ => none

/-- Copies the 32 words of a block with bits and poison. -/
def copyBlock (s : State) (k1 k2 : Nat) : State :=
  (List.range 32).foldl (fun s i =>
    let a := k1 + 8 * i
    let b := k2 + 8 * i
    let s1 := putWord s b (wordAt s a) (wordFull s a)
    if wordPois s a then { s1 with poison := setAdd s1.poison b } else s1) s

/-- A waiter of a moved word at the new home, in its place by first arrival (R113); one that finds no room is answered
busy. -/
def moveWaiter (k1 k2 leg : Nat) (s : State) (r : Req) : State :=
  let q := { r with key := k2 + (r.key - k1), ow := r.ow + leg, legs := r.legs + leg }
  if 64 ≤ waitsAt s k2 then answerBusy (dropTimeout s r) q
  else
    let s1 := setWaiters s k2 (queueWait q (waitersAt s k2))
    { s1 with agenda := s1.agenda.map fun x => match x.act with
      | .syncTimeout w => if sameReq w r then { x with act := .syncTimeout q } else x
      | _ => x }

/-- The move is made (R211): waiters go, words are copied, the directory changes, held accesses are released in arrival
order, the record is written. The move goes by the maps of its start (R16). -/
def moveEnds (s : State) (tile : Nat) (m : Move) : State :=
  let partn := m.partn
  match destBlock s m with
  | none => modTile s tile fun t => { t with move := none }
  | some (t, b) =>
    let k1 := keySpad tile (256 * m.block)
    let k2 := keySpad t (256 * b)
    let mine := fun (r : Req) => decide (k1 ≤ r.key ∧ r.key < k1 + 256)
    let ws := (tileOf s tile).waiters.filter mine
    let s1 := modTile s tile fun x => { x with waiters := x.waiters.filter (fun r => !mine r), move := none }
    let s2 := ws.foldl (moveWaiter k1 k2 (owTiles s tile t)) (copyBlock s1 k1 k2)
    let s3 := modBlock s2 t b fun k => { k with st := .present, lodged := true, count := 0, stub := 0 }
    let s4 := modBlock s3 tile m.block fun k => { k with st := .forwarded, lodged := false, count := 0, stub := m.dest }
    let s5 := (List.range 32).foldl (fun s i => serve s (k2 + 8 * i)) s4
    let s6 := m.held.foldl (fun s a => sched s { cycle := s.cycle, late := false, age := 0, src := 0, act := a }) s5
    let s7 := logMove s6 partn m.reason 0 (blockPtr s partn tile m.block) m.dest
    let s8 := match m.ack with | some r => answer s7 r (.done [] 0) | none => s7
    moveNext (if m.reason = 3 ∧ m.latest then rlDone s8 tile 0 none else s8) tile

def execMoveCompletion (s : State) : Host.Outcome State Fault Refusal :=
  actRow s fun a s => match a with | .moveCompletion tile => (tileOf s tile).move.map (moveEnds s tile) | _ => none

/-! ### Errors (R412-R414, R419, R420) -/

def partsOfTile (s : State) (tile : Nat) : List Nat := match partAt s tile with | some n => [n] | none => []

def execCorrectedError (s : State) : Host.Outcome State Fault Refusal :=
  actRow s fun a s =>
    match a with
    | .correctedError tile bank =>
      let c := corrOf (tileOf s tile) bank
      let n := min (c.1 + 1) 0xFFFFFFFF
      let s1 := modTile s tile fun t => { t with corr := ins t.corr bank (n, c.2) }
      some (if n = c.2 then openNotice (queueMoves s1 tile 1 [bank]) (partsOfTile s tile) 2 (tagBank tile bank) else s1)
    | _ => none

def execUncorrectableError (s : State) : Host.Outcome State Fault Refusal :=
  actRow s fun a s =>
    match a with
    | .uncorrectableError (.memory k) => some { s with poison := setAdd s.poison (k / 8 * 8) }
    | .uncorrectableError (.scalar u r) => some (modThread s u fun t => { t with sPois := t.sPois ||| (1#32 <<< r.val) })
    | .uncorrectableError (.pred u p) => some (modThread s u fun t => { t with pPois := t.pPois ||| (1#8 <<< p.val) })
    | .uncorrectableError (.mask u m) => some (modThread s u fun t => { t with mPois := t.mPois ||| (1#8 <<< m.val) })
    | .uncorrectableError (.granule tile g) => some (modTile s tile fun t => { t with poolPois := setAdd t.poolPois g })
    | _ => none

/-- A parity error is corrected by replaying the unit: 8 cycles more (R412). -/
def execParityReplay (s : State) : Host.Outcome State Fault Refusal :=
  actRow s fun a s =>
    match a with
    | .parityReplay u => some (modThread s u fun t => { t with readyAt := max t.readyAt s.cycle + 8 })
    | _ => none

/-- The lowest spare of a bank that is neither bad nor in use. -/
def freeSpare (p : Port) (bank : Nat) : Option Nat :=
  (List.range 32).find? fun k => decide ((bank, k) ∉ p.badSpares) && !(p.spared.any fun x => decide (x.1 = bank ∧ x.2.2 = k))

/-- The partitions whose channel list holds a channel. -/
def chanParts (s : State) (ch : Nat) : List Nat :=
  (s.parts.filter fun e => match e.2.frame with | some f => decide (ch ∈ f.chans) | none => false).map (·.1)

/-- Starts the copy of a row into a spare, or asks for its retirement; `row` is the row's physical address in 4 KiB. The copy
takes a time that no rule states (log 91). -/
def spareRow (s : State) (ch bank row : Nat) : State :=
  match freeSpare (portOf s ch) bank with
  | some k =>
    schedAt (modPort s ch fun p => { p with copying := some { bank := bank, row := row, spare := k } }) (s.cycle + 1 + Config.rowCopy)
      (.spareSwitch ch)
  | none => notice (modPort s ch fun p => { p with copying := none }) (chanParts s ch) 1 (tagChan ch) (ofN (ch + row % 2 ^ 34 * 4096))

/-- A row is spared now, or once the copy under way is over. -/
def spareLater (ch : Nat) (s : State) (x : Nat × Nat) : State :=
  if (portOf s ch).copying.isSome then modPort s ch fun p => { p with toSpare := p.toSpare ++ [x] } else spareRow s ch x.1 x.2

/-- The rows that waited for a copy. -/
def spareWaiting (s : State) (ch : Nat) : State :=
  (portOf s ch).toSpare.foldl (spareLater ch) (modPort s ch fun p => { p with toSpare := [] })

/-- A row's corrected errors, by bank and row. -/
def rowErrKey (bank row : Nat) : Nat := bank * 2 ^ 34 + row % 2 ^ 34

/-- A corrected error of a row (R419): its fourth spares the row. -/
def rowError (s : State) (ch bank row : Nat) : State :=
  let n := lookD (portOf s ch).rowErrs (rowErrKey bank row) 0 + 1
  let s1 := modPort s ch fun p => { p with rowErrs := ins p.rowErrs (rowErrKey bank row) n }
  if n = 4 then spareLater ch s1 (bank, row) else s1

def execRowSparing (s : State) : Host.Outcome State Fault Refusal :=
  actRow s fun a s => match a with | .rowSparing ch bank row => some (rowError s ch bank row) | _ => none

/-- The copy is over: the spare takes the row's place in one step. -/
def execSpareSwitch (s : State) : Host.Outcome State Fault Refusal :=
  actRow s fun a s =>
    match a with
    | .spareSwitch ch =>
      (portOf s ch).copying.map fun c =>
        spareWaiting (modPort s ch fun p => { p with spared := p.spared ++ [(c.bank, c.row, c.spare)], copying := none }) ch
    | _ => none

/-- An error in the spare being written: it is marked bad, and the copy starts again into the next. -/
def execSpareRowError (s : State) : Host.Outcome State Fault Refusal :=
  actRow s fun a s =>
    match a with
    | .spareRowError ch =>
      (portOf s ch).copying.map fun c =>
        let s1 := unsched (modPort s ch fun p => { p with badSpares := p.badSpares ++ [(c.bank, c.spare)] }) fun a =>
          match a with | .spareSwitch k => decide (k = ch) | _ => false
        let s2 := spareRow s1 ch c.bank c.row
        if (portOf s2 ch).copying.isSome then s2 else spareWaiting s2 ch
    | _ => none

/-! ### Containment (R416-R418, R306, R344, R367) -/

def rectTiles (s : State) (partn : Nat) (r : Rect) : List Nat :=
  match frameOf s partn with
  | none => []
  | some f => (List.range r.h).flatMap fun j => (List.range r.w).map fun i => tileAt f (r.x + i) (r.y + j)

/-- The engines of a core inside are cleared; the other members of a collective that it had joined end FENCED (R335,
R344): those of its team at once, those on other devices as this device tells them. -/
def clearEngines (s : State) (tile : Nat) : State :=
  let cl := clusterOfTile tile
  let ci := coreInCluster tile
  let c := clusterAt s cl
  let gone := c.cu.slots.filter fun k => decide (k.ci = ci)
  let stop := fun (r : Option Running) => r.filter fun x => decide (x.ci ≠ ci)
  let s1 := modMxe s cl fun m => { m with queues := del m.queues ci, ctxs := del m.ctxs ci, run := stop m.run }
  let s2 := modCu s1 cl fun m => { m with queues := del m.queues ci, run := stop m.run, slots := m.slots.filter (fun k => decide (k.ci ≠ ci)), regs := del m.regs ci }
  let s3 := unsched s2 fun a => match a with
    | .jobEnd k cu => decide (k = cl) && (if cu then c.cu.run.any fun r => decide (r.ci = ci) else c.mxe.run.any fun r => decide (r.ci = ci))
    | _ => false
  let s4 := { s3 with acc := s3.acc.filter fun b => decide (b.1 / 32768 ≠ tile) }
  forEach gone (fun s g =>
    if g.key.team.isSome then collEnds s g.key 6 7 else { s with outbox := s.outbox ++ [.collFenced g.key g.rank] }) s4

/-- A core inside: accesses that wait there are answered fenced, its memories and its event unit are cleared. -/
def clearCore (s : State) (tile : Nat) : State :=
  let t := tileOf s tile
  let held := match t.move with | some m => m.held | none => []
  let waiting := t.waiters ++ held.filterMap fun a => match a with | .homeAccess r => some r | _ => none
  let s1 := modTile s tile fun k =>
    { k with waiters := [], move := none, moves := [], blocks := [], pool := [], poolEmpty := [], poolPois := [], deque := [],
             orphan := Tile.reset.orphan, evu := Evu.reset, cache := [] }
  let s2 := unsched s1 fun a =>
    match a with
    | .moveCompletion k => decide (k = tile)
    | .eventBusyAnswer m => decide (m.src = tile)
    | .eventResend src _ => decide (src = tile)
    | _ => false
  let inside := fun (k : Nat) => decide (k < 2 ^ 40 ∧ k / 2 ^ 20 = tile)
  let s3 := { s2 with mem := s2.mem.filter (fun c => !inside c.1), empty := s2.empty.filter (fun k => !inside k), poison := s2.poison.filter fun k => !inside k }
  let s4 := forEach (held.filter fun a => match a with | .homeAccess _ => false | _ => true) (fun s a => schedAt s s.cycle a) s3
  clearEngines (forEach waiting (fun s r => partFails (dropTimeout s r) r 0x08 6 false) s4) tile

/-- Every team with a thread inside ends: the threads inside at once, the others as PREQ action 2 ends them (R416); the event
units inside are cleared first and send no promise (R367). -/
def containment (s0 : State) (partn rect : Nat) : State :=
  let tiles := rectTiles s0 partn (rectOf (partOf s0 partn) rect)
  let s := forEach tiles (fun s t => modEvu s t fun _ => Evu.reset) s0
  let inside := threadsWhere s fun _ th => decide (th.partn = partn ∧ th.tile ∈ tiles)
  let teams := ((threadsOf s inside).map (·.serial)).eraseDups
  let s1 := forEach teams (fun s n => terminateTeam s partn n) (forEach inside endThread (forEach teams (fun s n => teamEnds s partn n) s))
  checkTeams (forEach tiles clearCore s1) partn

def execContainmentReset (s : State) : Host.Outcome State Fault Refusal :=
  actRow s fun a s =>
    match a with
    | .containmentReset partn rect => if (rectOf (partOf s partn) rect).fenced then some (containment s partn rect) else none
    | _ => none

def execUnfence (s : State) : Host.Outcome State Fault Refusal :=
  actRow s fun a s =>
    match a with
    | .unfence partn rect => some (scanNext (modPart s partn fun p => { p with rects := upd p.rects rect fun r => { r with fenced := false } }))
    | _ => none

/-! ### Checkpoints (R421-R423) -/

/-- The key of a byte of the image: striped over the controllers by 4 KiB granules (R421, R171). -/
def retentionKey (o : Nat) : Nat := keyTier2 (o / 4096 % 16) (0x1300000000 + o / 4096 / 16 * 4096 + o % 4096)

/-- A key of the retention region. -/
def inRetention (k : Nat) : Bool :=
  decide (2 ^ 44 ≤ k ∧ k < 2 ^ 44 + 16 * 2 ^ 37) && decide (0x1300000000 ≤ (k - 2 ^ 44) % 2 ^ 37 ∧ (k - 2 ^ 44) % 2 ^ 37 < 0x1800000000)

/-- Where the sections begin: channels, scratchpads, accumulators, register files. -/
def imgChan : Nat := 4096
def imgSpad : Nat := imgChan + 48 * portCap 0
def imgAcc : Nat := imgSpad + 4096 * 2 ^ 20
def imgPool : Nat := imgAcc + 4096 * 32768

/-- The place in the image of a byte of tier one or of a scratchpad. -/
def imageOff (k : Nat) : Option Nat :=
  if k < 2 ^ 40 then some (imgSpad + k)
  else if k < 2 ^ 44 then some (imgChan + (k - 2 ^ 40) / 2 ^ 33 * portCap 0 + (k - 2 ^ 40) % 2 ^ 33)
  else none

/-- The accumulator bytes in cluster order. -/
def accImage (a : Nat) : Nat :=
  let tile := a / 32768
  imgAcc + (8 * clusterOfTile tile + coreInCluster tile) * 32768 + a % 32768

/-- Where the granules of a tile lie in the image. -/
def poolImage (tile g : Nat) : Nat := imgPool + tile * 32768 + 8 * g

/-- Writes the image of the frozen device; encrypted lines as they lie there (R372). -/
def writeImage (s0 : State) : State :=
  let s := s0.cipher.foldl (fun s e => setView s (64 * e.1) 0) s0
  let keep := fun (k : Nat) => !inRetention k
  let m0 := s.mem.filter fun c => keep c.1
  let m1 := s.mem.foldl (fun m c => match imageOff c.1 with | some o => memSet m (retentionKey o) c.2 | none => m) m0
  let m2 := s.acc.foldl (fun m c => memSet m (retentionKey (accImage c.1)) c.2) m1
  let m3 := s.tiles.foldl (fun m t => t.2.pool.foldl (fun m g => memPutWord m (retentionKey (poolImage t.1 g.1)) g.2) m) m2
  let mark := fun (l : List Nat) (f : Tile → List Nat) =>
    let l1 := l.foldl (fun a k => match imageOff k with | some o => setAdd a (retentionKey o) | none => a) (l.filter keep)
    s.tiles.foldl (fun a t => (f t.2).foldl (fun a g => setAdd a (retentionKey (poolImage t.1 g))) a) l1
  { s with mem := m3, empty := mark s.empty (·.poolEmpty), poison := mark s.poison (·.poolPois) }

/-- A packet in flight, or a move behind which some may be held: a freeze waits until each has been performed. An operation
answered busy counts unless it waits for its word's full/empty state, which no stopped core changes. -/
def inFlight : Act → Bool
  | .homeAccess _ => true
  | .tableWalk _ => true
  | .accessResponse _ => true
  | .relaxedAccessCompletion _ => true
  | .busyResend r => !waitingOp r.op
  | .rputArrival _ => true
  | .stealVisit _ => true
  | .leapArrival _ => true
  | .leapBounce _ => true
  | .arrivalAcknowledgement _ _ => true
  | .eventEntry _ => true
  | .eventBusyAnswer _ => true
  | .almanacMessage _ => true
  | .vigilEvent _ => true
  | .linkRegistration _ => true
  | .rendezvousRelease _ _ _ => true
  | .moveCompletion _ => true
  | _ => false

/-- What a stopped engine or core would do: it waits for the end of the freeze (R422). -/
def stopsFrozen : Act → Bool
  | .jobEnd _ _ => true
  | .collProceed _ _ => true
  | .digestDecision _ _ => true
  | .memberTimeout _ _ => true
  | .eventResend _ _ => true
  | .leapResend _ => true
  | .rendezvousTimeout _ _ => true
  | .syncTimeout _ => true
  | _ => false

/-- Freezes the device at this tick: its image is written once what is in flight has been performed (R422). -/
def checkpoint (s : State) : State :=
  schedAt { s with ckState := 1, ckts := ofN (now s), frozen := true } (s.cycle + 1) .checkpointComplete

def execCheckpointNow (s : State) : Host.Outcome State Fault Refusal :=
  actRow s fun a s =>
    match a with
    | .checkpointNow => if s.ckState = 1 ∨ s.ckState = 3 then some s else some (checkpoint s)
    | _ => none

/-- The image is written, in the first cycle in which nothing is in flight: execution resumes, or the module powers down. -/
def execCheckpointComplete (s : State) : Host.Outcome State Fault Refusal :=
  actRow s fun a s =>
    match a with
    | .checkpointComplete =>
      let s1 := { writeImage s with ckState := 2, frozen := s.powerLost }
      some (if s.agenda.any (inFlight ·.act) then schedAt s (s.cycle + 1) .checkpointComplete
        else if s.powerLost then { s1 with outbox := s1.outbox ++ [.poweredDown] } else s1)
    | _ => none

def execModulePowerFailure (s : State) : Host.Outcome State Fault Refusal :=
  actRow s fun a s =>
    match a with
    | .modulePowerFailure =>
      let s1 := { s with powerLost := true, frozen := true }
      if s.ckState = 1 then some s1
      else if s.ckPower then some (checkpoint s1) else some { s1 with outbox := s1.outbox ++ [.poweredDown] }
    | _ => none

/-- The tier-one section goes back to tier one: only before any partition is created, and of a valid image (R423). -/
def execRestoreTierOne (s : State) : Host.Outcome State Fault Refusal :=
  actRow s fun a s =>
    match a with
    | .restoreTierOne =>
      if s.ckState ≠ 2 ∨ s.parts.any (fun e => e.2.frame.isSome) then some s
      else some (schedAt { s with ckState := 3 } (s.cycle + 1) .restoreTierOneComplete)
    | _ => none

/-- The offset in the image of a key of the retention region. -/
def retentionOff (k : Nat) : Nat :=
  let c := (k - 2 ^ 44) / 2 ^ 37
  let a := (k - 2 ^ 44) % 2 ^ 37 - 0x1300000000
  (a / 4096 * 16 + c) * 4096 + a % 4096

/-- The key of tier one that a key of the image's tier-one section stands for. -/
def imageChanKey (k : Nat) : Option Nat :=
  let o := retentionOff k
  if inRetention k ∧ imgChan ≤ o ∧ o < imgSpad then some (keyChan ((o - imgChan) / portCap 0) ((o - imgChan) % portCap 0)) else none

def inTierOne (k : Nat) : Bool := decide (2 ^ 40 ≤ k ∧ k < 2 ^ 44)

def execRestoreTierOneComplete (s : State) : Host.Outcome State Fault Refusal :=
  actRow s fun a s =>
    match a with
    | .restoreTierOneComplete =>
      let m0 := s.mem.filter fun c => !inTierOne c.1
      let m1 := s.mem.foldl (fun m c => match imageChanKey c.1 with | some k => memSet m k c.2 | none => m) m0
      let mark := fun (l : List Nat) => l.foldl (fun a k => match imageChanKey k with | some j => setAdd a j | none => a) (l.filter fun k => !inTierOne k)
      some { s with mem := m1, empty := mark s.empty, poison := mark s.poison, ckState := 2 }
    | _ => none

def execInvalidate (s : State) : Host.Outcome State Fault Refusal :=
  actRow s fun a s => match a with | .invalidate => some (if s.ckState = 2 ∨ s.ckState = 4 then { s with ckState := 0 } else s) | _ => none

/-! ### Bring-up, firmware, keys (R372, R430, R431) -/

/-- The links that trained. -/
def trainedLinks (l : List Trained) (m : AMap Link) : AMap Link :=
  l.foldl (fun m x => ins m x.link { lookD m x.link Link.reset with state := 2, width := x.width, rev := x.rev, partner := x.partner }) m

/-- An act that only the outside causes (log 18): a reset does not take it back. -/
def outside : Act → Bool
  | .bringUp _ | .hostBarAccess _ | .firmwareUpload _ | .keyInstall _ _ | .modulePowerFailure | .timeSync _ => true
  | .correctedError _ _ | .uncorrectableError (.memory _) | .rowSparing _ _ _ | .thermalEvacuation _ _ | .rankingRefresh _ => true
  | .flitReplay _ _ | .peerLinkUp _ _ _ _ | .peerLinkDown _ | .peerRequest _ => true
  | _ => false

/-- The state of a reset that bring-up starts from: every register at its reset value, every word outside the retention
region zero and full (R51); a valid image is kept (R423), and one that was being written has failed. Time goes on, and
what the firmware holds, the host is told and no register shows stays (DESIGN CHOICE, log 86). -/
def cleared (s : State) : State :=
  { State.reset with
    cycle := s.cycle, tsc := s.tsc, slewAt := s.tsc, issueFrom := s.issueFrom, calend := s.calend, fresh := s.fresh, nextUid := s.nextUid, nextId := s.nextId,
    agenda := s.agenda.filter (outside ·.act), outbox := s.outbox, bad := s.bad,
    mem := s.mem.filter (fun c => inRetention c.1), empty := s.empty.filter inRetention, poison := s.poison.filter inRetention,
    cipher := s.cipher.filter (fun e => inRetention (64 * e.1)),
    ckState := (if s.ckState = 1 then 4 else if s.ckState = 3 then 2 else s.ckState), ckts := s.ckts,
    fwVersion := s.fwVersion, fwMinSec := s.fwMinSec, fwPending := s.fwPending }

/-- An accepted image that waits becomes the firmware with the reset, where its boot checks pass (R430, R431). The fused
minimum is not raised by it. -/
def bringsUp (s0 : State) (i : BringUpIn) : State :=
  let s := cleared s0
  let fw := match s.fwPending with
    | some f => { s with fwVersion := f.version, fwPending := none }
    | none => s
  if i.signature = false then { s with bootStep := 1, bootFail := 1, recovery := true }
  else if i.rollback = false then { s with bootStep := 1, bootFail := 2, recovery := true }
  else if i.training = false then { fw with bootStep := 2, bootFail := 3 }
  else
    let s1 := { fw with links := trainedLinks i.links fw.links }
    if i.bad.any (·.isNone) then { s1 with bootStep := 4, bootFail := 4 }
    else
      let bad := (i.bad.zipIdx).foldl (fun m x => match x.1 with | some c => ins m x.2 c | none => m) s1.bad
      { s1 with bad := bad, bootStep := 7, bootFail := 0, recovery := false }

def execBringUp (s : State) : Host.Outcome State Fault Refusal :=
  actRow s fun a s => match a with | .bringUp i => some (bringsUp s i) | _ => none

/-- An image that passes its checks takes effect at the next reset. -/
def execFirmwareUpload (s : State) : Host.Outcome State Fault Refusal :=
  actRow s fun a s =>
    match a with
    | .firmwareUpload f => some (if f.signed ∧ s.fwMinSec ≤ f.security then { s with fwPending := some f } else s)
    | _ => none

def execKeyInstall (s : State) : Host.Outcome State Fault Refusal :=
  actRow s fun a s =>
    match a with
    | .keyInstall partn _ => some (modPart (freshId s) partn fun p => { p with pkey := true, keyNo := s.nextId + 1 })
    | _ => none

/-! ### Links, peers, time (R324, R325, R427-R429) -/

/-- A flit is replayed, for the first time or once more since its replay failed: eight failed replays of one flit retrain the
link. -/
def execFlitReplay (s : State) : Host.Outcome State Fault Refusal :=
  actRow s fun a s =>
    match a with
    | .flitReplay l again =>
      some (modLink s l fun x =>
        let y := { x with replays := min (x.replays + 1) 0xFFFFFFFF, failed := if again then x.failed + 1 else 0 }
        if 8 ≤ y.failed then { y with failed := 0, retrains := min (y.retrains + 1) 255, state := 1 } else y)
    | _ => none

/-- A job over a lost link ends at once, with what it has delivered (R325). -/
def loseJob (s : State) (l cl : Nat) (r : Running) : State := if l ∈ r.links then stopRun s cl r lostLink else s

def linkLost (s : State) (l : Nat) : State :=
  forEach s.clusters (fun s e =>
    let s1 := match e.2.cu.run with | some r => loseJob s l e.1 r | none => s
    forEach (e.2.cu.slots.filter fun k => decide (l ∈ k.links) && k.status.isNone) (fun s k => slotEnds s e.1 k 2 5) s1) s

def execPeerLinkDown (s : State) : Host.Outcome State Fault Refusal :=
  actRow s fun a s =>
    match a with
    | .peerLinkDown l =>
      let s1 := linkLost (modLink s l fun x => { x with state := if x.dis then 3 else 0, width := 0 }) l
      some (openNotice s1 ((s.parts.filter fun e => e.2.frame.isSome && decide (e.2.peern ≠ 0)).map (·.1)) 3 (tagLink l))
    | _ => none

def execPeerLinkUp (s : State) : Host.Outcome State Fault Refusal :=
  actRow s fun a s =>
    match a with
    | .peerLinkUp l w rev partner =>
      some (modLink s l fun x => if x.dis then x else { x with state := 2, width := w, rev := rev, partner := partner, failed := 0 })
    | _ => none

/-- A word of a peer's copy job: translated, checked and answered for here; encrypted pages are refused (R324, R372). -/
def servesPeer (s : State) (p : PeerReq) : State :=
  let w := p.write.isSome
  let out := fun (st : State) (m : OutMsg) => { st with outbox := st.outbox ++ [m] }
  let enc : Bool :=
    match (placeOf s p.partn p.ptr).bind portOfPlace with
    | some (port, o) => (cached (translate s port p.partn o false false).1 port p.partn o).any (·.enc)
    | none => false
  if enc then out s (.peerRefused p.partn p.ptr 0x0A (32 + if w then 17 else 0))
  else
    match hwKey s p.partn p.ptr w false with
    | (s1, .bad c i _) => out s1 (.peerRefused p.partn p.ptr c i)
    | (s1, .ok k0) =>
      let k := k0 / 8 * 8
      match p.write with
      | some v =>
        match p.add with
        | none => out (writeWord s1 k v true) (.peerAck p.partn p.ptr)
        | some et =>
          if wordPois s1 k then out s1 (.peerRefused p.partn p.ptr 0x1C (placeNum k))
          else out (writeWord s1 k (addLanes et (wordAt s1 k) v) true) (.peerAck p.partn p.ptr)
      | none => if wordPois s1 k then out s1 (.peerRefused p.partn p.ptr 0x1C (placeNum k)) else out s1 (.peerRead p.partn p.ptr (wordAt s1 k))

/-- How a peer's request comes in: with its age, from its link (R13, R202). -/
def peerArrives (s : State) (p : PeerReq) (age : Nat) : State :=
  sched s { cycle := s.cycle, late := false, age := age, src := srcLink p.link, act := .peerRequest p }

def execPeerRequest (s : State) : Host.Outcome State Fault Refusal :=
  actRow s fun a s => match a with | .peerRequest p => some (servesPeer s p) | _ => none

/-- Link time-sync names the ticks still to be slewed (R429). -/
def execTimeSync (s : State) : Host.Outcome State Fault Refusal :=
  actRow s fun a s => match a with | .timeSync d => some { s with slew := d, aligned := decide (d.natAbs ≤ 8), slewAt := s.tsc } | _ => none

end Sys2Proof.Machine
end

