-- ==== Sys2Proof/Machine/Dispatch.lean ====
section
/-! DEFINITION. The meaning of every row of the opcode table, one arm each. -/

namespace Sys2Proof.Machine

def exec (i : Instr) (s : State) : Host.Outcome State Fault Refusal :=
  match i with
  | .nop => Sys2Proof.Machine.execNop s
  | .trap a => Sys2Proof.Machine.execTrap a s
  | .eret => Sys2Proof.Machine.execEret s
  | .ebreak a => Sys2Proof.Machine.execEbreak a s
  | .mfs a b => Sys2Proof.Machine.execMfs a b s
  | .mts a b => Sys2Proof.Machine.execMts a b s
  | .tfork a b => Sys2Proof.Machine.execTfork a b s
  | .texit => Sys2Proof.Machine.execTexit s
  | .tyield => Sys2Proof.Machine.execTyield s
  | .tmark a => Sys2Proof.Machine.execTmark a s
  | .safept a => Sys2Proof.Machine.execSafept a s
  | .fence a b => Sys2Proof.Machine.execFence a b s
  | .rclr a => Sys2Proof.Machine.execRclr a s
  | .add a b c => Sys2Proof.Machine.execAdd a b c s
  | .sub a b c => Sys2Proof.Machine.execSub a b c s
  | .mul a b c => Sys2Proof.Machine.execMul a b c s
  | .mulh a b c => Sys2Proof.Machine.execMulh a b c s
  | .mulhu a b c => Sys2Proof.Machine.execMulhu a b c s
  | .div a b c => Sys2Proof.Machine.execDiv a b c s
  | .divu a b c => Sys2Proof.Machine.execDivu a b c s
  | .rem a b c => Sys2Proof.Machine.execRem a b c s
  | .remu a b c => Sys2Proof.Machine.execRemu a b c s
  | .and a b c => Sys2Proof.Machine.execAnd a b c s
  | .or a b c => Sys2Proof.Machine.execOr a b c s
  | .xor a b c => Sys2Proof.Machine.execXor a b c s
  | .andn a b c => Sys2Proof.Machine.execAndn a b c s
  | .orn a b c => Sys2Proof.Machine.execOrn a b c s
  | .sll a b c => Sys2Proof.Machine.execSll a b c s
  | .srl a b c => Sys2Proof.Machine.execSrl a b c s
  | .sra a b c => Sys2Proof.Machine.execSra a b c s
  | .rol a b c => Sys2Proof.Machine.execRol a b c s
  | .min a b c => Sys2Proof.Machine.execMin a b c s
  | .max a b c => Sys2Proof.Machine.execMax a b c s
  | .minu a b c => Sys2Proof.Machine.execMinu a b c s
  | .maxu a b c => Sys2Proof.Machine.execMaxu a b c s
  | .clz a b => Sys2Proof.Machine.execClz a b s
  | .ctz a b => Sys2Proof.Machine.execCtz a b s
  | .pop a b => Sys2Proof.Machine.execPop a b s
  | .sext a b c => Sys2Proof.Machine.execSext a b c s
  | .zext a b c => Sys2Proof.Machine.execZext a b c s
  | .bfx a b c => Sys2Proof.Machine.execBfx a b c s
  | .bfi a b c => Sys2Proof.Machine.execBfi a b c s
  | .sel a b c d => Sys2Proof.Machine.execSel a b c d s
  | .addi a b c => Sys2Proof.Machine.execAddi a b c s
  | .andi a b c => Sys2Proof.Machine.execAndi a b c s
  | .ori a b c => Sys2Proof.Machine.execOri a b c s
  | .xori a b c => Sys2Proof.Machine.execXori a b c s
  | .slli a b c => Sys2Proof.Machine.execSlli a b c s
  | .srli a b c => Sys2Proof.Machine.execSrli a b c s
  | .srai a b c => Sys2Proof.Machine.execSrai a b c s
  | .roli a b c => Sys2Proof.Machine.execRoli a b c s
  | .lih a b c => Sys2Proof.Machine.execLih a b c s
  | .lihK a b c => Sys2Proof.Machine.execLihK a b c s
  | .cmp a b c d e => Sys2Proof.Machine.execCmp a b c d e s
  | .cmpImm a b c d e => Sys2Proof.Machine.execCmpImm a b c d e s
  | .pand a b c => Sys2Proof.Machine.execPand a b c s
  | .por a b c => Sys2Proof.Machine.execPor a b c s
  | .pxor a b c => Sys2Proof.Machine.execPxor a b c s
  | .pandn a b c => Sys2Proof.Machine.execPandn a b c s
  | .pnot a b => Sys2Proof.Machine.execPnot a b s
  | .pmov a b => Sys2Proof.Machine.execPmov a b s
  | .pget a b => Sys2Proof.Machine.execPget a b s
  | .b a => Sys2Proof.Machine.execB a s
  | .bl a => Sys2Proof.Machine.execBl a s
  | .bp a b => Sys2Proof.Machine.execBp a b s
  | .bpNot a b => Sys2Proof.Machine.execBpNot a b s
  | .jr a => Sys2Proof.Machine.execJr a s
  | .jlr a b => Sys2Proof.Machine.execJlr a b s
  | .ldb a b c d => Sys2Proof.Machine.execLdb a b c d s
  | .ldbu a b c d => Sys2Proof.Machine.execLdbu a b c d s
  | .ldh a b c d => Sys2Proof.Machine.execLdh a b c d s
  | .ldhu a b c d => Sys2Proof.Machine.execLdhu a b c d s
  | .ldw a b c d => Sys2Proof.Machine.execLdw a b c d s
  | .ldwu a b c d => Sys2Proof.Machine.execLdwu a b c d s
  | .ldd a b c d => Sys2Proof.Machine.execLdd a b c d s
  | .stb a b c d => Sys2Proof.Machine.execStb a b c d s
  | .sth a b c d => Sys2Proof.Machine.execSth a b c d s
  | .stw a b c d => Sys2Proof.Machine.execStw a b c d s
  | .std a b c d => Sys2Proof.Machine.execStd a b c d s
  | .take a b c d => Sys2Proof.Machine.execTake a b c d s
  | .peek a b c d => Sys2Proof.Machine.execPeek a b c d s
  | .give a b c d => Sys2Proof.Machine.execGive a b c d s
  | .post a b c d => Sys2Proof.Machine.execPost a b c d s
  | .void a b c => Sys2Proof.Machine.execVoid a b c s
  | .probe a b c d => Sys2Proof.Machine.execProbe a b c d s
  | .amoadd a b c d => Sys2Proof.Machine.execAmoadd a b c d s
  | .amoand a b c d => Sys2Proof.Machine.execAmoand a b c d s
  | .amoor a b c d => Sys2Proof.Machine.execAmoor a b c d s
  | .amoxor a b c d => Sys2Proof.Machine.execAmoxor a b c d s
  | .amomin a b c d => Sys2Proof.Machine.execAmomin a b c d s
  | .amomax a b c d => Sys2Proof.Machine.execAmomax a b c d s
  | .amominu a b c d => Sys2Proof.Machine.execAmominu a b c d s
  | .amomaxu a b c d => Sys2Proof.Machine.execAmomaxu a b c d s
  | .amoswap a b c d => Sys2Proof.Machine.execAmoswap a b c d s
  | .amocas a b c d => Sys2Proof.Machine.execAmocas a b c d s
  | .dist a b c => Sys2Proof.Machine.execDist a b c s
  | .padd a b c => Sys2Proof.Machine.execPadd a b c s
  | .pmk a b c => Sys2Proof.Machine.execPmk a b c s
  | .pfld a b c => Sys2Proof.Machine.execPfld a b c s
  | .pfix a b => Sys2Proof.Machine.execPfix a b s
  | .leap a => Sys2Proof.Machine.execLeap a s
  | .rput a b => Sys2Proof.Machine.execRput a b s
  | .paddi a b c => Sys2Proof.Machine.execPaddi a b c s
  | .rvinit a b => Sys2Proof.Machine.execRvinit a b s
  | .rvarr a => Sys2Proof.Machine.execRvarr a s
  | .rvwait a => Sys2Proof.Machine.execRvwait a s
  | .rvtest a b => Sys2Proof.Machine.execRvtest a b s
  | .jpush a b c => Sys2Proof.Machine.execJpush a b c s
  | .jpushW a b c => Sys2Proof.Machine.execJpushW a b c s
  | .barini a b => Sys2Proof.Machine.execBarini a b s
  | .barexp a b => Sys2Proof.Machine.execBarexp a b s
  | .barwt a b => Sys2Proof.Machine.execBarwt a b s
  | .evsend a b c => Sys2Proof.Machine.execEvsend a b c s
  | .evnext a => Sys2Proof.Machine.execEvnext a s
  | .evnull => Sys2Proof.Machine.execEvnull s
  | .lkset a b c => Sys2Proof.Machine.execLkset a b c s
  | .dqpush a b c => Sys2Proof.Machine.execDqpush a b c s
  | .dqpop a b => Sys2Proof.Machine.execDqpop a b s
  | .dqsplit => Sys2Proof.Machine.execDqsplit s
  | .dqsteal a b => Sys2Proof.Machine.execDqsteal a b s
  | .dqcnt a => Sys2Proof.Machine.execDqcnt a s
  | .vadd a b c d e => Sys2Proof.Machine.execVadd a b c d e s
  | .vsub a b c d e => Sys2Proof.Machine.execVsub a b c d e s
  | .vmul a b c d e => Sys2Proof.Machine.execVmul a b c d e s
  | .vmin a b c d e => Sys2Proof.Machine.execVmin a b c d e s
  | .vmax a b c d e => Sys2Proof.Machine.execVmax a b c d e s
  | .vfma a b c d e => Sys2Proof.Machine.execVfma a b c d e s
  | .vfms a b c d e => Sys2Proof.Machine.execVfms a b c d e s
  | .vdiv a b c d e => Sys2Proof.Machine.execVdiv a b c d e s
  | .vabs a b c d => Sys2Proof.Machine.execVabs a b c d s
  | .vneg a b c d => Sys2Proof.Machine.execVneg a b c d s
  | .vmulh a b c d e => Sys2Proof.Machine.execVmulh a b c d e s
  | .vand a b c d e => Sys2Proof.Machine.execVand a b c d e s
  | .vor a b c d e => Sys2Proof.Machine.execVor a b c d e s
  | .vxor a b c d e => Sys2Proof.Machine.execVxor a b c d e s
  | .vandn a b c d e => Sys2Proof.Machine.execVandn a b c d e s
  | .vshl a b c d e => Sys2Proof.Machine.execVshl a b c d e s
  | .vshr a b c d e => Sys2Proof.Machine.execVshr a b c d e s
  | .vsra a b c d e => Sys2Proof.Machine.execVsra a b c d e s
  | .vcmp a b c d e f => Sys2Proof.Machine.execVcmp a b c d e f s
  | .vsqrt a b c d => Sys2Proof.Machine.execVsqrt a b c d s
  | .vrcp a b c d => Sys2Proof.Machine.execVrcp a b c d s
  | .vrsqrt a b c d => Sys2Proof.Machine.execVrsqrt a b c d s
  | .vexp2 a b c d => Sys2Proof.Machine.execVexp2 a b c d s
  | .vlog2 a b c d => Sys2Proof.Machine.execVlog2 a b c d s
  | .vtanh a b c d => Sys2Proof.Machine.execVtanh a b c d s
  | .vcvt a b c d e => Sys2Proof.Machine.execVcvt a b c d e s
  | .vperm a b c d e => Sys2Proof.Machine.execVperm a b c d e s
  | .vslide a b c d e => Sys2Proof.Machine.execVslide a b c d e s
  | .vbcast a b c d => Sys2Proof.Machine.execVbcast a b c d s
  | .vextr a b c d e => Sys2Proof.Machine.execVextr a b c d e s
  | .vins a b c d e => Sys2Proof.Machine.execVins a b c d e s
  | .vredsum a b c d => Sys2Proof.Machine.execVredsum a b c d s
  | .vredmax a b c d => Sys2Proof.Machine.execVredmax a b c d s
  | .vredmin a b c d => Sys2Proof.Machine.execVredmin a b c d s
  | .mand a b c d => Sys2Proof.Machine.execMand a b c d s
  | .mor a b c d => Sys2Proof.Machine.execMor a b c d s
  | .mxor a b c d => Sys2Proof.Machine.execMxor a b c d s
  | .mnot a b c => Sys2Proof.Machine.execMnot a b c s
  | .mpop a b c => Sys2Proof.Machine.execMpop a b c s
  | .mfirst a b c => Sys2Proof.Machine.execMfirst a b c s
  | .mset a b c => Sys2Proof.Machine.execMset a b c s
  | .mget a b c => Sys2Proof.Machine.execMget a b c s
  | .vld a b c d e => Sys2Proof.Machine.execVld a b c d e s
  | .vlds a b c d e f => Sys2Proof.Machine.execVlds a b c d e f s
  | .vldx a b c d e f => Sys2Proof.Machine.execVldx a b c d e f s
  | .vst a b c d e => Sys2Proof.Machine.execVst a b c d e s
  | .vsts a b c d e f => Sys2Proof.Machine.execVsts a b c d e f s
  | .vstx a b c d e f => Sys2Proof.Machine.execVstx a b c d e f s
  | .vstxa a b c d e f => Sys2Proof.Machine.execVstxa a b c d e f s
  | .amov a b c => Sys2Proof.Machine.execAmov a b c s
  | .aput a b c => Sys2Proof.Machine.execAput a b c s
  | .dadd a b c => Sys2Proof.Machine.execDadd a b c s
  | .dsub a b c => Sys2Proof.Machine.execDsub a b c s
  | .dmul a b c => Sys2Proof.Machine.execDmul a b c s
  | .ddiv a b c => Sys2Proof.Machine.execDdiv a b c s
  | .dfma a b c => Sys2Proof.Machine.execDfma a b c s
  | .dsqrt a b => Sys2Proof.Machine.execDsqrt a b s
  | .dneg a b => Sys2Proof.Machine.execDneg a b s
  | .dabs a b => Sys2Proof.Machine.execDabs a b s
  | .dmov a b => Sys2Proof.Machine.execDmov a b s
  | .dround a b => Sys2Proof.Machine.execDround a b s
  | .dcmp a b c d => Sys2Proof.Machine.execDcmp a b c d s
  | .dcvtf a b => Sys2Proof.Machine.execDcvtf a b s
  | .dcvtd a b => Sys2Proof.Machine.execDcvtd a b s
  | .dcvti a b => Sys2Proof.Machine.execDcvti a b s
  | .dcvtdi a b => Sys2Proof.Machine.execDcvtdi a b s
  | .dhead a b => Sys2Proof.Machine.execDhead a b s
  | .dclass a b => Sys2Proof.Machine.execDclass a b s
  | .ldn a b c => Sys2Proof.Machine.execLdn a b c s
  | .stn a b c => Sys2Proof.Machine.execStn a b c s
  | .prec a b => Sys2Proof.Machine.execPrec a b s
  | .precReg a b => Sys2Proof.Machine.execPrecReg a b s
  | .illegalInstruction a => Sys2Proof.Machine.execIllegalInstruction a s
  | .mma => Sys2Proof.Machine.execMma s
  | .mzero => Sys2Proof.Machine.execMzero s
  | .mfmt => Sys2Proof.Machine.execMfmt s
  | .mstore => Sys2Proof.Machine.execMstore s
  | .mcheck => Sys2Proof.Machine.execMcheck s
  | .copy => Sys2Proof.Machine.execCopy s
  | .fill => Sys2Proof.Machine.execFill s
  | .gather => Sys2Proof.Machine.execGather s
  | .scatter => Sys2Proof.Machine.execScatter s
  | .scatteradd => Sys2Proof.Machine.execScatteradd s
  | .coll => Sys2Proof.Machine.execColl s
  | .digest => Sys2Proof.Machine.execDigest s
  | .launch => Sys2Proof.Machine.execLaunch s
  | .jobEnd => Sys2Proof.Machine.execJobEnd s
  | .jobStatusWord => Sys2Proof.Machine.execJobStatusWord s
  | .collProceed => Sys2Proof.Machine.execCollProceed s
  | .memberTimeout => Sys2Proof.Machine.execMemberTimeout s
  | .digestDecision => Sys2Proof.Machine.execDigestDecision s
  | .homeAccess => Sys2Proof.Machine.execHomeAccess s
  | .tableWalk => Sys2Proof.Machine.execTableWalk s
  | .accessResponse => Sys2Proof.Machine.execAccessResponse s
  | .relaxedAccessCompletion => Sys2Proof.Machine.execRelaxedAccessCompletion s
  | .busyResend => Sys2Proof.Machine.execBusyResend s
  | .syncTimeout => Sys2Proof.Machine.execSyncTimeout s
  | .rendezvousRelease => Sys2Proof.Machine.execRendezvousRelease s
  | .rendezvousTimeout => Sys2Proof.Machine.execRendezvousTimeout s
  | .rputArrival => Sys2Proof.Machine.execRputArrival s
  | .leapArrival => Sys2Proof.Machine.execLeapArrival s
  | .leapBounce => Sys2Proof.Machine.execLeapBounce s
  | .leapResend => Sys2Proof.Machine.execLeapResend s
  | .arrivalAcknowledgement => Sys2Proof.Machine.execArrivalAcknowledgement s
  | .containmentReset => Sys2Proof.Machine.execContainmentReset s
  | .resume => Sys2Proof.Machine.execResume s
  | .deliver => Sys2Proof.Machine.execDeliver s
  | .terminate => Sys2Proof.Machine.execTerminate s
  | .vacate => Sys2Proof.Machine.execVacate s
  | .restore => Sys2Proof.Machine.execRestore s
  | .saveWriteAcknowledgement => Sys2Proof.Machine.execSaveWriteAcknowledgement s
  | .contextSaveFault => Sys2Proof.Machine.execContextSaveFault s
  | .slotDisable => Sys2Proof.Machine.execSlotDisable s
  | .slotReenable => Sys2Proof.Machine.execSlotReenable s
  | .rankingRefresh => Sys2Proof.Machine.execRankingRefresh s
  | .save => Sys2Proof.Machine.execSave s
  | .teamTerminate => Sys2Proof.Machine.execTeamTerminate s
  | .discard => Sys2Proof.Machine.execDiscard s
  | .sliceExpiry => Sys2Proof.Machine.execSliceExpiry s
  | .teamSave => Sys2Proof.Machine.execTeamSave s
  | .preemptionTimeout => Sys2Proof.Machine.execPreemptionTimeout s
  | .scan => Sys2Proof.Machine.execScan s
  | .placement => Sys2Proof.Machine.execPlacement s
  | .create => Sys2Proof.Machine.execCreate s
  | .delete => Sys2Proof.Machine.execDelete s
  | .switchIn => Sys2Proof.Machine.execSwitchIn s
  | .switchOut => Sys2Proof.Machine.execSwitchOut s
  | .tailWrite => Sys2Proof.Machine.execTailWrite s
  | .headRead => Sys2Proof.Machine.execHeadRead s
  | .calendBoundary => Sys2Proof.Machine.execCalendBoundary s
  | .translationShootdown => Sys2Proof.Machine.execTranslationShootdown s
  | .relocate => Sys2Proof.Machine.execRelocate s
  | .retireStub => Sys2Proof.Machine.execRetireStub s
  | .reinstate => Sys2Proof.Machine.execReinstate s
  | .thermalEvacuation => Sys2Proof.Machine.execThermalEvacuation s
  | .poolSupply => Sys2Proof.Machine.execPoolSupply s
  | .moveCompletion => Sys2Proof.Machine.execMoveCompletion s
  | .correctedError => Sys2Proof.Machine.execCorrectedError s
  | .uncorrectableError => Sys2Proof.Machine.execUncorrectableError s
  | .parityReplay => Sys2Proof.Machine.execParityReplay s
  | .rowSparing => Sys2Proof.Machine.execRowSparing s
  | .spareSwitch => Sys2Proof.Machine.execSpareSwitch s
  | .spareRowError => Sys2Proof.Machine.execSpareRowError s
  | .unfence => Sys2Proof.Machine.execUnfence s
  | .checkpointNow => Sys2Proof.Machine.execCheckpointNow s
  | .restoreTierOne => Sys2Proof.Machine.execRestoreTierOne s
  | .invalidate => Sys2Proof.Machine.execInvalidate s
  | .checkpointComplete => Sys2Proof.Machine.execCheckpointComplete s
  | .modulePowerFailure => Sys2Proof.Machine.execModulePowerFailure s
  | .bringUp => Sys2Proof.Machine.execBringUp s
  | .firmwareUpload => Sys2Proof.Machine.execFirmwareUpload s
  | .keyInstall => Sys2Proof.Machine.execKeyInstall s
  | .flitReplay => Sys2Proof.Machine.execFlitReplay s
  | .peerLinkDown => Sys2Proof.Machine.execPeerLinkDown s
  | .peerRequest => Sys2Proof.Machine.execPeerRequest s
  | .hostBarAccess => Sys2Proof.Machine.execHostBarAccess s
  | .timeSync => Sys2Proof.Machine.execTimeSync s
  | .eventEntry => Sys2Proof.Machine.execEventEntry s
  | .eventBusyAnswer => Sys2Proof.Machine.execEventBusyAnswer s
  | .eventResend => Sys2Proof.Machine.execEventResend s
  | .eventDispatch => Sys2Proof.Machine.execEventDispatch s
  | .endOfLocalTime => Sys2Proof.Machine.execEndOfLocalTime s
  | .almanacMessage => Sys2Proof.Machine.execAlmanacMessage s
  | .almanacHoldExpiry => Sys2Proof.Machine.execAlmanacHoldExpiry s
  | .vigilRound => Sys2Proof.Machine.execVigilRound s
  | .vigilEvent => Sys2Proof.Machine.execVigilEvent s
  | .linkRegistration => Sys2Proof.Machine.execLinkRegistration s
  | .hold => Sys2Proof.Machine.execHold s
  | .release => Sys2Proof.Machine.execRelease s
  | .step => Sys2Proof.Machine.execStep s
  | .cancel => Sys2Proof.Machine.execCancel s
  | .releaseOne => Sys2Proof.Machine.execReleaseOne s
  | .armedTaskEntryWrite => Sys2Proof.Machine.execArmedTaskEntryWrite s
  | .debugWindowWrite => Sys2Proof.Machine.execDebugWindowWrite s
  | .dump => Sys2Proof.Machine.execDump s
  | .triggerArm => Sys2Proof.Machine.execTriggerArm s
  | .triggerTransition => Sys2Proof.Machine.execTriggerTransition s
  | .solsticePulse => Sys2Proof.Machine.execSolsticePulse s
  | .histogramClear => Sys2Proof.Machine.execHistogramClear s
  | .traceRecordWrite => Sys2Proof.Machine.execTraceRecordWrite s
  | .fqbWrite => Sys2Proof.Machine.execFqbWrite s
  | .fqrWrite => Sys2Proof.Machine.execFqrWrite s
  | .hfqbWrite => Sys2Proof.Machine.execHfqbWrite s
  | .hfqrWrite => Sys2Proof.Machine.execHfqrWrite s
  | .divsClear => Sys2Proof.Machine.execDivsClear s
  | .registerWrite => Sys2Proof.Machine.execRegisterWrite s
  | .stealVisit => Sys2Proof.Machine.execStealVisit s
  | .peerLinkUp => Sys2Proof.Machine.execPeerLinkUp s
  | .restoreTierOneComplete => Sys2Proof.Machine.execRestoreTierOneComplete s

end Sys2Proof.Machine
end

