-- ==== Sys2Proof/Machine/Sched.lean ====
section
/-! DEFINITION. What the device does next: the acts that are due in a cycle, the issues of its cores in their order, and
the passage to the next cycle (R2, R14, R27, R75, R78, R193, R202). -/

namespace Sys2Proof.Machine

/-- Runs the row of an act. -/
def runAct (s : State) (a : Act) : Choice := .run a.row { s with act := some a }

/-! ### Acts whose time has been set -/

/-- The first act of the agenda that is due: before the issues of the cycle, or after them. -/
def agendaDue (s : State) (late : Bool) : Option (Act × State) :=
  (s.agenda.find? fun x => decide (x.cycle ≤ s.cycle) && (x.late == late)).map fun x => (x.act, { s with agenda := s.agenda.erase x })

/-- A slice expiry or a pre-emption timeout whose tick falls in this cycle (R162, R384): it comes after the issues. -/
def timerDue (s : State) : Option (Act × State) :=
  (s.timers.find? fun x => decide (x.1 < tickAt s (s.cycle + 1)) || decide (x.1 ≤ now s)).map fun x =>
    (x.2, { s with timers := s.timers.erase x })

/-! ### Acts that a condition makes due -/

/-- The row of a matrix command. -/
def mxeAct (cl ci : Nat) (j : Job) : Option Act :=
  match cmdOpcode j with
  | 1 => some (.mma cl ci)
  | 2 => some (.mzero cl ci)
  | 3 => some (.mfmt cl ci)
  | 4 => some (.mstore cl ci)
  | 5 => some (.mcheck cl ci)
  | _ => none

/-- The row of a copy command. -/
def cuAct (cl ci : Nat) (j : Job) : Option Act :=
  match cmdOpcode j with
  | 0x10 => some (.copy cl ci)
  | 0x11 => some (.gather cl ci)
  | 0x12 => some (.scatter cl ci)
  | 0x13 => some (.scatteradd cl ci)
  | 0x14 => some (.fill cl ci)
  | 0x15 => some (.coll cl ci)
  | 0x16 => some (.digest cl ci)
  | _ => none

/-- A core's head may start: no page-fault entry of that core is held, and its team is not counted for a save (R151,
R164). -/
def mayStart (s : State) (src : Nat) (j : Job) : Bool :=
  !entryHeld s j.partn j.tile src 0x09 && !teamCounted s j.partn j.serial

/-- A collective may start: one of the copy unit's two slots is free, and its group has no divergence pending (R319,
R341). -/
def collMayStart (s : State) (cl : Nat) (j : Job) : Bool :=
  if cmdOpcode j = 0x15 then
    let c := collOf j
    decide ((clusterAt s cl).cu.slots.length < 2) && (c.team || !bit (partOf s j.partn).divs c.group)
  else true

/-- The job that an idle engine of a cluster starts. -/
def mxeDue (s : State) (cl : Nat) (m : Mxe) : Option Act :=
  if m.run.isSome then none
  else (headInTurn s m.queues m.last fun _ j => mayStart s (srcMxe cl) j).bind fun h => mxeAct cl h.1 h.2

def cuDue (s : State) (cl : Nat) (m : Cu) : Option Act :=
  if m.run.isSome then none
  else
    (headInTurn s m.queues m.last fun _ j => mayStart s (srcCu cl) j && collMayStart s cl j).bind fun h => cuAct cl h.1 h.2

/-- A collective's member that ends: its divergence entry has been posted, its group's entry has become invalid, or a
partner of its team is fenced (R323, R335, R340). -/
def slotDue (s : State) (cl : Nat) (m : Cu) : Option Act :=
  (m.slots.find? fun x =>
    if x.status.isSome then !entryHeld s x.key.partn x.job.tile (srcCu cl) 0x1B
    else !x.proceeding && (if x.key.team.isSome then partnerFenced s x else (groupOf? s x.key.partn x.key.group).isNone)).map fun x => .memberTimeout cl x.job.jid

def engineDue (s : State) : Option Act :=
  s.clusters.findSome? fun e =>
    let now_ := fun (a : Option Act) => a.filter fun a => !stalled s a
    match now_ (mxeDue s e.1 e.2.mxe) with
    | some a => some a
    | none =>
      match now_ (cuDue s e.1 e.2.cu) with
      | some a => some a
      | none => now_ (slotDue s e.1 e.2.cu)

/-- A launch pushed on a device queue comes to its head 8 cycles after its push at the earliest (R377). -/
def devDue (s : State) : Option Act :=
  s.parts.findSome? fun e =>
    match e.2.devq with
    | j :: _ => if e.2.devHead ≠ some j.jid ∧ j.enq + 8 ≤ s.cycle then some (.launch j) else none
    | [] => none

/-- A team that can be saved (R164). -/
def saveDue (s : State) : Option Act :=
  s.parts.findSome? fun e =>
    (e.2.teams.find? fun t => saveReady s e.1 t.1 && !stalled s (.teamSave e.1 t.1)).map fun t => .teamSave e.1 t.1

/-- The first act that a condition makes due. -/
def polled (s : State) : Option Act :=
  match engineDue s with
  | some a => some a
  | none =>
    match devDue s with
    | some a => some a
    | none =>
      match thermalDue s with
      | some a => some a
      | none => if s.scanDue.any fun c => decide (c ≤ s.cycle) then some .scan else saveDue s

/-! ### Changes that are no row of their own -/

/-- A team's hold has something to do (R400). -/
def holdDue (s : State) (partn : Nat) (e : Nat × Team) : Bool :=
  e.2.holding &&
    ((teamThreads s partn e.1).any fun u =>
        match threadOf s u with
        | some th => !th.held && (settled s u th || decide (th.stand = .vacated))
        | none => false)
      || e.2.holding && (threadsOf s (teamThreads s partn e.1)).all (·.held)

def holdNext (s : State) : Option State :=
  s.parts.findSome? fun e => (e.2.teams.find? fun t => holdDue s e.1 t).map fun t => holdTick s e.1 t.1

/-- A fence whose engine and message waits are met (R98). -/
def fenceNext (s : State) : Option State :=
  (s.threads.find? fun e => match e.2.wait with | .fence g y => fenceMet s e.1 g y | _ => false).map fun e => fenceEnds s e.1

/-- What takes place without a row: an entry is posted (R14, R151), a delivery is made at a save record (R160), a settled
thread leaves its slot (R159), a hold catches a thread, a fence ends, a substitution is submitted (R174), a hold's outcome is
known (R400). -/
def quiet (s : State) : Option State :=
  match postNext s with
  | some t => some t
  | none =>
    match unmet ((deliveryDue s).map (deliverRecord s)) with
    | some t => some t
    | none =>
      match unmet ((leaverDue s).map (leave s)) with
      | some t => some t
      | none =>
        match holdNext s with
        | some t => some t
        | none =>
          match fenceNext s with
          | some t => some t
          | none =>
            match substDue s with
            | some t => some t
            | none => dcmdSettles s

/-! ### Event units -/

/-- The tiles whose event unit serves a team. -/
def evTiles (s : State) : List Nat := (s.tiles.filter fun e => e.2.evu.active).map (·.1)

/-- What an event unit does in a cycle (R352-R355): a dispatch, ends, a vigil round, held promises. An `evnext` that
parks in the cycle is examined in it. A core with no thread of the team does nothing (R357, R365). -/
def evuDue (s : State) (tile : Nat) : Option Act :=
  if (evThreads s tile).isEmpty then none
  else
  match dispatchable s tile with
  | some _ => some (.eventDispatch tile)
  | none =>
    match endable s tile with
    | some u => some (.endOfLocalTime tile u)
    | none =>
      match vigilDue s tile with
      | some b => some (.vigilRound tile b)
      | none => ((evuOf s tile).out.find? fun x => (almanacDue s x.2).isSome).map fun x => .almanacHoldExpiry tile x.1

def evusDue (s : State) : Option Act := (evTiles s).findSome? (evuDue s)

/-! ### Issue -/

/-- The fetch of a unit as an access that no flight waits for; it leads to no word. -/
def fetchReq (s : State) (u : Nat) (th : Thread) (pl : Place) : Req :=
  { uid := u, fid := 2 ^ 64 + s.nextId, part := 0, partn := th.partn, src := th.tile, sup := th.sup, rx := false, addr := th.pc,
    at_ := mkPtr 6 0 0 0, home := pl, op := .pfix, inj := now s, key := 0, ow := 0, legs := 0, stub := none, kbits := 1,
    first := none, limit := 0, view := 0, turn := none }

/-- How many words of the unit at the PC are fetched. -/
def wordsFetched (s : State) (th : Thread) : Nat :=
  match (fetchUnit s th).2.1 with
  | .ready _ k _ => k
  | .refused _ k _ => k
  | .bad p _ _ _ => (pOff p - pOff th.pc) / 4 + 1

/-- The pages that the fetch of the unit at the PC misses at their ports (R177). -/
def fetchMisses (s : State) (th : Thread) : List Place :=
  let page := fun (c o : Nat) => if (cached s c th.partn o).isSome then none else some (o / 4096 * 4096)
  let missed := fun (p : Ptr) =>
    if limitsOf s th.partn p ≠ 0 ∨ pOff p % 4 ≠ 0 then none
    else match placeOf s th.partn p with
      | some (.chan c o) => (page c o).map (Place.chan c)
      | some (.tier2 c o) => (page (48 + c) o).map (Place.tier2 c)
      | _ => none
  if pKind th.pc = 0 then []
  else ((List.range (wordsFetched s th)).filterMap fun i => missed (offBy th.pc (4 * i))).eraseDups

/-- The walk of a thread's fetch, where one is in the list of its port. -/
def fetchWalk (s : State) (u : Nat) (pl : Place) : Option WalkEnt :=
  (portOfPlace pl).bind fun x => (portOf s x.1).walks.find? fun e => decide (e.r.uid = u ∧ 2 ^ 64 ≤ e.r.fid ∧ e.o = x.2)

/-- A fetch that misses starts a walk, or waits for a walker with the accesses of its port (R177). -/
def enterFetch (u : Nat) (th : Thread) (s : State) (pl : Place) : State :=
  match portOfPlace pl with
  | some (port, o) => if (fetchWalk s u pl).isSome then s else portAccess (freshId s) (fetchReq s u th pl) port o
  | none => s

/-- What follows, with the ports as they stand: a page that was missed is cached when its walk ends. -/
def Choice.withPorts (p : AMap Port) : Choice → Choice
  | .run i t => .run i { t with ports := p }
  | .rest t => .rest { t with ports := p }

/-- The unit of a thread whose turn it is. Where its fetch waits for a walker, the thread does not issue. -/
def issueTurn (s : State) (u : Nat) (th : Thread) : Choice :=
  if !th.late.isEmpty || (breakHit s th th.pc).isSome then issueUnit s u th
  else
    match fetchMisses s th with
    | [] => issueUnit s u th
    | l =>
      let s1 := forEach l (enterFetch u th) s
      if l.any fun pl => (fetchWalk s1 u pl).any fun e => decide (e.phase = .waiting) then
        .rest (modThread s1 u fun t => { t with readyAt := s.cycle + 1 })
      else (issueUnit s1 u th).withPorts s1.ports

/-- The next issue of the cycle: the lowest tile whose turn it is, its first ready thread in rotation (R27, R78); parked
arrivals of the cycle are counted in their place among them (R126, R129). -/
def issueNext (s : State) : Option Choice :=
  let next := (issueTile s).bind fun t => (issueThread s t).map fun e => (t, e)
  match arrivalDue s, next with
  | some a, some (t, e) =>
    if a.2.tile * 16 + a.2.slot < t * 16 + e.2.slot then some (.rest (rvarrAgain s a.1))
    else some (issueTurn (markPc { s with issueFrom := t + 1 } e.2) e.1 e.2)
  | some a, none => some (.rest (rvarrAgain s a.1))
  | none, some (t, e) => some (issueTurn (markPc { s with issueFrom := t + 1 } e.2) e.1 e.2)
  | none, none => none

/-! ### After the issues, and the next cycle -/

/-- The unit of trace and debug (R407-R410). -/
def traceDue (s : State) : Option Act :=
  match trigDue s with
  | some a => some a
  | none =>
    match pulseDue s with
    | some a => some a
    | none => if (recordDue s).isSome then some .traceRecordWrite else none

/-- The TSC at the next cycle (R2), slewed by at most one tick in 1,024 towards its reference (R429). -/
def tickOn (s : State) : State :=
  let t := tickAt s (s.cycle + 1)
  if s.slew ≠ 0 ∧ s.tsc < t ∧ s.slewAt + 1024 ≤ t then
    let t' := if 0 < s.slew then t + 1 else s.tsc
    let d := if 0 < s.slew then s.slew - 1 else s.slew + 1
    { s with tsc := t', slew := d, slewAt := t', aligned := s.aligned || decide (d.natAbs ≤ 8) }
  else { s with tsc := t }

/-- The cycle ends: event units see the state that the next one starts with. -/
def nextCycle (s : State) : State :=
  let s1 := tickOn (forEach (evTiles s) evuTick s)
  { s1 with cycle := s.cycle + 1, issueFrom := 0, cur := none, act := none, again := [] }

/-- Acts due before the issues of the cycle, then the issues, then the acts that follow them, then the next cycle. -/
def afterIssue (s : State) : Choice :=
  match evusDue s with
  | some a => runAct s a
  | none =>
    match agendaDue s true with
    | some (a, t) => runAct t a
    | none =>
      match timerDue s with
      | some (a, t) => runAct t a
      | none =>
        match traceDue s with
        | some a => runAct s a
        | none => .rest (nextCycle s)

def running (s : State) : Choice :=
  match polled s with
  | some a => runAct s a
  | none =>
    match quiet s with
    | some t => .rest t
    | none =>
      match issueNext s with
      | some c => c
      | none => afterIssue s

/-- The first act due in a frozen device that its stopped cores and engines are not needed for. -/
def frozenDue (s : State) : Option (Act × State) :=
  (s.agenda.find? fun x => decide (x.cycle ≤ s.cycle) && !stopsFrozen x.act).map fun x =>
    (x.act, { s with agenda := s.agenda.erase x })

def whileFrozen (s : State) : Choice :=
  match frozenDue s with
  | some (a, t) => runAct t a
  | none => .rest (nextCycle s)

/-- What happens next. Broadcasts take effect before anything else of their tick (R15). A frozen device performs what is in
flight, answers the host and does nothing else (R422). -/
def choose (s : State) : Choice :=
  if s.frozen then whileFrozen s
  else if s.calend < now s / 64 then runAct s .calendBoundary
  else
    match agendaDue s false with
    | some (a, t) => runAct t a
    | none => running s

end Sys2Proof.Machine
end

