-- ==== Sys2Proof/Machine/Park.lean ====
section
/-! DEFINITION. Threads that park before their turn: a thread whose next unit may not issue in a cycle is parked from the
start of that cycle, whether or not its turn comes in it (R57, R69, R75-R77). -/

namespace Sys2Proof.Machine

/-- Something is outstanding that a unit of the thread may have to wait for. -/
def mayWait (s : State) (u : Nat) (th : Thread) : Bool :=
  decide (th.sEmpty ≠ 0) || decide (th.pEmpty ≠ 0) || decide (th.mEmpty ≠ 0) || !th.flights.isEmpty
    || !(tileOf s th.tile).poolEmpty.isEmpty || evOut s u

/-- What the thread's next unit waits for before it issues, as its own meaning tells. -/
def waitAhead (s : State) (u : Nat) (th : Thread) : Option Wait :=
  if !th.late.isEmpty || !(fetchMisses s th).isEmpty then none
  else
    match issueUnit s u th with
    | .rest _ => none
    | .run i t =>
      match exec i t with
      | .next t' =>
        match (threadOf t' u).map (·.wait) with
        | some (Wait.issue n) => some (Wait.issue n)
        | some Wait.relaxedFull => some Wait.relaxedFull
        | _ => none
      | _ => none

/-- Parks a ready thread whose next unit must wait. -/
def parkNext (u : Nat) (s : State) : State :=
  match threadOf s u with
  | none => s
  | some th =>
    match th.wait with
    | .none =>
      if canIssue s th && mayWait s u th then
        match waitAhead s u th with
        | some w => modThread s u fun t => { t with wait := w }
        | none => s
      else s
    | _ => s

/-- At the start of a cycle. -/
def parkAhead (s : State) : State :=
  if s.frozen then s else forEach (s.threads.map (·.1)) (fun s u => parkNext u s) s

end Sys2Proof.Machine
end

