-- ==== Sys2Proof/Machine/Step.lean ====
section
/-! DEFINITION. One step of the device, and the state in which a given instruction is fetched next. -/

namespace Sys2Proof.Machine

/-- One step: a unit or an act runs, or the device passes on without one. In a new cycle, the threads whose units must wait
park first (R77). -/
def step (s : State) : Host.Outcome State Fault Refusal :=
  match choose s with
  | .run i t => exec i t
  | .rest t => .next (if t.cycle = s.cycle then t else parkAhead t)

/-- A bare-metal partition that owns the whole device, with one started team of one core and one thread. -/
def bareMetal : Partition :=
  { Partition.reset with
    pstate := 2, pfrm := 0x3F3F0000, lastSerial := 1,
    frame := some { ox := 0, oy := 0, w := 64, h := 64, chans := List.range 48, ptroot := 0, hwsz := 0, conf := false },
    teams := [(1, { ox := 0, oy := 0, w := 1, h := 1, t := 1, v := 32, win := 64, pair := false, ltm := false, sup := false,
                    prio := 0, sd := 0, slice := 0, sliceEnd := 0, launch := 1, words := [], src := .sup, started := true,
                    holding := false, points := [(0, { Point.reset with expected := 1 })], req := none, reqAt := 0, reason := 0 })] }

/-- A thread at offset 0 of the scratchpad of tile (0, 0), ready in slot 0, with 32 vector registers and a window of
64 granules. -/
def firstThread : Thread :=
  { Thread.reset with partn := 0, serial := 1, tile := 0, slot := 0, vn := 32, dwin := 64, rows := List.range 40 }

/-- The words of an instruction, as they lie in memory. -/
def putCode (m : List Host.Cell) (w : Nat) : List Host.Cell := memWrite m 0 w 12

/-- The state in which an instruction is fetched next: bring-up is over, a team of one thread stands at its place, and
the instruction's words lie at that thread's PC. -/
def State.withFetchWord (s : State) (nbits w : Nat) : State :=
  { s with
    agenda := [], timers := [], scanDue := none, frozen := false, behind := none, again := [], substs := [], hostEnt := [], issueFrom := 0, casts := [], calend := s.tsc / 64,
    bootStep := 7, nextUid := 1, threads := [(0, { firstThread with readyAt := s.cycle })],
    tiles := [], ports := [], clusters := [], parts := [(0, bareMetal)], empty := [], poison := [],
    mem := putCode s.mem (w % 2 ^ nbits) }

end Sys2Proof.Machine
end

