-- ==== Sys2Proof/Safety.lean ====
section
/-! DEFINITION. What a safe run is, and the terms in which claims speak of one unit: when it issues, what it leaves of
the machine, and what it leaves of its thread. -/

namespace Sys2Proof

/-- Both byte memories of a state are in their one canonical form: homes (R51) and accumulators (R290). -/
def Machine.State.MemOk (s : Machine.State) : Prop := Machine.Memory.wf s.mem = true ∧ Machine.Memory.wf s.acc = true

/-- A state from which k steps take no stop. -/
def SafeFor : Nat → Machine.State → Prop
  | 0, _ => True
  | k + 1, s => ∃ t, Machine.step s = .next t ∧ SafeFor k t

/-- A state from which no run stops. -/
def Safe (s : Machine.State) : Prop := ∀ k, SafeFor k s

namespace Claims

open Sys2Proof.Machine

/-- A thread's unit is being executed; the thread has not been terminated. -/
def Executing (s : State) (c : Cur) (th : Thread) : Prop := s.cur = some c ∧ threadOf s c.uid = some th ∧ th.ending = false

/-- A unit is being executed and may issue (R57, R58, R69, R130, R414): what it reads is full and not poisoned, nothing
it waits for is outstanding, and no deferred fault is due. -/
def Ready (s : State) (c : Cur) (th : Thread) (n : Need) : Prop :=
  Executing s c th ∧ needMet s c.uid th n = true ∧ deferredDue th n = false ∧ poisonRead s th n = false

/-- What a unit that works on its own thread alone leaves of the machine: every byte of memory and of the accumulators,
every full/empty bit and poison mark, every partition, port, cluster and queue, time, everything in flight, all of
every tile but the record of its latest issue (R78), and every other thread but the end of a `tyield` (R91). -/
def Apart (s t : State) (c : Cur) : Prop :=
  t.cur = none ∧ { t with threads := s.threads, tiles := s.tiles, cur := s.cur } = s
    ∧ (∀ a, memGet t.mem a = memGet s.mem a)
    ∧ (∀ k, { tileOf t k with last := (tileOf s k).last, lastIssue := (tileOf s k).lastIssue,
                              lastPc := (tileOf s k).lastPc } = tileOf s k)
    ∧ ∀ u, u ≠ c.uid → ∀ x, threadOf s u = some x → ∃ y, threadOf t u = some y ∧ { y with readyAt := x.readyAt } = x

/-- The fields of a thread that the end of a unit sets (R77, R402, R403), taken from another thread. -/
def endAs (x th : Thread) : Thread :=
  { x with pc := th.pc, readyAt := th.readyAt, resume := th.resume, wait := th.wait, released := th.released,
           exempt := th.exempt, held := th.held, stepping := th.stepping }

/-- The unit has completed: the next unit's address, ready after its latency (R77, R79). -/
def Over (s : State) (c : Cur) (x : Thread) (next : Ptr) (lat : Nat) : Prop :=
  x.pc = next ∧ x.readyAt = s.cycle + c.fx + lat ∧ x.resume = 0 ∧ x.wait = .none

/-- A unit completes and changes nothing of its thread but where it stands. -/
def WritesNothing (s : State) (c : Cur) (th : Thread) (next : Ptr) (lat : Nat) (t : State) : Prop :=
  ∃ x, threadOf t c.uid = some x ∧ Over s c x next lat ∧ endAs x th = th ∧ Apart s t c

/-- A unit completes and writes one scalar register, which is then full; a write to s0 is discarded (R67, R68). Every
other register, predicate, mask and system register of the thread stays. -/
def WritesScalar (s : State) (c : Cur) (th : Thread) (d : SReg) (v : Word) (next : Ptr) (lat : Nat) (t : State) : Prop :=
  ∃ x, threadOf t c.uid = some x ∧ Over s c x next lat
    ∧ (∀ r, sget x r = if r = d ∧ d ≠ 0 then v else sget th r)
    ∧ sEmptyAt x d = false
    ∧ (∀ r, r ≠ d → sEmptyAt x r = sEmptyAt th r)
    ∧ { endAs x th with s := th.s, sEmpty := th.sEmpty, sOut := th.sOut, sPois := th.sPois } = th
    ∧ Apart s t c

/-- A unit completes and writes one predicate; p0 stays true (R67). -/
def WritesPred (s : State) (c : Cur) (th : Thread) (d : PReg) (v : Bool) (lat : Nat) (t : State) : Prop :=
  ∃ x, threadOf t c.uid = some x ∧ Over s c x c.npc lat
    ∧ (∀ r, pget x r = if r = d ∧ d ≠ 0 then v else pget th r)
    ∧ { endAs x th with p := th.p, pEmpty := th.pEmpty, pPois := th.pPois } = th
    ∧ Apart s t c

/-- A unit completes and writes one mask register; m0 stays all ones (R67). -/
def WritesMask (s : State) (c : Cur) (th : Thread) (d : MReg) (v : Word) (lat : Nat) (t : State) : Prop :=
  ∃ x, threadOf t c.uid = some x ∧ Over s c x c.npc lat
    ∧ (∀ r, mget x r = if r = d ∧ d ≠ 0 then v else mget th r)
    ∧ { endAs x th with m := th.m, mEmpty := th.mEmpty, mPois := th.mPois } = th
    ∧ Apart s t c

/-- The fault record of a unit (R141). -/
def recordOf (s : State) (c : Cur) (cause : Nat) (addr info : Word) : FaultRec :=
  { cause := BitVec.ofNat 64 cause, addr := addr, pc := c.fpc, info := info, tsc := BitVec.ofNat 64 s.tsc }

/-- A user-class fault taken by a unit (R140-R147): it goes to TVEC where the thread has a handler and is not in one;
else it escalates: the thread stops at its unit, and a nested fault keeps the record it found. `cause` is FCAUSE. Nothing
else of the thread changes, and on delivery to its own handler nothing else of the machine. -/
def TakesUser (s : State) (c : Cur) (th : Thread) (cause : Nat) (addr info : Word) (t : State) : Prop :=
  ∃ x, threadOf t c.uid = some x
    ∧ { endAs x th with fr := th.fr, inHandler := th.inHandler, stopped := th.stopped } = th
    ∧ x.resume = 0 ∧ x.wait = .none
    ∧ (if th.tvec = 0 ∨ th.inHandler then
        x.pc = c.fpc ∧ x.stopped = true ∧ x.inHandler = th.inHandler
          ∧ x.fr = if th.inHandler then th.fr else recordOf s c cause addr info
      else
        x.pc = th.tvec ∧ x.inHandler = true ∧ x.stopped = th.stopped ∧ x.fr = recordOf s c cause addr info ∧ Apart s t c)

/-- A supervisor-class fault stops its thread at the unit with the record (R149). -/
def TakesSup (s : State) (c : Cur) (th : Thread) (cause : Nat) (addr info : Word) (t : State) : Prop :=
  ∃ x, threadOf t c.uid = some x ∧ { endAs x th with fr := th.fr, stopped := th.stopped } = th
    ∧ x.resume = 0 ∧ x.wait = .none ∧ x.pc = c.fpc ∧ x.stopped = true ∧ x.fr = recordOf s c cause addr info

/-- A fault of a unit that has issued, delivered when the unit would have been over (R266): till then its thread waits as for
an access, whose answer brings the fault. Nothing else of the thread or of the machine changes. -/
def FaultsLater (s : State) (c : Cur) (th : Thread) (cause : Nat) (addr info : Word) (lat : Nat) (t : State) : Prop :=
  ∃ x f a, threadOf t c.uid = some x ∧ x.wait = .access s.nextId ∧ x.flights = th.flights ++ [f]
    ∧ f.fid = s.nextId ∧ f.op = .fault ∧ f.rx = false ∧ f.fpc = c.fpc ∧ f.parts = 2 ∧ f.out = [] ∧ f.pend = [] ∧ f.charge = 0
    ∧ f.bad = [(0, { cause := cause, info := info.toNat, addr := addr, tick := s.tsc, host := false })]
    ∧ a.uid = c.uid ∧ a.fid = s.nextId ∧ a.part = 2 ∧ a.res = .done [] 0
    ∧ { x with flights := th.flights, wait := th.wait } = th
    ∧ t.agenda = enterTimed s.agenda
        { cycle := s.cycle + c.fx + lat - 1, late := false, age := s.tsc, src := 0, act := .accessResponse a }
    ∧ Apart s { t with agenda := s.agenda, nextId := s.nextId } c

end Claims

end Sys2Proof
end

