-- ==== Sys2Proof/WellFormed.lean ====
section
/-! DEFINITION. Well-formedness of an instruction: its operands are ones an encoding carries (R24, R25, R33, R40, R41,
R239). The rows for commands and acts stand for no instruction word and are not well formed as units. -/

namespace Sys2Proof

/-- A 16-bit immediate or a 40-bit one by the immediate prefix (R25). -/
def immWf (i : Int) : Bool := fitsS 40 i

/-- A 12-bit displacement or a 36-bit one by the immediate prefix (R25). -/
def dispWf (d : Int) : Bool := fitsS 36 d

/-- The vector prefix fields an instruction can use (R33): rounding, the zero policy, the fourth operand. -/
def VPfx.wf (q : VPfx) (rnd zero vc : Bool) : Bool :=
  (rnd || decide (q.rnd = .none)) && (zero || !q.zero) && (vc || decide (q.vc = .none))

/-- The precision that `prec` takes as an immediate (R41). -/
def precWf (p : Nat) : Bool := decide (8 ≤ p) && decide (p ≤ 4096)

/-- A system register that some chapter lists (R71). -/
def sysKnown (n : Nat) : Bool := decide (n ∈ sysUser) || decide (n ∈ sysSup)

/-- The instruction is one that some unit encodes. -/
def Instr.wf : Instr → Bool
  | .nop => true
  | .trap _ => true
  | .eret => true
  | .ebreak _ => true
  | .mfs _ n => sysKnown n.toNat
  | .mts _ n => sysKnown n.toNat
  | .tfork _ _ => true
  | .texit => true
  | .tyield => true
  | .tmark _ => true
  | .safept _ => true
  | .fence _ _ => true
  | .rclr _ => true
  | .add _ _ _ => true
  | .sub _ _ _ => true
  | .mul _ _ _ => true
  | .mulh _ _ _ => true
  | .mulhu _ _ _ => true
  | .div _ _ _ => true
  | .divu _ _ _ => true
  | .rem _ _ _ => true
  | .remu _ _ _ => true
  | .and _ _ _ => true
  | .or _ _ _ => true
  | .xor _ _ _ => true
  | .andn _ _ _ => true
  | .orn _ _ _ => true
  | .sll _ _ _ => true
  | .srl _ _ _ => true
  | .sra _ _ _ => true
  | .rol _ _ _ => true
  | .min _ _ _ => true
  | .max _ _ _ => true
  | .minu _ _ _ => true
  | .maxu _ _ _ => true
  | .clz _ _ => true
  | .ctz _ _ => true
  | .pop _ _ => true
  | .sext _ _ _ => true
  | .zext _ _ _ => true
  | .bfx _ _ _ => true
  | .bfi _ _ _ => true
  | .sel _ _ _ _ => true
  | .addi _ _ imm => immWf imm
  | .andi _ _ imm => immWf imm
  | .ori _ _ imm => immWf imm
  | .xori _ _ imm => immWf imm
  | .slli _ _ _ => true
  | .srli _ _ _ => true
  | .srai _ _ _ => true
  | .roli _ _ _ => true
  | .lih _ _ _ => true
  | .lihK _ _ _ => true
  | .cmp _ _ _ _ _ => true
  | .cmpImm _ _ _ _ _ => true
  | .pand _ _ _ => true
  | .por _ _ _ => true
  | .pxor _ _ _ => true
  | .pandn _ _ _ => true
  | .pnot _ _ => true
  | .pmov _ _ => true
  | .pget _ _ => true
  | .b _ => true
  | .bl _ => true
  | .bp _ _ => true
  | .bpNot _ _ => true
  | .jr _ => true
  | .jlr _ _ => true
  | .ldb _ _ disp _ => dispWf disp
  | .ldbu _ _ disp _ => dispWf disp
  | .ldh _ _ disp _ => dispWf disp
  | .ldhu _ _ disp _ => dispWf disp
  | .ldw _ _ disp _ => dispWf disp
  | .ldwu _ _ disp _ => dispWf disp
  | .ldd _ _ disp _ => dispWf disp
  | .stb _ _ disp _ => dispWf disp
  | .sth _ _ disp _ => dispWf disp
  | .stw _ _ disp _ => dispWf disp
  | .std _ _ disp _ => dispWf disp
  | .take _ _ disp _ => dispWf disp
  | .peek _ _ disp _ => dispWf disp
  | .give _ _ disp _ => dispWf disp
  | .post _ _ disp _ => dispWf disp
  | .void _ disp _ => dispWf disp
  | .probe _ _ disp _ => dispWf disp
  | .amoadd _ _ _ _ => true
  | .amoand _ _ _ _ => true
  | .amoor _ _ _ _ => true
  | .amoxor _ _ _ _ => true
  | .amomin _ _ _ _ => true
  | .amomax _ _ _ _ => true
  | .amominu _ _ _ _ => true
  | .amomaxu _ _ _ _ => true
  | .amoswap _ _ _ _ => true
  | .amocas _ _ _ _ => true
  | .dist _ _ _ => true
  | .padd _ _ _ => true
  | .pmk _ _ _ => true
  | .pfld _ _ _ => true
  | .pfix _ _ => true
  | .leap _ => true
  | .rput _ _ => true
  | .paddi _ _ imm => immWf imm
  | .rvinit _ _ => true
  | .rvarr _ => true
  | .rvwait _ => true
  | .rvtest _ _ => true
  | .jpush _ _ _ => true
  | .jpushW _ _ _ => true
  | .barini _ _ => true
  | .barexp _ _ => true
  | .barwt _ _ => true
  | .evsend _ _ _ => true
  | .evnext _ => true
  | .evnull => true
  | .lkset _ _ _ => true
  | .dqpush _ _ _ => true
  | .dqpop _ _ => true
  | .dqsplit => true
  | .dqsteal _ _ => true
  | .dqcnt _ => true
  | .vadd _ _ _ et q => q.wf true true false && et.upTo11
  | .vsub _ _ _ et q => q.wf true true false && et.upTo11
  | .vmul _ _ _ et q => q.wf true true false && et.upTo11
  | .vmin _ _ _ et q => q.wf false true false && et.upTo11
  | .vmax _ _ _ et q => q.wf false true false && et.upTo11
  | .vfma _ _ _ et q => q.wf true true true && et.upTo11
  | .vfms _ _ _ et q => q.wf true true true && et.upTo11
  | .vdiv _ _ _ et q => q.wf true true false && et.upTo11
  | .vabs _ _ et q => q.wf false true false && et.upTo11
  | .vneg _ _ et q => q.wf false true false && et.upTo11
  | .vmulh _ _ _ et q => q.wf false true false && et.isInt
  | .vand _ _ _ _ q => q.wf false true false
  | .vor _ _ _ _ q => q.wf false true false
  | .vxor _ _ _ _ q => q.wf false true false
  | .vandn _ _ _ _ q => q.wf false true false
  | .vshl _ _ _ et q => q.wf false true false && et.isInt
  | .vshr _ _ _ et q => q.wf false true false && et.isInt
  | .vsra _ _ _ et q => q.wf false true false && et.isInt
  | .vcmp _ _ _ _ et q => q.wf false true false && et.upTo11
  | .vsqrt _ _ et q => q.wf true true false && et.isFlt
  | .vrcp _ _ et q => q.wf true true false && et.isFlt
  | .vrsqrt _ _ et q => q.wf true true false && et.isFlt
  | .vexp2 _ _ et q => q.wf true true false && et.isFlt
  | .vlog2 _ _ et q => q.wf true true false && et.isFlt
  | .vtanh _ _ et q => q.wf true true false && et.isFlt
  | .vcvt _ _ _ _ q => q.wf true true false
  | .vperm _ _ _ _ q => q.wf false true false
  | .vslide _ _ _ _ q => q.wf false true false
  | .vbcast _ _ _ q => q.wf false true false
  | .vextr _ _ _ _ q => q.wf false true false
  | .vins _ _ _ _ q => q.wf false true false
  | .vredsum _ _ et q => q.wf true true false && et.upTo11
  | .vredmax _ _ et q => q.wf false true false && et.upTo11
  | .vredmin _ _ et q => q.wf false true false && et.upTo11
  | .mand _ _ _ q => q.wf false true false
  | .mor _ _ _ q => q.wf false true false
  | .mxor _ _ _ q => q.wf false true false
  | .mnot _ _ q => q.wf false true false
  | .mpop _ _ q => q.wf false true false
  | .mfirst _ _ q => q.wf false true false
  | .mset _ _ q => q.wf false true false
  | .mget _ _ q => q.wf false true false
  | .vld _ _ _ _ q => q.wf false true false
  | .vlds _ _ _ _ _ q => q.wf false true false
  | .vldx _ _ _ _ _ q => q.wf false true false
  | .vst _ _ _ _ q => q.wf false false false
  | .vsts _ _ _ _ _ q => q.wf false false false
  | .vstx _ _ _ _ _ q => q.wf false false false
  | .vstxa _ _ _ et _ q => q.wf false false false && et.upTo11
  | .amov _ _ q => q.wf false true false
  | .aput _ _ q => q.wf false false false
  | .dadd _ _ _ => true
  | .dsub _ _ _ => true
  | .dmul _ _ _ => true
  | .ddiv _ _ _ => true
  | .dfma _ _ _ => true
  | .dsqrt _ _ => true
  | .dneg _ _ => true
  | .dabs _ _ => true
  | .dmov _ _ => true
  | .dround _ _ => true
  | .dcmp _ _ _ _ => true
  | .dcvtf _ _ => true
  | .dcvtd _ _ => true
  | .dcvti _ _ => true
  | .dcvtdi _ _ => true
  | .dhead _ _ => true
  | .dclass _ _ => true
  | .ldn _ _ disp => dispWf disp
  | .stn _ _ disp => dispWf disp
  | .prec _ p => precWf p
  | .precReg _ a => decide (a ≠ 0)
  | .illegalInstruction _ => false
  | .mma => false
  | .mzero => false
  | .mfmt => false
  | .mstore => false
  | .mcheck => false
  | .copy => false
  | .fill => false
  | .gather => false
  | .scatter => false
  | .scatteradd => false
  | .coll => false
  | .digest => false
  | .launch => false
  | .jobEnd => false
  | .jobStatusWord => false
  | .collProceed => false
  | .memberTimeout => false
  | .digestDecision => false
  | .homeAccess => false
  | .tableWalk => false
  | .accessResponse => false
  | .relaxedAccessCompletion => false
  | .busyResend => false
  | .syncTimeout => false
  | .rendezvousRelease => false
  | .rendezvousTimeout => false
  | .rputArrival => false
  | .leapArrival => false
  | .leapBounce => false
  | .leapResend => false
  | .arrivalAcknowledgement => false
  | .containmentReset => false
  | .resume => false
  | .deliver => false
  | .terminate => false
  | .vacate => false
  | .restore => false
  | .saveWriteAcknowledgement => false
  | .contextSaveFault => false
  | .slotDisable => false
  | .slotReenable => false
  | .rankingRefresh => false
  | .save => false
  | .teamTerminate => false
  | .discard => false
  | .sliceExpiry => false
  | .teamSave => false
  | .preemptionTimeout => false
  | .scan => false
  | .placement => false
  | .create => false
  | .delete => false
  | .switchIn => false
  | .switchOut => false
  | .tailWrite => false
  | .headRead => false
  | .calendBoundary => false
  | .translationShootdown => false
  | .relocate => false
  | .retireStub => false
  | .reinstate => false
  | .thermalEvacuation => false
  | .poolSupply => false
  | .moveCompletion => false
  | .correctedError => false
  | .uncorrectableError => false
  | .parityReplay => false
  | .rowSparing => false
  | .spareSwitch => false
  | .spareRowError => false
  | .unfence => false
  | .checkpointNow => false
  | .restoreTierOne => false
  | .invalidate => false
  | .checkpointComplete => false
  | .modulePowerFailure => false
  | .bringUp => false
  | .firmwareUpload => false
  | .keyInstall => false
  | .flitReplay => false
  | .peerLinkDown => false
  | .peerRequest => false
  | .hostBarAccess => false
  | .timeSync => false
  | .eventEntry => false
  | .eventBusyAnswer => false
  | .eventResend => false
  | .eventDispatch => false
  | .endOfLocalTime => false
  | .almanacMessage => false
  | .almanacHoldExpiry => false
  | .vigilRound => false
  | .vigilEvent => false
  | .linkRegistration => false
  | .hold => false
  | .release => false
  | .step => false
  | .cancel => false
  | .releaseOne => false
  | .armedTaskEntryWrite => false
  | .debugWindowWrite => false
  | .dump => false
  | .triggerArm => false
  | .triggerTransition => false
  | .solsticePulse => false
  | .histogramClear => false
  | .traceRecordWrite => false
  | .fqbWrite => false
  | .fqrWrite => false
  | .hfqbWrite => false
  | .hfqrWrite => false
  | .divsClear => false
  | .registerWrite => false
  | .stealVisit => false
  | .peerLinkUp => false
  | .restoreTierOneComplete => false

end Sys2Proof
end

