-- ==== Sys2Proof/Certificates/Slice0/Obligations.lean ====
section
/-! DEFINITION. The statements about the machine, from the numbered rules of the manual. `Claims.Ready` says when a unit
is executed and issues; `Claims.WritesScalar` and its kin give its next state and its frame; `Claims.Acting` names the act
of an engine, home, unit or outside agent in hand. A statement about several rules is the conjunction of its named parts. -/

open Sys2Proof Sys2Proof.Machine Sys2Proof.Claims

namespace Sys2Proof.Claims

/-- An act of an engine, home, unit or outside agent is in hand, and no access of it has met a block that is being moved
(R211). -/
abbrev Acting (s : State) (a : Act) : Prop := s.act = some a ∧ s.behind = none

/-- No access of the hardware has to wait for another: no block is being moved (R211), no access waits at a port, and none
that reached a block before it was moved is still on its way (R53). -/
def unhindered (s : State) : Bool :=
  !anyMove s && s.ports.all (fun e => e.2.walks.isEmpty)
    && s.agenda.all fun x => match x.act with | .homeAccess r => r.turn.isNone | _ => true

abbrev Unhindered (s : State) : Prop := unhindered s = true

end Sys2Proof.Claims

/-! ### What the values of the ALU group are (R100-R105) -/

namespace Sys2Proof.Claims

/-- The bits of a word that are one, among those below n. -/
def onesBelow (x : Word) (n : Nat) : Nat := ((List.range n).filter fun k => x.getLsbD k).length

/-- Arithmetic, logic, minimum and maximum (R100): what is read, what is written, and the value. -/
def arithForm (th : Thread) : Instr → Option (List SReg × SReg × Word)
  | .add d a b => some ([a, b], d, BitVec.ofInt 64 ((sget th a).toInt + (sget th b).toInt))
  | .sub d a b => some ([a, b], d, BitVec.ofInt 64 ((sget th a).toInt - (sget th b).toInt))
  | .mul d a b => some ([a, b], d, BitVec.ofInt 64 ((sget th a).toInt * (sget th b).toInt))
  | .mulh d a b => some ([a, b], d, BitVec.ofInt 64 ((sget th a).toInt * (sget th b).toInt / 2 ^ 64))
  | .mulhu d a b => some ([a, b], d, BitVec.ofNat 64 ((sget th a).toNat * (sget th b).toNat / 2 ^ 64))
  | .and d a b => some ([a, b], d, sget th a &&& sget th b)
  | .or d a b => some ([a, b], d, sget th a ||| sget th b)
  | .xor d a b => some ([a, b], d, sget th a ^^^ sget th b)
  | .andn d a b => some ([a, b], d, sget th a &&& ~~~(sget th b))
  | .orn d a b => some ([a, b], d, sget th a ||| ~~~(sget th b))
  | .min d a b => some ([a, b], d, BitVec.ofInt 64 (Min.min (sget th a).toInt (sget th b).toInt))
  | .max d a b => some ([a, b], d, BitVec.ofInt 64 (Max.max (sget th a).toInt (sget th b).toInt))
  | .minu d a b => some ([a, b], d, BitVec.ofNat 64 (Min.min (sget th a).toNat (sget th b).toNat))
  | .maxu d a b => some ([a, b], d, BitVec.ofNat 64 (Max.max (sget th a).toNat (sget th b).toNat))
  | _ => none

/-- Shifts and rotations by a register's low six bits or by an amount (R100, R104). -/
def shiftForm (th : Thread) : Instr → Option (List SReg × SReg × Word)
  | .sll d a b => some ([a, b], d, BitVec.ofNat 64 ((sget th a).toNat * 2 ^ ((sget th b).toNat % 64)))
  | .srl d a b => some ([a, b], d, BitVec.ofNat 64 ((sget th a).toNat / 2 ^ ((sget th b).toNat % 64)))
  | .sra d a b => some ([a, b], d, BitVec.ofInt 64 ((sget th a).toInt / 2 ^ ((sget th b).toNat % 64)))
  | .rol d a b => some ([a, b], d, rolled (sget th a) ((sget th b).toNat % 64))
  | .slli d a n => some ([a], d, BitVec.ofNat 64 ((sget th a).toNat * 2 ^ n.val))
  | .srli d a n => some ([a], d, BitVec.ofNat 64 ((sget th a).toNat / 2 ^ n.val))
  | .srai d a n => some ([a], d, BitVec.ofInt 64 ((sget th a).toInt / 2 ^ n.val))
  | .roli d a n => some ([a], d, rolled (sget th a) n.val)
  | _ => none
where
  /-- The bits that leave at the top enter at the bottom. -/
  rolled (x : Word) (n : Nat) : Word := BitVec.ofNat 64 (x.toNat * 2 ^ n % 2 ^ 64 + x.toNat * 2 ^ n / 2 ^ 64)

/-- Bit counts, extensions, fields and the choice by a predicate (R100, R102). -/
def fieldForm (th : Thread) : Instr → Option (List SReg × List PReg × SReg × Word)
  | .clz d a => some ([a], [], d, BitVec.ofNat 64 ((List.range 64).takeWhile fun k => !(sget th a).getLsbD (63 - k)).length)
  | .ctz d a => some ([a], [], d, BitVec.ofNat 64 ((List.range 64).takeWhile fun k => !(sget th a).getLsbD k).length)
  | .pop d a => some ([a], [], d, BitVec.ofNat 64 (onesBelow (sget th a) 64))
  | .sext d a w => some ([a], [], d, match w.val with
      | 0 => ((sget th a).setWidth 8).signExtend 64
      | 1 => ((sget th a).setWidth 16).signExtend 64
      | _ => ((sget th a).setWidth 32).signExtend 64)
  | .zext d a w => some ([a], [], d, match w.val with
      | 0 => ((sget th a).setWidth 8).setWidth 64
      | 1 => ((sget th a).setWidth 16).setWidth 64
      | _ => ((sget th a).setWidth 32).setWidth 64)
  | .bfx d a b => some ([a, b], [], d, BitVec.ofNat 64 ((sget th a).toNat / 2 ^ fieldPos (sget th b) % 2 ^ fieldLen (sget th b)))
  | .bfi d a b => some ([a, b, d], [], d, placed (sget th d) (sget th a) (fieldPos (sget th b)) (fieldLen (sget th b)))
  | .sel d a b k => some ([a, b], [k], d, if pget th k then sget th a else sget th b)
  | _ => none
where
  fieldPos (y : Word) : Nat := y.toNat % 64
  fieldLen (y : Word) : Nat := y.toNat / 256 % 64
  /-- Bits [pos + len − 1 : pos] replaced by the low bits of x; bits above 63 are dropped. -/
  placed (old x : Word) (pos len : Nat) : Word :=
    BitVec.ofFnLE fun k : Fin 64 => if pos ≤ k.val ∧ k.val < pos + len then x.getLsbD (k.val - pos) else old.getLsbD k.val

/-- The immediate forms (R103, R105). -/
def immForm (th : Thread) : Instr → Option (List SReg × SReg × Word)
  | .addi d a imm => some ([a], d, BitVec.ofInt 64 ((sget th a).toInt + imm))
  | .andi d a imm => some ([a], d, sget th a &&& BitVec.ofInt 64 imm)
  | .ori d a imm => some ([a], d, sget th a ||| BitVec.ofInt 64 imm)
  | .xori d a imm => some ([a], d, sget th a ^^^ BitVec.ofInt 64 imm)
  | .lih d pos imm => some ([], d, BitVec.ofNat 64 (imm.toNat * 2 ^ (16 * pos.val)))
  | .lihK d pos imm => some ([d], d, BitVec.ofFnLE fun k : Fin 64 =>
      if 16 * pos.val ≤ k.val ∧ k.val < 16 * pos.val + 16 then imm.getLsbD (k.val - 16 * pos.val) else (sget th d).getLsbD k.val)
  | _ => none

/-- A condition between two integers (R106). -/
def condInt (cc : Cond) (x y : Int) : Bool :=
  match cc with
  | .eq => decide (x = y)
  | .ne => decide (x ≠ y)
  | .lt => decide (x < y)
  | .ge => decide (y ≤ x)
  | .le => decide (x ≤ y)
  | .gt => decide (y < x)

/-- Compares and the predicate group that write a predicate (R106, R107). -/
def predForm (th : Thread) : Instr → Option (List SReg × List PReg × PReg × Bool)
  | .cmp p cc u a b => some ([a, b], [], p,
      if u then condInt cc (sget th a).toNat (sget th b).toNat else condInt cc (sget th a).toInt (sget th b).toInt)
  | .cmpImm p cc u a imm => some ([a], [], p,
      if u then condInt cc (sget th a).toNat (BitVec.ofInt 64 imm.toInt).toNat else condInt cc (sget th a).toInt imm.toInt)
  | .pand d a b => some ([], [a, b], d, pget th a && pget th b)
  | .por d a b => some ([], [a, b], d, pget th a || pget th b)
  | .pxor d a b => some ([], [a, b], d, decide (pget th a ≠ pget th b))
  | .pandn d a b => some ([], [a, b], d, pget th a && !pget th b)
  | .pnot d a => some ([], [a], d, !pget th a)
  | .pmov d a => some ([a], [], d, decide (sget th a ≠ 0))
  | _ => none

end Sys2Proof.Claims

/-- R100: every arithmetic and logic instruction of the ALU group writes its value, has latency 8, and changes nothing
else of the thread or of the machine. -/
def Sys2Proof.Claims.AluArithmetic : Prop :=
  ∀ (i : Instr) (s : State) (c : Cur) (th : Thread) (rd : List SReg) (d : SReg) (v : Word),
    arithForm th i = some (rd, d, v) → Ready s c th { Need.none with sr := rd, sd := [d] } →
    ∃ t, exec i s = .next t ∧ WritesScalar s c th d v c.npc 8 t

/-- R100, R104: shifts and rotations, by a register or by an amount. -/
def Sys2Proof.Claims.ShiftsRotate : Prop :=
  ∀ (i : Instr) (s : State) (c : Cur) (th : Thread) (rd : List SReg) (d : SReg) (v : Word),
    shiftForm th i = some (rd, d, v) → Ready s c th { Need.none with sr := rd, sd := [d] } →
    ∃ t, exec i s = .next t ∧ WritesScalar s c th d v c.npc 8 t

/-- R100, R102: bit counts, extensions, bit fields and `sel`. -/
def Sys2Proof.Claims.BitFields : Prop :=
  ∀ (i : Instr) (s : State) (c : Cur) (th : Thread) (rd : List SReg) (pr : List PReg) (d : SReg) (v : Word),
    fieldForm th i = some (rd, pr, d, v) → Ready s c th { Need.none with sr := rd, sd := [d], pr := pr } →
    ∃ t, exec i s = .next t ∧ WritesScalar s c th d v c.npc 8 t

/-- R103, R105: the immediate forms. -/
def Sys2Proof.Claims.ImmediateForms : Prop :=
  ∀ (i : Instr) (s : State) (c : Cur) (th : Thread) (rd : List SReg) (d : SReg) (v : Word),
    immForm th i = some (rd, d, v) → Ready s c th { Need.none with sr := rd, sd := [d] } →
    ∃ t, exec i s = .next t ∧ WritesScalar s c th d v c.npc 8 t

/-- R106, R107: compares and the predicate group; `pget` writes a scalar. -/
def Obligations.PredicatesSet : Prop :=
  (∀ (i : Instr) (s : State) (c : Cur) (th : Thread) (rd : List SReg) (pr : List PReg) (d : PReg) (v : Bool),
    predForm th i = some (rd, pr, d, v) → Ready s c th { Need.none with sr := rd, pr := pr } →
    ∃ t, exec i s = .next t ∧ WritesPred s c th d v 8 t)
  ∧ ∀ (s : State) (c : Cur) (th : Thread) (d : SReg) (a : PReg),
    Ready s c th { Need.none with sd := [d], pr := [a] } →
    ∃ t, exec (.pget d a) s = .next t ∧ WritesScalar s c th d (if pget th a then 1 else 0) c.npc 8 t

/-- R101: division truncates towards zero and the remainder takes the sign of the dividend; −2^63 divided by −1 is −2^63
with remainder 0; a divisor of zero is the arithmetic fault with FINFO 1, and nothing is written. -/
def Sys2Proof.Claims.DivisionTruncates : Prop :=
  ∀ (s : State) (c : Cur) (th : Thread) (d a b : SReg), Ready s c th { Need.none with sr := [a, b], sd := [d] } →
    let x := sget th a
    let y := sget th b
    (y ≠ 0 →
      (∃ t, exec (.div d a b) s = .next t ∧ WritesScalar s c th d (BitVec.ofInt 64 (x.toInt.tdiv y.toInt)) c.npc 8 t)
      ∧ (∃ t, exec (.rem d a b) s = .next t
          ∧ WritesScalar s c th d (BitVec.ofInt 64 (x.toInt - y.toInt * x.toInt.tdiv y.toInt)) c.npc 8 t)
      ∧ (∃ t, exec (.divu d a b) s = .next t ∧ WritesScalar s c th d (BitVec.ofNat 64 (x.toNat / y.toNat)) c.npc 8 t)
      ∧ ∃ t, exec (.remu d a b) s = .next t ∧ WritesScalar s c th d (BitVec.ofNat 64 (x.toNat % y.toNat)) c.npc 8 t)
    ∧ (y = 0 → ∀ i ∈ [Instr.div d a b, .rem d a b, .divu d a b, .remu d a b],
        ∃ t, exec i s = .next t ∧ TakesUser s c th 0x16 0 1 t)

/-- R100-R105: the ALU group and the immediate forms: each writes its value and nothing else, with latency 8; division
truncates, and a divisor of zero is the only fault among them. -/
def Obligations.AluGroup : Prop :=
  Sys2Proof.Claims.AluArithmetic ∧
  Sys2Proof.Claims.ShiftsRotate ∧
  Sys2Proof.Claims.BitFields ∧
  Sys2Proof.Claims.ImmediateForms ∧
  Sys2Proof.Claims.DivisionTruncates

/-- R108: a relative branch goes to the offset of its own word plus four times its displacement, or on; `bl` writes s31.
A target outside the offsets of a pointer is the address fault with FINFO 3, taken branch or not. -/
def Sys2Proof.Claims.RelativeBranches : Prop :=
  ∀ (s : State) (c : Cur) (th : Thread) (d26 : BitVec 26) (d22 : BitVec 22) (p : PReg),
    let at26 : Int := (c.fpc.toNat % 2 ^ 46 : Nat) + 4 * d26.toInt
    let at22 : Int := (c.fpc.toNat % 2 ^ 46 : Nat) + 4 * d22.toInt
    let go := fun (o : Int) => BitVec.ofNat 64 (c.fpc.toNat / 2 ^ 46 * 2 ^ 46 + o.toNat)
    let inside := fun (o : Int) => 0 ≤ o ∧ o < 2 ^ 46
    (Ready s c th Need.none →
      (inside at26 → ∃ t, exec (.b d26) s = .next t ∧ WritesNothing s c th (go at26) 8 t)
      ∧ (¬ inside at26 → ∃ t, exec (.b d26) s = .next t ∧ (∃ addr, TakesUser s c th 0x08 addr 3 t)))
    ∧ (Ready s c th { Need.none with sd := [31] } →
      (inside at26 → ∃ t, exec (.bl d26) s = .next t ∧ WritesScalar s c th 31 (linkOfPc c) (go at26) 8 t)
      ∧ (¬ inside at26 → ∃ t, exec (.bl d26) s = .next t ∧ (∃ addr, TakesUser s c th 0x08 addr 3 t)))
    ∧ (Ready s c th { Need.none with pr := [p] } →
      (inside at22 →
        (∃ t, exec (.bp p d22) s = .next t ∧ WritesNothing s c th (if pget th p then go at22 else c.npc) 8 t)
        ∧ ∃ t, exec (.bpNot p d22) s = .next t ∧ WritesNothing s c th (if pget th p then c.npc else go at22) 8 t)
      ∧ (¬ inside at22 → ∀ i ∈ [Instr.bp p d22, .bpNot p d22], ∃ t, exec i s = .next t ∧ (∃ addr, TakesUser s c th 0x08 addr 3 t)))

/-- R109: a jump through a register goes to a pointer of kind 0, 2, 3 or 4 whose offset is a multiple of 4; else the
address fault with FINFO 1, or the alignment fault with FINFO 4. `jlr` writes the link after the target is read. -/
def Sys2Proof.Claims.RegisterJumps : Prop :=
  ∀ (s : State) (c : Cur) (th : Thread) (d a : SReg),
    let t0 := sget th a
    let code := t0.toNat / 2 ^ 60 ∈ [0, 2, 3, 4]
    let aligned := t0.toNat % 4 = 0
    (Ready s c th { Need.none with sr := [a] } →
      (code → aligned → ∃ t, exec (.jr a) s = .next t ∧ WritesNothing s c th t0 8 t)
      ∧ (¬ code → ∃ t, exec (.jr a) s = .next t ∧ TakesUser s c th 0x08 t0 1 t)
      ∧ (code → ¬ aligned → ∃ t, exec (.jr a) s = .next t ∧ TakesUser s c th 0x07 t0 4 t))
    ∧ (Ready s c th { Need.none with sr := [a], sd := [d] } →
      (code → aligned → ∃ t, exec (.jlr d a) s = .next t ∧ WritesScalar s c th d (linkOfPc c) t0 8 t)
      ∧ (¬ code → ∃ t, exec (.jlr d a) s = .next t ∧ TakesUser s c th 0x08 t0 1 t)
      ∧ (code → ¬ aligned → ∃ t, exec (.jlr d a) s = .next t ∧ TakesUser s c th 0x07 t0 4 t))

/-- R108, R109: branches by a displacement and jumps through a register. -/
def Obligations.BranchesJump : Prop :=
  Sys2Proof.Claims.RelativeBranches ∧ Sys2Proof.Claims.RegisterJumps

/-! ### The system group (R90-R99) -/

/-- R91, R98: `nop` does nothing; a fence with nothing outstanding has latency 8, and one with engine work of its mask
outstanding has issued and keeps its thread busy at its own address, changing nothing else. -/
def Sys2Proof.Claims.NopAndFence : Prop :=
  (∀ (s : State) (c : Cur) (th : Thread), Ready s c th Need.none → ∃ t, exec .nop s = .next t ∧ WritesNothing s c th c.npc 8 t)
  ∧ ∀ (s : State) (c : Cur) (th : Thread) (sc : Fin 6) (g : BitVec 3), Ready s c th { Need.none with rx := true } →
      (unconsumed s c.uid g (decide (sc = 5)) = false → ∃ t, exec (.fence sc g) s = .next t ∧ WritesNothing s c th c.npc 8 t)
      ∧ (unconsumed s c.uid g (decide (sc = 5)) = true →
          ∃ t x, exec (.fence sc g) s = .next t ∧ threadOf t c.uid = some x ∧ x.wait = .fence g (decide (sc = 5))
            ∧ { x with wait := th.wait, readyAt := th.readyAt } = th ∧ Apart s t c)

/-- R91: `tyield` changes nothing of its thread but where it stands, and keeps it busy until 64 cycles after its issue
unless another slot issues before. -/
def Sys2Proof.Claims.YieldBusy : Prop :=
  ∀ (s : State) (c : Cur) (th : Thread), Ready s c th Need.none →
    ∃ t x, exec .tyield s = .next t ∧ threadOf t c.uid = some x ∧ endAs x th = th ∧ x.pc = c.npc
      ∧ x.readyAt = s.cycle + c.fx + 64 ∧ x.wait = .tyield (s.cycle + c.fx + 8) ∧ Apart s t c

/-- R99: `rclr` makes its register empty and changes no value; `rclr s0` has no effect; a register that an outstanding
relaxed load, `jpush` or `evnext` has emptied parks the thread until it fills. A unit that reads the emptied
register is then not issued. -/
def Obligations.RclrEmpties : Prop :=
  ∀ (s : State) (c : Cur) (th : Thread) (d : SReg),
    (Ready s c th { Need.none with sd := [d] } →
      ∃ t x, exec (.rclr d) s = .next t ∧ threadOf t c.uid = some x ∧ Over s c x c.npc 8
        ∧ (∀ r, sEmptyAt x r = if r = d then decide (d ≠ 0) else sEmptyAt th r)
        ∧ { endAs x th with sEmpty := th.sEmpty } = th ∧ Apart s t c
        ∧ (d ≠ 0 → needMet t c.uid x { Need.none with sr := [d] } = false))
    ∧ (Executing s c th → sEmptyAt th d = true → sOutAt th d = true →
      ∃ t x, exec (.rclr d) s = .next t ∧ threadOf t c.uid = some x ∧ x.wait = .issue { Need.none with sd := [d] }
        ∧ { x with wait := th.wait } = th ∧ Apart s t c)

/-- R91: `tmark` sends the trace unit a record of its thread, its address, its immediate and the tick where the
partition records, and changes nothing of its thread; the counts of the partition's triggers (R409) are all else that
it touches. The trailing thread of a pair sends none (the model's choice). -/
def Sys2Proof.Claims.TmarkRecords : Prop :=
  ∀ (s : State) (c : Cur) (th : Thread) (imm : BitVec 12), Ready s c th Need.none →
    (th.role = 2 → ∃ t, exec (.tmark imm) s = .next t ∧ WritesNothing s c th c.npc 8 t)
    ∧ (th.role ≠ 2 → ∃ t x, exec (.tmark imm) s = .next t ∧ threadOf t c.uid = some x ∧ Over s c x c.npc 8 ∧ endAs x th = th
      ∧ t.records = s.records ++ (if recordsOn (partOf s th.partn) then
          [{ partn := th.partn, tid := tidOf th, kind := 0, pc := c.fpc, arg := imm.toNat, tick := s.tsc, src := th.tile }] else [])
      ∧ (∀ p, { partOf t p with trace := { (partOf t p).trace with trigs := (partOf s p).trace.trigs } } = partOf s p)
      ∧ t.mem = s.mem ∧ { t with threads := s.threads, tiles := s.tiles, cur := s.cur, parts := s.parts, records := s.records } = s)

/-- R91, R98: `nop`, `fence`, `tyield` and `tmark` change no register of their thread. -/
def Obligations.QuietInstructions : Prop :=
  Sys2Proof.Claims.NopAndFence ∧ Sys2Proof.Claims.YieldBusy ∧ Sys2Proof.Claims.TmarkRecords

/-- R92: `trap` raises the software trap with its immediate, a user-class fault, and FPC its own address. -/
def Sys2Proof.Claims.TrapRaises : Prop :=
  ∀ (s : State) (c : Cur) (th : Thread) (imm : BitVec 12), Ready s c th Need.none →
    ∃ t, exec (.trap imm) s = .next t ∧ TakesUser s c th 0x17 0 (BitVec.ofNat 64 imm.toNat) t

/-- R93: `eret` in a handler sets PC to FPC and ends the handler state, so that the whole unit at FPC is executed
again, from the progress its record holds where it is one that continues (R146), and the record keeps its contents;
outside one it is the illegal-instruction fault with FINFO as R35 gives. -/
def Obligations.EretReturns : Prop :=
  ∀ (s : State) (c : Cur) (th : Thread), Ready s c th Need.none →
    (th.inHandler = true →
        ∃ t x, exec .eret s = .next t ∧ threadOf t c.uid = some x ∧ x.pc = th.fr.pc ∧ x.inHandler = false ∧ x.fr = th.fr
          ∧ x.resume = (if restartsAt s th th.fr.pc then th.fr.cause.toNat / 2 ^ 32 else 0) ∧ x.readyAt = s.cycle + c.fx + 8
          ∧ { endAs x th with inHandler := th.inHandler } = th ∧ Apart s t c)
    ∧ (th.inHandler = false →
        ∃ t, exec .eret s = .next t ∧ TakesUser s c th 0x01 0 (BitVec.ofNat 64 (c.word.toNat + c.pos * 2 ^ 32)) t)

/-- R92, R399: `ebreak` raises the debug fault with its immediate and FPC its own address: the thread is held for the
partition's debug agent, or, where none is attached, stays stopped with the record. -/
def Sys2Proof.Claims.EbreakDebugFault : Prop :=
  ∀ (s : State) (c : Cur) (th : Thread) (imm : BitVec 12), Ready s c th Need.none →
    ∃ t x, exec (.ebreak imm) s = .next t ∧ threadOf t c.uid = some x
      ∧ x.fr = recordOf s c 0x318 0 (BitVec.ofNat 64 imm.toNat) ∧ x.pc = c.fpc ∧ x.resume = 0 ∧ x.wait = .none
      ∧ (if (partOf s th.partn).trace.dbqb = 0 then
          x.stopped = true ∧ { endAs x th with fr := th.fr, stopped := th.stopped } = th
        else
          x.held = true ∧ x.debugged = true ∧ { endAs x th with fr := th.fr, debugged := th.debugged } = th)

/-- R34, R35, R266: a unit that does not decode takes the fault of its words, its cause and FINFO as the decoder reports
them; nothing of it is executed. A unit of the dennum majors (R38) holds its thread for 8 cycles first. -/
def Sys2Proof.Claims.IllegalFaults : Prop :=
  ∀ (s : State) (c : Cur) (th : Thread) (f : DecodeFault), Executing s c th → causeClass f.cause = 0 →
    let major := c.word.toNat / 2 ^ 26
    (¬ (0x30 ≤ major ∧ major ≤ 0x33) →
      ∃ t, exec (.illegalInstruction f) s = .next t ∧ TakesUser s c th f.cause 0 (decodeInfo f) t)
    ∧ (0x30 ≤ major ∧ major ≤ 0x33 →
      ∃ t, exec (.illegalInstruction f) s = .next t ∧ FaultsLater s c th f.cause 0 (decodeInfo f) 8 t)

/-- R34, R35, R92, R266, R399: software traps, breakpoints, and units that do not decode. -/
def Obligations.TrapsTaken : Prop :=
  Sys2Proof.Claims.TrapRaises ∧ Sys2Proof.Claims.EbreakDebugFault ∧ Sys2Proof.Claims.IllegalFaults

/-- R97: `safept` completes and reads nothing while no pre-emption request stands for the team; while one stands it
parks at the point. The pointer it names is the one the save will use (R164). -/
def Sys2Proof.Claims.SafePoint : Prop :=
  ∀ (s : State) (c : Cur) (th : Thread) (a : SReg),
    let asked := (teamOf s th.partn th.serial).any fun t => t.req.isSome
    (asked = false → Ready s c th { Need.none with sr := [a] } →
      ∃ t x, exec (.safept a) s = .next t ∧ threadOf t c.uid = some x ∧ Over s c x c.npc 8 ∧ x.table = some (sget th a)
        ∧ { endAs x th with table := th.table } = th ∧ Apart s t c)
    ∧ (asked = true → Ready s c th { Need.none with sr := [a], rx := true } →
      ∃ t x, exec (.safept a) s = .next t ∧ threadOf t c.uid = some x ∧ x.wait = .safept ∧ x.pc = th.pc
        ∧ x.table = some (sget th a) ∧ { endAs x th with table := th.table } = th ∧ Apart s t c)

namespace Sys2Proof.Claims

/-- What `mts` leaves in a system register of the thread (R71, R94): written whole, in its writable bits, or not at all. -/
def sysAfter (n : Nat) (old v : Word) : Word :=
  match n with
  | 0x010 | 0x011 | 0x012 | 0x013 | 0x014 | 0x015 | 0x020 | 0x021 | 0x042 | 0x052 | 0x061 | 0x062 => v
  | 0x022 => v &&& 7
  | 0x033 => if 6 ≤ v.toNat % 8 then (v &&& 0x1F0018) ||| (old &&& 7) ||| (old &&& v &&& 0x1F00)
             else (v &&& 0x1F001F) ||| (old &&& v &&& 0x1F00)
  | 0x034 => if 2 ≤ v.toNat % 128 ∧ v.toNat % 128 ≤ 65 then v &&& 127 else old
  | 0x040 => if 6 ≤ v.toNat % 8 then (v &&& 0x1F8) ||| (old &&& 7) else v &&& 0x1FF
  | 0x041 => old &&& v
  | 0x053 => v &&& 0xFFFFFFFF
  | 0x054 => v &&& 0xFF
  | 0x060 => v &&& 1
  | _ => old

end Sys2Proof.Claims

/-- R94, R71, R3: `mfs` reads the register that its number names; `mts` of a register of the thread leaves what its
access code allows and changes no other register of the thread. That a write of register 0x060 keeps bit 0 alone is the
model's choice (log 54). -/
def Sys2Proof.Claims.SystemRegisterAccess : Prop :=
  ∀ (s : State) (c : Cur) (th : Thread) (r : SReg) (n : BitVec 12), th.role = 0 → (n.toNat < 0x100 ∨ th.sup = true) →
    (Ready s c th { Need.none with sd := [r] } →
      ∃ t, exec (.mfs r n) s = .next t ∧ WritesScalar s c th r (sysRead s th n.toNat) c.npc 8 t)
    ∧ (Ready s c th { Need.none with sr := [r] } → n.toNat < 0x070 ∨ n.toNat = 0x080 →
      ∃ t x, exec (.mts r n) s = .next t ∧ threadOf t c.uid = some x ∧ Over s c x c.npc 8
        ∧ (∀ k : Nat, k < 0x100 → sysRead t x k = if k = n.toNat then sysAfter k (sysRead s th k) (sget th r) else sysRead s th k)
        ∧ { endAs x th with tvec := th.tvec, fr := th.fr, meter := th.meter, dn := th.dn, vec := th.vec, lt := th.lt,
                            racc := th.racc, syto := th.syto, rvto := th.rvto } = th
        ∧ Apart s t c)

/-- R34, R71: in user mode a register number at or above 0x100 is the privileged fault, and nothing is read or
written; in a supervisor team a write of a register that the partition or the core shares takes effect by its own act in
the same cycle. -/
def Sys2Proof.Claims.SharedRegisters : Prop :=
  (∀ (s : State) (c : Cur) (th : Thread) (r : SReg) (n : BitVec 12), Executing s c th → th.sup = false → 0x100 ≤ n.toNat →
    ∀ i ∈ [Instr.mfs r n, .mts r n], ∃ t, exec i s = .next t ∧ TakesUser s c th 0x04 0 0 t)
  ∧ ∀ (s : State) (c : Cur) (th : Thread) (r : SReg) (n : BitVec 12) (a : Act), Ready s c th { Need.none with sr := [r] } →
      th.role = 0 → (n.toNat < 0x100 ∨ th.sup = true) → sharedAct c.uid th.partn th.tile n.toNat (sget th r) = some a →
      ∃ t x, exec (.mts r n) s = .next t ∧ threadOf t c.uid = some x ∧ Over s c x c.npc 8 ∧ endAs x th = th
        ∧ t.agenda = enterTimed s.agenda { cycle := s.cycle, late := false, age := s.tsc, src := 0, act := a }
        ∧ Apart s { t with agenda := s.agenda } c

/-- R3, R34, R71, R94: `mfs` and `mts` of every register, by mode and by who shares it. -/
def Obligations.SystemRegisters : Prop :=
  Sys2Proof.Claims.SystemRegisterAccess ∧ Sys2Proof.Claims.SharedRegisters

/-- R95: `tfork` in a free slot with the rows its claim takes starts a thread there with what it inherits, ready 8
cycles later, and writes the slot number; with no free slot or too few rows it writes −1, and so it does in a redundant
pair, whose leading thread enters the value for its partner (R84). It reads s1, s3 and s4 too (R69, R99); that it does so
also where no thread starts is the model's choice (log 93). -/
def Sys2Proof.Claims.ForkStarts : Prop :=
  ∀ (s : State) (c : Cur) (th : Thread) (d a : SReg), Ready s c th { Need.none with sr := [a, 1, 3, 4], sd := [d], rx := true } →
    (∀ k, th.role = 0 → freeSlot s th.tile = some k → rowsFor th.vn th.dwin ≤ (freeRows s th.tile).length →
        threadOf s s.nextUid = none →
      ∃ t x y, exec (.tfork d a) s = .next t ∧ threadOf t c.uid = some x ∧ Over s c x c.npc 8
        ∧ (∀ r, sget x r = if r = d ∧ d ≠ 0 then BitVec.ofNat 64 k else sget th r)
        ∧ { endAs x th with s := th.s, sEmpty := th.sEmpty, sOut := th.sOut, sPois := th.sPois } = th
        ∧ threadOf t s.nextUid = some y
        ∧ y.partn = th.partn ∧ y.serial = th.serial ∧ y.tile = th.tile ∧ y.slot = k ∧ y.sup = th.sup ∧ y.pc = sget th a
        ∧ y.vn = th.vn ∧ y.dwin = th.dwin ∧ y.rows = (freeRows s th.tile).take (rowsFor th.vn th.dwin)
        ∧ y.lt = (if th.ltm then th.lt else Thread.reset.lt)
        ∧ sget y 1 = sget th 1 ∧ sget y 2 = BitVec.ofNat 64 k ∧ sget y 3 = sget th 3 ∧ sget y 4 = sget th 4
        ∧ y.tvec = th.tvec ∧ y.syto = th.syto ∧ y.rvto = th.rvto ∧ y.meter = { th.meter with dmt := 0 }
        ∧ y.readyAt = s.cycle + c.fx + 8 ∧ y.wait = .none ∧ t.mem = s.mem
        ∧ ∀ u, u ≠ c.uid → u ≠ s.nextUid → ∀ z, threadOf s u = some z →
            ∃ z', threadOf t u = some z' ∧ { z' with readyAt := z.readyAt } = z)
    ∧ (th.role = 0 → freeSlot s th.tile = none ∨ (freeRows s th.tile).length < rowsFor th.vn th.dwin →
      ∃ t, exec (.tfork d a) s = .next t ∧ WritesScalar s c th d (BitVec.allOnes 64) c.npc 8 t)
    ∧ ∀ u m, th.role = 1 → mateOf s c.uid = some u → threadOf s u = some m → m.lvq.length < 16 →
      ∃ t x y, exec (.tfork d a) s = .next t ∧ threadOf t c.uid = some x ∧ Over s c x c.npc 8
        ∧ (∀ r, sget x r = if r = d ∧ d ≠ 0 then BitVec.allOnes 64 else sget th r)
        ∧ { endAs x th with s := th.s, sEmpty := th.sEmpty, sOut := th.sOut, sPois := th.sPois, lvSeq := th.lvSeq } = th
        ∧ threadOf t u = some y ∧ look y.lvq th.lvSeq = some (.vals [BitVec.allOnes 64]) ∧ t.mem = s.mem

/-- R96: `texit` ends its thread: the machine holds no thread of that name any more, and with it its slot and its rows
of the register file. -/
def Sys2Proof.Claims.ExitFrees : Prop :=
  ∀ (s : State) (c : Cur) (th : Thread), Ready s c th { Need.none with rx := true } →
    ∃ t, exec .texit s = .next t ∧ threadOf t c.uid = none

/-- R95-R97: safe points, the start of a thread by another, and the end of one. -/
def Obligations.ThreadsComeAndGo : Prop :=
  Sys2Proof.Claims.SafePoint ∧ Sys2Proof.Claims.ForkStarts ∧ Sys2Proof.Claims.ExitFrees

/-! ### Scalar accesses (R25, R54, R56, R85, R88, R110-R119) -/

namespace Sys2Proof.Claims

/-- A scalar memory instruction as its page gives it: what it reads and writes, its base and effective pointer, its size,
whether it must stay out of the host window or on a scratchpad, the access that a watchpoint sees, what it does at the
home, what its answer does, and its mode. -/
structure Access where
  need : Need
  base : Word
  ea   : Option Ptr
  n    : Nat
  sync : Bool
  spad : Bool
  kind : Nat
  op   : AccOp
  fl   : FlOp
  mode : MemMode

/-- The loads and stores (R110). -/
def plainForm (th : Thread) : Instr → Option Access
  | .ldb t a d m => some (load t a d m 1 true)
  | .ldbu t a d m => some (load t a d m 1 false)
  | .ldh t a d m => some (load t a d m 2 true)
  | .ldhu t a d m => some (load t a d m 2 false)
  | .ldw t a d m => some (load t a d m 4 true)
  | .ldwu t a d m => some (load t a d m 4 false)
  | .ldd t a d m => some (load t a d m 8 false)
  | .stb t a d m => some (store t a d m 1)
  | .sth t a d m => some (store t a d m 2)
  | .stw t a d m => some (store t a d m 4)
  | .std t a d m => some (store t a d m 8)
  | _ => none
where
  load (t a : SReg) (d : Int) (m : MemMode) (n : Nat) (sx : Bool) : Access :=
    { need := { Need.none with sr := [a], sd := [t], rx := decide (m ≠ .relaxed) }, base := sget th a,
      ea := addOff (sget th a) (d * n), n := n, sync := false, spad := false, kind := 1, op := .load n, fl := .loadS t n sx, mode := m }
  store (t a : SReg) (d : Int) (m : MemMode) (n : Nat) : Access :=
    { need := { Need.none with sr := [t, a], rx := decide (m ≠ .relaxed) }, base := sget th a,
      ea := addOff (sget th a) (d * n), n := n, sync := false, spad := false, kind := 2, op := .store n (sget th t), fl := .storeS, mode := m }

/-- The synchronising accesses (R112), the atomics (R115) and the barrier objects (R118, R119). -/
def wordForm (th : Thread) : Instr → Option Access
  | .take t a d lp => some (sync [a] [t] a d lp 3 .take (.syncLoad t))
  | .peek t a d lp => some (sync [a] [t] a d lp 1 .peek (.syncLoad t))
  | .give t a d lp => some (sync [t, a] [] a d lp 2 (.give (sget th t)) .storeS)
  | .post t a d lp => some (sync [t, a] [] a d lp 2 (.post (sget th t)) .storeS)
  | .void a d lp => some (sync [a] [] a d lp 2 .void .storeS)
  | .probe k a d lp => some (sync [a] [] a d lp 1 .probe (.probe k))
  | .amoadd d a b lp => some (amo d a b lp .add)
  | .amoand d a b lp => some (amo d a b lp .and)
  | .amoor d a b lp => some (amo d a b lp .or)
  | .amoxor d a b lp => some (amo d a b lp .xor)
  | .amomin d a b lp => some (amo d a b lp .min)
  | .amomax d a b lp => some (amo d a b lp .max)
  | .amominu d a b lp => some (amo d a b lp .minu)
  | .amomaxu d a b lp => some (amo d a b lp .maxu)
  | .amoswap d a b lp => some (amo d a b lp .swap)
  | .amocas d a b lp => some { amo d a b lp .cas with
      need := { Need.none with sr := [a, b, d], sd := [d], rx := true }, op := .amo .cas (sget th b) (sget th d) }
  | .barini a b => some (bar a b 2 (.barini ((sget th b).toNat % 2 ^ 31)))
  | .barexp a b => some (bar a b 2 (.barexp ((sget th b).toNat % 2 ^ 31)))
  | .barwt a b => some (bar a b 1 (.barwt ((sget th b).getLsbD 0)))
  | _ => none
where
  sync (rd wr : List SReg) (a : SReg) (d : Int) (lp : Bool) (kind : Nat) (op : AccOp) (fl : FlOp) : Access :=
    { need := { Need.none with sr := rd, sd := wr, rx := true }, base := sget th a, ea := addOff (sget th a) (d * 8), n := 8,
      sync := true, spad := false, kind := kind, op := op, fl := fl, mode := if lp then .leap else .plain }
  amo (d a b : SReg) (lp : Bool) (f : AmoOp) : Access :=
    { need := { Need.none with sr := [a, b], sd := [d], rx := true }, base := sget th a, ea := some (sget th a), n := 8, sync := true,
      spad := false, kind := 3, op := .amo f (sget th b) 0, fl := .amo d, mode := if lp then .leap else .plain }
  bar (a b : SReg) (kind : Nat) (op : AccOp) : Access :=
    { need := { Need.none with sr := [a, b], rx := true }, base := sget th a, ea := some (sget th a), n := 8, sync := false,
      spad := true, kind := kind, op := op, fl := .storeS, mode := .plain }

/-- Every scalar memory instruction. -/
def accessForm (th : Thread) (i : Instr) : Option Access := (plainForm th i).or (wordForm th i)

/-- The unit may issue its access: it is ready, and of a relaxed one's eight places one is free (R56). -/
def Access.ready (s : State) (c : Cur) (th : Thread) (x : Access) : Prop :=
  Ready s c th x.need ∧ (x.mode = .relaxed → rxCount th < 8)

/-- The access is made from this tile (R195, R196): in leap mode only where its home is no other tile's scratchpad. -/
def Access.here (s : State) (th : Thread) (x : Access) (p : Ptr) : Prop :=
  x.mode = .leap → ∀ dst off, placeOf s th.partn p = some (.spad dst off) → dst = th.tile

/-- The meter after a charge (R184, R185): added while counting, saturating. -/
def charged (m : Meter) (ch : Nat) : Meter := if m.cnt then { m with dmt := BitVec.ofNat 64 (min (m.dmt.toNat + ch) (2 ^ 64 - 1)) } else m

/-- The charge of a scalar access (R89, R182, R183): its bits times its route, none for control space. -/
def accessCharge (s : State) (th : Thread) (p : Ptr) (op : AccOp) : Nat :=
  match frameOf s th.partn with
  | none => 0
  | some f => if p.toNat / 2 ^ 60 = 6 then 0 else
      (match op with | .amo .cas _ _ => 320 | .amo _ _ _ => 256 | _ => 192) * lenTo s th.tile (placeIn f 0 p)

end Sys2Proof.Claims

/-- R88, R169, R25: an effective pointer outside the offsets is the address fault with FINFO 3 and the base as FADDR;
else the first of these that holds is the fault of the unit, with the effective pointer as FADDR, and nothing is sent or
written: the limits of its kind; the host window for a synchronising access or anything but a scratchpad for a barrier
object (FINFO 4); control space in user mode; an offset that is no multiple of the size. That a sum outside the offsets is reported
before the others, with the base as FADDR, is the model's choice (log 26). -/
def Sys2Proof.Claims.IssueChecks : Prop :=
  ∀ (i : Instr) (s : State) (c : Cur) (th : Thread) (x : Access), accessForm th i = some x → x.ready s c th →
    (x.ea = none → ∃ t, exec i s = .next t ∧ TakesUser s c th 0x08 x.base 3 t)
    ∧ ∀ p, x.ea = some p →
      let l := limitsOf s th.partn p
      let barred := (x.sync = true ∧ p.toNat / 2 ^ 60 = 5) ∨ (x.spad = true ∧ p.toNat / 2 ^ 60 ≠ 0)
      let ctrl := p.toNat / 2 ^ 60 = 6 ∧ th.sup = false
      (l ≠ 0 → ∃ t, exec i s = .next t ∧ TakesUser s c th 0x08 p (BitVec.ofNat 64 l) t)
      ∧ (l = 0 → barred → ∃ t, exec i s = .next t ∧ TakesUser s c th 0x08 p 4 t)
      ∧ (l = 0 → ¬ barred → ctrl → ∃ t, exec i s = .next t ∧ TakesUser s c th 0x04 p 0 t)
      ∧ (l = 0 → ¬ barred → ¬ ctrl → p.toNat % 2 ^ 46 % x.n ≠ 0 →
          ∃ t, exec i s = .next t ∧ TakesUser s c th 0x07 p (BitVec.ofNat 64 x.n) t)

/-- R54, R56, R79, R185: a scalar access that passes its checks is metered, and its request is sent to its home at issue
(a relaxed one behind the earlier ones of its thread). A plain unit's thread waits for the answer at its own address; a
relaxed one's goes on after 8 cycles with a load's destination empty. No register, no byte of memory and nothing else of
the machine changes yet. The cycle in which the request acts at its home, after the way out and the base latency, is the
model's choice (log 15). -/
def Sys2Proof.Claims.RequestSent : Prop :=
  ∀ (i : Instr) (s : State) (c : Cur) (th : Thread) (x : Access) (p : Ptr) (pl : Place),
    accessForm th i = some x → x.ready s c th → th.role = 0 → x.ea = some p → checkPtr s th p x.n x.sync x.spad = none →
    watchHit s th p x.kind = none → meterTraps th (accessCharge s th p x.op) = false → x.here s th p →
    placeOf s th.partn p = some pl → sendBlocked th s.nextId = false →
    let rx := decide (x.mode = .relaxed)
    let from_ := if rx then max (s.cycle + c.fx) th.rxNext else s.cycle + c.fx
    ∃ t y f r, exec i s = .next t ∧ threadOf t c.uid = some y ∧ y.flights = th.flights ++ [f]
      ∧ f.fid = s.nextId ∧ f.rx = rx ∧ f.fpc = c.fpc ∧ f.npc = c.npc ∧ f.op = x.fl ∧ f.parts = 1 ∧ f.out = [0] ∧ f.pend = [] ∧ f.bad = []
      ∧ r.uid = c.uid ∧ r.fid = s.nextId ∧ r.part = 0 ∧ r.partn = th.partn ∧ r.src = th.tile ∧ r.rx = rx ∧ r.at_ = p ∧ r.addr = p
      ∧ r.op = x.op ∧ r.home = pl ∧ r.ow = owTo s th.tile pl ∧ r.limit = (if isSync x.op then th.syto.toNat else 0)
      ∧ t.agenda = enterTimed s.agenda
          { cycle := from_ + r.ow + baseLat pl false - 1, late := false, age := r.inj, src := th.tile, act := .homeAccess r }
      ∧ y.meter = charged th.meter (accessCharge s th p x.op)
      ∧ (∀ q, sget y q = sget th q) ∧ (∀ q, pget y q = pget th q)
      ∧ (if rx then y.wait = .none ∧ y.pc = c.npc ∧ y.readyAt = s.cycle + c.fx + 8 else y.wait = .access s.nextId ∧ y.pc = th.pc)
      ∧ (∀ q, sEmptyAt y q = (sEmptyAt th q || (rx && decide (q ≠ 0) && (match x.fl with | .loadS d _ _ => decide (q = d) | _ => false))))
      ∧ { endAs y th with flights := th.flights, meter := th.meter, rxNext := th.rxNext, sEmpty := th.sEmpty, sOut := th.sOut,
                          pEmpty := th.pEmpty } = th
      ∧ Apart s { t with agenda := s.agenda, nextId := s.nextId } c

/-- R185: an access whose charge would take the meter past its limit is the meter fault with the charge as FINFO, and
nothing is charged, sent or written. -/
def Sys2Proof.Claims.AccessMeterTraps : Prop :=
  ∀ (i : Instr) (s : State) (c : Cur) (th : Thread) (x : Access) (p : Ptr),
    accessForm th i = some x → x.ready s c th → th.role = 0 → x.ea = some p → checkPtr s th p x.n x.sync x.spad = none →
    watchHit s th p x.kind = none → x.here s th p → th.meter.cnt = true → th.meter.trap = true →
    th.meter.dml.toNat < th.meter.dmt.toNat + accessCharge s th p x.op →
    ∃ t, exec i s = .next t ∧ TakesUser s c th 0x0F p (BitVec.ofNat 64 (accessCharge s th p x.op)) t

/-- R25, R88, R169, R185: what a scalar access is checked for before it is sent. -/
def Obligations.AccessChecks : Prop :=
  Sys2Proof.Claims.IssueChecks ∧ Sys2Proof.Claims.AccessMeterTraps

/-- R85: what a redundant pair's thread would send out of the pair waits in the store comparator until its partner has
presented the same: the leading thread's store is sent to no home before. That it waits at its own address, in the
comparator, and is metered and sent only then is the model's choice (log 29). -/
def Sys2Proof.Claims.PairPresents : Prop :=
  ∀ (i : Instr) (s : State) (c : Cur) (th m : Thread) (u : Nat) (x : Access) (p : Ptr),
    plainForm th i = some x → x.fl = .storeS → x.mode = .plain → x.ready s c th → (th.role = 1 ∨ th.role = 2) → th.released = false →
    x.ea = some p → checkPtr s th p x.n x.sync x.spad = none → watchHit s th p x.kind = none →
    mateOf s c.uid = some u → threadOf s u = some m → m.wait = .none →
    ∃ t y q, exec i s = .next t ∧ threadOf t c.uid = some y ∧ y.wait = .comparator q ∧ q.ptr = p ∧ q.width = x.n
      ∧ { y with wait := th.wait } = th ∧ t.agenda = s.agenda ∧ Apart s t c

/-- R54, R56, R79, R85, R185: the request of a scalar access leaves at its issue, or waits in the comparator of a
redundant pair. -/
def Obligations.AccessSent : Prop :=
  Sys2Proof.Claims.RequestSent ∧ Sys2Proof.Claims.PairPresents

namespace Sys2Proof.Claims

/-- A word with bytes j to j + n − 1 replaced by the low bytes of a value. -/
def bytesOver (old v : Word) (j n : Nat) : Word :=
  BitVec.ofFnLE fun k : Fin 64 => if 8 * j ≤ k.val ∧ k.val < 8 * (j + n) then v.getLsbD (k.val - 8 * j) else old.getLsbD k.val

/-- The new value of an atomic (R115). -/
def atomicNew (f : AmoOp) (old v e : Word) : Word :=
  match f with
  | .add => BitVec.ofNat 64 (old.toNat + v.toNat)
  | .and => old &&& v
  | .or => old ||| v
  | .xor => old ^^^ v
  | .min => BitVec.ofInt 64 (Min.min old.toInt v.toInt)
  | .max => BitVec.ofInt 64 (Max.max old.toInt v.toInt)
  | .minu => BitVec.ofNat 64 (Min.min old.toNat v.toNat)
  | .maxu => BitVec.ofNat 64 (Max.max old.toNat v.toNat)
  | .swap => v
  | .cas => if old = e then v else old

/-- `barexp` on a barrier object (R64, R118): the bytes are added to the expected count, which stays below 2^31; a count
reached flips the phase and leaves the surplus. -/
def expectMore (old : Word) (b : Nat) : Word :=
  let ph := old.toNat / 2 ^ 63
  let e := Min.min (old.toNat / 2 ^ 32 % 2 ^ 31 + b) (2 ^ 31 - 1)
  let a := old.toNat % 2 ^ 32
  if e ≠ 0 ∧ e ≤ a then BitVec.ofNat 64 ((1 - ph) * 2 ^ 63 + e * 2 ^ 32 + (a - e)) else BitVec.ofNat 64 (ph * 2 ^ 63 + e * 2 ^ 32 + a)

/-- What a scalar access does to its word (R52, R110, R112, R115, R118, R119): what it answers, the word after, and its
full bit after; none where it waits. -/
def wordEffect (op : AccOp) (j : Nat) (old : Word) (full : Bool) : Option (List Word × Word × Bool) :=
  match op with
  | .load n => some ([BitVec.ofNat 64 (old.toNat / 2 ^ (8 * j) % 2 ^ (8 * n))], old, full)
  | .store n v => some ([], bytesOver old v j n, true)
  | .take => if full then some ([old], old, false) else none
  | .peek => if full then some ([old], old, true) else none
  | .give v => if full then none else some ([], v, true)
  | .post v => some ([], v, true)
  | .void => some ([], old, false)
  | .probe => some ([if full then 1 else 0], old, full)
  | .amo f v e => some ([old], atomicNew f old v e, true)
  | .barini b => some ([], BitVec.ofNat 64 (b % 2 ^ 31 * 2 ^ 32), true)
  | .barexp b => some ([], expectMore old b, true)
  | .barwt ph => if old.getLsbD 63 = ph then none else some ([], old, full)
  | _ => none

/-- The key number under which a line of memory lies (R372): 0 where it is not encrypted. -/
def lineKey (s : State) (k : Nat) : Nat := lookD s.cipher (k / 64) 0

/-- The key number that a leaf gives its accesses (R372). -/
def viewNo (s : State) (partn : Nat) (l : Leaf) : Nat := if l.enc then (partOf s partn).keyNo else 0

/-- The key of the byte that a request is performed at, where it can be at once: a block that is present and not held by
a move, or an offset whose leaf is cached and allows the access, with no earlier access to its word at the port, and a
line that lies there under the key of the leaf. -/
def homeKey (s : State) (r : Req) : Option Nat :=
  match r.home with
  | .spad t o =>
    if fencedAt s r.partn t ∨ (movedBy s t (o / 256)).isSome ∨ (blockOf s t o).st ≠ .present then none else some (keySpad t o)
  | .chan ch o => port ch o
  | .tier2 ct o => port (48 + ct) o
  | .host b => some (keyHost b)
  | _ => none
where
  port (q o : Nat) : Option Nat :=
    match cached s q r.partn o with
    | some l =>
      (match leafXlat l o (isWrite r.op) false with
       | .ok a =>
         if (portOf s q).walks.any (fun e => e.bars s r) ∨ lineKey s (keyPort q a) ≠ viewNo s r.partn l then none
         else some (keyPort q a)
       | _ => none)
    | none => none

/-- An answer of a request is on its way to its thread (R79, R199). -/
def Answered (s t : State) (r : Req) (res : AccRes) : Prop :=
  ∃ y ∈ t.agenda, y.cycle = s.cycle + r.ow + (baseLat r.home (isAtomic r.op) - baseLat r.home false) ∧ y.act =
    (let a : Answer := { uid := r.uid, fid := r.fid, part := r.part, addr := r.addr, stub := r.stub, res := res }
     if r.rx then .relaxedAccessCompletion a else .accessResponse a)

/-- The word of a key has a value and a full bit, and every other byte and full bit is as before. -/
def WordIs (s t : State) (w : Nat) (v : Word) (full : Bool) : Prop :=
  wordAt t w = v ∧ wordFull t w = full ∧ (∀ k, k ≠ w → wordFull t k = wordFull s k)
    ∧ ∀ a, (a < w ∨ w + 8 ≤ a) → memGet t.mem a = memGet s.mem a

end Sys2Proof.Claims

/-- R52, R53, R110, R112, R115, R118, R119: at its home an access whose condition holds has its effect on its word and
the word's full/empty bit, touches no other byte, and its answer goes back with what it read. A poisoned word is
consumed by no access that does not cover it (the premise), and no other access waits at the word. The cycle in which the
answer arrives, the way back after the act, is the model's choice (log 15). -/
def Obligations.HomePerforms : Prop :=
  ∀ (s : State) (r : Req) (k : Nat) (vals : List Word) (v : Word) (full : Bool),
    s.MemOk → Acting s (.homeAccess r) → turnOf s r = .go → homeKey s r = some k →
    (wordPois s (k / 8 * 8) = false ∨ coversWord r.op = true) → outOfTime s r = false →
    ((waitersAt s (k / 8 * 8)).any fun q => decide (q.key / 8 * 8 = k / 8 * 8)) = false →
    wordEffect r.op (k % 8) (wordAt s (k / 8 * 8)) (wordFull s (k / 8 * 8)) = some (vals, v, full) →
    ∃ t, exec .homeAccess s = .next t ∧ WordIs s t (k / 8 * 8) v full ∧ Answered s t r (.done vals 0)

/-- The rank of an access in a wait list (R53, R113): the cycle of its first arrival, then its injection TSC and source. -/
def Sys2Proof.Claims.listRank (q : Req) : Nat := (q.first.getD 0 * 2 ^ 64 + q.inj) * 2 ^ 16 + q.src

/-- R113, R114: an access whose condition fails waits at its word, behind those that first arrived before it, and changes
no byte; where 64 accesses wait at its home already it is answered busy and sent again 64 cycles after the answer arrives,
by the pointer of its unit where a stub had sent it on (R212); after SYTO cycles it leaves the list with the timeout fault
and the word's full bit as FINFO. The way back of the answers and the cycle of the act at the home are the model's choice
(log 15). -/
def Sys2Proof.Claims.WaitsAtHome : Prop :=
  (∀ (s : State) (r : Req) (k : Nat), Acting s (.homeAccess r) → turnOf s r = .go → homeKey s r = some k →
    wordPois s (k / 8 * 8) = false → outOfTime s r = false → r.op ∈ [.take, .peek] ∧ wordFull s (k / 8 * 8) = false →
    (waitsAt s (k / 8 * 8) < 64 → ∃ t q l1 l2, exec .homeAccess s = .next t
        ∧ waitersAt s (k / 8 * 8) = l1 ++ l2 ∧ waitersAt t (k / 8 * 8) = l1 ++ q :: l2
        ∧ (∀ x ∈ l1, listRank x ≤ listRank q) ∧ (∀ x ∈ l2.head?, listRank q < listRank x)
        ∧ sameReq q r = true ∧ q.key = k ∧ q.op = r.op ∧ q.first = some (r.first.getD s.cycle) ∧ q.inj = r.inj ∧ q.src = r.src
        ∧ t.mem = s.mem ∧ t.empty = s.empty)
    ∧ (64 ≤ waitsAt s (k / 8 * 8) → ∃ t, exec .homeAccess s = .next t ∧ t.mem = s.mem ∧ t.empty = s.empty
        ∧ ∃ y ∈ t.agenda, y.cycle = s.cycle + r.ow + 64 ∧ ∃ q, y.act = .busyResend q ∧ sameReq q r = true ∧ q.inj = r.inj
            ∧ q.first = some (r.first.getD s.cycle)))
  ∧ (∀ (s : State) (r : Req), Acting s (.busyResend r) →
      let home := if r.legs = 0 then r.home else (placeOn s r.partn r.inj r.addr).getD r.home
      ∃ t q, exec .busyResend s = .next t ∧ { t with agenda := s.agenda } = { s with act := none }
        ∧ q = { r with at_ := r.addr, home := home, ow := r.ow - r.legs, legs := 0, turn := none, stub := q.stub }
        ∧ (r.legs = 0 → q.stub = r.stub) ∧ (r.legs ≠ 0 → q.stub = none)
        ∧ t.agenda = enterTimed s.agenda
            { cycle := s.cycle + q.ow + baseLat home false, late := false, age := r.inj, src := r.src, act := .homeAccess q })
  ∧ ∀ (s : State) (r : Req), Acting s (.syncTimeout r) → r.key < 2 ^ 66 → (waitersAt s (r.key / 8 * 8)).any (sameReq r) = true →
      ∃ t, exec .syncTimeout s = .next t ∧ (waitersAt t (r.key / 8 * 8)).any (sameReq r) = false ∧ t.mem = s.mem ∧ t.empty = s.empty
        ∧ Answered s t r (.fault 0x0D (if wordFull s (r.key / 8 * 8) then 1 else 0) s.tsc false)

/-- R113: a write that fills a word for which one `take` waits performs it: the `take` leaves the list with the value
written, and the word is empty again. The way back of the two answers is the model's choice (log 15). -/
def Sys2Proof.Claims.GiveServesTake : Prop :=
  ∀ (s : State) (r q : Req) (k : Nat) (v : Word),
    s.MemOk → Acting s (.homeAccess r) → turnOf s r = .go → homeKey s r = some k → k % 8 = 0 → r.op = .give v → wordFull s k = false →
    wordPois s k = false → outOfTime s r = false → waitersAt s k = [q] → q.key = k → q.op = .take →
    (k < 2 ^ 40 ∨ q.view = lineKey s k) →
    ∃ t, exec .homeAccess s = .next t ∧ WordIs s t k v false ∧ waitersAt t k = [] ∧ Answered s t r (.done [] 0)
      ∧ Answered s t q (.done [v] 0)

/-- R113, R114: accesses wait at their word, and a write serves them. -/
def Obligations.HomeWaits : Prop :=
  Sys2Proof.Claims.WaitsAtHome ∧ Sys2Proof.Claims.GiveServesTake

/-- R175-R177: at the end of its table walk the one access at a port goes on with what the tree holds: a leaf that allows
it is cached and the access is performed at its physical address; without a leaf it is answered with the page fault, its
level and whether it writes; a leaf that forbids it, with the protection fault, its access kind (R89, R142: that of the
whole access for a word of a 64-byte one) and whether it writes. The way back of the answers is the model's choice
(log 15). -/
def Obligations.TableWalkEnds : Prop :=
  ∀ (s : State) (r : Req) (port o n : Nat) (th : Thread) (f : Flight), Acting s (.tableWalk r) →
    portOfPlace r.home = some (port, o) → cached s port r.partn o = none →
    (portOf s port).walks = [{ r := r, o := o, phase := .walking n }] →
    threadOf s r.uid = some th → flightOf th r.fid = some f → f.done = false → f.bad = [] →
    let wr := if isWrite r.op then 16 else 0
    let kind := if r.kbits = 0 ∨ r.kbits = 640 then (if isWrite r.op then 3 else 2) else opKind r.op
    (∀ lvl h, walk s port r.partn o = .none lvl h →
      ∃ t, exec .tableWalk s = .next t ∧ t.mem = s.mem ∧ Answered s t r (.fault 0x09 (lvl + wr) s.tsc h))
    ∧ (∀ lvl e, walk s port r.partn o = .leaf lvl e → leafXlat (leafOf r.partn o lvl e) o (isWrite r.op) false = .prot →
      ∃ t, exec .tableWalk s = .next t ∧ t.mem = s.mem ∧ Answered s t r (.fault 0x0A (kind + wr) s.tsc false))
    ∧ ∀ lvl e vals v full, s.MemOk →
      let l := leafOf r.partn o lvl e
      let k := keyPort port (l.frame + (o - l.base))
      walk s port r.partn o = .leaf lvl e → leafXlat l o (isWrite r.op) false = .ok (l.frame + (o - l.base)) →
      lineKey s k = viewNo s r.partn l → wordPois s (k / 8 * 8) = false → outOfTime s r = false →
      ((waitersAt s (k / 8 * 8)).any fun q => decide (q.key / 8 * 8 = k / 8 * 8)) = false →
      wordEffect r.op (k % 8) (wordAt s (k / 8 * 8)) (wordFull s (k / 8 * 8)) = some (vals, v, full) →
      ∃ t, exec .tableWalk s = .next t ∧ WordIs s t (k / 8 * 8) v full ∧ Answered s t r (.done vals 0)
        ∧ ∃ q ∈ (portOf t port).leaves, q.partn = r.partn ∧ q.base = l.base ∧ q.frame = l.frame ∧ q.w = l.w ∧ q.x = l.x

/-- R54, R57, R68, R77: the answer to a plain unit's access completes the unit: its register or predicate has what the
access brought (a load sign- or zero-extended), the thread goes on at the next unit from the next cycle, and nothing
else of it changes. -/
def Sys2Proof.Claims.AnswerCompletes : Prop :=
  ∀ (s : State) (a : Answer) (th : Thread) (f : Flight) (vals : List Word),
    let v := vals.headD 0
    Acting s (.accessResponse a) → threadOf s a.uid = some th → flightOf th a.fid = some f → th.role = 0 → th.stand = .inSlot →
    f.rx = false → f.parts = 1 → f.out = [0] → f.pend = [] → f.bad = [] → f.stub = none → f.minEnd ≤ s.cycle →
    a.part = 0 → a.stub = none →
    a.res = .done vals 0 → (∃ t n sx, f.op ∈ [.loadS t n sx, .storeS, .rput, .syncLoad t, .amo t, .pfix t] ∨ ∃ k, f.op = .probe k) →
    ∃ t y, exec .accessResponse s = .next t ∧ threadOf t a.uid = some y ∧ y.pc = f.npc ∧ y.readyAt = s.cycle + 1 ∧ y.wait = .none
      ∧ y.flights = th.flights.filter (fun g => decide (g.fid ≠ f.fid))
      ∧ (∀ r, sget y r = match f.op with
          | .loadS d n sx => if r = d ∧ d ≠ 0 then
              (if sx then BitVec.ofInt 64 ((v.toNat : Int).bmod (2 ^ (8 * n))) else BitVec.ofNat 64 (v.toNat % 2 ^ (8 * n))) else sget th r
          | .syncLoad d | .amo d | .pfix d => if r = d ∧ d ≠ 0 then v else sget th r
          | _ => sget th r)
      ∧ (∀ k, pget y k = match f.op with | .probe q => if k = q ∧ q ≠ 0 then decide (v ≠ 0) else pget th k | _ => pget th k)
      ∧ { endAs y th with s := th.s, sEmpty := th.sEmpty, sOut := th.sOut, sPois := th.sPois, p := th.p, pEmpty := th.pEmpty,
                          pPois := th.pPois, flights := th.flights } = th
      ∧ { t with threads := s.threads } = { s with act := none }

/-- R56, R58, R68: the answer to a relaxed load fills its register and removes the access; its thread stays where it
stands. A thread that was terminated ends with the last of its relaxed accesses (R96, R384). -/
def Sys2Proof.Claims.RelaxedLoadFills : Prop :=
  ∀ (s : State) (a : Answer) (th : Thread) (f : Flight) (d : SReg) (n : Nat) (v : Word),
    Acting s (.relaxedAccessCompletion a) → threadOf s a.uid = some th → flightOf th a.fid = some f → th.role = 0 →
    th.stand = .inSlot → f.rx = true → f.parts = 1 → f.out = [0] → f.pend = [] → f.bad = [] → f.stub = none → f.minEnd ≤ s.cycle →
    a.part = 0 → a.stub = none →
    a.res = .done [v] 0 → f.op = .loadS d n false →
    (th.ending = true → (∀ g ∈ th.flights, g.fid ≠ f.fid → g.rx = false ∨ g.done = true) →
      ∃ t, exec .relaxedAccessCompletion s = .next t ∧ threadOf t a.uid = none)
    ∧ (th.ending = false → ∃ t y, exec .relaxedAccessCompletion s = .next t ∧ threadOf t a.uid = some y ∧ y.pc = th.pc
      ∧ (∀ r, sget y r = if r = d ∧ d ≠ 0 then BitVec.ofNat 64 (v.toNat % 2 ^ (8 * n)) else sget th r) ∧ sEmptyAt y d = false
      ∧ (∀ g ∈ y.flights, g.fid ≠ f.fid) ∧ t.mem = s.mem ∧ t.empty = s.empty)

/-- R141, R146, R154, R185: an answer that reports a user-class fault is the fault of the unit: a thread with a handler
goes there with the fault in its record, FPC the unit's address and FADDR the pointer; the charge of the unit is
withdrawn, and no register is written. -/
def Sys2Proof.Claims.AnswerFaults : Prop :=
  ∀ (s : State) (a : Answer) (th : Thread) (f : Flight) (cause info tick : Nat) (host : Bool) (t1 : SReg),
    Acting s (.accessResponse a) → threadOf s a.uid = some th → flightOf th a.fid = some f → th.role = 0 →
    f.rx = false → f.parts = 1 → f.out = [0] → f.pend = [] → f.bad = [] → a.part = 0 → th.ending = false →
    a.res = .fault cause info tick host → causeClass cause = 0 → th.tvec ≠ 0 → th.inHandler = false →
    (f.op = .storeS ∨ f.op = .rput ∨ f.op = .syncLoad t1 ∨ f.op = .amo t1) →
    ∃ t y, exec .accessResponse s = .next t ∧ threadOf t a.uid = some y ∧ y.pc = th.tvec ∧ y.inHandler = true ∧ y.wait = .none
      ∧ y.fr = { cause := BitVec.ofNat 64 cause, addr := a.addr, pc := f.fpc, info := BitVec.ofNat 64 info, tsc := BitVec.ofNat 64 tick }
      ∧ y.meter.dmt = th.meter.dmt - BitVec.ofNat 64 f.charge ∧ (∀ r, sget y r = sget th r) ∧ (∀ k, pget y k = pget th k)
      ∧ t.mem = s.mem ∧ t.empty = s.empty

/-- R141, R146, R185, R266: a fault that was found at issue is delivered at the end of its unit's time: a thread with a
handler goes there, ready in the next cycle, with the fault and its progress in its record; the charge of the unit is
withdrawn, and no register is written. -/
def Sys2Proof.Claims.LateFaultDelivered : Prop :=
  ∀ (s : State) (a : Answer) (th : Thread) (f : Flight) (j : Nat) (b : PartFault),
    Acting s (.accessResponse a) → threadOf s a.uid = some th → flightOf th a.fid = some f → f.op = .fault → f.rx = false →
    f.parts = j + 2 → f.out = [] → f.pend = [] → f.bad = [(j, b)] → a.part = j + 2 → a.res = .done [] 0 →
    causeClass b.cause = 0 → th.tvec ≠ 0 → th.inHandler = false → th.ending = false →
    ∃ t y, exec .accessResponse s = .next t ∧ threadOf t a.uid = some y ∧ y.pc = th.tvec ∧ y.inHandler = true ∧ y.wait = .none
      ∧ y.readyAt = s.cycle + 1 ∧ (∀ g ∈ y.flights, g.fid ≠ f.fid)
      ∧ y.fr = { cause := BitVec.ofNat 64 (b.cause + j * 2 ^ 32), addr := b.addr, pc := f.fpc, info := BitVec.ofNat 64 b.info,
                 tsc := BitVec.ofNat 64 b.tick }
      ∧ y.meter.dmt = th.meter.dmt - BitVec.ofNat 64 f.charge ∧ (∀ r, sget y r = sget th r) ∧ (∀ k, pget y k = pget th k)
      ∧ t.mem = s.mem ∧ t.empty = s.empty

/-- R54-R58, R68, R77, R141, R146, R154, R185, R266: the answer to an access completes its unit, fills a relaxed load's
register, or is the fault of the unit. -/
def Obligations.AnswersComplete : Prop :=
  Sys2Proof.Claims.AnswerCompletes ∧ Sys2Proof.Claims.RelaxedLoadFills ∧ Sys2Proof.Claims.AnswerFaults ∧
  Sys2Proof.Claims.LateFaultDelivered

/-! ### Pointers, leaps and remote registers (R187-R201) -/

namespace Sys2Proof.Claims

/-- The pointer instructions that compute a scalar (R188, R189): what is read and written, and the value; none where the
offset is outside 0 to 2^46 − 1. -/
def pointerForm (th : Thread) : Instr → Option (List SReg × SReg × Option Word × Word)
  | .padd d a b => some ([a, b], d, moved (sget th a) (sget th b).toInt, sget th a)
  | .paddi d a imm => some ([a], d, moved (sget th a) imm, sget th a)
  | .pmk d a b => some ([a, b], d,
      if (sget th b).toNat < 2 ^ 46 then
        some (BitVec.ofNat 64 ((sget th a).toNat / 2 ^ 16 % 16 * 2 ^ 60 + (sget th a).toNat / 2 ^ 8 % 128 * 2 ^ 53
          + (sget th a).toNat % 128 * 2 ^ 46 + (sget th b).toNat))
      else none, sget th b)
  | .pfld d a f => some ([a], d, some (BitVec.ofNat 64 (match f.val with
      | 0 => (sget th a).toNat / 2 ^ 60
      | 1 => (sget th a).toNat / 2 ^ 53 % 128
      | 2 => (sget th a).toNat / 2 ^ 46 % 128
      | _ => (sget th a).toNat % 2 ^ 46)), 0)
  | _ => none
where
  moved (p : Word) (d : Int) : Option Word :=
    let o := (p.toNat % 2 ^ 46 : Nat) + d
    if 0 ≤ o ∧ o < 2 ^ 46 then some (BitVec.ofNat 64 (p.toNat / 2 ^ 46 * 2 ^ 46 + o.toNat)) else none

end Sys2Proof.Claims

/-- R188, R189: pointer arithmetic touches the offset alone, `pmk` builds a pointer of its fields and `pfld` takes one
out; an offset outside 0 to 2^46 − 1 is the address fault with FINFO 3, and nothing is written. -/
def Obligations.PointerArithmetic : Prop :=
  ∀ (i : Instr) (s : State) (c : Cur) (th : Thread) (rd : List SReg) (d : SReg) (v : Option Word) (a : Word),
    pointerForm th i = some (rd, d, v, a) → Ready s c th { Need.none with sr := rd, sd := [d] } →
    (∀ w, v = some w → ∃ t, exec i s = .next t ∧ WritesScalar s c th d w c.npc 8 t)
    ∧ (v = none → ∃ t, exec i s = .next t ∧ TakesUser s c th 0x08 a 3 t)

/-- R187, R183: `dist` writes the charge of an access of its kind through the pointer from this tile, meters nothing and
reads no memory; the limits of the pointer's kind come first, and a kind that the access kind does not fit is the
address fault with FINFO 1. -/
def Sys2Proof.Claims.DistCharge : Prop :=
  ∀ (s : State) (c : Cur) (th : Thread) (d a : SReg) (k : Fin 6), Ready s c th { Need.none with sr := [a], sd := [d] } →
    let p := sget th a
    let kind := p.toNat / 2 ^ 60
    let fits := (kind = 1 ∧ (k.val = 1 ∨ k.val = 4)) ∨ kind = 0 ∨ kind = 6 ∨ (kind = 5 ∧ k.val < 4) ∨ (kind ∈ [2, 3, 4] ∧ k.val ≠ 4)
    (anyLimits s th.partn p ≠ 0 →
      ∃ t, exec (.dist d a k) s = .next t ∧ TakesUser s c th 0x08 p (BitVec.ofNat 64 (anyLimits s th.partn p)) t)
    ∧ (anyLimits s th.partn p = 0 → ¬ fits → ∃ t, exec (.dist d a k) s = .next t ∧ TakesUser s c th 0x08 p 1 t)
    ∧ (anyLimits s th.partn p = 0 → fits →
      ∃ t, exec (.dist d a k) s = .next t ∧ WritesScalar s c th d (BitVec.ofNat 64 (charge s th.partn th.tile p k.val)) c.npc 8 t)

/-- R190: `pfix` of a pointer of another kind than 0 writes it as it is; of a scratchpad pointer it sends a walk of the
block's stubs to its home and waits; limits are checked first. -/
def Sys2Proof.Claims.PfixWalks : Prop :=
  ∀ (s : State) (c : Cur) (th : Thread) (d a : SReg), Ready s c th { Need.none with sr := [a], sd := [d], rx := true } →
    let p := sget th a
    (limitsOf s th.partn p ≠ 0 →
      ∃ t, exec (.pfix d a) s = .next t ∧ TakesUser s c th 0x08 p (BitVec.ofNat 64 (limitsOf s th.partn p)) t)
    ∧ (limitsOf s th.partn p = 0 → p.toNat / 2 ^ 60 ≠ 0 → th.role = 0 → ∃ t, exec (.pfix d a) s = .next t ∧ WritesScalar s c th d p c.npc 8 t)
    ∧ ∀ pl, limitsOf s th.partn p = 0 → p.toNat / 2 ^ 60 = 0 → th.role = 0 → watchHit s th p 1 = none →
      meterTraps th (charge s th.partn th.tile p 0) = false → placeOf s th.partn p = some pl →
      ∃ t y f r k, exec (.pfix d a) s = .next t ∧ threadOf t c.uid = some y ∧ y.wait = .access s.nextId ∧ y.flights = th.flights ++ [f]
        ∧ f.op = .pfix d ∧ f.fid = s.nextId ∧ f.npc = c.npc ∧ r.op = .pfix ∧ r.at_ = p ∧ r.home = pl ∧ r.uid = c.uid ∧ r.fid = s.nextId
        ∧ t.agenda = enterTimed s.agenda { cycle := k, late := false, age := r.inj, src := th.tile, act := .homeAccess r }
        ∧ y.meter = charged th.meter (charge s th.partn th.tile p 0)
        ∧ { y with flights := th.flights, wait := th.wait, meter := th.meter } = th
        ∧ Apart s { t with agenda := s.agenda, nextId := s.nextId } c

/-- R183, R187, R190: `dist` and `pfix`. -/
def Obligations.PointerWalks : Prop :=
  Sys2Proof.Claims.DistCharge ∧ Sys2Proof.Claims.PfixWalks

namespace Sys2Proof.Claims

/-- A thread's context leaves for another tile (R191): it keeps its slot reserved, nothing of its registers changes, and
it arrives there after the leap's time. -/
def Departs (s : State) (c : Cur) (th : Thread) (p : Ptr) (dst : Nat) (acc : Bool) (t : State) : Prop :=
  ∃ y m, threadOf t c.uid = some y ∧ y.stand = .transit ∧ y.wait = .leap ∧ y.meter = charged th.meter (2624 * lenTiles s th.tile dst)
    ∧ { y with stand := th.stand, wait := th.wait, meter := th.meter } = th
    ∧ m.uid = c.uid ∧ m.src = th.tile ∧ m.slot = th.slot ∧ m.dst = dst ∧ m.npc = c.npc ∧ m.fpc = c.fpc ∧ m.ptr = p ∧ m.why = 0
    ∧ m.acc.isSome = acc ∧ m.time = leapTime s th.tile dst
    ∧ t.agenda = enterTimed s.agenda { cycle := s.cycle + c.fx + leapTime s th.tile dst - 1, late := false,
                                       age := tickAt s (s.cycle + c.fx), src := th.tile, act := .leapArrival m }
    ∧ th.slot ∈ (tileOf t th.tile).reserved ∧ t.mem = s.mem

end Sys2Proof.Claims

/-- R191, R347, R417: a leap to a tile of the thread's own team departs with the charge of a whole context; to its own
tile it is over at once. It is refused, in this order, for a redundant pair (3), for a thread with vector registers or a
dennum window (2), on local time (5), outside the team (1) and into a fenced rectangle (6). -/
def Sys2Proof.Claims.LeapDeparts : Prop :=
  ∀ (s : State) (c : Cur) (th : Thread) (a : SReg) (dst : Nat), Ready s c th { Need.none with sr := [a], rx := true } →
    let p := sget th a
    (p.toNat / 2 ^ 60 = 0 ∨ p.toNat / 2 ^ 60 = 1) → guestTile s th.partn (p.toNat / 2 ^ 53 % 128) (p.toNat / 2 ^ 46 % 128) = some dst →
    (∀ n, (if th.role ≠ 0 then 3 else if th.vn ≠ 0 ∨ th.dwin ≠ 0 then 2 else if th.ltm then 5
            else if inTeam s th.partn th.serial dst = false then 1 else if fencedAt s th.partn dst then 6 else 0) = n → n ≠ 0 →
      ∃ t, exec (.leap a) s = .next t ∧ TakesUser s c th 0x1F p (BitVec.ofNat 64 n) t)
    ∧ (leapRefused s th dst = 0 → dst = th.tile → ∃ t, exec (.leap a) s = .next t ∧ WritesNothing s c th c.npc 8 t)
    ∧ (leapRefused s th dst = 0 → dst ≠ th.tile → meterTraps th (2624 * lenTiles s th.tile dst) = false →
      ∃ t, exec (.leap a) s = .next t ∧ Departs s c th p dst false t)

/-- R196: in leap mode an access whose home is another tile's scratchpad takes its thread there, with the access. -/
def Sys2Proof.Claims.LeapModeDeparts : Prop :=
  ∀ (i : Instr) (s : State) (c : Cur) (th : Thread) (x : Access) (p : Ptr) (dst off : Nat),
    accessForm th i = some x → Ready s c th x.need → x.mode = .leap → x.ea = some p → checkPtr s th p x.n x.sync x.spad = none →
    watchHit s th p x.kind = none → placeOf s th.partn p = some (.spad dst off) → dst ≠ th.tile → leapRefused s th dst = 0 →
    meterTraps th (2624 * lenTiles s th.tile dst) = false →
    ∃ t y, exec i s = .next t ∧ threadOf t c.uid = some y ∧ y.stand = .transit ∧ y.wait = .leap ∧ (∀ r, sget y r = sget th r)
      ∧ (∃ e ∈ t.agenda, ∃ m, e.act = .leapArrival m ∧ m.uid = c.uid ∧ m.dst = dst ∧ m.acc.isSome = true) ∧ t.mem = s.mem

/-- R191, R197, R198, R202: a leap that reaches a tile with a free slot and no earlier arrival waiting takes the lowest
one, ready at its next unit from the next cycle, and its source slot is its own until an acknowledgement frees it; with no free slot it queues, up to
four; else it goes back, is sent again 64 cycles after it returns, and a refused one faults at its source. The cycle in
which the acknowledgement reaches the source (log 27) and the return of a context that a fence turned away (log 75) are the
model's choices. -/
def Sys2Proof.Claims.LeapArrives : Prop :=
  (∀ (s : State) (m : LeapMsg) (th : Thread), Acting s (.leapArrival m) → threadOf s m.uid = some th →
    fencedAt s th.partn m.dst = false → m.why = 0 → m.acc = none →
    (∀ k, (tileOf s m.dst).arrivals = [] → freeSlot s m.dst = some k →
      ∃ t y, exec .leapArrival s = .next t ∧ threadOf t m.uid = some y ∧ y.tile = m.dst ∧ y.slot = k ∧ y.stand = .inSlot ∧ y.pc = m.npc
        ∧ (m.src, m.slot) ∈ y.origins
        ∧ y.readyAt = s.cycle + 1 ∧ y.wait = .none ∧ (∀ r, sget y r = sget th r) ∧ t.mem = s.mem
        ∧ ∃ e ∈ t.agenda, e.cycle = s.cycle + owTiles s m.src m.dst ∧ e.act = .arrivalAcknowledgement m.src m.slot)
    ∧ (freeSlot s m.dst = none → (tileOf s m.dst).arrivals.length < 4 →
      ∃ t y, exec .leapArrival s = .next t ∧ threadOf t m.uid = some y ∧ { y with stand := th.stand } = th ∧ y.stand = .queued
        ∧ (tileOf t m.dst).arrivals = (tileOf s m.dst).arrivals ++ [m] ∧ t.mem = s.mem)
    ∧ (freeSlot s m.dst = none → 4 ≤ (tileOf s m.dst).arrivals.length →
      ∃ t, exec .leapArrival s = .next t ∧ { t with agenda := s.agenda } = { s with act := none }
        ∧ ∃ e ∈ t.agenda, e.cycle = s.cycle + m.time ∧ e.act = .leapBounce { m with why := 0 }))
  ∧ (∀ (s : State) (m : LeapMsg) (th : Thread), Acting s (.leapBounce m) → threadOf s m.uid = some th →
      (m.why = 0 → s.cycle < m.sent + th.syto.toNat →
        ∃ t, exec .leapBounce s = .next t ∧ { t with agenda := s.agenda } = { s with act := none }
          ∧ ∃ e ∈ t.agenda, e.cycle = s.cycle + 64 ∧ e.act = .leapResend m)
      ∧ (m.why = 0 → th.syto = 0 →
        ∃ t, exec .leapBounce s = .next t ∧ { t with agenda := s.agenda } = { s with act := none }
          ∧ ∃ e ∈ t.agenda, e.cycle = s.cycle + 64 ∧ e.act = .leapResend m)
      ∧ (m.why = 6 → th.tvec ≠ 0 → th.inHandler = false → th.ending = false →
        ∃ t y, exec .leapBounce s = .next t ∧ threadOf t m.uid = some y ∧ y.stand = .inSlot ∧ y.pc = th.tvec
          ∧ y.fr = { cause := 0x1F, addr := m.ptr, pc := m.fpc, info := 6, tsc := BitVec.ofNat 64 s.tsc }
          ∧ y.meter.dmt = th.meter.dmt - BitVec.ofNat 64 m.charge ∧ m.slot ∉ (tileOf t m.src).reserved))
  ∧ (∀ (s : State) (m : LeapMsg), Acting s (.leapResend m) →
      ∃ t, exec .leapResend s = .next t ∧ { t with agenda := s.agenda } = { s with act := none }
        ∧ ∃ e ∈ t.agenda, e.cycle = s.cycle + m.time ∧ e.age = m.inj ∧ e.src = m.src ∧ e.act = .leapArrival m)
  ∧ ∀ (s : State) (tile slot : Nat), Acting s (.arrivalAcknowledgement tile slot) → (tileOf s tile).arrivals = [] →
      ∃ t, exec .arrivalAcknowledgement s = .next t ∧ slot ∉ (tileOf t tile).reserved ∧ t.mem = s.mem
        ∧ ∀ u th, threadOf s u = some th → ∃ y, threadOf t u = some y ∧ { y with origins := th.origins } = th
            ∧ y.origins = th.origins.filter fun x => decide (x ≠ (tile, slot))

/-- R191, R196, R197, R347, R417: leaps, alone and with an access, from their refusal or departure to their arrival,
return and acknowledgement. -/
def Obligations.LeapsTravel : Prop :=
  Sys2Proof.Claims.LeapDeparts ∧ Sys2Proof.Claims.LeapModeDeparts ∧ Sys2Proof.Claims.LeapArrives

/-- R192: `rput` within the limits of a register pointer is metered and sent to its tile, and its thread waits for the
answer; nothing is written yet. The cycle in which it arrives, of its whole latency, is the model's choice (log 15). -/
def Sys2Proof.Claims.RputSent : Prop :=
  ∀ (s : State) (c : Cur) (th : Thread) (a b : SReg), Ready s c th { Need.none with sr := [a, b], rx := true } →
    let p := sget th a
    (p.toNat / 2 ^ 60 ≠ 1 → ∃ t, exec (.rput a b) s = .next t ∧ TakesUser s c th 0x08 p 1 t)
    ∧ ∀ dst, p.toNat / 2 ^ 60 = 1 → anyLimits s th.partn p = 0 → th.role = 0 → watchHit s th p 2 = none →
      guestTile s th.partn (p.toNat / 2 ^ 53 % 128) (p.toNat / 2 ^ 46 % 128) = some dst →
      meterTraps th (charge s th.partn th.tile p 1) = false →
      ∃ t y f m, exec (.rput a b) s = .next t ∧ threadOf t c.uid = some y ∧ y.wait = .access s.nextId ∧ y.flights = th.flights ++ [f]
        ∧ f.op = .rput ∧ f.fid = s.nextId ∧ f.npc = c.npc
        ∧ m.uid = c.uid ∧ m.fid = s.nextId ∧ m.partn = th.partn ∧ m.serial = th.serial ∧ m.dst = dst ∧ m.ptr = p ∧ m.val = sget th b
        ∧ t.agenda = enterTimed s.agenda { cycle := s.cycle + c.fx + owTiles s th.tile dst + 11, late := true,
                                           age := tickAt s (s.cycle + c.fx), src := th.tile, act := .rputArrival m }
        ∧ y.meter = charged th.meter (charge s th.partn th.tile p 1)
        ∧ { y with flights := th.flights, wait := th.wait, meter := th.meter } = th
        ∧ Apart s { t with agenda := s.agenda, nextId := s.nextId } c

/-- R192, R200, R201: an arriving `rput` fills the empty register that its pointer names in a thread of the same team
that accepts it; else it is answered NACK with its reason, slot and register, and counted in the tile's orphan word; no
register is written. The way back of the answer is the model's choice (log 15). -/
def Sys2Proof.Claims.RputArrives : Prop :=
  ∀ (s : State) (m : RputMsg), Acting s (.rputArrival m) →
    (∀ u th, fencedAt s m.partn m.dst = false → rputTarget s m.dst (m.ptr.toNat / 32 % 16) = some u → threadOf s u = some th →
      th.partn = m.partn → th.serial = m.serial → th.racc.getLsbD 0 = true → sArmed th (rS (m.ptr.toNat % 32)) = true →
      th.role = 0 → th.stand = .inSlot →
      ∃ t y, exec .rputArrival s = .next t ∧ threadOf t u = some y
        ∧ (∀ r, sget y r = if r = rS (m.ptr.toNat % 32) ∧ r ≠ 0 then m.val else sget th r) ∧ sEmptyAt y (rS (m.ptr.toNat % 32)) = false
        ∧ y.pc = th.pc ∧ t.mem = s.mem
        ∧ ∃ e ∈ t.agenda, e.cycle = s.cycle + m.ow ∧ e.act = .accessResponse { uid := m.uid, fid := m.fid, part := 0, addr := m.ptr, stub := none, res := .done [] 0 })
    ∧ (rputReason s m ≠ 0 →
      ∃ t, exec .rputArrival s = .next t ∧ t.threads = s.threads ∧ t.mem = s.mem
        ∧ (tileOf t m.dst).orphan = { count := min ((tileOf s m.dst).orphan.count + 1) (2 ^ 32 - 1), reason := rputReason s m,
                                      slot := m.ptr.toNat / 32 % 16, source := m.src }
        ∧ ∃ e ∈ t.agenda, e.cycle = s.cycle + m.ow ∧ e.act = .accessResponse
            { uid := m.uid, fid := m.fid, part := 0, addr := m.ptr, stub := none,
              res := .fault 0x0C (rputReason s m + m.ptr.toNat / 32 % 16 * 256 + m.ptr.toNat % 32 * 4096) s.tsc false })

/-- R192, R200, R201: remote-register writes, sent and arriving. -/
def Obligations.RputsTravel : Prop :=
  Sys2Proof.Claims.RputSent ∧ Sys2Proof.Claims.RputArrives

/-! ### Rendezvous points (R123-R135) -/

namespace Sys2Proof.Claims

/-- What a rendezvous instruction leaves apart from its thread and its team's points. -/
def PointsOnly (s t : State) (c : Cur) (th : Thread) (k : Nat) : Prop :=
  (∀ j, j ≠ k → pointAt t th j = pointAt s th j) ∧ t.cur = none ∧ t.mem = s.mem ∧ t.empty = s.empty ∧ t.poison = s.poison
    ∧ (∀ u, u ≠ c.uid → ∀ x, threadOf s u = some x → ∃ y, threadOf t u = some y ∧ { y with readyAt := x.readyAt } = x)
    ∧ ∀ p, { partOf t p with teams := (partOf s p).teams } = partOf s p

/-- The latency of a team's rendezvous wire (R126): 2 × (w + h) + 16. -/
def wire (tm : Team) : Nat := 2 * (tm.w + tm.h) + 16

end Sys2Proof.Claims

/-- R125-R128, R133: `rvinit` sets its point's expected count, with the latency of the wire; a count of zero or beyond the
team's threads is the rendezvous fault with detail 3, and a point that holds an arrival with detail 2, and nothing is
set. -/
def Sys2Proof.Claims.RendezvousInit : Prop :=
  ∀ (s : State) (c : Cur) (th : Thread) (tm : Team) (k : Fin 24) (a : SReg),
    Ready s c th { Need.none with sr := [a], rx := true, ev := true } → th.role = 0 → teamOf s th.partn th.serial = some tm →
    let n := (sget th a).toNat
    let p := pointAt s th k.val
    (n = 0 ∨ threadLimit s th < n →
      ∃ t, exec (.rvinit k a) s = .next t ∧ TakesUser s c th 0x0E (BitVec.ofNat 64 (3 * 2 ^ 60 + k.val)) 0 t)
    ∧ (0 < n → n ≤ threadLimit s th → 0 < p.arrived →
      ∃ t, exec (.rvinit k a) s = .next t ∧ TakesUser s c th 0x0E (BitVec.ofNat 64 (2 * 2 ^ 60 + k.val)) 0 t)
    ∧ (0 < n → n ≤ threadLimit s th → p.arrived = 0 →
      ∃ t x, exec (.rvinit k a) s = .next t ∧ threadOf t c.uid = some x ∧ Over s c x c.npc (wire tm) ∧ endAs x th = th
        ∧ pointAt t th k.val = { p with expected := n } ∧ PointsOnly s t c th k.val ∧ t.agenda = s.agenda)

/-- R126, R129, R133: `rvarr` counts its thread as arrived and keeps the phase it arrived in; the arrival that completes
the count closes the point, and the release follows after the latency of the wire. A second arrival in a phase, or one
at a closed point, waits. An uninitialised point is the rendezvous fault with detail 4. -/
def Sys2Proof.Claims.RendezvousArrive : Prop :=
  ∀ (s : State) (c : Cur) (th : Thread) (tm : Team) (k : Fin 24), Ready s c th { Need.none with rx := true, ev := true } →
    th.role = 0 → teamOf s th.partn th.serial = some tm →
    let p := pointAt s th k.val
    (p.expected = 0 → ∃ t, exec (.rvarr k) s = .next t ∧ TakesUser s c th 0x0E (BitVec.ofNat 64 (4 * 2 ^ 60 + k.val)) 0 t)
    ∧ (p.expected ≠ 0 → th.rvArr.getLsbD k.val = true ∨ p.closed = true →
      ∃ t x, exec (.rvarr k) s = .next t ∧ threadOf t c.uid = some x ∧ x.wait = .rvarr k ∧ { x with wait := th.wait } = th ∧ Apart s t c)
    ∧ (p.expected ≠ 0 → th.rvArr.getLsbD k.val = false → p.closed = false →
      ∃ t x, exec (.rvarr k) s = .next t ∧ threadOf t c.uid = some x ∧ Over s c x c.npc 8
        ∧ (∀ j : Nat, j < 24 → x.rvArr.getLsbD j = (decide (j = k.val) || th.rvArr.getLsbD j)
            ∧ x.rvRec.getLsbD j = if j = k.val then p.phase else th.rvRec.getLsbD j)
        ∧ { endAs x th with rvRec := th.rvRec, rvArr := th.rvArr } = th
        ∧ pointAt t th k.val = { p with arrived := p.arrived + 1, closed := decide (p.arrived + 1 = p.expected) }
        ∧ PointsOnly s t c th k.val
        ∧ (p.arrived + 1 = p.expected → ∃ e ∈ t.agenda, e.cycle = s.cycle + wire tm
            ∧ e.act = .rendezvousRelease th.partn th.serial k.val))

/-- R126, R130-R132: `rvtest` writes whether the phase its thread arrived in is over; `rvwait` completes when it is, and
else parks, at most RVTO cycles unless RVTO is zero. -/
def Sys2Proof.Claims.RendezvousWait : Prop :=
  ∀ (s : State) (c : Cur) (th : Thread) (k : Fin 24) (q : PReg), Ready s c th { Need.none with rx := true } → th.role = 0 →
    let ended := decide ((pointAt s th k.val).phase ≠ th.rvRec.getLsbD k.val)
    (∃ t, exec (.rvtest q k) s = .next t ∧ WritesPred s c th q ended 8 t)
    ∧ (ended = true → ∃ t, exec (.rvwait k) s = .next t ∧ WritesNothing s c th c.npc 8 t)
    ∧ (ended = false → ∃ t x, exec (.rvwait k) s = .next t ∧ threadOf t c.uid = some x ∧ x.wait = .rvwait k ∧ x.pc = th.pc
        ∧ { x with wait := th.wait, rvSince := th.rvSince, rvSpent := th.rvSpent, rvOn := th.rvOn } = th ∧ Apart s { t with agenda := s.agenda } c
        ∧ (th.rvto ≠ 0 → ∃ e ∈ t.agenda, e.cycle = s.cycle + th.rvto.toNat ∧ e.act = .rendezvousTimeout c.uid s.cycle))

/-- R126, R129, R132, R133: a release flips its point's phase, forgets its arrivals, ends the waits of its team's threads, and has
their parked arrivals counted in the next cycle; a timeout is the rendezvous fault with detail 1 of the thread that waits, and leaves the point as it is. -/
def Sys2Proof.Claims.RendezvousEnds : Prop :=
  (∀ (s : State) (partn serial : Nat) (k : Fin 24) (tm : Team), Acting s (.rendezvousRelease partn serial k.val) → teamOf s partn serial = some tm →
    (∀ u th, threadOf s u = some th → th.partn = partn → th.serial = serial → th.role = 0) →
    ∃ t, exec .rendezvousRelease s = .next t
      ∧ (∃ tn, teamOf t partn serial = some tn
          ∧ pointOf tn k.val = { pointOf tm k.val with phase := !(pointOf tm k.val).phase, arrived := 0, closed := false })
      ∧ ∀ u th, threadOf s u = some th → th.partn = partn → th.serial = serial →
          ∃ y, threadOf t u = some y ∧ y.rvArr.getLsbD k.val = false ∧ (∀ r, sget y r = sget th r)
            ∧ (th.wait = .rvwait k → y.wait = .none ∧ y.pc = offBy th.pc 4 ∧ y.readyAt = s.cycle + 1)
            ∧ (th.wait = .rvarr k → y.wait = .rvarr k ∧ y.pc = th.pc ∧ y.rvDue = some (s.cycle + 1))
            ∧ (th.wait ≠ .rvwait k → { y with rvArr := th.rvArr, rvDue := th.rvDue } = th))
  ∧ ∀ (s : State) (u : Nat) (th : Thread) (k : Fin 24), Acting s (.rendezvousTimeout u th.rvSince) → threadOf s u = some th →
      th.wait = .rvwait k → th.role = 0 → th.tvec ≠ 0 → th.inHandler = false → th.ending = false →
      ∃ t y, exec .rendezvousTimeout s = .next t ∧ threadOf t u = some y ∧ y.pc = th.tvec ∧ y.inHandler = true ∧ y.wait = .none
        ∧ y.fr = { cause := 0x0E, addr := BitVec.ofNat 64 (2 ^ 60 + k.val), pc := th.pc, info := BitVec.ofNat 64 (missing s th k.val),
                   tsc := BitVec.ofNat 64 s.tsc }
        ∧ t.parts = s.parts ∧ t.mem = s.mem

/-- R123-R133: rendezvous points from their initialisation to their release. -/
def Obligations.RendezvousPoints : Prop :=
  Sys2Proof.Claims.RendezvousInit ∧
  Sys2Proof.Claims.RendezvousArrive ∧
  Sys2Proof.Claims.RendezvousWait ∧
  Sys2Proof.Claims.RendezvousEnds

/-! ### Jobs (R42-R47, R116, R117) -/

namespace Sys2Proof.Claims

/-- The jobs that wait in a core's matrix or copy queue, or in its partition's launch queue. -/
def queueJobs (s : State) (th : Thread) (q : Nat) : List Job :=
  match q with
  | 0 => lookD (clusterAt s (clusterOfTile th.tile)).mxe.queues (coreInCluster th.tile) []
  | 1 => lookD (clusterAt s (clusterOfTile th.tile)).cu.queues (coreInCluster th.tile) []
  | _ => (partOf s th.partn).devq

/-- The job that a push makes of a command word. -/
def pushed (s : State) (c : Cur) (th : Thread) (d : SReg) (p : Ptr) (ws : List Word) (j : Job) : Prop :=
  [j.w0, j.w1, j.w2, j.w3] = ws ∧ j.uid = c.uid ∧ j.tid = tidOf th ∧ j.partn = th.partn ∧ j.serial = th.serial ∧ j.tile = th.tile
    ∧ j.reg = d ∧ j.cmd = p ∧ j.jid = s.nextId

end Sys2Proof.Claims

/-- R116: `jpush` reads its command word from the own tile's scratchpad, and with a free entry puts the job at the end of
its queue and leaves the job register empty until its status word; the waiting form waits for the end. With its queue
full it parks. The pointer's checks and an illegal command are faults that push nothing. -/
def Sys2Proof.Claims.JobPushed : Prop :=
  ∀ (s : State) (c : Cur) (th : Thread) (d a : SReg) (q : Fin 3) (i : Instr),
    Ready s c th { Need.none with sr := [a], sd := [d], rx := true } → i = .jpush d a q ∨ i = .jpushW d a q →
    let p := sget th a
    let own := p.toNat / 2 ^ 60 = 0 ∧ guestTile s th.partn (p.toNat / 2 ^ 53 % 128) (p.toNat / 2 ^ 46 % 128) = some th.tile
    (¬ own → ∃ t, exec i s = .next t ∧ TakesUser s c th 0x08 p 4 t)
    ∧ (own → p.toNat % 32 ≠ 0 → ∃ t, exec i s = .next t ∧ TakesUser s c th 0x07 p 32 t)
    ∧ ∀ ws, own → p.toNat % 32 = 0 → limitsOf s th.partn p = 0 → sEmptyAt th d = false → s.behind = none →
      pushWords s th.partn p = (s, .inr ws) → ws.length = 4 →
      (∀ b, illegalCommand s { wordsJob th.partn ws with
              jid := s.nextId, uid := c.uid, tid := tidOf th, serial := th.serial, tile := th.tile, reg := d, cmd := p } q.val th.sup = some b →
        ∃ t, exec i s = .next t ∧ TakesUser s c th 0x15 p (BitVec.ofNat 64 b) t)
      ∧ (illegalCommand s { wordsJob th.partn ws with
              jid := s.nextId, uid := c.uid, tid := tidOf th, serial := th.serial, tile := th.tile, reg := d, cmd := p } q.val th.sup = none →
        th.role = 0 → th.meter.jobs = false →
        let waits := i = .jpushW d a q
        ((queueJobs s th q.val).length < (if q.val = 2 then 64 else 4) →
          ∃ t x j, exec i s = .next t ∧ threadOf t c.uid = some x ∧ pushed s c th d p ws j ∧ j.enq = s.cycle
            ∧ queueJobs t th q.val = queueJobs s th q.val ++ [j]
            ∧ (waits → x.wait = .jobDone j.jid ∧ x.pc = th.pc) ∧ (¬ waits → Over s c x c.npc 8)
            ∧ (∀ r, sEmptyAt x r = (sEmptyAt th r || decide (r = d ∧ r ≠ 0)))
            ∧ { endAs x th with sEmpty := th.sEmpty, sOut := th.sOut, jobsIn := th.jobsIn, meter := th.meter } = th
            ∧ (∀ a, memGet t.mem a = memGet s.mem a) ∧ t.empty = s.empty)
        ∧ ((if q.val = 2 then 64 else 4) ≤ (queueJobs s th q.val).length →
          ∃ t x j, exec i s = .next t ∧ threadOf t c.uid = some x ∧ pushed s c th d p ws j
            ∧ x.wait = .jobQueue j q.val (decide (i = .jpushW d a q))
            ∧ queueJobs t th q.val = queueJobs s th q.val ∧ { endAs x th with meter := th.meter } = th
            ∧ (∀ a, memGet t.mem a = memGet s.mem a) ∧ t.empty = s.empty))

/-- R117, R284: a job's status word fills its thread's job register; a thread that waited for it goes on; for a thread
that has exited it is discarded (R96), and a thread whose team is saved finds it in its register (R382). The status word of a LAUNCH that was placed waits, a cycle at a time, while an
access of a thread of its partition that is gone is yet to be performed (R382; the cycle is the model's choice, log 55). -/
def Sys2Proof.Claims.StatusWordLands : Prop :=
  ∀ (s : State) (j : Job) (w : Word), Acting s (.jobStatusWord j w) →
    (statusWaits s j w = true →
      exec .jobStatusWord s = .next (schedStatus { s with act := none } (s.cycle + 1) srcLaunch j w)) ∧
    (statusWaits s j w = false →
    (∀ th, threadOf s j.uid = some th → th.role = 0 → th.stand = .inSlot → (j.reg, j.jid) ∈ th.jobsIn →
      ∃ t y, exec .jobStatusWord s = .next t ∧ threadOf t j.uid = some y
        ∧ (∀ r, sget y r = if r = j.reg ∧ r ≠ 0 then w else sget th r) ∧ sEmptyAt y j.reg = false
        ∧ y.jobsIn = th.jobsIn.filter (fun x => decide (x.2 ≠ j.jid))
        ∧ (th.wait = .none → y.pc = th.pc ∧ y.readyAt = th.readyAt)
        ∧ (th.wait = .jobDone j.jid → y.wait = .none ∧ y.pc = offBy th.pc 4 ∧ y.readyAt = s.cycle + 1)
        ∧ t.mem = s.mem ∧ t.empty = s.empty)
    ∧ (threadOf s j.uid = none → mateOf s j.uid = none →
      ((∀ i ∈ (partOf s j.partn).saved, ∀ x ∈ i.threads, x.uid ≠ j.uid) →
        ∃ t, exec .jobStatusWord s = .next t ∧ (∀ k, partOf t k = partOf s k) ∧ { t with parts := s.parts } = { s with act := none })
      ∧ ∀ i x, i ∈ (partOf s j.partn).saved → x ∈ i.threads → x.uid = j.uid → (j.reg, j.jid) ∈ x.th.jobsIn →
        ∃ t i' y, exec .jobStatusWord s = .next t ∧ i' ∈ (partOf t j.partn).saved ∧ y ∈ i'.threads ∧ y.uid = j.uid
          ∧ i'.slot = i.slot ∧ (∀ r, sget y.th r = if r = j.reg ∧ r ≠ 0 then w else sget x.th r) ∧ sEmptyAt y.th j.reg = false
          ∧ (x.th.wait = .jobDone j.jid → y.th.wait = .none ∧ y.th.pc = offBy x.th.pc 4)
          ∧ { t with parts := s.parts } = { s with act := none }))

/-- R116, R117, R284: jobs are pushed, and their status words land. -/
def Obligations.JobsPushed : Prop :=
  Sys2Proof.Claims.JobPushed ∧ Sys2Proof.Claims.StatusWordLands

/-! ### Range deques (R387-R393) -/

namespace Sys2Proof.Claims

/-- Entries a core's deque has room for (R387): 32, and 32 times a power of two in its spill area. -/
def room (s : State) (tile : Nat) : Nat :=
  32 + (if (tileOf s tile).dqsp = 0 then 0 else 32 * 2 ^ ((tileOf s tile).dqsp.toNat / 2 ^ 32 % 16))

end Sys2Proof.Claims

/-- R388-R392: `dqpush` puts its range at the owner end, an empty range is not pushed, and a full deque is the deque
fault; `dqpop` takes the range at the owner end into three registers, or clears its predicate; `dqsplit` cuts the range
at the owner end in its middle; `dqcnt` counts. Below 33 ranges none of them touches memory. -/
def Sys2Proof.Claims.DequeOwner : Prop :=
  ∀ (s : State) (c : Cur) (th : Thread), th.role = 0 →
    let dq := fun (t : State) => (tileOf t th.tile).deque
    let kept := fun (t : State) => t.cur = none ∧ t.mem = s.mem ∧ t.empty = s.empty ∧ t.parts = s.parts ∧ t.agenda = s.agenda
    (∀ d a b, Ready s c th { Need.none with sr := [d, a, b], rx := true } →
      ((sget th b).toNat ≤ (sget th a).toNat → ∃ t, exec (.dqpush d a b) s = .next t ∧ WritesNothing s c th c.npc 8 t)
      ∧ ((sget th a).toNat < (sget th b).toNat → (dq s).length < 32 →
        ∃ t x, exec (.dqpush d a b) s = .next t ∧ threadOf t c.uid = some x ∧ Over s c x c.npc 8 ∧ endAs x th = th
          ∧ dq t = dq s ++ [{ lo := sget th a, hi := sget th b, tag := sget th d }] ∧ kept t)
      ∧ ((sget th a).toNat < (sget th b).toNat → room s th.tile ≤ (dq s).length →
        ∃ t, exec (.dqpush d a b) s = .next t
          ∧ TakesUser s c th 0x1E 0 (BitVec.ofNat 64 ((dq s).length + room s th.tile * 2 ^ 32)) t))
    ∧ (∀ (d : Fin 30) (k : PReg), Ready s c th { Need.none with sd := [rS d.val, rS (d.val + 1), rS (d.val + 2)] } →
      (dq s = [] → ∃ t, exec (.dqpop d k) s = .next t ∧ WritesPred s c th k false 8 t)
      ∧ ∀ l r, dq s = l ++ [r] → l.length < 32 →
        ∃ t x, exec (.dqpop d k) s = .next t ∧ threadOf t c.uid = some x ∧ Over s c x c.npc 8 ∧ dq t = l
          ∧ (∀ q : SReg, sget x q = if q = 0 then 0 else if q.val = d.val then r.lo else if q.val = d.val + 1 then r.hi
                          else if q.val = d.val + 2 then r.tag else sget th q)
          ∧ (∀ q, pget x q = if q = k then true else pget th q)
          ∧ { endAs x th with s := th.s, sEmpty := th.sEmpty, sOut := th.sOut, sPois := th.sPois, p := th.p, pEmpty := th.pEmpty,
                              pPois := th.pPois } = th
          ∧ kept t)
    ∧ (Ready s c th { Need.none with rx := true } →
      (∀ l r, dq s = l ++ [r] → l.length < 31 → r.hi.toNat - r.lo.toNat ≠ 1 →
        let m := BitVec.ofNat 64 (r.lo.toNat + (r.hi.toNat - r.lo.toNat) / 2)
        ∃ t x, exec .dqsplit s = .next t ∧ threadOf t c.uid = some x ∧ Over s c x c.npc 8 ∧ endAs x th = th
          ∧ dq t = l ++ [{ r with hi := m }, { r with lo := m }] ∧ kept t)
      ∧ (dq s = [] → ∃ t, exec .dqsplit s = .next t ∧ WritesNothing s c th c.npc 8 t))
    ∧ ∀ d, Ready s c th { Need.none with sd := [d] } →
      ∃ t, exec (.dqcnt d) s = .next t ∧ WritesScalar s c th d (BitVec.ofNat 64 (dq s).length) c.npc 8 t

/-- R390, R391: `dqsteal` with no other core in its domain clears its predicate; else it visits the first, and its thread
waits. A visit takes the upper half of the oldest range, or all of a range of one; at an empty deque it goes on to the next
core, and at the last one it answers that it found nothing. The cycles of the visit and of its answer, of the atomic's
latency, are the model's choice (log 52). -/
def Sys2Proof.Claims.DequeSteal : Prop :=
  (∀ (s : State) (c : Cur) (th : Thread) (d : Fin 30) (k : PReg),
    Ready s c th { Need.none with sd := [rS d.val, rS (d.val + 1), rS (d.val + 2)] } → th.role = 0 →
    (victims s th = [] → ∃ t, exec (.dqsteal d k) s = .next t ∧ WritesPred s c th k false 8 t)
    ∧ ∀ v rest, victims s th = v :: rest →
      ∃ t x, exec (.dqsteal d k) s = .next t ∧ threadOf t c.uid = some x ∧ x.wait = .access s.nextId ∧ (∀ r, sget x r = sget th r)
        ∧ t.mem = s.mem ∧ (∃ e ∈ t.agenda, ∃ m, e.cycle = s.cycle + c.fx + owTiles s th.tile v + 15 ∧ e.act = .stealVisit m
            ∧ m.uid = c.uid ∧ m.fid = s.nextId ∧ m.src = th.tile ∧ m.here = v ∧ m.rest = rest))
  ∧ ∀ (s : State) (m : StealMsg), Acting s (.stealVisit m) →
      let back := fun (t : State) (vs : List Word) => ∃ e ∈ t.agenda, e.cycle = s.cycle + owTiles s m.src m.here
        ∧ e.act = .accessResponse { uid := m.uid, fid := m.fid, part := 0, addr := 0, stub := some m.charge, res := .done vs 0 }
      (∀ r l, (tileOf s m.here).deque = r :: l → l.length < 32 → r.hi.toNat - r.lo.toNat = 1 →
        ∃ t, exec .stealVisit s = .next t ∧ (tileOf t m.here).deque = l ∧ back t [r.lo, r.hi, r.tag] ∧ t.mem = s.mem ∧ t.threads = s.threads)
      ∧ (∀ r l, (tileOf s m.here).deque = r :: l → l.length < 32 → r.hi.toNat - r.lo.toNat ≠ 1 →
        let mid := BitVec.ofNat 64 (r.lo.toNat + (r.hi.toNat - r.lo.toNat) / 2)
        ∃ t, exec .stealVisit s = .next t ∧ (tileOf t m.here).deque = { r with hi := mid } :: l ∧ back t [mid, r.hi, r.tag]
          ∧ t.mem = s.mem ∧ t.threads = s.threads)
      ∧ ((tileOf s m.here).deque = [] →
        (m.rest = [] → ∃ t, exec .stealVisit s = .next t ∧ back t [] ∧ { t with agenda := s.agenda } = { s with act := none })
        ∧ ∀ v rest, m.rest = v :: rest → ∃ t, exec .stealVisit s = .next t ∧ { t with agenda := s.agenda } = { s with act := none }
            ∧ ∃ e ∈ t.agenda, ∃ n, e.act = .stealVisit n ∧ n.here = v ∧ n.rest = rest ∧ n.uid = m.uid ∧ n.fid = m.fid)

/-- R387-R392: the owner's operations on its deque, and stealing from others'. -/
def Obligations.RangeDeques : Prop :=
  Sys2Proof.Claims.DequeOwner ∧ Sys2Proof.Claims.DequeSteal

/-! ### Local time (R345-R368) -/

/-- R345: outside local-time mode the event instructions are the illegal-instruction fault. -/
def Sys2Proof.Claims.EventsNeedLocalTime : Prop :=
  ∀ (s : State) (c : Cur) (th : Thread) (i : Instr) (n : Need), Ready s c th n → th.ltm = false →
    ((∃ d a b, i = .evsend d a b ∧ n = { Need.none with sr := [evPay d 0, evPay d 1, a, b], rx := true })
      ∨ (∃ d : Fin 30, i = .evnext d ∧ n = { Need.none with sd := [rS d.val, rS (d.val + 1), rS (d.val + 2)], rx := true })
      ∨ (i = .evnull ∧ n = { Need.none with rx := true })
      ∨ ∃ k a b, i = .lkset k a b ∧ n = { Need.none with sr := [a, b], rx := true }) →
    ∃ t, exec i s = .next t ∧ TakesUser s c th 0x01 0 (BitVec.ofNat 64 (c.word.toNat + c.pos * 2 ^ 32)) t

/-- R350, R358, R360: `evsend` over one of its core's links, with a time at least its own time plus the link's lookahead,
sends the event to the target's event unit; a lower time is the lookahead fault with detail 1, the greatest time with detail
2, and nothing is sent. -/
def Sys2Proof.Claims.EventSent : Prop :=
  ∀ (s : State) (c : Cur) (th : Thread) (d : Fin 16) (a b : SReg) (dst k : Nat) (l : OutLink),
    Ready s c th { Need.none with sr := [evPay d 0, evPay d 1, a, b], rx := true } → th.ltm = true →
    evTarget s th (sget th a) = .inr dst → slotTo s th.tile dst = some (k, l) →
    let p := sget th a
    let w := sget th b
    let info := fun (n : Nat) => BitVec.ofNat 64 (n + k * 16 + l.look * 2 ^ 32)
    (w.toNat = 2 ^ 64 - 1 → ∃ t, exec (.evsend d a b) s = .next t ∧ TakesUser s c th 0x12 p (info 2) t)
    ∧ (w.toNat ≠ 2 ^ 64 - 1 → w.toNat < th.lt.vck.toNat + l.look →
      ∃ t, exec (.evsend d a b) s = .next t ∧ TakesUser s c th 0x12 p (info 1) t)
    ∧ (w.toNat ≠ 2 ^ 64 - 1 → th.lt.vck.toNat + l.look ≤ w.toNat → th.role = 0 →
      meterTraps th (256 * lenTiles s th.tile dst) = false → (evuOf s th.tile).held = [] →
      ∃ t x m, exec (.evsend d a b) s = .next t ∧ threadOf t c.uid = some x ∧ Over s c x c.npc 8
        ∧ x.meter = charged th.meter (256 * lenTiles s th.tile dst) ∧ { endAs x th with meter := th.meter } = th
        ∧ m.partn = th.partn ∧ m.serial = th.serial ∧ m.src = th.tile ∧ m.dst = dst ∧ m.t = w ∧ m.uid = c.uid ∧ m.inj = s.tsc
        ∧ m.pay0 = sget th (evPay d 0) ∧ m.pay1 = sget th (evPay d 1)
        ∧ t.agenda = enterTimed s.agenda { cycle := s.cycle + 6 + owTiles s th.tile dst, late := false, age := s.tsc, src := th.tile,
                                           act := .eventEntry m }
        ∧ Apart s { t with agenda := s.agenda } c)

/-- R361-R363: `evnext` closes its core's links, empties its three registers and parks; `evnull` tells the target of a link
the floor plus its lookahead where that is more than it was told; `lkset` to another core sends a registration and waits, with
the lookahead fault for a lookahead of 2^32 and above (detail 3) and once links are closed (detail 4); to its own core it
records both ends at once, or is the peer fault with detail 3 where 32 inbound links are in use. The cycle in which a
registration arrives, of its whole latency, is the model's choice (log 15). -/
def Sys2Proof.Claims.EventUnits : Prop :=
  ∀ (s : State) (c : Cur) (th : Thread), th.ltm = true → th.role = 0 →
    (∀ d : Fin 30, Ready s c th { Need.none with sd := [rS d.val, rS (d.val + 1), rS (d.val + 2)], rx := true } →
      ∃ t x, exec (.evnext d) s = .next t ∧ threadOf t c.uid = some x ∧ x.wait = .evnext d s.cycle ∧ x.pc = th.pc
        ∧ (evuOf t th.tile).closed = true ∧ { evuOf t th.tile with closed := (evuOf s th.tile).closed } = evuOf s th.tile
        ∧ (∀ r : SReg, sEmptyAt x r = (sEmptyAt th r || decide (r ≠ 0 ∧ d.val ≤ r.val ∧ r.val ≤ d.val + 2)))
        ∧ { endAs x th with sEmpty := th.sEmpty, sOut := th.sOut } = th ∧ t.mem = s.mem ∧ t.agenda = s.agenda)
    ∧ (Ready s c th { Need.none with rx := true } →
      ((evuOf s th.tile).out = [] → ∃ t, exec .evnull s = .next t ∧ WritesNothing s c th c.npc 8 t)
      ∧ ∀ k l, (evuOf s th.tile).out = [(k, l)] → l.dst ≠ th.tile →
        let v := satAdd (evNow s th.tile).floor l.look
        ∃ t x, exec .evnull s = .next t ∧ threadOf t c.uid = some x ∧ Over s c x c.npc 8 ∧ endAs x th = th ∧ t.mem = s.mem
          ∧ (l.sent.toNat < v.toNat → ∃ e ∈ t.agenda, ∃ m, e.cycle = s.cycle + 6 + owTiles s th.tile l.dst ∧ e.act = .almanacMessage m
              ∧ m.src = th.tile ∧ m.dst = l.dst ∧ m.value = v)
          ∧ (v.toNat ≤ l.sent.toNat → t.agenda = s.agenda))
    ∧ ∀ (k : Fin 8) (a b : SReg) (dst : Nat), Ready s c th { Need.none with sr := [a, b], rx := true } →
      evTarget s th (sget th a) = .inr dst →
      let L := (sget th b).toNat
      (2 ^ 32 ≤ L → ∃ t, exec (.lkset k a b) s = .next t
        ∧ TakesUser s c th 0x12 (sget th a) (BitVec.ofNat 64 (3 + k.val * 16 + (2 ^ 32 - 1) * 2 ^ 32)) t)
      ∧ (L < 2 ^ 32 → (evuOf s th.tile).closed = true → ∃ t, exec (.lkset k a b) s = .next t
        ∧ TakesUser s c th 0x12 (sget th a) (BitVec.ofNat 64 (4 + k.val * 16 + L * 2 ^ 32)) t)
      ∧ (L < 2 ^ 32 → (evuOf s th.tile).closed = false → slotTo s th.tile dst = none → dst = th.tile →
        meterTraps th (192 * lenTiles s th.tile dst) = false →
        (linkRefusal s th.partn dst th.tile = 3 → ∃ t, exec (.lkset k a b) s = .next t ∧ TakesUser s c th 0x14 (sget th a) 3 t)
        ∧ (linkRefusal s th.partn dst th.tile = 0 →
          ∃ t x j, exec (.lkset k a b) s = .next t ∧ threadOf t c.uid = some x ∧ Over s c x c.npc 8
            ∧ x.meter = charged th.meter (192 * lenTiles s th.tile dst) ∧ { endAs x th with meter := th.meter } = th ∧ t.mem = s.mem
            ∧ look (evuOf t th.tile).out k.val =
                some { dst := th.tile, look := L, sent := BitVec.ofNat 64 L, lastMsg := none, hold := none }
            ∧ (look (evuOf s th.tile).out k.val = none →
                look (evuOf t th.tile).inb j = some { src := th.tile, look := L, p := BitVec.ofNat 64 L })))
      ∧ (L < 2 ^ 32 → (evuOf s th.tile).closed = false → slotTo s th.tile dst = none → dst ≠ th.tile →
        meterTraps th (192 * lenTiles s th.tile dst) = false →
        ∃ t x, exec (.lkset k a b) s = .next t ∧ threadOf t c.uid = some x ∧ x.wait = .access s.nextId ∧ (∀ r, sget x r = sget th r)
          ∧ t.mem = s.mem ∧ ∃ e ∈ t.agenda, ∃ m, e.cycle = s.cycle + c.fx + owTiles s th.tile dst + 11 ∧ e.act = .linkRegistration m
              ∧ m.uid = c.uid ∧ m.src = th.tile ∧ m.dst = dst ∧ m.slot = k.val ∧ m.look = L)

/-- R345, R350, R358-R363: the instructions of local-time mode. -/
def Obligations.EventInstructions : Prop :=
  Sys2Proof.Claims.EventsNeedLocalTime ∧ Sys2Proof.Claims.EventSent ∧ Sys2Proof.Claims.EventUnits

/-- R349, R350, R358: an event that reaches a core of its team with room is entered among the pending ones, in order of
time and then of source; a full event unit answers busy, the sender keeps the event from the answer's arrival on, and the
oldest event it keeps for a core is sent again 64 cycles after that. Over a self link the sending thread's next unit waits
for the entry (R137). -/
def Sys2Proof.Claims.EventArrives : Prop :=
  (∀ (s : State) (m : EventMsg), Acting s (.eventEntry m) → heldFor s m.src m.dst = [] → eventBehind s m = false → fencedAt s m.partn m.dst = false →
    (∃ u th, (u, th) ∈ s.threads ∧ th.tile = m.dst ∧ th.partn = m.partn ∧ th.serial = m.serial) →
    ((evuOf s m.dst).pending.length < 64 →
      ∃ t, exec .eventEntry s = .next t ∧ t.mem = s.mem
        ∧ (∃ l r, (evuOf t m.dst).pending = l ++ { t := m.t, pay0 := m.pay0, pay1 := m.pay1, src := m.src } :: r
            ∧ (evuOf s m.dst).pending = l ++ r
            ∧ (∀ x, l.getLast? = some x → x.t.toNat < m.t.toNat ∨ (x.t = m.t ∧ x.src ≤ m.src))
            ∧ (∀ x, r.head? = some x → m.t.toNat < x.t.toNat ∨ (x.t = m.t ∧ m.src < x.src))))
    ∧ (64 + ringRoom (tileOf s m.dst).evsp ≤ (evuOf s m.dst).pending.length →
      ∃ t, exec .eventEntry s = .next t ∧ { t with agenda := s.agenda, threads := s.threads } = { s with act := none }
        ∧ (m.src ≠ m.dst → t.threads = s.threads)
        ∧ (m.src = m.dst → ∀ th, threadOf s m.uid = some th → th.wait = .none →
            ∃ y, threadOf t m.uid = some y ∧ y.wait = .evEnter m ∧ { y with wait := .none } = th)
        ∧ ∃ e ∈ t.agenda, e.cycle = s.cycle + 6 + owTiles s m.src m.dst ∧ e.act = .eventBusyAnswer m))
  ∧ (∀ (s : State) (m : EventMsg), Acting s (.eventBusyAnswer m) →
      (heldFor s m.src m.dst = [] →
        ∃ t, exec .eventBusyAnswer s = .next t ∧ t.mem = s.mem ∧ t.threads = s.threads ∧ heldFor t m.src m.dst = [m]
          ∧ (∀ d, d ≠ m.dst → heldFor t m.src d = heldFor s m.src d)
          ∧ ∃ e ∈ t.agenda, e.cycle = s.cycle + 64 ∧ e.act = .eventResend m.src m.dst)
      ∧ ∀ l, heldFor s m.src m.dst = m :: l →
        ∃ t, exec .eventBusyAnswer s = .next t ∧ { t with agenda := s.agenda } = { s with act := none }
          ∧ ∃ e ∈ t.agenda, e.cycle = s.cycle + 64 ∧ e.act = .eventResend m.src m.dst)
  ∧ ∀ (s : State) (src dst : Nat) (m : EventMsg) (l : List EventMsg), Acting s (.eventResend src dst) → heldFor s src dst = m :: l →
      ∃ t, exec .eventResend s = .next t ∧ { t with agenda := s.agenda } = { s with act := none }
        ∧ ∃ e ∈ t.agenda, e.cycle = s.cycle + 6 + owTiles s m.src dst ∧ e.age = m.inj ∧ e.act = .eventEntry m

/-- R352, R353, R363: the earliest pending event below the horizon goes to a thread that waits for one: its registers have
time and payload, its VCK and the core's CCK the event's time, and it goes on from the next cycle. At the end of local
time a thread is told the greatest time. -/
def Sys2Proof.Claims.EventDispatched : Prop :=
  (∀ (s : State) (tile u : Nat) (x : Event) (th : Thread) (d : Fin 30) (since : Nat), Acting s (.eventDispatch tile) →
    dispatchable s tile = some (x, u) → threadOf s u = some th → th.wait = .evnext d since → th.role = 0 → th.stand = .inSlot →
    (evuOf s tile).pending.length ≤ 65 →
    ∃ t y, exec .eventDispatch s = .next t ∧ threadOf t u = some y ∧ y.pc = offBy th.pc 4 ∧ y.readyAt = s.cycle + 1 ∧ y.wait = .none
      ∧ (∀ r : SReg, sget y r = if r = 0 then 0 else if r.val = d.val then x.t else if r.val = d.val + 1 then x.pay0
                else if r.val = d.val + 2 then x.pay1 else sget th r)
      ∧ y.lt = { th.lt with vck := x.t, esrc := BitVec.ofNat 64 (guestPack s th.partn x.src) }
      ∧ { endAs y th with s := th.s, sEmpty := th.sEmpty, sOut := th.sOut, sPois := th.sPois, lt := th.lt } = th
      ∧ (evuOf t tile).pending = (evuOf s tile).pending.drop 1 ∧ (evuOf t tile).cck = x.t ∧ x.t.toNat < (horizonAt s tile).toNat
      ∧ t.mem = s.mem ∧ t.agenda = s.agenda)
  ∧ ∀ (s : State) (tile u : Nat) (th : Thread) (d : Fin 30) (since : Nat), Acting s (.endOfLocalTime tile u) →
    endable s tile = some u → threadOf s u = some th → th.wait = .evnext d since → th.role = 0 → th.stand = .inSlot →
    ∃ t y, exec .endOfLocalTime s = .next t ∧ threadOf t u = some y ∧ y.pc = offBy th.pc 4 ∧ y.wait = .none
      ∧ (∀ r : SReg, sget y r = if r = 0 then 0 else if r.val = d.val then BitVec.allOnes 64 else if r.val = d.val + 1 then 0
                else if r.val = d.val + 2 then 0 else sget th r)
      ∧ y.lt = th.lt ∧ (evuOf t tile).pending = (evuOf s tile).pending ∧ t.mem = s.mem

/-- R351, R354-R357: a promise that arrives raises the promise of its link and never lowers it; a held one leaves after its
time; a vigil round notes the horizon it saw; a link that is registered is recorded with its lookahead, and the answer goes
back. The way back of that answer (log 15) and the reference that a round notes (log 44) are the model's choices. -/
def Sys2Proof.Claims.PromisesRise : Prop :=
  (∀ (s : State) (m : PromiseMsg) (i : Instr), (i = .almanacMessage ∧ Acting s (.almanacMessage m)) ∨ (i = .vigilEvent ∧ Acting s (.vigilEvent m)) →
    fencedAt s m.partn m.dst = false → (∃ u th, (u, th) ∈ s.threads ∧ th.tile = m.dst ∧ th.partn = m.partn ∧ th.serial = m.serial) →
    ∃ t, exec i s = .next t ∧ (∀ k l, look (evuOf s m.dst).inb k = some l → ∃ l', look (evuOf t m.dst).inb k = some l'
          ∧ l'.p = (if l.src = m.src ∧ l.p.toNat < m.value.toNat then m.value else l.p) ∧ l'.src = l.src ∧ l'.look = l.look)
      ∧ t.threads = s.threads ∧ t.mem = s.mem)
  ∧ (∀ (s : State) (tile slot : Nat) (l : OutLink) (v : Word), Acting s (.almanacHoldExpiry tile slot) →
      look (evuOf s tile).out slot = some l → almanacDue s l = some v → (∃ u th, (u, th) ∈ s.threads ∧ th.tile = tile ∧ th.ltm = true ∧ threadOf s u = some th) →
      ∃ t, exec .almanacHoldExpiry s = .next t ∧ (∃ l', look (evuOf t tile).out slot = some l' ∧ l'.sent = v ∧ l'.hold = none ∧ l'.dst = l.dst)
        ∧ ∃ e ∈ t.agenda, ∃ m, e.cycle = s.cycle + 6 + owTiles s tile l.dst ∧ e.act = .almanacMessage m ∧ m.value = v ∧ m.dst = l.dst)
  ∧ (∀ (s : State) (tile b : Nat), Acting s (.vigilRound tile b) → vigilDue s tile = some b → (attaining s tile).all (fun o => decide (o.2.1 ≠ 0)) = true →
      ∃ t, exec .vigilRound s = .next t ∧ (evuOf t tile).blkH = horizonAt s tile ∧ (evuOf t tile).lastRound = some s.cycle
        ∧ t.threads = s.threads ∧ t.mem = s.mem)
  ∧ ∀ (s : State) (m : LinkMsg), Acting s (.linkRegistration m) →
      (linkRefusal s m.partn m.dst m.src = 0 → (evuOf s m.dst).inb = [] →
        ∃ t, exec .linkRegistration s = .next t ∧ (evuOf t m.dst).inb = [(0, { src := m.src, look := m.look, p := BitVec.ofNat 64 m.look })]
          ∧ t.mem = s.mem ∧ ∃ e ∈ t.agenda, e.cycle = s.cycle + m.ow ∧ e.act = .accessResponse { uid := m.uid, fid := m.fid, part := 0, addr := m.ptr, stub := none, res := .done [] 0 })
      ∧ (linkRefusal s m.partn m.dst m.src = 3 →
        ∃ t, exec .linkRegistration s = .next t ∧ { t with agenda := s.agenda } = { s with act := none }
          ∧ ∃ e ∈ t.agenda, e.cycle = s.cycle + m.ow ∧ e.act = .accessResponse { uid := m.uid, fid := m.fid, part := 0, addr := m.ptr, stub := none, res := .fault 0x14 3 s.tsc false })

/-- R349-R358, R363: events, promises, vigils and links in flight. -/
def Obligations.LocalTimeActs : Prop :=
  Sys2Proof.Claims.EventArrives ∧ Sys2Proof.Claims.EventDispatched ∧ Sys2Proof.Claims.PromisesRise

/-! ### The vector unit (R234-R255, R300, R301) -/

namespace Sys2Proof.Claims

/-- Of a vector register's new value nothing else of the machine depends: the registers of the pooled file in other rows
stay, with their full bits, and so does everything that `Apart` names. -/
def RowOnly (s t : State) (c : Cur) (th : Thread) (d : VReg) : Prop :=
  t.cur = none ∧ { t with threads := s.threads, tiles := s.tiles, cur := s.cur } = s
    ∧ (∀ k, { tileOf t k with last := (tileOf s k).last, lastIssue := (tileOf s k).lastIssue, lastPc := (tileOf s k).lastPc,
                              pool := (tileOf s k).pool, poolEmpty := (tileOf s k).poolEmpty, poolPois := (tileOf s k).poolPois } = tileOf s k)
    ∧ (∀ k g, (k = th.tile → g / 8 ≠ th.rows.getD d.val 0) → granGet t k g = granGet s k g
        ∧ (g ∈ (tileOf t k).poolEmpty ↔ g ∈ (tileOf s k).poolEmpty) ∧ (g ∈ (tileOf t k).poolPois ↔ g ∈ (tileOf s k).poolPois))
    ∧ ∀ u, u ≠ c.uid → ∀ x, threadOf s u = some x → ∃ y, threadOf t u = some y ∧ { y with readyAt := x.readyAt } = x

/-- A unit completes and writes one vector register, element by element, which is then full; it raises flags (R236, R237). -/
def WritesVector (s : State) (c : Cur) (th : Thread) (d : VReg) (w : Nat) (v : Nat → Nat) (fl lat : Nat) (t : State) : Prop :=
  ∃ x, threadOf t c.uid = some x ∧ Over s c x c.npc lat
    ∧ (∀ k, k < 512 / w → elem w (vget t x d.val) k = v k % 2 ^ w) ∧ vEmptyAt t x d.val = false
    ∧ x.vec = { th.vec with vstat := th.vec.vstat ||| BitVec.ofNat 64 fl } ∧ { endAs x th with vec := th.vec } = th
    ∧ RowOnly s t c th d

/-- An element-wise vector instruction: its destination, the registers and scalars it reads, its prefix, the width and the
number of its results, its latency, and each element's result with its flags. -/
structure Lane where
  d    : VReg
  srcs : List VReg
  sr   : List SReg
  q    : VPfx
  w    : Nat
  n    : Nat
  lat  : Nat
  f    : Nat → Nat × Nat

/-- The element-wise instructions (R241-R243, R245-R247). Integer results are the exact ones modulo 2^w; floating ones
are what the format's rounding makes of the exact result (R218-R232). -/
def laneForm (s : State) (th : Thread) : Instr → Option Lane
  | .vadd d a b et q => some (two d a b et q 8 (fun x y => flt2 th q et exAdd x y) fun x y => (x + y, 0))
  | .vsub d a b et q => some (two d a b et q 8 (fun x y => flt2 th q et (fun m u v => exAdd m u v.neg) x y) fun x y => (x - y, 0))
  | .vmul d a b et q => some (two d a b et q (if et = .f64 then 16 else 8) (fun x y => flt2 th q et (fun _ u v => exMul u v) x y) fun x y => (x * y, 0))
  | .vdiv d a b et q => some (two d a b et q 24 (fun x y => flt2 th q et (fun _ u v => exDiv 64 u v) x y)
      fun x y => if y = 0 then (-1, 2) else (x.tdiv y, 0))
  | .vmin d a b et q => some (two d a b et q 8 (fun x y => minmaxElem et (ftzOf th) false x y) fun x y => (Min.min x y, 0))
  | .vmax d a b et q => some (two d a b et q 8 (fun x y => minmaxElem et (ftzOf th) true x y) fun x y => (Max.max x y, 0))
  | .vfma d a b et q => some (fma d a b et q false)
  | .vfms d a b et q => some (fma d a b et q true)
  | .vabs d a et q => some (one d a et q 8 (fun x => signElem et false x) fun x => (x.natAbs, 0))
  | .vneg d a et q => some (one d a et q 8 (fun x => signElem et true x) fun x => (-x, 0))
  | .vmulh d a b et q => some (raw d [a, b] [] et q fun i => (int et (S et a i * S et b i / 2 ^ ewidth et), 0))
  | .vand d a b et q => some (raw d [a, b] [] et q fun i => (E et a i &&& E et b i, 0))
  | .vor d a b et q => some (raw d [a, b] [] et q fun i => (E et a i ||| E et b i, 0))
  | .vxor d a b et q => some (raw d [a, b] [] et q fun i => (E et a i ^^^ E et b i, 0))
  | .vandn d a b et q => some (raw d [a, b] [] et q fun i => (E et a i &&& (2 ^ ewidth et - 1 - E et b i), 0))
  | .vshl d a b et q => some (raw d [a, b] [] et q fun i => (E et a i * 2 ^ (E et b i % ewidth et) % 2 ^ ewidth et, 0))
  | .vshr d a b et q => some (raw d [a, b] [] et q fun i => (E et a i / 2 ^ (E et b i % ewidth et), 0))
  | .vsra d a b et q => some (raw d [a, b] [] et q fun i => (int et ((E et a i : Int).bmod (2 ^ ewidth et) / 2 ^ (E et b i % ewidth et)), 0))
  | .vsqrt d a et q => some (special d a et q fun x _ => pack et (rndOf th q) (ftzOf th) none (exSqrt 64 x))
  | .vrcp d a et q => some (special d a et q fun x _ => pack et (rndOf th q) (ftzOf th) none (exDiv 64 (.fin false 1 0) x))
  | .vrsqrt d a et q => some (special d a et q fun x b => packF 2 et (rndOf th q) (ftzOf th) b (exRsqrt x))
  | .vexp2 d a et q => some (special d a et q fun x b => packF 3 et (rndOf th q) (ftzOf th) b (exExp2 x))
  | .vlog2 d a et q => some (special d a et q fun x b => packF 4 et (rndOf th q) (ftzOf th) b (exLog2 x))
  | .vtanh d a et q => some (special d a et q fun x b => packF 5 et (rndOf th q) (ftzOf th) b (exTanh x))
  | .vcvt d a dt st q => some (cvt d a dt st q)
  | .vperm d a b et q => some (raw d [a, b] [] et q fun i => (E et a (E et b i % (512 / ewidth et)), 0))
  | .vslide d a b et q => some (raw d [a] [b] et q fun i =>
      let j := (i : Int) + (sget th b).toInt
      (if 0 ≤ j ∧ j < (512 / ewidth et : Nat) then E et a j.toNat else 0, 0))
  | .vbcast d a et q => some (raw d [] [a] et q fun _ => ((sget th a).toNat % 2 ^ ewidth et, 0))
  | _ => none
where
  /-- Element i of a register. -/
  E (et : ElemTy) (r : VReg) (i : Nat) : Nat := elem (ewidth et) (vget s th r.val) i
  /-- Element i as the integer that its type makes of it. -/
  S (et : ElemTy) (r : VReg) (i : Nat) : Int :=
    if et.code < 4 then (E et r i : Int).bmod (2 ^ ewidth et) else E et r i
  /-- An integer modulo 2^w. -/
  int (et : ElemTy) (v : Int) : Nat := (v % 2 ^ ewidth et).toNat
  raw (d : VReg) (srcs : List VReg) (sr : List SReg) (et : ElemTy) (q : VPfx) (f : Nat → Nat × Nat) : Lane :=
    { d := d, srcs := srcs, sr := sr, q := q, w := ewidth et, n := 512 / ewidth et, lat := 8, f := f }
  two (d a b : VReg) (et : ElemTy) (q : VPfx) (lat : Nat) (ff : Nat → Nat → Nat × Nat) (fi : Int → Int → Int × Nat) : Lane :=
    { raw d [a, b] [] et q (fun i =>
        if 8 ≤ et.code then ff (E et a i) (E et b i) else (int et (fi (S et a i) (S et b i)).1, (fi (S et a i) (S et b i)).2)) with lat := lat }
  one (d a : VReg) (et : ElemTy) (q : VPfx) (lat : Nat) (ff : Nat → Nat × Nat) (fi : Int → Int × Nat) : Lane :=
    { raw d [a] [] et q (fun i => if 8 ≤ et.code then ff (E et a i) else (int et (fi (S et a i)).1, (fi (S et a i)).2)) with lat := lat }
  fma (d a b : VReg) (et : ElemTy) (q : VPfx) (minus : Bool) : Lane :=
    let r := readFz et (ftzOf th)
    { raw d [a, b, q.vc.getD d] [] et q (fun i =>
        let z := E et (q.vc.getD d) i
        if 8 ≤ et.code then
          pack et (rndOf th q) (ftzOf th) none (exFma (rndOf th q) (r (E et a i)) (r (E et b i)) (if minus then (r z).neg else r z))
        else (int et (S et a i * S et b i + (if minus then -(S et (q.vc.getD d) i) else S et (q.vc.getD d) i)), 0)) with
      lat := if et = .f64 then 16 else 8 }
  cvt (d a : VReg) (dt st : ElemTy) (q : VPfx) : Lane :=
    { d := d, srcs := [a], sr := [], q := q, w := ewidth dt, n := 512 / Max.max (ewidth st) (ewidth dt), lat := 8,
      f := fun i => cvtElem dt st (rndOf th q) (ftzOf th) th.vec.vbnd.toNat (elem (ewidth st) (vget s th a.val) i) }
  special (d a : VReg) (et : ElemTy) (q : VPfx) (f : FV → Nat → Nat × Nat) : Lane :=
    { raw d [a] [] et q (fun i => f (readFz et (ftzOf th) (E et a i)) (if ftzOf th && isSub et (E et a i) then 0 else E et a i)) with lat := 24 }

/-- The mask that governs element k. -/
def lane (th : Thread) (q : VPfx) (k : Nat) : Bool := (mget th q.mask).getLsbD k

/-- The results of an element-wise instruction with their flags (R237): an inactive element raises none and keeps its
value, or is zero under zeroing; elements beyond the last result are zero. -/
def Lane.result (s : State) (th : Thread) (L : Lane) (k : Nat) : Nat × Nat :=
  if L.n ≤ k then (0, 0) else if lane th L.q k then L.f k else (if L.q.zero then 0 else elem L.w (vget s th L.d.val) k, 0)

def Lane.flags (s : State) (th : Thread) (L : Lane) : Nat := (List.range L.n).foldl (fun a k => a ||| (L.result s th k).2) 0

end Sys2Proof.Claims

/-- R237, R238, R241-R247: an element-wise vector instruction writes each active element, leaves or zeroes the others, ORs
the active elements' flags into VSTAT and has its latency; with a raised flag enabled it is the arithmetic fault at the
end of its latency, and nothing is written. -/
def Obligations.VectorLanes : Prop :=
  ∀ (i : Instr) (s : State) (c : Cur) (th : Thread) (L : Lane), laneForm s th i = some L → (∀ r ∈ L.d :: L.srcs, r.val < th.vn) →
    Ready s c th { vneed L.d L.srcs L.q with sr := L.sr } →
    (L.flags s th &&& th.vec.vctl.toNat / 16 % 32 = 0 →
      ∃ t, exec i s = .next t ∧ WritesVector s c th L.d L.w (fun k => (L.result s th k).1) (L.flags s th) L.lat t)
    ∧ (L.flags s th &&& th.vec.vctl.toNat / 16 % 32 ≠ 0 → ∃ t info, exec i s = .next t ∧ FaultsLater s c th 0x16 0 info L.lat t)

/-- R234: a vector instruction that names a register at or above the thread's claim is the claim fault, with the register
as FINFO, at its issue, before a poisoned register is seen. -/
def Sys2Proof.Claims.VectorClaim : Prop :=
  ∀ (i : Instr) (s : State) (c : Cur) (th : Thread) (L : Lane) (r : VReg), laneForm s th i = some L → Executing s c th →
    needMet s c.uid th { vneed L.d L.srcs L.q with sr := L.sr } = true →
    deferredDue th { vneed L.d L.srcs L.q with sr := L.sr } = false →
    (L.d :: L.srcs).find? (fun x => decide (th.vn ≤ x.val)) = some r →
    ∃ t, exec i s = .next t ∧ TakesUser s c th 0x05 0 (BitVec.ofNat 64 r.val) t

/-- R244: `vcmp` writes one mask bit per element; an element with a NaN is unequal to everything. Bits beyond the
elements are zero. -/
def Sys2Proof.Claims.VectorCompare : Prop :=
  ∀ (s : State) (c : Cur) (th : Thread) (m : MReg) (cc : Cond) (a b : VReg) (et : ElemTy) (q : VPfx),
    a.val < th.vn → b.val < th.vn →
    Ready s c th { Need.none with mr := if q.zero then [q.mask] else [q.mask, m], vr := [a, b] } →
    let x := fun k => elem (ewidth et) (vget s th a.val) k
    let y := fun k => elem (ewidth et) (vget s th b.val) k
    let r := fun k => if lane th q k then cmpElem cc et (ftzOf th) (x k) (y k) else (!q.zero && (mget th m).getLsbD k, 0)
    let fl := (List.range (512 / ewidth et)).foldl (fun a k => a ||| (r k).2) 0
    (fl &&& th.vec.vctl.toNat / 16 % 32 = 0 →
      ∃ t z, exec (.vcmp m cc a b et q) s = .next t ∧ threadOf t c.uid = some z ∧ Over s c z c.npc 8
        ∧ (∀ k, k < 64 → m ≠ 0 → (mget z m).getLsbD k = (decide (k < 512 / ewidth et) && (r k).1))
        ∧ (∀ k, k ≠ m → mget z k = mget th k)
        ∧ z.vec = { th.vec with vstat := th.vec.vstat ||| BitVec.ofNat 64 fl }
        ∧ { endAs z th with m := th.m, mEmpty := th.mEmpty, mPois := th.mPois, vec := th.vec } = th ∧ Apart s t c)
    ∧ (fl &&& th.vec.vctl.toNat / 16 % 32 ≠ 0 → ∃ t info, exec (.vcmp m cc a b et q) s = .next t ∧ FaultsLater s c th 0x16 0 info 8 t)

/-- R248: `vextr` writes element k modulo the elements, sign-extended for a signed type; `vins` writes one element, an inactive
one not at all. -/
def Sys2Proof.Claims.VectorElement : Prop :=
  ∀ (s : State) (c : Cur) (th : Thread) (et : ElemTy) (q : VPfx),
    (∀ (d : SReg) (a : VReg) (b : SReg), a.val < th.vn → Ready s c th { Need.none with sr := [b], sd := [d], mr := [q.mask], vr := [a] } →
      let j := ((sget th b).toInt % (512 / ewidth et : Nat)).toNat
      let x := elem (ewidth et) (vget s th a.val) j
      let v : Word := if et.code < 4 then BitVec.ofInt 64 ((x : Int).bmod (2 ^ ewidth et)) else BitVec.ofNat 64 x
      (lane th q j = true → ∃ t, exec (.vextr d a b et q) s = .next t ∧ WritesScalar s c th d v c.npc 8 t)
      ∧ (lane th q j = false → q.zero = true → ∃ t, exec (.vextr d a b et q) s = .next t ∧ WritesScalar s c th d 0 c.npc 8 t)
      ∧ (lane th q j = false → q.zero = false → ∃ t, exec (.vextr d a b et q) s = .next t ∧ WritesNothing s c th c.npc 8 t))
    ∧ ∀ (d : VReg) (a b : SReg), d.val < th.vn → Ready s c th { Need.none with sr := [a, b], mr := [q.mask], vr := [d] } →
      let j := ((sget th b).toInt % (512 / ewidth et : Nat)).toNat
      ∃ t, exec (.vins d a b et q) s = .next t ∧ WritesVector s c th d (ewidth et)
        (fun k => if k = j ∧ lane th q j = true then (sget th a).toNat else elem (ewidth et) (vget s th d.val) k) 0 8 t

/-- The pairwise tree of R231 over 2^k elements, with the flags of every operation in it. -/
def Sys2Proof.Claims.pairTree (op : Nat → Nat → Nat × Nat) : Nat → (Nat → Nat) → Nat × Nat
  | 0, x => (x 0, 0)
  | k + 1, x =>
    let y := fun i => op (x i) (x (i + 2 ^ k))
    let r := pairTree op k fun i => (y i).1
    (r.1, (List.range (2 ^ k)).foldl (fun a i => a ||| (y i).2) 0 ||| r.2)

/-- R231, R238, R248: a reduction over a floating type is the pairwise tree, each result rounded, over the elements, an
inactive one entering as −0, −∞ or +∞; it writes element 0, zeroes the others, and raises the flags of the whole tree;
with one of them enabled it is the arithmetic fault at the end of its latency. -/
def Sys2Proof.Claims.FloatReduces : Prop :=
  ∀ (i : Instr) (s : State) (c : Cur) (th : Thread) (d a : VReg) (et : ElemTy) (q : VPfx), d.val < th.vn → a.val < th.vn → 8 ≤ et.code →
    Ready s c th { Need.none with mr := [q.mask], vr := [a], vd := [d] } →
    let w := ewidth et
    let x := fun (none k : Nat) => if lane th q k then elem w (vget s th a.val) k else none
    let n := Nat.log2 (512 / w)
    ∀ r : Nat × Nat,
      ((i = .vredsum d a et q ∧ r = pairTree (addElem et (rndOf th q) (ftzOf th)) n (x (2 ^ (w - 1))))
        ∨ (i = .vredmax d a et q ∧ r = pairTree (minmaxElem et (ftzOf th) true) n (x (encInf et true)))
        ∨ (i = .vredmin d a et q ∧ r = pairTree (minmaxElem et (ftzOf th) false) n (x (encInf et false)))) →
      (r.2 &&& th.vec.vctl.toNat / 16 % 32 = 0 →
        ∃ t, exec i s = .next t ∧ WritesVector s c th d w (fun k => if k = 0 then r.1 else 0) r.2 8 t)
      ∧ (r.2 &&& th.vec.vctl.toNat / 16 % 32 ≠ 0 → ∃ t info, exec i s = .next t ∧ FaultsLater s c th 0x16 0 info 8 t)

/-- R231, R248: a reduction writes element 0 and zeroes the others. Over an integer type it is the sum modulo 2^w, the
greatest or the least of the active elements (of none: zero, the type's least, its greatest value). -/
def Sys2Proof.Claims.VectorReduces : Prop :=
  ∀ (i : Instr) (s : State) (c : Cur) (th : Thread) (d a : VReg) (et : ElemTy) (q : VPfx), d.val < th.vn → a.val < th.vn → et.code < 8 →
    Ready s c th { Need.none with mr := [q.mask], vr := [a], vd := [d] } →
    let w := ewidth et
    let x := fun k => if et.code < 4 then (elem w (vget s th a.val) k : Int).bmod (2 ^ w) else elem w (vget s th a.val) k
    let on := (List.range (512 / w)).filter fun k => lane th q k
    let lo : Int := if et.code < 4 then -(2 ^ (w - 1)) else 0
    let hi : Int := if et.code < 4 then 2 ^ (w - 1) - 1 else 2 ^ w - 1
    ∀ v : Int, ((i = .vredsum d a et q ∧ v = on.foldl (fun n k => n + x k) 0) ∨ (i = .vredmax d a et q ∧ v = on.foldl (fun n k => Max.max n (x k)) lo)
        ∨ (i = .vredmin d a et q ∧ v = on.foldl (fun n k => Min.min n (x k)) hi)) →
      ∃ t, exec i s = .next t ∧ WritesVector s c th d w (fun k => if k = 0 then (v % 2 ^ w).toNat else 0) 0 8 t

/-- R231, R238, R248: single elements and reductions. -/
def Obligations.ElementsAndReductions : Prop :=
  Sys2Proof.Claims.VectorElement ∧ Sys2Proof.Claims.VectorReduces ∧ Sys2Proof.Claims.FloatReduces

namespace Sys2Proof.Claims

/-- The mask operations that write a mask: sources and scalars read, and the value before the governing mask (R255). -/
def maskForm (th : Thread) : Instr → Option (MReg × List MReg × List SReg × VPfx × Word)
  | .mand d a b q => some (d, [a, b], [], q, mget th a &&& mget th b)
  | .mor d a b q => some (d, [a, b], [], q, mget th a ||| mget th b)
  | .mxor d a b q => some (d, [a, b], [], q, mget th a ^^^ mget th b)
  | .mnot d a q => some (d, [a], [], q, ~~~(mget th a))
  | .mset d a q => some (d, [], [a], q, sget th a)
  | _ => none

/-- Those that write a scalar, from the mask and its governing mask (R255). -/
def maskCount (th : Thread) : Instr → Option (SReg × MReg × VPfx × Word)
  | .mpop d a q => some (d, a, q, BitVec.ofNat 64 (onesBelow (mget th a &&& mget th q.mask) 64))
  | .mfirst d a q => some (d, a, q,
      BitVec.ofNat 64 ((List.range 64).takeWhile fun k => !(mget th a &&& mget th q.mask).getLsbD k).length)
  | .mget d a q => some (d, a, q, mget th a &&& mget th q.mask)
  | _ => none

end Sys2Proof.Claims

/-- R255, R67: the mask operations, under the governing mask; a write to m0 is discarded. -/
def Sys2Proof.Claims.MaskOperations : Prop :=
  (∀ (i : Instr) (s : State) (c : Cur) (th : Thread) (d : MReg) (ms : List MReg) (sr : List SReg) (q : VPfx) (v : Word),
    maskForm th i = some (d, ms, sr, q, v) → Ready s c th { Need.none with sr := sr, mr := q.mask :: (if q.zero then ms else ms ++ [d]) } →
    ∃ t, exec i s = .next t ∧ WritesMask s c th d
      (BitVec.ofFnLE fun k : Fin 64 => if lane th q k.val then v.getLsbD k.val else !q.zero && (mget th d).getLsbD k.val) 8 t)
  ∧ ∀ (i : Instr) (s : State) (c : Cur) (th : Thread) (d : SReg) (a : MReg) (q : VPfx) (v : Word),
    maskCount th i = some (d, a, q, v) → Ready s c th { Need.none with sd := [d], mr := [q.mask, a] } →
    ∃ t, exec i s = .next t ∧ WritesScalar s c th d v c.npc 8 t

/-- R67, R244, R255: vector compares and the mask operations. -/
def Obligations.MaskResults : Prop :=
  Sys2Proof.Claims.VectorCompare ∧ Sys2Proof.Claims.MaskOperations

namespace Sys2Proof.Claims

/-- A vector memory instruction (R249-R254): the registers it names, what it needs, its base, its mode, whether it must stay
out of the host window, its alignment, its watchpoint kind, its parts with their pointers and what they do, what its answer
does, and its charge kind. -/
structure VecMem where
  regs : List VReg
  t    : VReg
  need : Need
  base : SReg
  rx   : Bool
  q    : VPfx
  sync : Bool
  n    : Nat
  kind : Nat
  on   : Nat → Bool
  all  : Nat
  ptr  : Nat → Option Ptr
  op   : Nat → AccOp
  fl   : FlOp
  load : Option Nat
  line : Bool

def vecMemForm (s : State) (th : Thread) : Instr → Option VecMem
  | .vld t a et rx q => some (loads (line t a et rx q) [a] [] 8 (ewidth et) 64)
  | .vst t a et rx q =>
    some (stores (line t a et rx q) [a] [t] fun i => .storeBytes (lineBytes th q et i) (BitVec.ofNat 64 (elem 64 (vget s th t.val) i)))
  | .vlds t w a b rx q =>
    some (loads (elems [t] t a (8 * 2 ^ w.val) rx q (stride a b)) [a, b] [] (2 ^ w.val) (8 * 2 ^ w.val) (8 * 2 ^ w.val))
  | .vsts t w a b rx q =>
    some (stores (elems [t] t a (8 * 2 ^ w.val) rx q (stride a b)) [a, b] [t] fun i => .store (2 ^ w.val) (val t (8 * 2 ^ w.val) i))
  | .vldx t x a et rx q =>
    if t = x then none
    else some (loads (elems [t, x] t a (ewidth et) rx q (index a x (ewidth et))) [a] [x] (ewidth et / 8) (ewidth et) (ewidth et))
  | .vstx t x a et rx q =>
    some (stores (elems [t, x] t a (ewidth et) rx q (index a x (ewidth et))) [a] [t, x] fun i => .store (ewidth et / 8) (val t (ewidth et) i))
  | .vstxa t x a et rx q =>
    some { stores (elems [t, x] t a (ewidth et) rx q (index a x (ewidth et))) [a] [t, x] (fun i =>
            .addElem (ewidth et / 8) et (val t (ewidth et) i) (rndOf th q) (ftzOf th)) with sync := true, kind := 3 }
  | _ => none
where
  val (t : VReg) (w i : Nat) : Word := BitVec.ofNat 64 (elem w (vget s th t.val) i)
  stride (a b : SReg) (i : Nat) : Option Ptr := addOff (sget th a) (i * (sget th b).toInt)
  index (a : SReg) (x : VReg) (w i : Nat) : Option Ptr := addOff (sget th a) ((elem w (vget s th x.val) i * (w / 8) : Nat) : Int)
  loads (x : VecMem) (sr : List SReg) (vs : List VReg) (n w pw : Nat) : VecMem :=
    { x with op := fun _ => .load n, fl := .vload x.t w pw (mget th x.q.mask) x.q.zero, load := some w, kind := 1,
             need := { vneed x.t vs x.q with sr := sr, rx := !x.rx } }
  stores (x : VecMem) (sr : List SReg) (vs : List VReg) (op : Nat → AccOp) : VecMem :=
    { x with op := op, need := { Need.none with sr := sr, mr := [x.q.mask], vr := vs, rx := !x.rx } }
  line (t : VReg) (a : SReg) (et : ElemTy) (rx : Bool) (q : VPfx) : VecMem :=
    { regs := [t], t := t, need := Need.none, base := a, rx := rx, q := q, sync := false, n := 8, kind := 2,
      on := fun i => (List.range (64 / ewidth et)).any fun j => lane th q (i * (64 / ewidth et) + j), all := 8,
      ptr := fun i => addOff (sget th a) (8 * i), op := fun _ => .load 8, fl := .vstore, load := none, line := true }
  elems (regs : List VReg) (t : VReg) (a : SReg) (w : Nat) (rx : Bool) (q : VPfx) (ptr : Nat → Option Ptr) : VecMem :=
    { regs := regs, t := t, need := Need.none, base := a, rx := rx, q := q, sync := false, n := w / 8, kind := 2, on := lane th q,
      all := 512 / w, ptr := ptr, op := fun _ => .load 8, fl := .vstore, load := none, line := false }

/-- A part of the unit that its resume count has not passed and its mask leaves active (R154, R250). -/
def VecMem.part (th : Thread) (x : VecMem) (i : Nat) : Prop := th.resume ≤ i ∧ i < x.all ∧ x.on i = true

end Sys2Proof.Claims

/-- R154, R250, R251, R253, R254: a vector access whose base and active parts pass their checks sends each of them to its
home, or keeps it to be sent behind the ones on their way; a plain unit's thread waits, a relaxed one's goes on
with a load's destination empty. With no active part it completes at once and sends nothing; a load's elements follow the
policy then, but for those that an earlier run of the unit has performed (R154). -/
def Obligations.VectorAccessSent : Prop :=
  ∀ (i : Instr) (s : State) (c : Cur) (th : Thread) (x : VecMem), vecMemForm s th i = some x → (∀ r ∈ x.regs, r.val < th.vn) →
    Ready s c th x.need → (x.rx = true → rxCount th < 8) → th.role = 0 → th.meter.cnt = false →
    let p := sget th x.base
    limitsOf s th.partn p = 0 → (x.sync = true → p.toNat / 2 ^ 60 ≠ 5) → (p.toNat / 2 ^ 60 = 6 → th.sup = true) →
    (x.line = true → p.toNat % 64 = 0) →
    (∀ k, x.part th k → ∃ y, x.ptr k = some y ∧ checkPtr s th y x.n x.sync false = none ∧ watchHit s th y x.kind = none) →
    ((∃ k, x.part th k) → sendBlocked th s.nextId = false →
      ∃ t y f, exec i s = .next t ∧ threadOf t c.uid = some y ∧ y.flights = th.flights ++ [f] ∧ f.fid = s.nextId ∧ f.op = x.fl
        ∧ f.rx = x.rx ∧ f.npc = c.npc ∧ f.parts = x.all
        ∧ (∀ k, x.part th k → (∃ e ∈ t.agenda, ∃ r, e.act = .homeAccess r ∧ r.uid = c.uid ∧ r.fid = s.nextId ∧ r.part = k
              ∧ x.ptr k = some r.at_ ∧ r.op = x.op k)
            ∨ ∃ run ∈ f.pend, ∃ m ∈ run, m.part = k ∧ x.ptr k = some m.ptr ∧ m.op = x.op k)
        ∧ (if x.rx then y.wait = .none ∧ y.pc = c.npc ∧ y.readyAt = s.cycle + c.fx + 8 else y.wait = .access s.nextId ∧ y.pc = th.pc)
        ∧ (x.rx = true → x.load.isSome → vEmptyAt t y x.t.val = true)
        ∧ (∀ g, granGet t th.tile g = granGet s th.tile g) ∧ (∀ r, sget y r = sget th r) ∧ t.mem = s.mem ∧ t.empty = s.empty)
    ∧ ((∀ k, ¬ x.part th k) →
      (x.load = none → ∃ t, exec i s = .next t ∧ WritesNothing s c th c.npc 8 t)
      ∧ ∀ w, x.load = some w → ∃ t, exec i s = .next t
        ∧ WritesVector s c th x.t w (fun k =>
            if x.q.zero = true ∧ th.resume ≤ (if x.line then k * w / 64 else k) then 0 else elem w (vget s th x.t.val) k) 0 8 t)

/-- R155: an indexed load into its own index register is the operand-overlap fault, with both numbers as FINFO. -/
def Obligations.IndexedOverlap : Prop :=
  ∀ (s : State) (c : Cur) (th : Thread) (v : VReg) (a : SReg) (et : ElemTy) (rx : Bool) (q : VPfx), v.val < th.vn →
    Ready s c th { Need.none with sr := [a], rx := !rx } →
    ∃ t, exec (.vldx v v a et rx q) s = .next t ∧ TakesUser s c th 0x06 0 (BitVec.ofNat 64 (v.val + v.val * 256)) t

/-- R300, R301: `amov` reads eight words of the core's accumulator region under the word mask and `aput` writes them,
with latency 16 where no job that touches the region stands before them; else they wait for those jobs. The offset
must be a multiple of 64 within the region. -/
def Obligations.AccumulatorMoves : Prop :=
  ∀ (s : State) (c : Cur) (th : Thread) (v : VReg) (a : SReg) (q : VPfx), v.val < th.vn → th.role = 0 →
    let o := (sget th a).toNat
    let needOf := fun (put : Bool) => if put then { Need.none with sr := [a], mr := [q.mask], vr := [v] } else { vneed v [] q with sr := [a] }
    (∀ put, Ready s c th (needOf put) → o % 64 ≠ 0 →
      ∃ t, exec (if put then .aput v a q else .amov v a q) s = .next t ∧ TakesUser s c th 0x07 (sget th a) 64 t)
    ∧ (∀ put, Ready s c th (needOf put) → o % 64 = 0 → 0x7FC0 < o →
      ∃ t, exec (if put then .aput v a q else .amov v a q) s = .next t ∧ TakesUser s c th 0x08 (sget th a) 3 t)
    ∧ (∀ put, Ready s c th (needOf put) → o % 64 = 0 → o ≤ 0x7FC0 → accJobs s th.tile ≠ [] →
      ∃ t x, exec (if put then .aput v a q else .amov v a q) s = .next t ∧ threadOf t c.uid = some x
        ∧ x.wait = .amov put v o q c.npc (accJobs s th.tile) s.cycle ∧ { x with wait := th.wait } = th ∧ t.acc = s.acc ∧ Apart s t c)
    ∧ (Ready s c th (needOf false) → o % 64 = 0 → o ≤ 0x7FC0 → accJobs s th.tile = [] →
      ∃ t, exec (.amov v a q) s = .next t ∧ WritesVector s c th v 64
        (fun k => if lane th q k then memRead s.acc (th.tile * 32768 + o + 8 * k) 8 else if q.zero then 0 else elem 64 (vget s th v.val) k) 0 16 t)
    ∧ (s.MemOk → Ready s c th (needOf true) → o % 64 = 0 → o ≤ 0x7FC0 → accJobs s th.tile = [] →
      ∃ t x, exec (.aput v a q) s = .next t ∧ threadOf t c.uid = some x ∧ Over s c x c.npc 16 ∧ endAs x th = th
        ∧ (∀ k, k < 8 → lane th q k = true → memRead t.acc (th.tile * 32768 + o + 8 * k) 8 = elem 64 (vget s th v.val) k)
        ∧ (∀ b, (∀ k, k < 8 → lane th q k = true → b < th.tile * 32768 + o + 8 * k ∨ th.tile * 32768 + o + 8 * k + 8 ≤ b) →
            memGet t.acc b = memGet s.acc b)
        ∧ Apart s { t with acc := s.acc } c)

/-! ### The dennum unit (R258-R280) -/

namespace Sys2Proof.Claims

/-- The granules of a thread's window lie at places of their own in the pooled file (R73), and a register lies in it. -/
def InWindow (th : Thread) (d : DReg) : Prop :=
  (d.val + 1) * (1 + (th.dn.prc + 63) / 64) ≤ th.dwin ∧ ∀ g h, g < th.dwin → h < th.dwin → wgran th g = wgran th h → g = h

/-- A unit completes and writes the granules of a dennum register; it raises flags in DCTL (R264). -/
def WritesDennum (s : State) (c : Cur) (th : Thread) (d : DReg) (ws : List Word) (fl lat : Nat) (t : State) : Prop :=
  ∃ x, threadOf t c.uid = some x ∧ Over s c x c.npc lat
    ∧ (∀ i, i < ws.length → winGet t x (d.val * (1 + (th.dn.prc + 63) / 64) + i) = ws.getD i 0)
    ∧ (∀ k g, (k = th.tile → ∀ i, i < ws.length → g ≠ wgran th (d.val * (1 + (th.dn.prc + 63) / 64) + i)) → granGet t k g = granGet s k g)
    ∧ x.dn = { th.dn with dctl := th.dn.dctl ||| BitVec.ofNat 64 (fl * 256) } ∧ { endAs x th with dn := th.dn } = th
    ∧ t.mem = s.mem ∧ t.empty = s.empty ∧ t.parts = s.parts ∧ t.agenda = s.agenda

/-- A dennum operation that writes a register: destination, sources, scalars read, latency, granules and flags. -/
structure Dop where
  d    : DReg
  srcs : List DReg
  sr   : List SReg
  lat  : Nat
  ws   : List Word
  fl   : Nat

/-- The operations that write a dennum register (R269-R273): the exact result rounded to PRC bits, its granules, and the
latency of L limbs. -/
def dennumForm (s : State) (th : Thread) : Instr → Option Dop
  | .dadd d a b => some (res d [a, b] [] (8 + 2 * L) (dround (drnd th) P (dsum (drnd th) P (dget s th a) (dget s th b))))
  | .dsub d a b => some (res d [a, b] [] (8 + 2 * L) (dround (drnd th) P (dsum (drnd th) P (dget s th a) (dget s th b).neg)))
  | .dmul d a b => some (res d [a, b] [] (8 + L * L) (dround (drnd th) P (exMul (dget s th a) (dget s th b))))
  | .ddiv d a b => some (res d [a, b] [] (16 + 4 * L * L) (dround (drnd th) P (exDiv (P + 4) (dget s th a) (dget s th b))))
  | .dfma d a b => some (res d [a, b, d] [] (8 + L * L) (dround (drnd th) P (dfmaEx (drnd th) P (dget s th a) (dget s th b) (dget s th d))))
  | .dsqrt d a => some (res d [a] [] (16 + 4 * L * L) (dround (drnd th) P (exSqrt (P + 4) (dget s th a))))
  | .dneg d a => some (res d [a] [] (8 + 2 * L) (match dget s th a with
      | .nan sig => (.nan false, if sig then 1 else 0) | .inf n => (.inf !n, 0) | .fin n m e => (.fin (!n) m e, 0)))
  | .dabs d a => some (res d [a] [] (8 + 2 * L) (match dget s th a with
      | .nan sig => (.nan false, if sig then 1 else 0) | .inf _ => (.inf false, 0) | .fin _ m e => (.fin false m e, 0)))
  | .dmov d a => some { d := d, srcs := [a], sr := [], lat := 8 + 2 * L, ws := dhead s th a.val :: dlist s th a.val, fl := 0 }
  | .dround d a =>
    let r := dintegral (drnd th) P (dget s th a)
    some { res d [a] [] (8 + 2 * L) r with ws := if headClass (dhead s th a.val) = 3 then dhead s th a.val :: List.replicate L 0 else dgrans L r.1 }
  | .dcvtf d a => some (res d [] [a] (8 + 2 * L)
      (dround (drnd th) P { v := readF .f64 (sget th a).toNat, st := false, fl := sigFlag (readF .f64 (sget th a).toNat) }))
  | .dcvti d a => some (res d [] [a] (8 + 2 * L)
      (dround (drnd th) P (Ex.ok (.fin (decide ((sget th a).toInt < 0)) (sget th a).toInt.natAbs 0))))
  | _ => none
where
  P : Nat := th.dn.prc
  /-- Limbs. -/
  L : Nat := (th.dn.prc + 63) / 64
  res (d : DReg) (srcs : List DReg) (sr : List SReg) (lat : Nat) (r : FV × Nat) : Dop :=
    { d := d, srcs := srcs, sr := sr, lat := lat, ws := dgrans L r.1, fl := r.2 }

end Sys2Proof.Claims

/-- R262-R264, R269-R273: a dennum operation writes its register's granules, raises its flags in DCTL and has its latency;
with a raised flag enabled it is the arithmetic fault at the end of its latency, and nothing is written. -/
def Sys2Proof.Claims.DennumArithmetic : Prop :=
  ∀ (i : Instr) (s : State) (c : Cur) (th : Thread) (D : Dop), dennumForm s th i = some D →
    (∀ r ∈ D.d :: D.srcs, r.val < th.dn.dlive) → InWindow th D.d → Ready s c th { Need.none with sr := D.sr } →
    (∀ r ∈ D.srcs, dPois s th r.val = false) →
    (D.fl &&& th.dn.dctl.toNat / 2 ^ 16 % 32 = 0 → ∃ t, exec i s = .next t ∧ WritesDennum s c th D.d D.ws D.fl D.lat t)
    ∧ (D.fl &&& th.dn.dctl.toNat / 2 ^ 16 % 32 ≠ 0 →
      ∃ t, exec i s = .next t ∧ FaultsLater s c th 0x16 0 (BitVec.ofNat 64 (D.fl + 131072)) D.lat t)

/-- R266, R414: a dennum operation that reads a register with a poisoned granule is the poison fault, with the place of a
register as FINFO, delivered 8 cycles after its issue. -/
def Sys2Proof.Claims.DennumPoisoned : Prop :=
  ∀ (i : Instr) (s : State) (c : Cur) (th : Thread) (D : Dop), dennumForm s th i = some D →
    (∀ r ∈ D.d :: D.srcs, r.val < th.dn.dlive) → Ready s c th { Need.none with sr := D.sr } → th.resume = 0 →
    (∃ r ∈ D.srcs, ∃ g, g < 1 + (th.dn.prc + 63) / 64 ∧
      wgran th (r.val * (1 + (th.dn.prc + 63) / 64) + g) ∈ (tileOf s th.tile).poolPois) →
    ∃ t, exec i s = .next t ∧ FaultsLater s c th 0x1C 0 3 8 t

/-- R258, R266: a dennum instruction that names a register at or beyond DLIVE is the precision fault with reason 1 and the
register, delivered 8 cycles after its issue; a poisoned register is not seen before it. -/
def Sys2Proof.Claims.DennumLive : Prop :=
  ∀ (i : Instr) (s : State) (c : Cur) (th : Thread) (D : Dop) (r : DReg), dennumForm s th i = some D → Executing s c th →
    needMet s c.uid th { Need.none with sr := D.sr } = true → deferredDue th { Need.none with sr := D.sr } = false →
    (D.d :: D.srcs).find? (fun x => decide (th.dn.dlive ≤ x.val)) = some r →
    ∃ t, exec i s = .next t ∧ FaultsLater s c th 0x10 0 (BitVec.ofNat 64 (1 + r.val * 256)) 8 t

/-- R234, R258, R266: registers beyond a thread's claim, or beyond DLIVE, are faults at issue. -/
def Obligations.ClaimsChecked : Prop :=
  Sys2Proof.Claims.VectorClaim ∧ Sys2Proof.Claims.DennumLive

namespace Sys2Proof.Claims

/-- A dennum operation that writes a predicate or a scalar raises flags in DCTL beside. -/
def WithFlags (s : State) (c : Cur) (th : Thread) (fl : Nat) (t : State) : Prop :=
  ∃ x, threadOf t c.uid = some x ∧ x.dn = { th.dn with dctl := th.dn.dctl ||| BitVec.ofNat 64 (fl * 256) } ∧ Apart s t c

end Sys2Proof.Claims

/-- R271, R273: `dcmp` writes a predicate (a NaN is unequal to everything); `dcvtd` and `dcvtdi` round to f64 and to a
64-bit integer; `dhead` and `dclass` read a head. -/
def Sys2Proof.Claims.DennumToScalar : Prop :=
  ∀ (s : State) (c : Cur) (th : Thread) (a b : DReg), a.val < th.dn.dlive → b.val < th.dn.dlive →
    dPois s th a.val = false → dPois s th b.val = false →
    let L := (th.dn.prc + 63) / 64
    let quiet := fun (fl : Nat) => fl &&& th.dn.dctl.toNat / 2 ^ 16 % 32 = 0
    let h := dhead s th a.val
    (∀ (p : PReg) (cc : Cond), Ready s c th Need.none →
      let r := dcompare cc (dget s th a) (dget s th b)
      quiet r.2 → ∃ t x, exec (.dcmp p cc a b) s = .next t ∧ threadOf t c.uid = some x ∧ Over s c x c.npc (8 + 2 * L)
        ∧ (∀ k, pget x k = if k = p ∧ p ≠ 0 then r.1 else pget th k) ∧ (∀ k, sget x k = sget th k) ∧ WithFlags s c th r.2 t)
    ∧ (∀ d : SReg, Ready s c th { Need.none with sd := [d] } →
      let r := pack .f64 (drnd th) false none { v := clampExp (dget s th a), st := false, fl := sigFlag (dget s th a) }
      let n := toInt (-(2 ^ 63)) (2 ^ 63 - 1) (drnd th) (clampExp (dget s th a))
      (quiet r.2 → ∃ t x, exec (.dcvtd d a) s = .next t ∧ threadOf t c.uid = some x ∧ Over s c x c.npc (8 + 2 * L)
        ∧ (∀ k, sget x k = if k = d ∧ d ≠ 0 then BitVec.ofNat 64 r.1 else sget th k) ∧ WithFlags s c th r.2 t)
      ∧ (quiet n.2 → ∃ t x, exec (.dcvtdi d a) s = .next t ∧ threadOf t c.uid = some x ∧ Over s c x c.npc (8 + 2 * L)
        ∧ (∀ k, sget x k = if k = d ∧ d ≠ 0 then BitVec.ofInt 64 n.1 else sget th k) ∧ WithFlags s c th n.2 t)
      ∧ (∃ t, exec (.dhead d a) s = .next t ∧ WritesScalar s c th d h c.npc 8 t)
      ∧ ∃ t, exec (.dclass d a) s = .next t
        ∧ WritesScalar s c th d (BitVec.ofNat 64 (h.toNat / 2 ^ 60 % 8 + h.toNat / 2 ^ 63 * 8)) c.npc 8 t)

/-- R262-R264, R266, R269-R273, R414: dennum arithmetic, what it writes to scalars and predicates, and a poisoned source. -/
def Obligations.DennumOperations : Prop :=
  Sys2Proof.Claims.DennumArithmetic ∧ Sys2Proof.Claims.DennumToScalar ∧ Sys2Proof.Claims.DennumPoisoned

/-- R265, R268: `prec` lays out the window for n registers of a precision: live registers are rounded to it, new ones are
zero, the rest of the window is zero. A window too small is the precision fault with reason 2; the register form takes 8 to
4096 bits, else reason 3. -/
def Sys2Proof.Claims.PrecisionLaysOut : Prop :=
  ∀ (s : State) (c : Cur) (th : Thread) (n : Fin 17) (q : Nat) (a : SReg) (i : Instr),
    ((i = .prec n q ∧ Ready s c th Need.none)
      ∨ (i = .precReg n a ∧ q = (sget th a).toNat ∧ 8 ≤ q ∧ q ≤ 4096 ∧ Ready s c th { Need.none with sr := [a] })) →
    let cap := 1 + (q + 63) / 64
    let fl := (List.range n.val).foldl (fun f k => f ||| (reprec s th q k).2) 0
    (th.dwin < n.val * cap → ∃ t, exec i s = .next t
      ∧ FaultsLater s c th 0x10 0 (BitVec.ofNat 64 (2 + n.val * cap * 256 + th.dwin * 2 ^ 32)) 8 t)
    ∧ (n.val * cap ≤ th.dwin → fl &&& th.dn.dctl.toNat / 2 ^ 16 % 32 = 0 →
      (∀ g h, g < th.dwin → h < th.dwin → wgran th g = wgran th h → g = h) →
      (∀ k, k < n.val → k < th.dn.dlive → dPois s th k = false) →
      ∃ t x, exec i s = .next t ∧ threadOf t c.uid = some x ∧ Over s c x c.npc (8 + 2 * n.val * ((q + 63) / 64))
        ∧ x.dn = { th.dn with prc := q, dlive := n.val, dctl := th.dn.dctl ||| BitVec.ofNat 64 (fl * 256) }
        ∧ (∀ k j, k < n.val → j < cap → winGet t x (k * cap + j) = (reprec s th q k).1.getD j 0)
        ∧ (∀ g, n.val * cap ≤ g → g < th.dwin → winGet t x g = 0)
        ∧ { endAs x th with dn := th.dn } = th ∧ t.mem = s.mem ∧ t.empty = s.empty)

/-- R265, R268: a precision outside 8 to 4096 in a register is the precision fault with reason 3. -/
def Sys2Proof.Claims.PrecisionRange : Prop :=
  ∀ (s : State) (c : Cur) (th : Thread) (n : Fin 17) (a : SReg), Ready s c th { Need.none with sr := [a] } →
    (sget th a).toNat < 8 ∨ 4096 < (sget th a).toNat →
    ∃ t, exec (.precReg n a) s = .next t
      ∧ FaultsLater s c th 0x10 0 (BitVec.ofNat 64 (3 + Min.min (sget th a).toNat (2 ^ 24 - 1) * 256)) 8 t

/-- R265, R268: `prec`. -/
def Obligations.PrecisionSet : Prop :=
  Sys2Proof.Claims.PrecisionLaysOut ∧ Sys2Proof.Claims.PrecisionRange

/-- R274-R278: `ldn` asks for the head of its value, and `stn` sends the head and the limbs of its register's memory
form where it fits DSLOT, the first of them 2 L cycles after its issue; too long a form without rounding is the slot
fault. Their threads wait. That the 2 L cycles of R267 come before the parts is the model's choice (log 42), and so is the
cycle of the act at the home (log 15). -/
def Obligations.DennumMemory : Prop :=
  ∀ (s : State) (c : Cur) (th : Thread) (d : DReg) (a : SReg) (disp : Int) (p : Ptr), d.val < th.dn.dlive →
    Ready s c th { Need.none with sr := [a], rx := true } → th.role = 0 → th.meter.cnt = false → th.resume = 0 →
    addOff (sget th a) (disp * 8) = some p → checkPtr s th p 8 false false = none → dPois s th d.val = false →
    let ws := memForm (dhead s th d.val) (dget s th d) ((th.dn.prc + 63) / 64)
    (watchHit s th p 1 = none →
      ∃ t x f e r, exec (.ldn d a disp) s = .next t ∧ threadOf t c.uid = some x ∧ x.wait = .access s.nextId ∧ x.flights = th.flights ++ [f]
        ∧ f.op = .ldn d p ∧ f.fid = s.nextId ∧ f.npc = c.npc ∧ e ∈ t.agenda ∧ e.act = .homeAccess r ∧ r.uid = c.uid ∧ r.fid = s.nextId
        ∧ r.part = 0 ∧ r.at_ = p ∧ r.op = .load 8 ∧ { x with flights := th.flights, wait := th.wait } = th
        ∧ Apart s { t with agenda := s.agenda, nextId := s.nextId } c)
    ∧ (th.dn.dslot < ws.length → th.dn.dctl.getLsbD 4 = false →
      ∃ t, exec (.stn d a disp) s = .next t ∧ FaultsLater s c th 0x11 p (BitVec.ofNat 64 (ws.length + th.dn.dslot * 65536)) 8 t)
    ∧ (ws.length ≤ th.dn.dslot → (∀ k, k < ws.length → watchHit s th (offBy p (8 * k)) 2 = none) →
      (∀ k, k < ws.length → ∃ y, addOff p (8 * k) = some y ∧ limitsOf s th.partn y = 0) →
      ∃ t x f, exec (.stn d a disp) s = .next t ∧ threadOf t c.uid = some x ∧ x.wait = .access s.nextId ∧ x.flights = th.flights ++ [f]
        ∧ f.op = .stn 0 ∧ f.fid = s.nextId ∧ f.npc = c.npc ∧ f.parts = ws.length
        ∧ (∀ k, k < ws.length → (∃ e ∈ t.agenda, ∃ r, e.act = .homeAccess r ∧ r.uid = c.uid ∧ r.fid = s.nextId ∧ r.part = k
              ∧ r.at_ = offBy p (8 * k) ∧ r.op = .store 8 (ws.getD k 0))
            ∨ ∃ run ∈ f.pend, ∃ m ∈ run, m.part = k ∧ m.ptr = offBy p (8 * k) ∧ m.op = .store 8 (ws.getD k 0))
        ∧ (∃ e ∈ t.agenda, ∃ r, e.act = .homeAccess r ∧ r.uid = c.uid ∧ r.fid = s.nextId ∧ r.part = 0
            ∧ e.cycle = s.cycle + c.fx + 2 * ((th.dn.prc + 63) / 64) + r.ow + baseLat r.home false - 1)
        ∧ { x with flights := th.flights, wait := th.wait } = th
        ∧ Apart s { t with agenda := s.agenda, nextId := s.nextId } c)

/-! ### Engines (R283-R297, R309, R319-R342) -/

namespace Sys2Proof.Claims

/-- The row, its engine, its opcode and its act, of a command that an engine starts. -/
def commandRow : Instr → Option (Bool × Nat × (Nat → Nat → Act))
  | .mma => some (false, 1, .mma)
  | .mzero => some (false, 2, .mzero)
  | .mfmt => some (false, 3, .mfmt)
  | .mstore => some (false, 4, .mstore)
  | .mcheck => some (false, 5, .mcheck)
  | .copy => some (true, 0x10, .copy)
  | .gather => some (true, 0x11, .gather)
  | .scatter => some (true, 0x12, .scatter)
  | .scatteradd => some (true, 0x13, .scatteradd)
  | .fill => some (true, 0x14, .fill)
  | .coll => some (true, 0x15, .coll)
  | .digest => some (true, 0x16, .digest)
  | _ => none

/-- The job that runs in the copy unit, or the matrix engine, of a cluster. -/
def engineRun (s : State) (cu : Bool) (cl : Nat) : Option Running :=
  if cu then (clusterAt s cl).cu.run else (clusterAt s cl).mxe.run

/-- The jobs of a core that wait in a queue of its cluster. -/
def coreJobs (s : State) (cu : Bool) (cl ci : Nat) : List Job :=
  lookD (if cu then (clusterAt s cl).cu.queues else (clusterAt s cl).mxe.queues) ci []

def lastCore (s : State) (cu : Bool) (cl : Nat) : Nat := if cu then (clusterAt s cl).cu.last else (clusterAt s cl).mxe.last

/-- No thread is parked on a full job queue. -/
def NoParkedPush (s : State) : Prop := ∀ e ∈ s.threads, ∀ j q w, e.2.wait ≠ .jobQueue j q w

/-- The head of a core's queue starts: `r` is the job in its engine, which is due to end at `r.stop`. -/
def Started (s t : State) (cu : Bool) (cl ci : Nat) (j : Job) (rest : List Job) (r : Running) : Prop :=
  engineRun t cu cl = some r ∧ r.job = j ∧ r.ci = ci ∧ r.start = s.cycle ∧ s.cycle + 8 ≤ r.stop ∧ lastCore t cu cl = ci
    ∧ (∃ e ∈ t.agenda, e.cycle = r.stop ∧ e.late = false ∧ e.act = .jobEnd cl cu)
    ∧ (NoParkedPush s → coreJobs t cu cl ci = rest ∧ t.threads = s.threads)

/-- A command row may start its job (R284, R319): the engine is idle and the head is 8 cycles old; no access of the
engine has to wait for another (R53, R211). -/
def MayStart (s : State) (i : Instr) (cu : Bool) (cl ci : Nat) (j : Job) (rest : List Job) : Prop :=
  (∃ op mk, commandRow i = some (cu, op, mk) ∧ Acting s (mk cl ci) ∧ cmdOpcode j = op) ∧ Unhindered s
    ∧ coreJobs s cu cl ci = j :: rest ∧ engineRun s cu cl = none ∧ j.enq + 8 ≤ s.cycle

/-- The context that an MFMT word sets (R287). -/
def formatOf (c : MxCtx) (j : Job) : MxCtx :=
  { c with arec := j.w0, brec := j.w1, orec := j.w2, afmt := cmdField j 192 8, bfmt := cmdField j 200 8,
           rnd := cmdField j 208 3, rplanes := cmdField j 211 4 }

/-- A byte of the accumulator block that an MZERO names (R285, R292). -/
def InBlock (tile acc e M N a : Nat) : Prop :=
  ∃ i n b, i < M ∧ n < N ∧ b < e ∧ a = accKey tile (accOff acc e i n) + b

/-- Every placed team of a partition has a thread, so that no end of a job retires one. -/
def Staffed (s : State) (partn : Nat) : Prop := ∀ e ∈ (partOf s partn).teams, teamThreads s partn e.1 ≠ []

/-- The key of the byte that a pointer names in a scratchpad block that is present and not fenced. -/
def spadKey (s : State) (partn : Nat) (p : Ptr) : Option Nat :=
  match placeOf s partn p with
  | some (.spad t o) =>
    if limitsOf s partn p = 0 ∧ fencedAt s partn t = false ∧ (blockOf s t o).st = .present then some (keySpad t o) else none
  | _ => none

/-- The n bytes at a base plus a displacement, where they lie in one such word and are not poisoned. -/
def spadBytes (s : State) (partn : Nat) (base : Ptr) (d n : Nat) : Option Nat :=
  (addOff base d).bind fun p => (spadKey s partn p).bind fun k =>
    if wordPois s (k / 8 * 8) then none else some ((wordAt s (k / 8 * 8)).toNat / 2 ^ (8 * (p.toNat % 8)) % 2 ^ (8 * n))

/-- The element of a dense format at a displacement from its operand's base (R217, R289). -/
def denseElem (s : State) (partn : Nat) (base : Ptr) (fmt d : Nat) : Option FV :=
  (spadBytes s partn base d (fmtSize fmt)).map (rawValue (fmtElem fmt))

/-- An accumulator element after the sums of the first n chunks, added in their order (R232, R290). -/
def afterChunks (et : ElemTy) (sum : Nat → FV) (old : Nat) : Nat → Nat
  | 0 => old
  | n + 1 => accAdd et (afterChunks et sum old n) (sum n)

/-- Byte b of a number. -/
def byteOf (v b : Nat) : Nat := v / 2 ^ (8 * b) % 256

end Sys2Proof.Claims

/-- R283, R284, R319: an idle engine starts the job at the head of a core's queue no earlier than 8 cycles after its push;
the entry is freed, the core is the last whose turn it was, and the job ends at its own time, 8 cycles later or more. -/
def Sys2Proof.Claims.EngineStarts : Prop :=
  ∀ (s : State) (i : Instr) (cu : Bool) (cl ci : Nat) (j : Job) (rest : List Job), MayStart s i cu cl ci j rest →
    ∃ t r, exec i s = .next t ∧ Started s t cu cl ci j rest r

/-- R287, R292, R295, R337: MFMT sets its core's format context and leaves its check state; MCHECK sets the check state
and restarts the count of MMAs; MZERO zeroes exactly its block, in 8 cycles and one more for each 512 bytes, or ends with
reason ACCUMULATOR where the block does not fit; DIGEST registers its region, or ends with reason DIGEST where sixteen
are registered. The others take 8 cycles. -/
def Sys2Proof.Claims.EngineSettings : Prop :=
  ∀ (s : State) (cl ci : Nat) (j : Job) (rest : List Job),
    (MayStart s .mfmt false cl ci j rest →
      ∃ t r, exec .mfmt s = .next t ∧ Started s t false cl ci j rest r ∧ r.stop = s.cycle + 8 ∧ r.ev = none
        ∧ (NoParkedPush s → ctxOf t cl ci = formatOf (ctxOf s cl ci) j ∧ (∀ k, k ≠ ci → ctxOf t cl k = ctxOf s cl k)
            ∧ t.mem = s.mem ∧ t.acc = s.acc))
    ∧ (MayStart s .mcheck false cl ci j rest →
      ∃ t r, exec .mcheck s = .next t ∧ Started s t false cl ci j rest r ∧ r.stop = s.cycle + 8 ∧ r.ev = none
        ∧ (NoParkedPush s → ctxOf t cl ci = { ctxOf s cl ci with chkN := cmdField j 192 8, chkR := cmdField j 200 6, cnt := 0 }
            ∧ (∀ k, k ≠ ci → ctxOf t cl k = ctxOf s cl k) ∧ t.mem = s.mem ∧ t.acc = s.acc))
    ∧ (MayStart s .mzero false cl ci j rest →
      let e := accSize (ctxOf s cl ci)
      let M := cmdField j 192 6 + 1
      let N := cmdField j 198 6 + 1
      let acc := cmdField j 220 12
      ∃ t r, exec .mzero s = .next t ∧ Started s t false cl ci j rest r ∧ t.mem = s.mem ∧
        if accFits acc e M N then
          r.ev = none ∧ r.stop = s.cycle + 8 + (M * N * e + 511) / 512
            ∧ (s.MemOk → ∀ a, (InBlock j.tile acc e M N a → memGet t.acc a = 0)
                ∧ (¬ InBlock j.tile acc e M N a → memGet t.acc a = memGet s.acc a))
        else r.ev = some (badOperand 7) ∧ r.stop = s.cycle + 8 ∧ t.acc = s.acc)
    ∧ (MayStart s .digest true cl ci j rest →
      let l := lookD (clusterAt s cl).cu.regs ci []
      ∃ t r, exec .digest s = .next t ∧ Started s t true cl ci j rest r ∧ r.stop = s.cycle + 8 ∧
        if 16 ≤ l.length then r.ev = some (badOperand 0x00B)
        else r.ev = none ∧ lookD (clusterAt t cl).cu.regs ci [] = l ++ [{ ptr := j.w0, len := cmdField j 64 40, group := cmdField j 104 4, coll := none }])

/-- R290, R297, R309: an MMA of dense formats without unfold whose start checks hold adds, chunk by chunk, the exact sum of
the chunk's products to each element of its block, rounded once a chunk, and changes no other byte of the accumulators and
none of memory; its count is that of its chunks. Operands in scratchpad blocks that are present are its A and B. The
first start check that fails gives its reason: a record that a format needs and that is absent or misaligned (1 for A, 2
for B), K (8), the block (7), A (1), B (2); the engine is then busy for 8 cycles and nothing is written. -/
def Sys2Proof.Claims.MmaAccumulates : Prop :=
  ∀ (s : State) (cl ci : Nat) (j : Job) (rest : List Job), MayStart s .mma false cl ci j rest →
    let c := ctxOf s cl ci
    let sa := fmtSize c.afmt
    let sb := fmtSize c.bfmt
    let e := accSize c
    let lda := cmdField j 128 24
    let ldb := cmdField j 152 24
    let k0 := cmdField j 176 16
    let M := cmdField j 192 6 + 1
    let N := cmdField j 198 6 + 1
    let K := cmdField j 204 16
    let acc := cmdField j 220 12
    let refused := fun (why : Nat) => ∃ t r, exec .mma s = .next t ∧ Started s t false cl ci j rest r
      ∧ r.ev = some (badOperand why) ∧ r.stop = s.cycle + 8 ∧ r.count = 0 ∧ t.mem = s.mem ∧ t.acc = s.acc
    let noRecord := fun (p : Ptr) => p = 0 ∨ p.toNat % 32 ≠ 0
    let needA := 0x11 ≤ c.afmt ∧ c.afmt ≤ 0x13
    (needA → noRecord c.arec → refused 1)
    ∧ (¬ (needA ∧ noRecord c.arec) → 0x10 ≤ c.bfmt → noRecord c.brec → refused 2)
    ∧ ∀ (ch : Nat) (x : Nat × Nat × Bool), c.afmt ≤ 0x0D → c.bfmt ≤ 0x0D → fmtPair c.afmt c.bfmt = some (ch, x) → cmdFlag j 0 = false →
      let why := if K = 0 ∨ K % ch ≠ 0 then 8 else if accFits acc e M N = false then 7
        else if limitsOf s j.partn j.w0 ≠ 0 ∨ j.w0.toNat % sa ≠ 0 ∨ lda % sa ≠ 0 then 1
        else if limitsOf s j.partn j.w1 ≠ 0 ∨ j.w1.toNat % sb ≠ 0 ∨ ldb % sb ≠ 0 then 2 else 0
      (why ≠ 0 → refused why)
      ∧ (why = 0 → c.chkN = 0 → ∀ (A B : Nat → Nat → FV),
        (∀ i k, i < M → k < K → denseElem s j.partn j.w0 c.afmt (i * lda + (k0 + k) * sa) = some (A i k)) →
        (∀ n k, n < N → k < K → denseElem s j.partn j.w1 c.bfmt (n * ldb + (k0 + k) * sb) = some (B k n)) →
        ∃ t r, exec .mma s = .next t ∧ Started s t false cl ci j rest r ∧ r.ev = none ∧ r.count = K / ch ∧ t.mem = s.mem
          ∧ (s.MemOk → (∀ i n, i < M → n < N → memRead t.acc (accKey j.tile (accOff acc e i n)) e =
                afterChunks (accType c) (fun q => chunkSum ((List.range ch).map fun k => (A i (q * ch + k), B (q * ch + k) n)))
                  (memRead s.acc (accKey j.tile (accOff acc e i n)) e) (K / ch))
            ∧ ∀ a, ¬ InBlock j.tile acc e M N a → memGet t.acc a = memGet s.acc a))

/-- R293, R294, R297: an MSTORE without bias and output record whose start checks hold is to deliver every element of its
block, scaled, rounded to the accumulator format under the context's mode and converted, at its place in the destination,
the elements of one word together, and with clear to zero each of them; until its end it writes nothing. A block that does
not fit is reason 7, a misaligned destination or stride reason 9. -/
def Sys2Proof.Claims.MstorePrepares : Prop :=
  ∀ (s : State) (cl ci : Nat) (j : Job) (rest : List Job), MayStart s .mstore false cl ci j rest →
    let c := ctxOf s cl ci
    let et := accType c
    let e := accSize c
    let M := cmdField j 192 6 + 1
    let N := cmdField j 198 6 + 1
    let acc := cmdField j 220 12
    let oet := (ElemTy.ofCode (cmdField j 204 4)).getD .f32
    let sz := ewidth oet / 8
    let ldc := cmdField j 160 24
    let refused := fun (why : Nat) => ∃ t r, exec .mstore s = .next t ∧ Started s t false cl ci j rest r
      ∧ r.ev = some (badOperand why) ∧ r.stop = s.cycle + 8 ∧ r.deliv = [] ∧ t.mem = s.mem ∧ t.acc = s.acc
    (accFits acc e M N = false → refused 7)
    ∧ (accFits acc e M N = true → c.orec = 0 → (j.w0.toNat % sz ≠ 0 ∨ ldc % sz ≠ 0) → refused 9)
    ∧ (accFits acc e M N = true → c.orec = 0 → j.w1 = 0 → j.w0.toNat % sz = 0 → ldc % sz = 0 →
      j.w0.toNat % 2 ^ 46 + (M - 1) * ldc + N * sz ≤ 2 ^ 46 → (M = 1 ∨ N * sz ≤ ldc) →
      ∃ t r, exec .mstore s = .next t ∧ Started s t false cl ci j rest r ∧ r.ev = none ∧ t.mem = s.mem ∧ t.acc = s.acc
        ∧ ∀ i n, i < M → n < N →
          let x := readF et (pack et (dynRnd c.rnd) false none
            (exMul (readF et (memRead s.acc (accKey j.tile (accOff acc e i n)) e)) (readF .f32 (cmdField j 128 32)))).1
          let v := if 8 ≤ oet.code then
              (pack oet (dynRnd c.rnd) false (if 10 ≤ oet.code then some (boundOf oet (.fin false 0 0)) else none) (Ex.ok x)).1
            else ((toInt (intLo oet) (intHi oet) (dynRnd c.rnd) x).1 % 2 ^ ewidth oet).toNat
          let p := j.w0.toNat + i * ldc + n * sz
          ∃ d ∈ r.deliv, ∃ m, d.kind = .bytes m ∧ d.ptr.toNat = p / 8 * 8
            ∧ (∀ b, b < sz → m.testBit (p % 8 + b) = true ∧ byteOf d.val.toNat (p % 8 + b) = byteOf v b)
            ∧ (cmdFlag j 0 = true → (accOff acc e i n, e) ∈ d.clear))

/-- R328-R331: what a copy job is to deliver, from sources in present scratchpad blocks: a COPY without
a shape each source word to its destination, a GATHER the words of the table's element that each index names to its place
in the list, a SCATTER the words of each place to the element that its index names, a SCATTERADD the same, to be added. -/
def Sys2Proof.Claims.CopiesPrepare : Prop :=
  ∀ (s : State) (cl ci : Nat) (j : Job) (rest : List Job),
    (MayStart s .copy true cl ci j rest → j.w2 = 0 → cmdField j 212 8 = 0 → cmdField j 220 8 = 0 →
      let n := cmdField j 192 20
      ∀ (v : Nat → Nat), (∀ i, i < n → spadBytes s j.partn j.w0 (8 * i) 8 = some (v i)) → j.w1.toNat % 2 ^ 46 + 8 * n ≤ 2 ^ 46 →
      ∃ t r, exec .copy s = .next t ∧ Started s t true cl ci j rest r ∧ r.ev = none
        ∧ r.deliv.map (fun d => (some d.ptr, d.val.toNat, d.kind))
            = (List.range n).map fun (i : Nat) => (addOff j.w1 (8 * i : Nat), v i, DelivKind.word))
    ∧ ∀ (i : Instr), i ∈ [Instr.gather, .scatter, .scatteradd] → MayStart s i true cl ci j rest → j.seg = 0 → cmdFlag j 0 = false →
      cmdField j 216 8 = 0 →
      let n := cmdField j 192 20
      let W := 2 ^ cmdField j 212 3
      let iw := if cmdField j 215 1 = 1 then 8 else 4
      let table := fun (x w : Nat) => x * (8 * W) + 8 * w
      let src := fun (x k w : Nat) => if i = .gather then (j.w0, table x w) else (j.w2, table k w)
      let dst := fun (x k w : Nat) => if i = .gather then (j.w2, table k w) else (j.w0, table x w)
      ∀ (idx : Nat → Nat) (v : Nat → Nat → Nat),
      (∀ k, k < n → spadBytes s j.partn j.w1 (k * iw) iw = some (idx k)) →
      (∀ k w, k < n → w < W → spadBytes s j.partn (src (idx k) k w).1 (src (idx k) k w).2 8 = some (v k w)
        ∧ (addOff (dst (idx k) k w).1 ((dst (idx k) k w).2 : Nat)).isSome = true) →
      ∃ t r, exec i s = .next t ∧ Started s t true cl ci j rest r ∧ r.ev = none
        ∧ r.deliv.map (fun d => (some d.ptr, d.val.toNat, d.kind)) = (List.range n).flatMap fun (k : Nat) =>
            (List.range W).map fun (w : Nat) => (addOff (dst (idx k) k w).1 ((dst (idx k) k w).2 : Nat), v k w,
              if i = .scatteradd then DelivKind.addLanes ((ElemTy.ofCode (cmdField j 228 4)).getD .n64) else .word)

/-- R283, R284, R287-R292, R295, R297, R309, R319, R337: jobs start at their engines, with their start checks, and what an
MMA and the setting commands compute. -/
def Obligations.EnginesStart : Prop :=
  Sys2Proof.Claims.EngineStarts ∧ Sys2Proof.Claims.EngineSettings ∧ Sys2Proof.Claims.MmaAccumulates

/-- R47, R284, R322: the end of a job frees its engine; a job that has nothing to deliver, no barrier object to add to and
no check to make leaves memory as it is, and its status word lands 8 cycles later, with OK or the status and reason of
the event that ended it. A collective without an event joins its members instead. -/
def Sys2Proof.Claims.JobEnds : Prop :=
  ∀ (s : State) (cl : Nat) (cu : Bool) (r : Running), Acting s (.jobEnd cl cu) → Unhindered s → engineRun s cu cl = some r → r.stop = s.cycle →
    ∃ t, exec .jobEnd s = .next t ∧ engineRun t cu cl = none
      ∧ (r.deliv = [] → cmdBarsel r.job = 0 → r.checked = false → r.ev = none → ¬ (0x11 ≤ cmdOpcode r.job ∧ cmdOpcode r.job ≤ 0x13) →
          cmdOpcode r.job ≠ 0x15 →
          (∃ e ∈ t.agenda, e.cycle = s.cycle + 8 ∧ e.act = .jobStatusWord r.job
              (if cu then cuStatus (if r.skipped then 1 else 0) 0 0 r.job.done else statusWord 0 (r.count * 2 ^ 32)))
            ∧ (Staffed s r.job.partn → cu = true → t.mem = s.mem ∧ t.acc = s.acc ∧ t.threads = s.threads ∧ t.empty = s.empty))
      ∧ (∀ ev, r.deliv = [] → cmdBarsel r.job = 0 → r.checked = false → r.ev = some ev →
          ∃ e ∈ t.agenda, e.cycle = s.cycle + 8 ∧ e.act = .jobStatusWord r.job
            (if cu then cuStatus ev.status ev.reason 0 r.job.done else statusWord ev.status (ev.reason + r.count * 2 ^ 32)))

/-- R321, R328, R342: a FILL of n words without a shape, inside the offset range, is to deliver its value to each word from
the destination up, each whole. Its consumed mark at its start is the model's choice (log 38). -/
def Sys2Proof.Claims.FillPrepares : Prop :=
  ∀ (s : State) (cl ci : Nat) (j : Job) (rest : List Job), MayStart s .fill true cl ci j rest →
    j.w2 = 0 → cmdField j 220 8 = 0 → pOff j.w0 + 8 * cmdField j 192 20 ≤ 2 ^ 46 →
    ∃ t r, exec .fill s = .next t ∧ Started s t true cl ci j rest r ∧ r.ev = none ∧ r.consumed = s.cycle
      ∧ r.deliv.map (fun d => (some d.ptr, d.val, d.kind))
          = (List.range (cmdField j 192 20)).map fun (i : Nat) => (addOff j.w0 (8 * i : Nat), j.w1, DelivKind.word)

namespace Sys2Proof.Claims

/-- A job ends in this cycle, without an event, and has one word to deliver, at the key k of a home with no waiter. -/
def Delivers (s s1 : State) (cu : Bool) (cl k : Nat) (r : Running) (d : Deliv) : Prop :=
  Acting s (.jobEnd cl cu) ∧ Unhindered s ∧ engineRun s cu cl = some r ∧ r.stop = s.cycle ∧ r.deliv = [d] ∧ r.ev = none
    ∧ cmdBarsel r.job = 0 ∧ Staffed s r.job.partn ∧ s.MemOk ∧ hwKey s r.job.partn d.ptr true false = (s1, .ok k) ∧ s1.mem = s.mem
    ∧ waitersAt s (k / 8 * 8) = []

/-- A word stands at its home full and not poisoned, every other byte of memory is as before, and the status word of the
job is on its way (R284, R319). -/
def Stands (s t : State) (w : Nat) (j : Job) (status : Word) : Prop :=
  wordFull t w = true ∧ wordPois t w = false ∧ (∀ a, a < w ∨ w + 8 ≤ a → memGet t.mem a = memGet s.mem a)
    ∧ ∃ e ∈ t.agenda, e.cycle = s.cycle + 8 ∧ e.act = .jobStatusWord j status

end Sys2Proof.Claims

/-- R321, R322, R328, R330, R331: when a job of the copy unit ends, a word that it delivers stands at its home, full and not
poisoned; one that a SCATTERADD adds is the lane-wise sum there. The status word says OK and one element. -/
def Sys2Proof.Claims.CopiesDeliver : Prop :=
  ∀ (s s1 : State) (cl k : Nat) (r : Running) (d : Deliv), Delivers s s1 true cl k r d → 0x10 ≤ cmdOpcode r.job → cmdOpcode r.job ≤ 0x14 →
    d.elems = 1 → r.skip = false → r.skipped = false → r.job.done = 0 → r.job.half = [] →
    let w := k / 8 * 8
    (d.kind = .word → ∃ t, exec .jobEnd s = .next t ∧ wordAt t w = d.val ∧ Stands s t w r.job (cuStatus 0 0 0 1))
    ∧ ∀ et, d.kind = .addLanes et → wordPois s1 w = false →
      ∃ t, exec .jobEnd s = .next t ∧ Stands s t w r.job (cuStatus 0 0 0 1)
        ∧ ∀ n, n < 64 / ewidth et → elem (ewidth et) (wordAt t w).toNat n
            = (addElem et .rne false (elem (ewidth et) (wordAt s w).toNat n) (elem (ewidth et) d.val.toNat n)).1 % 2 ^ ewidth et

/-- R294: when an MSTORE ends, the bytes that it delivers stand in their word beside the word's other bytes, and the
accumulator elements that it is to clear are zero; no other byte of memory or of the accumulators changes. A word that is
only partly covered must not be poisoned. -/
def Sys2Proof.Claims.MstoreDelivers : Prop :=
  ∀ (s s1 : State) (cl k m : Nat) (r : Running) (d : Deliv), Delivers s s1 false cl k r d → cmdOpcode r.job = 4 → d.kind = .bytes m →
    r.checked = false → r.count = 0 → (wordPois s1 (k / 8 * 8) = false ∨ m = 255) →
    (∀ e ∈ s.threads, ∀ put v o q npc js n, e.2.wait ≠ .amov put v o q npc js n) →
    let w := k / 8 * 8
    ∃ t, exec .jobEnd s = .next t ∧ Stands s t w r.job (statusWord 0 (d.elems * 2 ^ 32))
      ∧ (∀ b, b < 8 → byteOf (wordAt t w).toNat b = if m.testBit b then byteOf d.val.toNat b else byteOf (wordAt s w).toNat b)
      ∧ ∀ a, memGet t.acc a =
          if (d.clear.any fun x => decide (accKey r.job.tile x.1 ≤ a ∧ a < accKey r.job.tile x.1 + x.2)) then 0 else memGet s.acc a

/-- R47, R284, R293, R294, R297, R319-R322, R328-R331, R342: what jobs are to deliver, and their ends. -/
def Obligations.JobsEnd : Prop :=
  Sys2Proof.Claims.MstorePrepares ∧ Sys2Proof.Claims.FillPrepares ∧ Sys2Proof.Claims.CopiesPrepare ∧ Sys2Proof.Claims.JobEnds ∧
  Sys2Proof.Claims.CopiesDeliver ∧ Sys2Proof.Claims.MstoreDelivers

/-- R233, R334, R336: a replica member that is the only one on this device, once every other has joined and all belong
together, has the words of its result at its destination, each full: of an allreduce or a reduce-scatter the lanes combined
over the ranks in their order, of an allgather the contributions in rank order, of a broadcast the root's. The destination
lies in scratchpad blocks that are present, and no region is registered for this collective. -/
def Sys2Proof.Claims.CollectiveResult : Prop :=
  ∀ (s : State) (key : CollKey) (peers : List CollPeer) (cl : Nat) (x : CollSlot) (vs : Nat → List Word) (at_ : Nat → Nat),
    Acting s (.collProceed key peers) → keysRise s.clusters = true → key.group < 16 → key.team = none → Unhindered s → s.MemOk →
    Staffed s key.partn → x.job.partn = key.partn → x.rank < x.g →
    (∀ d ∈ lookD (clusterAt s cl).cu.regs x.ci [], d.coll ≠ some x.job.jid) →
    collMembers s key = [(cl, x)] → x.proceeding = false → (∀ p ∈ peers, p.fenced = false) →
    allSame (collPeerOf x :: peers) = true → (∀ q, q < x.g → ∃ p ∈ collPeerOf x :: peers, p.rank = q) →
    (∀ p ∈ collPeerOf x :: peers, vs p.rank = p.vals) →
    let c := collOf x.job
    let W := ewidth c.et
    let B := c.n * W / 64
    let n := if c.op = 2 then x.g * B else B
    (∀ q, q < x.g → (vs q).length = if c.op = 1 then x.g * B else if c.op = 3 ∧ q ≠ c.root then 0 else B) →
    (c.op = 3 → c.root < x.g) →
    x.job.w1.toNat % 2 ^ 46 + 8 * n ≤ 2 ^ 46 →
    (∀ i, i < n → spadKey s x.job.partn (offBy x.job.w1 (8 * i)) = some (at_ i) ∧ at_ i % 8 = 0 ∧ waitersAt s (at_ i) = []) →
    (∀ i k, i < n → k < n → at_ i = at_ k → i = k) →
    let op := fun (a b : Nat) => match c.rop with
      | 0 => (addElem c.et .rne false a b).1
      | 1 => (minmaxElem c.et false true a b).1
      | _ => (minmaxElem c.et false false a b).1
    let lane := fun (q i k : Nat) => elem W ((vs q).getD i 0).toNat k
    ∃ t, exec .collProceed s = .next t
      ∧ (∀ i, i < n → wordFull t (at_ i) = true ∧ wordPois t (at_ i) = false)
      ∧ (c.op = 2 → ∀ i, i < n → wordAt t (at_ i) = (vs (i / B)).getD (i % B) 0)
      ∧ (c.op = 3 → ∀ i, i < n → wordAt t (at_ i) = (vs c.root).getD i 0)
      ∧ (c.op < 2 → ∀ i k, i < n → k < 64 / W →
          let y := i + if c.op = 1 then x.rank * B else 0
          elem W (wordAt t (at_ i)).toNat k
            = (List.range (x.g - 1)).foldl (fun a q => op a (lane (q + 1) y k)) (lane 0 y k) % 2 ^ W)

/-- R319, R323, R335, R336, R339, R340: a collective whose members have all joined and belong together proceeds, and each
member of a team has its status word 8 cycles later; a mismatch ends every member ADDRESS with reason 0x007, and a fenced
partner ends them FENCED (with reason 0x007: the model's choice, log 103); a replica member that times out ends LINK_LOST
with reason 0x00C, or PREEMPTED with reason 0x007 where its group entry is no longer valid; a replica that agrees with all
digests ends OK, and one in the minority sets its divergence bits and holds its status until its entry is posted. -/
def Sys2Proof.Claims.CollectiveEnds : Prop :=
  ∀ (s : State) (key : CollKey), keysRise s.clusters = true → key.group < 16 → Unhindered s →
    (∀ peers cl x ms, Acting s (.collProceed key peers) → collMembers s key = (cl, x) :: ms → x.proceeding = false →
      let all := (collMembers s key).map (fun m => collPeerOf m.2) ++ peers
      let ended := fun (t : State) (status reason : Nat) => collMembers t key = []
        ∧ ∀ m ∈ collMembers s key, cmdBarsel m.2.job = 0 →
            ∃ e ∈ t.agenda, e.cycle = s.cycle + 8 ∧ e.act = .jobStatusWord m.2.job (cuStatus status reason 0 m.2.count)
      ((∃ p ∈ peers, p.fenced = true) → ∃ t, exec .collProceed s = .next t ∧ ended t 6 7)
      ∧ ((∀ p ∈ peers, p.fenced = false) → allSame all = false → ∃ t, exec .collProceed s = .next t ∧ ended t 5 7)
      ∧ ((∀ p ∈ peers, p.fenced = false) → allSame all = true → (∀ q, q < x.g → ∃ p ∈ all, p.rank = q) →
        ∃ t, exec .collProceed s = .next t
          ∧ (key.team.isSome = true → collMembers t key = []
              ∧ ∀ m ∈ collMembers s key, ∃ e ∈ t.agenda, e.cycle = s.cycle + 8 ∧ ∃ w, e.act = .jobStatusWord m.2.job w)))
    ∧ (∀ cl jid, Acting s (.memberTimeout cl jid) →
      ((∀ x ∈ (clusterAt s cl).cu.slots, x.job.jid ≠ jid) → (∀ r, (clusterAt s cl).cu.run = some r → r.job.jid ≠ jid) →
        exec .memberTimeout s = .next { s with act := none })
      ∧ ∀ x, (clusterAt s cl).cu.slots.find? (fun y => decide (y.job.jid = jid)) = some x → x.status = none → x.proceeding = false →
          x.key.team = none → cmdBarsel x.job = 0 →
          ∃ t, exec .memberTimeout s = .next t ∧ (∀ y ∈ (clusterAt t cl).cu.slots, y.job.jid ≠ jid)
            ∧ ∃ e ∈ t.agenda, e.cycle = s.cycle + 8 ∧ e.act = .jobStatusWord x.job
                (if (groupOf? s x.key.partn x.key.group).isSome then cuStatus 2 0x00C 0 x.count else cuStatus 7 7 0 x.count))
    ∧ (∀ peers cl x ms, Acting s (.digestDecision key peers) → key.team = none → collMembers s key = (cl, x) :: ms →
      x.proceeding = true → x.status = none → x.rank < x.g → (∀ p ∈ peers, p.2.isSome = true) →
      (∀ q, q < x.g → q ≠ x.rank → ∃ d, look peers q = some (some d)) →
      let ds := fun (q : Nat) => if q = x.rank then x.digest else ((look peers q).getD none).getD 0
      ∃ t, exec .digestDecision s = .next t
        ∧ ((∀ q, q < x.g → ds q = x.digest) → cmdBarsel x.job = 0 →
            ∃ e ∈ t.agenda, e.cycle = s.cycle + 8 ∧ e.act = .jobStatusWord x.job (cuStatus 0 0 0 x.count))
        ∧ (∀ q, q < x.g → ds q ≠ x.digest → 2 * ((List.range x.g).filter fun i => decide (ds i = x.digest)).length ≤ x.g →
            (partOf t key.partn).divs.getLsbD key.group = true ∧ (partOf t key.partn).divs.getLsbD (16 + key.group) = true
              ∧ ∃ y ∈ (clusterAt t cl).cu.slots, y.job.jid = x.job.jid ∧ y.status.isSome = true))

/-- R233, R319, R323, R334-R336, R339, R340: collectives proceed, deliver and end. -/
def Obligations.CollectivesEnd : Prop :=
  Sys2Proof.Claims.CollectiveEnds ∧ Sys2Proof.Claims.CollectiveResult

/-! ### Thread control, the context cache and thermal slots (R80-R82, R152, R156, R159, R161, R412) -/

namespace Sys2Proof.Claims

/-- A thread occupies a slot (R198). -/
def AtSlot (s : State) (tile slot u : Nat) (th : Thread) : Prop := occupant s tile slot = some u ∧ threadOf s u = some th

/-- The thread that a thread-control word and a TID name (R152): the one of that TID in the slot, or vacated from it. -/
def Named (s : State) (tile slot tid u : Nat) (th : Thread) : Prop :=
  threadOf s u = some th ∧ tidOf th = tid ∧
    (occupant s tile slot = some u
      ∨ ((u, th) ∈ s.threads ∧ th.stand = .vacated ∧ th.tile = tile ∧ th.recSlot = slot
        ∧ (∀ v x, occupant s tile slot = some v → threadOf s v = some x → tidOf x ≠ tid)
        ∧ ∀ e ∈ s.threads, e.2.stand = .vacated → e.2.tile = tile → e.2.recSlot = slot → tidOf e.2 = tid → e = (u, th)))

/-- No thread of a TID stands in a slot or was vacated from it. -/
def NoneNamed (s : State) (tile slot tid : Nat) : Prop :=
  (∀ v x, occupant s tile slot = some v → threadOf s v = some x → tidOf x ≠ tid)
    ∧ ∀ e ∈ s.threads, e.2.stand = .vacated → e.2.tile = tile → e.2.recSlot = slot → tidOf e.2 ≠ tid

/-- A thread-control word shows an outcome, and nothing else of the machine is changed. -/
def OutcomeOnly (s t : State) (tile slot out : Nat) : Prop :=
  lookD (tileOf t tile).tcw slot 0 = out ∧ { t with tiles := s.tiles, act := s.act } = s
    ∧ ∀ k, { tileOf t k with tcw := (tileOf s k).tcw } = tileOf s k

/-- A thread-control word shows outcome 0, and one thread is changed. -/
def OutcomeThread (s t : State) (tile slot u : Nat) (x : Thread) : Prop :=
  lookD (tileOf t tile).tcw slot 0 = 0 ∧ threadOf t u = some x ∧ (∀ v, v ≠ u → threadOf t v = threadOf s v)
    ∧ { t with tiles := s.tiles, threads := s.threads, act := s.act } = s
    ∧ ∀ k, { tileOf t k with tcw := (tileOf s k).tcw } = tileOf s k

/-- The act of each row of the thread-control word. -/
def controlRow : Instr → Option (Nat → Nat → Nat → Act)
  | .resume => some .resume
  | .deliver => some .deliver
  | .terminate => some .terminate
  | .vacate => some .vacate
  | .restore => some .restore
  | _ => none

end Sys2Proof.Claims

/-- R96, R146, R152: a thread-control action whose slot holds no thread of its TID, and from which none was vacated, has
outcome 1 and no other effect. Resume lets a stopped thread go on at its unit, with the progress of its fault record where
the unit can be restarted; deliver lets it go on in its handler, where it has one and is not in it; terminate ends it, once
its relaxed accesses have been performed; each has outcome 2 where it does not apply. -/
def Obligations.ThreadControl : Prop :=
  ∀ (s : State) (tile slot tid : Nat),
    (∀ i mk, controlRow i = some mk → Acting s (mk tile slot tid) → NoneNamed s tile slot tid →
      ∃ t, exec i s = .next t ∧ OutcomeOnly s t tile slot 1)
    ∧ ∀ (u : Nat) (th : Thread), Named s tile slot tid u th →
      (Acting s (.resume tile slot tid) →
        (th.stopped = false → ∃ t, exec .resume s = .next t ∧ OutcomeOnly s t tile slot 2)
        ∧ (th.stopped = true → ∃ t, exec .resume s = .next t ∧ OutcomeThread s t tile slot u
            { th with stopped := false, resume := if restartsAt { s with act := none } th th.pc then bits th.fr.cause 32 32 else 0,
                      readyAt := max th.readyAt (s.cycle + 1) }))
      ∧ (Acting s (.deliver tile slot tid) →
        (th.stopped = false ∨ th.tvec = 0 ∨ th.inHandler = true → ∃ t, exec .deliver s = .next t ∧ OutcomeOnly s t tile slot 2)
        ∧ (th.stopped = true → th.tvec ≠ 0 → th.inHandler = false →
          ∃ t, exec .deliver s = .next t ∧ OutcomeThread s t tile slot u
            { th with stopped := false, inHandler := true, pc := th.tvec, resume := 0, readyAt := max th.readyAt (s.cycle + 1) }))
      ∧ (Acting s (.terminate tile slot tid) → Unhindered s →
        ∃ t, exec .terminate s = .next t ∧ lookD (tileOf t tile).tcw slot 0 = 0
          ∧ ((∀ f ∈ th.flights, f.rx = false ∨ f.done = true) → threadOf t u = none)
          ∧ ((∃ f ∈ th.flights, f.rx = true ∧ f.done = false) →
              ∃ x, threadOf t u = some x ∧ x.ending = true ∧ x.wait = .none ∧ ∀ r, sget x r = sget th r))

/-- R156, R159, R161: vacating has outcome 2 where the core has no save area or the thread is vacated, 3 where its cache
has no room, and else the thread leaves its slot when it is settled; restoring has outcome 2 for a thread that was not
vacated by software, and else brings it back to its slot; while the slot is disabled it waits as a displaced thread. The
acknowledgement of a save record, or its failure, marks the thread's entry of the cache. That an accepted vacate has outcome
0 at once and that a restore into a disabled slot waits are the model's choices (log 60). -/
def Sys2Proof.Claims.ContextCache : Prop :=
  ∀ (s : State) (tile slot tid u : Nat) (th : Thread), AtSlot s tile slot u th → tidOf th = tid → th.tile = tile → th.slot = slot →
    (Acting s (.vacate tile slot tid) →
      ((tileOf s tile).csav = 0 ∨ th.stand = .vacated → ∃ t, exec .vacate s = .next t ∧ OutcomeOnly s t tile slot 2)
      ∧ ((tileOf s tile).csav ≠ 0 → th.stand ≠ .vacated → cacheRoom (tileOf s tile) (together s u).length = false →
        ∃ t, exec .vacate s = .next t ∧ OutcomeOnly s t tile slot 3)
      ∧ ((tileOf s tile).csav ≠ 0 → th.stand ≠ .vacated → cacheRoom (tileOf s tile) 1 = true → mateOf s u = none →
        ∃ t, exec .vacate s = .next t ∧ OutcomeThread s t tile slot u { th with leaving := 1 }))
    ∧ (Acting s (.restore tile slot tid) →
      (th.stand ≠ .vacated → ∃ t, exec .restore s = .next t ∧ OutcomeOnly s t tile slot 2)
      ∧ (th.stand = .vacated → th.displaced = none → mateOf s u = none → slot ∈ (tileOf s tile).disabled →
        ∃ t, exec .restore s = .next t ∧ lookD (tileOf t tile).tcw slot 0 = 0
          ∧ threadOf t u = some { th with displaced := some s.cycle } ∧ ∀ v, v ≠ u → threadOf t v = threadOf s v)
      ∧ (th.stand = .vacated → th.displaced = none → mateOf s u = none → slot ∉ (tileOf s tile).disabled → Unhindered s →
        ∃ t x, exec .restore s = .next t ∧ lookD (tileOf t tile).tcw slot 0 = 0 ∧ threadOf t u = some x
          ∧ x.stand = .inSlot ∧ x.slot = slot ∧ ∀ e ∈ (tileOf t tile).cache, e.uid ≠ u))
    ∧ (Acting s (.saveWriteAcknowledgement tile u) →
      ∃ t, exec .saveWriteAcknowledgement s = .next t ∧ t.threads = s.threads ∧ t.mem = s.mem
        ∧ (tileOf t tile).cache = (tileOf s tile).cache.map fun e => { e with written := e.written || decide (e.uid = u) })
    ∧ ∀ cause p, Acting s (.contextSaveFault tile u cause p) →
      ∃ t, exec .contextSaveFault s = .next t ∧ t.threads = s.threads
        ∧ (tileOf t tile).cache = (tileOf s tile).cache.map fun e => { e with kept := e.kept || decide (e.uid = u) }

/-- R80-R82, R412: a core that disables takes its highest enabled slot, never slot 0, with its pair's other slot where it
runs pairs; the threads there begin to leave; a disable whose thread cannot go changes nothing. One that re-enables takes
its lowest disabled slot, and a scan follows. Firmware sets the cores' temperatures and limits and the ranking table (log
7). A parity error costs a thread 8 cycles and nothing else. That a disable whose thread cannot go does nothing (log 60) and
that on a core with a pair all slots change in twos (log 89) are the model's choices. -/
def Sys2Proof.Claims.ThermalSlots : Prop :=
  ∀ (s : State) (tile : Nat),
    (Acting s (.slotDisable tile) → keysRise s.threads = true →
      (disableNext s tile = none → exec .slotDisable s = .next { s with act := none })
      ∧ ∀ g, disableNext s tile = some g →
        0 ∉ g ∧ (∀ k ∈ g, k < 16)
          ∧ (∀ k, 0 < k → k < 16 → k ∉ (tileOf s tile).disabled → (∀ n, k < n → n < 16 → n ∈ (tileOf s tile).disabled) →
              k ∈ g ∧ ((∀ e ∈ s.threads, e.2.tile = tile → e.2.role = 0) → g = [k]))
          ∧ (g.all (canLeave s tile) = false → exec .slotDisable s = .next { s with act := none })
          ∧ (g.all (canLeave s tile) = true → ∃ t, exec .slotDisable s = .next t ∧ (tileOf t tile).thermAt = some s.tsc
              ∧ (∀ n, n ∈ (tileOf t tile).disabled ↔ n ∈ g ∨ n ∈ (tileOf s tile).disabled)
              ∧ ∀ k ∈ g, ∀ u th, atSlot s tile k = some u → threadOf s u = some th → th.stand = .inSlot → th.leaving = 0 →
                  threadOf t u = some { th with leaving := 2 }))
    ∧ (Acting s (.slotReenable tile) → Unhindered s →
      ((tileOf s tile).disabled = [] → exec .slotReenable s = .next { s with act := none })
      ∧ ∀ k l, (tileOf s tile).disabled = k :: l →
        ∃ t, exec .slotReenable s = .next t ∧ k ∉ (tileOf t tile).disabled ∧ (tileOf t tile).thermAt = some s.tsc
          ∧ ∃ c, t.scanDue = some c ∧ c ≤ s.cycle + 1)
    ∧ (∀ l, Acting s (.rankingRefresh l) →
      ∃ t, exec .rankingRefresh s = .next t ∧ { t with tiles := s.tiles, ranking := s.ranking, act := s.act } = s
        ∧ ((l.map (·.tile)).Nodup → ∀ x ∈ l, lookD t.ranking x.tile 0 = x.temp
            ∧ tileOf t x.tile = { tileOf s x.tile with temp := x.temp, thresh := x.thresh, hyst := x.hyst }))
    ∧ ∀ u th, Acting s (.parityReplay u) → threadOf s u = some th →
      ∃ t, exec .parityReplay s = .next t ∧ threadOf t u = some { th with readyAt := max th.readyAt s.cycle + 8 }
        ∧ (∀ v, v ≠ u → threadOf t v = threadOf s v) ∧ { t with threads := s.threads, act := s.act } = s

/-- R80-R82, R156-R161, R412: contexts leave and return, and slots are taken and given back. -/
def Obligations.ContextsMove : Prop :=
  Sys2Proof.Claims.ContextCache ∧ Sys2Proof.Claims.ThermalSlots

/-! ### Pre-emption (R162-R166, R383, R384) -/

namespace Sys2Proof.Claims

/-- The outcome that PREQ shows. -/
def preq (s : State) (partn : Nat) : Nat := (partOf s partn).preqOut

/-- A PREQ write has an outcome, and nothing else of the machine is changed. -/
def PreqOnly (s t : State) (partn out : Nat) : Prop :=
  preq t partn = out ∧ { t with parts := s.parts, act := s.act } = s
    ∧ ∀ k, { partOf t k with preqOut := (partOf s k).preqOut, preqSerial := (partOf s k).preqSerial } = partOf s k

/-- A thread has a relaxed access outstanding. -/
def RelaxedOut (th : Thread) : Prop := ∃ f ∈ th.flights, f.rx = true ∧ f.done = false

/-- Of a team nothing is left but threads that end once their relaxed accesses have been performed; where none has such an
access outstanding, no thread is left. -/
def TeamEnded (s t : State) (partn serial : Nat) : Prop :=
  (∀ u ∈ teamThreads t partn serial, ∃ x, threadOf t u = some x ∧ x.ending = true)
    ∧ ((∀ u ∈ teamThreads s partn serial, ∀ th, threadOf s u = some th → ¬ RelaxedOut th) → teamThreads t partn serial = [])

/-- The state in which a team that is saved has had its tables of live ranges read. -/
def tablesRead (s : State) (partn serial : Nat) : State :=
  let s0 := { s with act := none }
  readThrough s0 partn ((threadsOf s0 (teamThreads s0 partn serial)).flatMap (tableReads s0))

end Sys2Proof.Claims

/-- R96, R384: a save request of a placed team is pending with outcome 5 and its time limit running; a request for no team
has outcome 1, and for team 0 outcome 3; one for a team not yet started has outcome 1 too (the model's choice, log 51).
Terminating a team ends all its threads, each once its relaxed accesses have been performed; discarding a saved team frees
its image, unless it is being restored. -/
def Sys2Proof.Claims.PreemptionRequests : Prop :=
  ∀ (s : State) (partn serial : Nat),
    (∀ i mk, (i, mk) ∈ [(Instr.save, Act.save), (.teamTerminate, .teamTerminate)] → Acting s (mk partn serial) →
      (teamOf s partn serial = none → ∃ t, exec i s = .next t ∧ PreqOnly s t partn 1)
      ∧ ∀ tm, teamOf s partn serial = some tm →
        (serial = 0 → ∃ t, exec i s = .next t ∧ PreqOnly s t partn 3)
        ∧ (serial ≠ 0 → tm.started = false → ∃ t, exec i s = .next t ∧ PreqOnly s t partn 1))
    ∧ (∀ tm, Acting s (.save partn serial) → serial ≠ 0 → teamOf s partn serial = some tm → tm.started = true →
      ∃ t x, exec .save s = .next t ∧ preq t partn = 5 ∧ (partOf t partn).preqSerial = some serial
        ∧ teamOf t partn serial = some x ∧ x.req.isSome = true ∧ t.threads = s.threads ∧ t.mem = s.mem
        ∧ (tm.req = none → x = { tm with req := some .preq, reqAt := s.tsc }
            ∧ ((partOf s partn).ptmo ≠ 0 →
                (s.tsc + (partOf s partn).ptmo.toNat, Act.preemptionTimeout partn serial s.tsc) ∈ t.timers)))
    ∧ (∀ tm, Acting s (.teamTerminate partn serial) → Unhindered s → serial ≠ 0 → teamOf s partn serial = some tm → tm.started = true →
      keysRise s.threads = true → ∃ t, exec .teamTerminate s = .next t ∧ preq t partn = 0 ∧ TeamEnded s t partn serial)
    ∧ (Acting s (.discard partn serial) →
      ((∀ i ∈ (partOf s partn).saved, i.serial ≠ serial) →
        ∃ t, exec .discard s = .next t ∧ PreqOnly s t partn (if serial = 0 then 3 else 1))
      ∧ ((∃ i ∈ (partOf s partn).saved, i.serial = serial) → (teamOf s partn serial).isSome = true →
        ∃ t, exec .discard s = .next t ∧ PreqOnly s t partn 1)
      ∧ ((∃ i ∈ (partOf s partn).saved, i.serial = serial) → teamOf s partn serial = none → Unhindered s →
        ∃ t, exec .discard s = .next t ∧ preq t partn = 0 ∧ ∀ i ∈ (partOf t partn).saved, i.serial ≠ serial))

/-- R162, R166, R383-R386: the end of a slice asks for the team's save where a head of its priority or higher could take
its place, or joins a request that stands, and else starts the next slice; a request whose time runs out before every thread
is counted, or while a job of the copy unit keeps the save waiting, is given up, and threads at safe points go on; a team that is counted is saved: its threads and its place are given up and its image is
kept in the lowest free slot of the pool, or, where no slot has room for it, the request is given up with outcome 4. -/
def Sys2Proof.Claims.TeamSaves : Prop :=
  ∀ (s : State) (partn serial : Nat) (tm : Team), keysRise s.threads = true → teamOf s partn serial = some tm →
    (∀ stamp, Acting s (.sliceExpiry partn serial stamp) →
      (tm.sliceEnd ≠ stamp ∨ tm.req = some .slice → exec .sliceExpiry s = .next { s with act := none })
      ∧ (tm.sliceEnd = stamp → tm.req = some .preq →
        ∃ t, exec .sliceExpiry s = .next t ∧ teamOf t partn serial = some { tm with req := some .both }
          ∧ { t with parts := s.parts, act := s.act } = s)
      ∧ (tm.sliceEnd = stamp → tm.req = none → headWaits s partn serial tm.prio = true →
        ∃ t, exec .sliceExpiry s = .next t ∧ teamOf t partn serial = some { tm with req := some .slice, reqAt := s.tsc })
      ∧ (tm.sliceEnd = stamp → tm.req = none → headWaits s partn serial tm.prio = false → tm.slice ≠ 0 → serial ≠ 0 →
        ∃ t, exec .sliceExpiry s = .next t ∧ teamOf t partn serial = some { tm with sliceEnd := stamp + tm.slice * 1000 }
          ∧ (stamp + tm.slice * 1000, Act.sliceExpiry partn serial (stamp + tm.slice * 1000)) ∈ t.timers))
    ∧ (∀ stamp, Acting s (.preemptionTimeout partn serial stamp) →
      (tm.req = none ∨ tm.reqAt ≠ stamp → exec .preemptionTimeout s = .next { s with act := none })
      ∧ (teamCounted s partn serial = true → copyHolds s partn serial = false →
        exec .preemptionTimeout s = .next { s with act := none })
      ∧ (tm.req.isSome = true → tm.reqAt = stamp → teamCounted s partn serial = false ∨ copyHolds s partn serial = true →
        ∃ t x, exec .preemptionTimeout s = .next t ∧ teamOf t partn serial = some x ∧ x.req = none ∧ t.mem = s.mem
          ∧ ((partOf s partn).preqSerial = some serial → preq t partn = 2)
          ∧ (tm.req ≠ some .preq → tm.slice ≠ 0 → serial ≠ 0 → x.sliceEnd = s.tsc + tm.slice * 1000)
          ∧ ∀ u ∈ teamThreads s partn serial, ∀ th, threadOf s u = some th →
              threadOf t u = some (if th.wait = .safept then unitOver (offBy th.pc 4) (s.cycle + 1) th else th)))
    ∧ (Acting s (.teamSave partn serial) → saveReady s partn serial = true → Unhindered s →
      (∀ u ∈ teamThreads s partn serial, ∀ th, threadOf s u = some th → th.tile ∈ teamTiles s partn serial ∧ th.slot < 16) →
      let s1 := stopTeam (tablesRead s partn serial) partn serial
      badTables (tablesRead s partn serial) (teamThreads s partn serial) = [] →
        (poolSlot (partOf s1 partn) = none → ∃ t x, exec .teamSave s = .next t ∧ teamOf t partn serial = some x ∧ x.req = none
          ∧ ((partOf s partn).preqSerial = some serial → preq t partn = 4))
        ∧ ∀ slot, poolSlot (partOf s1 partn) = some slot →
          let img := makeImage s1 partn serial tm slot
          8 * (imageWords s1 img).length ≤ (partOf s1 partn).tsps → (partOf s1 partn).tspb ≠ 0 →
          ∃ t, exec .teamSave s = .next t ∧ teamOf t partn serial = none ∧ teamThreads t partn serial = []
            ∧ img ∈ (partOf t partn).saved ∧ img.serial = serial ∧ (∀ u ∈ teamThreads s partn serial, ∃ x ∈ img.threads, x.uid = u)
            ∧ ((partOf s partn).preqSerial = some serial → preq t partn = 0)
            ∧ ∃ c, t.scanDue = some c ∧ c ≤ s.cycle + 1)

/-- R162-R166, R383, R384: pre-emption requests and what becomes of them. -/
def Obligations.TeamPreemption : Prop :=
  Sys2Proof.Claims.PreemptionRequests ∧ Sys2Proof.Claims.TeamSaves

/-! ### Rows that complete (R93, R371, R375-R377, R383, R384, R386) -/

/-- R93, R375-R377, R383, R384: `eret` in a handler returns; a pushed launch comes to its head; a save request is pending;
a team is terminated, or discarded from the pool; a slice ends in a request or in the next slice; a request that runs out of
time before its team is counted is given up; a counted team whose image has room is saved; a tail is written, a head is read, and a queue is switched
in and out; a partition is created and deleted. Each has its own effect in every state that meets its conditions. -/
def Obligations.RowsComplete : Prop :=
  (∀ (s : State) (c : Cur) (th : Thread), Ready s c th Need.none → th.inHandler = true →
    ∃ t x, exec .eret s = .next t ∧ threadOf t c.uid = some x ∧ x.pc = th.fr.pc ∧ x.inHandler = false)
  ∧ (∀ (s : State) (j : Job) (l : List Job), Acting s (.launch j) → (partOf s j.partn).devq = j :: l →
    ∃ t, exec .launch s = .next t ∧ (partOf t j.partn).devHead = some j.jid)
  ∧ (∀ (s : State) (n k : Nat) (tm : Team), teamOf s n k = some tm → tm.started = true → k ≠ 0 → Unhindered s →
    (Acting s (.save n k) → ∃ t x, exec .save s = .next t ∧ teamOf t n k = some x ∧ x.req.isSome = true ∧ (partOf t n).preqOut = 5)
    ∧ (Acting s (.teamTerminate n k) → keysRise s.threads = true →
      ∃ t, exec .teamTerminate s = .next t ∧ TeamEnded s t n k ∧ (partOf t n).preqOut = 0)
    ∧ (Acting s (.sliceExpiry n k tm.sliceEnd) → tm.slice ≠ 0 →
      ∃ t x, exec .sliceExpiry s = .next t ∧ teamOf t n k = some x ∧ (x.req.isSome = true ∨ x.sliceEnd = tm.sliceEnd + 1000 * tm.slice))
    ∧ (Acting s (.preemptionTimeout n k tm.reqAt) → teamCounted s n k = false →
      ∃ t x, exec .preemptionTimeout s = .next t ∧ teamOf t n k = some x ∧ x.req = none)
    ∧ (Acting s (.teamSave n k) → saveReady s n k = true → badTables (tablesRead s n k) (teamThreads s n k) = [] →
      let s1 := stopTeam (tablesRead s n k) n k
      ∀ slot, poolSlot (partOf s1 n) = some slot →
        8 * (imageWords s1 (makeImage s1 n k tm slot)).length ≤ (partOf s1 n).tsps → (partOf s1 n).tspb ≠ 0 →
        ∃ t, exec .teamSave s = .next t ∧ teamOf t n k = none ∧ ∃ i ∈ (partOf t n).saved, i.serial = k ∧ i.slot = slot))
  ∧ (∀ (s : State) (n k : Nat), Acting s (.discard n k) → Unhindered s → teamOf s n k = none →
    (∃ i ∈ (partOf s n).saved, i.serial = k) →
    ∃ t, exec .discard s = .next t ∧ (∀ i ∈ (partOf t n).saved, i.serial ≠ k) ∧ (partOf t n).preqOut = 0)
  ∧ (∀ (s : State) (n q : Nat), Unhindered s →
    let k := queueOf (partOf s n) q
    (∀ v, Acting s (.tailWrite n q v) → k.resident = true → ∃ t, exec .tailWrite s = .next t ∧ (queueOf (partOf t n) q).lqt = bits v 0 32)
    ∧ (Acting s (.switchOut n q) → k.resident = true → k.lqsv ≠ 0 →
      ∃ t, exec .switchOut s = .next t ∧ (queueOf (partOf t n) q).resident = false)
    ∧ (Acting s (.switchIn n q) → k.resident = false → k.lqsv ≠ 0 → residentCount s < 64 →
      (∀ i, i < 6 → ∃ j, hwKey s n (offBy k.lqsv (8 * i)) false false = (s, .ok j) ∧ wordPois s (j / 8 * 8) = false) →
      ∃ t, exec .switchIn s = .next t ∧ (queueOf (partOf t n) q).resident = true)
    ∧ (Acting s (.headRead n q k.lqp) → k.reading = true → k.resident = true →
      (∀ i, i < 4 → ∃ j, hwKey s n (offBy (headPtr k) (8 * i)) false false = (s, .ok j) ∧ wordPois s (j / 8 * 8) = false) →
      ∃ t, exec .headRead s = .next t ∧ (queueOf (partOf t n) q).head.isSome = true))
  ∧ ∀ (s : State) (n : Nat),
    (Acting s (.create n) → (partOf s n).pstate = 0 → blockBroken s n = false → blockOverlaps s n = false → (partOf s n).pconf = false →
      ∃ t, exec .create s = .next t ∧ (partOf t n).pstate = 1)
    ∧ (Acting s (.delete n) → (partOf s n).pstate = 2 → (partOf s n).teams = [] → (partOf s n).saved = [] →
      ∃ t, exec .delete s = .next t ∧ (partOf t n).pstate = 3)

/-! ### The launch unit (R70, R370-R377, R380-R382) -/

namespace Sys2Proof.Claims

/-- A scan is due in the next cycle at the latest. -/
def ScanSoon (s t : State) : Prop := ∃ c, t.scanDue = some c ∧ c ≤ s.cycle + 1

/-- A partition's queue, and what of the machine is not that queue. -/
def queueAt (s : State) (partn q : Nat) : Queue := queueOf (partOf s partn) q

/-- A PCTL action has an outcome, and nothing else of the machine is changed. -/
def PctlOnly (s t : State) (partn out : Nat) : Prop :=
  { t with parts := s.parts, act := s.act } = s ∧ partOf t partn = { partOf s partn with pout := out }
    ∧ ∀ k, k ≠ partn → partOf t k = partOf s k

end Sys2Proof.Claims

/-- R15, R371: creating a partition has outcome 3 where it is not absent, 1 where a field of its block is out of range, 2
where it overlaps a live one, 4 where it is confidential without a key; else the partition is being created, by a
broadcast that is in effect two calends later at the earliest. Deleting one has outcome 3 while it holds a team; so it has where it is
absent or being deleted (the model's choice, log 82); else it is being deleted and its queues are reset. -/
def Sys2Proof.Claims.PartitionsMade : Prop :=
  ∀ (s : State) (partn : Nat),
    let p := partOf s partn
    (Acting s (.create partn) →
      (p.pstate ≠ 0 → ∃ t, exec .create s = .next t ∧ PctlOnly s t partn 3)
      ∧ (p.pstate = 0 → blockBroken s partn = true → ∃ t, exec .create s = .next t ∧ PctlOnly s t partn 1)
      ∧ (p.pstate = 0 → blockBroken s partn = false → blockOverlaps s partn = true →
        ∃ t, exec .create s = .next t ∧ PctlOnly s t partn 2)
      ∧ (p.pstate = 0 → blockBroken s partn = false → blockOverlaps s partn = false → p.pconf = true → p.pkey = false →
        ∃ t, exec .create s = .next t ∧ PctlOnly s t partn 4)
      ∧ (p.pstate = 0 → blockBroken s partn = false → blockOverlaps s partn = false → p.pconf = false ∨ p.pkey = true →
        ∃ t, exec .create s = .next t ∧ (partOf t partn).pstate = 1 ∧ (partOf t partn).pout = 0
          ∧ ∃ b ∈ t.casts, b.kind = .create partn ∧ s.tsc / 64 + 2 ≤ b.calend))
    ∧ (Acting s (.delete partn) →
      (p.teams ≠ [] ∨ p.saved ≠ [] ∨ p.pstate = 0 ∨ p.pstate = 3 → ∃ t, exec .delete s = .next t ∧ PctlOnly s t partn 3)
      ∧ (p.teams = [] → p.saved = [] → p.pstate ≠ 0 → p.pstate ≠ 3 →
        ∃ t, exec .delete s = .next t ∧ (partOf t partn).pstate = 3 ∧ (partOf t partn).pout = 0
          ∧ (partOf t partn).devq = [] ∧ (∀ q, queueAt t partn q = Queue.reset)
          ∧ ∃ b ∈ t.casts, b.kind = .delete partn ∧ s.tsc / 64 + 2 ≤ b.calend))

/-- R375-R377: a tail write of a resident queue sets its tail; a queue switched out is no longer resident, and one that is
resident is not switched in again; without a saved-queue area neither switch does anything (the model's choice, log 48); a head that is read is known, where all its words can be read, and is tried in the next
scan; a pushed launch at the head of its device queue is tried in the next scan. -/
def Sys2Proof.Claims.LaunchQueues : Prop :=
  ∀ (s : State) (partn q : Nat),
    let k := queueAt s partn q
    (∀ v, Acting s (.tailWrite partn q v) →
      ∃ t, exec .tailWrite s = .next t ∧ t.threads = s.threads
        ∧ (k.resident = true → (queueAt t partn q).lqt = bits v 0 32 ∧ t.mem = s.mem
            ∧ ∀ j, j ≠ q → queueAt t partn j = queueAt s partn j))
    ∧ (Acting s (.switchOut partn q) →
      ∃ t, exec .switchOut s = .next t ∧ t.threads = s.threads
        ∧ (k.resident = false ∨ k.lqsv = 0 → t = { s with act := none })
        ∧ (k.resident = true → k.lqsv ≠ 0 → Unhindered s → (queueAt t partn q).resident = false ∧ (queueAt t partn q).head = none))
    ∧ (Acting s (.switchIn partn q) →
      ∃ t, exec .switchIn s = .next t ∧ t.threads = s.threads
        ∧ (k.resident = true ∨ 64 ≤ residentCount s ∨ k.lqsv = 0 → t = { s with act := none })
        ∧ (k.resident = false → (queueAt t partn q).resident = true → residentCount s < 64 ∧ ScanSoon s t
            ∧ (queueAt t partn q).lqb = (hwLoad s partn k.lqsv).2.2))
    ∧ (∀ n, Acting s (.headRead partn q n) →
      ∃ t, exec .headRead s = .next t ∧ t.threads = s.threads
        ∧ (k.reading = false ∨ k.lqp ≠ n ∨ k.resident = false → t = { s with act := none })
        ∧ (k.reading = true → k.lqp = n → k.resident = true → Unhindered s → (queueAt t partn q).reading = false
            ∧ ((queueAt t partn q).head.isSome = true → ScanSoon s t)))
    ∧ ∀ j l, Acting s (.launch j) → (partOf s j.partn).devq = j :: l →
      ∃ t, exec .launch s = .next t ∧ (partOf t j.partn).devHead = some j.jid ∧ (partOf t j.partn).devq = j :: l ∧ ScanSoon s t

/-- R15, R371, R375-R377: partitions are created and deleted, and their launch queues served. -/
def Obligations.LaunchUnit : Prop :=
  Sys2Proof.Claims.PartitionsMade ∧ Sys2Proof.Claims.LaunchQueues

/-- R70, R378, R381: a scan with no head, no saved team and no supervisor team to place places nothing; one that
finds the supervisor team of the only partition due and a free rectangle takes it, and its threads start 16 + 2(w
+ h) cycles later. A placement starts its team: for one core and one thread, a thread at the entry address with
the launch argument, its number, its core and the team's size in s1 to s4 and every other scalar zero, and its
claim of rows. -/
def Obligations.TeamsStart : Prop :=
  (∀ (s : State), Acting s .scan →
    ((∀ e ∈ s.parts, e.2.supDue = false ∧ e.2.saved = []) → (∀ partn q, headAt s partn q = none) → keysRise s.parts = true →
      ∃ t, exec .scan s = .next t ∧ { t with parts := s.parts } = { s with scanDue := none, act := none }
        ∧ ∀ n, { partOf t n with devTried := (partOf s n).devTried, queues := (partOf s n).queues } = partOf s n)
    ∧ ∀ n p f x y, s.parts = [(n, p)] → p.frame = some f → p.supDue = true → p.saved = [] → p.teams = [] →
        (∀ q, headAt s n q = none) →
        let j := wordsJob n ((List.range 4).map fun i => lookD p.psup i 0)
        launchReject s f j false true = 0 → freeOrigin s n f (lW j) (lH j) (lT j) = some (x, y) →
        ∃ t tm, exec .scan s = .next t ∧ teamOf t n 0 = some tm ∧ tm.ox = x ∧ tm.oy = y ∧ tm.w = lW j ∧ tm.h = lH j
          ∧ tm.started = false ∧ (partOf t n).supDue = false ∧ (partOf t n).pstate = 2 ∧ t.threads = s.threads
          ∧ ∃ e ∈ t.agenda, e.cycle = s.cycle + 16 + 2 * (lW j + lH j)
              ∧ ∃ pl, e.act = .placement pl ∧ pl.partn = n ∧ pl.serial = 0 ∧ pl.ox = x ∧ pl.oy = y ∧ pl.restore = false)
  ∧ ∀ (s : State) (p : Placement) (tm : Team) (f : Frame), Acting s (.placement p) → p.restore = false →
    teamOf s p.partn p.serial = some tm → frameOf s p.partn = some f →
    let j := wordsJob p.partn [p.w0, p.w1, p.w2, p.w3]
    ∃ t, exec .placement s = .next t
      ∧ (tm.src = .sup → lW j = 1 → lH j = 1 → lT j = 1 → lPair j = false →
          (∃ tm', teamOf t p.partn p.serial = some tm' ∧ tm'.started = true)
            ∧ ∃ x, threadOf t s.nextUid = some x ∧ t.nextUid = s.nextUid + 1
              ∧ x.partn = p.partn ∧ x.serial = p.serial ∧ x.tser = 0 ∧ x.sup = lSup j ∧ x.ltm = lLtm j
              ∧ x.tile = tileAt f p.ox p.oy ∧ x.slot = 0 ∧ x.stand = .inSlot ∧ x.pc = j.w0 ∧ x.readyAt = s.cycle + 1
              ∧ x.vn = lV j ∧ x.dwin = lWin j ∧ x.rows.length ≤ rowsFor (lV j) (lWin j)
              ∧ sget x 1 = j.w1 ∧ sget x 2 = 0 ∧ sget x 3 = BitVec.ofNat 64 (packCore p.ox p.oy)
              ∧ sget x 4 = BitVec.ofNat 64 (packCore 1 1) ∧ (∀ r : SReg, 5 ≤ r.val → sget x r = 0) ∧ x.sEmpty = 0
              ∧ x.inHandler = false ∧ x.tvec = 0 ∧ x.syto = 0x10000 ∧ x.rvto = 0x04000000
              ∧ (∀ u, u ≠ s.nextUid → threadOf t u = threadOf s u))

/-! ### Broadcasts and relocation (R15, R179, R205-R211) -/

/-- R15, R179, R205: a calend boundary makes its calend the current one, and DRAIN becomes the value reported at the
last boundary; with no broadcast due nothing else changes but the next report. A TSHD write whose reserved bits
are clear is announced two calends later at the earliest, and TSHD reads that calend; another write is ignored. -/
def Obligations.CalendTurns : Prop :=
  ∀ (s : State),
    (Acting s .calendBoundary → s.calend < s.tsc / 64 →
      ∃ t, exec .calendBoundary s = .next t ∧ t.calend = s.tsc / 64 ∧ (∀ b ∈ t.casts, s.tsc / 64 < b.calend)
        ∧ ((∀ b ∈ s.casts, s.tsc / 64 < b.calend) → t.casts = s.casts ∧ t.threads = s.threads ∧ t.mem = s.mem ∧ t.tiles = s.tiles
            ∧ ∀ n p, look s.parts n = some p → (partOf t n).drain = p.drainReport
                ∧ { partOf t n with drain := p.drain, drainReport := p.drainReport } = p))
    ∧ ∀ partn tile v, Acting s (.translationShootdown partn tile v) →
      (bits v 0 12 ≠ 0 ∨ bits v 46 2 ≠ 0 ∨ bits v 52 12 ≠ 0 ∨ (bits v 48 3 = 7 ∧ bit v 51 = false) →
        ∃ t, exec .translationShootdown s = .next t ∧ t = { s with act := none })
      ∧ (bits v 0 12 = 0 → bits v 46 2 = 0 → bits v 52 12 = 0 → bits v 48 3 ≠ 7 ∨ bit v 51 = true →
        ∃ t, exec .translationShootdown s = .next t ∧ ∃ b ∈ t.casts, b.kind = .shootdown partn v ∧ b.src = tile
          ∧ s.tsc / 64 + 2 ≤ b.calend ∧ (partOf t partn).tshs = b.calend ∧ (∀ x ∈ s.casts, x ∈ t.casts)
          ∧ t.threads = s.threads ∧ t.mem = s.mem)

/-- R207, R208, R210, R211, R213: RLCMD has outcome 3 while a move is under way on its tile and 1 where the block is not in the state
the action needs; a relocation has outcome 2 where RLDST is no valid destination, and else its move is under way;
retiring a stub vacates a forwarded block and forgets its stub; reinstating makes a vacated block present with a
count of zero. A move that is over leaves its block forwarded to the destination, which is present and lodged, and
no move under way unless another was queued; it goes by the maps of its start. RLOUT is set by the end of a move only where
no later write of RLCMD has set it (the model's choice, log 71). Evacuations queue a bank's blocks, and a pool supply sets
RLPW. -/
def Obligations.BlocksMove : Prop :=
  ∀ (s : State) (tile b : Nat),
    (∀ i mk, (i, mk) ∈ [(Instr.relocate, Act.relocate), (.retireStub, .retireStub), (.reinstate, .reinstate)] →
      Acting s (mk tile b) → (tileOf s tile).move.isSome = true →
      ∃ t, exec i s = .next t ∧ (tileOf t tile).rlout = 3 ∧ ∀ k j, blockAt t k j = blockAt s k j)
    ∧ (Acting s (.relocate tile b) → (tileOf s tile).move = none →
      ((blockAt s tile b).st ≠ .present → ∃ t, exec .relocate s = .next t ∧ (tileOf t tile).rlout = 1)
      ∧ ((blockAt s tile b).st = .present → ∀ n, partAt s tile = some n →
        (destOk s n tile b (tileOf s tile).rldst = false → ∃ t, exec .relocate s = .next t ∧ (tileOf t tile).rlout = 2)
        ∧ (destOk s n tile b (tileOf s tile).rldst = true →
          ∃ t m, exec .relocate s = .next t ∧ (tileOf t tile).move = some m ∧ m.block = b ∧ m.dest = (tileOf s tile).rldst
            ∧ m.partn = n ∧ m.since = s.tsc
            ∧ m.reason = 3 ∧ m.held = [] ∧ ∃ e ∈ t.agenda, s.cycle + 64 ≤ e.cycle ∧ e.act = .moveCompletion tile)))
    ∧ (Acting s (.retireStub tile b) → (tileOf s tile).move = none →
      ∃ t, exec .retireStub s = .next t ∧
        if (blockAt s tile b).st = .forwarded then
          (tileOf t tile).rlout = 0 ∧ blockAt t tile b = { blockAt s tile b with st := .vacated, stub := 0 }
        else (tileOf t tile).rlout = 1 ∧ blockAt t tile b = blockAt s tile b)
    ∧ (Acting s (.reinstate tile b) → (tileOf s tile).move = none →
      ∃ t, exec .reinstate s = .next t ∧
        if (blockAt s tile b).st = .vacated then
          (tileOf t tile).rlout = 0 ∧ blockAt t tile b = { blockAt s tile b with st := .present, lodged := false, count := 0 }
        else (tileOf t tile).rlout = 1 ∧ blockAt t tile b = blockAt s tile b)
    ∧ (∀ m f, Acting s (.moveCompletion tile) → (tileOf s tile).move = some m → mapAt s m.partn m.since = some f →
      let d := tileAt f (pX m.dest) (pY m.dest)
      d ≠ tile →
      ∃ t, exec .moveCompletion s = .next t
        ∧ (m.held = [] → (tileOf s tile).waiters = [] → (tileOf s tile).moves = [] → (tileOf s d).waiters = [] →
            (partOf s m.partn).rlgb = 0 → m.ack = none → m.block < 4096 → pOff m.dest < 2 ^ 20 → tile < 4096 → d < 4096 → s.MemOk →
            (tileOf t tile).move = none ∧ blockAt t tile m.block = { st := .forwarded, lodged := false, count := 0, stub := m.dest }
              ∧ blockAt t d (pOff m.dest / 256) = { st := .present, lodged := true, count := 0, stub := 0 }
              ∧ (m.reason = 3 → m.latest = true → (tileOf t tile).rlout = 0)
              ∧ ∀ k, k < 32 →
                wordAt t (keySpad d (256 * (pOff m.dest / 256)) + 8 * k) = wordAt s (keySpad tile (256 * m.block) + 8 * k)))
    ∧ (∀ banks, Acting s (.thermalEvacuation tile banks) →
      ∃ t, exec .thermalEvacuation s = .next t
        ∧ ((tileOf s tile).move.isSome = true → ∀ k ∈ banks, ∀ j, j < 256 → (blockAt s tile (256 * k + j)).st = .present →
            ∃ x ∈ (tileOf t tile).moves, x.2 = 256 * k + j))
    ∧ ∀ n v, Acting s (.poolSupply n v) → ∃ t, exec .poolSupply s = .next t
        ∧ ((∀ e ∈ s.tiles, e.2.moves = []) → t = modPart { s with act := none } n fun p => { p with rlpw := bits v 0 32 })

/-! ### Errors, sparing and containment (R412-R420) -/

/-- R207, R412-R414, R419: a corrected error is counted against its bank, up to 2^32 - 1, and one that meets the bank's
limit starts its evacuation (R207 says that the count passes the limit; that it is the error which meets it is the model's
choice, log 67); an uncorrectable one poisons what holds it. A controller counts the corrected errors of a row, and with the
fourth copies it into the lowest free spare of its bank, at once or once the copy under way is over; the copy over, the
spare serves the row in one step; an error in the spare makes it unusable, and the copy starts again into the next. How long
a copy takes is left free (log 91). -/
def Sys2Proof.Claims.ErrorsHandled : Prop :=
  ∀ (s : State),
    (∀ tile bank, Acting s (.correctedError tile bank) → Unhindered s ∨ (tileOf s tile).move.isSome = true →
      let c := corrOf (tileOf s tile) bank
      ∃ t, exec .correctedError s = .next t ∧ corrOf (tileOf t tile) bank = (min (c.1 + 1) 0xFFFFFFFF, c.2)
        ∧ (min (c.1 + 1) 0xFFFFFFFF ≠ c.2 → { t with tiles := s.tiles, act := s.act } = s)
        ∧ (min (c.1 + 1) 0xFFFFFFFF = c.2 → (tileOf s tile).move.isSome = true → ∀ j, j < 256 →
            (blockAt s tile (256 * bank + j)).st = .present → ∃ x ∈ (tileOf t tile).moves, x.2 = 256 * bank + j))
    ∧ (∀ k, Acting s (.uncorrectableError (.memory k)) →
      ∃ t, exec .uncorrectableError s = .next t ∧ wordPois t (k / 8 * 8) = true
        ∧ { t with poison := s.poison, act := s.act } = s ∧ ∀ w, w ≠ k / 8 * 8 → wordPois t w = wordPois s w)
    ∧ (∀ u th r, Acting s (.uncorrectableError (.scalar u r)) → threadOf s u = some th →
      ∃ t, exec .uncorrectableError s = .next t ∧ threadOf t u = some { th with sPois := th.sPois ||| (1#32 <<< r.val) }
        ∧ (∀ v, v ≠ u → threadOf t v = threadOf s v) ∧ { t with threads := s.threads, act := s.act } = s)
    ∧ (∀ ch bank row, Acting s (.rowSparing ch bank row) →
      let p := portOf s ch
      let n := lookD p.rowErrs (rowErrKey bank row) 0 + 1
      ∃ t, exec .rowSparing s = .next t ∧ lookD (portOf t ch).rowErrs (rowErrKey bank row) 0 = n
        ∧ (n ≠ 4 → t = modPort { s with act := none } ch fun p => { p with rowErrs := ins p.rowErrs (rowErrKey bank row) n })
        ∧ (n = 4 → p.copying.isSome = true → (portOf t ch).copying = p.copying ∧ (portOf t ch).toSpare = p.toSpare ++ [(bank, row)])
        ∧ (n = 4 → p.copying = none → ∀ k, freeSpare p bank = some k →
            (portOf t ch).copying = some { bank := bank, row := row, spare := k }
              ∧ ∃ e ∈ t.agenda, s.cycle < e.cycle ∧ e.act = .spareSwitch ch))
    ∧ ∀ ch c, (portOf s ch).copying = some c →
      (Acting s (.spareSwitch ch) →
        ∃ t, exec .spareSwitch s = .next t ∧ (portOf t ch).spared = (portOf s ch).spared ++ [(c.bank, c.row, c.spare)]
          ∧ ((portOf s ch).toSpare = [] → (portOf t ch).copying = none ∧ { t with ports := s.ports, act := s.act } = s))
      ∧ (Acting s (.spareRowError ch) →
        let q := { portOf s ch with badSpares := (portOf s ch).badSpares ++ [(c.bank, c.spare)] }
        ∃ t, exec .spareRowError s = .next t ∧ (portOf t ch).badSpares = q.badSpares
          ∧ (∀ k, freeSpare q c.bank = some k → (portOf t ch).copying = some { bank := c.bank, row := c.row, spare := k })
          ∧ (freeSpare q c.bank = none → q.toSpare = [] → (portOf t ch).copying = none))

/-- R416, R418: the reset of a fenced rectangle ends every team that has a thread in it, the threads inside at once, the
others as a terminate ends them; its deques are empty and its scratchpads are zero, full and not poisoned, and no other
memory changes. Unfencing it lets a scan place teams there again. That the reset is made at once in the fence's cycle is the
model's choice (log 36). -/
def Sys2Proof.Claims.Containment : Prop :=
  ∀ (s : State) (n r : Nat),
    let tiles := rectTiles s n (rectOf (partOf s n) r)
    (Acting s (.containmentReset n r) → (rectOf (partOf s n) r).fenced = true →
      Unhindered s ∨ (∀ q, (queueAt s n q).lqsv = 0) →
      ∃ t, exec .containmentReset s = .next t
        ∧ (∀ tile ∈ tiles, (tileOf t tile).deque = [] ∧ (tileOf t tile).move = none)
        ∧ (keysRise s.threads = true → (∀ e ∈ s.tiles, e.2.arrivals = []) →
            ∀ u th x, threadOf s u = some x → x.partn = n → x.tile ∈ tiles → th ∈ teamThreads t n x.serial →
              ∃ y, threadOf t th = some y ∧ y.ending = true)
        ∧ ((∀ e ∈ s.tiles, e.2.arrivals = []) →
            (∀ u th, threadOf t u = some th → th.partn = n → th.tile ∉ tiles)
              ∧ ((partOf s n).teams = [] → (∀ c ∈ s.clusters, c.2.cu.slots = []) →
                  (∀ tile ∈ tiles, tile < 4096 ∧ (tileOf s tile).waiters = [] ∧ (tileOf s tile).move = none) →
                  (∀ tile ∈ tiles, ∀ o, o < 2 ^ 20 → memGet t.mem (tile * 2 ^ 20 + o) = 0 ∧ tile * 2 ^ 20 + o ∉ t.empty
                    ∧ tile * 2 ^ 20 + o ∉ t.poison)
                  ∧ ∀ a, 2 ^ 40 ≤ a ∨ a / 2 ^ 20 ∉ tiles → memGet t.mem a = memGet s.mem a)))
    ∧ (Acting s (.unfence n r) →
      ∃ t, exec .unfence s = .next t ∧ (rectOf (partOf t n) r).fenced = false ∧ ScanSoon s t ∧ t.threads = s.threads ∧ t.mem = s.mem)

/-- R412-R420: errors, row sparing, containment and its end. -/
def Obligations.ErrorsAndContainment : Prop :=
  Sys2Proof.Claims.ErrorsHandled ∧ Sys2Proof.Claims.Containment

/-! ### Checkpoints, start-up, links and the host (R324, R421-R431) -/

namespace Sys2Proof.Claims

/-- What of the state a checkpoint controller does not touch when it only changes its own words. -/
def SameDevice (s t : State) : Prop :=
  { t with ckState := s.ckState, ckts := s.ckts, frozen := s.frozen, powerLost := s.powerLost, outbox := s.outbox,
           agenda := s.agenda, act := s.act } = s

/-- A message has left the device. -/
def Sent (s t : State) (m : OutMsg) : Prop := t.outbox = s.outbox ++ [m]

/-- Every listed byte lies in a place that the device has. -/
def InPlace (s : State) : Prop :=
  (∀ c ∈ s.mem, c.1 < 2 ^ 32 ∨ (2 ^ 40 ≤ c.1 ∧ c.1 < 2 ^ 40 + 48 * 2 ^ 33 ∧ (c.1 - 2 ^ 40) % 2 ^ 33 < portCap 0) ∨ 2 ^ 44 ≤ c.1)
    ∧ (∀ c ∈ s.acc, c.1 < 4096 * 32768) ∧ ∀ e ∈ s.tiles, e.1 < 4096 ∧ ∀ g ∈ e.2.pool, g.1 < 4096

end Sys2Proof.Claims

/-- R421-R423: a checkpoint freezes the device at its tick, keeps all that a partition sees, and is complete when its
image is written: execution resumes, or the module powers down where power was lost. A restore of tier one is made only of
a valid image and while no partition is live; an image is invalidated only while it is valid or has failed. That the image
is written in the first cycle in which nothing is in flight (log 62), that an action is ignored while another is under way
and in which states an image may be invalidated (log 63) are the model's choices. -/
def Obligations.Checkpoints : Prop :=
  ∀ (s : State),
    (Acting s .checkpointNow →
      ∃ t, exec .checkpointNow s = .next t
        ∧ (s.ckState = 1 ∨ s.ckState = 3 → t = { s with act := none })
        ∧ (s.ckState ≠ 1 → s.ckState ≠ 3 → t.ckState = 1 ∧ t.frozen = true ∧ t.ckts = BitVec.ofNat 64 s.tsc ∧ t.threads = s.threads
            ∧ t.tiles = s.tiles ∧ t.parts = s.parts ∧ t.acc = s.acc ∧ t.clusters = s.clusters
            ∧ (∃ e ∈ t.agenda, s.cycle < e.cycle ∧ e.act = .checkpointComplete)
            ∧ t.mem = s.mem))
    ∧ (Acting s .checkpointComplete →
      ((∃ e ∈ s.agenda, inFlight e.act = true) →
        ∃ t, exec .checkpointComplete s = .next t ∧ { t with agenda := s.agenda, act := s.act } = s
          ∧ ∃ e ∈ t.agenda, e.cycle = s.cycle + 1 ∧ e.act = .checkpointComplete)
      ∧ ((∀ e ∈ s.agenda, inFlight e.act = false) →
        ∃ t, exec .checkpointComplete s = .next t ∧ t.ckState = 2 ∧ t.frozen = s.powerLost ∧ t.threads = s.threads
          ∧ t.tiles = s.tiles ∧ t.parts = s.parts ∧ t.acc = s.acc ∧ t.clusters = s.clusters
          ∧ (s.MemOk → s.cipher = [] → (∀ a, inRetention a = false → a < 2 ^ 44 → memGet t.mem a = memGet s.mem a)
              ∧ (InPlace s → ∀ a, 2 ^ 40 ≤ a → a < 2 ^ 40 + portCap 0 → memGet t.mem (retentionKey (imgChan + (a - 2 ^ 40))) = memGet s.mem a))
          ∧ (s.powerLost = true → Sent s t .poweredDown) ∧ (s.powerLost = false → t.outbox = s.outbox)))
    ∧ (Acting s .modulePowerFailure →
      ∃ t, exec .modulePowerFailure s = .next t ∧ t.powerLost = true ∧ t.frozen = true ∧ t.threads = s.threads
        ∧ (s.ckState ≠ 1 → s.ckPower = true → t.ckState = 1) ∧ (s.ckState ≠ 1 → s.ckPower = false → Sent s t .poweredDown))
    ∧ (Acting s .restoreTierOne →
      ∃ t, exec .restoreTierOne s = .next t
        ∧ (s.ckState ≠ 2 ∨ (∃ e ∈ s.parts, e.2.frame.isSome = true) → t = { s with act := none })
        ∧ (s.ckState = 2 → (∀ e ∈ s.parts, e.2.frame = none) → t.ckState = 3 ∧ SameDevice s t
            ∧ ∃ e ∈ t.agenda, s.cycle < e.cycle ∧ e.act = .restoreTierOneComplete))
    ∧ (Acting s .restoreTierOneComplete →
      ∃ t, exec .restoreTierOneComplete s = .next t ∧ t.ckState = 2 ∧ t.threads = s.threads ∧ t.tiles = s.tiles ∧ t.parts = s.parts
        ∧ (s.MemOk → ∀ a, inTierOne a = false → memGet t.mem a = memGet s.mem a))
    ∧ (Acting s .invalidate →
      ∃ t, exec .invalidate s = .next t ∧ SameDevice s t
        ∧ t.ckState = if s.ckState = 2 ∨ s.ckState = 4 then 0 else s.ckState)

/-- R51, R372, R423, R430, R431: bring-up begins from the state of a reset: no thread and no partition, and every word
outside the retention region zero, full and not poisoned. It stops at the first step that fails, with its failure code, in
recovery mode where the firmware was not accepted, and else is over at step 7, with the links that trained up; an upload
that is signed and not older than the security version waits for the next reset whose firmware passes; a key whose words have
all been written to a partition's mailbox is installed. What the checkpoint state becomes at bring-up and what survives it
are the model's choices (log 86), and so is that the 196th word of a mailbox completes the key (log 10). -/
def Sys2Proof.Claims.StartUp : Prop :=
  ∀ (s : State),
    (∀ i, Acting s (.bringUp i) →
      ∃ t, exec .bringUp s = .next t ∧ t.threads = [] ∧ t.parts = [] ∧ t.tiles = [] ∧ t.clusters = []
        ∧ (s.MemOk → ∀ a, memGet t.mem a = if inRetention a then memGet s.mem a else 0)
        ∧ (∀ w, inRetention w = false → wordFull t w = true ∧ wordPois t w = false)
        ∧ t.ckState = (if s.ckState = 1 then 4 else if s.ckState = 3 then 2 else s.ckState)
        ∧ (∀ f, s.fwPending = some f → i.signature = true → i.rollback = true → t.fwVersion = f.version ∧ t.fwPending = none)
        ∧ (i.signature = false ∨ i.rollback = false → t.fwVersion = s.fwVersion ∧ t.fwPending = s.fwPending)
        ∧ t.fwMinSec = s.fwMinSec
        ∧ (i.signature = false → t.bootStep = 1 ∧ t.bootFail = 1 ∧ t.recovery = true)
        ∧ (i.signature = true → i.rollback = false → t.bootStep = 1 ∧ t.bootFail = 2 ∧ t.recovery = true)
        ∧ (i.signature = true → i.rollback = true → i.training = false → t.bootStep = 2 ∧ t.bootFail = 3)
        ∧ (i.signature = true → i.rollback = true → i.training = true → (∃ b ∈ i.bad, b = none) → t.bootStep = 4 ∧ t.bootFail = 4)
        ∧ (i.signature = true → i.rollback = true → i.training = true → (∀ b ∈ i.bad, b ≠ none) →
            t.bootStep = 7 ∧ t.bootFail = 0 ∧ t.recovery = false
              ∧ (∀ l ∈ i.links, (linkOf t l.link).state = 2)
              ∧ ((i.links.map (·.link)).Nodup → ∀ l ∈ i.links, linkOf t l.link
                  = { Link.reset with state := 2, width := l.width, rev := l.rev, partner := l.partner })
              ∧ ∀ k, (∀ l ∈ i.links, l.link ≠ k) → linkOf t k = Link.reset))
    ∧ (∀ f, Acting s (.firmwareUpload f) →
      ∃ t, exec .firmwareUpload s = .next t
        ∧ t.fwPending = (if f.signed = true ∧ s.fwMinSec ≤ f.security then some f else s.fwPending)
        ∧ { t with fwPending := s.fwPending, act := s.act } = s)
    ∧ (∀ (h : HostReq) n k v, Acting s (.hostBarAccess h) → h.fn = 0 → h.bar = 0 → s.bootFail = 0 → n < 16 → k < 196 →
      h.off = 6 * 0x800000 + 0x40000 + 0x1000 * n + 8 * k → h.write = some v →
      let box := ins (partOf s n).keybox k v
      ∃ t, exec .hostBarAccess s = .next t
        ∧ (box.length < 196 → t = modPart { s with act := none } n fun p => { p with keybox := box })
        ∧ (196 ≤ box.length → (partOf t n).keybox = []
            ∧ ∃ e ∈ t.agenda, e.cycle = s.cycle ∧ e.act = .keyInstall n (box.map (·.2))))
    ∧ ∀ n w, Acting s (.keyInstall n w) →
      ∃ t, exec .keyInstall s = .next t ∧ (partOf t n).pkey = true
        ∧ { partOf t n with pkey := (partOf s n).pkey, keyNo := (partOf s n).keyNo } = partOf s n
        ∧ (∀ k, k ≠ n → partOf t k = partOf s k) ∧ { t with parts := s.parts, nextId := s.nextId, act := s.act } = s

/-- R324, R424, R427-R429: eight failed replays of one flit retrain a link; a link that comes up serves unless it is disabled,
and one that goes down has no width; a peer's access is served like the partition's own, an addition lane by lane, and
answered; a host access inside a function's BAR0 reads or writes the unit's word, but of the histogram of a confidential
partition it reads only the sum over the buckets of each reason, in the place of the reason's bucket 0, and zeros (R411;
which words read zero and where the sums stand are the model's choice, log 59); a time-sync sets the ticks to be slewed. -/
def Sys2Proof.Claims.LinksAndHost : Prop :=
  ∀ (s : State),
    (∀ l again, Acting s (.flitReplay l again) →
      ∃ t, exec .flitReplay s = .next t ∧ (linkOf t l).replays = min ((linkOf s l).replays + 1) 0xFFFFFFFF
        ∧ (again = false → (linkOf t l).failed = 0 ∧ (linkOf t l).state = (linkOf s l).state)
        ∧ (again = true → (linkOf s l).failed < 7 →
            (linkOf t l).failed = (linkOf s l).failed + 1 ∧ (linkOf t l).state = (linkOf s l).state)
        ∧ (again = true → 7 ≤ (linkOf s l).failed → (linkOf t l).failed = 0 ∧ (linkOf t l).state = 1
            ∧ (linkOf t l).retrains = min ((linkOf s l).retrains + 1) 255))
    ∧ (∀ l w rev partner, Acting s (.peerLinkUp l w rev partner) →
      ∃ t, exec .peerLinkUp s = .next t
        ∧ linkOf t l = (if (linkOf s l).dis then linkOf s l
            else { linkOf s l with state := 2, width := w, rev := rev, partner := partner, failed := 0 })
        ∧ ∀ k, k ≠ l → linkOf t k = linkOf s k)
    ∧ (∀ l, Acting s (.peerLinkDown l) → Unhindered s →
      ∃ t, exec .peerLinkDown s = .next t ∧ linkOf t l = { linkOf s l with state := if (linkOf s l).dis then 3 else 0, width := 0 }
        ∧ ∀ k, k ≠ l → linkOf t k = linkOf s k)
    ∧ (∀ p, Acting s (.peerRequest p) → pKind p.ptr = 0 → Unhindered s →
      ∃ t, exec .peerRequest s = .next t
        ∧ (∀ s1 c i h, hwKey s p.partn p.ptr p.write.isSome false = (s1, .bad c i h) → Sent s t (.peerRefused p.partn p.ptr c i))
        ∧ (∀ k, hwKey s p.partn p.ptr p.write.isSome false = (s, .ok k) →
            (∀ v, p.write = some v → p.add = none → waitersAt s (k / 8 * 8) = [] → s.MemOk →
              Sent s t (.peerAck p.partn p.ptr) ∧ wordAt t (k / 8 * 8) = v ∧ wordFull t (k / 8 * 8) = true)
            ∧ (∀ v et, p.write = some v → p.add = some et → waitersAt s (k / 8 * 8) = [] → s.MemOk → wordPois s (k / 8 * 8) = false →
              Sent s t (.peerAck p.partn p.ptr) ∧ wordAt t (k / 8 * 8) = addLanes et (wordAt s (k / 8 * 8)) v
                ∧ wordFull t (k / 8 * 8) = true)
            ∧ (p.write = none → wordPois s (k / 8 * 8) = false →
              Sent s t (.peerRead p.partn p.ptr (wordAt s (k / 8 * 8))))))
    ∧ (∀ h, Acting s (.hostBarAccess h) → Unhindered s →
      ∃ t, exec .hostBarAccess s = .next t
        ∧ (let u := h.off / 0x800000
           let o := h.off % 0x800000
           h.fn = 0 → h.bar = 0 → s.bootFail = 0 → u ≤ 6 → u ≠ 1 → o < 0x100000 →
            (h.write = none → binsHidden s u o = false → Sent s t (.hostRead 0 0 h.off (devRead s u (o / 8 * 8))) ∧ t.mem = s.mem)
            ∧ ∀ v, h.write = some v → t = if u = 0 ∧ 0x80000 ≤ o then hfqWrite { s with act := none } (o / 8 * 8) v
                else devWrite { s with act := none } u (o / 8 * 8) v)
        ∧ (∀ d o, h.fn = 0 → h.bar = 0 → s.bootFail = 0 → d < 4 → h.off = (2 + d) * 0x800000 + o → o < 0x80018 →
            (histOf s d).conf = true ∨ (∃ f, frameOf s (histOf s d).hsel = some f ∧ f.conf = true) → h.write = none →
            Sent s t (.hostRead 0 0 h.off
              (if o < 0x80000 ∧ o / 8 % 4096 = 0 then BitVec.ofNat 64 (reasonSum (histOf s d) (o / 8 / 4096)) else 0)))
        ∧ (s.bootFail ≠ 0 → h.off ≠ 6 * 0x800000 → Sent s t (.hostAbort h.fn h.bar h.off)))
    ∧ ∀ d, Acting s (.timeSync d) →
      ∃ t, exec .timeSync s = .next t ∧ t = { s with slew := d, aligned := decide (d.natAbs ≤ 8), slewAt := s.tsc, act := none }

/-- R324, R372, R424, R427-R431: start-up, firmware, keys, links, peers and the host. -/
def Obligations.DeviceAndHost : Prop :=
  Sys2Proof.Claims.StartUp ∧ Sys2Proof.Claims.LinksAndHost

/-! ### Trace, debug and the fault queues (R150, R341, R373, R395-R411) -/

namespace Sys2Proof.Claims

/-- The trace unit's block of a partition. -/
def traceOf (s : State) (partn : Nat) : TraceBlk := (partOf s partn).trace

/-- A DCMD write has an outcome at once, and nothing else of the machine is changed. -/
def DcmdOnly (s t : State) (partn out : Nat) : Prop :=
  (traceOf t partn).dcmdOut = out ∧ { t with parts := s.parts, act := s.act } = s
    ∧ ∀ k, { partOf t k with trace := (partOf s k).trace } = partOf s k

/-- The threads of a list of names are free to go on, in steps or not; a thread after a debug fault is exempt. -/
def Freed (s t : State) (us : List Nat) (step : Bool) : Prop :=
  ∀ u ∈ us, ∀ th, threadOf s u = some th → ∃ x, threadOf t u = some x ∧ x.held = false
    ∧ (th.held = true → x.stepping = step ∧ x.exempt = (th.exempt || th.debugged) ∧ x.pc = th.pc ∧ x.s = th.s)

end Sys2Proof.Claims

/-- R400-R404: a hold of a team is under way until its threads are held; a release lets all of them go on; a step lets
a held thread execute one unit; each has outcome 1 where the TID names nothing of the partition, and a step has
outcome 3 where the thread is not held or another of its team steps. A cancel ends a step whose unit has parked; where no
step of the thread has parked, it has outcome 0 and changes nothing else (the model's choice, log 81). -/
def Obligations.HoldAndStep : Prop :=
  ∀ (s : State) (partn tid : Nat),
    (∀ i mk, (i, mk) ∈ [(Instr.hold, Act.hold), (.release, .release)] → Acting s (mk partn tid) → tidTeam s partn tid = none →
      ∃ t, exec i s = .next t ∧ DcmdOnly s t partn 1)
    ∧ (∀ i mk, (i, mk) ∈ [(Instr.step, Act.step), (.cancel, .cancel), (.releaseOne, .releaseOne)] → Acting s (mk partn tid) →
      withTid s partn tid = [] → ∃ t, exec i s = .next t ∧ DcmdOnly s t partn 1)
    ∧ (∀ n tm, Acting s (.hold partn tid) → tidTeam s partn tid = some n → teamOf s partn n = some tm →
      ∃ t, exec .hold s = .next t ∧ teamOf t partn n = some { tm with holding := true } ∧ (traceOf t partn).dcmdOut = 2
        ∧ t.threads = s.threads)
    ∧ (∀ n tm, Acting s (.release partn tid) → tidTeam s partn tid = some n → teamOf s partn n = some tm →
      ∃ t, exec .release s = .next t ∧ teamOf t partn n = some { tm with holding := false } ∧ (traceOf t partn).dcmdOut = 0
        ∧ Freed s t (teamThreads s partn n) false)
    ∧ (Acting s (.step partn tid) → withTid s partn tid ≠ [] →
      ((threadsOf s (withTid s partn tid)).all (·.held) = false
          ∨ (threadsOf s (teamThreads s partn (tidSerial tid))).any (·.stepping) = true →
        ∃ t, exec .step s = .next t ∧ DcmdOnly s t partn 3)
      ∧ ((threadsOf s (withTid s partn tid)).all (·.held) = true →
          (threadsOf s (teamThreads s partn (tidSerial tid))).any (·.stepping) = false →
        ∃ t, exec .step s = .next t ∧ (traceOf t partn).dcmdOut = 2 ∧ Freed s t (withTid s partn tid) true))
    ∧ (Acting s (.releaseOne partn tid) → withTid s partn tid ≠ [] →
      ∃ t, exec .releaseOne s = .next t ∧ (traceOf t partn).dcmdOut = 0 ∧ Freed s t (withTid s partn tid) false)
    ∧ (Acting s (.cancel partn tid) → withTid s partn tid ≠ [] →
      ∃ t, exec .cancel s = .next t ∧ (traceOf t partn).dcmdOut = 0
        ∧ ∀ u ∈ withTid s partn tid, ∀ th, threadOf s u = some th →
            (th.stepping = true → isParked s u th = true → ∃ x, threadOf t u = some x ∧ x.held = true ∧ x.stepping = false)
            ∧ (th.stepping = false ∨ isParked s u th = false → threadOf t u = some th))

/-- R396, R405, R406, R411: a write of an armed entry keeps the limits of its word, or is ignored; a debug window of a
thread that is neither held nor stopped ignores writes, and a write to a scalar's word of one that is held makes that
scalar full with the value; a dump without the partition's key, or to a place outside the host window, writes nothing (which
places it may go to is the model's choice, log 59). -/
def Sys2Proof.Claims.DebugWrites : Prop :=
  ∀ (s : State) (n : Nat),
    (∀ e w v, Acting s (.armedTaskEntryWrite n e w v) →
      (entryOk w v = false → ∃ t, exec .armedTaskEntryWrite s = .next t ∧ t = { s with act := none })
      ∧ (entryOk w v = true → ∃ t, exec .armedTaskEntryWrite s = .next t
          ∧ (∀ a b, lookD (lookD (traceOf t n).entries a []) b 0
              = if a = e ∧ b = w then v else lookD (lookD (traceOf s n).entries a []) b 0)
          ∧ { t with parts := s.parts, act := s.act } = s))
    ∧ (∀ tile off v, Acting s (.debugWindowWrite tile off v) →
      ∃ t, exec .debugWindowWrite s = .next t
        ∧ ∀ slot w u th, windowAt off = some (slot, w) → AtSlot s tile slot u th →
          (th.held = false → th.stopped = false → t = { s with act := none })
          ∧ (∀ (r : SReg), th.held = true → w = .first (8 * r.val) → r ≠ 0 →
              ∃ x, threadOf t u = some x ∧ sget x r = v ∧ sEmptyAt x r = false ∧ (∀ q, q ≠ r → sget x q = sget th q)
                ∧ x.pc = th.pc ∧ x.held = true))
    ∧ ∀ p, Acting s (.dump n p) →
      ∃ t, exec .dump s = .next t ∧ t.threads = s.threads
        ∧ ((partOf s n).pkey = false ∨ pKind p ≠ 5 → t = { s with act := none })

/-- R407-R410: arming a trigger sets its word without reserved bits and restarts its count (that a write which sets bit 7 is
ignored is the model's choice, log 81); a trigger moves to the state its conditions give; a pulse is taken once in its tick,
every core of its partition latching its record, and counted by dies that serve the partition; clearing a die's histogram
empties every bin; the oldest record that is due leaves the unit, no sooner than 512 ticks after its own. -/
def Sys2Proof.Claims.TraceActs : Prop :=
  ∀ (s : State) (n : Nat),
    (∀ k v, Acting s (.triggerArm n k v) →
      (bits v 10 54 ≠ 0 ∨ bit v 7 = true → ∃ t, exec .triggerArm s = .next t ∧ t = { s with act := none })
      ∧ (bits v 10 54 = 0 → bit v 7 = false →
        ∃ t, exec .triggerArm s = .next t
          ∧ trigOf (partOf t n) k = { trigOf (partOf s n) k with
              w0 := BitVec.ofNat 64 (bits v 0 7 + 256), marks := 0, startHit := none, stopHit := none }
          ∧ (∀ j, j ≠ k → trigOf (partOf t n) j = trigOf (partOf s n) j) ∧ { t with parts := s.parts, act := s.act } = s))
    ∧ (∀ k m, Acting s (.triggerTransition n k) → trigNext s (trigOf (partOf s n) k) = some m →
      ∃ t, exec .triggerTransition s = .next t ∧ bits (trigOf (partOf t n) k).w0 8 2 = m ∧ t.threads = s.threads ∧ t.mem = s.mem
        ∧ ∀ j, j ≠ k → trigOf (partOf t n) j = trigOf (partOf s n) j)
    ∧ (Acting s (.solsticePulse n) →
      ∃ t, exec .solsticePulse s = .next t ∧ (traceOf t n).lastPulse = some s.tsc ∧ t.threads = s.threads ∧ t.mem = s.mem
        ∧ (∀ tile ∈ partTiles s n, (tileOf t tile).sample = pulseRecord s tile (histOf s (dieOf tile)))
        ∧ (∀ d, (histOf s d).hsel ≠ n → histOf t d = histOf s d)
        ∧ ∀ d, (histOf t d).hsel = (histOf s d).hsel ∧ (histOf s d).htot ≤ (histOf t d).htot)
    ∧ (∀ die, Acting s (.histogramClear die) →
      ∃ t, exec .histogramClear s = .next t ∧ histOf t die = { histOf s die with bins := [], htot := 0, conf := false }
        ∧ (∀ d, d ≠ die → histOf t d = histOf s d) ∧ { t with hists := s.hists, act := s.act } = s)
    ∧ ∀ r, Acting s .traceRecordWrite → recordDue s = some r →
      Unhindered s → ∃ t, exec .traceRecordWrite s = .next t ∧ t.records = s.records.erase r ∧ t.threads = s.threads ∧ r.tick + 512 < s.tsc

/-- R396, R405-R411: armed entries, debug windows, triggers, pulses and records. -/
def Obligations.DebugAndTrace : Prop :=
  Sys2Proof.Claims.DebugWrites ∧ Sys2Proof.Claims.TraceActs

/-- R150-R152, R201, R210, R341, R373, R408: the fault-queue registers take their values, FQB and HFQB only an aligned
one, and the posting of held entries is tried again: the oldest goes into the ring once its tick has passed, no fault found
before it is on its way to its thread and the ring has room, and the write index moves on; a write to the host's memory that
ends in an error completion leaves the entry held. DIVS is cleared where its write holds a 1; a write in CTRL space acts
on the aligned word it addresses, but the host driver's queue is written by no thread. That an entry waits for such a fault
and not for a deferred or late one (log 87) and that a base of zero is taken (log 43) are the model's choices. -/
def Obligations.QueueRegisters : Prop :=
  ∀ (s : State) (n : Nat) (v : Word),
    (Acting s (.fqbWrite n v) →
      ∃ t, exec .fqbWrite s = .next t ∧ { t with parts := s.parts, act := s.act } = s
        ∧ partOf t n = if ringBaseOk v 64 then { partOf s n with fqb := v, fqNoted := false, fqStuck := false } else partOf s n)
    ∧ (Acting s (.fqrWrite n v) →
      ∃ t, exec .fqrWrite s = .next t ∧ { t with parts := s.parts, act := s.act } = s
        ∧ partOf t n = { partOf s n with fqr := bits v 0 32, fqStuck := false })
    ∧ (Acting s (.hfqbWrite v) →
      exec .hfqbWrite s = .next (if bits v 0 6 = 0 then { s with hfqb := v, hostStuck := false, act := none } else { s with act := none }))
    ∧ (Acting s (.hfqrWrite v) → exec .hfqrWrite s = .next { s with hfqr := bits v 0 32, hostStuck := false, act := none })
    ∧ (Acting s (.divsClear n v) →
      ∃ t, exec .divsClear s = .next t ∧ (partOf t n).divs = (partOf s n).divs &&& ~~~v &&& 0xFFFFFFFF#64 ∧ ScanSoon s t
        ∧ t.threads = s.threads ∧ t.mem = s.mem)
    ∧ (∀ u tile off, Acting s (.registerWrite (.tile u tile off) v) →
      ∃ t, exec .registerWrite s = .next t ∧ t = tileWrite { s with act := none } tile (off / 8 * 8) v
        ∧ (off = 0x5000 → (tileOf t tile).rldst = v)
        ∧ (off = 0x4100 → (tileOf t tile).orphan = { (tileOf s tile).orphan with count := bits v 0 32 })
        ∧ (∀ slot, off = 0x4000 + 8 * slot → slot < 16 → bits v 4 12 = 0 → bits v 0 4 = 1 →
            ∃ e ∈ t.agenda, e.cycle = s.cycle ∧ e.act = .resume tile slot (bits v 16 48)))
    ∧ (∀ e l, s.hostEnt = e :: l → s.hostStuck = false → hasRoom s.hfqb s.hfqn s.hfqw s.hfqr = true → e.tsc < s.tsc →
        earlierFault s e = false →
      ∃ t, postNext s = some t
        ∧ (Config.hostWriteFails s.fresh = true → t.hostStuck = true ∧ t.hostEnt = s.hostEnt ∧ t.hfqw = s.hfqw ∧ t.mem = s.mem)
        ∧ (Config.hostWriteFails s.fresh = false →
          t.hfqw = (s.hfqw + 1) % 2 ^ 32 ∧ t.hostEnt = l ∧ t.outbox = s.outbox ++ [.msix 0 s.hfqv]
            ∧ (s.MemOk → s.hfqb.toNat % 64 = 0 → ∀ k, k < 8 →
                wordAt t (keyHost (s.hfqb.toNat + 64 * (s.hfqw % s.hfqn)) + 8 * k) = e.words.getD k 0)))
    ∧ (∀ e l, (partOf s n).heldEnt = e :: l → (partOf s n).fqStuck = false → Unhindered s →
        hasRoom (partOf s n).fqb (partOf s n).fqn (partOf s n).fqw (partOf s n).fqr = true → e.tsc < s.tsc → earlierFault s e = false →
      (∀ k, k < 8 → ∃ j, hwKey s n (offBy (fqSlot (partOf s n)) (8 * k)) true false = (s, .ok j)) →
      ∃ t, partNext s n (partOf s n) = some t ∧ (partOf t n).fqw = ((partOf s n).fqw + 1) % 2 ^ 32 ∧ (partOf t n).heldEnt = l)
    ∧ ∀ u unit off, Acting s (.registerWrite (.dev u unit off) v) → Unhindered s →
      ∃ t, exec .registerWrite s = .next t ∧ t = devWrite { s with act := none } unit (off / 8 * 8) v
        ∧ (∀ d, d < 4 → unit = 2 + d → off = 0x80008 → (histOf t d).hbas = bits v 0 46)
        ∧ (unit = 0 → 0x80000 ≤ off → t = { s with act := none })

/-! ### Units, encodings, time and memory as a whole (R2, R14, R22-R41, R51, R67, R77, R78, R87, R430) -/

namespace Sys2Proof.Claims

/-- Word j of the unit at a thread's PC can be fetched (R87), and is w. -/
def CodeAt (s : State) (th : Thread) (j : Nat) (w : BitVec 32) : Prop :=
  let p := offBy th.pc (4 * j)
  (pKind p = 0 ∨ pKind p = 2 ∨ pKind p = 3 ∨ pKind p = 4) ∧ limitsOf s th.partn p = 0 ∧ pOff p % 4 = 0
    ∧ ∃ k, hwKey s th.partn p false true = (s, .ok k) ∧ wordPois s (k / 8 * 8) = false ∧ w = BitVec.ofNat 32 (memRead s.mem k 4)

/-- The next thing that happens is the issue of a thread's unit (R75, R78): nothing else is due, its core is the lowest
that may issue and it is the first ready thread of it. -/
def Issues (s : State) (t u : Nat) (th : Thread) : Prop :=
  s.tsc / 64 ≤ s.calend ∧ agendaDue s false = none ∧ s.frozen = false ∧ polled s = none ∧ quiet s = none ∧ arrivalDue s = none
    ∧ s.behind = none ∧ issueTile s = some t ∧ issueThread s t = some (u, th) ∧ th.late = []

/-- The state in which a unit of n words is executed. -/
def unitState (s : State) (t u : Nat) (th : Thread) (ws : List (BitVec 32)) : State :=
  let s0 := markPc { s with issueFrom := t + 1 } th
  { s0 with cur := some { uid := u, fpc := th.pc, npc := offBy th.pc (4 * ws.length), fx := fetchLat s0 th (offBy th.pc 0),
                          word := ws.getLastD 0, pos := ws.length - 1 } }

/-- The words of an instruction as the tables of the manual give them, and the instruction. -/
def sampleWords : List (List (BitVec 32) × Instr) :=
  [([0x00000000], .nop),
   ([0x04224800], .add 1 2 9),
   ([0xFE000012, 0x0862FFFF], .addi 3 2 0x12FFFF),
   ([0x1C200000], .lih 1 0 0),
   ([0x2BFFFFFF], .b 0x3FFFFFF),
   ([0x40A23010], .ldhu 5 2 16 .plain),
   ([0xFD800000, 0x40A26008], .ldd 5 2 8 .relaxed),
   ([0x68A63800], .dqpush 5 6 7)]

end Sys2Proof.Claims

/-- R25, R27-R33, R37, R87: every well-formed instruction decodes from its encoding to itself, in either mode, with every
operand at every value that the encoding admits, and takes no word more than its own. -/
def Obligations.DecodeOfEncode : Prop :=
  ∀ (i : Instr), i.wf = true → ∀ (sup : Bool) (rest : List (BitVec 32)), decode sup (encode i ++ rest) = some (i, rest)

/-- R23-R41, R389: words of the manual's tables decode to the instructions they stand for. -/
def Obligations.SampleWordsDecode : Prop := ∀ x ∈ sampleWords, decode false x.1 = some (x.2, [])

/-- R22, R27, R75, R78, R87: where the words at a thread's PC decode to an instruction, no page of them is missed and nothing
else is due first, the step is that instruction, executed for that thread, with the unit after it as what follows. -/
def Obligations.StepRunsUnit : Prop :=
  ∀ (s : State) (t u : Nat) (th : Thread) (ws : List (BitVec 32)) (i : Instr),
    Issues s t u th →
    let s0 := markPc { s with issueFrom := t + 1 } th
    fetchMisses s0 th = [] → breakHit s0 th th.pc = none → (∀ j w, ws[j]? = some w → CodeAt s0 th j w) → ws.length ≤ 3 →
    decodeUnit th.sup ws = .unit i ws.length →
    step s = exec i (unitState s t u th ws)

/-- R9, R27, R57, R140: an instruction that a word encodes never stops the machine: executed for a living thread it
has its effect, parks its thread, or takes a fault of the manual. Nothing of the table is refused. -/
def Obligations.UnitsRun : Prop :=
  (∀ (i : Instr) (s : State) (c : Cur) (th : Thread), i.wf = true → Executing s c th → ∃ t, exec i s = .next t)
  ∧ ∀ (i : Instr) (s : State) (r : Refusal), exec i s ≠ .refused r

/-- R2, R429: time never falls: a step stays in its cycle or goes to the next, and the time-stamp counter does not go
back. -/
def Obligations.TimeGoesOn : Prop :=
  ∀ (s t : State), step s = .next t → (t.cycle = s.cycle ∨ t.cycle = s.cycle + 1) ∧ s.tsc ≤ t.tsc

/-- R51, R290: every step keeps the byte memories in their one canonical form: a state that meets it is followed only by
states that do, whatever acts, units, engines or outside agents do in the step. -/
def Obligations.StepKeepsMemory : Prop := ∀ (s t : State), s.MemOk → step s = .next t → t.MemOk

/-- The maps of a state list their keys rising, and no access of an act has met a moving block: what the statements above
take of a state that no act is in hand of. -/
def Sys2Proof.Claims.Ordered (s : State) : Prop :=
  s.behind = none ∧ keysRise s.threads = true ∧ keysRise s.tiles = true ∧ keysRise s.parts = true ∧ keysRise s.clusters = true

/-- R202, R211: every step of a state that is in order leaves one that is: the maps of threads, tiles, partitions and
clusters list rising keys, each once, and an act that meets a moving block is put behind the move and not made halfway. -/
def Obligations.StepKeepsOrder : Prop := ∀ (s t : State), Ordered s → step s = .next t → Ordered t

/-- R51, R67, R71, R184, R283, R430: right after reset every word is zero, full and not poisoned, no partition is live and
no thread exists; the first thing that happens is bring-up. A thread's registers at reset are zero but for those whose
reset value the manual gives. The bring-up found in the model's reset state is the model's choice (log 11). -/
def Obligations.ResetState : Prop :=
  State.reset.MemOk ∧ Ordered State.reset ∧ (∀ a, memGet State.reset.mem a = 0) ∧ (∀ k, wordFull State.reset k = true ∧ wordPois State.reset k = false)
    ∧ (∀ n, (partOf State.reset n).pstate = 0 ∧ frameOf State.reset n = none) ∧ (∀ u, threadOf State.reset u = none)
    ∧ (∃ t, step State.reset = .next t ∧ t.bootStep = 7 ∧ t.bootFail = 0)
    ∧ (∀ r, sget Thread.reset r = 0) ∧ Thread.reset.tvec = 0 ∧ Thread.reset.meter.dmt = 0
    ∧ Thread.reset.meter.dml = BitVec.allOnes 64 ∧ Thread.reset.meter.cnt = true ∧ Thread.reset.meter.trap = false
    ∧ Thread.reset.dn.prc = 64 ∧ Thread.reset.dn.dslot = 2 ∧ Thread.reset.syto = 0x10000 ∧ Thread.reset.rvto = 0x4000000
    ∧ Thread.reset.lt.vend = BitVec.allOnes 64 ∧ Thread.reset.lt.vgdl = 256 ∧ Thread.reset.lt.zlk = 16
    ∧ ∀ t, (tileOf State.reset t).last = 15

/-- R67, R68, R69: s0 reads zero, p0 true and m0 all ones whatever is written to them, and they are always full; a
write to another register is read back, and leaves the others. An instruction that reads an empty register is not
issued: its thread parks at its unit until the register fills. -/
def Obligations.RegistersHold : Prop :=
  (∀ (th : Thread) (d r : SReg) (v : Word), sget (sset d v th) r = (if r = d ∧ d ≠ 0 then v else sget th r) ∧ sget th 0 = 0
    ∧ sEmptyAt (sset d v th) d = false ∧ sEmptyAt th 0 = false)
  ∧ (∀ (th : Thread) (d r : PReg) (v : Bool), pget (pset d v th) r = (if r = d ∧ d ≠ 0 then v else pget th r) ∧ pget th 0 = true)
  ∧ (∀ (th : Thread) (d r : MReg) (v : Word), mget (mset d v th) r = (if r = d ∧ d ≠ 0 then v else mget th r)
      ∧ mget th 0 = BitVec.allOnes 64)
  ∧ ∀ (s : State) (c : Cur) (th : Thread) (d a b : SReg), Executing s c th → sEmptyAt th a = true ∨ sEmptyAt th b = true →
      ∀ i ∈ [Instr.add d a b, .sub d a b, .mul d a b, .and d a b, .or d a b, .xor d a b, .min d a b, .sll d a b],
        ∃ t x n, exec i s = .next t ∧ threadOf t c.uid = some x ∧ x.wait = .issue n ∧ { x with wait := th.wait } = th ∧ Apart s t c
end

