-- ==== Sys2Proof/Laws/Maps.lean ====
section
/-! SUPPORT. Tables, sets and byte memories: a read after a write, what a write leaves alone, and that every memory
operation keeps the canonical form. -/

namespace Sys2Proof.Machine

/-! ### Tables -/

@[simp] theorem look_ins_self {α : Type} (m : AMap α) (k : Nat) (v : α) : look (ins m k v) k = some v := by
  induction m with
  | nil => simp [ins, look]
  | cons x t ih =>
    rcases x with ⟨j, w⟩
    simp only [ins]
    split
    · rw [look, if_neg (by omega)]; exact ih
    · split <;> simp [look]

theorem look_ins_of_ne {α : Type} (m : AMap α) (k j : Nat) (v : α) (h : j ≠ k) : look (ins m k v) j = look m j := by
  induction m with
  | nil => simp [ins, look, Ne.symm h]
  | cons x t ih =>
    rcases x with ⟨i, w⟩
    simp only [ins]
    split
    · simp only [look, ih]
    · split
      · rename_i h2; subst h2; simp [look, Ne.symm h]
      · simp [look, Ne.symm h]

theorem look_ins {α : Type} (m : AMap α) (k j : Nat) (v : α) :
    look (ins m k v) j = if j = k then some v else look m j := by
  split
  · subst j; simp
  · exact look_ins_of_ne m k j v ‹_›

@[simp] theorem lookD_ins_self {α : Type} (m : AMap α) (k : Nat) (v d : α) : lookD (ins m k v) k d = v := by
  simp [lookD]

theorem lookD_ins_of_ne {α : Type} (m : AMap α) (k j : Nat) (v d : α) (h : j ≠ k) :
    lookD (ins m k v) j d = lookD m j d := by simp [lookD, look_ins_of_ne m k j v h]

@[simp] theorem look_upd_self {α : Type} (m : AMap α) (k : Nat) (f : α → α) : look (upd m k f) k = (look m k).map f := by
  unfold upd; split <;> simp_all

theorem look_upd_of_ne {α : Type} (m : AMap α) (k j : Nat) (f : α → α) (h : j ≠ k) : look (upd m k f) j = look m j := by
  unfold upd; split
  · exact look_ins_of_ne m k j _ h
  · rfl

/-- An entry that stays first, or none, keeps the keys rising when a greater key is entered behind it. -/
theorem keysRise_cons_ins {α : Type} (j : Nat) (w : α) (m : AMap α) (k : Nat) (v : α)
    (h : keysRise ((j, w) :: m) = true) (hjk : j < k) (ih : keysRise (ins m k v) = true) :
    keysRise ((j, w) :: ins m k v) = true := by
  cases m with
  | nil => simp [ins, keysRise, hjk]
  | cons x t =>
    rcases x with ⟨i, z⟩
    simp only [keysRise, Bool.and_eq_true, decide_eq_true_eq] at h
    simp only [ins] at ih ⊢
    split
    · simp_all [keysRise]
    · split
      · simp_all [keysRise]
      · simp_all [keysRise]

/-- Setting an entry keeps the keys rising. -/
theorem keysRise_ins {α : Type} (m : AMap α) (k : Nat) (v : α) (h : keysRise m = true) : keysRise (ins m k v) = true := by
  induction m with
  | nil => rfl
  | cons x t ih =>
    rcases x with ⟨j, w⟩
    have ht : keysRise t = true := by
      cases t with
      | nil => rfl
      | cons y u => rcases y with ⟨i, z⟩; simp only [keysRise, Bool.and_eq_true] at h; exact h.2
    by_cases hjk : j < k
    · have := keysRise_cons_ins j w t k v h hjk (ih ht)
      simpa [ins, hjk] using this
    · by_cases hj : j = k
      · subst hj
        cases t with
        | nil => simp [ins, keysRise]
        | cons y u => rcases y with ⟨i, z⟩; simpa [ins, keysRise] using h
      · have : k < j := by omega
        simp only [ins, hjk, hj, if_false]
        simp only [keysRise, this, decide_true, Bool.true_and]
        exact h

/-! ### Sets of numbers -/

@[simp] theorem mem_setAdd (l : List Nat) (k j : Nat) : j ∈ setAdd l k ↔ j = k ∨ j ∈ l := by
  induction l with
  | nil => simp [setAdd]
  | cons i t ih =>
    simp only [setAdd]
    split
    · simp [ih]; tauto
    · split
      · rename_i h; subst h; simp
      · simp

/-! ### Byte memories -/

@[simp] theorem mem_setDel (l : List Nat) (k j : Nat) : j ∈ setDel l k ↔ j ≠ k ∧ j ∈ l := by
  induction l with
  | nil => simp [setDel]
  | cons x t ih =>
    by_cases h : x = k
    · subst h; simp only [setDel, if_true, ih, List.mem_cons]
      constructor
      · rintro ⟨a, b⟩; exact ⟨a, .inr b⟩
      · rintro ⟨a, b | b⟩
        · exact absurd b a
        · exact ⟨a, b⟩
    · simp only [setDel, if_neg h, List.mem_cons, ih]
      constructor
      · rintro (a | ⟨a, b⟩)
        · exact ⟨a ▸ h, .inl a⟩
        · exact ⟨a, .inr b⟩
      · rintro ⟨a, b | b⟩
        · exact .inl b
        · exact .inr ⟨a, b⟩

@[simp] theorem look_del_self {α : Type} (m : AMap α) (k : Nat) : look (del m k) k = none := by
  induction m with
  | nil => rfl
  | cons x t ih =>
    rcases x with ⟨j, w⟩
    by_cases h : j = k
    · simp [del, h, ih]
    · simp [del, look, h, ih]

theorem look_del_of_ne {α : Type} (m : AMap α) (k j : Nat) (h : j ≠ k) : look (del m k) j = look m j := by
  induction m with
  | nil => rfl
  | cons x t ih =>
    rcases x with ⟨i, w⟩
    by_cases hi : i = k
    · subst hi; simp [del, look, ih, Ne.symm h]
    · simp only [del, if_neg hi, look, ih]

@[simp] theorem memGet_memSet_self (m : List Host.Cell) (a : Nat) (b : Byte) (h : Memory.wf m = true) :
    memGet (memSet m a b) a = b := by
  induction m with
  | nil => by_cases hb : b = memDefault <;> simp [memSet, hb, memGet]
  | cons x t ih =>
    rcases x with ⟨j, v⟩
    have ht : Memory.wf t = true := by
      cases t with
      | nil => rfl
      | cons y u => rcases y with ⟨i, z⟩; simp only [Memory.wf, Bool.and_eq_true] at h; exact h.2
    simp only [memSet]
    split
    · rw [memGet, if_neg (by omega)]; exact ih ht
    · split
      · split
        · rename_i hj hb
          subst hj
          -- nothing behind lists the address
          have key : ∀ l : List Host.Cell, Memory.wf ((j, v) :: l) = true → memGet l j = memDefault := by
            intro l
            induction l with
            | nil => intro _; rfl
            | cons y u ihu =>
              rcases y with ⟨i, z⟩
              intro hw
              simp only [Memory.wf, Bool.and_eq_true, decide_eq_true_eq] at hw
              rw [memGet, if_neg (by omega)]
              refine ihu ?_
              cases u with
              | nil => simp [Memory.wf, hw.1.1]
              | cons q r =>
                rcases q with ⟨p, n⟩
                simp only [Memory.wf, Bool.and_eq_true, decide_eq_true_eq] at hw ⊢
                exact ⟨⟨hw.1.1, by omega⟩, hw.2.2⟩
          rw [key t h, hb]
        · simp [memGet]
      · split
        · rename_i hj1 hj2 hb
          have hlt : a < j := by omega
          have key : ∀ l : List Host.Cell, ∀ p n, a < p → Memory.wf ((p, n) :: l) = true → memGet ((p, n) :: l) a = memDefault := by
            intro l
            induction l with
            | nil => intro p n hp _; rw [memGet, if_neg (by omega)]; rfl
            | cons y u ihu =>
              rcases y with ⟨i, z⟩
              intro p n hp hw
              simp only [Memory.wf, Bool.and_eq_true, decide_eq_true_eq] at hw
              rw [memGet, if_neg (by omega)]
              exact ihu i z (by omega) hw.2
          rw [key t j v hlt h, hb]
        · simp [memGet]

theorem memGet_memSet_of_ne (m : List Host.Cell) (a c : Nat) (b : Byte) (hc : c ≠ a) : memGet (memSet m a b) c = memGet m c := by
  induction m with
  | nil => by_cases hb : b = memDefault <;> simp [memSet, hb, memGet, Ne.symm hc]
  | cons x t ih =>
    rcases x with ⟨j, v⟩
    simp only [memSet]
    split
    · simp only [memGet, ih]
    · split
      · rename_i hj
        subst hj
        split <;> simp [memGet, Ne.symm hc]
      · split
        · rfl
        · simp [memGet, Ne.symm hc]

/-- A rising memory that starts above an address keeps its form behind an entry at that address. -/
theorem wf_cons (j : Nat) (v : Byte) (t : List Host.Cell) (hv : v ≠ memDefault) (hj : ∀ x ∈ t, j < x.1)
    (ht : Memory.wf t = true) : Memory.wf ((j, v) :: t) = true := by
  cases t with
  | nil => simp [Memory.wf, hv]
  | cons y u =>
    rcases y with ⟨i, z⟩
    simp only [Memory.wf, Bool.and_eq_true, decide_eq_true_eq]
    exact ⟨⟨hv, hj (i, z) (by simp)⟩, ht⟩

/-- What the canonical form says of a memory with a first entry. -/
theorem wf_cons_iff (j : Nat) (v : Byte) (t : List Host.Cell) :
    Memory.wf ((j, v) :: t) = true ↔ v ≠ memDefault ∧ (∀ x ∈ t, j < x.1) ∧ Memory.wf t = true := by
  constructor
  · intro h
    induction t generalizing j v with
    | nil => simp_all [Memory.wf]
    | cons y u ih =>
      rcases y with ⟨i, z⟩
      simp only [Memory.wf, Bool.and_eq_true, decide_eq_true_eq] at h
      obtain ⟨⟨hv, hji⟩, hu⟩ := h
      refine ⟨hv, ?_, hu⟩
      intro x hx
      rcases List.mem_cons.mp hx with rfl | hx
      · exact hji
      · have := (ih i z hu).2.1 x hx
        omega
  · rintro ⟨hv, hj, ht⟩
    exact wf_cons j v t hv hj ht

/-- A byte that is set is the only address a memory may list beside those it listed. -/
theorem mem_memSet (m : List Host.Cell) (a : Nat) (b : Byte) (x : Host.Cell) (hx : x ∈ memSet m a b) : x.1 = a ∨ x ∈ m := by
  induction m with
  | nil => by_cases hb : b = memDefault <;> simp_all [memSet]
  | cons y t ih =>
    rcases y with ⟨j, v⟩
    simp only [memSet] at hx
    split at hx
    · rcases List.mem_cons.mp hx with rfl | hx
      · simp
      · rcases ih hx with h | h <;> simp [h]
    · split at hx
      · split at hx
        · exact .inr (List.mem_cons_of_mem _ hx)
        · rcases List.mem_cons.mp hx with rfl | hx
          · simp
          · exact .inr (List.mem_cons_of_mem _ hx)
      · split at hx
        · exact .inr hx
        · rcases List.mem_cons.mp hx with rfl | hx
          · simp
          · exact .inr hx

/-- Setting a byte keeps the canonical form. -/
theorem wf_memSet (m : List Host.Cell) (a : Nat) (b : Byte) (h : Memory.wf m = true) : Memory.wf (memSet m a b) = true := by
  induction m with
  | nil => by_cases hb : b = memDefault <;> simp [memSet, hb, Memory.wf]
  | cons y t ih =>
    rcases y with ⟨j, v⟩
    obtain ⟨hv, hj, ht⟩ := (wf_cons_iff j v t).mp h
    simp only [memSet]
    split
    · refine wf_cons j v _ hv ?_ (ih ht)
      intro x hx
      rcases mem_memSet t a b x hx with h1 | h1
      · omega
      · exact hj x h1
    · split
      · rename_i hja
        subst hja
        split
        · exact ht
        · exact wf_cons j b t ‹_› hj ht
      · split
        · exact h
        · refine wf_cons a b _ ‹_› ?_ h
          intro x hx
          rcases List.mem_cons.mp hx with rfl | hx
          · show a < j; omega
          · have := hj x hx; omega

/-- Storing a number keeps the canonical form. -/
theorem wf_memWrite (m : List Host.Cell) (a v n : Nat) (h : Memory.wf m = true) : Memory.wf (memWrite m a v n) = true := by
  induction n generalizing m a v with
  | zero => exact h
  | succ n ih => exact ih _ _ _ (wf_memSet m a _ h)

theorem wf_memPutWord (m : List Host.Cell) (a : Nat) (v : Word) (h : Memory.wf m = true) :
    Memory.wf (memPutWord m a v) = true := wf_memWrite m a v.toNat 8 h

/-- Dropping entries keeps the canonical form. -/
theorem wf_filter (m : List Host.Cell) (f : Host.Cell → Bool) (h : Memory.wf m = true) : Memory.wf (m.filter f) = true := by
  induction m with
  | nil => rfl
  | cons y t ih =>
    rcases y with ⟨j, v⟩
    obtain ⟨hv, hj, ht⟩ := (wf_cons_iff j v t).mp h
    simp only [List.filter_cons]
    split
    · exact wf_cons j v _ hv (fun x hx => hj x (List.mem_of_mem_filter hx)) (ih ht)
    · exact ih ht

/-- A store changes no byte outside its range. -/
theorem memGet_memWrite_of_out (m : List Host.Cell) (a v n c : Nat) (hc : c < a ∨ a + n ≤ c) :
    memGet (memWrite m a v n) c = memGet m c := by
  induction n generalizing m a v with
  | zero => rfl
  | succ n ih =>
    rw [memWrite, ih _ _ _ (by omega), memGet_memSet_of_ne _ _ _ _ (by omega)]

/-- A number that was stored is read back. -/
theorem memRead_memWrite (m : List Host.Cell) (a v n : Nat) (h : Memory.wf m = true) :
    memRead (memWrite m a v n) a n = v % 256 ^ n := by
  induction n generalizing m a v with
  | zero => simp [memRead, Nat.mod_one]
  | succ n ih =>
    have hg : memGet (memWrite (memSet m a (BitVec.ofNat 8 (v % 256))) (a + 1) (v / 256) n) a = BitVec.ofNat 8 (v % 256) := by
      rw [memGet_memWrite_of_out _ _ _ _ _ (by omega), memGet_memSet_self _ _ _ h]
    rw [memWrite, memRead, hg, ih _ _ _ (wf_memSet m a _ h)]
    have h1 : (BitVec.ofNat 8 (v % 256)).toNat = v % 256 := by simp
    rw [h1, Nat.pow_succ, Nat.mul_comm (256 ^ n) 256, Nat.mod_mul]

/-- A word that was stored is read back. -/
@[simp] theorem memWord_memPutWord (m : List Host.Cell) (a : Nat) (v : Word) (h : Memory.wf m = true) :
    memWord (memPutWord m a v) a = v := by
  have : v.toNat < 256 ^ 8 := v.isLt
  rw [memWord, memPutWord, memRead_memWrite m a v.toNat 8 h, Nat.mod_eq_of_lt this, BitVec.ofNat_toNat, BitVec.setWidth_eq]

/-- Bytes read outside a store are what they were. -/
theorem memRead_memWrite_of_out (m : List Host.Cell) (a v n c k : Nat) (hc : c + k ≤ a ∨ a + n ≤ c) :
    memRead (memWrite m a v n) c k = memRead m c k := by
  induction k generalizing c with
  | zero => rfl
  | succ k ih => rw [memRead, memRead, ih _ (by omega), memGet_memWrite_of_out _ _ _ _ _ (by omega)]

theorem memWord_memPutWord_of_out (m : List Host.Cell) (a c : Nat) (v : Word) (hc : c + 8 ≤ a ∨ a + 8 ≤ c) :
    memWord (memPutWord m a v) c = memWord m c := by
  simp [memWord, memPutWord, memRead_memWrite_of_out m a v.toNat 8 c 8 hc]

end Sys2Proof.Machine
end

