-- ==== Sys2Proof/Laws/State.lean ====
section
/-! SUPPORT. What each update of the state leaves as it was, one lemma per field. -/

namespace Sys2Proof.Machine

/-! ### `modTile` -/

@[simp] theorem modTile_cycle (s : State) (t : Nat) (f : Tile → Tile) : (modTile s t f).cycle = s.cycle := rfl
@[simp] theorem modTile_tsc (s : State) (t : Nat) (f : Tile → Tile) : (modTile s t f).tsc = s.tsc := rfl
@[simp] theorem modTile_slew (s : State) (t : Nat) (f : Tile → Tile) : (modTile s t f).slew = s.slew := rfl
@[simp] theorem modTile_slewAt (s : State) (t : Nat) (f : Tile → Tile) : (modTile s t f).slewAt = s.slewAt := rfl
@[simp] theorem modTile_aligned (s : State) (t : Nat) (f : Tile → Tile) : (modTile s t f).aligned = s.aligned := rfl
@[simp] theorem modTile_issueFrom (s : State) (t : Nat) (f : Tile → Tile) : (modTile s t f).issueFrom = s.issueFrom := rfl
@[simp] theorem modTile_agenda (s : State) (t : Nat) (f : Tile → Tile) : (modTile s t f).agenda = s.agenda := rfl
@[simp] theorem modTile_timers (s : State) (t : Nat) (f : Tile → Tile) : (modTile s t f).timers = s.timers := rfl
@[simp] theorem modTile_cur (s : State) (t : Nat) (f : Tile → Tile) : (modTile s t f).cur = s.cur := rfl
@[simp] theorem modTile_act (s : State) (t : Nat) (f : Tile → Tile) : (modTile s t f).act = s.act := rfl
@[simp] theorem modTile_behind (s : State) (t : Nat) (f : Tile → Tile) : (modTile s t f).behind = s.behind := rfl
@[simp] theorem modTile_fresh (s : State) (t : Nat) (f : Tile → Tile) : (modTile s t f).fresh = s.fresh := rfl
@[simp] theorem modTile_nextUid (s : State) (t : Nat) (f : Tile → Tile) : (modTile s t f).nextUid = s.nextUid := rfl
@[simp] theorem modTile_nextId (s : State) (t : Nat) (f : Tile → Tile) : (modTile s t f).nextId = s.nextId := rfl
@[simp] theorem modTile_threads (s : State) (t : Nat) (f : Tile → Tile) : (modTile s t f).threads = s.threads := rfl
@[simp] theorem modTile_ports (s : State) (t : Nat) (f : Tile → Tile) : (modTile s t f).ports = s.ports := rfl
@[simp] theorem modTile_clusters (s : State) (t : Nat) (f : Tile → Tile) : (modTile s t f).clusters = s.clusters := rfl
@[simp] theorem modTile_parts (s : State) (t : Nat) (f : Tile → Tile) : (modTile s t f).parts = s.parts := rfl
@[simp] theorem modTile_mem (s : State) (t : Nat) (f : Tile → Tile) : (modTile s t f).mem = s.mem := rfl
@[simp] theorem modTile_empty (s : State) (t : Nat) (f : Tile → Tile) : (modTile s t f).empty = s.empty := rfl
@[simp] theorem modTile_poison (s : State) (t : Nat) (f : Tile → Tile) : (modTile s t f).poison = s.poison := rfl
@[simp] theorem modTile_acc (s : State) (t : Nat) (f : Tile → Tile) : (modTile s t f).acc = s.acc := rfl
@[simp] theorem modTile_scanDue (s : State) (t : Nat) (f : Tile → Tile) : (modTile s t f).scanDue = s.scanDue := rfl
@[simp] theorem modTile_lastPlaced (s : State) (t : Nat) (f : Tile → Tile) : (modTile s t f).lastPlaced = s.lastPlaced := rfl
@[simp] theorem modTile_hists (s : State) (t : Nat) (f : Tile → Tile) : (modTile s t f).hists = s.hists := rfl
@[simp] theorem modTile_records (s : State) (t : Nat) (f : Tile → Tile) : (modTile s t f).records = s.records := rfl
@[simp] theorem modTile_hfqb (s : State) (t : Nat) (f : Tile → Tile) : (modTile s t f).hfqb = s.hfqb := rfl
@[simp] theorem modTile_hfqn (s : State) (t : Nat) (f : Tile → Tile) : (modTile s t f).hfqn = s.hfqn := rfl
@[simp] theorem modTile_hfqw (s : State) (t : Nat) (f : Tile → Tile) : (modTile s t f).hfqw = s.hfqw := rfl
@[simp] theorem modTile_hfqr (s : State) (t : Nat) (f : Tile → Tile) : (modTile s t f).hfqr = s.hfqr := rfl
@[simp] theorem modTile_hfqv (s : State) (t : Nat) (f : Tile → Tile) : (modTile s t f).hfqv = s.hfqv := rfl
@[simp] theorem modTile_hostStuck (s : State) (t : Nat) (f : Tile → Tile) : (modTile s t f).hostStuck = s.hostStuck := rfl
@[simp] theorem modTile_hostEnt (s : State) (t : Nat) (f : Tile → Tile) : (modTile s t f).hostEnt = s.hostEnt := rfl
@[simp] theorem modTile_casts (s : State) (t : Nat) (f : Tile → Tile) : (modTile s t f).casts = s.casts := rfl
@[simp] theorem modTile_substs (s : State) (t : Nat) (f : Tile → Tile) : (modTile s t f).substs = s.substs := rfl
@[simp] theorem modTile_calend (s : State) (t : Nat) (f : Tile → Tile) : (modTile s t f).calend = s.calend := rfl
@[simp] theorem modTile_bad (s : State) (t : Nat) (f : Tile → Tile) : (modTile s t f).bad = s.bad := rfl
@[simp] theorem modTile_cipher (s : State) (t : Nat) (f : Tile → Tile) : (modTile s t f).cipher = s.cipher := rfl
@[simp] theorem modTile_again (s : State) (t : Nat) (f : Tile → Tile) : (modTile s t f).again = s.again := rfl
@[simp] theorem modTile_ranking (s : State) (t : Nat) (f : Tile → Tile) : (modTile s t f).ranking = s.ranking := rfl
@[simp] theorem modTile_ckReserve (s : State) (t : Nat) (f : Tile → Tile) : (modTile s t f).ckReserve = s.ckReserve := rfl
@[simp] theorem modTile_ckState (s : State) (t : Nat) (f : Tile → Tile) : (modTile s t f).ckState = s.ckState := rfl
@[simp] theorem modTile_ckPower (s : State) (t : Nat) (f : Tile → Tile) : (modTile s t f).ckPower = s.ckPower := rfl
@[simp] theorem modTile_ckts (s : State) (t : Nat) (f : Tile → Tile) : (modTile s t f).ckts = s.ckts := rfl
@[simp] theorem modTile_frozen (s : State) (t : Nat) (f : Tile → Tile) : (modTile s t f).frozen = s.frozen := rfl
@[simp] theorem modTile_powerLost (s : State) (t : Nat) (f : Tile → Tile) : (modTile s t f).powerLost = s.powerLost := rfl
@[simp] theorem modTile_links (s : State) (t : Nat) (f : Tile → Tile) : (modTile s t f).links = s.links := rfl
@[simp] theorem modTile_bootStep (s : State) (t : Nat) (f : Tile → Tile) : (modTile s t f).bootStep = s.bootStep := rfl
@[simp] theorem modTile_bootFail (s : State) (t : Nat) (f : Tile → Tile) : (modTile s t f).bootFail = s.bootFail := rfl
@[simp] theorem modTile_recovery (s : State) (t : Nat) (f : Tile → Tile) : (modTile s t f).recovery = s.recovery := rfl
@[simp] theorem modTile_fwVersion (s : State) (t : Nat) (f : Tile → Tile) : (modTile s t f).fwVersion = s.fwVersion := rfl
@[simp] theorem modTile_fwMinSec (s : State) (t : Nat) (f : Tile → Tile) : (modTile s t f).fwMinSec = s.fwMinSec := rfl
@[simp] theorem modTile_fwPending (s : State) (t : Nat) (f : Tile → Tile) : (modTile s t f).fwPending = s.fwPending := rfl
@[simp] theorem modTile_outbox (s : State) (t : Nat) (f : Tile → Tile) : (modTile s t f).outbox = s.outbox := rfl

/-! ### `modPort` -/

@[simp] theorem modPort_cycle (s : State) (p : Nat) (f : Port → Port) : (modPort s p f).cycle = s.cycle := rfl
@[simp] theorem modPort_tsc (s : State) (p : Nat) (f : Port → Port) : (modPort s p f).tsc = s.tsc := rfl
@[simp] theorem modPort_slew (s : State) (p : Nat) (f : Port → Port) : (modPort s p f).slew = s.slew := rfl
@[simp] theorem modPort_slewAt (s : State) (p : Nat) (f : Port → Port) : (modPort s p f).slewAt = s.slewAt := rfl
@[simp] theorem modPort_aligned (s : State) (p : Nat) (f : Port → Port) : (modPort s p f).aligned = s.aligned := rfl
@[simp] theorem modPort_issueFrom (s : State) (p : Nat) (f : Port → Port) : (modPort s p f).issueFrom = s.issueFrom := rfl
@[simp] theorem modPort_agenda (s : State) (p : Nat) (f : Port → Port) : (modPort s p f).agenda = s.agenda := rfl
@[simp] theorem modPort_timers (s : State) (p : Nat) (f : Port → Port) : (modPort s p f).timers = s.timers := rfl
@[simp] theorem modPort_cur (s : State) (p : Nat) (f : Port → Port) : (modPort s p f).cur = s.cur := rfl
@[simp] theorem modPort_act (s : State) (p : Nat) (f : Port → Port) : (modPort s p f).act = s.act := rfl
@[simp] theorem modPort_behind (s : State) (p : Nat) (f : Port → Port) : (modPort s p f).behind = s.behind := rfl
@[simp] theorem modPort_fresh (s : State) (p : Nat) (f : Port → Port) : (modPort s p f).fresh = s.fresh := rfl
@[simp] theorem modPort_nextUid (s : State) (p : Nat) (f : Port → Port) : (modPort s p f).nextUid = s.nextUid := rfl
@[simp] theorem modPort_nextId (s : State) (p : Nat) (f : Port → Port) : (modPort s p f).nextId = s.nextId := rfl
@[simp] theorem modPort_threads (s : State) (p : Nat) (f : Port → Port) : (modPort s p f).threads = s.threads := rfl
@[simp] theorem modPort_tiles (s : State) (p : Nat) (f : Port → Port) : (modPort s p f).tiles = s.tiles := rfl
@[simp] theorem modPort_clusters (s : State) (p : Nat) (f : Port → Port) : (modPort s p f).clusters = s.clusters := rfl
@[simp] theorem modPort_parts (s : State) (p : Nat) (f : Port → Port) : (modPort s p f).parts = s.parts := rfl
@[simp] theorem modPort_mem (s : State) (p : Nat) (f : Port → Port) : (modPort s p f).mem = s.mem := rfl
@[simp] theorem modPort_empty (s : State) (p : Nat) (f : Port → Port) : (modPort s p f).empty = s.empty := rfl
@[simp] theorem modPort_poison (s : State) (p : Nat) (f : Port → Port) : (modPort s p f).poison = s.poison := rfl
@[simp] theorem modPort_acc (s : State) (p : Nat) (f : Port → Port) : (modPort s p f).acc = s.acc := rfl
@[simp] theorem modPort_scanDue (s : State) (p : Nat) (f : Port → Port) : (modPort s p f).scanDue = s.scanDue := rfl
@[simp] theorem modPort_lastPlaced (s : State) (p : Nat) (f : Port → Port) : (modPort s p f).lastPlaced = s.lastPlaced := rfl
@[simp] theorem modPort_hists (s : State) (p : Nat) (f : Port → Port) : (modPort s p f).hists = s.hists := rfl
@[simp] theorem modPort_records (s : State) (p : Nat) (f : Port → Port) : (modPort s p f).records = s.records := rfl
@[simp] theorem modPort_hfqb (s : State) (p : Nat) (f : Port → Port) : (modPort s p f).hfqb = s.hfqb := rfl
@[simp] theorem modPort_hfqn (s : State) (p : Nat) (f : Port → Port) : (modPort s p f).hfqn = s.hfqn := rfl
@[simp] theorem modPort_hfqw (s : State) (p : Nat) (f : Port → Port) : (modPort s p f).hfqw = s.hfqw := rfl
@[simp] theorem modPort_hfqr (s : State) (p : Nat) (f : Port → Port) : (modPort s p f).hfqr = s.hfqr := rfl
@[simp] theorem modPort_hfqv (s : State) (p : Nat) (f : Port → Port) : (modPort s p f).hfqv = s.hfqv := rfl
@[simp] theorem modPort_hostStuck (s : State) (p : Nat) (f : Port → Port) : (modPort s p f).hostStuck = s.hostStuck := rfl
@[simp] theorem modPort_hostEnt (s : State) (p : Nat) (f : Port → Port) : (modPort s p f).hostEnt = s.hostEnt := rfl
@[simp] theorem modPort_casts (s : State) (p : Nat) (f : Port → Port) : (modPort s p f).casts = s.casts := rfl
@[simp] theorem modPort_substs (s : State) (p : Nat) (f : Port → Port) : (modPort s p f).substs = s.substs := rfl
@[simp] theorem modPort_calend (s : State) (p : Nat) (f : Port → Port) : (modPort s p f).calend = s.calend := rfl
@[simp] theorem modPort_bad (s : State) (p : Nat) (f : Port → Port) : (modPort s p f).bad = s.bad := rfl
@[simp] theorem modPort_cipher (s : State) (p : Nat) (f : Port → Port) : (modPort s p f).cipher = s.cipher := rfl
@[simp] theorem modPort_again (s : State) (p : Nat) (f : Port → Port) : (modPort s p f).again = s.again := rfl
@[simp] theorem modPort_ranking (s : State) (p : Nat) (f : Port → Port) : (modPort s p f).ranking = s.ranking := rfl
@[simp] theorem modPort_ckReserve (s : State) (p : Nat) (f : Port → Port) : (modPort s p f).ckReserve = s.ckReserve := rfl
@[simp] theorem modPort_ckState (s : State) (p : Nat) (f : Port → Port) : (modPort s p f).ckState = s.ckState := rfl
@[simp] theorem modPort_ckPower (s : State) (p : Nat) (f : Port → Port) : (modPort s p f).ckPower = s.ckPower := rfl
@[simp] theorem modPort_ckts (s : State) (p : Nat) (f : Port → Port) : (modPort s p f).ckts = s.ckts := rfl
@[simp] theorem modPort_frozen (s : State) (p : Nat) (f : Port → Port) : (modPort s p f).frozen = s.frozen := rfl
@[simp] theorem modPort_powerLost (s : State) (p : Nat) (f : Port → Port) : (modPort s p f).powerLost = s.powerLost := rfl
@[simp] theorem modPort_links (s : State) (p : Nat) (f : Port → Port) : (modPort s p f).links = s.links := rfl
@[simp] theorem modPort_bootStep (s : State) (p : Nat) (f : Port → Port) : (modPort s p f).bootStep = s.bootStep := rfl
@[simp] theorem modPort_bootFail (s : State) (p : Nat) (f : Port → Port) : (modPort s p f).bootFail = s.bootFail := rfl
@[simp] theorem modPort_recovery (s : State) (p : Nat) (f : Port → Port) : (modPort s p f).recovery = s.recovery := rfl
@[simp] theorem modPort_fwVersion (s : State) (p : Nat) (f : Port → Port) : (modPort s p f).fwVersion = s.fwVersion := rfl
@[simp] theorem modPort_fwMinSec (s : State) (p : Nat) (f : Port → Port) : (modPort s p f).fwMinSec = s.fwMinSec := rfl
@[simp] theorem modPort_fwPending (s : State) (p : Nat) (f : Port → Port) : (modPort s p f).fwPending = s.fwPending := rfl
@[simp] theorem modPort_outbox (s : State) (p : Nat) (f : Port → Port) : (modPort s p f).outbox = s.outbox := rfl

/-! ### `modCluster` -/

@[simp] theorem modCluster_cycle (s : State) (c : Nat) (f : Cluster → Cluster) : (modCluster s c f).cycle = s.cycle := rfl
@[simp] theorem modCluster_tsc (s : State) (c : Nat) (f : Cluster → Cluster) : (modCluster s c f).tsc = s.tsc := rfl
@[simp] theorem modCluster_slew (s : State) (c : Nat) (f : Cluster → Cluster) : (modCluster s c f).slew = s.slew := rfl
@[simp] theorem modCluster_slewAt (s : State) (c : Nat) (f : Cluster → Cluster) : (modCluster s c f).slewAt = s.slewAt := rfl
@[simp] theorem modCluster_aligned (s : State) (c : Nat) (f : Cluster → Cluster) : (modCluster s c f).aligned = s.aligned := rfl
@[simp] theorem modCluster_issueFrom (s : State) (c : Nat) (f : Cluster → Cluster) : (modCluster s c f).issueFrom = s.issueFrom := rfl
@[simp] theorem modCluster_agenda (s : State) (c : Nat) (f : Cluster → Cluster) : (modCluster s c f).agenda = s.agenda := rfl
@[simp] theorem modCluster_timers (s : State) (c : Nat) (f : Cluster → Cluster) : (modCluster s c f).timers = s.timers := rfl
@[simp] theorem modCluster_cur (s : State) (c : Nat) (f : Cluster → Cluster) : (modCluster s c f).cur = s.cur := rfl
@[simp] theorem modCluster_act (s : State) (c : Nat) (f : Cluster → Cluster) : (modCluster s c f).act = s.act := rfl
@[simp] theorem modCluster_behind (s : State) (c : Nat) (f : Cluster → Cluster) : (modCluster s c f).behind = s.behind := rfl
@[simp] theorem modCluster_fresh (s : State) (c : Nat) (f : Cluster → Cluster) : (modCluster s c f).fresh = s.fresh := rfl
@[simp] theorem modCluster_nextUid (s : State) (c : Nat) (f : Cluster → Cluster) : (modCluster s c f).nextUid = s.nextUid := rfl
@[simp] theorem modCluster_nextId (s : State) (c : Nat) (f : Cluster → Cluster) : (modCluster s c f).nextId = s.nextId := rfl
@[simp] theorem modCluster_threads (s : State) (c : Nat) (f : Cluster → Cluster) : (modCluster s c f).threads = s.threads := rfl
@[simp] theorem modCluster_tiles (s : State) (c : Nat) (f : Cluster → Cluster) : (modCluster s c f).tiles = s.tiles := rfl
@[simp] theorem modCluster_ports (s : State) (c : Nat) (f : Cluster → Cluster) : (modCluster s c f).ports = s.ports := rfl
@[simp] theorem modCluster_parts (s : State) (c : Nat) (f : Cluster → Cluster) : (modCluster s c f).parts = s.parts := rfl
@[simp] theorem modCluster_mem (s : State) (c : Nat) (f : Cluster → Cluster) : (modCluster s c f).mem = s.mem := rfl
@[simp] theorem modCluster_empty (s : State) (c : Nat) (f : Cluster → Cluster) : (modCluster s c f).empty = s.empty := rfl
@[simp] theorem modCluster_poison (s : State) (c : Nat) (f : Cluster → Cluster) : (modCluster s c f).poison = s.poison := rfl
@[simp] theorem modCluster_acc (s : State) (c : Nat) (f : Cluster → Cluster) : (modCluster s c f).acc = s.acc := rfl
@[simp] theorem modCluster_scanDue (s : State) (c : Nat) (f : Cluster → Cluster) : (modCluster s c f).scanDue = s.scanDue := rfl
@[simp] theorem modCluster_lastPlaced (s : State) (c : Nat) (f : Cluster → Cluster) : (modCluster s c f).lastPlaced = s.lastPlaced := rfl
@[simp] theorem modCluster_hists (s : State) (c : Nat) (f : Cluster → Cluster) : (modCluster s c f).hists = s.hists := rfl
@[simp] theorem modCluster_records (s : State) (c : Nat) (f : Cluster → Cluster) : (modCluster s c f).records = s.records := rfl
@[simp] theorem modCluster_hfqb (s : State) (c : Nat) (f : Cluster → Cluster) : (modCluster s c f).hfqb = s.hfqb := rfl
@[simp] theorem modCluster_hfqn (s : State) (c : Nat) (f : Cluster → Cluster) : (modCluster s c f).hfqn = s.hfqn := rfl
@[simp] theorem modCluster_hfqw (s : State) (c : Nat) (f : Cluster → Cluster) : (modCluster s c f).hfqw = s.hfqw := rfl
@[simp] theorem modCluster_hfqr (s : State) (c : Nat) (f : Cluster → Cluster) : (modCluster s c f).hfqr = s.hfqr := rfl
@[simp] theorem modCluster_hfqv (s : State) (c : Nat) (f : Cluster → Cluster) : (modCluster s c f).hfqv = s.hfqv := rfl
@[simp] theorem modCluster_hostStuck (s : State) (c : Nat) (f : Cluster → Cluster) : (modCluster s c f).hostStuck = s.hostStuck := rfl
@[simp] theorem modCluster_hostEnt (s : State) (c : Nat) (f : Cluster → Cluster) : (modCluster s c f).hostEnt = s.hostEnt := rfl
@[simp] theorem modCluster_casts (s : State) (c : Nat) (f : Cluster → Cluster) : (modCluster s c f).casts = s.casts := rfl
@[simp] theorem modCluster_substs (s : State) (c : Nat) (f : Cluster → Cluster) : (modCluster s c f).substs = s.substs := rfl
@[simp] theorem modCluster_calend (s : State) (c : Nat) (f : Cluster → Cluster) : (modCluster s c f).calend = s.calend := rfl
@[simp] theorem modCluster_bad (s : State) (c : Nat) (f : Cluster → Cluster) : (modCluster s c f).bad = s.bad := rfl
@[simp] theorem modCluster_cipher (s : State) (c : Nat) (f : Cluster → Cluster) : (modCluster s c f).cipher = s.cipher := rfl
@[simp] theorem modCluster_again (s : State) (c : Nat) (f : Cluster → Cluster) : (modCluster s c f).again = s.again := rfl
@[simp] theorem modCluster_ranking (s : State) (c : Nat) (f : Cluster → Cluster) : (modCluster s c f).ranking = s.ranking := rfl
@[simp] theorem modCluster_ckReserve (s : State) (c : Nat) (f : Cluster → Cluster) : (modCluster s c f).ckReserve = s.ckReserve := rfl
@[simp] theorem modCluster_ckState (s : State) (c : Nat) (f : Cluster → Cluster) : (modCluster s c f).ckState = s.ckState := rfl
@[simp] theorem modCluster_ckPower (s : State) (c : Nat) (f : Cluster → Cluster) : (modCluster s c f).ckPower = s.ckPower := rfl
@[simp] theorem modCluster_ckts (s : State) (c : Nat) (f : Cluster → Cluster) : (modCluster s c f).ckts = s.ckts := rfl
@[simp] theorem modCluster_frozen (s : State) (c : Nat) (f : Cluster → Cluster) : (modCluster s c f).frozen = s.frozen := rfl
@[simp] theorem modCluster_powerLost (s : State) (c : Nat) (f : Cluster → Cluster) : (modCluster s c f).powerLost = s.powerLost := rfl
@[simp] theorem modCluster_links (s : State) (c : Nat) (f : Cluster → Cluster) : (modCluster s c f).links = s.links := rfl
@[simp] theorem modCluster_bootStep (s : State) (c : Nat) (f : Cluster → Cluster) : (modCluster s c f).bootStep = s.bootStep := rfl
@[simp] theorem modCluster_bootFail (s : State) (c : Nat) (f : Cluster → Cluster) : (modCluster s c f).bootFail = s.bootFail := rfl
@[simp] theorem modCluster_recovery (s : State) (c : Nat) (f : Cluster → Cluster) : (modCluster s c f).recovery = s.recovery := rfl
@[simp] theorem modCluster_fwVersion (s : State) (c : Nat) (f : Cluster → Cluster) : (modCluster s c f).fwVersion = s.fwVersion := rfl
@[simp] theorem modCluster_fwMinSec (s : State) (c : Nat) (f : Cluster → Cluster) : (modCluster s c f).fwMinSec = s.fwMinSec := rfl
@[simp] theorem modCluster_fwPending (s : State) (c : Nat) (f : Cluster → Cluster) : (modCluster s c f).fwPending = s.fwPending := rfl
@[simp] theorem modCluster_outbox (s : State) (c : Nat) (f : Cluster → Cluster) : (modCluster s c f).outbox = s.outbox := rfl

/-! ### `modPart` -/

@[simp] theorem modPart_cycle (s : State) (p : Nat) (f : Partition → Partition) : (modPart s p f).cycle = s.cycle := rfl
@[simp] theorem modPart_tsc (s : State) (p : Nat) (f : Partition → Partition) : (modPart s p f).tsc = s.tsc := rfl
@[simp] theorem modPart_slew (s : State) (p : Nat) (f : Partition → Partition) : (modPart s p f).slew = s.slew := rfl
@[simp] theorem modPart_slewAt (s : State) (p : Nat) (f : Partition → Partition) : (modPart s p f).slewAt = s.slewAt := rfl
@[simp] theorem modPart_aligned (s : State) (p : Nat) (f : Partition → Partition) : (modPart s p f).aligned = s.aligned := rfl
@[simp] theorem modPart_issueFrom (s : State) (p : Nat) (f : Partition → Partition) : (modPart s p f).issueFrom = s.issueFrom := rfl
@[simp] theorem modPart_agenda (s : State) (p : Nat) (f : Partition → Partition) : (modPart s p f).agenda = s.agenda := rfl
@[simp] theorem modPart_timers (s : State) (p : Nat) (f : Partition → Partition) : (modPart s p f).timers = s.timers := rfl
@[simp] theorem modPart_cur (s : State) (p : Nat) (f : Partition → Partition) : (modPart s p f).cur = s.cur := rfl
@[simp] theorem modPart_act (s : State) (p : Nat) (f : Partition → Partition) : (modPart s p f).act = s.act := rfl
@[simp] theorem modPart_behind (s : State) (p : Nat) (f : Partition → Partition) : (modPart s p f).behind = s.behind := rfl
@[simp] theorem modPart_fresh (s : State) (p : Nat) (f : Partition → Partition) : (modPart s p f).fresh = s.fresh := rfl
@[simp] theorem modPart_nextUid (s : State) (p : Nat) (f : Partition → Partition) : (modPart s p f).nextUid = s.nextUid := rfl
@[simp] theorem modPart_nextId (s : State) (p : Nat) (f : Partition → Partition) : (modPart s p f).nextId = s.nextId := rfl
@[simp] theorem modPart_threads (s : State) (p : Nat) (f : Partition → Partition) : (modPart s p f).threads = s.threads := rfl
@[simp] theorem modPart_tiles (s : State) (p : Nat) (f : Partition → Partition) : (modPart s p f).tiles = s.tiles := rfl
@[simp] theorem modPart_ports (s : State) (p : Nat) (f : Partition → Partition) : (modPart s p f).ports = s.ports := rfl
@[simp] theorem modPart_clusters (s : State) (p : Nat) (f : Partition → Partition) : (modPart s p f).clusters = s.clusters := rfl
@[simp] theorem modPart_mem (s : State) (p : Nat) (f : Partition → Partition) : (modPart s p f).mem = s.mem := rfl
@[simp] theorem modPart_empty (s : State) (p : Nat) (f : Partition → Partition) : (modPart s p f).empty = s.empty := rfl
@[simp] theorem modPart_poison (s : State) (p : Nat) (f : Partition → Partition) : (modPart s p f).poison = s.poison := rfl
@[simp] theorem modPart_acc (s : State) (p : Nat) (f : Partition → Partition) : (modPart s p f).acc = s.acc := rfl
@[simp] theorem modPart_scanDue (s : State) (p : Nat) (f : Partition → Partition) : (modPart s p f).scanDue = s.scanDue := rfl
@[simp] theorem modPart_lastPlaced (s : State) (p : Nat) (f : Partition → Partition) : (modPart s p f).lastPlaced = s.lastPlaced := rfl
@[simp] theorem modPart_hists (s : State) (p : Nat) (f : Partition → Partition) : (modPart s p f).hists = s.hists := rfl
@[simp] theorem modPart_records (s : State) (p : Nat) (f : Partition → Partition) : (modPart s p f).records = s.records := rfl
@[simp] theorem modPart_hfqb (s : State) (p : Nat) (f : Partition → Partition) : (modPart s p f).hfqb = s.hfqb := rfl
@[simp] theorem modPart_hfqn (s : State) (p : Nat) (f : Partition → Partition) : (modPart s p f).hfqn = s.hfqn := rfl
@[simp] theorem modPart_hfqw (s : State) (p : Nat) (f : Partition → Partition) : (modPart s p f).hfqw = s.hfqw := rfl
@[simp] theorem modPart_hfqr (s : State) (p : Nat) (f : Partition → Partition) : (modPart s p f).hfqr = s.hfqr := rfl
@[simp] theorem modPart_hfqv (s : State) (p : Nat) (f : Partition → Partition) : (modPart s p f).hfqv = s.hfqv := rfl
@[simp] theorem modPart_hostStuck (s : State) (p : Nat) (f : Partition → Partition) : (modPart s p f).hostStuck = s.hostStuck := rfl
@[simp] theorem modPart_hostEnt (s : State) (p : Nat) (f : Partition → Partition) : (modPart s p f).hostEnt = s.hostEnt := rfl
@[simp] theorem modPart_casts (s : State) (p : Nat) (f : Partition → Partition) : (modPart s p f).casts = s.casts := rfl
@[simp] theorem modPart_substs (s : State) (p : Nat) (f : Partition → Partition) : (modPart s p f).substs = s.substs := rfl
@[simp] theorem modPart_calend (s : State) (p : Nat) (f : Partition → Partition) : (modPart s p f).calend = s.calend := rfl
@[simp] theorem modPart_bad (s : State) (p : Nat) (f : Partition → Partition) : (modPart s p f).bad = s.bad := rfl
@[simp] theorem modPart_cipher (s : State) (p : Nat) (f : Partition → Partition) : (modPart s p f).cipher = s.cipher := rfl
@[simp] theorem modPart_again (s : State) (p : Nat) (f : Partition → Partition) : (modPart s p f).again = s.again := rfl
@[simp] theorem modPart_ranking (s : State) (p : Nat) (f : Partition → Partition) : (modPart s p f).ranking = s.ranking := rfl
@[simp] theorem modPart_ckReserve (s : State) (p : Nat) (f : Partition → Partition) : (modPart s p f).ckReserve = s.ckReserve := rfl
@[simp] theorem modPart_ckState (s : State) (p : Nat) (f : Partition → Partition) : (modPart s p f).ckState = s.ckState := rfl
@[simp] theorem modPart_ckPower (s : State) (p : Nat) (f : Partition → Partition) : (modPart s p f).ckPower = s.ckPower := rfl
@[simp] theorem modPart_ckts (s : State) (p : Nat) (f : Partition → Partition) : (modPart s p f).ckts = s.ckts := rfl
@[simp] theorem modPart_frozen (s : State) (p : Nat) (f : Partition → Partition) : (modPart s p f).frozen = s.frozen := rfl
@[simp] theorem modPart_powerLost (s : State) (p : Nat) (f : Partition → Partition) : (modPart s p f).powerLost = s.powerLost := rfl
@[simp] theorem modPart_links (s : State) (p : Nat) (f : Partition → Partition) : (modPart s p f).links = s.links := rfl
@[simp] theorem modPart_bootStep (s : State) (p : Nat) (f : Partition → Partition) : (modPart s p f).bootStep = s.bootStep := rfl
@[simp] theorem modPart_bootFail (s : State) (p : Nat) (f : Partition → Partition) : (modPart s p f).bootFail = s.bootFail := rfl
@[simp] theorem modPart_recovery (s : State) (p : Nat) (f : Partition → Partition) : (modPart s p f).recovery = s.recovery := rfl
@[simp] theorem modPart_fwVersion (s : State) (p : Nat) (f : Partition → Partition) : (modPart s p f).fwVersion = s.fwVersion := rfl
@[simp] theorem modPart_fwMinSec (s : State) (p : Nat) (f : Partition → Partition) : (modPart s p f).fwMinSec = s.fwMinSec := rfl
@[simp] theorem modPart_fwPending (s : State) (p : Nat) (f : Partition → Partition) : (modPart s p f).fwPending = s.fwPending := rfl
@[simp] theorem modPart_outbox (s : State) (p : Nat) (f : Partition → Partition) : (modPart s p f).outbox = s.outbox := rfl

/-! ### `modThread` -/

@[simp] theorem modThread_cycle (s : State) (u : Nat) (f : Thread → Thread) : (modThread s u f).cycle = s.cycle := rfl
@[simp] theorem modThread_tsc (s : State) (u : Nat) (f : Thread → Thread) : (modThread s u f).tsc = s.tsc := rfl
@[simp] theorem modThread_slew (s : State) (u : Nat) (f : Thread → Thread) : (modThread s u f).slew = s.slew := rfl
@[simp] theorem modThread_slewAt (s : State) (u : Nat) (f : Thread → Thread) : (modThread s u f).slewAt = s.slewAt := rfl
@[simp] theorem modThread_aligned (s : State) (u : Nat) (f : Thread → Thread) : (modThread s u f).aligned = s.aligned := rfl
@[simp] theorem modThread_issueFrom (s : State) (u : Nat) (f : Thread → Thread) : (modThread s u f).issueFrom = s.issueFrom := rfl
@[simp] theorem modThread_agenda (s : State) (u : Nat) (f : Thread → Thread) : (modThread s u f).agenda = s.agenda := rfl
@[simp] theorem modThread_timers (s : State) (u : Nat) (f : Thread → Thread) : (modThread s u f).timers = s.timers := rfl
@[simp] theorem modThread_cur (s : State) (u : Nat) (f : Thread → Thread) : (modThread s u f).cur = s.cur := rfl
@[simp] theorem modThread_act (s : State) (u : Nat) (f : Thread → Thread) : (modThread s u f).act = s.act := rfl
@[simp] theorem modThread_behind (s : State) (u : Nat) (f : Thread → Thread) : (modThread s u f).behind = s.behind := rfl
@[simp] theorem modThread_fresh (s : State) (u : Nat) (f : Thread → Thread) : (modThread s u f).fresh = s.fresh := rfl
@[simp] theorem modThread_nextUid (s : State) (u : Nat) (f : Thread → Thread) : (modThread s u f).nextUid = s.nextUid := rfl
@[simp] theorem modThread_nextId (s : State) (u : Nat) (f : Thread → Thread) : (modThread s u f).nextId = s.nextId := rfl
@[simp] theorem modThread_tiles (s : State) (u : Nat) (f : Thread → Thread) : (modThread s u f).tiles = s.tiles := rfl
@[simp] theorem modThread_ports (s : State) (u : Nat) (f : Thread → Thread) : (modThread s u f).ports = s.ports := rfl
@[simp] theorem modThread_clusters (s : State) (u : Nat) (f : Thread → Thread) : (modThread s u f).clusters = s.clusters := rfl
@[simp] theorem modThread_parts (s : State) (u : Nat) (f : Thread → Thread) : (modThread s u f).parts = s.parts := rfl
@[simp] theorem modThread_mem (s : State) (u : Nat) (f : Thread → Thread) : (modThread s u f).mem = s.mem := rfl
@[simp] theorem modThread_empty (s : State) (u : Nat) (f : Thread → Thread) : (modThread s u f).empty = s.empty := rfl
@[simp] theorem modThread_poison (s : State) (u : Nat) (f : Thread → Thread) : (modThread s u f).poison = s.poison := rfl
@[simp] theorem modThread_acc (s : State) (u : Nat) (f : Thread → Thread) : (modThread s u f).acc = s.acc := rfl
@[simp] theorem modThread_scanDue (s : State) (u : Nat) (f : Thread → Thread) : (modThread s u f).scanDue = s.scanDue := rfl
@[simp] theorem modThread_lastPlaced (s : State) (u : Nat) (f : Thread → Thread) : (modThread s u f).lastPlaced = s.lastPlaced := rfl
@[simp] theorem modThread_hists (s : State) (u : Nat) (f : Thread → Thread) : (modThread s u f).hists = s.hists := rfl
@[simp] theorem modThread_records (s : State) (u : Nat) (f : Thread → Thread) : (modThread s u f).records = s.records := rfl
@[simp] theorem modThread_hfqb (s : State) (u : Nat) (f : Thread → Thread) : (modThread s u f).hfqb = s.hfqb := rfl
@[simp] theorem modThread_hfqn (s : State) (u : Nat) (f : Thread → Thread) : (modThread s u f).hfqn = s.hfqn := rfl
@[simp] theorem modThread_hfqw (s : State) (u : Nat) (f : Thread → Thread) : (modThread s u f).hfqw = s.hfqw := rfl
@[simp] theorem modThread_hfqr (s : State) (u : Nat) (f : Thread → Thread) : (modThread s u f).hfqr = s.hfqr := rfl
@[simp] theorem modThread_hfqv (s : State) (u : Nat) (f : Thread → Thread) : (modThread s u f).hfqv = s.hfqv := rfl
@[simp] theorem modThread_hostStuck (s : State) (u : Nat) (f : Thread → Thread) : (modThread s u f).hostStuck = s.hostStuck := rfl
@[simp] theorem modThread_hostEnt (s : State) (u : Nat) (f : Thread → Thread) : (modThread s u f).hostEnt = s.hostEnt := rfl
@[simp] theorem modThread_casts (s : State) (u : Nat) (f : Thread → Thread) : (modThread s u f).casts = s.casts := rfl
@[simp] theorem modThread_substs (s : State) (u : Nat) (f : Thread → Thread) : (modThread s u f).substs = s.substs := rfl
@[simp] theorem modThread_calend (s : State) (u : Nat) (f : Thread → Thread) : (modThread s u f).calend = s.calend := rfl
@[simp] theorem modThread_bad (s : State) (u : Nat) (f : Thread → Thread) : (modThread s u f).bad = s.bad := rfl
@[simp] theorem modThread_cipher (s : State) (u : Nat) (f : Thread → Thread) : (modThread s u f).cipher = s.cipher := rfl
@[simp] theorem modThread_again (s : State) (u : Nat) (f : Thread → Thread) : (modThread s u f).again = s.again := rfl
@[simp] theorem modThread_ranking (s : State) (u : Nat) (f : Thread → Thread) : (modThread s u f).ranking = s.ranking := rfl
@[simp] theorem modThread_ckReserve (s : State) (u : Nat) (f : Thread → Thread) : (modThread s u f).ckReserve = s.ckReserve := rfl
@[simp] theorem modThread_ckState (s : State) (u : Nat) (f : Thread → Thread) : (modThread s u f).ckState = s.ckState := rfl
@[simp] theorem modThread_ckPower (s : State) (u : Nat) (f : Thread → Thread) : (modThread s u f).ckPower = s.ckPower := rfl
@[simp] theorem modThread_ckts (s : State) (u : Nat) (f : Thread → Thread) : (modThread s u f).ckts = s.ckts := rfl
@[simp] theorem modThread_frozen (s : State) (u : Nat) (f : Thread → Thread) : (modThread s u f).frozen = s.frozen := rfl
@[simp] theorem modThread_powerLost (s : State) (u : Nat) (f : Thread → Thread) : (modThread s u f).powerLost = s.powerLost := rfl
@[simp] theorem modThread_links (s : State) (u : Nat) (f : Thread → Thread) : (modThread s u f).links = s.links := rfl
@[simp] theorem modThread_bootStep (s : State) (u : Nat) (f : Thread → Thread) : (modThread s u f).bootStep = s.bootStep := rfl
@[simp] theorem modThread_bootFail (s : State) (u : Nat) (f : Thread → Thread) : (modThread s u f).bootFail = s.bootFail := rfl
@[simp] theorem modThread_recovery (s : State) (u : Nat) (f : Thread → Thread) : (modThread s u f).recovery = s.recovery := rfl
@[simp] theorem modThread_fwVersion (s : State) (u : Nat) (f : Thread → Thread) : (modThread s u f).fwVersion = s.fwVersion := rfl
@[simp] theorem modThread_fwMinSec (s : State) (u : Nat) (f : Thread → Thread) : (modThread s u f).fwMinSec = s.fwMinSec := rfl
@[simp] theorem modThread_fwPending (s : State) (u : Nat) (f : Thread → Thread) : (modThread s u f).fwPending = s.fwPending := rfl
@[simp] theorem modThread_outbox (s : State) (u : Nat) (f : Thread → Thread) : (modThread s u f).outbox = s.outbox := rfl

/-! ### `modHist` -/

@[simp] theorem modHist_cycle (s : State) (d : Nat) (f : Hist → Hist) : (modHist s d f).cycle = s.cycle := rfl
@[simp] theorem modHist_tsc (s : State) (d : Nat) (f : Hist → Hist) : (modHist s d f).tsc = s.tsc := rfl
@[simp] theorem modHist_slew (s : State) (d : Nat) (f : Hist → Hist) : (modHist s d f).slew = s.slew := rfl
@[simp] theorem modHist_slewAt (s : State) (d : Nat) (f : Hist → Hist) : (modHist s d f).slewAt = s.slewAt := rfl
@[simp] theorem modHist_aligned (s : State) (d : Nat) (f : Hist → Hist) : (modHist s d f).aligned = s.aligned := rfl
@[simp] theorem modHist_issueFrom (s : State) (d : Nat) (f : Hist → Hist) : (modHist s d f).issueFrom = s.issueFrom := rfl
@[simp] theorem modHist_agenda (s : State) (d : Nat) (f : Hist → Hist) : (modHist s d f).agenda = s.agenda := rfl
@[simp] theorem modHist_timers (s : State) (d : Nat) (f : Hist → Hist) : (modHist s d f).timers = s.timers := rfl
@[simp] theorem modHist_cur (s : State) (d : Nat) (f : Hist → Hist) : (modHist s d f).cur = s.cur := rfl
@[simp] theorem modHist_act (s : State) (d : Nat) (f : Hist → Hist) : (modHist s d f).act = s.act := rfl
@[simp] theorem modHist_behind (s : State) (d : Nat) (f : Hist → Hist) : (modHist s d f).behind = s.behind := rfl
@[simp] theorem modHist_fresh (s : State) (d : Nat) (f : Hist → Hist) : (modHist s d f).fresh = s.fresh := rfl
@[simp] theorem modHist_nextUid (s : State) (d : Nat) (f : Hist → Hist) : (modHist s d f).nextUid = s.nextUid := rfl
@[simp] theorem modHist_nextId (s : State) (d : Nat) (f : Hist → Hist) : (modHist s d f).nextId = s.nextId := rfl
@[simp] theorem modHist_threads (s : State) (d : Nat) (f : Hist → Hist) : (modHist s d f).threads = s.threads := rfl
@[simp] theorem modHist_tiles (s : State) (d : Nat) (f : Hist → Hist) : (modHist s d f).tiles = s.tiles := rfl
@[simp] theorem modHist_ports (s : State) (d : Nat) (f : Hist → Hist) : (modHist s d f).ports = s.ports := rfl
@[simp] theorem modHist_clusters (s : State) (d : Nat) (f : Hist → Hist) : (modHist s d f).clusters = s.clusters := rfl
@[simp] theorem modHist_parts (s : State) (d : Nat) (f : Hist → Hist) : (modHist s d f).parts = s.parts := rfl
@[simp] theorem modHist_mem (s : State) (d : Nat) (f : Hist → Hist) : (modHist s d f).mem = s.mem := rfl
@[simp] theorem modHist_empty (s : State) (d : Nat) (f : Hist → Hist) : (modHist s d f).empty = s.empty := rfl
@[simp] theorem modHist_poison (s : State) (d : Nat) (f : Hist → Hist) : (modHist s d f).poison = s.poison := rfl
@[simp] theorem modHist_acc (s : State) (d : Nat) (f : Hist → Hist) : (modHist s d f).acc = s.acc := rfl
@[simp] theorem modHist_scanDue (s : State) (d : Nat) (f : Hist → Hist) : (modHist s d f).scanDue = s.scanDue := rfl
@[simp] theorem modHist_lastPlaced (s : State) (d : Nat) (f : Hist → Hist) : (modHist s d f).lastPlaced = s.lastPlaced := rfl
@[simp] theorem modHist_records (s : State) (d : Nat) (f : Hist → Hist) : (modHist s d f).records = s.records := rfl
@[simp] theorem modHist_hfqb (s : State) (d : Nat) (f : Hist → Hist) : (modHist s d f).hfqb = s.hfqb := rfl
@[simp] theorem modHist_hfqn (s : State) (d : Nat) (f : Hist → Hist) : (modHist s d f).hfqn = s.hfqn := rfl
@[simp] theorem modHist_hfqw (s : State) (d : Nat) (f : Hist → Hist) : (modHist s d f).hfqw = s.hfqw := rfl
@[simp] theorem modHist_hfqr (s : State) (d : Nat) (f : Hist → Hist) : (modHist s d f).hfqr = s.hfqr := rfl
@[simp] theorem modHist_hfqv (s : State) (d : Nat) (f : Hist → Hist) : (modHist s d f).hfqv = s.hfqv := rfl
@[simp] theorem modHist_hostStuck (s : State) (d : Nat) (f : Hist → Hist) : (modHist s d f).hostStuck = s.hostStuck := rfl
@[simp] theorem modHist_hostEnt (s : State) (d : Nat) (f : Hist → Hist) : (modHist s d f).hostEnt = s.hostEnt := rfl
@[simp] theorem modHist_casts (s : State) (d : Nat) (f : Hist → Hist) : (modHist s d f).casts = s.casts := rfl
@[simp] theorem modHist_substs (s : State) (d : Nat) (f : Hist → Hist) : (modHist s d f).substs = s.substs := rfl
@[simp] theorem modHist_calend (s : State) (d : Nat) (f : Hist → Hist) : (modHist s d f).calend = s.calend := rfl
@[simp] theorem modHist_bad (s : State) (d : Nat) (f : Hist → Hist) : (modHist s d f).bad = s.bad := rfl
@[simp] theorem modHist_cipher (s : State) (d : Nat) (f : Hist → Hist) : (modHist s d f).cipher = s.cipher := rfl
@[simp] theorem modHist_again (s : State) (d : Nat) (f : Hist → Hist) : (modHist s d f).again = s.again := rfl
@[simp] theorem modHist_ranking (s : State) (d : Nat) (f : Hist → Hist) : (modHist s d f).ranking = s.ranking := rfl
@[simp] theorem modHist_ckReserve (s : State) (d : Nat) (f : Hist → Hist) : (modHist s d f).ckReserve = s.ckReserve := rfl
@[simp] theorem modHist_ckState (s : State) (d : Nat) (f : Hist → Hist) : (modHist s d f).ckState = s.ckState := rfl
@[simp] theorem modHist_ckPower (s : State) (d : Nat) (f : Hist → Hist) : (modHist s d f).ckPower = s.ckPower := rfl
@[simp] theorem modHist_ckts (s : State) (d : Nat) (f : Hist → Hist) : (modHist s d f).ckts = s.ckts := rfl
@[simp] theorem modHist_frozen (s : State) (d : Nat) (f : Hist → Hist) : (modHist s d f).frozen = s.frozen := rfl
@[simp] theorem modHist_powerLost (s : State) (d : Nat) (f : Hist → Hist) : (modHist s d f).powerLost = s.powerLost := rfl
@[simp] theorem modHist_links (s : State) (d : Nat) (f : Hist → Hist) : (modHist s d f).links = s.links := rfl
@[simp] theorem modHist_bootStep (s : State) (d : Nat) (f : Hist → Hist) : (modHist s d f).bootStep = s.bootStep := rfl
@[simp] theorem modHist_bootFail (s : State) (d : Nat) (f : Hist → Hist) : (modHist s d f).bootFail = s.bootFail := rfl
@[simp] theorem modHist_recovery (s : State) (d : Nat) (f : Hist → Hist) : (modHist s d f).recovery = s.recovery := rfl
@[simp] theorem modHist_fwVersion (s : State) (d : Nat) (f : Hist → Hist) : (modHist s d f).fwVersion = s.fwVersion := rfl
@[simp] theorem modHist_fwMinSec (s : State) (d : Nat) (f : Hist → Hist) : (modHist s d f).fwMinSec = s.fwMinSec := rfl
@[simp] theorem modHist_fwPending (s : State) (d : Nat) (f : Hist → Hist) : (modHist s d f).fwPending = s.fwPending := rfl
@[simp] theorem modHist_outbox (s : State) (d : Nat) (f : Hist → Hist) : (modHist s d f).outbox = s.outbox := rfl

/-! ### `modLink` -/

@[simp] theorem modLink_cycle (s : State) (l : Nat) (f : Link → Link) : (modLink s l f).cycle = s.cycle := rfl
@[simp] theorem modLink_tsc (s : State) (l : Nat) (f : Link → Link) : (modLink s l f).tsc = s.tsc := rfl
@[simp] theorem modLink_slew (s : State) (l : Nat) (f : Link → Link) : (modLink s l f).slew = s.slew := rfl
@[simp] theorem modLink_slewAt (s : State) (l : Nat) (f : Link → Link) : (modLink s l f).slewAt = s.slewAt := rfl
@[simp] theorem modLink_aligned (s : State) (l : Nat) (f : Link → Link) : (modLink s l f).aligned = s.aligned := rfl
@[simp] theorem modLink_issueFrom (s : State) (l : Nat) (f : Link → Link) : (modLink s l f).issueFrom = s.issueFrom := rfl
@[simp] theorem modLink_agenda (s : State) (l : Nat) (f : Link → Link) : (modLink s l f).agenda = s.agenda := rfl
@[simp] theorem modLink_timers (s : State) (l : Nat) (f : Link → Link) : (modLink s l f).timers = s.timers := rfl
@[simp] theorem modLink_cur (s : State) (l : Nat) (f : Link → Link) : (modLink s l f).cur = s.cur := rfl
@[simp] theorem modLink_act (s : State) (l : Nat) (f : Link → Link) : (modLink s l f).act = s.act := rfl
@[simp] theorem modLink_behind (s : State) (l : Nat) (f : Link → Link) : (modLink s l f).behind = s.behind := rfl
@[simp] theorem modLink_fresh (s : State) (l : Nat) (f : Link → Link) : (modLink s l f).fresh = s.fresh := rfl
@[simp] theorem modLink_nextUid (s : State) (l : Nat) (f : Link → Link) : (modLink s l f).nextUid = s.nextUid := rfl
@[simp] theorem modLink_nextId (s : State) (l : Nat) (f : Link → Link) : (modLink s l f).nextId = s.nextId := rfl
@[simp] theorem modLink_threads (s : State) (l : Nat) (f : Link → Link) : (modLink s l f).threads = s.threads := rfl
@[simp] theorem modLink_tiles (s : State) (l : Nat) (f : Link → Link) : (modLink s l f).tiles = s.tiles := rfl
@[simp] theorem modLink_ports (s : State) (l : Nat) (f : Link → Link) : (modLink s l f).ports = s.ports := rfl
@[simp] theorem modLink_clusters (s : State) (l : Nat) (f : Link → Link) : (modLink s l f).clusters = s.clusters := rfl
@[simp] theorem modLink_parts (s : State) (l : Nat) (f : Link → Link) : (modLink s l f).parts = s.parts := rfl
@[simp] theorem modLink_mem (s : State) (l : Nat) (f : Link → Link) : (modLink s l f).mem = s.mem := rfl
@[simp] theorem modLink_empty (s : State) (l : Nat) (f : Link → Link) : (modLink s l f).empty = s.empty := rfl
@[simp] theorem modLink_poison (s : State) (l : Nat) (f : Link → Link) : (modLink s l f).poison = s.poison := rfl
@[simp] theorem modLink_acc (s : State) (l : Nat) (f : Link → Link) : (modLink s l f).acc = s.acc := rfl
@[simp] theorem modLink_scanDue (s : State) (l : Nat) (f : Link → Link) : (modLink s l f).scanDue = s.scanDue := rfl
@[simp] theorem modLink_lastPlaced (s : State) (l : Nat) (f : Link → Link) : (modLink s l f).lastPlaced = s.lastPlaced := rfl
@[simp] theorem modLink_hists (s : State) (l : Nat) (f : Link → Link) : (modLink s l f).hists = s.hists := rfl
@[simp] theorem modLink_records (s : State) (l : Nat) (f : Link → Link) : (modLink s l f).records = s.records := rfl
@[simp] theorem modLink_hfqb (s : State) (l : Nat) (f : Link → Link) : (modLink s l f).hfqb = s.hfqb := rfl
@[simp] theorem modLink_hfqn (s : State) (l : Nat) (f : Link → Link) : (modLink s l f).hfqn = s.hfqn := rfl
@[simp] theorem modLink_hfqw (s : State) (l : Nat) (f : Link → Link) : (modLink s l f).hfqw = s.hfqw := rfl
@[simp] theorem modLink_hfqr (s : State) (l : Nat) (f : Link → Link) : (modLink s l f).hfqr = s.hfqr := rfl
@[simp] theorem modLink_hfqv (s : State) (l : Nat) (f : Link → Link) : (modLink s l f).hfqv = s.hfqv := rfl
@[simp] theorem modLink_hostStuck (s : State) (l : Nat) (f : Link → Link) : (modLink s l f).hostStuck = s.hostStuck := rfl
@[simp] theorem modLink_hostEnt (s : State) (l : Nat) (f : Link → Link) : (modLink s l f).hostEnt = s.hostEnt := rfl
@[simp] theorem modLink_casts (s : State) (l : Nat) (f : Link → Link) : (modLink s l f).casts = s.casts := rfl
@[simp] theorem modLink_substs (s : State) (l : Nat) (f : Link → Link) : (modLink s l f).substs = s.substs := rfl
@[simp] theorem modLink_calend (s : State) (l : Nat) (f : Link → Link) : (modLink s l f).calend = s.calend := rfl
@[simp] theorem modLink_bad (s : State) (l : Nat) (f : Link → Link) : (modLink s l f).bad = s.bad := rfl
@[simp] theorem modLink_cipher (s : State) (l : Nat) (f : Link → Link) : (modLink s l f).cipher = s.cipher := rfl
@[simp] theorem modLink_again (s : State) (l : Nat) (f : Link → Link) : (modLink s l f).again = s.again := rfl
@[simp] theorem modLink_ranking (s : State) (l : Nat) (f : Link → Link) : (modLink s l f).ranking = s.ranking := rfl
@[simp] theorem modLink_ckReserve (s : State) (l : Nat) (f : Link → Link) : (modLink s l f).ckReserve = s.ckReserve := rfl
@[simp] theorem modLink_ckState (s : State) (l : Nat) (f : Link → Link) : (modLink s l f).ckState = s.ckState := rfl
@[simp] theorem modLink_ckPower (s : State) (l : Nat) (f : Link → Link) : (modLink s l f).ckPower = s.ckPower := rfl
@[simp] theorem modLink_ckts (s : State) (l : Nat) (f : Link → Link) : (modLink s l f).ckts = s.ckts := rfl
@[simp] theorem modLink_frozen (s : State) (l : Nat) (f : Link → Link) : (modLink s l f).frozen = s.frozen := rfl
@[simp] theorem modLink_powerLost (s : State) (l : Nat) (f : Link → Link) : (modLink s l f).powerLost = s.powerLost := rfl
@[simp] theorem modLink_bootStep (s : State) (l : Nat) (f : Link → Link) : (modLink s l f).bootStep = s.bootStep := rfl
@[simp] theorem modLink_bootFail (s : State) (l : Nat) (f : Link → Link) : (modLink s l f).bootFail = s.bootFail := rfl
@[simp] theorem modLink_recovery (s : State) (l : Nat) (f : Link → Link) : (modLink s l f).recovery = s.recovery := rfl
@[simp] theorem modLink_fwVersion (s : State) (l : Nat) (f : Link → Link) : (modLink s l f).fwVersion = s.fwVersion := rfl
@[simp] theorem modLink_fwMinSec (s : State) (l : Nat) (f : Link → Link) : (modLink s l f).fwMinSec = s.fwMinSec := rfl
@[simp] theorem modLink_fwPending (s : State) (l : Nat) (f : Link → Link) : (modLink s l f).fwPending = s.fwPending := rfl
@[simp] theorem modLink_outbox (s : State) (l : Nat) (f : Link → Link) : (modLink s l f).outbox = s.outbox := rfl

/-! ### `sched` -/

@[simp] theorem sched_cycle (s : State) (x : Timed) : (sched s x).cycle = s.cycle := rfl
@[simp] theorem sched_tsc (s : State) (x : Timed) : (sched s x).tsc = s.tsc := rfl
@[simp] theorem sched_slew (s : State) (x : Timed) : (sched s x).slew = s.slew := rfl
@[simp] theorem sched_slewAt (s : State) (x : Timed) : (sched s x).slewAt = s.slewAt := rfl
@[simp] theorem sched_aligned (s : State) (x : Timed) : (sched s x).aligned = s.aligned := rfl
@[simp] theorem sched_issueFrom (s : State) (x : Timed) : (sched s x).issueFrom = s.issueFrom := rfl
@[simp] theorem sched_timers (s : State) (x : Timed) : (sched s x).timers = s.timers := rfl
@[simp] theorem sched_cur (s : State) (x : Timed) : (sched s x).cur = s.cur := rfl
@[simp] theorem sched_act (s : State) (x : Timed) : (sched s x).act = s.act := rfl
@[simp] theorem sched_behind (s : State) (x : Timed) : (sched s x).behind = s.behind := rfl
@[simp] theorem sched_fresh (s : State) (x : Timed) : (sched s x).fresh = s.fresh := rfl
@[simp] theorem sched_nextUid (s : State) (x : Timed) : (sched s x).nextUid = s.nextUid := rfl
@[simp] theorem sched_nextId (s : State) (x : Timed) : (sched s x).nextId = s.nextId := rfl
@[simp] theorem sched_threads (s : State) (x : Timed) : (sched s x).threads = s.threads := rfl
@[simp] theorem sched_tiles (s : State) (x : Timed) : (sched s x).tiles = s.tiles := rfl
@[simp] theorem sched_ports (s : State) (x : Timed) : (sched s x).ports = s.ports := rfl
@[simp] theorem sched_clusters (s : State) (x : Timed) : (sched s x).clusters = s.clusters := rfl
@[simp] theorem sched_parts (s : State) (x : Timed) : (sched s x).parts = s.parts := rfl
@[simp] theorem sched_mem (s : State) (x : Timed) : (sched s x).mem = s.mem := rfl
@[simp] theorem sched_empty (s : State) (x : Timed) : (sched s x).empty = s.empty := rfl
@[simp] theorem sched_poison (s : State) (x : Timed) : (sched s x).poison = s.poison := rfl
@[simp] theorem sched_acc (s : State) (x : Timed) : (sched s x).acc = s.acc := rfl
@[simp] theorem sched_scanDue (s : State) (x : Timed) : (sched s x).scanDue = s.scanDue := rfl
@[simp] theorem sched_lastPlaced (s : State) (x : Timed) : (sched s x).lastPlaced = s.lastPlaced := rfl
@[simp] theorem sched_hists (s : State) (x : Timed) : (sched s x).hists = s.hists := rfl
@[simp] theorem sched_records (s : State) (x : Timed) : (sched s x).records = s.records := rfl
@[simp] theorem sched_hfqb (s : State) (x : Timed) : (sched s x).hfqb = s.hfqb := rfl
@[simp] theorem sched_hfqn (s : State) (x : Timed) : (sched s x).hfqn = s.hfqn := rfl
@[simp] theorem sched_hfqw (s : State) (x : Timed) : (sched s x).hfqw = s.hfqw := rfl
@[simp] theorem sched_hfqr (s : State) (x : Timed) : (sched s x).hfqr = s.hfqr := rfl
@[simp] theorem sched_hfqv (s : State) (x : Timed) : (sched s x).hfqv = s.hfqv := rfl
@[simp] theorem sched_hostStuck (s : State) (x : Timed) : (sched s x).hostStuck = s.hostStuck := rfl
@[simp] theorem sched_hostEnt (s : State) (x : Timed) : (sched s x).hostEnt = s.hostEnt := rfl
@[simp] theorem sched_casts (s : State) (x : Timed) : (sched s x).casts = s.casts := rfl
@[simp] theorem sched_substs (s : State) (x : Timed) : (sched s x).substs = s.substs := rfl
@[simp] theorem sched_calend (s : State) (x : Timed) : (sched s x).calend = s.calend := rfl
@[simp] theorem sched_bad (s : State) (x : Timed) : (sched s x).bad = s.bad := rfl
@[simp] theorem sched_cipher (s : State) (x : Timed) : (sched s x).cipher = s.cipher := rfl
@[simp] theorem sched_again (s : State) (x : Timed) : (sched s x).again = s.again := rfl
@[simp] theorem sched_ranking (s : State) (x : Timed) : (sched s x).ranking = s.ranking := rfl
@[simp] theorem sched_ckReserve (s : State) (x : Timed) : (sched s x).ckReserve = s.ckReserve := rfl
@[simp] theorem sched_ckState (s : State) (x : Timed) : (sched s x).ckState = s.ckState := rfl
@[simp] theorem sched_ckPower (s : State) (x : Timed) : (sched s x).ckPower = s.ckPower := rfl
@[simp] theorem sched_ckts (s : State) (x : Timed) : (sched s x).ckts = s.ckts := rfl
@[simp] theorem sched_frozen (s : State) (x : Timed) : (sched s x).frozen = s.frozen := rfl
@[simp] theorem sched_powerLost (s : State) (x : Timed) : (sched s x).powerLost = s.powerLost := rfl
@[simp] theorem sched_links (s : State) (x : Timed) : (sched s x).links = s.links := rfl
@[simp] theorem sched_bootStep (s : State) (x : Timed) : (sched s x).bootStep = s.bootStep := rfl
@[simp] theorem sched_bootFail (s : State) (x : Timed) : (sched s x).bootFail = s.bootFail := rfl
@[simp] theorem sched_recovery (s : State) (x : Timed) : (sched s x).recovery = s.recovery := rfl
@[simp] theorem sched_fwVersion (s : State) (x : Timed) : (sched s x).fwVersion = s.fwVersion := rfl
@[simp] theorem sched_fwMinSec (s : State) (x : Timed) : (sched s x).fwMinSec = s.fwMinSec := rfl
@[simp] theorem sched_fwPending (s : State) (x : Timed) : (sched s x).fwPending = s.fwPending := rfl
@[simp] theorem sched_outbox (s : State) (x : Timed) : (sched s x).outbox = s.outbox := rfl

/-! ### `schedAt` -/

@[simp] theorem schedAt_cycle (s : State) (c : Nat) (a : Act) : (schedAt s c a).cycle = s.cycle := rfl
@[simp] theorem schedAt_tsc (s : State) (c : Nat) (a : Act) : (schedAt s c a).tsc = s.tsc := rfl
@[simp] theorem schedAt_slew (s : State) (c : Nat) (a : Act) : (schedAt s c a).slew = s.slew := rfl
@[simp] theorem schedAt_slewAt (s : State) (c : Nat) (a : Act) : (schedAt s c a).slewAt = s.slewAt := rfl
@[simp] theorem schedAt_aligned (s : State) (c : Nat) (a : Act) : (schedAt s c a).aligned = s.aligned := rfl
@[simp] theorem schedAt_issueFrom (s : State) (c : Nat) (a : Act) : (schedAt s c a).issueFrom = s.issueFrom := rfl
@[simp] theorem schedAt_timers (s : State) (c : Nat) (a : Act) : (schedAt s c a).timers = s.timers := rfl
@[simp] theorem schedAt_cur (s : State) (c : Nat) (a : Act) : (schedAt s c a).cur = s.cur := rfl
@[simp] theorem schedAt_act (s : State) (c : Nat) (a : Act) : (schedAt s c a).act = s.act := rfl
@[simp] theorem schedAt_behind (s : State) (c : Nat) (a : Act) : (schedAt s c a).behind = s.behind := rfl
@[simp] theorem schedAt_fresh (s : State) (c : Nat) (a : Act) : (schedAt s c a).fresh = s.fresh := rfl
@[simp] theorem schedAt_nextUid (s : State) (c : Nat) (a : Act) : (schedAt s c a).nextUid = s.nextUid := rfl
@[simp] theorem schedAt_nextId (s : State) (c : Nat) (a : Act) : (schedAt s c a).nextId = s.nextId := rfl
@[simp] theorem schedAt_threads (s : State) (c : Nat) (a : Act) : (schedAt s c a).threads = s.threads := rfl
@[simp] theorem schedAt_tiles (s : State) (c : Nat) (a : Act) : (schedAt s c a).tiles = s.tiles := rfl
@[simp] theorem schedAt_ports (s : State) (c : Nat) (a : Act) : (schedAt s c a).ports = s.ports := rfl
@[simp] theorem schedAt_clusters (s : State) (c : Nat) (a : Act) : (schedAt s c a).clusters = s.clusters := rfl
@[simp] theorem schedAt_parts (s : State) (c : Nat) (a : Act) : (schedAt s c a).parts = s.parts := rfl
@[simp] theorem schedAt_mem (s : State) (c : Nat) (a : Act) : (schedAt s c a).mem = s.mem := rfl
@[simp] theorem schedAt_empty (s : State) (c : Nat) (a : Act) : (schedAt s c a).empty = s.empty := rfl
@[simp] theorem schedAt_poison (s : State) (c : Nat) (a : Act) : (schedAt s c a).poison = s.poison := rfl
@[simp] theorem schedAt_acc (s : State) (c : Nat) (a : Act) : (schedAt s c a).acc = s.acc := rfl
@[simp] theorem schedAt_scanDue (s : State) (c : Nat) (a : Act) : (schedAt s c a).scanDue = s.scanDue := rfl
@[simp] theorem schedAt_lastPlaced (s : State) (c : Nat) (a : Act) : (schedAt s c a).lastPlaced = s.lastPlaced := rfl
@[simp] theorem schedAt_hists (s : State) (c : Nat) (a : Act) : (schedAt s c a).hists = s.hists := rfl
@[simp] theorem schedAt_records (s : State) (c : Nat) (a : Act) : (schedAt s c a).records = s.records := rfl
@[simp] theorem schedAt_hfqb (s : State) (c : Nat) (a : Act) : (schedAt s c a).hfqb = s.hfqb := rfl
@[simp] theorem schedAt_hfqn (s : State) (c : Nat) (a : Act) : (schedAt s c a).hfqn = s.hfqn := rfl
@[simp] theorem schedAt_hfqw (s : State) (c : Nat) (a : Act) : (schedAt s c a).hfqw = s.hfqw := rfl
@[simp] theorem schedAt_hfqr (s : State) (c : Nat) (a : Act) : (schedAt s c a).hfqr = s.hfqr := rfl
@[simp] theorem schedAt_hfqv (s : State) (c : Nat) (a : Act) : (schedAt s c a).hfqv = s.hfqv := rfl
@[simp] theorem schedAt_hostStuck (s : State) (c : Nat) (a : Act) : (schedAt s c a).hostStuck = s.hostStuck := rfl
@[simp] theorem schedAt_hostEnt (s : State) (c : Nat) (a : Act) : (schedAt s c a).hostEnt = s.hostEnt := rfl
@[simp] theorem schedAt_casts (s : State) (c : Nat) (a : Act) : (schedAt s c a).casts = s.casts := rfl
@[simp] theorem schedAt_substs (s : State) (c : Nat) (a : Act) : (schedAt s c a).substs = s.substs := rfl
@[simp] theorem schedAt_calend (s : State) (c : Nat) (a : Act) : (schedAt s c a).calend = s.calend := rfl
@[simp] theorem schedAt_bad (s : State) (c : Nat) (a : Act) : (schedAt s c a).bad = s.bad := rfl
@[simp] theorem schedAt_cipher (s : State) (c : Nat) (a : Act) : (schedAt s c a).cipher = s.cipher := rfl
@[simp] theorem schedAt_again (s : State) (c : Nat) (a : Act) : (schedAt s c a).again = s.again := rfl
@[simp] theorem schedAt_ranking (s : State) (c : Nat) (a : Act) : (schedAt s c a).ranking = s.ranking := rfl
@[simp] theorem schedAt_ckReserve (s : State) (c : Nat) (a : Act) : (schedAt s c a).ckReserve = s.ckReserve := rfl
@[simp] theorem schedAt_ckState (s : State) (c : Nat) (a : Act) : (schedAt s c a).ckState = s.ckState := rfl
@[simp] theorem schedAt_ckPower (s : State) (c : Nat) (a : Act) : (schedAt s c a).ckPower = s.ckPower := rfl
@[simp] theorem schedAt_ckts (s : State) (c : Nat) (a : Act) : (schedAt s c a).ckts = s.ckts := rfl
@[simp] theorem schedAt_frozen (s : State) (c : Nat) (a : Act) : (schedAt s c a).frozen = s.frozen := rfl
@[simp] theorem schedAt_powerLost (s : State) (c : Nat) (a : Act) : (schedAt s c a).powerLost = s.powerLost := rfl
@[simp] theorem schedAt_links (s : State) (c : Nat) (a : Act) : (schedAt s c a).links = s.links := rfl
@[simp] theorem schedAt_bootStep (s : State) (c : Nat) (a : Act) : (schedAt s c a).bootStep = s.bootStep := rfl
@[simp] theorem schedAt_bootFail (s : State) (c : Nat) (a : Act) : (schedAt s c a).bootFail = s.bootFail := rfl
@[simp] theorem schedAt_recovery (s : State) (c : Nat) (a : Act) : (schedAt s c a).recovery = s.recovery := rfl
@[simp] theorem schedAt_fwVersion (s : State) (c : Nat) (a : Act) : (schedAt s c a).fwVersion = s.fwVersion := rfl
@[simp] theorem schedAt_fwMinSec (s : State) (c : Nat) (a : Act) : (schedAt s c a).fwMinSec = s.fwMinSec := rfl
@[simp] theorem schedAt_fwPending (s : State) (c : Nat) (a : Act) : (schedAt s c a).fwPending = s.fwPending := rfl
@[simp] theorem schedAt_outbox (s : State) (c : Nat) (a : Act) : (schedAt s c a).outbox = s.outbox := rfl

/-! ### `unsched` -/

@[simp] theorem unsched_cycle (s : State) (f : Act → Bool) : (unsched s f).cycle = s.cycle := by unfold unsched; split <;> rfl
@[simp] theorem unsched_tsc (s : State) (f : Act → Bool) : (unsched s f).tsc = s.tsc := by unfold unsched; split <;> rfl
@[simp] theorem unsched_slew (s : State) (f : Act → Bool) : (unsched s f).slew = s.slew := by unfold unsched; split <;> rfl
@[simp] theorem unsched_slewAt (s : State) (f : Act → Bool) : (unsched s f).slewAt = s.slewAt := by unfold unsched; split <;> rfl
@[simp] theorem unsched_aligned (s : State) (f : Act → Bool) : (unsched s f).aligned = s.aligned := by unfold unsched; split <;> rfl
@[simp] theorem unsched_issueFrom (s : State) (f : Act → Bool) : (unsched s f).issueFrom = s.issueFrom := by unfold unsched; split <;> rfl
@[simp] theorem unsched_timers (s : State) (f : Act → Bool) : (unsched s f).timers = s.timers := by unfold unsched; split <;> rfl
@[simp] theorem unsched_cur (s : State) (f : Act → Bool) : (unsched s f).cur = s.cur := by unfold unsched; split <;> rfl
@[simp] theorem unsched_act (s : State) (f : Act → Bool) : (unsched s f).act = s.act := by unfold unsched; split <;> rfl
@[simp] theorem unsched_behind (s : State) (f : Act → Bool) : (unsched s f).behind = s.behind := by unfold unsched; split <;> rfl
@[simp] theorem unsched_fresh (s : State) (f : Act → Bool) : (unsched s f).fresh = s.fresh := by unfold unsched; split <;> rfl
@[simp] theorem unsched_nextUid (s : State) (f : Act → Bool) : (unsched s f).nextUid = s.nextUid := by unfold unsched; split <;> rfl
@[simp] theorem unsched_nextId (s : State) (f : Act → Bool) : (unsched s f).nextId = s.nextId := by unfold unsched; split <;> rfl
@[simp] theorem unsched_threads (s : State) (f : Act → Bool) : (unsched s f).threads = s.threads := by unfold unsched; split <;> rfl
@[simp] theorem unsched_ports (s : State) (f : Act → Bool) : (unsched s f).ports = s.ports := by unfold unsched; split <;> rfl
@[simp] theorem unsched_clusters (s : State) (f : Act → Bool) : (unsched s f).clusters = s.clusters := by unfold unsched; split <;> rfl
@[simp] theorem unsched_parts (s : State) (f : Act → Bool) : (unsched s f).parts = s.parts := by unfold unsched; split <;> rfl
@[simp] theorem unsched_mem (s : State) (f : Act → Bool) : (unsched s f).mem = s.mem := by unfold unsched; split <;> rfl
@[simp] theorem unsched_empty (s : State) (f : Act → Bool) : (unsched s f).empty = s.empty := by unfold unsched; split <;> rfl
@[simp] theorem unsched_poison (s : State) (f : Act → Bool) : (unsched s f).poison = s.poison := by unfold unsched; split <;> rfl
@[simp] theorem unsched_acc (s : State) (f : Act → Bool) : (unsched s f).acc = s.acc := by unfold unsched; split <;> rfl
@[simp] theorem unsched_scanDue (s : State) (f : Act → Bool) : (unsched s f).scanDue = s.scanDue := by unfold unsched; split <;> rfl
@[simp] theorem unsched_lastPlaced (s : State) (f : Act → Bool) : (unsched s f).lastPlaced = s.lastPlaced := by unfold unsched; split <;> rfl
@[simp] theorem unsched_hists (s : State) (f : Act → Bool) : (unsched s f).hists = s.hists := by unfold unsched; split <;> rfl
@[simp] theorem unsched_records (s : State) (f : Act → Bool) : (unsched s f).records = s.records := by unfold unsched; split <;> rfl
@[simp] theorem unsched_hfqb (s : State) (f : Act → Bool) : (unsched s f).hfqb = s.hfqb := by unfold unsched; split <;> rfl
@[simp] theorem unsched_hfqn (s : State) (f : Act → Bool) : (unsched s f).hfqn = s.hfqn := by unfold unsched; split <;> rfl
@[simp] theorem unsched_hfqw (s : State) (f : Act → Bool) : (unsched s f).hfqw = s.hfqw := by unfold unsched; split <;> rfl
@[simp] theorem unsched_hfqr (s : State) (f : Act → Bool) : (unsched s f).hfqr = s.hfqr := by unfold unsched; split <;> rfl
@[simp] theorem unsched_hfqv (s : State) (f : Act → Bool) : (unsched s f).hfqv = s.hfqv := by unfold unsched; split <;> rfl
@[simp] theorem unsched_hostStuck (s : State) (f : Act → Bool) : (unsched s f).hostStuck = s.hostStuck := by unfold unsched; split <;> rfl
@[simp] theorem unsched_hostEnt (s : State) (f : Act → Bool) : (unsched s f).hostEnt = s.hostEnt := by unfold unsched; split <;> rfl
@[simp] theorem unsched_casts (s : State) (f : Act → Bool) : (unsched s f).casts = s.casts := by unfold unsched; split <;> rfl
@[simp] theorem unsched_substs (s : State) (f : Act → Bool) : (unsched s f).substs = s.substs := by unfold unsched; split <;> rfl
@[simp] theorem unsched_calend (s : State) (f : Act → Bool) : (unsched s f).calend = s.calend := by unfold unsched; split <;> rfl
@[simp] theorem unsched_bad (s : State) (f : Act → Bool) : (unsched s f).bad = s.bad := by unfold unsched; split <;> rfl
@[simp] theorem unsched_cipher (s : State) (f : Act → Bool) : (unsched s f).cipher = s.cipher := by unfold unsched; split <;> rfl
@[simp] theorem unsched_again (s : State) (f : Act → Bool) : (unsched s f).again = s.again := by unfold unsched; split <;> rfl
@[simp] theorem unsched_ranking (s : State) (f : Act → Bool) : (unsched s f).ranking = s.ranking := by unfold unsched; split <;> rfl
@[simp] theorem unsched_ckReserve (s : State) (f : Act → Bool) : (unsched s f).ckReserve = s.ckReserve := by unfold unsched; split <;> rfl
@[simp] theorem unsched_ckState (s : State) (f : Act → Bool) : (unsched s f).ckState = s.ckState := by unfold unsched; split <;> rfl
@[simp] theorem unsched_ckPower (s : State) (f : Act → Bool) : (unsched s f).ckPower = s.ckPower := by unfold unsched; split <;> rfl
@[simp] theorem unsched_ckts (s : State) (f : Act → Bool) : (unsched s f).ckts = s.ckts := by unfold unsched; split <;> rfl
@[simp] theorem unsched_frozen (s : State) (f : Act → Bool) : (unsched s f).frozen = s.frozen := by unfold unsched; split <;> rfl
@[simp] theorem unsched_powerLost (s : State) (f : Act → Bool) : (unsched s f).powerLost = s.powerLost := by unfold unsched; split <;> rfl
@[simp] theorem unsched_links (s : State) (f : Act → Bool) : (unsched s f).links = s.links := by unfold unsched; split <;> rfl
@[simp] theorem unsched_bootStep (s : State) (f : Act → Bool) : (unsched s f).bootStep = s.bootStep := by unfold unsched; split <;> rfl
@[simp] theorem unsched_bootFail (s : State) (f : Act → Bool) : (unsched s f).bootFail = s.bootFail := by unfold unsched; split <;> rfl
@[simp] theorem unsched_recovery (s : State) (f : Act → Bool) : (unsched s f).recovery = s.recovery := by unfold unsched; split <;> rfl
@[simp] theorem unsched_fwVersion (s : State) (f : Act → Bool) : (unsched s f).fwVersion = s.fwVersion := by unfold unsched; split <;> rfl
@[simp] theorem unsched_fwMinSec (s : State) (f : Act → Bool) : (unsched s f).fwMinSec = s.fwMinSec := by unfold unsched; split <;> rfl
@[simp] theorem unsched_fwPending (s : State) (f : Act → Bool) : (unsched s f).fwPending = s.fwPending := by unfold unsched; split <;> rfl
@[simp] theorem unsched_outbox (s : State) (f : Act → Bool) : (unsched s f).outbox = s.outbox := by unfold unsched; split <;> rfl

/-! ### `freshId` -/

@[simp] theorem freshId_cycle (s : State) : (freshId s).cycle = s.cycle := rfl
@[simp] theorem freshId_tsc (s : State) : (freshId s).tsc = s.tsc := rfl
@[simp] theorem freshId_slew (s : State) : (freshId s).slew = s.slew := rfl
@[simp] theorem freshId_slewAt (s : State) : (freshId s).slewAt = s.slewAt := rfl
@[simp] theorem freshId_aligned (s : State) : (freshId s).aligned = s.aligned := rfl
@[simp] theorem freshId_issueFrom (s : State) : (freshId s).issueFrom = s.issueFrom := rfl
@[simp] theorem freshId_agenda (s : State) : (freshId s).agenda = s.agenda := rfl
@[simp] theorem freshId_timers (s : State) : (freshId s).timers = s.timers := rfl
@[simp] theorem freshId_cur (s : State) : (freshId s).cur = s.cur := rfl
@[simp] theorem freshId_act (s : State) : (freshId s).act = s.act := rfl
@[simp] theorem freshId_behind (s : State) : (freshId s).behind = s.behind := rfl
@[simp] theorem freshId_fresh (s : State) : (freshId s).fresh = s.fresh := rfl
@[simp] theorem freshId_nextUid (s : State) : (freshId s).nextUid = s.nextUid := rfl
@[simp] theorem freshId_threads (s : State) : (freshId s).threads = s.threads := rfl
@[simp] theorem freshId_tiles (s : State) : (freshId s).tiles = s.tiles := rfl
@[simp] theorem freshId_ports (s : State) : (freshId s).ports = s.ports := rfl
@[simp] theorem freshId_clusters (s : State) : (freshId s).clusters = s.clusters := rfl
@[simp] theorem freshId_parts (s : State) : (freshId s).parts = s.parts := rfl
@[simp] theorem freshId_mem (s : State) : (freshId s).mem = s.mem := rfl
@[simp] theorem freshId_empty (s : State) : (freshId s).empty = s.empty := rfl
@[simp] theorem freshId_poison (s : State) : (freshId s).poison = s.poison := rfl
@[simp] theorem freshId_acc (s : State) : (freshId s).acc = s.acc := rfl
@[simp] theorem freshId_scanDue (s : State) : (freshId s).scanDue = s.scanDue := rfl
@[simp] theorem freshId_lastPlaced (s : State) : (freshId s).lastPlaced = s.lastPlaced := rfl
@[simp] theorem freshId_hists (s : State) : (freshId s).hists = s.hists := rfl
@[simp] theorem freshId_records (s : State) : (freshId s).records = s.records := rfl
@[simp] theorem freshId_hfqb (s : State) : (freshId s).hfqb = s.hfqb := rfl
@[simp] theorem freshId_hfqn (s : State) : (freshId s).hfqn = s.hfqn := rfl
@[simp] theorem freshId_hfqw (s : State) : (freshId s).hfqw = s.hfqw := rfl
@[simp] theorem freshId_hfqr (s : State) : (freshId s).hfqr = s.hfqr := rfl
@[simp] theorem freshId_hfqv (s : State) : (freshId s).hfqv = s.hfqv := rfl
@[simp] theorem freshId_hostStuck (s : State) : (freshId s).hostStuck = s.hostStuck := rfl
@[simp] theorem freshId_hostEnt (s : State) : (freshId s).hostEnt = s.hostEnt := rfl
@[simp] theorem freshId_casts (s : State) : (freshId s).casts = s.casts := rfl
@[simp] theorem freshId_substs (s : State) : (freshId s).substs = s.substs := rfl
@[simp] theorem freshId_calend (s : State) : (freshId s).calend = s.calend := rfl
@[simp] theorem freshId_bad (s : State) : (freshId s).bad = s.bad := rfl
@[simp] theorem freshId_cipher (s : State) : (freshId s).cipher = s.cipher := rfl
@[simp] theorem freshId_again (s : State) : (freshId s).again = s.again := rfl
@[simp] theorem freshId_ranking (s : State) : (freshId s).ranking = s.ranking := rfl
@[simp] theorem freshId_ckReserve (s : State) : (freshId s).ckReserve = s.ckReserve := rfl
@[simp] theorem freshId_ckState (s : State) : (freshId s).ckState = s.ckState := rfl
@[simp] theorem freshId_ckPower (s : State) : (freshId s).ckPower = s.ckPower := rfl
@[simp] theorem freshId_ckts (s : State) : (freshId s).ckts = s.ckts := rfl
@[simp] theorem freshId_frozen (s : State) : (freshId s).frozen = s.frozen := rfl
@[simp] theorem freshId_powerLost (s : State) : (freshId s).powerLost = s.powerLost := rfl
@[simp] theorem freshId_links (s : State) : (freshId s).links = s.links := rfl
@[simp] theorem freshId_bootStep (s : State) : (freshId s).bootStep = s.bootStep := rfl
@[simp] theorem freshId_bootFail (s : State) : (freshId s).bootFail = s.bootFail := rfl
@[simp] theorem freshId_recovery (s : State) : (freshId s).recovery = s.recovery := rfl
@[simp] theorem freshId_fwVersion (s : State) : (freshId s).fwVersion = s.fwVersion := rfl
@[simp] theorem freshId_fwMinSec (s : State) : (freshId s).fwMinSec = s.fwMinSec := rfl
@[simp] theorem freshId_fwPending (s : State) : (freshId s).fwPending = s.fwPending := rfl
@[simp] theorem freshId_outbox (s : State) : (freshId s).outbox = s.outbox := rfl

/-! ### `freshFree` -/

@[simp] theorem freshFree_cycle (s : State) : (freshFree s).cycle = s.cycle := rfl
@[simp] theorem freshFree_tsc (s : State) : (freshFree s).tsc = s.tsc := rfl
@[simp] theorem freshFree_slew (s : State) : (freshFree s).slew = s.slew := rfl
@[simp] theorem freshFree_slewAt (s : State) : (freshFree s).slewAt = s.slewAt := rfl
@[simp] theorem freshFree_aligned (s : State) : (freshFree s).aligned = s.aligned := rfl
@[simp] theorem freshFree_issueFrom (s : State) : (freshFree s).issueFrom = s.issueFrom := rfl
@[simp] theorem freshFree_agenda (s : State) : (freshFree s).agenda = s.agenda := rfl
@[simp] theorem freshFree_timers (s : State) : (freshFree s).timers = s.timers := rfl
@[simp] theorem freshFree_cur (s : State) : (freshFree s).cur = s.cur := rfl
@[simp] theorem freshFree_act (s : State) : (freshFree s).act = s.act := rfl
@[simp] theorem freshFree_behind (s : State) : (freshFree s).behind = s.behind := rfl
@[simp] theorem freshFree_nextUid (s : State) : (freshFree s).nextUid = s.nextUid := rfl
@[simp] theorem freshFree_nextId (s : State) : (freshFree s).nextId = s.nextId := rfl
@[simp] theorem freshFree_threads (s : State) : (freshFree s).threads = s.threads := rfl
@[simp] theorem freshFree_tiles (s : State) : (freshFree s).tiles = s.tiles := rfl
@[simp] theorem freshFree_ports (s : State) : (freshFree s).ports = s.ports := rfl
@[simp] theorem freshFree_clusters (s : State) : (freshFree s).clusters = s.clusters := rfl
@[simp] theorem freshFree_parts (s : State) : (freshFree s).parts = s.parts := rfl
@[simp] theorem freshFree_mem (s : State) : (freshFree s).mem = s.mem := rfl
@[simp] theorem freshFree_empty (s : State) : (freshFree s).empty = s.empty := rfl
@[simp] theorem freshFree_poison (s : State) : (freshFree s).poison = s.poison := rfl
@[simp] theorem freshFree_acc (s : State) : (freshFree s).acc = s.acc := rfl
@[simp] theorem freshFree_scanDue (s : State) : (freshFree s).scanDue = s.scanDue := rfl
@[simp] theorem freshFree_lastPlaced (s : State) : (freshFree s).lastPlaced = s.lastPlaced := rfl
@[simp] theorem freshFree_hists (s : State) : (freshFree s).hists = s.hists := rfl
@[simp] theorem freshFree_records (s : State) : (freshFree s).records = s.records := rfl
@[simp] theorem freshFree_hfqb (s : State) : (freshFree s).hfqb = s.hfqb := rfl
@[simp] theorem freshFree_hfqn (s : State) : (freshFree s).hfqn = s.hfqn := rfl
@[simp] theorem freshFree_hfqw (s : State) : (freshFree s).hfqw = s.hfqw := rfl
@[simp] theorem freshFree_hfqr (s : State) : (freshFree s).hfqr = s.hfqr := rfl
@[simp] theorem freshFree_hfqv (s : State) : (freshFree s).hfqv = s.hfqv := rfl
@[simp] theorem freshFree_hostStuck (s : State) : (freshFree s).hostStuck = s.hostStuck := rfl
@[simp] theorem freshFree_hostEnt (s : State) : (freshFree s).hostEnt = s.hostEnt := rfl
@[simp] theorem freshFree_casts (s : State) : (freshFree s).casts = s.casts := rfl
@[simp] theorem freshFree_substs (s : State) : (freshFree s).substs = s.substs := rfl
@[simp] theorem freshFree_calend (s : State) : (freshFree s).calend = s.calend := rfl
@[simp] theorem freshFree_bad (s : State) : (freshFree s).bad = s.bad := rfl
@[simp] theorem freshFree_cipher (s : State) : (freshFree s).cipher = s.cipher := rfl
@[simp] theorem freshFree_again (s : State) : (freshFree s).again = s.again := rfl
@[simp] theorem freshFree_ranking (s : State) : (freshFree s).ranking = s.ranking := rfl
@[simp] theorem freshFree_ckReserve (s : State) : (freshFree s).ckReserve = s.ckReserve := rfl
@[simp] theorem freshFree_ckState (s : State) : (freshFree s).ckState = s.ckState := rfl
@[simp] theorem freshFree_ckPower (s : State) : (freshFree s).ckPower = s.ckPower := rfl
@[simp] theorem freshFree_ckts (s : State) : (freshFree s).ckts = s.ckts := rfl
@[simp] theorem freshFree_frozen (s : State) : (freshFree s).frozen = s.frozen := rfl
@[simp] theorem freshFree_powerLost (s : State) : (freshFree s).powerLost = s.powerLost := rfl
@[simp] theorem freshFree_links (s : State) : (freshFree s).links = s.links := rfl
@[simp] theorem freshFree_bootStep (s : State) : (freshFree s).bootStep = s.bootStep := rfl
@[simp] theorem freshFree_bootFail (s : State) : (freshFree s).bootFail = s.bootFail := rfl
@[simp] theorem freshFree_recovery (s : State) : (freshFree s).recovery = s.recovery := rfl
@[simp] theorem freshFree_fwVersion (s : State) : (freshFree s).fwVersion = s.fwVersion := rfl
@[simp] theorem freshFree_fwMinSec (s : State) : (freshFree s).fwMinSec = s.fwMinSec := rfl
@[simp] theorem freshFree_fwPending (s : State) : (freshFree s).fwPending = s.fwPending := rfl
@[simp] theorem freshFree_outbox (s : State) : (freshFree s).outbox = s.outbox := rfl

/-! ### `putWord` -/

@[simp] theorem putWord_cycle (s : State) (k : Nat) (v : Word) (full : Bool) : (putWord s k v full).cycle = s.cycle := rfl
@[simp] theorem putWord_tsc (s : State) (k : Nat) (v : Word) (full : Bool) : (putWord s k v full).tsc = s.tsc := rfl
@[simp] theorem putWord_slew (s : State) (k : Nat) (v : Word) (full : Bool) : (putWord s k v full).slew = s.slew := rfl
@[simp] theorem putWord_slewAt (s : State) (k : Nat) (v : Word) (full : Bool) : (putWord s k v full).slewAt = s.slewAt := rfl
@[simp] theorem putWord_aligned (s : State) (k : Nat) (v : Word) (full : Bool) : (putWord s k v full).aligned = s.aligned := rfl
@[simp] theorem putWord_issueFrom (s : State) (k : Nat) (v : Word) (full : Bool) : (putWord s k v full).issueFrom = s.issueFrom := rfl
@[simp] theorem putWord_agenda (s : State) (k : Nat) (v : Word) (full : Bool) : (putWord s k v full).agenda = s.agenda := rfl
@[simp] theorem putWord_timers (s : State) (k : Nat) (v : Word) (full : Bool) : (putWord s k v full).timers = s.timers := rfl
@[simp] theorem putWord_cur (s : State) (k : Nat) (v : Word) (full : Bool) : (putWord s k v full).cur = s.cur := rfl
@[simp] theorem putWord_act (s : State) (k : Nat) (v : Word) (full : Bool) : (putWord s k v full).act = s.act := rfl
@[simp] theorem putWord_behind (s : State) (k : Nat) (v : Word) (full : Bool) : (putWord s k v full).behind = s.behind := rfl
@[simp] theorem putWord_fresh (s : State) (k : Nat) (v : Word) (full : Bool) : (putWord s k v full).fresh = s.fresh := rfl
@[simp] theorem putWord_nextUid (s : State) (k : Nat) (v : Word) (full : Bool) : (putWord s k v full).nextUid = s.nextUid := rfl
@[simp] theorem putWord_nextId (s : State) (k : Nat) (v : Word) (full : Bool) : (putWord s k v full).nextId = s.nextId := rfl
@[simp] theorem putWord_threads (s : State) (k : Nat) (v : Word) (full : Bool) : (putWord s k v full).threads = s.threads := rfl
@[simp] theorem putWord_tiles (s : State) (k : Nat) (v : Word) (full : Bool) : (putWord s k v full).tiles = s.tiles := rfl
@[simp] theorem putWord_ports (s : State) (k : Nat) (v : Word) (full : Bool) : (putWord s k v full).ports = s.ports := rfl
@[simp] theorem putWord_clusters (s : State) (k : Nat) (v : Word) (full : Bool) : (putWord s k v full).clusters = s.clusters := rfl
@[simp] theorem putWord_parts (s : State) (k : Nat) (v : Word) (full : Bool) : (putWord s k v full).parts = s.parts := rfl
@[simp] theorem putWord_acc (s : State) (k : Nat) (v : Word) (full : Bool) : (putWord s k v full).acc = s.acc := rfl
@[simp] theorem putWord_scanDue (s : State) (k : Nat) (v : Word) (full : Bool) : (putWord s k v full).scanDue = s.scanDue := rfl
@[simp] theorem putWord_lastPlaced (s : State) (k : Nat) (v : Word) (full : Bool) : (putWord s k v full).lastPlaced = s.lastPlaced := rfl
@[simp] theorem putWord_hists (s : State) (k : Nat) (v : Word) (full : Bool) : (putWord s k v full).hists = s.hists := rfl
@[simp] theorem putWord_records (s : State) (k : Nat) (v : Word) (full : Bool) : (putWord s k v full).records = s.records := rfl
@[simp] theorem putWord_hfqb (s : State) (k : Nat) (v : Word) (full : Bool) : (putWord s k v full).hfqb = s.hfqb := rfl
@[simp] theorem putWord_hfqn (s : State) (k : Nat) (v : Word) (full : Bool) : (putWord s k v full).hfqn = s.hfqn := rfl
@[simp] theorem putWord_hfqw (s : State) (k : Nat) (v : Word) (full : Bool) : (putWord s k v full).hfqw = s.hfqw := rfl
@[simp] theorem putWord_hfqr (s : State) (k : Nat) (v : Word) (full : Bool) : (putWord s k v full).hfqr = s.hfqr := rfl
@[simp] theorem putWord_hfqv (s : State) (k : Nat) (v : Word) (full : Bool) : (putWord s k v full).hfqv = s.hfqv := rfl
@[simp] theorem putWord_hostStuck (s : State) (k : Nat) (v : Word) (full : Bool) : (putWord s k v full).hostStuck = s.hostStuck := rfl
@[simp] theorem putWord_hostEnt (s : State) (k : Nat) (v : Word) (full : Bool) : (putWord s k v full).hostEnt = s.hostEnt := rfl
@[simp] theorem putWord_casts (s : State) (k : Nat) (v : Word) (full : Bool) : (putWord s k v full).casts = s.casts := rfl
@[simp] theorem putWord_substs (s : State) (k : Nat) (v : Word) (full : Bool) : (putWord s k v full).substs = s.substs := rfl
@[simp] theorem putWord_calend (s : State) (k : Nat) (v : Word) (full : Bool) : (putWord s k v full).calend = s.calend := rfl
@[simp] theorem putWord_bad (s : State) (k : Nat) (v : Word) (full : Bool) : (putWord s k v full).bad = s.bad := rfl
@[simp] theorem putWord_cipher (s : State) (k : Nat) (v : Word) (full : Bool) : (putWord s k v full).cipher = s.cipher := rfl
@[simp] theorem putWord_again (s : State) (k : Nat) (v : Word) (full : Bool) : (putWord s k v full).again = s.again := rfl
@[simp] theorem putWord_ranking (s : State) (k : Nat) (v : Word) (full : Bool) : (putWord s k v full).ranking = s.ranking := rfl
@[simp] theorem putWord_ckReserve (s : State) (k : Nat) (v : Word) (full : Bool) : (putWord s k v full).ckReserve = s.ckReserve := rfl
@[simp] theorem putWord_ckState (s : State) (k : Nat) (v : Word) (full : Bool) : (putWord s k v full).ckState = s.ckState := rfl
@[simp] theorem putWord_ckPower (s : State) (k : Nat) (v : Word) (full : Bool) : (putWord s k v full).ckPower = s.ckPower := rfl
@[simp] theorem putWord_ckts (s : State) (k : Nat) (v : Word) (full : Bool) : (putWord s k v full).ckts = s.ckts := rfl
@[simp] theorem putWord_frozen (s : State) (k : Nat) (v : Word) (full : Bool) : (putWord s k v full).frozen = s.frozen := rfl
@[simp] theorem putWord_powerLost (s : State) (k : Nat) (v : Word) (full : Bool) : (putWord s k v full).powerLost = s.powerLost := rfl
@[simp] theorem putWord_links (s : State) (k : Nat) (v : Word) (full : Bool) : (putWord s k v full).links = s.links := rfl
@[simp] theorem putWord_bootStep (s : State) (k : Nat) (v : Word) (full : Bool) : (putWord s k v full).bootStep = s.bootStep := rfl
@[simp] theorem putWord_bootFail (s : State) (k : Nat) (v : Word) (full : Bool) : (putWord s k v full).bootFail = s.bootFail := rfl
@[simp] theorem putWord_recovery (s : State) (k : Nat) (v : Word) (full : Bool) : (putWord s k v full).recovery = s.recovery := rfl
@[simp] theorem putWord_fwVersion (s : State) (k : Nat) (v : Word) (full : Bool) : (putWord s k v full).fwVersion = s.fwVersion := rfl
@[simp] theorem putWord_fwMinSec (s : State) (k : Nat) (v : Word) (full : Bool) : (putWord s k v full).fwMinSec = s.fwMinSec := rfl
@[simp] theorem putWord_fwPending (s : State) (k : Nat) (v : Word) (full : Bool) : (putWord s k v full).fwPending = s.fwPending := rfl
@[simp] theorem putWord_outbox (s : State) (k : Nat) (v : Word) (full : Bool) : (putWord s k v full).outbox = s.outbox := rfl

/-- Taking a line through a key changes memory and the line's key, and nothing else (R372). -/
theorem setView_shape (s : State) (k view : Nat) : ∃ m c, setView s k view = { s with mem := m, cipher := c } := by
  unfold setView
  by_cases h : k < 2 ^ 40 ∨ lookD s.cipher (k / 64) 0 = view
  · exact ⟨s.mem, s.cipher, if_pos h⟩
  · exact ⟨_, _, if_neg h⟩

/-! ### `setView` -/

@[simp] theorem setView_cycle (s : State) (k view : Nat) : (setView s k view).cycle = s.cycle := by
  obtain ⟨m, c, h⟩ := setView_shape s k view; rw [h]
@[simp] theorem setView_tsc (s : State) (k view : Nat) : (setView s k view).tsc = s.tsc := by
  obtain ⟨m, c, h⟩ := setView_shape s k view; rw [h]
@[simp] theorem setView_slew (s : State) (k view : Nat) : (setView s k view).slew = s.slew := by
  obtain ⟨m, c, h⟩ := setView_shape s k view; rw [h]
@[simp] theorem setView_slewAt (s : State) (k view : Nat) : (setView s k view).slewAt = s.slewAt := by
  obtain ⟨m, c, h⟩ := setView_shape s k view; rw [h]
@[simp] theorem setView_aligned (s : State) (k view : Nat) : (setView s k view).aligned = s.aligned := by
  obtain ⟨m, c, h⟩ := setView_shape s k view; rw [h]
@[simp] theorem setView_issueFrom (s : State) (k view : Nat) : (setView s k view).issueFrom = s.issueFrom := by
  obtain ⟨m, c, h⟩ := setView_shape s k view; rw [h]
@[simp] theorem setView_agenda (s : State) (k view : Nat) : (setView s k view).agenda = s.agenda := by
  obtain ⟨m, c, h⟩ := setView_shape s k view; rw [h]
@[simp] theorem setView_timers (s : State) (k view : Nat) : (setView s k view).timers = s.timers := by
  obtain ⟨m, c, h⟩ := setView_shape s k view; rw [h]
@[simp] theorem setView_cur (s : State) (k view : Nat) : (setView s k view).cur = s.cur := by
  obtain ⟨m, c, h⟩ := setView_shape s k view; rw [h]
@[simp] theorem setView_act (s : State) (k view : Nat) : (setView s k view).act = s.act := by
  obtain ⟨m, c, h⟩ := setView_shape s k view; rw [h]
@[simp] theorem setView_behind (s : State) (k view : Nat) : (setView s k view).behind = s.behind := by
  obtain ⟨m, c, h⟩ := setView_shape s k view; rw [h]
@[simp] theorem setView_fresh (s : State) (k view : Nat) : (setView s k view).fresh = s.fresh := by
  obtain ⟨m, c, h⟩ := setView_shape s k view; rw [h]
@[simp] theorem setView_nextUid (s : State) (k view : Nat) : (setView s k view).nextUid = s.nextUid := by
  obtain ⟨m, c, h⟩ := setView_shape s k view; rw [h]
@[simp] theorem setView_nextId (s : State) (k view : Nat) : (setView s k view).nextId = s.nextId := by
  obtain ⟨m, c, h⟩ := setView_shape s k view; rw [h]
@[simp] theorem setView_threads (s : State) (k view : Nat) : (setView s k view).threads = s.threads := by
  obtain ⟨m, c, h⟩ := setView_shape s k view; rw [h]
@[simp] theorem setView_tiles (s : State) (k view : Nat) : (setView s k view).tiles = s.tiles := by
  obtain ⟨m, c, h⟩ := setView_shape s k view; rw [h]
@[simp] theorem setView_ports (s : State) (k view : Nat) : (setView s k view).ports = s.ports := by
  obtain ⟨m, c, h⟩ := setView_shape s k view; rw [h]
@[simp] theorem setView_clusters (s : State) (k view : Nat) : (setView s k view).clusters = s.clusters := by
  obtain ⟨m, c, h⟩ := setView_shape s k view; rw [h]
@[simp] theorem setView_parts (s : State) (k view : Nat) : (setView s k view).parts = s.parts := by
  obtain ⟨m, c, h⟩ := setView_shape s k view; rw [h]
@[simp] theorem setView_empty (s : State) (k view : Nat) : (setView s k view).empty = s.empty := by
  obtain ⟨m, c, h⟩ := setView_shape s k view; rw [h]
@[simp] theorem setView_poison (s : State) (k view : Nat) : (setView s k view).poison = s.poison := by
  obtain ⟨m, c, h⟩ := setView_shape s k view; rw [h]
@[simp] theorem setView_acc (s : State) (k view : Nat) : (setView s k view).acc = s.acc := by
  obtain ⟨m, c, h⟩ := setView_shape s k view; rw [h]
@[simp] theorem setView_scanDue (s : State) (k view : Nat) : (setView s k view).scanDue = s.scanDue := by
  obtain ⟨m, c, h⟩ := setView_shape s k view; rw [h]
@[simp] theorem setView_lastPlaced (s : State) (k view : Nat) : (setView s k view).lastPlaced = s.lastPlaced := by
  obtain ⟨m, c, h⟩ := setView_shape s k view; rw [h]
@[simp] theorem setView_hists (s : State) (k view : Nat) : (setView s k view).hists = s.hists := by
  obtain ⟨m, c, h⟩ := setView_shape s k view; rw [h]
@[simp] theorem setView_records (s : State) (k view : Nat) : (setView s k view).records = s.records := by
  obtain ⟨m, c, h⟩ := setView_shape s k view; rw [h]
@[simp] theorem setView_hfqb (s : State) (k view : Nat) : (setView s k view).hfqb = s.hfqb := by
  obtain ⟨m, c, h⟩ := setView_shape s k view; rw [h]
@[simp] theorem setView_hfqn (s : State) (k view : Nat) : (setView s k view).hfqn = s.hfqn := by
  obtain ⟨m, c, h⟩ := setView_shape s k view; rw [h]
@[simp] theorem setView_hfqw (s : State) (k view : Nat) : (setView s k view).hfqw = s.hfqw := by
  obtain ⟨m, c, h⟩ := setView_shape s k view; rw [h]
@[simp] theorem setView_hfqr (s : State) (k view : Nat) : (setView s k view).hfqr = s.hfqr := by
  obtain ⟨m, c, h⟩ := setView_shape s k view; rw [h]
@[simp] theorem setView_hfqv (s : State) (k view : Nat) : (setView s k view).hfqv = s.hfqv := by
  obtain ⟨m, c, h⟩ := setView_shape s k view; rw [h]
@[simp] theorem setView_hostStuck (s : State) (k view : Nat) : (setView s k view).hostStuck = s.hostStuck := by
  obtain ⟨m, c, h⟩ := setView_shape s k view; rw [h]
@[simp] theorem setView_hostEnt (s : State) (k view : Nat) : (setView s k view).hostEnt = s.hostEnt := by
  obtain ⟨m, c, h⟩ := setView_shape s k view; rw [h]
@[simp] theorem setView_casts (s : State) (k view : Nat) : (setView s k view).casts = s.casts := by
  obtain ⟨m, c, h⟩ := setView_shape s k view; rw [h]
@[simp] theorem setView_substs (s : State) (k view : Nat) : (setView s k view).substs = s.substs := by
  obtain ⟨m, c, h⟩ := setView_shape s k view; rw [h]
@[simp] theorem setView_calend (s : State) (k view : Nat) : (setView s k view).calend = s.calend := by
  obtain ⟨m, c, h⟩ := setView_shape s k view; rw [h]
@[simp] theorem setView_bad (s : State) (k view : Nat) : (setView s k view).bad = s.bad := by
  obtain ⟨m, c, h⟩ := setView_shape s k view; rw [h]
@[simp] theorem setView_ranking (s : State) (k view : Nat) : (setView s k view).ranking = s.ranking := by
  obtain ⟨m, c, h⟩ := setView_shape s k view; rw [h]
@[simp] theorem setView_ckReserve (s : State) (k view : Nat) : (setView s k view).ckReserve = s.ckReserve := by
  obtain ⟨m, c, h⟩ := setView_shape s k view; rw [h]
@[simp] theorem setView_ckState (s : State) (k view : Nat) : (setView s k view).ckState = s.ckState := by
  obtain ⟨m, c, h⟩ := setView_shape s k view; rw [h]
@[simp] theorem setView_ckPower (s : State) (k view : Nat) : (setView s k view).ckPower = s.ckPower := by
  obtain ⟨m, c, h⟩ := setView_shape s k view; rw [h]
@[simp] theorem setView_ckts (s : State) (k view : Nat) : (setView s k view).ckts = s.ckts := by
  obtain ⟨m, c, h⟩ := setView_shape s k view; rw [h]
@[simp] theorem setView_frozen (s : State) (k view : Nat) : (setView s k view).frozen = s.frozen := by
  obtain ⟨m, c, h⟩ := setView_shape s k view; rw [h]
@[simp] theorem setView_powerLost (s : State) (k view : Nat) : (setView s k view).powerLost = s.powerLost := by
  obtain ⟨m, c, h⟩ := setView_shape s k view; rw [h]
@[simp] theorem setView_links (s : State) (k view : Nat) : (setView s k view).links = s.links := by
  obtain ⟨m, c, h⟩ := setView_shape s k view; rw [h]
@[simp] theorem setView_bootStep (s : State) (k view : Nat) : (setView s k view).bootStep = s.bootStep := by
  obtain ⟨m, c, h⟩ := setView_shape s k view; rw [h]
@[simp] theorem setView_bootFail (s : State) (k view : Nat) : (setView s k view).bootFail = s.bootFail := by
  obtain ⟨m, c, h⟩ := setView_shape s k view; rw [h]
@[simp] theorem setView_recovery (s : State) (k view : Nat) : (setView s k view).recovery = s.recovery := by
  obtain ⟨m, c, h⟩ := setView_shape s k view; rw [h]
@[simp] theorem setView_fwVersion (s : State) (k view : Nat) : (setView s k view).fwVersion = s.fwVersion := by
  obtain ⟨m, c, h⟩ := setView_shape s k view; rw [h]
@[simp] theorem setView_fwMinSec (s : State) (k view : Nat) : (setView s k view).fwMinSec = s.fwMinSec := by
  obtain ⟨m, c, h⟩ := setView_shape s k view; rw [h]
@[simp] theorem setView_fwPending (s : State) (k view : Nat) : (setView s k view).fwPending = s.fwPending := by
  obtain ⟨m, c, h⟩ := setView_shape s k view; rw [h]
@[simp] theorem setView_again (s : State) (k view : Nat) : (setView s k view).again = s.again := by
  obtain ⟨m, c, h⟩ := setView_shape s k view; rw [h]
@[simp] theorem setView_outbox (s : State) (k view : Nat) : (setView s k view).outbox = s.outbox := by
  obtain ⟨m, c, h⟩ := setView_shape s k view; rw [h]

/-- With nothing encrypted, an access through an unencrypted leaf finds memory as it is (R372). -/
@[simp] theorem setView_plain (s : State) (k : Nat) (h : s.cipher = []) : setView s k 0 = s := by
  simp [setView, h, lookD, look]

/-- A scratchpad word lies behind no port. -/
theorem setView_spad (s : State) (k view : Nat) (h : k < 2 ^ 40) : setView s k view = s := if_pos (Or.inl h)

end Sys2Proof.Machine
end

