-- ==== Sys2Proof/Laws/Ops.lean ====
section
/-! SUPPORT. What the shared operations of a unit do, once each: its issue, its end, its frame, taking an exception, and
the registers it writes. -/

namespace Sys2Proof.Machine

open Sys2Proof.Claims

/-! ### Reading a part of the state after it was changed -/

@[simp] theorem threadOf_modThread_self (s : State) (u : Nat) (f : Thread → Thread) :
    threadOf (modThread s u f) u = (threadOf s u).map f := by simp [threadOf, modThread]

theorem threadOf_modThread_of_ne (s : State) (u v : Nat) (f : Thread → Thread) (h : v ≠ u) :
    threadOf (modThread s u f) v = threadOf s v := by simp [threadOf, modThread, look_upd_of_ne _ _ _ _ h]

@[simp] theorem threadOf_modTile (s : State) (k : Nat) (f : Tile → Tile) (u : Nat) :
    threadOf (modTile s k f) u = threadOf s u := rfl

@[simp] theorem threadOf_modPart (s : State) (k : Nat) (f : Partition → Partition) (u : Nat) :
    threadOf (modPart s k f) u = threadOf s u := rfl

@[simp] theorem tileOf_modTile_self (s : State) (k : Nat) (f : Tile → Tile) : tileOf (modTile s k f) k = f (tileOf s k) := by
  simp [tileOf, modTile]

theorem tileOf_modTile_of_ne (s : State) (k j : Nat) (f : Tile → Tile) (h : j ≠ k) :
    tileOf (modTile s k f) j = tileOf s j := by simp [tileOf, modTile, lookD_ins_of_ne _ _ _ _ _ h]

@[simp] theorem tileOf_modThread (s : State) (u : Nat) (f : Thread → Thread) (k : Nat) :
    tileOf (modThread s u f) k = tileOf s k := rfl

@[simp] theorem tileOf_modPart (s : State) (p : Nat) (f : Partition → Partition) (k : Nat) :
    tileOf (modPart s p f) k = tileOf s k := rfl

@[simp] theorem partOf_modPart_self (s : State) (p : Nat) (f : Partition → Partition) :
    partOf (modPart s p f) p = f (partOf s p) := by simp [partOf, modPart]

theorem partOf_modPart_of_ne (s : State) (p q : Nat) (f : Partition → Partition) (h : q ≠ p) :
    partOf (modPart s p f) q = partOf s q := by simp [partOf, modPart, lookD_ins_of_ne _ _ _ _ _ h]

@[simp] theorem partOf_modThread (s : State) (u : Nat) (f : Thread → Thread) (p : Nat) :
    partOf (modThread s u f) p = partOf s p := rfl

@[simp] theorem partOf_modTile (s : State) (k : Nat) (f : Tile → Tile) (p : Nat) :
    partOf (modTile s k f) p = partOf s p := rfl

@[simp] theorem portOf_modPort_self (s : State) (p : Nat) (f : Port → Port) : portOf (modPort s p f) p = f (portOf s p) := by
  simp [portOf, modPort]

@[simp] theorem clusterAt_modCluster_self (s : State) (k : Nat) (f : Cluster → Cluster) :
    clusterAt (modCluster s k f) k = f (clusterAt s k) := by simp [clusterAt, modCluster]

@[simp] theorem histOf_modHist_self (s : State) (d : Nat) (f : Hist → Hist) : histOf (modHist s d f) d = f (histOf s d) := by
  simp [histOf, modHist]

@[simp] theorem linkOf_modLink_self (s : State) (l : Nat) (f : Link → Link) : linkOf (modLink s l f) l = f (linkOf s l) := by
  simp [linkOf, modLink]

/-! ### Registers -/

@[simp] theorem sget_zero (th : Thread) : sget th 0 = 0 := rfl
@[simp] theorem pget_zero (th : Thread) : pget th 0 = true := rfl
@[simp] theorem mget_zero (th : Thread) : mget th 0 = BitVec.allOnes 64 := rfl
@[simp] theorem sset_zero (v : Word) (th : Thread) : sset 0 v th = th := rfl
@[simp] theorem pset_zero (v : Bool) (th : Thread) : pset 0 v th = th := rfl
@[simp] theorem mset_zero (v : Word) (th : Thread) : mset 0 v th = th := rfl

theorem sget_sset (th : Thread) (d r : SReg) (v : Word) :
    sget (sset d v th) r = if r = d ∧ d ≠ 0 then v else sget th r := by
  by_cases hd : d = 0
  · simp [sset, hd]
  · by_cases hr : r = 0
    · subst hr; simp [sget, hd, Ne.symm hd]
    · by_cases h : r = d
      · subst h; simp [sget, sset, hd]
      · have : r.val ≠ d.val := fun e => h (Fin.ext e)
        simp [sget, sset, hd, hr, h, lookD_ins_of_ne _ _ _ _ _ this]

theorem mget_mset (th : Thread) (d r : MReg) (v : Word) :
    mget (mset d v th) r = if r = d ∧ d ≠ 0 then v else mget th r := by
  by_cases hd : d = 0
  · simp [mset, hd]
  · by_cases hr : r = 0
    · subst hr; simp [mget, hd, Ne.symm hd]
    · by_cases h : r = d
      · subst h; simp [mget, mset, hd]
      · have : r.val ≠ d.val := fun e => h (Fin.ext e)
        simp [mget, mset, hd, hr, h, lookD_ins_of_ne _ _ _ _ _ this]

theorem pget_pset (th : Thread) (d r : PReg) (v : Bool) :
    pget (pset d v th) r = if r = d ∧ d ≠ 0 then v else pget th r := by
  by_cases hd : d = 0
  · simp [pset, hd]
  · by_cases hr : r = 0
    · subst hr; simp [pget, hd, Ne.symm hd]
    · have hrl := r.isLt
      have hdl := d.isLt
      by_cases h : r = d
      · subst h
        cases v <;> simp [pget, pset, hd, hrl]
      · have : r.val ≠ d.val := fun e => h (Fin.ext e)
        have h1 : ¬ (r.val - d.val = 0 ∧ d.val ≤ r.val) := by omega
        cases v <;> simp [pget, pset, hd, hr, h, hrl] <;> omega

/-! ### The end of a unit -/

@[simp] theorem sget_unitOver (n : Ptr) (k : Nat) (th : Thread) (r : SReg) : sget (unitOver n k th) r = sget th r := rfl
@[simp] theorem pget_unitOver (n : Ptr) (k : Nat) (th : Thread) (r : PReg) : pget (unitOver n k th) r = pget th r := rfl
@[simp] theorem mget_unitOver (n : Ptr) (k : Nat) (th : Thread) (r : MReg) : mget (unitOver n k th) r = mget th r := rfl
@[simp] theorem unitOver_pc (n : Ptr) (k : Nat) (th : Thread) : (unitOver n k th).pc = n := rfl
@[simp] theorem unitOver_readyAt (n : Ptr) (k : Nat) (th : Thread) : (unitOver n k th).readyAt = k := rfl
@[simp] theorem endAs_unitOver (n : Ptr) (k : Nat) (th : Thread) : endAs (unitOver n k th) th = th := rfl

/-! ### Issue -/

theorem look_map {α : Type} (l : AMap α) (g : Nat × α → α) (k : Nat) :
    look (l.map fun e => (e.1, g e)) k = (look l k).map fun v => g (k, v) := by
  induction l with
  | nil => rfl
  | cons x t ih =>
    rcases x with ⟨j, w⟩
    simp only [List.map_cons, look]
    split
    · rename_i h; subst h; rfl
    · exact ih

/-- What an issue does to a thread: another slot's `tyield` may end (R91). -/
def yieldEnds (s : State) (c : Cur) (th : Thread) (u : Nat) (x : Thread) : Thread :=
  match x.wait with
  | .tyield n => if x.tile = th.tile ∧ u ≠ c.uid then { x with readyAt := min x.readyAt (max n (s.cycle + 1)) } else x
  | _ => x

theorem threadOf_issued (s : State) (c : Cur) (th : Thread) (h : threadOf s c.uid = some th) (u : Nat) :
    threadOf (issued s c) u = (threadOf s u).map (yieldEnds s c th u) := by
  have e : (issued s c).threads = s.threads.map fun e => (e.1, yieldEnds s c th e.1 e.2) := by
    unfold issued; rw [h]
    show List.map _ s.threads = _
    apply List.map_congr_left
    rintro ⟨v, x⟩ _
    simp only [yieldEnds]
    cases x.wait <;> simp only
    split <;> rfl
  simp only [threadOf, e, look_map]

theorem threadOf_issued_self (s : State) (c : Cur) (th : Thread) (h : threadOf s c.uid = some th) :
    threadOf (issued s c) c.uid = some th := by
  rw [threadOf_issued s c th h, h]
  simp only [Option.map_some, yieldEnds]
  split <;> simp

/-- An issue touches nothing but its thread's tile's record of it and waiting `tyield`s. -/
theorem apart_issued (s : State) (c : Cur) (th : Thread) (h : threadOf s c.uid = some th) : Apart s (issued s c) c := by
  have e : issued s c = { modTile { s with cur := none } th.tile (fun t => { t with last := th.slot, lastIssue := some s.cycle, lastPc := c.fpc }) with
      threads := (issued s c).threads } := by
    unfold issued; rw [h]
  refine ⟨?_, ?_, ?_, ?_, ?_⟩
  · rw [e]; rfl
  · rw [e]; rfl
  · intro a; rw [e]; rfl
  · intro k
    have : tileOf (issued s c) k = tileOf (modTile s th.tile (fun t => { t with last := th.slot, lastIssue := some s.cycle, lastPc := c.fpc })) k := by
      rw [e]; rfl
    rw [this]
    by_cases hk : k = th.tile
    · subst hk; simp
    · rw [tileOf_modTile_of_ne _ _ _ _ hk]
  · intro u hu x hx
    refine ⟨_, by rw [threadOf_issued s c th h, hx]; rfl, ?_⟩
    simp only [yieldEnds]
    split <;> (try split) <;> rfl

/-- A change of the unit's own thread keeps the rest apart. -/
theorem apart_modThread {s t : State} {c : Cur} (h : Apart s t c) (f : Thread → Thread) :
    Apart s (modThread t c.uid f) c := by
  obtain ⟨h1, h2, h3, h4, h5⟩ := h
  refine ⟨h1, h2, h3, h4, ?_⟩
  intro u hu x hx
  rw [threadOf_modThread_of_ne _ _ _ _ hu]
  exact h5 u hu x hx

/-- A unit of fixed latency ends: its thread and the frame. -/
theorem retireTo_spec (s : State) (c : Cur) (th : Thread) (lat : Nat) (n : Ptr) (f : Thread → Thread)
    (h : threadOf s c.uid = some th) :
    threadOf (retireTo s c lat n f) c.uid = some (unitOver n (s.cycle + c.fx + lat) (f th)) ∧ Apart s (retireTo s c lat n f) c := by
  refine ⟨?_, apart_modThread (apart_issued s c th h) _⟩
  rw [retireTo, threadOf_modThread_self, threadOf_issued_self s c th h]; rfl

theorem retire_eq (s : State) (c : Cur) (lat : Nat) (f : Thread → Thread) : retire s c lat f = retireTo s c lat c.npc f := rfl

/-- A unit that retires with one scalar written. -/
theorem writesScalar_retireTo (s : State) (c : Cur) (th : Thread) (lat : Nat) (n : Ptr) (d : SReg) (v : Word)
    (h : threadOf s c.uid = some th) : WritesScalar s c th d v n lat (retireTo s c lat n (sset d v)) := by
  obtain ⟨h1, h2⟩ := retireTo_spec s c th lat n (sset d v) h
  refine ⟨_, h1, ⟨rfl, rfl, rfl, rfl⟩, ?_, ?_, ?_, ?_, h2⟩
  · intro r; rw [sget_unitOver, sget_sset]
  · by_cases hd : d = 0
    · simp [sEmptyAt, hd]
    · simp [sEmptyAt, unitOver, sset, hd]
  · intro r hr
    by_cases hd : d = 0
    · subst hd; rfl
    · have : r.val ≠ d.val := fun e => hr (Fin.ext e)
      have h1 : r < d ∨ r.val - d.val ≠ 0 := by
        rcases Nat.lt_or_ge r.val d.val with h | h
        · exact .inl h
        · exact .inr (by omega)
      have h2 : (decide (r < d) || !decide (r.val - d.val = 0)) = true := by simpa using h1
      simp [sEmptyAt, unitOver, sset, hd, h2]
  · by_cases hd : d = 0
    · subst hd; rfl
    · simp [sset, hd]; rfl

theorem writesPred_retire (s : State) (c : Cur) (th : Thread) (lat : Nat) (d : PReg) (v : Bool)
    (h : threadOf s c.uid = some th) : WritesPred s c th d v lat (retire s c lat (pset d v)) := by
  obtain ⟨h1, h2⟩ := retireTo_spec s c th lat c.npc (pset d v) h
  refine ⟨_, h1, ⟨rfl, rfl, rfl, rfl⟩, ?_, ?_, h2⟩
  · intro r; rw [pget_unitOver, pget_pset]
  · by_cases hd : d = 0
    · subst hd; rfl
    · simp [pset, hd]; rfl

theorem writesMask_retire (s : State) (c : Cur) (th : Thread) (lat : Nat) (d : MReg) (v : Word)
    (h : threadOf s c.uid = some th) : WritesMask s c th d v lat (retire s c lat (mset d v)) := by
  obtain ⟨h1, h2⟩ := retireTo_spec s c th lat c.npc (mset d v) h
  refine ⟨_, h1, ⟨rfl, rfl, rfl, rfl⟩, ?_, ?_, h2⟩
  · intro r; rw [mget_unitOver, mget_mset]
  · by_cases hd : d = 0
    · subst hd; rfl
    · simp [mset, hd]; rfl

theorem writesNothing_retireTo (s : State) (c : Cur) (th : Thread) (lat : Nat) (n : Ptr)
    (h : threadOf s c.uid = some th) : WritesNothing s c th n lat (retireTo s c lat n id) := by
  obtain ⟨h1, h2⟩ := retireTo_spec s c th lat n id h
  exact ⟨_, h1, ⟨rfl, rfl, rfl, rfl⟩, rfl, h2⟩

/-- A ready unit has its own effect. -/
theorem unit_ready {s : State} {c : Cur} {th : Thread} {n : Need} (k : Cur → Thread → State) (h : Ready s c th n) :
    unit s n k = .next (k c th) := by
  obtain ⟨⟨hc, ht, -⟩, h1, h2, h3⟩ := h
  simp [unit, withCur, hc, ht, h1, h2, h3]

/-- Every unit answers a next state while a thread is being executed: it parks, faults, or has its own effect. -/
theorem unit_next {s : State} {c : Cur} {th : Thread} (n : Need) (k : Cur → Thread → State) (h : Executing s c th) :
    ∃ t, unit s n k = .next t := by
  obtain ⟨hc, ht, -⟩ := h
  unfold unit withCur
  rw [hc]
  simp only [ht]
  exact ⟨_, rfl⟩

/-- A unit answers a fault only where no thread is being executed, and is never refused. -/
theorem unit_cases (s : State) (n : Need) (k : Cur → Thread → State) :
    (∃ t, unit s n k = .next t) ∨ unit s n k = .fault .noThread := by
  unfold unit withCur
  split
  · exact .inr rfl
  · split
    · exact .inr rfl
    · exact .inl ⟨_, rfl⟩

/-- A row of an act answers its effect, or the fault that says that its subject does not exist; an act that met a move
waits. -/
theorem actRow_some (s : State) (k : Act → State → Option State) (a : Act) (h : s.act = some a) :
    actRow s k = match k a { s with act := none } with
      | some t => .next (match t.behind with | some m => postpone { s with act := none } m a | none => t)
      | none => .fault .notEnabled := by
  unfold actRow
  rw [h] <;> rfl

/-- The effect of an act that met no move. -/
theorem actRow_done {s t : State} {k : Act → State → Option State} {a : Act} (h : s.act = some a)
    (hk : k a { s with act := none } = some t) (hb : t.behind = none) : actRow s k = .next t := by
  rw [actRow_some s k a h, hk]
  simp only [hb]

theorem actRow_cases (s : State) (k : Act → State → Option State) :
    (∃ t, actRow s k = .next t) ∨ actRow s k = .fault .notEnabled := by
  unfold actRow
  split
  · exact .inr rfl
  · split
    · exact .inl ⟨_, rfl⟩
    · exact .inr rfl

end Sys2Proof.Machine
end

