-- ==== Sys2Proof/Laws/Store.lean ====
section
/-! SUPPORT. What the hardware's own reads, stores and queue entries leave alone: no thread changes, the byte memories
keep their canonical form, and time stands. -/

namespace Sys2Proof.Machine

/-- What a store of the hardware, an answer or a queue entry leaves of the machine. -/
def Quiet (s t : State) : Prop :=
  t.threads = s.threads ∧ (Memory.wf s.mem = true → Memory.wf t.mem = true) ∧ t.acc = s.acc ∧ t.cycle = s.cycle
    ∧ t.tsc = s.tsc ∧ t.cur = s.cur ∧ t.clusters = s.clusters

theorem Quiet.refl (s : State) : Quiet s s := ⟨rfl, id, rfl, rfl, rfl, rfl, rfl⟩

theorem Quiet.trans {s t r : State} (h1 : Quiet s t) (h2 : Quiet t r) : Quiet s r :=
  ⟨h2.1.trans h1.1, fun h => h2.2.1 (h1.2.1 h), h2.2.2.1.trans h1.2.2.1, h2.2.2.2.1.trans h1.2.2.2.1,
    h2.2.2.2.2.1.trans h1.2.2.2.2.1, h2.2.2.2.2.2.1.trans h1.2.2.2.2.2.1, h2.2.2.2.2.2.2.trans h1.2.2.2.2.2.2⟩

theorem Quiet.threadOf {s t : State} (h : Quiet s t) (u : Nat) : threadOf t u = threadOf s u := by
  simp only [Machine.threadOf, h.1]

theorem quiet_modTile (s : State) (k : Nat) (f : Tile → Tile) : Quiet s (modTile s k f) := ⟨rfl, id, rfl, rfl, rfl, rfl, rfl⟩
theorem quiet_modPort (s : State) (k : Nat) (f : Port → Port) : Quiet s (modPort s k f) := ⟨rfl, id, rfl, rfl, rfl, rfl, rfl⟩
theorem quiet_modPart (s : State) (k : Nat) (f : Partition → Partition) : Quiet s (modPart s k f) :=
  ⟨rfl, id, rfl, rfl, rfl, rfl, rfl⟩
theorem quiet_modTrace (s : State) (k : Nat) (f : TraceBlk → TraceBlk) : Quiet s (modTrace s k f) :=
  ⟨rfl, id, rfl, rfl, rfl, rfl, rfl⟩
theorem quiet_sched (s : State) (x : Timed) : Quiet s (sched s x) := ⟨rfl, id, rfl, rfl, rfl, rfl, rfl⟩
theorem quiet_schedAt (s : State) (c : Nat) (a : Act) : Quiet s (schedAt s c a) := ⟨rfl, id, rfl, rfl, rfl, rfl, rfl⟩
theorem quiet_unsched (s : State) (f : Act → Bool) : Quiet s (unsched s f) := by
  refine ⟨?_, fun h => by simpa using h, ?_, ?_, ?_, ?_, ?_⟩ <;> simp

/-- Fields that no `Quiet` speaks of. -/
theorem Quiet.hostWritten {s t : State} (h : Quiet s t) (w : Nat) (o : List OutMsg) : Quiet s { t with hfqw := w, outbox := o } := h

theorem Quiet.sent {s t : State} (h : Quiet s t) (o : List OutMsg) : Quiet s { t with outbox := o } := h

theorem Quiet.held {s t : State} (h : Quiet s t) (l : List Entry) : Quiet s { t with hostEnt := l } := h

theorem Quiet.ringWritten {s t : State} (h : Quiet s t) (w : Nat) (o : List OutMsg) (l : List Entry) :
    Quiet s { t with hfqw := w, outbox := o, hostEnt := l } := h

theorem Quiet.drew {s t : State} (h : Quiet s t) (n : Nat) (b : Bool) : Quiet s { t with fresh := n, hostStuck := b } := h

theorem Quiet.behind {s t : State} (h : Quiet s t) (m : Option Nat) : Quiet s { t with behind := m } := h

theorem quiet_putWord (s : State) (k : Nat) (v : Word) (full : Bool) : Quiet s (putWord s k v full) :=
  ⟨rfl, wf_memPutWord s.mem k v, rfl, rfl, rfl, rfl, rfl⟩

theorem quiet_answer (s : State) (r : Req) (res : AccRes) : Quiet s (answer s r res) := quiet_sched s _

theorem quiet_foldl {α : Type} (l : List α) (f : State → α → State) (h : ∀ s a, Quiet s (f s a)) (s : State) :
    Quiet s (l.foldl f s) := by
  induction l generalizing s with
  | nil => exact Quiet.refl s
  | cons a t ih => exact (h s a).trans (ih _)

theorem quiet_foldl_fst {α β : Type} (l : List α) (f : State × β → α → State × β)
    (h : ∀ p a, Quiet p.1 (f p a).1) (p : State × β) : Quiet p.1 (l.foldl f p).1 := by
  induction l generalizing p with
  | nil => exact Quiet.refl _
  | cons a t ih => exact (h p a).trans (ih _)

theorem wf_putWords (l : List (Word × Nat)) (base : Nat) (m : List Host.Cell) (h : Memory.wf m = true) :
    Memory.wf (l.foldl (fun m x => memPutWord m (base + 8 * x.2) x.1) m) = true := by
  induction l generalizing m with
  | nil => exact h
  | cons x t ih => exact ih _ (wf_memPutWord m _ _ h)

theorem quiet_setView (s : State) (k view : Nat) : Quiet s (setView s k view) := by
  refine ⟨by simp, fun h => ?_, by simp, by simp, by simp, by simp, by simp⟩
  unfold setView
  by_cases hc : k < 2 ^ 40 ∨ lookD s.cipher (k / 64) 0 = view
  · rw [if_pos hc]; exact h
  · rw [if_neg hc]
    dsimp only
    generalize List.zipIdx _ = l
    exact wf_putWords l (64 * (k / 64)) s.mem h

theorem quiet_serveList (k : Nat) (l : List Req) (s : State) : Quiet s (serveList s k l).1 := by
  induction l generalizing s with
  | nil => exact Quiet.refl s
  | cons w t ih =>
    simp only [serveList]
    split
    · split
      · rename_i vals new fl _
        refine Quiet.trans ?_ (ih _)
        refine Quiet.trans ?_ (quiet_unsched _ _)
        refine Quiet.trans ?_ (quiet_answer _ _ _)
        cases new with
        | none => exact quiet_setView s k _
        | some x => exact (quiet_setView s k _).trans (quiet_putWord _ k x.1 x.2)
      · exact ih s
    · exact ih s

theorem quiet_setWaiters (s : State) (k : Nat) (l : List Req) : Quiet s (setWaiters s k l) := by
  unfold setWaiters; split
  · exact quiet_modTile s _ _
  · exact quiet_modPort s _ _

theorem quiet_serve (s : State) (k : Nat) : Quiet s (serve s k) := by
  unfold serve; split
  · exact (quiet_serveList k _ s).trans (quiet_setWaiters _ _ _)
  · exact Quiet.refl s

theorem quiet_writeWord (s : State) (k : Nat) (v : Word) (full : Bool) : Quiet s (writeWord s k v full) :=
  (quiet_putWord s k v full).trans (quiet_serve _ k)

theorem quiet_translate (s : State) (port partn o : Nat) (w f : Bool) : Quiet s (translate s port partn o w f).1 := by
  unfold translate
  split
  · exact quiet_modPort s _ _
  · split
    · exact Quiet.refl s
    · exact quiet_modPort s _ _

theorem quiet_countStubs (l : List (Nat × Nat)) (s : State) : Quiet s (countStubs l s) :=
  quiet_foldl l (fun s x => countStub s x.1 x.2) (fun s x => quiet_modTile s x.1 _) s

theorem quiet_meetMove (s : State) (l : List (Nat × Nat)) : Quiet s (meetMove s l) := by
  unfold meetMove
  split
  · split
    · exact (Quiet.refl s).behind _
    · exact Quiet.refl s
  · exact Quiet.refl s

theorem quiet_meetEarlier (s : State) (met : Bool) : Quiet s (meetEarlier s met) := by
  unfold meetEarlier
  split
  · exact (Quiet.refl s).behind _
  · exact Quiet.refl s

theorem quiet_hwKey (s : State) (partn : Nat) (p : Ptr) (w f : Bool) : Quiet s (hwKey s partn p w f).1 := by
  have port : ∀ n o, Quiet s (match translate s n partn o w f with
      | (s1, .ok a) => (meetEarlier (setView s1 (keyPort n a) (viewOf s1 n partn o)) (earlierAtPort s n (keyPort n a)), Hw.ok (keyPort n a))
      | (s1, .page l h) => (s1, Hw.bad 0x09 (l + if w then 16 else 0) h)
      | (s1, .prot) => (s1, Hw.bad 0x0A ((if w then 1 else 0) + if w then 16 else 0) false)).1 := by
    intro n o
    have := quiet_translate s n partn o w f
    rcases h : translate s n partn o w f with ⟨s1, x⟩
    rw [h] at this
    cases x
    · exact (this.trans (quiet_setView _ _ _)).trans (quiet_meetEarlier _ _)
    · exact this
    · exact this
  unfold hwKey
  split
  · exact Quiet.refl s
  · simp only
    split
    · exact ((quiet_countStubs _ s).trans (quiet_meetMove _ _)).trans (quiet_meetEarlier _ _)
    · exact port _ _
    · exact port _ _
    · exact Quiet.refl s
    · exact Quiet.refl s

theorem quiet_hwStore (s : State) (partn : Nat) (p : Ptr) (v : Word) : Quiet s (hwStore s partn p v) := by
  have := quiet_hwKey s partn p true false
  unfold hwStore
  split
  · rename_i h; rw [h] at this; exact this.trans (quiet_writeWord _ _ _ _)
  · rename_i h; rw [h] at this; exact this

theorem quiet_hwLoad (s : State) (partn : Nat) (p : Ptr) : Quiet s (hwLoad s partn p).1 := by
  have := quiet_hwKey s partn p false false
  unfold hwLoad
  split
  · rename_i h; rw [h] at this; split <;> exact this
  · rename_i h; rw [h] at this; exact this

theorem quiet_hwRecord (s : State) (partn : Nat) (p : Ptr) (ws : List Word) : Quiet s (hwRecord s partn p ws) := by
  cases ws with
  | nil => exact Quiet.refl s
  | cons w0 t =>
    have q := quiet_foldl_fst t (fun (a : State × Nat) w => (hwStore a.1 partn (offBy p (8 * a.2)) w, a.2 + 1))
      (fun a w => quiet_hwStore a.1 partn _ w) (s, 1)
    exact q.trans (quiet_hwStore _ partn p w0)

theorem quiet_hwWritable (s : State) (partn : Nat) (p : Ptr) : Quiet s (hwWritable s partn p).1 := by
  refine quiet_foldl_fst (List.range 8) _ (fun a i => ?_) (s, true)
  have := quiet_hwKey a.1 partn (offBy p (8 * i)) true false
  split
  · rename_i h; rw [h] at this; exact this
  · rename_i h; rw [h] at this; exact this

theorem quiet_submit (s : State) (src : Nat) (k : BcKind) : Quiet s (submit s src k).1 := ⟨rfl, id, rfl, rfl, rfl, rfl, rfl⟩

theorem quiet_postHost (s : State) (e : Entry) : Quiet s (postHost s e) := (Quiet.refl s).held _
theorem quiet_postSup (s : State) (partn : Nat) (e : Entry) : Quiet s (postSup s partn e) := quiet_modPart s _ _
theorem quiet_postDbg (s : State) (partn : Nat) (e : Entry) : Quiet s (postDbg s partn e) := quiet_modTrace s _ _

theorem quiet_hostRing (s : State) (e : Entry) : Quiet s (hostRing s e) := by
  unfold hostRing
  split
  · exact (Quiet.refl s).drew _ _
  · refine Quiet.ringWritten ?_ _ _ _
    exact Quiet.trans ((Quiet.refl s).drew _ s.hostStuck) (quiet_foldl_fst e.words
      (fun (a : State × Nat) w => (putWord a.1 (keyHost (s.hfqb.toNat + 64 * (s.hfqw % s.hfqn)) + 8 * a.2) w true, a.2 + 1))
      (fun p a => quiet_putWord _ _ _ _) (freshFree s, 0))

theorem quiet_noticeFq (s : State) (partn : Nat) : Quiet s (noticeFq s partn) := by
  unfold noticeFq; split
  · exact Quiet.refl s
  · exact (quiet_modPart s _ _).trans (quiet_submit _ _ _)

theorem quiet_supRing (s : State) (partn : Nat) (e : Entry) : Quiet s (supRing s partn e) := by
  have q := quiet_hwWritable s partn (fqSlot (partOf s partn))
  unfold supRing
  simp only
  split
  · rename_i h; rw [h] at q; exact (q.trans (quiet_modPart _ _ _)).trans (quiet_noticeFq _ _)
  · rename_i h; rw [h] at q; exact (q.trans (quiet_hwRecord _ _ _ _)).trans (quiet_modPart _ _ _)

theorem quiet_dbgRing (s : State) (partn : Nat) (e : Entry) : Quiet s (dbgRing s partn e) := by
  have q := quiet_hwWritable s partn (dbqSlot (partOf s partn).trace)
  unfold dbgRing
  simp only
  split
  · rename_i h; rw [h] at q; exact q.trans (quiet_modTrace _ _ _)
  · rename_i h
    rw [h] at q
    have q2 := q.trans (quiet_hwRecord _ partn (dbqSlot (partOf s partn).trace) e.words)
    split
    · exact (q2.trans (quiet_modTrace _ _ _)).sent _
    · exact q2.trans (quiet_modTrace _ _ _)

theorem quiet_partNext (s : State) (n : Nat) (p : Partition) (t : State) (h : partNext s n p = some t) : Quiet s t := by
  unfold partNext at h
  split at h
  · rw [← Option.some.inj h]; exact quiet_supRing s _ _
  · split at h
    · rw [← Option.some.inj h]; exact quiet_dbgRing s _ _
    · exact absurd h.symm (Option.some_ne_none t)

/-- Posting an entry changes no thread, no time and no accumulator (R150, R151, R373, R399). -/
theorem quiet_postNext (s t : State) (h : postNext s = some t) : Quiet s t := by
  unfold postNext at h
  split at h
  · rw [← Option.some.inj h]; exact quiet_hostRing s _
  · obtain ⟨x, -, hx⟩ := List.exists_of_findSome?_eq_some h
    exact quiet_partNext s _ _ t (Option.filter_eq_some_iff.mp hx).1

theorem quiet_postStop (s : State) (th : Thread) (f : FaultIn) (fl : Nat) : Quiet s (postStop s th f fl) := by
  unfold postStop; split
  · exact quiet_postHost s _
  · simp only; split
    · exact (quiet_postSup s _ _).trans (quiet_postHost _ _)
    · exact quiet_postSup s _ _

end Sys2Proof.Machine
end

