-- ==== Sys2Proof/Laws/Faults.lean ====
section
/-! SUPPORT. What taking an exception does to its thread and to the machine, once for each class. -/

namespace Sys2Proof.Machine

open Sys2Proof.Claims

theorem threadOf_postStop (s : State) (th : Thread) (f : FaultIn) (fl u : Nat) :
    threadOf (postStop s th f fl) u = threadOf s u := by
  have h : Quiet s (postStop s th f fl) := quiet_postStop s th f fl
  simp only [threadOf, h.1]

theorem threadOf_modThread_some {s : State} {u : Nat} {th : Thread} (f : Thread → Thread) (h : threadOf s u = some th) :
    threadOf (modThread s u f) u = some (f th) := by rw [threadOf_modThread_self, h]; rfl

theorem endAs_faulted_sup (r : Nat) (f : FaultIn) (th : Thread) (g : FaultRec) :
    { endAs { faulted r f th with stopped := true, fr := g } th with fr := th.fr, stopped := th.stopped } = th := by
  simp only [endAs, faulted]

theorem threadOf_escalate {s : State} {u : Nat} {th : Thread} (f : FaultIn) (r : Nat) (h : threadOf s u = some th) :
    threadOf (escalate s u th f r) u
      = some { faulted r f th with stopped := true, fr := if th.inHandler then th.fr else f.record } := by
  rw [escalate, threadOf_postStop, threadOf_modThread_self, h]; rfl

theorem threadOf_deliverSup {s : State} {u : Nat} {th : Thread} (f : FaultIn) (r : Nat) (h : threadOf s u = some th) :
    threadOf (deliverSup s u th f r) u = some { faulted r f th with stopped := true, fr := f.record } := by
  rw [deliverSup, threadOf_postStop, threadOf_modThread_self, h]; rfl

theorem record_user (cause : Nat) (addr info : Word) (progress : Nat) (pc : Ptr) (tick : Nat) (host : Bool)
    (hc : causeClass cause = 0) :
    FaultIn.record { cause := cause, addr := addr, info := info, progress := progress, fpc := pc, tick := tick, host := host }
      = { cause := BitVec.ofNat 64 (cause + progress * 2 ^ 32), addr := addr, pc := pc, info := info, tsc := BitVec.ofNat 64 tick } := by
  simp [FaultIn.record, FaultIn.fcause, hc]

theorem record_sup (cause : Nat) (addr info : Word) (progress : Nat) (pc : Ptr) (tick : Nat) (host : Bool)
    (hc : causeClass cause = 1) :
    FaultIn.record { cause := cause, addr := addr, info := info, progress := progress, fpc := pc, tick := tick, host := host }
      = { cause := BitVec.ofNat 64 (cause + 256 + progress * 2 ^ 32), addr := addr, pc := pc, info := info,
          tsc := BitVec.ofNat 64 tick } := by
  simp [FaultIn.record, FaultIn.fcause, hc]

theorem now_issued {s : State} {c : Cur} {th : Thread} (h : threadOf s c.uid = some th) : (issued s c).tsc = s.tsc := by
  unfold issued; rw [h]; rfl

/-- A user-class fault found in execution (R141, R146, R147). -/
theorem takesUser_raiseAt (lat : Nat) (s : State) (c : Cur) (th : Thread) (cause : Nat) (addr info : Word) (progress : Nat)
    (h : threadOf s c.uid = some th) (he : th.ending = false) (hc : causeClass cause = 0) :
    TakesUser s c th (cause + progress * 2 ^ 32) addr info (raiseAt lat s c cause addr info progress) := by
  have hi := threadOf_issued_self s c th h
  have hr := record_user cause addr info progress c.fpc (now s) false hc
  rw [raiseAt, takeFault, hi]
  simp only [he, hc, Bool.false_eq_true, if_false]
  rw [deliverUser]
  by_cases ht : th.tvec = 0 ∨ th.inHandler
  · rw [if_pos ht]
    have e := threadOf_escalate (s := issued s c)
      { cause := cause, addr := addr, info := info, progress := progress, fpc := c.fpc, tick := now s, host := false } (s.cycle + c.fx + lat) hi
    refine ⟨_, e, by simp only [endAs, faulted], rfl, rfl, ?_⟩
    rw [if_pos ht]
    refine ⟨rfl, rfl, rfl, ?_⟩
    simp only [hr]; rfl
  · rw [if_neg ht]
    refine ⟨_, threadOf_modThread_some _ hi, by simp only [endAs, faulted], rfl, rfl, ?_⟩
    rw [if_neg ht]
    refine ⟨rfl, rfl, rfl, ?_, apart_modThread (apart_issued s c th h) _⟩
    simp only [hr]; rfl

theorem takesUser_raise (s : State) (c : Cur) (th : Thread) (cause : Nat) (addr info : Word) (progress : Nat)
    (h : threadOf s c.uid = some th) (he : th.ending = false) (hc : causeClass cause = 0) :
    TakesUser s c th (cause + progress * 2 ^ 32) addr info (raise s c cause addr info progress) :=
  takesUser_raiseAt 8 s c th cause addr info progress h he hc

/-- A supervisor-class fault found in execution (R149). -/
theorem takesSup_raise (s : State) (c : Cur) (th : Thread) (cause : Nat) (addr info : Word) (progress : Nat)
    (h : threadOf s c.uid = some th) (he : th.ending = false) (hc : causeClass cause = 1) :
    TakesSup s c th (cause + 256 + progress * 2 ^ 32) addr info (raise s c cause addr info progress) := by
  have hi := threadOf_issued_self s c th h
  rw [raise, raiseAt, takeFault, hi]
  simp only [he, hc, Bool.false_eq_true, if_false]
  generalize hf : (cause + 256 + progress * 2 ^ 32) = n
  have hr := record_sup cause addr info progress c.fpc (now s) false hc
  rw [hf] at hr
  exact ⟨_, threadOf_deliverSup _ _ hi, endAs_faulted_sup _ _ th _, rfl, rfl, rfl, rfl, hr⟩

end Sys2Proof.Machine
end

