-- ==== Sys2Proof/Tests/Slice0.lean ====
section
/-! SUPPORT. Small tests of single steps with results worked out from the manual, the words of the encoding tables, terms
that are not well formed, and for each statement concrete states that meet its hypotheses. -/

namespace Sys2Proof.Tests

set_option Elab.async false

open Sys2Proof Sys2Proof.Machine Sys2Proof.Claims

/-! ### Words -/

/-- No vector prefix. -/
def Q : VPfx := { mask := 0, zero := false, rnd := none, vc := none }

/-- Words of SYS (R39, R90-R99), from the fixed bits and fields of the opcode table. -/
def sysWords : List (BitVec 32 × Instr) :=
  [(0x00000000, .nop), (0x00001FFF, .trap 0xFFF), (0x00002000, .eret), (0x00003001, .ebreak 1),
   (0x03E04010, .mfs 31 0x010), (0x001E5022, .mts 30 0x022), (0x003E6000, .tfork 1 30), (0x00007000, .texit),
   (0x00008000, .tyield), (0x00009801, .tmark 0x801), (0x0011A000, .safept 17), (0x0000B053, .fence 3 5),
   (0x0200C000, .rclr 16)]

theorem test_decode_sys : ∀ x ∈ sysWords, decode true [x.1] = some (x.2, []) := by decide

/-- Words of ALU (R39, R100), from the fixed bits and fields of the opcode table. -/
def aluWords : List (BitVec 32 × Instr) :=
  [(0x043E3800, .add 1 30 7), (0x043E3801, .sub 1 30 7), (0x043E3802, .mul 1 30 7), (0x043E3803, .mulh 1 30 7),
   (0x043E3804, .mulhu 1 30 7), (0x043E3805, .div 1 30 7), (0x043E3806, .divu 1 30 7),
   (0x043E3807, .rem 1 30 7), (0x043E3808, .remu 1 30 7), (0x043E3809, .and 1 30 7), (0x043E380A, .or 1 30 7),
   (0x043E380B, .xor 1 30 7), (0x043E380C, .andn 1 30 7), (0x043E380D, .orn 1 30 7), (0x043E380E, .sll 1 30 7),
   (0x043E380F, .srl 1 30 7), (0x043E3810, .sra 1 30 7), (0x043E3811, .rol 1 30 7), (0x043E3812, .min 1 30 7),
   (0x043E3813, .max 1 30 7), (0x043E3814, .minu 1 30 7), (0x043E3815, .maxu 1 30 7), (0x043E381B, .bfx 1 30 7),
   (0x043E381C, .bfi 1 30 7), (0x07E20016, .clz 31 2), (0x07E20017, .ctz 31 2), (0x07E20018, .pop 31 2),
   (0x04641019, .sext 3 4 2), (0x0464081A, .zext 3 4 1), (0x0422195D, .sel 1 2 3 5)]

theorem test_decode_alu : ∀ x ∈ aluWords, decode true [x.1] = some (x.2, []) := by decide

/-- Words of the immediate forms (R103-R105), from the fixed bits and fields of the opcode table. -/
def immWords : List (BitVec 32 × Instr) :=
  [(0x08FEFFFF, .addi 7 30 (-1)), (0x0CFE8000, .andi 7 30 0x8000), (0x10FE8000, .ori 7 30 0x8000),
   (0x14FE8000, .xori 7 30 0x8000), (0x18FE003F, .slli 7 30 63), (0x18FE403F, .srli 7 30 63),
   (0x18FE803F, .srai 7 30 63), (0x18FEC03F, .roli 7 30 63), (0x1D38BEEF, .lih 9 3 0xBEEF),
   (0x1D34BEEF, .lihK 9 2 0xBEEF)]

theorem test_decode_imm : ∀ x ∈ immWords, decode true [x.1] = some (x.2, []) := by decide

/-- Words of compares and PRED (R106, R107), from the fixed bits and fields of the opcode table. -/
def predWords : List (BitVec 32 × Instr) :=
  [(0x20AF8700, .cmp 1 .lt true 30 7), (0x23D7BFFF, .cmpImm 7 .gt false 30 0x1FFF), (0x24261800, .pand 1 6 3),
   (0x24261801, .por 1 6 3), (0x24261802, .pxor 1 6 3), (0x24261803, .pandn 1 6 3), (0x24260004, .pnot 1 6),
   (0x243E0005, .pmov 1 30), (0x27C10006, .pget 30 1)]

theorem test_decode_pred : ∀ x ∈ predWords, decode true [x.1] = some (x.2, []) := by decide

/-- Words of branches and jumps (R26, R108, R109), from the fixed bits and fields of the opcode table. -/
def branchWords : List (BitVec 32 × Instr) :=
  [(0x2A000001, .b 0x2000001), (0x2DFFFFFF, .bl 0x1FFFFFF), (0x32A00001, .bp 5 0x200001),
   (0x32DFFFFF, .bpNot 5 0x1FFFFF), (0x341F0000, .jr 31), (0x37C10001, .jlr 30 1)]

theorem test_decode_branch : ∀ x ∈ branchWords, decode true [x.1] = some (x.2, []) := by decide

/-- Words of LD, ST, SYNC, ATOM and the barrier objects (R39, R40), from the fixed bits and fields of the opcode table. -/
def memWords : List (BitVec 32 × Instr) :=
  [(0x403E0801, .ldb 1 30 (-2047) .plain), (0x403E1801, .ldbu 1 30 (-2047) .plain),
   (0x403E2801, .ldh 1 30 (-2047) .plain), (0x403E3801, .ldhu 1 30 (-2047) .plain),
   (0x403E4801, .ldw 1 30 (-2047) .plain), (0x403E5801, .ldwu 1 30 (-2047) .plain),
   (0x403E6801, .ldd 1 30 (-2047) .plain), (0x443E0801, .stb 1 30 (-2047) .plain),
   (0x443E1801, .sth 1 30 (-2047) .plain), (0x443E2801, .stw 1 30 (-2047) .plain),
   (0x443E3801, .std 1 30 (-2047) .plain), (0x483E07FF, .take 1 30 2047 false),
   (0x483E17FF, .peek 1 30 2047 false), (0x483E27FF, .give 1 30 2047 false),
   (0x483E37FF, .post 1 30 2047 false), (0x481E4003, .void 30 3 false), (0x48BE5003, .probe 5 30 3 false),
   (0x4C3E3800, .amoadd 1 30 7 false), (0x4C3E3801, .amoand 1 30 7 false), (0x4C3E3802, .amoor 1 30 7 false),
   (0x4C3E3803, .amoxor 1 30 7 false), (0x4C3E3804, .amomin 1 30 7 false), (0x4C3E3805, .amomax 1 30 7 false),
   (0x4C3E3806, .amominu 1 30 7 false), (0x4C3E3807, .amomaxu 1 30 7 false),
   (0x4C3E3808, .amoswap 1 30 7 false), (0x4C3E3809, .amocas 1 30 7 false), (0x601E3801, .barini 30 7),
   (0x601E3802, .barexp 30 7), (0x601E3803, .barwt 30 7)]

theorem test_decode_mem : ∀ x ∈ memWords, decode true [x.1] = some (x.2, []) := by decide

/-- Words of FAB and `paddi` (R187-R192), from the fixed bits and fields of the opcode table. -/
def fabWords : List (BitVec 32 × Instr) :=
  [(0x503E2800, .dist 1 30 5), (0x503E3801, .padd 1 30 7), (0x503E3802, .pmk 1 30 7),
   (0x503E1803, .pfld 1 30 3), (0x503E0004, .pfix 1 30), (0x501E0005, .leap 30), (0x501E3806, .rput 30 7),
   (0x543E8000, .paddi 1 30 (-32768))]

theorem test_decode_fab : ∀ x ∈ fabWords, decode true [x.1] = some (x.2, []) := by decide

/-- Words of RV, JOB, EVT and WORK (R39, R40), from the fixed bits and fields of the opcode table. -/
def unitWords : List (BitVec 32 × Instr) :=
  [(0x5C1E0017, .rvinit 23 30), (0x5C001017, .rvarr 23), (0x5C002001, .rvwait 1), (0x5CA03016, .rvtest 5 22),
   (0x603E1000, .jpush 1 30 2), (0x603E0810, .jpushW 1 30 1), (0x64DE3800, .evsend 3 30 7),
   (0x67A00001, .evnext 29), (0x64000002, .evnull), (0x64FE0803, .lkset 7 30 1), (0x683E3800, .dqpush 1 30 7),
   (0x6BA00141, .dqpop 29 5), (0x68000002, .dqsplit), (0x68200183, .dqsteal 1 6), (0x6BC00004, .dqcnt 30)]

theorem test_decode_unit : ∀ x ∈ unitWords, decode true [x.1] = some (x.2, []) := by decide

/-- Words of VA, VL, VC, VS, VX and VP (R240), from the fixed bits and fields of the opcode table. -/
def vecWords : List (BitVec 32 × Instr) :=
  [(0x801FA190, .vadd 1 62 33 .f32 Q), (0x801FA191, .vsub 1 62 33 .f32 Q), (0x801FA192, .vmul 1 62 33 .f32 Q),
   (0x801FA193, .vmin 1 62 33 .f32 Q), (0x801FA194, .vmax 1 62 33 .f32 Q), (0x801FA195, .vfma 1 62 33 .f32 Q),
   (0x801FA196, .vfms 1 62 33 .f32 Q), (0x801FA197, .vdiv 1 62 33 .f32 Q), (0x801F8088, .vabs 1 62 .f64 Q),
   (0x801F8089, .vneg 1 62 .f64 Q), (0x8C1F8080, .vsqrt 1 62 .f64 Q), (0x8C1F8081, .vrcp 1 62 .f64 Q),
   (0x8C1F8082, .vrsqrt 1 62 .f64 Q), (0x8C1F8083, .vexp2 1 62 .f64 Q), (0x8C1F8084, .vlog2 1 62 .f64 Q),
   (0x8C1F8085, .vtanh 1 62 .f64 Q), (0x801FA16A, .vmulh 1 62 33 .n32 Q), (0x841FA160, .vand 1 62 33 .n32 Q),
   (0x841FA161, .vor 1 62 33 .n32 Q), (0x841FA162, .vxor 1 62 33 .n32 Q), (0x841FA163, .vandn 1 62 33 .n32 Q),
   (0x841FA164, .vshl 1 62 33 .n32 Q), (0x841FA165, .vshr 1 62 33 .n32 Q), (0x841FA166, .vsra 1 62 33 .n32 Q),
   (0x89DFA120, .vcmp 5 .ge 62 33 .i32 Q), (0x901F8290, .vcvt 1 62 .i32 .f32 Q),
   (0x941FA130, .vperm 1 62 33 .i64 Q), (0x941F9131, .vslide 1 62 17 .i64 Q), (0x96178042, .vbcast 33 30 .n8 Q),
   (0x95EF9133, .vextr 30 62 17 .i64 Q), (0x97E79134, .vins 62 30 17 .i64 Q), (0x941F8005, .vredsum 1 62 .i8 Q),
   (0x941F8006, .vredmax 1 62 .i8 Q), (0x941F8007, .vredmin 1 62 .i8 Q)]

theorem test_decode_vec : ∀ x ∈ vecWords, decode true [x.1] = some (x.2, []) := by decide

/-- Words of VK (R255), from the fixed bits and fields of the opcode table. -/
def maskWords : List (BitVec 32 × Instr) :=
  [(0x9C118300, .mand 1 6 3 Q), (0x9C118301, .mor 1 6 3 Q), (0x9C118302, .mxor 1 6 3 Q),
   (0x9C118003, .mnot 1 6 Q), (0x9DE18004, .mpop 30 6 Q), (0x9DE18005, .mfirst 30 6 Q),
   (0x9C178006, .mset 1 30 Q), (0x9DE04007, .mget 30 1 Q)]

theorem test_decode_mask : ∀ x ∈ maskWords, decode true [x.1] = some (x.2, []) := by decide

/-- Words of VM (R249, R300), from the fixed bits and fields of the opcode table. -/
def vmemWords : List (BitVec 32 × Instr) :=
  [(0x9BE03D20, .vld 62 30 .f32 false Q), (0x9BE03C63, .vst 62 30 .i64 false Q),
   (0x9BE0FC71, .vlds 62 3 30 7 false Q), (0x9BE07C74, .vsts 62 1 30 7 false Q),
   (0x9BE87CC2, .vldx 62 33 30 .n32 false Q), (0x9BE87CC5, .vstx 62 33 30 .n32 false Q),
   (0x9BE87CC6, .vstxa 62 33 30 .n32 false Q), (0x9BE03C07, .amov 62 30 Q), (0x9BE03C08, .aput 62 30 Q)]

theorem test_decode_vmem : ∀ x ∈ vmemWords, decode true [x.1] = some (x.2, []) := by decide

/-- Words of DA, DX, DM and `prec` (R268-R278), from the fixed bits and fields of the opcode table. -/
def dnWords : List (BitVec 32 × Instr) :=
  [(0xC02E3800, .dadd 1 14 7), (0xC02E3801, .dsub 1 14 7), (0xC02E3802, .dmul 1 14 7),
   (0xC02E3803, .ddiv 1 14 7), (0xC02E3804, .dfma 1 14 7), (0xC02E0005, .dsqrt 1 14), (0xC02E0006, .dneg 1 14),
   (0xC02E0007, .dabs 1 14), (0xC02E0008, .dmov 1 14), (0xC02E0009, .dround 1 14),
   (0xC0AE384A, .dcmp 5 .le 14 7), (0xC5DE0000, .dcvtf 14 30), (0xC5DE0002, .dcvti 14 30),
   (0xC7CE0001, .dcvtd 30 14), (0xC7CE0003, .dcvtdi 30 14), (0xC7CE0004, .dhead 30 14),
   (0xC7CE0005, .dclass 30 14), (0xC9DE0FFF, .ldn 14 30 (-1)), (0xC9DE1001, .stn 14 30 1),
   (0xCE001000, .prec 16 4096), (0xCC5E0000, .precReg 2 30)]

theorem test_decode_dn : ∀ x ∈ dnWords, decode true [x.1] = some (x.2, []) := by decide

/-- R27-R31, R37: units of several words, among them the three worked encodings of the manual. -/
def prefixedUnits : List (List (BitVec 32) × Instr) :=
  [([0xFD800000, 0x40A66002], .ldd 5 6 2 .relaxed),
   ([0xFE012345, 0x08E06789], .addi 7 0 0x123456789),
   ([0xFC543C00, 0x80414695], .vfma 4 5 6 .f32 { mask := 2, zero := true, rnd := some .rtz, vc := some 7 }),
   ([0xFD200000, 0x40A66002], .ldd 5 6 2 .leap),
   ([0xFEFFFFFF, 0xFD800000, 0x40A66FFF], .ldd 5 6 (-1) .relaxed),
   ([0xFD800000, 0xFE800000, 0x40A66000], .ldd 5 6 (-(2 ^ 35)) .relaxed),
   ([0xFD200000, 0xFE000001, 0x48A60000], .take 5 6 4096 true),
   ([0xFD800000, 0xFC200000, 0x9BE03D20], .vld 62 30 .f32 true { Q with mask := 1 })]

theorem test_decode_prefixed : ∀ x ∈ prefixedUnits, decode false x.1 = some (x.2, []) := by decide

/-- R34-R36, R40: units that are refused, with cause, failing word, its position and the reason. -/
def refusedUnits : List (List (BitVec 32) × DecodeFault) :=
  [([0xFFFFFFFF], { cause := 2, word := 0xFFFFFFFF, pos := 0, reason := 0 }),
   ([0x38000000], { cause := 1, word := 0x38000000, pos := 0, reason := 0 }),
   ([0x0400001E], { cause := 1, word := 0x0400001E, pos := 0, reason := 0 }),
   ([0x00010000], { cause := 2, word := 0x00010000, pos := 0, reason := 0 }),
   ([0xFE000000, 0xFE000000, 0x08E06789], { cause := 3, word := 0xFE000000, pos := 1, reason := 2 }),
   ([0xFE000000, 0xFC000000, 0xFD000000, 0x08E06789], { cause := 3, word := 0xFD000000, pos := 2, reason := 1 }),
   ([0xFD000000, 0x08E06789], { cause := 3, word := 0xFD000000, pos := 0, reason := 3 }),
   ([0xFC000400, 0x80414690], { cause := 3, word := 0xFC000400, pos := 0, reason := 4 })]

theorem test_decode_refuses :
    ∀ x ∈ refusedUnits, ∃ n ∈ [1, 2, 3, 4], decodeUnit false x.1 = .bad x.2 n := by decide

/-- R22: an opcode-table word is decoded as the instruction it gives, whatever zeros follow it. -/
theorem test_decode_table_word : decodeTableWord 32 0x043E3800 = some (.add 1 30 7) := by decide

theorem test_decode_needs_words : decode false [0xFE000000] = none := by decide

/-! ### Terms that no unit encodes -/

theorem test_ill_formed_immediate : (Instr.addi 1 2 (2 ^ 39)).wf = false := by decide
theorem test_ill_formed_displacement : (Instr.ldd 1 2 (-(2 ^ 35) - 1) .plain).wf = false := by decide
theorem test_ill_formed_system_register : (Instr.mfs 1 0x0FF).wf = false := by decide
theorem test_ill_formed_rounding : (Instr.vmin 1 2 3 .f32 { Q with rnd := some .rtz }).wf = false := by decide
theorem test_ill_formed_zeroing : (Instr.vst 1 2 .f32 false { Q with zero := true }).wf = false := by decide
theorem test_ill_formed_fourth_operand : (Instr.vadd 1 2 3 .f32 { Q with vc := some 4 }).wf = false := by decide
theorem test_ill_formed_storage_type : (Instr.vadd 1 2 3 .e4m3 Q).wf = false := by decide
theorem test_ill_formed_float_type : (Instr.vmulh 1 2 3 .f32 Q).wf = false := by decide
theorem test_ill_formed_integer_type : (Instr.vsqrt 1 2 .i32 Q).wf = false := by decide
theorem test_ill_formed_precision : (Instr.prec 1 4097).wf = false := by decide
theorem test_ill_formed_precision_register : (Instr.precReg 1 0).wf = false := by decide
theorem test_ill_formed_command : Instr.mma.wf = false := by decide
theorem test_ill_formed_refused_unit : (Instr.illegalInstruction default).wf = false := by decide

/-- R37: the encoder's order of words. -/
theorem test_encode_prefix_order : encode (.ldd 5 6 4096 .relaxed) = [0xFD800000, 0xFE000001, 0x40A66000] := by decide

/-! ### States -/

/-- A pointer of kind 0 at the first tile of the frame. -/
def at0 (off : Nat) : Ptr := mkPtr 0 0 0 off

/-- A user thread of team 1 on tile 0, with two vector registers and sixteen granules. -/
def thr : Thread := { Thread.reset with
  serial := 1, pc := at0 0x8000, s := [(1, 7), (2, -3), (3, 8), (4, 0x8080), (6, 0x907), (7, 0x804), (8, 0x100)],
  p := 0x02, m := [(1, 0x5)], vn := 2, dwin := 16, rows := [0, 1, 2, 3], tvec := at0 0x9000,
  dn := { prc := 64, dlive := 4, dctl := 0, dslot := 2 } }

def team : Team :=
  { ox := 0, oy := 0, w := 2, h := 2, t := 2, v := 2, win := 16, pair := false, ltm := false, sup := false, prio := 3, sd := 0,
    slice := 0, sliceEnd := 0, launch := 8, words := [], src := .sup, started := true, holding := false,
    points := [(0, { expected := 8, arrived := 0, phase := false, closed := false })], req := none, reqAt := 0, reason := 0 }

def frame : Frame := { ox := 0, oy := 0, w := 8, h := 8, chans := [3, 5], ptroot := 0x100000, hwsz := 0x20000, conf := false }

def part : Partition := { Partition.reset with pstate := 2, frame := some frame, teams := [(1, team)], lastSerial := 1 }

/-- The device after bring-up, with one partition and some threads. -/
def world (ths : List (Nat × Thread)) : State := { State.reset with
  agenda := [], cycle := 1000, tsc := 444, calend := 6, bootStep := 7, nextUid := 10, nextId := 20, parts := [(0, part)],
  threads := ths, tiles := [(0, Tile.reset)] }

def cur : Cur := { uid := 0, fpc := at0 0x8000, npc := at0 0x8004, fx := 0, word := 0, pos := 0 }

/-- The state in which a unit of a thread is executed. -/
def unit (th : Thread) : State := { world [(0, th)] with cur := some cur }

/-- The state in which an act is in hand. -/
def acting (s : State) (a : Act) : State := { s with act := some a }

/-- An act is in hand: `Acting` is met in every state of which no access is behind a moving block, as in `world`. -/
theorem witness_Acting :
    (∀ s a, s.behind = none → Acting (acting s a) a) ∧ (∀ ths, (world ths).behind = none ∧ Unhindered (world ths)) :=
  ⟨fun _ _ h => ⟨rfl, h⟩, fun _ => ⟨rfl, rfl⟩⟩

/-- What a step leaves; the state itself where it stops. -/
def after (i : Instr) (s : State) : State := match exec i s with | .next t => t | _ => s

def threadAfter (i : Instr) (s : State) : Thread := (threadOf (after i s) 0).getD Thread.reset

/-! ### Single steps -/

/-- R100-R105, R188, R189: what instructions leave in s5, by hand from s1 = 7, s2 = −3, s3 = 8, s4 = 0x8080, s6 = position
7 and length 9, s7 = position 4 and length 8. -/
def scalarResults : List (Instr × Word) :=
  [(.add 5 1 2, 4), (.sub 5 1 2, 10), (.mul 5 1 2, -21), (.mulh 5 1 2, -1), (.mulhu 5 1 2, 6), (.div 5 1 2, -2), (.rem 5 1 2, 1),
   (.divu 5 1 2, 0), (.remu 5 2 1, 6), (.and 5 1 2, 5), (.or 5 1 2, -1), (.xor 5 1 2, -6), (.andn 5 1 2, 2), (.orn 5 1 2, 7),
   (.sll 5 1 2, 0xE000000000000000), (.srl 5 2 1, 0x1FFFFFFFFFFFFFF), (.sra 5 2 1, -1), (.rol 5 2 1, 0xFFFFFFFFFFFFFEFF),
   (.min 5 1 2, -3), (.max 5 1 2, 7), (.minu 5 1 2, 7), (.maxu 5 1 2, -3), (.clz 5 1, 61), (.clz 5 0, 64), (.ctz 5 3, 3),
   (.ctz 5 0, 64), (.pop 5 2, 63), (.sext 5 4 0, -128), (.zext 5 4 0, 0x80), (.sext 5 4 1, 0xFFFFFFFFFFFF8080),
   (.bfx 5 4 6, 0x101), (.sel 5 1 2 1, 7), (.sel 5 1 2 2, -3), (.addi 5 1 (-8), -1), (.andi 5 2 0xFF, 0xFD), (.ori 5 1 8, 15),
   (.xori 5 1 (-1), -8), (.slli 5 1 63, 0x8000000000000000), (.srli 5 2 63, 1), (.srai 5 2 63, -1), (.roli 5 2 1, -5),
   (.lih 5 3 0xBEEF, 0xBEEF000000000000), (.lihK 5 1 0xBEEF, 0xBEEF0000), (.pget 5 1, 1), (.pget 5 2, 0),
   (.padd 5 3 1, 15), (.paddi 5 3 8, 16), (.pfld 5 2 0, 15), (.pfld 5 2 1, 127), (.mfs 5 0x000, 0), (.dqcnt 5, 0)]

theorem test_scalar_results : ∀ x ∈ scalarResults, sget (threadAfter x.1 (unit thr)) 5 = x.2 := by decide

/-- R102: `bfi` inserts the low eight bits of s1 at position 4 of its destination. -/
theorem test_bfi_inserts : sget (threadAfter (.bfi 4 1 7) (unit thr)) 4 = 0x8070 := by decide

/-- R105: `lih` with keep leaves the other bits. -/
theorem test_lih_keeps : sget (threadAfter (.lihK 2 1 0) (unit thr)) 2 = 0xFFFFFFFF0000FFFD := by decide

/-- R67: a write to s0 is discarded. -/
theorem test_s0_reads_zero : sget (threadAfter (.add 0 1 1) (unit thr)) 0 = 0 := by decide

/-- R101: a divisor of zero is the arithmetic fault 0x16 with FINFO 1, delivered to the handler. -/
theorem test_divide_by_zero :
    (threadAfter (.div 5 1 0) (unit thr)).fr = { cause := 0x16, addr := 0, pc := at0 0x8000, info := 1, tsc := 444 }
      ∧ (threadAfter (.div 5 1 0) (unit thr)).pc = at0 0x9000 := by decide

/-- R101: −2^63 divided by −1. -/
theorem test_divide_overflows :
    sget (threadAfter (.div 5 1 2) (unit { thr with s := [(1, 0x8000000000000000), (2, -1)] })) 5 = 0x8000000000000000 := by decide

/-- R106, R107, R130: what instructions leave in p3. -/
def predicateResults : List (Instr × Bool) :=
  [(.cmp 3 .lt false 2 1, true), (.cmp 3 .lt true 2 1, false), (.cmp 3 .le false 1 1, true), (.cmp 3 .gt false 1 1, false),
   (.cmp 3 .ne false 1 2, true), (.cmpImm 3 .eq false 1 7, true), (.cmpImm 3 .ge true 1 0x1FFF, false), (.pand 3 0 1, true),
   (.por 3 2 2, false), (.pxor 3 0 1, false), (.pandn 3 0 2, true), (.pnot 3 1, false), (.pmov 3 1, true), (.pmov 3 0, false),
   (.dqpop 10 3, false), (.rvtest 3 1, false)]

theorem test_predicate_results : ∀ x ∈ predicateResults, pget (threadAfter x.1 (unit { thr with p := 0x0A })) 3 = x.2 := by decide

/-- R108, R109: where a thread goes on. -/
def branchResults : List (Instr × Ptr) :=
  [(.b 1, at0 0x8004), (.b 0x3FFFFFF, at0 0x7FFC), (.bl 2, at0 0x8008), (.bp 1 4, at0 0x8010), (.bp 2 4, at0 0x8004),
   (.bpNot 1 4, at0 0x8004), (.bpNot 2 4, at0 0x8010), (.jr 8, at0 0x100), (.jlr 5 8, at0 0x100), (.jr 1, at0 0x9000)]

theorem test_branch_results : ∀ x ∈ branchResults, (threadAfter x.1 (unit thr)).pc = x.2 := by decide

/-- R108, R109: the link is the address of the next unit, and the target is read before it is written. -/
theorem test_links :
    sget (threadAfter (.bl 2) (unit thr)) 31 = at0 0x8004
      ∧ (threadAfter (.jlr 8 8) (unit thr)).pc = at0 0x100 ∧ sget (threadAfter (.jlr 8 8) (unit thr)) 8 = at0 0x8004 := by decide

/-- R92, R93: a trap enters the handler, and `eret` leaves it. -/
theorem test_trap_and_return :
    (threadAfter (.trap 9) (unit thr)).fr.info = 9 ∧ (threadAfter (.trap 9) (unit thr)).inHandler = true
      ∧ (threadAfter .eret (unit { thr with inHandler := true, fr := { thr.fr with pc := at0 0x8100 } })).pc = at0 0x8100
      ∧ (threadAfter .eret (unit thr)).fr.cause = 1 := by decide

/-- R147: without a handler a user-class fault stops the thread at its unit. -/
theorem test_trap_escalates :
    (threadAfter (.trap 9) (unit { thr with tvec := 0 })).stopped = true
      ∧ (threadAfter (.trap 9) (unit { thr with tvec := 0 })).pc = at0 0x8000 := by decide

/-- R95, R96: `tfork` starts a thread in slot 1 at s8, and `texit` ends its own. -/
theorem test_threads_start_and_end :
    sget (threadAfter (.tfork 5 8) (unit thr)) 5 = 1
      ∧ ((threadOf (after (.tfork 5 8) (unit thr)) 10).map fun t => (t.slot, t.pc, sget t 1, sget t 2)) = some (1, at0 0x100, 7, 1)
      ∧ (threadOf (after .texit (unit thr)) 0).isNone = true := by decide +kernel

/-- R99, R69: a cleared register parks the unit that reads it. -/
theorem test_rclr_parks :
    sEmptyAt (threadAfter (.rclr 5) (unit thr)) 5 = true
      ∧ (threadAfter (.add 6 5 1) (unit { thr with sEmpty := 0x20 })).wait = .issue { Need.none with sr := [5, 1], sd := [6] } := by decide +kernel

/-- R71, R94: registers read and written by number. -/
theorem test_system_registers :
    sget (threadAfter (.mfs 5 0x034) (unit thr)) 5 = 2
      ∧ (threadAfter (.mts 4 0x022) (unit thr)).meter = { thr.meter with cnt := false }
      ∧ (threadAfter (.mfs 5 0x100) (unit thr)).fr.cause = 4 := by decide

/-- R25, R88, R169: checks of a scalar access, by cause and FINFO. -/
def accessFaults : List (Instr × Word × Word) :=
  [(.ldd 5 8 (-33) .plain, 8, 3), (.ldd 5 8 (2 ^ 18) .plain, 8, 3), (.ldw 5 1 0 .plain, 7, 4), (.ldd 5 2 0 .plain, 8, 1),
   (.barini 2 1, 8, 1), (.give 1 1 0 false, 7, 8)]

theorem test_access_faults :
    ∀ x ∈ accessFaults, ((threadAfter x.1 (unit thr)).fr.cause, (threadAfter x.1 (unit thr)).fr.info) = x.2 := by decide +kernel

/-- R54, R79, R183: a load of the own tile's scratchpad asks its home, charges nothing, and its answer is due 12 cycles
after its issue. -/
theorem test_load_is_sent :
    (threadAfter (.ldd 5 8 0 .plain) (unit thr)).wait = .access 20
      ∧ (threadAfter (.ldd 5 8 0 .plain) (unit thr)).meter.dmt = 0
      ∧ ((after (.ldd 5 8 0 .plain) (unit thr)).agenda.map fun e => e.cycle) = [1011] := by decide

/-- The key of the word at offset 0x100 of tile 0. -/
def k100 : Nat := keySpad 0 0x100

/-- An access under way of one part, and a thread that waits for it. -/
def flt (op : FlOp) : Flight :=
  { fid := 20, rx := false, fpc := at0 0x8000, npc := at0 0x8004, op := op, first := 0, parts := 1, out := [0], pend := [], got := [],
    flags := 0, bad := [], sent := [], minEnd := 0, charge := 0, stub := none, fee := 0, lv := 0, done := false }

def athr (op : FlOp) : Thread := { thr with wait := .access 20, flights := [flt op] }

/-- A request of `thr` for the word at offset 0x100 of its tile, in flight. -/
def req (op : AccOp) : Req :=
  { uid := 0, fid := 20, part := 0, partn := 0, src := 0, sup := false, rx := false, addr := at0 0x100, at_ := at0 0x100,
    home := .spad 0 0x100, op := op, inj := 444, key := 0, ow := 0, legs := 0, stub := none, kbits := 0, first := none, limit := 0x10000,
    view := 0, turn := none }

/-- A state whose word at offset 0x100 holds 5, full or empty, with a request at its home. -/
def home (full : Bool) (op : AccOp) : State :=
  acting { world [(0, athr .storeS)] with mem := memPutWord [] k100 5, empty := if full then [] else [k100] } (.homeAccess (req op))

/-- What a request leaves of its word: the value, the full bit, and what is answered. -/
def wordAfter (s : State) : Word × Bool × List Act :=
  let t := after .homeAccess s
  (wordAt t k100, wordFull t k100, t.agenda.map fun e => e.act)

/-- An answer to the request, with what it read. -/
def answers (vs : List Word) : List Act :=
  [.accessResponse { uid := 0, fid := 20, part := 0, addr := at0 0x100, stub := none, res := .done vs 0 }]

/-- R52, R110, R112, R115, R118, R119: what accesses do to a full word that holds 5. -/
def homeResults : List (AccOp × Word × Bool × List Act) :=
  [(.load 1, 5, true, answers [5]), (.store 1 0x1FF, 0xFF, true, answers []), (.store 8 9, 9, true, answers []),
   (.take, 5, false, answers [5]), (.peek, 5, true, answers [5]), (.post 9, 9, true, answers []), (.void, 5, false, answers []),
   (.probe, 5, true, answers [1]), (.amo .add (-6) 0, -1, true, answers [5]), (.amo .and 3 0, 1, true, answers [5]),
   (.amo .or 3 0, 7, true, answers [5]), (.amo .xor 1 0, 4, true, answers [5]), (.amo .min (-1) 0, -1, true, answers [5]),
   (.amo .max (-1) 0, 5, true, answers [5]), (.amo .minu (-1) 0, 5, true, answers [5]), (.amo .maxu (-1) 0, -1, true, answers [5]),
   (.amo .swap 9 0, 9, true, answers [5]), (.amo .cas 9 5, 9, true, answers [5]), (.amo .cas 9 4, 5, true, answers [5]),
   (.barini 64, 0x4000000000, true, answers []), (.barexp 1, 0x8000000100000004, true, answers []), (.barwt true, 5, true, answers [])]

theorem test_home_results : ∀ x ∈ homeResults, wordAfter (home true x.1) = x.2 := by decide +kernel

/-- R112: what synchronising accesses do to an empty word. -/
theorem test_home_empty :
    wordAfter (home false (.give 9)) = (9, true, answers []) ∧ wordAfter (home false .probe) = (5, false, answers [0])
      ∧ (waitersAt (after .homeAccess (home false .take)) k100).length = 1
      ∧ (waitersAt (after .homeAccess (home true (.give 9))) k100).length = 1 := by decide +kernel

/-- R57, R77: the answer to a sign-extending byte load completes its unit. -/
theorem test_answer_completes :
    let s := acting (world [(0, athr (.loadS 5 1 true))])
      (.accessResponse { uid := 0, fid := 20, part := 0, addr := at0 0x100, stub := none, res := .done [0xFF] 0 })
    sget (threadAfter .accessResponse s) 5 = -1 ∧ (threadAfter .accessResponse s).pc = at0 0x8004
      ∧ (threadAfter .accessResponse s).readyAt = 1001 := by decide +kernel

/-- A thread with three vector registers: v0 holds 2.0, 1.0 and v1 1.0, 3.0 in their first f32 elements. -/
def vthr : Thread := { thr with vn := 3, rows := [0, 1, 2, 3, 4] }

def vunit (th : Thread) : State :=
  { unit th with tiles := [(0, { Tile.reset with pool := [(0, 0x3F80000040000000), (8, 0x404000003F800000)] })] }

/-- R241-R248: the first granule that vector instructions leave in v2, by hand. -/
def vectorResults : List (Instr × Word) :=
  [(.vadd 2 0 1 .f32 Q, 0x4080000040400000), (.vsub 2 0 1 .f32 Q, 0xC00000003F800000), (.vmul 2 0 1 .f32 Q, 0x4040000040000000),
   (.vdiv 2 0 1 .f32 Q, 0x3EAAAAAB40000000), (.vmin 2 0 1 .f32 Q, 0x3F8000003F800000), (.vmax 2 0 1 .f32 Q, 0x4040000040000000),
   (.vfma 2 0 1 .f32 { Q with vc := some 0 }, 0x4080000040800000), (.vfms 2 0 1 .f32 { Q with vc := some 0 }, 0x4000000000000000),
   (.vneg 2 0 .f32 Q, 0xBF800000C0000000), (.vabs 2 1 .f32 Q, 0x404000003F800000), (.vadd 2 0 1 .i32 Q, 0x7FC000007F800000),
   (.vmulh 2 0 1 .i32 Q, 0x0FEFE0000FE00000), (.vand 2 0 1 .n8 Q, 0x0000000000000000), (.vor 2 0 1 .n8 Q, 0x7FC000007F800000),
   (.vxor 2 0 1 .n64 Q, 0x7FC000007F800000), (.vandn 2 0 1 .n32 Q, 0x3F80000040000000), (.vshl 2 0 0 .n32 Q, 0x3F80000040000000),
   (.vsqrt 2 0 .f32 Q, 0x3F8000003FB504F3), (.vrcp 2 0 .f32 Q, 0x3F8000003F000000), (.vcvt 2 1 .i32 .f32 Q, 0x0000000300000001),
   (.vbcast 2 1 .i32 Q, 0x0000000700000007), (.vperm 2 0 1 .f32 Q, 0x4000000040000000), (.vslide 2 0 1 .i8 Q, 0x000000000000003F),
   (.vins 2 1 0 .i16 Q, 0x0000000000000007), (.vredsum 2 0 .f32 Q, 0x0000000040400000), (.vredmax 2 1 .i32 Q, 0x0000000040400000),
   (.vredmin 2 1 .n32 Q, 0x0000000000000000), (.vadd 2 0 1 .f32 { Q with mask := 1 }, 0x0000000040400000)]

theorem test_vector_results :
    ∀ x ∈ vectorResults, granGet (after x.1 (vunit vthr)) 0 16 = x.2 := by decide +kernel

/-- R236, R238: an inexact quotient sets its flag, and traps where it is enabled. -/
theorem test_vector_flags :
    (threadAfter (.vdiv 2 0 1 .f32 Q) (vunit vthr)).vec.vstat ≠ 0
      ∧ (threadAfter (.vdiv 2 0 1 .f32 Q) (vunit { vthr with vec := { vthr.vec with vctl := 0x1F0 } })).flights.map (fun f => (f.first, f.bad.map fun b => b.2.cause))
          = [(0, [0x16])] := by
  decide +kernel

/-- R244, R255: compares and mask operations. -/
theorem test_masks :
    mget (threadAfter (.vcmp 2 .lt 0 1 .f32 Q) (vunit vthr)) 2 = 2
      ∧ mget (threadAfter (.mnot 2 1 Q) (vunit vthr)) 2 = ~~~5
      ∧ mget (threadAfter (.mand 0 1 1 Q) (vunit vthr)) 0 = BitVec.allOnes 64
      ∧ sget (threadAfter (.mpop 5 1 Q) (vunit vthr)) 5 = 2
      ∧ sget (threadAfter (.mfirst 5 2 Q) (vunit vthr)) 5 = 64
      ∧ sget (threadAfter (.vextr 5 1 0 .i32 Q) (vunit vthr)) 5 = 0x3F800000 := by decide +kernel

/-- R273, R274: −3 as a dennum of 64 bits is the head and the limb of the manual's table. -/
theorem test_dennum_conversion :
    (winGet (after (.dcvti 0 2) (unit thr)) thr 0, winGet (after (.dcvti 0 2) (unit thr)) thr 1)
      = (0x9001000000000001, 0xC000000000000000) := by decide +kernel

/-- A thread of precision 128 whose d0 is 1 and d1 is 3. -/
def dthr : Thread := { thr with dn := { prc := 128, dlive := 3, dctl := 0, dslot := 3 } }

def dunit (th : Thread) : State :=
  winSet (winSet (winSet (winSet (unit th) th 0 0x1002000000000000) th 1 0x8000000000000000) th 3 0x1002000000000001) th 4 0xC000000000000000

/-- R269, R274: 1/3 at 128 bits is the head and limbs of the manual's table, inexact; 1 + 3 is 4. -/
theorem test_dennum_arithmetic :
    (List.range 3).map (fun k => winGet (after (.ddiv 2 0 1) (dunit dthr)) dthr (6 + k))
        = [0x10020000FFFFFFFE, 0xAAAAAAAAAAAAAAAA, 0xAAAAAAAAAAAAAAAB]
      ∧ (threadAfter (.ddiv 2 0 1) (dunit dthr)).dn.dctl ≠ 0 ∧ (threadAfter (.ddiv 2 0 1) (dunit dthr)).readyAt = 1032
      ∧ (List.range 3).map (fun k => winGet (after (.dadd 2 0 1) (dunit dthr)) dthr (6 + k)) = [0x1002000000000002, 0x8000000000000000, 0]
      ∧ sget (threadAfter (.dcvtdi 5 1) (dunit dthr)) 5 = 3 ∧ sget (threadAfter (.dclass 5 1) (dunit dthr)) 5 = 1
      ∧ pget (threadAfter (.dcmp 3 .lt 0 1) (dunit dthr)) 3 = true := by decide +kernel

/-- R258, R268: a register beyond DLIVE, and `prec`. -/
theorem test_precision :
    (threadAfter (.dadd 4 0 1) (unit thr)).flights.map (fun f => f.bad.map fun b => (b.2.cause, b.2.info)) = [[(0x10, 0x401)]]
      ∧ (threadAfter (.prec 16 64) (unit thr)).flights.map (fun f => f.bad.map fun b => (b.2.cause, b.2.info)) = [[(0x10, 0x1000002002)]]
      ∧ (threadAfter (.prec 2 100) (unit thr)).dn = { thr.dn with prc := 100, dlive := 2 } := by decide +kernel

/-- R125-R131: points are set, an arrival counts, and a wait parks. -/
theorem test_rendezvous :
    pointAt (after (.rvinit 2 3) (unit thr)) thr 2 = { expected := 8, arrived := 0, phase := false, closed := false }
      ∧ pointAt (after (.rvarr 0) (unit thr)) thr 0 = { expected := 8, arrived := 1, phase := false, closed := false }
      ∧ (threadAfter (.rvwait 0) (unit thr)).wait = .rvwait 0 ∧ (threadAfter (.rvarr 1) (unit thr)).fr.info = 0 := by decide +kernel

/-- R388-R390: the owner's end of a deque. -/
theorem test_deque :
    let s := modTile (unit thr) 0 fun t => { t with deque := [{ lo := 0, hi := 10, tag := 1 }] }
    (tileOf (after (.dqpush 4 1 3) s) 0).deque = [{ lo := 0, hi := 10, tag := 1 }, { lo := 7, hi := 8, tag := 0x8080 }]
      ∧ (tileOf (after .dqsplit s) 0).deque = [{ lo := 0, hi := 5, tag := 1 }, { lo := 5, hi := 10, tag := 1 }]
      ∧ sget (threadAfter (.dqpop 10 3) s) 11 = 10 ∧ pget (threadAfter (.dqpop 10 3) s) 3 = true
      ∧ sget (threadAfter (.dqcnt 5) s) 5 = 1 := by decide +kernel

/-- R2, R430: the first step after reset is bring-up, and a step with an instruction in place runs it. -/
theorem test_step_from_reset :
    (match step State.reset with | .next t => t.bootStep | _ => 0) = 7
      ∧ (match step (State.reset.withFetchWord 32 0x08200005) with | .next t => t.threads.map fun e => sget e.2 1 | _ => []) = [5] := by
  decide +kernel

/-! ### Concrete states that meet the hypotheses of the statements, clause by clause -/

theorem witness_AluArithmetic :
    arithForm thr (.add 5 1 2) = some ([1, 2], 5, 4) ∧ Ready (unit thr) cur thr { Need.none with sr := [1, 2], sd := [5] }
      ∧ arithForm thr (.mulhu 0 2 2) = some ([2, 2], 0, -6) ∧ Ready (unit thr) cur thr { Need.none with sr := [2, 2], sd := [0] } := by
  unfold Ready Executing; decide +kernel

theorem witness_ShiftsRotate :
    shiftForm thr (.sll 5 1 2) = some ([1, 2], 5, 0xE000000000000000) ∧ Ready (unit thr) cur thr { Need.none with sr := [1, 2], sd := [5] } := by
  unfold Ready Executing; decide +kernel

theorem witness_BitFields :
    fieldForm thr (.sel 5 1 2 1) = some ([1, 2], [1], 5, 7)
      ∧ Ready (unit thr) cur thr { Need.none with sr := [1, 2], sd := [5], pr := [1] }
      ∧ fieldForm thr (.bfi 4 1 7) = some ([1, 7, 4], [], 4, 0x8070) := by unfold Ready Executing; decide +kernel

theorem witness_ImmediateForms :
    immForm thr (.addi 5 1 (-8)) = some ([1], 5, -1) ∧ Ready (unit thr) cur thr { Need.none with sr := [1], sd := [5] } := by
  unfold Ready Executing; decide +kernel

theorem witness_PredicatesSet :
    predForm thr (.cmp 3 .lt false 2 1) = some ([2, 1], [], 3, true) ∧ Ready (unit thr) cur thr { Need.none with sr := [2, 1] }
      ∧ Ready (unit thr) cur thr { Need.none with sd := [5], pr := [1] } := by unfold Ready Executing; decide +kernel

theorem witness_DivisionTruncates :
    Ready (unit thr) cur thr { Need.none with sr := [1, 2], sd := [5] } ∧ sget thr 2 ≠ 0
      ∧ Ready (unit thr) cur thr { Need.none with sr := [1, 0], sd := [5] } ∧ sget thr 0 = 0 := by unfold Ready Executing; decide +kernel

/-- Branches of the unit at 0x8000: one word on, and as far back as the displacement reaches. -/
theorem witness_RelativeBranches :
    Ready (unit thr) cur thr Need.none ∧ Ready (unit thr) cur thr { Need.none with sd := [31] }
      ∧ Ready (unit thr) cur thr { Need.none with pr := [1] }
      ∧ (let o := (cur.fpc.toNat % 2 ^ 46 : Nat) + 4 * (1#26).toInt; 0 ≤ o ∧ o < 2 ^ 46)
      ∧ (let o := (cur.fpc.toNat % 2 ^ 46 : Nat) + 4 * (0x2000000#26).toInt; ¬ (0 ≤ o ∧ o < 2 ^ 46))
      ∧ (let o := (cur.fpc.toNat % 2 ^ 46 : Nat) + 4 * (1#22).toInt; 0 ≤ o ∧ o < 2 ^ 46)
      ∧ (let o := (cur.fpc.toNat % 2 ^ 46 : Nat) + 4 * (0x200000#22).toInt; ¬ (0 ≤ o ∧ o < 2 ^ 46)) := by
  unfold Ready Executing; decide +kernel

theorem witness_RegisterJumps :
    Ready (unit thr) cur thr { Need.none with sr := [8] } ∧ Ready (unit thr) cur thr { Need.none with sr := [8], sd := [5] }
      ∧ (sget thr 8).toNat / 2 ^ 60 ∈ [0, 2, 3, 4] ∧ (sget thr 8).toNat % 4 = 0
      ∧ (sget thr 2).toNat / 2 ^ 60 ∉ [0, 2, 3, 4] ∧ (sget thr 1).toNat / 2 ^ 60 ∈ [0, 2, 3, 4] ∧ (sget thr 1).toNat % 4 ≠ 0 := by
  unfold Ready Executing; decide +kernel

/-- A job of `thr`, with the words of its command. -/
def job (w0 w1 w2 w3 : Word) : Job :=
  { jid := 11, uid := 0, tid := tidOf thr, partn := 0, serial := 1, tile := 0, reg := 5, enq := 0, cmd := at0 0x100, w0 := w0, w1 := w1,
    w2 := w2, w3 := w3, seg := 0, done := 0, half := [], skipped := false, owed := 0, ran := false }

/-- An MFMT command word of reset formats. -/
def mfmtJob : Job := job 0 0 0 (0x0300000000000A0A)

/-- A state whose thread has a job in the matrix queue of its core. -/
def busy (th : Thread) : State :=
  { unit th with clusters := [(0, { Cluster.reset with mxe := { Cluster.reset.mxe with queues := [(0, [mfmtJob])] } })] }

theorem witness_NopAndFence :
    Ready (unit thr) cur thr Need.none ∧ Ready (unit thr) cur thr { Need.none with rx := true }
      ∧ unconsumed (unit thr) 0 7 true = false ∧ Ready (busy thr) cur thr { Need.none with rx := true }
      ∧ unconsumed (busy thr) 0 1 false = true := by unfold Ready Executing; decide +kernel

theorem witness_RclrEmpties :
    Ready (unit thr) cur thr { Need.none with sd := [5] } ∧ Ready (unit thr) cur thr { Need.none with sd := [0] }
      ∧ (let th := { thr with sEmpty := 0x20, sOut := 0x20 }; Executing (unit th) cur th ∧ sEmptyAt th 5 = true ∧ sOutAt th 5 = true) := by
  unfold Ready Executing; decide +kernel

/-- The trailing thread of a redundant pair, and its leading thread in the other slot. -/
def trail : Thread := { thr with role := 2, slot := 1 }

def lead : Thread := { thr with role := 1 }

theorem witness_TmarkRecords :
    Ready (unit trail) cur trail Need.none ∧ trail.role = 2 ∧ Ready (unit thr) cur thr Need.none ∧ thr.role ≠ 2 := by
  unfold Ready Executing; decide +kernel

/-- A thread in its handler. -/
def hthr : Thread := { thr with inHandler := true, fr := { cause := 0x9, addr := 0, pc := at0 0x8100, info := 0, tsc := 3 } }

/-- `YieldBusy`, `TrapRaises` and `EretReturns` ask for no more than this of the state. -/
theorem witness_TrapsAndReturns :
    Ready (unit thr) cur thr Need.none ∧ thr.inHandler = false ∧ Ready (unit hthr) cur hthr Need.none ∧ hthr.inHandler = true := by
  unfold Ready Executing; decide +kernel

/-- A partition changed in a state. -/
def withPart (s : State) (f : Partition → Partition) : State := modPart s 0 f

theorem witness_EbreakDebugFault :
    Ready (unit thr) cur thr Need.none ∧ (partOf (unit thr) 0).trace.dbqb = 0
      ∧ (let s := withPart (unit thr) fun p => { p with trace := { p.trace with dbqb := at0 0x6000, dbqn := 3 } }
         Ready s cur thr Need.none ∧ (partOf s 0).trace.dbqb ≠ 0) := by unfold Ready Executing; decide +kernel

theorem witness_IllegalFaults :
    Executing (unit thr) cur thr ∧ causeClass ({ cause := 2, word := 0xFFFFFFFF, pos := 0, reason := 0 } : DecodeFault).cause = 0
      ∧ ¬ (0x30 ≤ cur.word.toNat / 2 ^ 26 ∧ cur.word.toNat / 2 ^ 26 ≤ 0x33)
      ∧ (let c := { cur with word := 0xCFFFFFFF }
         Executing { unit thr with cur := some c } c thr ∧ 0x30 ≤ c.word.toNat / 2 ^ 26 ∧ c.word.toNat / 2 ^ 26 ≤ 0x33) := by
  unfold Executing; decide +kernel

/-- A state in which a save of the team is asked for. -/
def asked (th : Thread) : State :=
  withPart (unit th) fun p => { p with teams := [(1, { team with req := some .preq, reqAt := 400 })] }

theorem witness_SafePoint :
    (((teamOf (unit thr) 0 1).any fun t => t.req.isSome) = false ∧ Ready (unit thr) cur thr { Need.none with sr := [8] })
      ∧ ((teamOf (asked thr) 0 1).any fun t => t.req.isSome) = true
      ∧ Ready (asked thr) cur thr { Need.none with sr := [8], rx := true } := by unfold Ready Executing; decide +kernel

/-- A thread of a supervisor team. -/
def sthr : Thread := { thr with sup := true }

theorem witness_SystemRegisters :
    Ready (unit thr) cur thr { Need.none with sd := [5] } ∧ thr.role = 0 ∧ Ready (unit thr) cur thr { Need.none with sr := [8] }
      ∧ (Executing (unit thr) cur thr ∧ thr.sup = false ∧ 0x100 ≤ (0x100#12).toNat)
      ∧ Ready (unit sthr) cur sthr { Need.none with sr := [8] } ∧ sthr.sup = true
      ∧ sharedAct 0 0 0 0x100 (sget sthr 8) = some (.fqbWrite 0 0x100)
      ∧ sharedAct 0 0 0 0x071 (sget thr 8) = some (.registerWrite (.sys 0 0x071) 0x100) := by unfold Ready Executing; decide +kernel

/-- A state whose core has every slot taken. -/
def fullCore : State := { unit thr with
  threads := (0, thr) :: ((List.range 15).map fun k => (k + 1, { thr with slot := k + 1, rows := [], vn := 0, dwin := 0 })) }

/-- A claim that takes more rows than a register file has. -/
def greedy : Thread := { thr with rows := [], vn := 64, dwin := 4096 }

theorem witness_ForkStarts :
    Ready (unit thr) cur thr { Need.none with sr := [8, 1, 3, 4], sd := [5], rx := true } ∧ thr.role = 0 ∧ freeSlot (unit thr) 0 = some 1
      ∧ rowsFor thr.vn thr.dwin ≤ (freeRows (unit thr) 0).length ∧ threadOf (unit thr) (unit thr).nextUid = none
      ∧ (Ready fullCore cur thr { Need.none with sr := [8, 1, 3, 4], sd := [5], rx := true } ∧ freeSlot fullCore 0 = none)
      ∧ (Ready (unit greedy) cur greedy { Need.none with sr := [8, 1, 3, 4], sd := [5], rx := true }
          ∧ (freeRows (unit greedy) 0).length < rowsFor greedy.vn greedy.dwin)
      ∧ (let s := { unit lead with threads := [(0, lead), (1, trail)] }
         Ready s cur lead { Need.none with sr := [8, 1, 3, 4], sd := [5], rx := true } ∧ lead.role = 1 ∧ mateOf s 0 = some 1
          ∧ threadOf s 1 = some trail ∧ trail.lvq.length < 16) := by
  unfold Ready Executing; decide +kernel

theorem witness_ExitFrees : Ready (unit thr) cur thr { Need.none with rx := true } := by unfold Ready Executing; decide +kernel

/-- One load whose pointer fails each check in turn, and one that passes: s8 holds a pointer to the own tile. -/
def ldAt (p : Ptr) : Thread := { thr with s := [(8, p)] }

/-- The access a unit makes, and whether it may issue. -/
theorem witness_IssueChecks :
    (∃ x, accessForm thr (.ldd 5 8 (-33) .plain) = some x ∧ x.ea = none ∧ Ready (unit thr) cur thr x.need ∧ x.mode = .plain)
      ∧ (∃ x, accessForm (ldAt (mkPtr 7 0 0 0)) (.ldd 5 8 0 .plain) = some x ∧ x.ea = some (mkPtr 7 0 0 0)
          ∧ Ready (unit (ldAt (mkPtr 7 0 0 0))) cur (ldAt (mkPtr 7 0 0 0)) x.need ∧ limitsOf (unit thr) 0 (mkPtr 7 0 0 0) ≠ 0)
      ∧ (∃ x, accessForm (ldAt (mkPtr 5 0 0 0x1000)) (.take 5 8 0 false) = some x ∧ x.ea = some (mkPtr 5 0 0 0x1000)
          ∧ limitsOf (unit thr) 0 (mkPtr 5 0 0 0x1000) = 0 ∧ x.sync = true ∧ (mkPtr 5 0 0 0x1000).toNat / 2 ^ 60 = 5)
      ∧ (∃ x, accessForm (ldAt (mkPtr 2 0 0 0)) (.barini 8 1) = some x ∧ x.ea = some (mkPtr 2 0 0 0)
          ∧ limitsOf (unit thr) 0 (mkPtr 2 0 0 0) = 0 ∧ x.spad = true ∧ (mkPtr 2 0 0 0).toNat / 2 ^ 60 ≠ 0)
      ∧ (∃ x, accessForm (ldAt (mkPtr 6 0 0 0x4000)) (.ldd 5 8 0 .plain) = some x ∧ x.ea = some (mkPtr 6 0 0 0x4000)
          ∧ limitsOf (unit thr) 0 (mkPtr 6 0 0 0x4000) = 0 ∧ (mkPtr 6 0 0 0x4000).toNat / 2 ^ 60 = 6 ∧ thr.sup = false)
      ∧ ∃ x, accessForm (ldAt (at0 0x101)) (.ldh 5 8 0 .plain) = some x ∧ x.ea = some (at0 0x101)
          ∧ limitsOf (unit thr) 0 (at0 0x101) = 0 ∧ (at0 0x101).toNat % 2 ^ 46 % x.n ≠ 0 := by
  refine ⟨⟨_, rfl, ?_⟩, ⟨_, rfl, ?_⟩, ⟨_, rfl, ?_⟩, ⟨_, rfl, ?_⟩, ⟨_, rfl, ?_⟩, ⟨_, rfl, ?_⟩⟩
  all_goals (try unfold Ready Executing); decide +kernel

/-- A plain load, a relaxed store and a load by leap of the own tile. -/
theorem witness_RequestSent :
    (∃ x, accessForm thr (.ldd 5 8 0 .plain) = some x ∧ Ready (unit thr) cur thr x.need ∧ x.ea = some (at0 0x100)
        ∧ checkPtr (unit thr) thr (at0 0x100) x.n x.sync x.spad = none ∧ watchHit (unit thr) thr (at0 0x100) x.kind = none
        ∧ meterTraps thr (accessCharge (unit thr) thr (at0 0x100) x.op) = false
        ∧ placeOf (unit thr) 0 (at0 0x100) = some (.spad 0 0x100)
        ∧ sendBlocked thr 20 = false)
      ∧ (∃ x, accessForm thr (.stw 1 8 1 .relaxed) = some x ∧ Ready (unit thr) cur thr x.need ∧ x.mode = .relaxed ∧ rxCount thr < 8)
      ∧ ∃ x, accessForm thr (.ldd 5 8 0 .leap) = some x ∧ Ready (unit thr) cur thr x.need ∧ x.mode = .leap
          ∧ placeOf (unit thr) 0 (at0 0x100) = some (.spad thr.tile 0x100) := by
  refine ⟨⟨_, rfl, ?_⟩, ⟨_, rfl, ?_⟩, ⟨_, rfl, ?_⟩⟩
  all_goals unfold Ready Executing; decide +kernel

/-- A thread that counts distance, with a limit of 100, and a pointer to the tile beside its own in s8. -/
def mthr : Thread := { thr with s := [(8, mkPtr 0 1 0 0x100)], meter := { thr.meter with dml := 100, trap := true } }

theorem witness_AccessMeterTraps :
    ∃ x, accessForm mthr (.ldd 5 8 0 .plain) = some x ∧ Ready (unit mthr) cur mthr x.need ∧ x.mode = .plain ∧ mthr.role = 0
      ∧ x.ea = some (mkPtr 0 1 0 0x100) ∧ checkPtr (unit mthr) mthr (mkPtr 0 1 0 0x100) x.n x.sync x.spad = none
      ∧ watchHit (unit mthr) mthr (mkPtr 0 1 0 0x100) x.kind = none ∧ mthr.meter.cnt = true ∧ mthr.meter.trap = true
      ∧ mthr.meter.dml.toNat < mthr.meter.dmt.toNat + accessCharge (unit mthr) mthr (mkPtr 0 1 0 0x100) x.op := by
  refine ⟨_, rfl, ?_⟩; unfold Ready Executing; decide +kernel

/-- A redundant pair on one core, its trailing thread's unit in hand. -/
def pairUnit : State := { unit trail with threads := [(0, trail), (1, lead)] }

theorem witness_PairPresents :
    ∃ x, plainForm trail (.std 1 8 0 .plain) = some x ∧ x.fl = .storeS ∧ x.mode = .plain ∧ Ready pairUnit cur trail x.need
      ∧ trail.role = 2 ∧ trail.released = false ∧ x.ea = some (at0 0x100) ∧ checkPtr pairUnit trail (at0 0x100) x.n x.sync x.spad = none
      ∧ watchHit pairUnit trail (at0 0x100) x.kind = none ∧ mateOf pairUnit 0 = some 1 ∧ threadOf pairUnit 1 = some lead
      ∧ lead.wait = .none := by
  refine ⟨_, rfl, ?_⟩; unfold Ready Executing; decide +kernel

/-- `GiveServesTake`, `HomePerforms` and `WaitsAtHome` speak of a request of a living access at its home. -/
theorem witness_HomePerforms :
    let s := home true (.store 1 0x1FF)
    s.MemOk ∧ Acting s (.homeAccess (req (.store 1 0x1FF))) ∧ turnOf s (req (.store 1 0x1FF)) = .go
      ∧ homeKey s (req (.store 1 0x1FF)) = some k100 ∧ wordPois s k100 = false ∧ outOfTime s (req (.store 1 0x1FF)) = false
      ∧ ((waitersAt s k100).any fun q => decide (q.key / 8 * 8 = k100)) = false
      ∧ wordEffect (.store 1 0x1FF) 0 (wordAt s k100) (wordFull s k100) = some ([], 0xFF, true) := by
  unfold State.MemOk; decide +kernel

/-- A request that waits at the word. -/
def waiter (op : AccOp) : Req := { req op with uid := 5, fid := 30, key := k100, first := some 900 }

/-- The word is empty and a number of requests wait at it. -/
def crowded (n : Nat) : State :=
  modTile (home false .take) 0 fun t => { t with waiters := List.replicate n (waiter .peek) }

theorem witness_WaitsAtHome :
    (∀ s ∈ [crowded 63, crowded 64], Acting s (.homeAccess (req .take)) ∧ turnOf s (req .take) = .go
        ∧ homeKey s (req .take) = some k100 ∧ wordPois s k100 = false ∧ outOfTime s (req .take) = false
        ∧ (req .take).op ∈ [AccOp.take, .peek] ∧ wordFull s k100 = false)
      ∧ waitsAt (crowded 63) k100 < 64 ∧ 64 ≤ waitsAt (crowded 64) k100
      ∧ placeOf (acting (crowded 0) (.busyResend (req .take))) 0 (req .take).at_ = some (.spad 0 0x100)
      ∧ (req .take).legs = 0 ∧ ({ req .take with legs := 8, ow := 12, stub := some 8 }).legs ≠ 0
      ∧ (waiter .peek).key < 2 ^ 66 ∧ (waitersAt (crowded 1) ((waiter .peek).key / 8 * 8)).any (sameReq (waiter .peek)) = true := by
  decide +kernel

theorem witness_GiveServesTake :
    let s := modTile (home false (.give 9)) 0 fun t => { t with waiters := [waiter .take] }
    s.MemOk ∧ Acting s (.homeAccess (req (.give 9))) ∧ turnOf s (req (.give 9)) = .go ∧ homeKey s (req (.give 9)) = some k100
      ∧ k100 % 8 = 0 ∧ wordFull s k100 = false ∧ wordPois s k100 = false ∧ outOfTime s (req (.give 9)) = false
      ∧ waitersAt s k100 = [waiter .take] ∧ (waiter .take).key = k100 ∧ k100 < 2 ^ 40 := by unfold State.MemOk; decide +kernel

/-- A request through channel 0 of the partition, which is tier-one port 3. -/
def creq (op : AccOp) : Req := { req op with addr := mkPtr 2 0 0 0x40, at_ := mkPtr 2 0 0 0x40, home := .chan 3 0x40 }

/-- Its table walk ends: the root entry, and the entry of the next level. -/
def walking (op : AccOp) (root leaf : Word) : State :=
  acting (modPort { world [(0, athr .storeS)] with mem := memPutWord (memPutWord [] (keyPort 0 0x100000) root) (keyPort 0 0x110000) leaf }
    3 fun p => { p with walks := [{ r := creq op, o := 0x40, phase := .walking 1000 }] }) (.tableWalk (creq op))

theorem witness_TableWalkEnds :
    portOfPlace (creq .peek).home = some (3, 0x40) ∧ cached (walking .peek 0 0) 3 0 0x40 = none
      ∧ (portOf (walking .peek 0 0) 3).walks = [{ r := creq .peek, o := 0x40, phase := .walking 1000 }]
      ∧ threadOf (walking .peek 0 0) 0 = some (athr .storeS) ∧ flightOf (athr .storeS) 20 = some (flt .storeS)
      ∧ walk (walking .peek 0 0) 3 0 0x40 = .none 0 false ∧ walk (walking .peek 0x110001 0) 3 0 0x40 = .none 1 false
      ∧ (walk (walking (.store 8 9) 0x110001 0xB) 3 0 0x40 = .leaf 1 0xB
          ∧ leafXlat (leafOf 0 0x40 1 0xB) 0x40 (isWrite (.store 8 9)) false = .prot)
      ∧ (let s := walking (.store 8 9) 0x110001 0xF
         s.MemOk ∧ walk s 3 0 0x40 = .leaf 1 0xF ∧ leafXlat (leafOf 0 0x40 1 0xF) 0x40 true false = .ok 0x40
          ∧ lineKey s (keyPort 3 0x40) = viewNo s 0 (leafOf 0 0x40 1 0xF)
          ∧ wordPois s (keyPort 3 0x40) = false ∧ outOfTime s (creq (.store 8 9)) = false
          ∧ ((waitersAt s (keyPort 3 0x40)).any fun q => decide (q.key / 8 * 8 = keyPort 3 0x40)) = false
          ∧ wordEffect (.store 8 9) 0 (wordAt s (keyPort 3 0x40)) (wordFull s (keyPort 3 0x40)) = some ([], 9, true)) := by
  unfold State.MemOk; decide +kernel

/-- An answer to the access of `athr`. -/
def ans (res : AccRes) : Answer := { uid := 0, fid := 20, part := 0, addr := at0 0x100, stub := none, res := res }

/-- A thread whose relaxed load into s5 is under way. -/
def rthr : Thread := { thr with flights := [{ flt (.loadS 5 4 false) with rx := true }], sEmpty := 0x20, sOut := 0x20 }

/-- A thread whose unit found a fault at issue, with progress 3. -/
def lthr0 : Thread := { thr with wait := .access 20, flights := [{ flt .fault with
  parts := 5, out := [], bad := [(3, { cause := 0x11, info := 7, addr := at0 0x100, tick := 444, host := false })] }] }

theorem witness_LateFaultDelivered :
    let s := acting (world [(0, lthr0)]) (.accessResponse { ans (.done [] 0) with part := 5 })
    threadOf s 0 = some lthr0 ∧ flightOf lthr0 20 = lthr0.flights.head? ∧ lthr0.flights.map (·.parts) = [3 + 2]
      ∧ causeClass 0x11 = 0 ∧ lthr0.tvec ≠ 0 ∧ lthr0.inHandler = false ∧ lthr0.ending = false := by decide +kernel

theorem witness_AnswersComplete :
    (let s := acting (world [(0, athr (.amo 5))]) (.accessResponse (ans (.done [3] 0)))
     Acting s (.accessResponse (ans (.done [3] 0))) ∧ threadOf s 0 = some (athr (.amo 5)) ∧ flightOf (athr (.amo 5)) 20 = some (flt (.amo 5))
      ∧ (athr (.amo 5)).stand = .inSlot ∧ ∃ t n sx, (flt (.amo 5)).op ∈ [.loadS t n sx, .storeS, .rput, .syncLoad t, .amo t, .pfix t])
      ∧ (let s := acting (world [(0, rthr)]) (.relaxedAccessCompletion (ans (.done [3] 0)))
         threadOf s 0 = some rthr ∧ flightOf rthr 20 = some { flt (.loadS 5 4 false) with rx := true } ∧ rthr.role = 0 ∧ rthr.ending = false)
      ∧ (let th := { rthr with ending := true }
         let s := acting (world [(0, th)]) (.relaxedAccessCompletion (ans (.done [3] 0)))
         threadOf s 0 = some th ∧ flightOf th 20 = some { flt (.loadS 5 4 false) with rx := true } ∧ th.flights.map (·.fid) = [20])
      ∧ (let s := acting (world [(0, athr .storeS)]) (.accessResponse (ans (.fault 0x0D 1 440 false)))
         threadOf s 0 = some (athr .storeS) ∧ flightOf (athr .storeS) 20 = some (flt .storeS) ∧ causeClass 0x0D = 0
          ∧ (athr .storeS).tvec ≠ 0 ∧ (athr .storeS).inHandler = false ∧ (athr .storeS).ending = false) := by
  refine ⟨⟨⟨rfl, rfl⟩, rfl, rfl, rfl, 5, 1, true, ?_⟩, ?_⟩ <;> decide +kernel

theorem witness_PointerArithmetic :
    pointerForm thr (.padd 5 3 1) = some ([3, 1], 5, some 15, 8) ∧ Ready (unit thr) cur thr { Need.none with sr := [3, 1], sd := [5] }
      ∧ pointerForm thr (.paddi 5 3 (-9)) = some ([3], 5, none, 8) ∧ Ready (unit thr) cur thr { Need.none with sr := [3], sd := [5] }
      ∧ pointerForm thr (.paddi 5 3 (2 ^ 46 - 9)) = some ([3], 5, some (BitVec.ofNat 64 (2 ^ 46 - 1)), 8) := by
  unfold Ready Executing; (repeat' with_reducible apply And.intro) <;> decide +kernel

/-- `dist` of kind leap: refused by a limit, by the kind of the pointer, and computed. -/
theorem witness_DistCharge :
    Ready (unit thr) cur thr { Need.none with sr := [8], sd := [5] } ∧ anyLimits (unit thr) 0 (sget thr 8) = 0
      ∧ (sget thr 8).toNat / 2 ^ 60 = 0
      ∧ (let th := ldAt (mkPtr 7 0 0 0); Ready (unit th) cur th { Need.none with sr := [8], sd := [5] } ∧ anyLimits (unit th) 0 (sget th 8) ≠ 0)
      ∧ (let th := ldAt (mkPtr 2 0 0 0); Ready (unit th) cur th { Need.none with sr := [8], sd := [5] } ∧ anyLimits (unit th) 0 (sget th 8) = 0
          ∧ (sget th 8).toNat / 2 ^ 60 = 2) := by unfold Ready Executing; decide +kernel

theorem witness_PfixWalks :
    Ready (unit thr) cur thr { Need.none with sr := [8], sd := [5], rx := true } ∧ limitsOf (unit thr) 0 (sget thr 8) = 0
      ∧ watchHit (unit thr) thr (sget thr 8) 1 = none ∧ meterTraps thr (charge (unit thr) 0 0 (sget thr 8) 0) = false
      ∧ placeOf (unit thr) 0 (sget thr 8) = some (.spad 0 0x100)
      ∧ limitsOf (unit (ldAt (mkPtr 7 0 0 0))) 0 (sget (ldAt (mkPtr 7 0 0 0)) 8) ≠ 0
      ∧ limitsOf (unit (ldAt (mkPtr 4 0 0 8))) 0 (sget (ldAt (mkPtr 4 0 0 8)) 8) = 0 := by unfold Ready Executing; decide +kernel

/-- A thread that may leap, with a pointer to tile (x, 0) in s8. -/
def leaper (x : Nat) : Thread := { thr with vn := 0, dwin := 0, rows := [], s := [(8, mkPtr 0 x 0 0x100)] }

theorem witness_LeapDeparts :
    (let th := ldAt (mkPtr 0 1 0 0x100)
     Ready (unit th) cur th { Need.none with sr := [8], rx := true } ∧ (sget th 8).toNat / 2 ^ 60 = 0 ∧ guestTile (unit th) 0 1 0 = some 1
      ∧ th.role = 0 ∧ th.vn ≠ 0)
      ∧ (Ready (unit (leaper 0)) cur (leaper 0) { Need.none with sr := [8], rx := true } ∧ guestTile (unit (leaper 0)) 0 0 0 = some 0
          ∧ leapRefused (unit (leaper 0)) (leaper 0) 0 = 0)
      ∧ (Ready (unit (leaper 1)) cur (leaper 1) { Need.none with sr := [8], rx := true } ∧ guestTile (unit (leaper 1)) 0 1 0 = some 1
          ∧ leapRefused (unit (leaper 1)) (leaper 1) 1 = 0 ∧ meterTraps (leaper 1) (2624 * lenTiles (unit (leaper 1)) 0 1) = false)
      ∧ inTeam (unit (leaper 2)) 0 1 2 = false := by unfold Ready Executing; decide +kernel

theorem witness_LeapModeDeparts :
    ∃ x, accessForm (leaper 1) (.ldd 5 8 0 .leap) = some x ∧ Ready (unit (leaper 1)) cur (leaper 1) x.need ∧ x.mode = .leap
      ∧ x.ea = some (mkPtr 0 1 0 0x100) ∧ checkPtr (unit (leaper 1)) (leaper 1) (mkPtr 0 1 0 0x100) x.n x.sync x.spad = none
      ∧ watchHit (unit (leaper 1)) (leaper 1) (mkPtr 0 1 0 0x100) x.kind = none
      ∧ placeOf (unit (leaper 1)) 0 (mkPtr 0 1 0 0x100) = some (.spad 1 0x100) := by
  refine ⟨_, rfl, ?_⟩; unfold Ready Executing; decide +kernel

/-- A context on its way to tile 1, refused on arrival or not. -/
def leapMsg (why : Nat) : LeapMsg :=
  { uid := 0, src := 0, slot := 0, dst := 1, time := 47, sent := 990, charge := 0, inj := 444, fpc := at0 0x8000, npc := at0 0x8004,
    ptr := mkPtr 0 1 0 0x100, why := why, acc := none }

def flying : Thread := { leaper 1 with stand := .transit, wait := .leap }

/-- Threads in every slot of tile 1. -/
def crowd : List (Nat × Thread) := (List.range 16).map fun k => (k + 1, { leaper 1 with tile := 1, slot := k })

theorem witness_LeapArrives :
    (let s := acting (world [(0, flying)]) (.leapArrival (leapMsg 0))
     threadOf s 0 = some flying ∧ fencedAt s 0 1 = false ∧ (tileOf s 1).arrivals = [] ∧ freeSlot s 1 = some 0)
      ∧ (let s := acting (world ((0, flying) :: crowd)) (.leapArrival (leapMsg 0))
         threadOf s 0 = some flying ∧ freeSlot s 1 = none ∧ (tileOf s 1).arrivals.length < 4
          ∧ 4 ≤ (tileOf (modTile s 1 fun t => { t with arrivals := List.replicate 4 (leapMsg 0) }) 1).arrivals.length)
      ∧ (let s := acting (world [(0, flying)]) (.leapBounce (leapMsg 0))
         threadOf s 0 = some flying ∧ s.cycle < (leapMsg 0).sent + flying.syto.toNat)
      ∧ (threadOf (acting (world [(0, { flying with syto := 0 })]) (.leapBounce (leapMsg 0))) 0).map (fun t => t.syto) = some 0
      ∧ flying.tvec ≠ 0 ∧ flying.inHandler = false ∧ flying.ending = false
      ∧ (tileOf (acting (world [(0, flying)]) (.arrivalAcknowledgement 0 0)) 0).arrivals = [] := by decide +kernel

/-- A thread with a register pointer to s5 of slot 0 of tile 1 in s8. -/
def putter : Thread := { thr with s := [(8, mkPtr 1 1 0 5), (1, 7)] }

theorem witness_RputSent :
    (Ready (unit thr) cur thr { Need.none with sr := [8, 1], rx := true } ∧ (sget thr 8).toNat / 2 ^ 60 ≠ 1)
      ∧ Ready (unit putter) cur putter { Need.none with sr := [8, 1], rx := true } ∧ (sget putter 8).toNat / 2 ^ 60 = 1
      ∧ anyLimits (unit putter) 0 (sget putter 8) = 0 ∧ watchHit (unit putter) putter (sget putter 8) 2 = none
      ∧ guestTile (unit putter) 0 1 0 = some 1 ∧ meterTraps putter (charge (unit putter) 0 0 (sget putter 8) 1) = false := by
  unfold Ready Executing; decide +kernel

def rputMsg : RputMsg :=
  { uid := 0, fid := 20, partn := 0, serial := 1, src := 0, dst := 1, ptr := mkPtr 1 1 0 5, val := 7, ow := 4 }

/-- A thread of the same team on tile 1 that accepts remote writes and has cleared s5. -/
def taker : Thread := { thr with tile := 1, racc := 1, sEmpty := 0x20 }

theorem witness_RputArrives :
    (let s := acting (world [(0, putter), (1, taker)]) (.rputArrival rputMsg)
     fencedAt s 0 1 = false ∧ rputTarget s 1 0 = some 1 ∧ threadOf s 1 = some taker ∧ taker.partn = 0 ∧ taker.serial = rputMsg.serial
      ∧ taker.racc.getLsbD 0 = true ∧ sArmed taker (rS 5) = true ∧ taker.role = 0 ∧ taker.stand = .inSlot)
      ∧ rputReason (acting (world [(0, putter)]) (.rputArrival rputMsg)) rputMsg ≠ 0 := by decide +kernel

/-- A state whose point 0 is as given. -/
def pointed (th : Thread) (p : Point) : State :=
  withPart (unit th) fun q => { q with teams := [(1, { team with points := [(0, p)] })] }

def pt (e a : Nat) (c : Bool) : Point := { expected := e, arrived := a, phase := false, closed := c }

theorem witness_RendezvousInit :
    (let th := { thr with s := [(8, 0)] }; Ready (unit th) cur th { Need.none with sr := [8], rx := true, ev := true }
      ∧ (sget th 8).toNat = 0 ∧ teamOf (unit th) 0 1 = some team)
      ∧ (sget thr 8).toNat = 256 ∧ threadLimit (unit thr) thr < 256
      ∧ Ready (pointed thr (pt 8 1 false)) cur thr { Need.none with sr := [3], rx := true, ev := true } ∧ 0 < (sget thr 3).toNat
      ∧ (sget thr 3).toNat ≤ threadLimit (pointed thr (pt 8 1 false)) thr ∧ 0 < (pointAt (pointed thr (pt 8 1 false)) thr 0).arrived
      ∧ (pointAt (unit thr) thr 0).arrived = 0 := by unfold Ready Executing; decide +kernel

theorem witness_RendezvousArrive :
    Ready (unit thr) cur thr { Need.none with rx := true, ev := true } ∧ (pointAt (unit thr) thr 1).expected = 0
      ∧ (pointAt (unit thr) thr 0).expected ≠ 0 ∧ thr.rvArr.getLsbD 0 = false ∧ (pointAt (unit thr) thr 0).closed = false
      ∧ ({ thr with rvArr := 1 }).rvArr.getLsbD 0 = true ∧ (pointAt (pointed thr (pt 8 8 true)) thr 0).closed = true
      ∧ (pointAt (pointed thr (pt 8 7 false)) thr 0).arrived + 1 = (pointAt (pointed thr (pt 8 7 false)) thr 0).expected := by
  unfold Ready Executing; decide +kernel

theorem witness_RendezvousWait :
    Ready (unit thr) cur thr { Need.none with rx := true } ∧ decide ((pointAt (unit thr) thr 0).phase ≠ thr.rvRec.getLsbD 0) = false ∧ thr.rvto ≠ 0
      ∧ decide ((pointAt (unit thr) { thr with rvRec := 1 } 0).phase ≠ ({ thr with rvRec := 1 }).rvRec.getLsbD 0) = true := by
  unfold Ready Executing; decide +kernel

theorem witness_RendezvousEnds :
    (let th := { thr with wait := .rvwait 0, rvArr := 1 }
     let s := acting (world [(0, th)]) (.rendezvousRelease 0 1 0)
     Acting s (.rendezvousRelease 0 1 0) ∧ teamOf s 0 1 = some team ∧ s.threads = [(0, th)] ∧ th.role = 0 ∧ th.stand = .inSlot
      ∧ th.wait ≠ .rvarr 0)
      ∧ (let th := { thr with wait := .rvwait 0, rvSince := 5 }
         let s := acting (world [(0, th)]) (.rendezvousTimeout 0 5)
         threadOf s 0 = some th ∧ th.rvSince = 5 ∧ th.tvec ≠ 0 ∧ th.inHandler = false ∧ th.ending = false) := by decide +kernel

/-- A thread with a pointer to the command word at 0x100 of its tile in s8. -/
def pushUnit (ws : List Word) : State :=
  { unit thr with mem := ws.zipIdx.foldl (fun m w => memPutWord m (keySpad 0 (0x100 + 8 * w.2)) w.1) [] }

/-- FILL of one word at 0x200 with 55. -/
def fillWords : List Word := [at0 0x200, 55, 0, 0x1400000000000001]

/-- The job as its command checks see it. -/
def pushJob (s : State) (ws : List Word) : Job :=
  { wordsJob 0 ws with jid := s.nextId, uid := 0, tid := tidOf thr, serial := 1, tile := 0, reg := 5, cmd := at0 0x100 }

/-- The copy queue of the core holds four jobs. -/
def pushFull : State :=
  { pushUnit fillWords with clusters := [(0, { Cluster.reset with cu := { Cluster.reset.cu with queues := [(0, List.replicate 4 mfmtJob)] } })] }

theorem witness_JobPushed :
    Ready (unit thr) cur thr { Need.none with sr := [2], sd := [5], rx := true } ∧ (sget thr 2).toNat / 2 ^ 60 ≠ 0
      ∧ Ready (unit thr) cur thr { Need.none with sr := [4], sd := [5], rx := true } ∧ (sget thr 3).toNat % 32 ≠ 0
      ∧ guestTile (unit thr) 0 0 0 = some thr.tile
      ∧ (∀ s ∈ [pushUnit fillWords, pushFull], Executing s cur thr ∧ needMet s 0 thr { Need.none with sr := [8], sd := [5], rx := true } = true
          ∧ limitsOf s 0 (sget thr 8) = 0 ∧ pushWords s 0 (sget thr 8) = (s, .inr fillWords)
          ∧ illegalCommand s (pushJob s fillWords) 1 false = none)
      ∧ (illegalCommand (pushUnit [0, 0, 0, 0]) (pushJob (pushUnit [0, 0, 0, 0]) [0, 0, 0, 0]) 1 false).isSome = true
      ∧ pushWords (pushUnit [0, 0, 0, 0]) 0 (sget thr 8) = (pushUnit [0, 0, 0, 0], .inr [0, 0, 0, 0])
      ∧ thr.meter.jobs = false ∧ meterTraps thr 0 = false ∧ (queueJobs (pushUnit fillWords) thr 1).length < 4
      ∧ 4 ≤ (queueJobs pushFull thr 1).length := by unfold Ready Executing; (repeat' with_reducible apply And.intro) <;> decide +kernel

/-- A LAUNCH of a team of which a store of a thread that is gone is still on its way. -/
def straggling : State :=
  sched (world []) { cycle := 1003, late := false, age := 100, src := 0, act := .homeAccess { req (.store 8 7) with uid := 5 } }

theorem witness_StatusWordLands :
    (let th := { thr with wait := .jobDone 11, jobsIn := [(5, 11)] }
     let s := acting (world [(0, th)]) (.jobStatusWord mfmtJob 3)
     statusWaits s mfmtJob 3 = false ∧ threadOf s mfmtJob.uid = some th ∧ th.role = 0 ∧ th.stand = .inSlot
      ∧ (mfmtJob.reg, mfmtJob.jid) ∈ th.jobsIn)
      ∧ (let s := acting (world []) (.jobStatusWord mfmtJob 3)
         threadOf s mfmtJob.uid = none ∧ mateOf s mfmtJob.uid = none ∧ (partOf s 0).saved = [])
      ∧ (let x : SavedThread := { uid := 0, th := { thr with wait := .jobDone 11, jobsIn := [(5, 11)] }, grans := [], pois := [] }
         let i : Image := { partn := 0, serial := 1, team := team, slot := 0, order := 0, tsc := 0, threads := [x], cores := [], ranges := [] }
         let s := acting (withPart (world []) fun p => { p with saved := [i] }) (.jobStatusWord mfmtJob 3)
         statusWaits s mfmtJob 3 = false ∧ threadOf s mfmtJob.uid = none ∧ mateOf s mfmtJob.uid = none ∧ (partOf s mfmtJob.partn).saved = [i]
          ∧ x.uid = mfmtJob.uid ∧ (mfmtJob.reg, mfmtJob.jid) ∈ x.th.jobsIn ∧ x.th.wait = .jobDone mfmtJob.jid)
      ∧ (let j := job 0 0 0 0x2000000000000000
         let w := launchStatus 0 1 0
         statusWaits (acting straggling (.jobStatusWord j w)) j w = true ∧ statusWaits (acting (world []) (.jobStatusWord j w)) j w = false
          ∧ statusWaits (acting straggling (.jobStatusWord j (launchStatus 5 0 2))) j (launchStatus 5 0 2) = false) := by decide +kernel

/-- The deque of the thread's core holds n ranges of ten. -/
def dequed (n : Nat) : State :=
  modTile (unit thr) 0 fun t => { t with deque := List.replicate n { lo := 0, hi := 10, tag := 1 } }

theorem witness_DequeOwner :
    Ready (dequed 31) cur thr { Need.none with sr := [4, 1, 3], rx := true } ∧ (sget thr 1).toNat ≤ (sget thr 1).toNat
      ∧ (sget thr 1).toNat < (sget thr 3).toNat ∧ (tileOf (dequed 31) 0).deque.length < 32
      ∧ Ready (dequed 32) cur thr { Need.none with sr := [4, 1, 3], rx := true } ∧ room (dequed 32) 0 ≤ (tileOf (dequed 32) 0).deque.length
      ∧ Ready (dequed 0) cur thr { Need.none with sd := [rS 10, rS 11, rS 12] } ∧ (tileOf (dequed 0) 0).deque = []
      ∧ (tileOf (dequed 32) 0).deque = List.replicate 31 { lo := 0, hi := 10, tag := 1 } ++ [{ lo := 0, hi := 10, tag := 1 }]
      ∧ (tileOf (dequed 31) 0).deque = List.replicate 30 { lo := 0, hi := 10, tag := 1 } ++ [{ lo := 0, hi := 10, tag := 1 }]
      ∧ Ready (dequed 1) cur thr { Need.none with rx := true } ∧ Ready (dequed 1) cur thr { Need.none with sd := [5] } := by
  unfold Ready Executing; (repeat' with_reducible apply And.intro) <;> decide +kernel

def stealMsg (rest : List Nat) : StealMsg :=
  { uid := 0, fid := 20, partn := 0, serial := 1, src := 0, here := 1, rest := rest, charge := 256, inj := 444 }

theorem witness_DequeSteal :
    Ready (unit thr) cur thr { Need.none with sd := [rS 10, rS 11, rS 12] } ∧ victims (unit thr) thr = []
      ∧ (let s := withPart (unit thr) fun p => { p with teams := [(1, { team with sd := 1 })] }
         Ready s cur thr { Need.none with sd := [rS 10, rS 11, rS 12] } ∧ victims s thr = [1])
      ∧ (tileOf (modTile (world []) 1 fun t => { t with deque := [{ lo := 0, hi := 1, tag := 1 }] }) 1).deque = [{ lo := 0, hi := 1, tag := 1 }]
      ∧ (tileOf (modTile (world []) 1 fun t => { t with deque := [{ lo := 0, hi := 10, tag := 1 }] }) 1).deque = [{ lo := 0, hi := 10, tag := 1 }]
      ∧ (tileOf (acting (world []) (.stealVisit (stealMsg [2]))) 1).deque = [] := by unfold Ready Executing; decide +kernel

theorem witness_EventsNeedLocalTime :
    thr.ltm = false ∧ Ready (unit thr) cur thr { Need.none with sr := [evPay 1 0, evPay 1 1, 8, 1], rx := true }
      ∧ Ready (unit thr) cur thr { Need.none with sd := [rS 10, rS 11, rS 12], rx := true }
      ∧ Ready (unit thr) cur thr { Need.none with rx := true } ∧ Ready (unit thr) cur thr { Need.none with sr := [8, 1], rx := true } := by
  unfold Ready Executing; decide +kernel

/-- A thread on local time, with a pointer to tile (1, 0) in s8 and a time in s9. -/
def lthr (t : Word) : Thread := { thr with ltm := true, s := [(2, 1), (3, 2), (8, mkPtr 0 1 0 0), (9, t)] }

/-- Its event unit, with one link of lookahead 5 to tile 1. -/
def lunit (th : Thread) (closed : Bool) (sent : Word) : State :=
  modEvu (withPart (unit th) fun p => { p with teams := [(1, { team with ltm := true })] }) 0 fun e =>
    { e with active := true, closed := closed, out := [(2, { dst := 1, look := 5, sent := sent, lastMsg := none, hold := none })] }

theorem witness_EventSent :
    Ready (lunit (lthr 4) true 0) cur (lthr 4) { Need.none with sr := [evPay 1 0, evPay 1 1, 8, 9], rx := true }
      ∧ Ready (lunit (lthr 5) true 0) cur (lthr 5) { Need.none with sr := [evPay 1 0, evPay 1 1, 8, 9], rx := true }
      ∧ evTarget (lunit (lthr 5) true 0) (lthr 5) (sget (lthr 5) 8) = .inr 1
      ∧ (slotTo (lunit (lthr 5) true 0) 0 1).map (fun x => (x.1, x.2.look)) = some (2, 5)
      ∧ (sget (lthr 4) 9).toNat < (lthr 4).lt.vck.toNat + 5 ∧ (lthr 5).lt.vck.toNat + 5 ≤ (sget (lthr 5) 9).toNat
      ∧ (sget (lthr (BitVec.allOnes 64)) 9).toNat = 2 ^ 64 - 1
      ∧ meterTraps (lthr 5) (256 * lenTiles (lunit (lthr 5) true 0) 0 1) = false ∧ (evuOf (lunit (lthr 5) true 0) 0).held = [] := by
  unfold Ready Executing; (repeat' with_reducible apply And.intro) <;> decide +kernel

theorem witness_EventUnits :
    (lthr 5).ltm = true ∧ Ready (lunit (lthr 5) true 0) cur (lthr 5) { Need.none with sd := [rS 10, rS 11, rS 12], rx := true }
      ∧ Ready (lunit (lthr 5) true 0) cur (lthr 5) { Need.none with rx := true }
      ∧ (evuOf (modEvu (lunit (lthr 5) true 0) 0 fun e => { e with out := [] }) 0).out = []
      ∧ (evuOf (lunit (lthr 5) true 4) 0).out = [(2, { dst := 1, look := 5, sent := 4, lastMsg := none, hold := none })]
      ∧ satAdd (evNow (lunit (lthr 5) true 4) 0).floor 5 = 5
      ∧ Ready (lunit (lthr 5) false 0) cur (lthr 5) { Need.none with sr := [8, 9], rx := true }
      ∧ 2 ^ 32 ≤ (sget (lthr (0x100000000)) 9).toNat ∧ (sget (lthr 5) 9).toNat < 2 ^ 32
      ∧ (evuOf (lunit (lthr 5) true 0) 0).closed = true ∧ (evuOf (lunit (lthr 5) false 0) 0).closed = false
      ∧ (let s := modEvu (lunit (lthr 5) false 0) 0 fun e => { e with out := [] }
         slotTo s 0 1 = none ∧ evTarget s (lthr 5) (sget (lthr 5) 8) = .inr 1
          ∧ meterTraps (lthr 5) (192 * lenTiles s 0 1) = false)
      ∧ (let th := { lthr 5 with s := [(8, mkPtr 0 0 0 0), (9, 5)] }
         let s := modEvu (lunit th false 0) 0 fun e => { e with out := [] }
         Ready s cur th { Need.none with sr := [8, 9], rx := true } ∧ evTarget s th (sget th 8) = .inr 0 ∧ slotTo s 0 0 = none
          ∧ meterTraps th (192 * lenTiles s 0 0) = false ∧ linkRefusal s 0 0 0 = 0 ∧ look (evuOf s 0).out 2 = none
          ∧ linkRefusal (modEvu s 0 fun e => { e with inb := (List.range 32).map fun j => (j, { src := 1 + j, look := 5, p := 3 }) }) 0 0 0 = 3) := by
  unfold Ready Executing; (repeat' with_reducible apply And.intro) <;> decide +kernel

def evMsg : EventMsg := { partn := 0, serial := 1, src := 0, dst := 1, t := 7, pay0 := 1, pay1 := 2, uid := 0, inj := 440, sent := 990 }

def ev (t : Word) : Event := { t := t, pay0 := 0, pay1 := 0, src := 0 }

/-- A thread on local time of tile 1 that waits for an event, and n pending ones. -/
def waiting (n : Nat) : State :=
  modEvu (world [(0, lthr 5), (1, { lthr 5 with tile := 1, wait := .evnext 10 900, sEmpty := 0x1C00, sOut := 0x1C00 })]) 1 fun e =>
    { e with active := true, closed := true, pending := List.replicate n (ev 7) }

theorem witness_EventArrives :
    (∀ n ∈ [63, 64], heldFor (waiting n) 0 1 = [] ∧ eventBehind (waiting n) evMsg = false ∧ fencedAt (waiting n) 0 1 = false
        ∧ (waiting n).threads.any (fun e => decide (e.2.tile = 1 ∧ e.2.partn = 0 ∧ e.2.serial = 1)) = true)
      ∧ (evuOf (waiting 63) 1).pending.length < 64 ∧ 64 + ringRoom (tileOf (waiting 64) 1).evsp ≤ (evuOf (waiting 64) 1).pending.length
      ∧ heldFor (modEvu (waiting 0) 0 fun e => { e with held := [evMsg] }) 0 1 = [evMsg]
      ∧ (let m := { evMsg with dst := 0 }
         let s := modEvu (waiting 0) 0 fun e => { e with active := true, closed := true, pending := List.replicate 64 (ev 7) }
         eventBehind s m = false ∧ m.src = m.dst ∧ 64 + ringRoom (tileOf s 0).evsp ≤ (evuOf s 0).pending.length
          ∧ (threadOf s m.uid).map (·.wait) = some .none) := by decide +kernel

theorem witness_EventDispatched :
    (dispatchable (waiting 1) 1).map (fun x => (x.1.t, x.2)) = some (7, 1) ∧ (evuOf (waiting 1) 1).pending.length ≤ 65
      ∧ (let s := modThread (waiting 0) 1 fun t => { t with lt := { t.lt with vend := 0 } }
         (threadOf s 1).map (fun t => (t.wait, t.role, t.stand)) = some (.evnext 10 900, 0, .inSlot))
      ∧ endable (modThread (waiting 0) 0 fun t => { t with tile := 9, serial := 9 }) 1 = some 1 := by decide +kernel

theorem witness_PromisesRise :
    (let s := modEvu (waiting 0) 1 fun e => { e with inb := [(0, { src := 0, look := 5, p := 3 })] }
     look (evuOf s 1).inb 0 = some { src := 0, look := 5, p := 3 } ∧ fencedAt s 0 1 = false)
      ∧ almanacDue (waiting 0) { dst := 1, look := 5, sent := 0, lastMsg := some 936, hold := some 9 } = some 9
      ∧ linkRefusal (waiting 0) 0 1 0 = 6 ∧ (evuOf (world [(0, lthr 5), (1, { lthr 5 with tile := 1 })]) 1).inb = []
      ∧ linkRefusal (modEvu (world [(0, lthr 5), (1, { lthr 5 with tile := 1 })]) 1 fun e => { e with active := true }) 0 1 0 = 0 := by
  decide +kernel

/-- An f32 sum, and an inexact quotient whose trap is enabled. -/
def trapping : Thread := { vthr with vec := { vthr.vec with vctl := 0x1F0 } }

theorem witness_VectorLanes :
    ∃ L, laneForm (vunit vthr) vthr (.vdiv 2 0 1 .f32 Q) = some L ∧ (∀ r ∈ L.d :: L.srcs, r.val < vthr.vn)
      ∧ Ready (vunit vthr) cur vthr { vneed L.d L.srcs L.q with sr := L.sr } ∧ L.flags (vunit vthr) vthr &&& vthr.vec.vctl.toNat / 16 % 32 = 0
      ∧ L.flags (vunit trapping) trapping &&& trapping.vec.vctl.toNat / 16 % 32 ≠ 0 := by
  refine ⟨_, rfl, ?_⟩; unfold Ready Executing; (repeat' with_reducible apply And.intro) <;> decide +kernel

theorem witness_VectorClaim :
    ∃ L, laneForm (vunit vthr) vthr (.vadd 2 3 1 .f32 Q) = some L ∧ Executing (vunit vthr) cur vthr
      ∧ needMet (vunit vthr) 0 vthr { vneed L.d L.srcs L.q with sr := L.sr } = true ∧ deferredDue vthr { vneed L.d L.srcs L.q with sr := L.sr } = false
      ∧ (L.d :: L.srcs).find? (fun x => decide (vthr.vn ≤ x.val)) = some 3 := by
  refine ⟨_, rfl, ?_⟩; unfold Executing; decide +kernel

theorem witness_VectorCompare :
    (1 : VReg).val < vthr.vn ∧ Ready (vunit vthr) cur vthr { Need.none with mr := [0, 2], vr := [0, 1] }
      ∧ Ready (vunit vthr) cur vthr { Need.none with mr := [1], vr := [0, 1] }
      ∧ (cmpElem .lt .f32 false 0x40000000 0x3F800000).2 &&& vthr.vec.vctl.toNat / 16 % 32 = 0
      ∧ (cmpElem .lt .f32 false 0x7FC00000 0x3F800000).2 &&& trapping.vec.vctl.toNat / 16 % 32 ≠ 0 := by
  unfold Ready Executing; decide +kernel

theorem witness_VectorElement :
    Ready (vunit vthr) cur vthr { Need.none with sr := [0], sd := [5], mr := [1], vr := [1] }
      ∧ Ready (vunit vthr) cur vthr { Need.none with sr := [1, 0], mr := [1], vr := [2] }
      ∧ lane vthr { Q with mask := 1 } ((sget vthr 0).toInt % (512 / ewidth .i32 : Nat)).toNat = true
      ∧ lane vthr { Q with mask := 1 } ((sget vthr 1).toInt % (512 / ewidth .i32 : Nat)).toNat = false := by
  unfold Ready Executing; decide +kernel

theorem witness_VectorReduces :
    (2 : VReg).val < vthr.vn ∧ ElemTy.i32.code < 8 ∧ Ready (vunit vthr) cur vthr { Need.none with mr := [0], vr := [1], vd := [2] } := by
  unfold Ready Executing; decide +kernel

theorem witness_FloatReduces :
    (2 : VReg).val < vthr.vn ∧ 8 ≤ ElemTy.f32.code ∧ Ready (vunit vthr) cur vthr { Need.none with mr := [0], vr := [1], vd := [2] }
      ∧ (let x := fun k => if lane vthr Q k then elem 32 (vget (vunit vthr) vthr 1) k else 2 ^ 31
         (pairTree (addElem .f32 (rndOf vthr Q) (ftzOf vthr)) (Nat.log2 (512 / 32)) x).2 &&& vthr.vec.vctl.toNat / 16 % 32 = 0)
      ∧ (let s := { vunit trapping with tiles := [(0, { Tile.reset with pool := [(8, 0x7F8000017F800001)] })] }
         Ready s cur trapping { Need.none with mr := [0], vr := [1], vd := [2] }
          ∧ (let x := fun k => if lane trapping Q k then elem 32 (vget s trapping 1) k else 2 ^ 31
             (pairTree (addElem .f32 (rndOf trapping Q) (ftzOf trapping)) (Nat.log2 (512 / 32)) x).2 &&& trapping.vec.vctl.toNat / 16 % 32 ≠ 0)) := by
  unfold Ready Executing; (repeat' with_reducible apply And.intro) <;> decide +kernel

theorem witness_MaskOperations :
    maskForm thr (.mset 2 1 { Q with mask := 1, zero := true }) = some (2, [], [1], { Q with mask := 1, zero := true }, 7)
      ∧ Ready (unit thr) cur thr { Need.none with sr := [1], mr := [1] } ∧ maskForm thr (.mnot 0 1 Q) = some (0, [1], [], Q, ~~~5)
      ∧ Ready (unit thr) cur thr { Need.none with mr := [0, 1, 0] }
      ∧ maskCount thr (.mpop 5 1 Q) = some (5, 1, Q, 2) ∧ Ready (unit thr) cur thr { Need.none with sd := [5], mr := [0, 1] } := by
  unfold Ready Executing; (repeat' with_reducible apply And.intro) <;> decide +kernel

/-- A thread that meters nothing, with vector registers and a pointer of 64-byte alignment in s8. -/
def vmthr : Thread := { vthr with meter := { vthr.meter with cnt := false }, m := [(1, 0)] }

theorem witness_VectorAccessSent :
    (∃ x, vecMemForm (vunit vmthr) vmthr (.vst 0 8 .f32 false Q) = some x ∧ (∀ r ∈ x.regs, r.val < vmthr.vn)
        ∧ Ready (vunit vmthr) cur vmthr x.need ∧ limitsOf (vunit vmthr) 0 (sget vmthr x.base) = 0
        ∧ (sget vmthr x.base).toNat % 64 = 0 ∧ x.part vmthr 7 ∧ (∀ k, k < 8 → x.ptr k = some (at0 (0x100 + 8 * k)))
        ∧ (∀ k, k < 8 → checkPtr (vunit vmthr) vmthr (at0 (0x100 + 8 * k)) x.n x.sync false = none
            ∧ watchHit (vunit vmthr) vmthr (at0 (0x100 + 8 * k)) x.kind = none) ∧ sendBlocked vmthr 20 = false)
      ∧ (∃ x, vecMemForm (vunit vmthr) vmthr (.vlds 2 2 8 1 true { Q with mask := 1 }) = some x ∧ Ready (vunit vmthr) cur vmthr x.need
          ∧ x.rx = true ∧ rxCount vmthr < 8 ∧ x.load = some 32 ∧ ∀ k, ¬ x.part vmthr k)
      ∧ ∃ x, vecMemForm (vunit vmthr) vmthr (.vstx 0 1 8 .n32 false { Q with mask := 1 }) = some x ∧ Ready (vunit vmthr) cur vmthr x.need
          ∧ x.load = none ∧ ∀ k, ¬ x.part vmthr k := by
  refine ⟨⟨_, rfl, ?_⟩, ⟨_, rfl, ?_, rfl, ?_, rfl, fun k h => ?_⟩, ⟨_, rfl, ?_, rfl, fun k h => ?_⟩⟩
  · unfold Ready Executing VecMem.part; (repeat' with_reducible apply And.intro) <;> decide +kernel
  · unfold Ready Executing; decide +kernel
  · decide +kernel
  · exact absurd (show (mget vmthr 1).getLsbD k = true from h.2.2) (by simp [show mget vmthr 1 = 0 from rfl])
  · unfold Ready Executing; decide +kernel
  · exact absurd (show (mget vmthr 1).getLsbD k = true from h.2.2) (by simp [show mget vmthr 1 = 0 from rfl])

theorem witness_IndexedOverlap : (2 : VReg).val < vthr.vn ∧ Ready (vunit vthr) cur vthr { Need.none with sr := [8], rx := true } := by
  unfold Ready Executing; decide +kernel

/-- Offsets in s8: not a multiple of 64, the last one of the region, and one beyond it. -/
def accAt (o : Word) : Thread := { vthr with s := [(8, o)] }

theorem witness_AccumulatorMoves :
    Ready (vunit (accAt 0x7FC8)) cur (accAt 0x7FC8) { Need.none with sr := [8], mr := [0], vr := [0] }
      ∧ Ready (vunit (accAt 0x8000)) cur (accAt 0x8000) { vneed 0 [] Q with sr := [8] }
      ∧ Ready (vunit (accAt 0x7FC0)) cur (accAt 0x7FC0) { Need.none with sr := [8], mr := [0], vr := [0] }
      ∧ Ready (vunit (accAt 0x7FC0)) cur (accAt 0x7FC0) { vneed 0 [] Q with sr := [8] } ∧ accJobs (vunit (accAt 0x7FC0)) 0 = []
      ∧ accJobs { vunit vthr with clusters := [(0, { Cluster.reset with mxe :=
            { Cluster.reset.mxe with queues := [(0, [job 0 0 0 0x0200000000000000])] } })] } 0 ≠ []
      ∧ (vunit (accAt 0x7FC0)).MemOk := by unfold Ready Executing State.MemOk; (repeat' with_reducible apply And.intro) <;> decide +kernel

theorem witness_DennumArithmetic :
    ∃ D, dennumForm (dunit dthr) dthr (.ddiv 2 0 1) = some D ∧ (∀ r ∈ D.d :: D.srcs, r.val < dthr.dn.dlive)
      ∧ (D.d.val + 1) * (1 + (dthr.dn.prc + 63) / 64) ≤ dthr.dwin
      ∧ (∀ g < 16, ∀ h < 16, wgran dthr g = wgran dthr h → g = h) ∧ dthr.dwin = 16
      ∧ Ready (dunit dthr) cur dthr { Need.none with sr := D.sr } ∧ (∀ r ∈ D.srcs, dPois (dunit dthr) dthr r.val = false) ∧ D.fl &&& dthr.dn.dctl.toNat / 2 ^ 16 % 32 = 0 ∧ D.fl &&& 0x1F ≠ 0 := by
  refine ⟨_, rfl, ?_⟩; unfold Ready Executing; (repeat' with_reducible apply And.intro) <;> decide +kernel

/-- A granule of d0 is poisoned. -/
theorem witness_DennumPoisoned :
    let s := modTile (dunit dthr) 0 fun t => { t with poolPois := [wgran dthr 1] }
    ∃ D, dennumForm s dthr (.dadd 2 0 1) = some D ∧ (∀ r ∈ D.d :: D.srcs, r.val < dthr.dn.dlive)
      ∧ Ready s cur dthr { Need.none with sr := D.sr } ∧ dthr.resume = 0 ∧ (0 : DReg) ∈ D.srcs
      ∧ wgran dthr (0 * (1 + (dthr.dn.prc + 63) / 64) + 1) ∈ (tileOf s dthr.tile).poolPois := by
  refine ⟨_, rfl, ?_⟩; unfold Ready Executing; (repeat' with_reducible apply And.intro) <;> decide +kernel

theorem witness_DennumLive :
    ∃ D, dennumForm (dunit dthr) dthr (.dadd 2 3 1) = some D ∧ Executing (dunit dthr) cur dthr
      ∧ needMet (dunit dthr) 0 dthr { Need.none with sr := D.sr } = true ∧ deferredDue dthr { Need.none with sr := D.sr } = false
      ∧ (D.d :: D.srcs).find? (fun x => decide (dthr.dn.dlive ≤ x.val)) = some 3 := by
  refine ⟨_, rfl, ?_⟩; unfold Executing; decide +kernel

theorem witness_DennumToScalar :
    Ready (dunit dthr) cur dthr Need.none ∧ Ready (dunit dthr) cur dthr { Need.none with sd := [5] } ∧ (1 : DReg).val < dthr.dn.dlive
      ∧ dPois (dunit dthr) dthr 0 = false ∧ dPois (dunit dthr) dthr 1 = false
      ∧ (dcompare .lt (dget (dunit dthr) dthr 0) (dget (dunit dthr) dthr 1)).2 &&& dthr.dn.dctl.toNat / 2 ^ 16 % 32 = 0 := by
  unfold Ready Executing; decide +kernel

/-- `PrecisionLaysOut`, `PrecisionRange`: a window too small by one granule, one that is just large enough, and precisions
in s8 inside and outside the range. -/
theorem witness_PrecisionSet :
    Ready (dunit dthr) cur dthr Need.none ∧ dthr.dwin < 1 * (1 + (1024 + 63) / 64) ∧ 8 * (1 + (64 + 63) / 64) ≤ dthr.dwin
      ∧ (∀ k < 16, dPois (dunit dthr) dthr k = false)
      ∧ (let th := { dthr with s := [(8, 4096)] }; Ready (dunit th) cur th { Need.none with sr := [8] } ∧ 8 ≤ (sget th 8).toNat ∧ (sget th 8).toNat ≤ 4096)
      ∧ (let th := { dthr with s := [(8, 7)] }; Ready (dunit th) cur th { Need.none with sr := [8] } ∧ (sget th 8).toNat < 8) := by
  unfold Ready Executing; decide +kernel

/-- A dennum thread that meters nothing; 1/3 does not fit a slot of two granules. -/
def dmthr (slot : Nat) : Thread := { dthr with meter := { dthr.meter with cnt := false }, dn := { dthr.dn with dslot := slot } }

theorem witness_DennumMemory :
    Ready (dunit (dmthr 2)) cur (dmthr 2) { Need.none with sr := [8], rx := true } ∧ (1 : DReg).val < (dmthr 2).dn.dlive ∧ dPois (dunit (dmthr 2)) (dmthr 2) 1 = false
      ∧ addOff (sget (dmthr 2) 8) ((0 : Int) * 8) = some (at0 0x100) ∧ checkPtr (dunit (dmthr 2)) (dmthr 2) (at0 0x100) 8 false false = none
      ∧ watchHit (dunit (dmthr 2)) (dmthr 2) (at0 0x100) 1 = none
      ∧ (memForm (dhead (dunit (dmthr 2)) (dmthr 2) 1) (dget (dunit (dmthr 2)) (dmthr 2) 1) 2).length ≤ 2
      ∧ (dmthr 1).dn.dslot < (memForm (dhead (dunit (dmthr 1)) (dmthr 1) 1) (dget (dunit (dmthr 1)) (dmthr 1) 1) 2).length
      ∧ (dmthr 1).dn.dctl.getLsbD 4 = false ∧ (dmthr 2).resume = 0
      ∧ (∀ k, k < 2 → watchHit (dunit (dmthr 2)) (dmthr 2) (offBy (at0 0x100) (8 * k)) 2 = none
          ∧ addOff (at0 0x100) (8 * k) = some (at0 (0x100 + 8 * k)) ∧ limitsOf (dunit (dmthr 2)) 0 (at0 (0x100 + 8 * k)) = 0) := by unfold Ready Executing; (repeat' with_reducible apply And.intro) <;> decide +kernel

/-- A state in which a job at the head of its core's queue may start. -/
def starting (cu : Bool) (j : Job) (a : Act) : State :=
  acting { world [(0, thr)] with clusters := [(0, if cu then { Cluster.reset with cu := { Cluster.reset.cu with queues := [(0, [j])] } }
    else { Cluster.reset with mxe := { Cluster.reset.mxe with queues := [(0, [j])] } })] } a

/-- Commands of each kind: MZERO of a block that fits and of one that does not, DIGEST, and the FILL of one word. -/
def mzeroJob (acc : Nat) : Job := job 0 0 0 (0x0200000000000000 + BitVec.ofNat 64 (acc * 2 ^ 28 + 63 * 64 + 63))

def digestJob : Job := job (at0 0) 64 0 0x1600000000000000

def fillJob : Job := { job (at0 0x200) 55 0 0x1400000000000001 with jid := 11 }

theorem witness_EnginesStart :
    (MayStart (starting false mfmtJob (.mfmt 0 0)) .mfmt false 0 0 mfmtJob [] ∧ ∀ e ∈ (starting false mfmtJob (.mfmt 0 0)).threads, ∀ j q w, e.2.wait ≠ .jobQueue j q w)
      ∧ MayStart (starting false (job 0 0 0 0x0500000000000202) (.mcheck 0 0)) .mcheck false 0 0 (job 0 0 0 0x0500000000000202) []
      ∧ MayStart (starting false (mzeroJob 0) (.mzero 0 0)) .mzero false 0 0 (mzeroJob 0) []
      ∧ accFits 0 (accSize (ctxOf (starting false (mzeroJob 0) (.mzero 0 0)) 0 0)) 64 64 = true
      ∧ accFits 4095 (accSize (ctxOf (starting false (mzeroJob 4095) (.mzero 0 0)) 0 0)) 64 64 = false
      ∧ MayStart (starting true digestJob (.digest 0 0)) .digest true 0 0 digestJob []
      ∧ (lookD (clusterAt (starting true digestJob (.digest 0 0)) 0).cu.regs 0 []).length < 16 := by
  refine ⟨⟨⟨⟨3, _, rfl, ⟨rfl, rfl⟩, by decide +kernel⟩, by decide +kernel⟩, fun e he => ?_⟩,
    ⟨⟨5, _, rfl, ⟨rfl, rfl⟩, by decide +kernel⟩, by decide +kernel⟩,
    ⟨⟨2, _, rfl, ⟨rfl, rfl⟩, by decide +kernel⟩, by decide +kernel⟩, by decide +kernel, by decide +kernel,
    ⟨⟨0x16, _, rfl, ⟨rfl, rfl⟩, by decide +kernel⟩, by decide +kernel⟩, by decide +kernel⟩
  have h : e = (0, thr) := by simpa [starting, acting, world] using he
  subst h; intro j q w h2; cases h2

/-- Words at byte offsets of tile 0's scratchpad. -/
def stored (l : List (Nat × Word)) : List Host.Cell := l.foldl (fun m x => memPutWord m (keySpad 0 x.1) x.2) []

/-- As `starting`, with those words there. -/
def startingWith (cu : Bool) (j : Job) (a : Act) (l : List (Nat × Word)) : State := { starting cu j a with mem := stored l }

/-- Two rows of sixteen bf16 values, 1 and 2, by one column of 1.5: the products add up to 24 and 48. -/
def mmaJob : Job := job (at0 0x1000) (at0 0x1100) (32 + 32 * 2 ^ 24) 0x0100000000010001

def mmaState (j : Job) : State :=
  startingWith false j (.mma 0 0) (((List.range 4).map fun k => (0x1000 + 8 * k, (0x3F803F803F803F80 : Word)))
    ++ ((List.range 4).map fun k => (0x1020 + 8 * k, (0x4000400040004000 : Word)))
    ++ (List.range 4).map fun k => (0x1100 + 8 * k, (0x3FC03FC03FC03FC0 : Word)))

/-- R232, R290: by hand. -/
theorem test_mma :
    let t := after .mma (mmaState mmaJob)
    memRead t.acc (accKey 0 (accOff 0 4 0 0)) 4 = 0x41C00000 ∧ memRead t.acc (accKey 0 (accOff 0 4 1 0)) 4 = 0x42400000
      ∧ (engineRun t false 0).map (fun r => (r.ev, r.count)) = some (none, 1) := by decide +kernel

/-- Start checks that fail, in their order: K, the block, A, B, and a format that needs a record. -/
theorem witness_MmaAccumulates :
    MayStart (mmaState mmaJob) .mma false 0 0 mmaJob []
      ∧ (let s := mmaState mmaJob
         let c := ctxOf s 0 0
         c.afmt ≤ 0x0D ∧ c.bfmt ≤ 0x0D ∧ fmtPair c.afmt c.bfmt = some (16, 1, 1, false) ∧ cmdFlag mmaJob 0 = false ∧ c.chkN = 0 ∧ s.MemOk
          ∧ cmdField mmaJob 192 6 + 1 = 2 ∧ cmdField mmaJob 198 6 + 1 = 1 ∧ cmdField mmaJob 204 16 = 16
          ∧ accFits 0 (accSize c) 2 1 = true ∧ limitsOf s 0 mmaJob.w0 = 0 ∧ limitsOf s 0 mmaJob.w1 = 0
          ∧ (∀ i < 2, ∀ k < 16, denseElem s 0 mmaJob.w0 c.afmt (i * 32 + (0 + k) * 2) = some (rawValue .bf16 (if i = 0 then 0x3F80 else 0x4000)))
          ∧ ∀ n < 1, ∀ k < 16, denseElem s 0 mmaJob.w1 c.bfmt (n * 32 + (0 + k) * 2) = some (rawValue .bf16 0x3FC0))
      ∧ cmdField { mmaJob with w3 := 0x0100000000008001 } 204 16 % 16 ≠ 0
      ∧ accFits (cmdField { mmaJob with w3 := 0x010000FFF0010001 } 220 12) 4 2 1 = false
      ∧ limitsOf (mmaState mmaJob) 0 (mkPtr 7 0 0 0) ≠ 0 ∧ (at0 0x1001).toNat % 2 ≠ 0
      ∧ (let c : MxCtx := { MxCtx.reset with afmt := 0x11, bfmt := 0x11, arec := 0, brec := 8 }
         ctxOf (setCtx (mmaState mmaJob) 0 0 fun _ => c) 0 0 = c ∧ c.brec.toNat % 32 ≠ 0) := by
  refine ⟨⟨⟨1, _, rfl, ⟨rfl, rfl⟩, by decide +kernel⟩, by decide +kernel⟩, ?_⟩
  unfold State.MemOk; (repeat' with_reducible apply And.intro) <;> decide +kernel

/-- MSTORE of one element as bf16, at 0x202, to be cleared: 24 scaled by 1. -/
def mstoreJob : Job := job (at0 0x202) 0 0x3F800000 0x040100000000A000

def mstoreState (j : Job) : State := { starting false j (.mstore 0 0) with acc := memWrite [] (accKey 0 0) 0x41C00000 4 }

/-- R293, R294: by hand. -/
theorem test_mstore :
    let r := engineRun (after .mstore (mstoreState mstoreJob)) false 0
    (r.map fun r => r.deliv.map fun d => (d.ptr, d.val, d.kind)) = some [(at0 0x200, 0x41C00000, .bytes 0x0C)]
      ∧ (r.map fun r => (r.ev, r.deliv.map fun d => d.clear)) = some (none, [[(0, 4)]]) := by decide +kernel

theorem witness_MstorePrepares :
    MayStart (mstoreState mstoreJob) .mstore false 0 0 mstoreJob []
      ∧ (let c := ctxOf (mstoreState mstoreJob) 0 0
         accFits (cmdField mstoreJob 220 12) (accSize c) 1 1 = true ∧ c.orec = 0 ∧ mstoreJob.w1 = 0 ∧ mstoreJob.w0.toNat % 2 = 0
          ∧ cmdField mstoreJob 160 24 % 2 = 0 ∧ mstoreJob.w0.toNat % 2 ^ 46 + 0 + 1 * 2 ≤ 2 ^ 46 ∧ cmdField mstoreJob 192 6 + 1 = 1)
      ∧ accFits (cmdField { mstoreJob with w3 := 0x040100FFF000A001 } 220 12) 4 2 1 = false ∧ (at0 0x203).toNat % 2 ≠ 0 := by
  refine ⟨⟨⟨4, _, rfl, ⟨rfl, rfl⟩, by decide +kernel⟩, by decide +kernel⟩, by decide +kernel⟩

/-- COPY of two words; GATHER of the elements 1 and 0 of a table, SCATTER and SCATTERADD of two elements to them. -/
def copyJob : Job := job (at0 0x1000) (at0 0x3000) 0 0x1000000000000002

def listJob (op et : Nat) : Job := job (at0 0x1000) (at0 0x1100) (at0 0x3000) (BitVec.ofNat 64 (2 + et * 2 ^ 36 + op * 2 ^ 56))

def listState (j : Job) (a : Act) : State :=
  startingWith true j a [(0x1000, 71), (0x1008, 72), (0x1100, 1), (0x3000, 81), (0x3008, 82)]

/-- R328-R331: by hand. -/
theorem test_copies :
    ∀ x ∈ [(Instr.copy, listState copyJob (.copy 0 0), [(at0 0x3000, (71 : Word), DelivKind.word), (at0 0x3008, 72, .word)]),
           (.gather, listState (listJob 0x11 0) (.gather 0 0), [(at0 0x3000, 72, .word), (at0 0x3008, 71, .word)]),
           (.scatter, listState (listJob 0x12 0) (.scatter 0 0), [(at0 0x1008, 81, .word), (at0 0x1000, 82, .word)]),
           (.scatteradd, listState (listJob 0x13 3) (.scatteradd 0 0), [(at0 0x1008, 81, .addLanes .i64), (at0 0x1000, 82, .addLanes .i64)])],
      ((engineRun (after x.1 x.2.1) true 0).map fun r => (r.ev, r.deliv.map fun d => (d.ptr, d.val, d.kind))) = some (none, x.2.2) := by
  decide +kernel

theorem witness_CopiesPrepare :
    (MayStart (listState copyJob (.copy 0 0)) .copy true 0 0 copyJob [] ∧ copyJob.w2 = 0 ∧ cmdField copyJob 212 8 = 0
        ∧ cmdField copyJob 220 8 = 0 ∧ cmdField copyJob 192 20 = 2
        ∧ (∀ i < 2, spadBytes (listState copyJob (.copy 0 0)) 0 copyJob.w0 (8 * i) 8 = some (71 + i)))
      ∧ (let j := listJob 0x11 0
         let s := listState j (.gather 0 0)
         MayStart s .gather true 0 0 j [] ∧ j.seg = 0 ∧ cmdFlag j 0 = false ∧ cmdField j 216 8 = 0 ∧ cmdField j 192 20 = 2
          ∧ cmdField j 212 3 = 0 ∧ cmdField j 215 1 = 0 ∧ (∀ k < 2, spadBytes s 0 j.w1 (k * 4) 4 = some (1 - k))
          ∧ ∀ k < 2, spadBytes s 0 j.w0 ((1 - k) * 8 + 0) 8 = some (72 - k) ∧ (addOff j.w2 ((k * 8 + 0 : Nat))).isSome = true)
      ∧ (let j := listJob 0x13 3
         let s := listState j (.scatteradd 0 0)
         MayStart s .scatteradd true 0 0 j [] ∧ (∀ k < 2, spadBytes s 0 j.w1 (k * 4) 4 = some (1 - k))
          ∧ ∀ k < 2, spadBytes s 0 j.w2 (k * 8 + 0) 8 = some (81 + k) ∧ (addOff j.w0 (((1 - k) * 8 + 0 : Nat))).isSome = true) := by
  refine ⟨⟨⟨⟨0x10, _, rfl, ⟨rfl, rfl⟩, by decide +kernel⟩, by decide +kernel⟩, by decide +kernel⟩,
    ⟨⟨⟨0x11, _, rfl, ⟨rfl, rfl⟩, by decide +kernel⟩, by decide +kernel⟩, by decide +kernel⟩,
    ⟨⟨0x13, _, rfl, ⟨rfl, rfl⟩, by decide +kernel⟩, by decide +kernel⟩, by decide +kernel⟩

/-- A job that ends in this cycle, with what it delivers and the event that ended it. -/
def running (j : Job) (ds : List Deliv) (ev : Option JobEv) : Running :=
  { job := j, ci := 0, start := 900, stop := 1000, consumed := 900, ev := ev, count := 0, checked := false, bytes := 0, acc := [], recs := [],
    deliv := ds, skip := false, skipped := false, charge := 0, links := [], evAt := 0, phase := 0 }

def ending (cu : Bool) (r : Running) : State :=
  acting { world [(0, thr)] with clusters := [(0, if cu then { Cluster.reset with cu := { Cluster.reset.cu with run := some r } }
    else { Cluster.reset with mxe := { Cluster.reset.mxe with run := some r } })] } (.jobEnd 0 cu)

def oneWord : Deliv :=
  { pos := 0, ptr := at0 0x200, val := 55, kind := .word, bytes := 0, elems := 1, clear := [], charge := 0, rcharge := 0 }

theorem witness_JobsEnd :
    (let r := running mfmtJob [] none
     engineRun (ending false r) false 0 = some r ∧ r.stop = (ending false r).cycle ∧ cmdBarsel r.job = 0 ∧ cmdOpcode r.job ≠ 0x15
      ∧ ¬ (0x11 ≤ cmdOpcode r.job ∧ cmdOpcode r.job ≤ 0x13) ∧ r.checked = false ∧ Unhindered (ending false r))
      ∧ (let r := running (mzeroJob 4095) [] (some (badOperand 7)); engineRun (ending false r) false 0 = some r ∧ r.ev = some (badOperand 7))
      ∧ (MayStart (starting true fillJob (.fill 0 0)) .fill true 0 0 fillJob [] ∧ fillJob.w2 = 0 ∧ cmdField fillJob 220 8 = 0
          ∧ pOff fillJob.w0 + 8 * cmdField fillJob 192 20 ≤ 2 ^ 46) := by
  refine ⟨by decide +kernel, by decide +kernel, ⟨⟨⟨0x14, _, rfl, ⟨rfl, rfl⟩, by decide +kernel⟩, by decide +kernel⟩, by decide +kernel⟩⟩

/-- A job of the copy unit, or of the matrix engine, ends with one word to deliver at 0x200. -/
theorem ends_with (cu : Bool) (j : Job) (d : Deliv) (h : j ∈ [fillJob, job 0 0 0 0x1300000400000001, job 0 0 0 0x0400000000000000])
    (hd : d.ptr = at0 0x200) :
    let r := running j [d] none
    ∃ s1, Delivers (ending cu r) s1 cu 0 (keySpad 0 0x200) r d ∧ s1 = ending cu r := by
  intro r
  have hp : j.partn = 0 ∧ cmdBarsel j = 0 := by
    clear r; revert j; simp only [List.forall_mem_cons]; decide +kernel
  refine ⟨_, ⟨⟨rfl, rfl⟩, ?_, ?_, rfl, rfl, rfl, hp.2, fun e he => ?_, ?_, ?_, rfl, ?_⟩, rfl⟩
  · cases cu <;> rfl
  · cases cu <;> rfl
  · change e ∈ (partOf (ending cu r) j.partn).teams at he
    change teamThreads (ending cu r) j.partn e.1 ≠ []
    rw [hp.1] at he ⊢
    have h : e = (1, team) := by simpa [ending, acting, world, partOf, part, lookD, look] using he
    subst h; cases cu <;> exact List.cons_ne_nil _ _
  · unfold State.MemOk; cases cu <;> exact ⟨rfl, rfl⟩
  · change hwKey (ending cu r) j.partn d.ptr true false = _
    rw [hp.1, hd]; cases cu <;> rfl
  · cases cu <;> rfl

/-- A word of a FILL, one of a SCATTERADD, and an element of four bytes of an MSTORE that clears its block. -/
theorem witness_CopiesDeliver :
    (fillJob ∈ [fillJob, job 0 0 0 0x1300000400000001, job 0 0 0 0x0400000000000000] ∧ oneWord.ptr = at0 0x200 ∧ oneWord.kind = .word
      ∧ oneWord.elems = 1 ∧ 0x10 ≤ cmdOpcode fillJob ∧ cmdOpcode fillJob ≤ 0x14 ∧ fillJob.done = 0 ∧ fillJob.half = [])
      ∧ (let r := running (job 0 0 0 0x1300000400000001) [{ oneWord with kind := .addLanes .n64 }] none
         cmdOpcode r.job = 0x13 ∧ r.skip = false ∧ r.skipped = false ∧ wordPois (ending true r) (keySpad 0 0x200) = false)
      ∧ (let r := running (job 0 0 0 0x0400000000000000) [{ oneWord with kind := .bytes 0x0F, clear := [(0, 4)] }] none
         cmdOpcode r.job = 4 ∧ r.checked = false ∧ r.count = 0 ∧ wordPois (ending false r) (keySpad 0 0x200) = false
          ∧ (ending false r).threads.map (fun e => e.2.wait) = [.none]) := by decide +kernel

/-- A member of a collective of its team, and one of a replica group of two. -/
def member (rank jid : Nat) (key : CollKey) (go : Bool) (d : BitVec 128) : CollSlot :=
  { job := { job (at0 0) (at0 0x100) 0 0x1501000000000000 with jid := jid }, ci := 0, key := key, rank := rank, g := 2, contrib := [1, 2],
    joined := 900, proceeding := go, result := [], count := 2, links := [], digest := d, status := none }

def collAct (slots : List CollSlot) (a : Act) : State :=
  acting { world [(0, thr)] with clusters := [(0, { Cluster.reset with cu := { Cluster.reset.cu with slots := slots } })] } a

def teamKey : CollKey := { partn := 0, team := some 1, group := 0, cid := 3 }

def groupKey : CollKey := { partn := 0, team := none, group := 2, cid := 3 }

/-- A member elsewhere: as the one of rank 0 here, of rank r, of g members, fenced or not. -/
def elsewhere (r g : Nat) (fenced : Bool) : CollPeer := { collPeerOf (member 0 11 groupKey false 0) with rank := r, g := g, fenced := fenced }

theorem witness_CollectivesEnd :
    (let s := collAct [member 0 11 teamKey false 0, member 1 12 teamKey false 0] (.collProceed teamKey [])
     keysRise s.clusters = true ∧ Unhindered s ∧ teamKey.group < 16
      ∧ collMembers s teamKey = [(0, member 0 11 teamKey false 0), (0, member 1 12 teamKey false 0)]
      ∧ allSame ((collMembers s teamKey).map (fun m => collPeerOf m.2) ++ []) = true
      ∧ ∀ q, q < 2 → ∃ p ∈ (collMembers s teamKey).map (fun m => collPeerOf m.2) ++ [], p.rank = q)
      ∧ (let all := [collPeerOf (member 0 11 groupKey false 0), elsewhere 1 2 false]
         allSame all = true ∧ ∀ q, q < 2 → ∃ p ∈ all, p.rank = q)
      ∧ allSame [collPeerOf (member 0 11 groupKey false 0), elsewhere 1 3 false] = false ∧ (elsewhere 1 2 true).fenced = true
      ∧ (let s := collAct [member 0 11 groupKey false 0] (.memberTimeout 0 11)
         (clusterAt s 0).cu.slots.find? (fun y => decide (y.job.jid = 11)) = some (member 0 11 groupKey false 0)
          ∧ cmdBarsel (member 0 11 groupKey false 0).job = 0 ∧ (clusterAt s 0).cu.run = none
          ∧ ∀ x ∈ (clusterAt s 0).cu.slots, x.job.jid ≠ 40)
      ∧ collMembers (collAct [member 0 11 groupKey true 5] (.digestDecision groupKey [(1, some 5)])) groupKey
          = [(0, member 0 11 groupKey true 5)]
      ∧ collMembers (collAct [member 0 11 groupKey true 5] (.digestDecision groupKey [(1, some 6)])) groupKey
          = [(0, member 0 11 groupKey true 5)]
      ∧ (∀ q, q < 2 → q ≠ 0 → look [(1, some (5 : BitVec 128))] q = some (some 5))
      ∧ (∀ q, q < 2 → q ≠ 0 → look [(1, some (6 : BitVec 128))] q = some (some 6))
      ∧ 2 * ((List.range 2).filter fun i => decide ((if i = 0 then (5 : BitVec 128) else 6) = 5)).length ≤ 2 := by
  refine ⟨⟨by decide +kernel, by decide +kernel, by decide +kernel, by decide +kernel, by decide +kernel, by decide +kernel⟩,
    ⟨by decide +kernel, by decide +kernel⟩, by decide +kernel, by decide +kernel,
    ⟨by decide +kernel, by decide +kernel, by decide +kernel, fun x hx => ?_⟩, by decide +kernel, by decide +kernel, by decide +kernel,
    by decide +kernel, by decide +kernel⟩
  have h : x = member 0 11 groupKey false 0 := by simpa [collAct, acting, world, clusterAt, lookD, look] using hx
  subst h; decide +kernel

/-- A member of a replica group of two in its slot, with one word of i32 lanes, and what the other member tells. -/
def collJob (op : Nat) : Job := job (at0 0) (at0 0x3000) (BitVec.ofNat 64 (3 + 2 * 2 ^ 32 + 2 * 2 ^ 56 + op * 2 ^ 60)) 0x1500000000000002

def collSlot (op : Nat) (vals : List Word) : CollSlot :=
  { member 0 11 groupKey false 0 with job := { collJob op with jid := 11 }, contrib := vals }

def collPeer1 (op : Nat) (vals : List Word) : CollPeer := { collPeerOf (collSlot op vals) with rank := 1 }

def collState (op : Nat) (mine other : List Word) : State := collAct [collSlot op mine] (.collProceed groupKey [collPeer1 op other])

/-- R336: by hand, the results of allreduce (sum of lanes), reduce-scatter, allgather and broadcast. -/
theorem test_coll_results :
    ∀ x ∈ [(0, [(0x100000002 : Word)], [(0x300000004 : Word)], [(0x400000006 : Word)]),
           (1, [0x100000002, 9], [0x300000004, 8], [0x400000006]),
           (2, [0x100000002], [0x300000004], [0x100000002, 0x300000004]),
           (3, [0x100000002], [], [0x100000002])],
      let t := after .collProceed (collState x.1 x.2.1 x.2.2.1)
      (List.range x.2.2.2.length).map (fun i => wordAt t (keySpad 0 (0x3000 + 8 * i))) = x.2.2.2 := by decide +kernel

theorem witness_CollectiveResult :
    ∀ x ∈ [(0, [(0x100000002 : Word)], [(0x300000004 : Word)], 1), (1, [0x100000002, 9], [0x300000004, 8], 1),
           (2, [0x100000002], [0x300000004], 2), (3, [0x100000002], [], 1)],
      let s := collState x.1 x.2.1 x.2.2.1
      let y := collSlot x.1 x.2.1
      let ps := collPeerOf y :: [collPeer1 x.1 x.2.2.1]
      Acting s (.collProceed groupKey [collPeer1 x.1 x.2.2.1]) ∧ keysRise s.clusters = true ∧ groupKey.group < 16 ∧ groupKey.team = none
        ∧ Unhindered s ∧ s.MemOk ∧ y.job.partn = groupKey.partn ∧ y.rank < y.g ∧ lookD (clusterAt s 0).cu.regs y.ci [] = []
        ∧ collMembers s groupKey = [(0, y)] ∧ y.proceeding = false ∧ ps.map (·.fenced) = [false, false] ∧ allSame ps = true
        ∧ ps.map (fun p => (p.rank, p.vals)) = [(0, x.2.1), (1, x.2.2.1)] ∧ (collOf y.job).op = x.1 ∧ ewidth (collOf y.job).et = 32
        ∧ (collOf y.job).n = 2 ∧ (collOf y.job).root = 0 ∧ y.g = 2 ∧ y.job.w1.toNat % 2 ^ 46 + 8 * 2 ≤ 2 ^ 46
        ∧ ∀ i < 2, spadKey s y.job.partn (offBy y.job.w1 (8 * i)) = some (keySpad 0 (0x3000 + 8 * i))
            ∧ waitersAt s (keySpad 0 (0x3000 + 8 * i)) = [] := by
  unfold State.MemOk; decide +kernel

/-- A thread that a fault has stopped. -/
def stopped : Thread := { thr with stopped := true, fr := { cause := 0x300000109, addr := 0, pc := at0 0x8000, info := 0, tsc := 9 } }

/-- Thread-control actions on slot 0 of tile 0: for a thread that runs, one that is stopped with and without a handler,
and a TID that the slot does not hold. -/
theorem witness_ThreadControl :
    (Named (acting (world [(0, stopped)]) (.resume 0 0 (tidOf thr))) 0 0 (tidOf thr) 0 stopped ∧ stopped.stopped = true
        ∧ stopped.tvec ≠ 0 ∧ stopped.inHandler = false)
      ∧ (Named (acting (world [(0, thr)]) (.deliver 0 0 (tidOf thr))) 0 0 (tidOf thr) 0 thr ∧ thr.stopped = false)
      ∧ (let s := acting (world [(0, rthr)]) (.terminate 0 0 (tidOf thr))
         Named s 0 0 (tidOf thr) 0 rthr ∧ Unhindered s ∧ ∃ f ∈ rthr.flights, f.rx = true ∧ f.done = false)
      ∧ (∀ f ∈ thr.flights, f.rx = false ∨ f.done = true)
      ∧ (let th := { thr with stand := .vacated, slot := 2 }
         Named (acting (world [(0, th)]) (.resume 0 0 (tidOf thr))) 0 0 (tidOf thr) 0 th)
      ∧ NoneNamed (acting (world []) (.terminate 0 0 5)) 0 0 5 ∧ controlRow .vacate = some Act.vacate := by
  refine ⟨⟨⟨by decide +kernel, by decide +kernel, .inl (by decide +kernel)⟩, by decide +kernel⟩,
    ⟨⟨by decide +kernel, by decide +kernel, .inl (by decide +kernel)⟩, by decide +kernel⟩,
    ⟨⟨by decide +kernel, by decide +kernel, .inl (by decide +kernel)⟩, by decide +kernel, by decide +kernel⟩, by decide +kernel,
    ⟨by decide +kernel, by decide +kernel, .inr ⟨by decide +kernel, by decide +kernel, by decide +kernel, by decide +kernel, fun v x h => ?_, fun e he => ?_⟩⟩,
    ⟨fun v x h => ?_, fun e he => ?_⟩, rfl⟩
  · rw [show occupant _ 0 0 = none from by decide +kernel] at h; cases h
  · intros; simpa [acting, world] using he
  · rw [show occupant _ 0 0 = none from by decide +kernel] at h; cases h
  · cases he

/-- A core with a save area and n entries in its context cache, none of them written. -/
def caching (th : Thread) (n : Nat) (a : Act) : State :=
  acting (modTile (world [(0, th)]) 0 fun t =>
    { t with csav := at0 0x40000, cache := (List.range n).map fun k => { uid := k + 50, written := false, kept := false } }) a

def away : Thread := { thr with stand := .vacated }

theorem witness_ContextCache :
    (let s := caching thr 0 (.vacate 0 0 (tidOf thr))
     AtSlot s 0 0 0 thr ∧ (tileOf s 0).csav ≠ 0 ∧ thr.stand ≠ .vacated ∧ cacheRoom (tileOf s 0) 1 = true ∧ mateOf s 0 = none)
      ∧ (let s := caching thr 8 (.vacate 0 0 (tidOf thr)); AtSlot s 0 0 0 thr ∧ cacheRoom (tileOf s 0) (together s 0).length = false)
      ∧ (AtSlot (acting (world [(0, thr)]) (.vacate 0 0 (tidOf thr))) 0 0 0 thr ∧ (tileOf (world [(0, thr)]) 0).csav = 0)
      ∧ (let s := caching away 0 (.restore 0 0 (tidOf thr))
         AtSlot s 0 0 0 away ∧ away.stand = .vacated ∧ away.displaced = none ∧ mateOf s 0 = none ∧ 0 ∉ (tileOf s 0).disabled ∧ Unhindered s)
      ∧ (let th := { away with slot := 3 }
         let s := acting (modTile (world [(0, th)]) 0 fun t => { t with disabled := [3] }) (.restore 0 3 (tidOf th))
         AtSlot s 0 3 0 th ∧ th.stand = .vacated ∧ th.displaced = none ∧ mateOf s 0 = none ∧ 3 ∈ (tileOf s 0).disabled) := by
  unfold AtSlot; decide +kernel

/-- A core whose slot 15 is disabled, with a thread in slot 14 that can leave, or that cannot, for want of a save area. -/
def hotCore (csav : Word) (a : Act) : State :=
  acting (modTile (world [(0, { thr with slot := 14 })]) 0 fun t => { t with disabled := [15], csav := csav }) a

theorem witness_ThermalSlots :
    (let s := hotCore (at0 0x40000) (.slotDisable 0)
     keysRise s.threads = true ∧ disableNext s 0 = some [14] ∧ [14].all (canLeave s 0) = true ∧ atSlot s 0 14 = some 0
      ∧ 14 ∉ (tileOf s 0).disabled ∧ (∀ n < 16, 14 < n → n ∈ (tileOf s 0).disabled))
      ∧ [14].all (canLeave (hotCore 0 (.slotDisable 0)) 0) = false
      ∧ disableNext (modTile (world []) 0 fun t => { t with disabled := (List.range 16).drop 1 }) 0 = none
      ∧ (tileOf (hotCore 0 (.slotReenable 0)) 0).disabled = 15 :: [] ∧ Unhindered (hotCore 0 (.slotReenable 0)) ∧ (tileOf (world []) 0).disabled = []
      ∧ (([{ tile := 0, temp := 9, thresh := 8, hyst := 1 }, { tile := 5, temp := 0, thresh := 8, hyst := 1 }] : List Thermal).map (·.tile)).Nodup
      ∧ threadOf (acting (world [(0, thr)]) (.parityReplay 0)) 0 = some thr := by decide +kernel

/-- The team with fields of its own, and a saved image of it. -/
def teamed (th : Thread) (f : Team → Team) (a : Act) : State :=
  acting (withPart (world [(0, th)]) fun p => { p with teams := [(1, f team)] }) a

def image : Image := { partn := 0, serial := 7, team := team, slot := 0, order := 0, tsc := 0, threads := [], cores := [], ranges := [] }

theorem witness_PreemptionRequests :
    teamOf (acting (world [(0, thr)]) (.save 0 9)) 0 9 = none ∧ teamOf (teamed thr id (.save 0 1)) 0 1 = some team ∧ team.started = true
      ∧ team.req = none ∧ (teamOf (teamed thr (fun t => { t with started := false }) (.teamTerminate 0 1)) 0 1).map (·.started) = some false
      ∧ (teamOf (withPart (world []) fun p => { p with teams := [(0, team)] }) 0 0).isSome = true
      ∧ (partOf (withPart (world []) fun p => { p with ptmo := 100 }) 0).ptmo ≠ 0
      ∧ (partOf (world []) 0).saved = [] ∧ (partOf (withPart (world []) fun p => { p with saved := [image] }) 0).saved = [image]
      ∧ image.serial = 7 ∧ teamOf (withPart (world []) fun p => { p with saved := [image] }) 0 7 = none
      ∧ (let s := teamed rthr id (.teamTerminate 0 1)
         Unhindered s ∧ keysRise s.threads = true ∧ teamThreads s 0 1 = [0] ∧ threadOf s 0 = some rthr ∧ RelaxedOut rthr)
      ∧ ¬ RelaxedOut thr := by
  unfold RelaxedOut; decide +kernel

/-- The team's one thread is parked at a safe point without a live range, and a save is asked for. -/
def savable : State :=
  teamed { thr with wait := .safept, table := some 0 } (fun t => { t with req := some .preq, reqAt := 400 }) (.teamSave 0 1)

/-- The partition has a pool of one slot. -/
def pooled : State := withPart savable fun p => { p with tspn := 1, tspb := at0 0x50000, tsps := 0x100000 }

theorem witness_TeamSaves :
    (let s := teamed thr (fun t => { t with slice := 3, sliceEnd := 444 }) (.sliceExpiry 0 1 444)
     keysRise s.threads = true ∧ (teamOf s 0 1).map (fun t => (t.sliceEnd, t.req, t.slice)) = some (444, none, 3) ∧ headWaits s 0 1 3 = false)
      ∧ (let s := modQueue (teamed thr (fun t => { t with slice := 3, sliceEnd := 444 }) (.sliceExpiry 0 1 444)) 0 3 fun q =>
           { q with
             lqb := at0 0x40000, lqn := 4, lqt := 1, resident := true, en := true, prio := 3,
             head := some [at0 0x8000, 7, 0, 0x2000000000000000], tried := true }
         headWaits s 0 1 3 = true)
      ∧ (let s := teamed thr (fun t => { t with slice := 3, sliceEnd := 444, req := some .preq }) (.sliceExpiry 0 1 444)
         (teamOf s 0 1).map (fun t => (t.sliceEnd, t.req)) = some (444, some .preq))
      ∧ (let s := teamed thr (fun t => { t with req := some .preq, reqAt := 400 }) (.preemptionTimeout 0 1 400)
         (teamOf s 0 1).map (fun t => (t.req.isSome, t.reqAt)) = some (true, 400) ∧ teamCounted s 0 1 = false)
      ∧ (teamCounted savable 0 1 = true ∧ copyHolds savable 0 1 = false)
      ∧ (keysRise savable.threads = true ∧ saveReady savable 0 1 = true ∧ badTables (tablesRead savable 0 1) (teamThreads savable 0 1) = [] ∧ Unhindered savable
          ∧ (∀ u ∈ teamThreads savable 0 1, ∀ th, threadOf savable u = some th → th.tile ∈ teamTiles savable 0 1 ∧ th.slot < 16)
          ∧ poolSlot (partOf (stopTeam (tablesRead savable 0 1) 0 1) 0) = none)
      ∧ (let s1 := stopTeam (tablesRead pooled 0 1) 0 1
         saveReady pooled 0 1 = true ∧ badTables (tablesRead pooled 0 1) (teamThreads pooled 0 1) = [] ∧ Unhindered pooled ∧ poolSlot (partOf s1 0) = some 0
          ∧ (teamOf pooled 0 1).map (fun tm => decide (8 * (imageWords s1 (makeImage s1 0 1 tm 0)).length ≤ (partOf s1 0).tsps)) = some true
          ∧ (partOf s1 0).tspb ≠ 0) := by
  refine ⟨by decide +kernel, by decide +kernel, by decide +kernel, by decide +kernel, by decide +kernel, ⟨by decide +kernel, by decide +kernel,
    by decide +kernel, by decide +kernel, ?_, by decide +kernel⟩, by decide +kernel⟩
  intro u hu th hth
  have h : u = 0 := by simpa [show teamThreads savable 0 1 = [0] from by decide +kernel] using hu
  subst h
  have e : th = { thr with wait := .safept, table := some 0 } := by
    have h2 : threadOf savable 0 = some { thr with wait := .safept, table := some 0 } := by decide +kernel
    rw [h2] at hth; exact (Option.some.inj hth).symm
  subst e; decide +kernel

/-- A state with a second partition as given, and an act. -/
def second (p : Partition) (a : Act) : State := acting { world [(0, thr)] with parts := [(0, part), (1, p)] } a

/-- A creation block: a frame of 4 by 4 at (ox, 4) with channel 9. -/
def block (ox : Nat) (conf key : Bool) : Partition := { Partition.reset with
  pfrm := BitVec.ofNat 64 (ox + 4 * 256 + 4 * 65536 + 4 * 2 ^ 24 + 2 ^ 32), pchl := [(0, 9)], psup := [(3, 0x2004000000000000)], pconf := conf,
  pkey := key }

theorem witness_PartitionsMade :
    (partOf (acting (world []) (.create 0)) 0).pstate ≠ 0
      ∧ ((block 62 false false).pstate = 0 ∧ blockBroken (second (block 62 false false) (.create 1)) 1 = true)
      ∧ (blockBroken (second (block 4 false false) (.create 1)) 1 = false ∧ blockOverlaps (second (block 4 false false) (.create 1)) 1 = true)
      ∧ (blockBroken (second (block 32 true false) (.create 1)) 1 = false ∧ blockOverlaps (second (block 32 true false) (.create 1)) 1 = false)
      ∧ (blockBroken (second (block 32 false false) (.create 1)) 1 = false ∧ blockOverlaps (second (block 32 false false) (.create 1)) 1 = false)
      ∧ ((partOf (acting (world []) (.delete 0)) 0).teams ≠ [])
      ∧ (let p := partOf (second { block 32 false false with pstate := 2 } (.delete 1)) 1; p.teams = [] ∧ p.saved = [] ∧ p.pstate = 2) := by
  decide +kernel

/-- Queue 3 of the partition as given. -/
def queued (q : Queue) (a : Act) : State := acting (modQueue (world [(0, thr)]) 0 3 fun _ => q) a

/-- A queue that is resident, whose head is being read. -/
def resq : Queue := { Queue.reset with lqb := at0 0x40000, lqn := 4, lqt := 2, resident := true, en := true, reading := true, lqsv := at0 0x50000 }

theorem witness_LaunchQueues :
    (queueAt (queued resq (.tailWrite 0 3 5)) 0 3).resident = true ∧ (queueAt (queued resq (.switchOut 0 3)) 0 3).lqsv ≠ 0
      ∧ (queueAt (queued resq (.switchIn 0 3)) 0 3).resident = true
      ∧ (queueAt (queued { resq with resident := false, lqsv := 0 } (.switchOut 0 3)) 0 3).resident = false
      ∧ (queueAt (after .switchIn (queued { resq with resident := false } (.switchIn 0 3))) 0 3).resident = true
      ∧ (queueAt (queued resq (.headRead 0 3 0)) 0 3).reading = true ∧ (queueAt (queued resq (.headRead 0 3 0)) 0 3).lqp = 0
      ∧ (queueAt (queued resq (.headRead 0 3 9)) 0 3).lqp ≠ 9
      ∧ (queueAt (after .headRead (queued resq (.headRead 0 3 0))) 0 3).head.isSome = true
      ∧ (partOf (acting (withPart (world []) fun p => { p with devq := [mfmtJob] }) (.launch mfmtJob)) mfmtJob.partn).devq = [mfmtJob] := by
  decide +kernel

/-- `RowsComplete`: a state for each of its parts that the witnesses around it do not give. -/
theorem witness_RowsComplete :
    (let th := { thr with inHandler := true }; Ready (unit th) cur th Need.none ∧ th.inHandler = true)
      ∧ (let s := acting (withPart (world []) fun p => { p with devq := [mfmtJob] }) (.launch mfmtJob)
         (partOf s mfmtJob.partn).devq = mfmtJob :: [])
      ∧ (let s := fun a => teamed thr (fun t => { t with slice := 3, sliceEnd := 444, req := some .preq, reqAt := 400 }) a
         ∀ a ∈ [Act.save 0 1, .teamTerminate 0 1, .sliceExpiry 0 1 444, .preemptionTimeout 0 1 400],
           Acting (s a) a ∧ Unhindered (s a) ∧ (teamOf (s a) 0 1).map (fun t => (t.started, t.slice, t.sliceEnd, t.reqAt)) = some (true, 3, 444, 400)
             ∧ keysRise (s a).threads = true ∧ teamCounted (s a) 0 1 = false)
      ∧ (let s := acting (withPart (world []) fun p => { p with saved := [{ image with serial := 7 }] }) (.discard 0 7)
         Unhindered s ∧ teamOf s 0 7 = none ∧ ∃ i ∈ (partOf s 0).saved, i.serial = 7)
      ∧ (let k := queueOf (partOf (queued resq (.switchOut 0 3)) 0) 3; k.resident = true ∧ k.lqsv ≠ 0 ∧ k.reading = true)
      ∧ (let s := queued { resq with resident := false } (.switchIn 0 3)
         let k := queueOf (partOf s 0) 3
         k.resident = false ∧ k.lqsv ≠ 0 ∧ residentCount s < 64 ∧ ∀ i < 6, (hwKey s 0 (offBy k.lqsv (8 * i)) false false).2 = .ok (keySpad 0 (0x50000 + 8 * i))
            ∧ (hwKey s 0 (offBy k.lqsv (8 * i)) false false).1 = s)
      ∧ (let s := queued resq (.headRead 0 3 0)
         ∀ i < 4, (hwKey s 0 (offBy (headPtr (queueOf (partOf s 0) 3)) (8 * i)) false false).2 = .ok (keySpad 0 (0x40000 + 8 * i))
            ∧ (hwKey s 0 (offBy (headPtr (queueOf (partOf s 0) 3)) (8 * i)) false false).1 = s)
      ∧ (let s := second (block 32 false false) (.create 1)
         (partOf s 1).pstate = 0 ∧ blockBroken s 1 = false ∧ blockOverlaps s 1 = false ∧ (partOf s 1).pconf = false)
      ∧ (let p := partOf (second { block 32 false false with pstate := 2 } (.delete 1)) 1; p.pstate = 2 ∧ p.teams = [] ∧ p.saved = []) := by
  unfold Ready Executing; (repeat' with_reducible apply And.intro) <;> decide +kernel

/-- A live partition of 4 by 4 whose supervisor team, of one core and one thread, is due. -/
def supPart : Partition := { Partition.reset with
  pstate := 2, frame := some { ox := 32, oy := 4, w := 4, h := 4, chans := [9], ptroot := 0, hwsz := 0, conf := false },
  psup := [(0, at0 0x8000), (1, 7), (3, 0x2004000000000000)], supDue := true }

def supScan (due : Bool) : State := acting { world [] with parts := [(1, { supPart with supDue := due })] } .scan

/-- Its placement, and the team it starts. -/
def place : Placement :=
  { partn := 1, serial := 0, ox := 0, oy := 0, w0 := at0 0x8000, w1 := 7, w2 := 0, w3 := 0x2004000000000000, queue := none, job := none,
    restore := false }

theorem witness_TeamsStart :
    ((∀ e ∈ (supScan false).parts, e.2.supDue = false ∧ e.2.saved = []) ∧ keysRise (supScan false).parts = true)
      ∧ (let s := supScan true
         let j := wordsJob 1 ((List.range 4).map fun i => lookD supPart.psup i 0)
         s.parts = [(1, supPart)] ∧ supPart.supDue = true ∧ supPart.teams = [] ∧ supPart.frame.isSome = true
          ∧ launchReject s (supPart.frame.getD frame) j false true = 0
          ∧ freeOrigin s 1 (supPart.frame.getD frame) (lW j) (lH j) (lT j) = some (0, 0))
      ∧ (∀ q, headAt (supScan true) 1 q = none)
      ∧ (let s := acting (after .scan (supScan true)) (.placement place)
         let j := wordsJob 1 [place.w0, place.w1, place.w2, place.w3]
         (teamOf s 1 0).map (fun t => t.src) = some .sup ∧ (frameOf s 1).isSome = true ∧ lW j = 1 ∧ lH j = 1 ∧ lT j = 1 ∧ lPair j = false) := by
  refine ⟨⟨fun e he => ?_, by decide +kernel⟩, by decide +kernel, fun q => ?_, by decide +kernel⟩
  · have h : e = (1, { supPart with supDue := false }) := by simpa [supScan, acting, world] using he
    subst h; decide
  · by_cases h : q = 16
    · subst h; decide +kernel
    · simp [headAt, h, supScan, acting, world, partOf, supPart, queueOf, Partition.reset, lookD, look, Queue.reset]

theorem witness_CalendTurns :
    (let s := acting { world [] with calend := 5 } .calendBoundary; s.calend < s.tsc / 64 ∧ (∀ b ∈ s.casts, s.tsc / 64 < b.calend)
      ∧ look s.parts 0 = some part)
      ∧ bits (0x1001 : Word) 0 12 ≠ 0 ∧ bits (BitVec.ofNat 64 (2 ^ 46)) 46 2 ≠ 0 ∧ bits (BitVec.ofNat 64 (7 * 2 ^ 48)) 48 3 = 7
      ∧ (let v : Word := BitVec.ofNat 64 (0x1000 + 15 * 2 ^ 48); bits v 0 12 = 0 ∧ bits v 46 2 = 0 ∧ bits v 52 12 = 0 ∧ bit v 51 = true) := by
  refine ⟨⟨by decide +kernel, fun b hb => absurd hb (by simp [acting, world, State.reset]), rfl⟩, by decide +kernel⟩

/-- Block 2 of tile 0 in a state, with RLDST at block 3 of tile (1, 0), and maybe a move under way. -/
def moving (st : BlockState) (m : Option Move) (a : Act) : State :=
  acting (modTile (world [(0, thr)]) 0 fun t =>
    { t with rldst := mkPtr 0 1 0 0x300, move := m, blocks := [(2, { Block.reset with st := st })] }) a

def move2 : Move := { partn := 0, since := 400, reason := 3, block := 2, dest := mkPtr 0 1 0 0x300, ack := none, latest := true, held := [], stalled := [] }

theorem witness_BlocksMove :
    (tileOf (moving .present (some move2) (.relocate 0 2)) 0).move.isSome = true ∧ (tileOf (moving .vacated none (.relocate 0 2)) 0).move = none
      ∧ (blockAt (moving .vacated none (.relocate 0 2)) 0 2).st ≠ .present
      ∧ (let s := moving .present none (.relocate 0 2)
         (blockAt s 0 2).st = .present ∧ partAt s 0 = some 0 ∧ destOk s 0 0 2 (tileOf s 0).rldst = true)
      ∧ destOk (moving .present none (.relocate 0 2)) 0 0 2 (mkPtr 0 0 0 0x200) = false
      ∧ (blockAt (moving .forwarded none (.retireStub 0 2)) 0 2).st = .forwarded ∧ (blockAt (moving .vacated none (.reinstate 0 2)) 0 2).st = .vacated
      ∧ (let s := moving .present (some move2) (.moveCompletion 0)
         (tileOf s 0).move = some move2 ∧ mapAt s move2.partn move2.since = some frame ∧ tileAt frame (pX move2.dest) (pY move2.dest) = 1 ∧ move2.held = []
          ∧ (tileOf s 0).waiters = [] ∧ (tileOf s 0).moves = [] ∧ (tileOf s 1).waiters = [] ∧ (partOf s 0).rlgb = 0
          ∧ pOff move2.dest < 2 ^ 20 ∧ s.MemOk ∧ (blockAt s 0 3).st = .present) := by unfold State.MemOk; decide +kernel

/-- A tier-one device with a copy under way. -/
def copying (c : Option Sparing) (a : Act) : State := acting (modPort (world [(0, thr)]) 3 fun p => { p with copying := c }) a

def spare2 : Sparing := { bank := 1, row := 77, spare := 0 }

theorem witness_ErrorsHandled :
    (let s := acting (modTile (moving .present (some move2) (.correctedError 0 0)) 0 fun t => { t with corr := [(0, (4, 5))] }) (.correctedError 0 0)
     min ((corrOf (tileOf s 0) 0).1 + 1) 0xFFFFFFFF = (corrOf (tileOf s 0) 0).2 ∧ (tileOf s 0).move.isSome = true)
      ∧ min ((corrOf (tileOf (world []) 0) 0).1 + 1) 0xFFFFFFFF ≠ (corrOf (tileOf (world []) 0) 0).2
      ∧ threadOf (acting (world [(0, thr)]) (.uncorrectableError (.scalar 0 7))) 0 = some thr
      ∧ (portOf (copying none (.rowSparing 3 1 77)) 3).copying = none ∧ freeSpare (portOf (copying none (.rowSparing 3 1 77)) 3) 1 = some 0
      ∧ lookD (portOf (copying none (.rowSparing 3 1 77)) 3).rowErrs (rowErrKey 1 77) 0 + 1 ≠ 4
      ∧ (let s := fun c => modPort (copying c (.rowSparing 3 1 77)) 3 fun p => { p with rowErrs := [(rowErrKey 1 77, 3)] }
         lookD (portOf (s none) 3).rowErrs (rowErrKey 1 77) 0 + 1 = 4 ∧ (portOf (s none) 3).copying = none
          ∧ lookD (portOf (s (some spare2)) 3).rowErrs (rowErrKey 1 77) 0 + 1 = 4 ∧ (portOf (s (some spare2)) 3).copying.isSome = true)
      ∧ (portOf (copying (some spare2) (.spareSwitch 3)) 3).copying = some spare2 ∧ (portOf (copying (some spare2) (.spareSwitch 3)) 3).toSpare = []
      ∧ (let q := { portOf (copying (some spare2) (.spareRowError 3)) 3 with badSpares := [(1, 0)] }
         freeSpare q 1 = some 1 ∧ freeSpare { q with badSpares := (List.range 32).map fun k => (1, k) } 1 = none ∧ q.toSpare = []) := by
  decide +kernel

/-- Rectangle 0 of the partition, tile (1, 0), is fenced. -/
def contained (teams : AMap Team) (a : Act) : State :=
  acting (withPart (world []) fun p =>
    { p with teams := teams, rects := [(0, { x := 1, y := 0, w := 1, h := 1, valid := true, fenced := true, resets := 0 })] }) a

theorem witness_Containment :
    let s := contained [] (.containmentReset 0 0)
    (rectOf (partOf s 0) 0).fenced = true ∧ rectTiles s 0 (rectOf (partOf s 0) 0) = [1] ∧ s.tiles.all (fun e => e.2.arrivals.isEmpty) = true
      ∧ Unhindered s ∧ (partOf s 0).teams = [] ∧ s.clusters = [] ∧ (tileOf s 1).waiters = [] ∧ (tileOf s 1).move = none
      ∧ (let s := { contained [(1, team)] (.containmentReset 0 0) with threads := [(0, rthr), (1, { thr with tile := 1 })] }
         (rectOf (partOf s 0) 0).fenced = true ∧ keysRise s.threads = true ∧ Unhindered s ∧ (∀ e ∈ s.tiles, e.2.arrivals = [])
          ∧ (threadOf s 1).map (fun t => (t.partn, t.tile, t.serial)) = some (0, 1, 1)
          ∧ 0 ∈ teamThreads (after .containmentReset s) 0 1) := by decide +kernel

theorem witness_Checkpoints :
    (world []).ckState ≠ 1 ∧ (world []).ckState ≠ 3 ∧ (world []).MemOk ∧ (world []).ckPower = true
      ∧ inRetention 0 = false ∧ (world []).cipher = [] ∧ (∀ e ∈ (world []).agenda, inFlight e.act = false)
      ∧ (∃ e ∈ (after (.ldd 5 8 0 .plain) (unit thr)).agenda, inFlight e.act = true) ∧ InPlace (world []) ∧ (world []).ckState ≠ 2 ∧ (∀ e ∈ State.reset.parts, e.2.frame = none)
      ∧ { State.reset with ckState := 2 }.ckState = 2 ∧ inTierOne 0 = false := by
  refine ⟨by decide, by decide, by unfold State.MemOk; decide, rfl, by decide +kernel, rfl, by decide, by decide +kernel,
    by unfold InPlace; decide +kernel, by decide, fun e he => absurd he (by simp [State.reset]), rfl,
    by decide +kernel⟩

/-- What bring-up finds where nothing fails, and where a die has more than one bad column. -/
def sound : BringUpIn :=
  { signature := true, rollback := true, training := true, bad := [some 3, some 32],
    links := [{ link := 1, width := 4, rev := true, partner := 77 }] }

theorem witness_StartUp :
    (∀ b ∈ sound.bad, b ≠ none) ∧ (∃ b ∈ ({ sound with bad := [none] } : BringUpIn).bad, b = none) ∧ ({ sound with signature := false }).signature = false
      ∧ ({ sound with rollback := false }).rollback = false ∧ ({ sound with training := false }).training = false
      ∧ (sound.links.map (·.link)).Nodup ∧ (∀ l ∈ sound.links, l.link ≠ 2)
      ∧ ({ State.reset with fwPending := some { signed := true, security := 0, version := 5 } }).fwPending.isSome = true
      ∧ (∀ box ∈ [[], (List.range 195).map fun k => (k, (0 : Word))],
          (partOf (withPart (world []) fun p => { p with keybox := box }) 0).keybox = box)
      ∧ (ins ([] : AMap Word) 195 9).length < 196 ∧ 196 ≤ (ins ((List.range 195).map fun k => (k, (0 : Word))) 195 9).length := by
  decide +kernel

/-- Link 1 in a state. -/
def linked (k : Link) (a : Act) : State := acting (modLink (world [(0, thr)]) 1 fun _ => k) a

theorem witness_LinksAndHost :
    (linkOf (linked { Link.reset with failed := 6 } (.flitReplay 1 true)) 1).failed < 7
      ∧ 7 ≤ (linkOf (linked { Link.reset with failed := 7 } (.flitReplay 1 true)) 1).failed
      ∧ (let s := acting (world []) (.peerRequest { link := 1, partn := 0, ptr := at0 0x100, write := some 9, add := none })
         (hwKey s 0 (at0 0x100) true false).2 = .ok k100 ∧ waitersAt s k100 = [] ∧ s.MemOk ∧ wordPois s k100 = false)
      ∧ (hwKey (world []) 0 (mkPtr 7 0 0 0) false false).2 = .bad 0x08 1 false ∧ pKind (mkPtr 0 0 0 0x100) = 0
      ∧ (hwKey (world []) 0 (at0 0x100) true false).1 = world [] ∧ binsHidden (world []) 0 0x100008 = false
      ∧ (let s := { world [] with parts := [(0, { part with frame := some { frame with conf := true } })], hists := [(0, { Hist.reset with hsel := 0 })] }
         frameOf s (histOf s 0).hsel = some { frame with conf := true })
      ∧ (histOf { world [] with hists := [(0, { Hist.reset with conf := true })] } 0).conf = true
      ∧ Unhindered (world [])
      ∧ (world []).bootFail = 0 ∧ (0x100008 : Nat) / 0x800000 ≤ 6 ∧ (0xFFFF8 : Nat) % 0x800000 < 0x100000
      ∧ { State.reset with bootFail := 3 }.bootFail ≠ 0 := by unfold State.MemOk; decide +kernel

/-- A thread held by the debug agent after a debug fault, and one that steps. -/
def heldThr : Thread := { thr with held := true, debugged := true }

def stepper : Thread := { thr with stepping := true, wait := .safept }

theorem witness_HoldAndStep :
    tidTeam (world []) 0 (9 * 2 ^ 24) = none ∧ withTid (world []) 0 5 = [] ∧ tidTeam (world [(0, thr)]) 0 (tidOf thr) = some 1
      ∧ teamOf (acting (world [(0, thr)]) (.hold 0 (tidOf thr))) 0 1 = some team
      ∧ withTid (acting (world [(0, heldThr)]) (.step 0 (tidOf thr))) 0 (tidOf thr) = [0]
      ∧ (threadsOf (world [(0, heldThr)]) [0]).all (·.held) = true
      ∧ (threadsOf (world [(0, heldThr)]) (teamThreads (world [(0, heldThr)]) 0 (tidSerial (tidOf thr)))).any (·.stepping) = false
      ∧ (threadsOf (world [(0, thr)]) [0]).all (·.held) = false
      ∧ threadOf (acting (world [(0, stepper)]) (.cancel 0 (tidOf thr))) 0 = some stepper ∧ stepper.stepping = true
      ∧ isParked (acting (world [(0, stepper)]) (.cancel 0 (tidOf thr))) 0 stepper = true
      ∧ isParked (acting (world [(0, thr)]) (.cancel 0 (tidOf thr))) 0 thr = false := by
  decide +kernel

theorem witness_DebugWrites :
    entryOk 0 0xC000000000000000 = false ∧ entryOk 0 1 = true ∧ entryOk 1 (at0 0x8000) = true
      ∧ windowAt 0x80028 = some (0, .first 0x28) ∧ AtSlot (acting (world [(0, heldThr)]) (.debugWindowWrite 0 0x80028 9)) 0 0 0 heldThr
      ∧ heldThr.held = true ∧ thr.held = false ∧ thr.stopped = false ∧ (0x28 : Nat) = 8 * (5 : SReg).val
      ∧ (partOf (acting (world []) (.dump 0 (mkPtr 5 0 0 0x1000))) 0).pkey = false := by unfold AtSlot; decide +kernel

/-- A record of an old tick. -/
def oldRec : TraceRec := { partn := 0, tid := 1, kind := 0, pc := 0, arg := 0, tick := 0, src := 0 }

/-- Trigger 0 in state armed, with a start condition that is met at once. -/
def armed (w0 w1 : Word) (a : Act) : State :=
  acting (withPart (world [(0, thr)]) fun p => { p with trace := { p.trace with trigs := [(0, { Trigger.reset with w0 := w0, w1 := w1 })] } }) a

theorem witness_TraceActs :
    (bits (0x400 : Word) 10 54 ≠ 0 ∧ bits (0x7F : Word) 10 54 = 0 ∧ bit (0x7F : Word) 7 = false ∧ bit (0x80 : Word) 7 = true)
      ∧ (let s := armed 0x102 444 (.triggerTransition 0 0); (trigNext s (trigOf (partOf s 0) 0)).isSome = true)
      ∧ (histOf (acting (world []) (.solsticePulse 0)) 2).hsel ≠ 0 := by decide +kernel

/-- However long a record is on its way, it is due at some tick. -/
theorem witness_TraceRecordDue :
    let s := acting { world [] with records := [oldRec], tsc := 513 + Config.recordWay 0 } .traceRecordWrite
    recordDue s = some oldRec ∧ Unhindered s := by
  refine ⟨?_, by decide⟩
  simp [recordDue, recordHeld, oldestRecord, acting, oldRec, now]; omega

/-- Entries held for the host driver's queue and for a partition's, with rings of four entries that have room. -/
def posting : State :=
  withPart { world [(0, thr)] with hfqb := 0x4000, hfqn := 4, hostEnt := [heldEntry] } fun p =>
    { p with fqb := mkPtr 2 0 0 0x4000, fqn := 4, heldEnt := [heldEntry] }
where
  heldEntry : Entry := { cause := 0x109, tid := 1, addr := 0, pc := at0 0x8000, info := 0, tsc := 440, loc := 0, flags := 0, src := 0, tag := 0 }

theorem witness_QueueRegisters :
    (posting.hostEnt = [posting.heldEntry] ∧ posting.hostStuck = false ∧ hasRoom posting.hfqb posting.hfqn posting.hfqw posting.hfqr = true
      ∧ posting.heldEntry.tsc < posting.tsc ∧ earlierFault posting posting.heldEntry = false ∧ posting.MemOk ∧ posting.hfqb.toNat % 64 = 0)
    ∧ (let s := withPart posting fun p => { p with fqb := at0 0x4000 }
       let p := partOf s 0
       p.heldEnt = [posting.heldEntry] ∧ p.fqStuck = false ∧ Unhindered s ∧ hasRoom p.fqb p.fqn p.fqw p.fqr = true
        ∧ earlierFault s posting.heldEntry = false
        ∧ ∀ k < 8, (hwKey s 0 (offBy (fqSlot p) (8 * k)) true false).2 = .ok (keySpad 0 (0x4000 + 8 * k))
            ∧ (hwKey s 0 (offBy (fqSlot p) (8 * k)) true false).1 = s)
    ∧
    ringBaseOk (mkPtr 2 0 0 0x4040) 64 = true ∧ ringBaseOk (mkPtr 2 0 0 0x4020) 64 = false ∧ (partOf (world []) 0).heldEnt = []
      ∧ bits (at0 0x4040) 0 6 = 0 ∧ bits (at0 0x4020) 0 6 ≠ 0 ∧ (world []).hostEnt = []
      ∧ (let v : Word := 0x10001; bits v 4 12 = 0 ∧ bits v 0 4 = 1) ∧ (0x4078 : Nat) = 0x4000 + 8 * 15 := by
  unfold State.MemOk; decide +kernel

theorem witness_DecodeOfEncode : (Instr.ldd 5 6 (2 ^ 35 - 1) .relaxed).wf = true ∧ (Instr.prec 16 4096).wf = true := by decide

/-- `add s5, s1, s2` stands at the PC of a thread that may issue. -/
def fetching : State := { world [(0, { thr with readyAt := 1000 })] with mem := memPutWord [] (keySpad 0 0x8000) 0x04A11000 }

theorem witness_StepRunsUnit :
    (∃ th, th = { thr with readyAt := 1000 } ∧ agendaDue fetching false = none ∧ fetching.frozen = false ∧ polled fetching = none
        ∧ fetching.tsc / 64 ≤ fetching.calend ∧ quiet fetching = none ∧ arrivalDue fetching = none ∧ fetching.behind = none ∧ issueTile fetching = some 0 ∧ issueThread fetching 0 = some (0, th) ∧ th.late = []
        ∧ fetchMisses (markPc { fetching with issueFrom := 1 } th) th = [] ∧ breakHit (markPc { fetching with issueFrom := 1 } th) th th.pc = none
        ∧ limitsOf fetching 0 (at0 0x8000) = 0 ∧ wordPois fetching (keySpad 0 0x8000) = false ∧ (hwKey fetching 0 (at0 0x8000) false true).2 = .ok (keySpad 0 0x8000)
        ∧ BitVec.ofNat 32 (memRead fetching.mem (keySpad 0 0x8000) 4) = 0x04A11000)
      ∧ decodeUnit false [0x04A11000] = .unit (.add 5 1 2) 1 := by
  refine ⟨⟨_, rfl, ?_⟩, ?_⟩ <;> decide +kernel

/-- `UnitsRun`, `TimeGoesOn`, `StepKeepsMemory`, `StepKeepsOrder`: a unit in hand, and a step that is taken. -/
theorem witness_StepsAreTaken :
    Ordered fetching ∧ (Instr.ldd 5 8 0 .plain).wf = true ∧ Executing (unit thr) cur thr ∧ fetching.MemOk
      ∧ (match step fetching with | .next t => (threadOf t 0).map (fun x => sget x 5) | _ => none) = some 4 := by
  unfold Ordered Executing State.MemOk; decide +kernel

theorem witness_RegistersHold :
    Executing (unit { thr with sEmpty := 0x2 }) cur { thr with sEmpty := 0x2 } ∧ sEmptyAt { thr with sEmpty := 0x2 } 1 = true := by
  unfold Executing; decide +kernel

/-! ### Single acts -/

/-- R191, R197: a leap that arrives takes the lowest free slot and goes on at its next unit from the next cycle. -/
theorem test_leap_arrives :
    let t := threadAfter .leapArrival (acting (world [(0, flying)]) (.leapArrival (leapMsg 0)))
    (t.tile, t.slot, t.pc, t.readyAt) = (1, 0, at0 0x8004, 1001) := by decide +kernel

/-- R192, R200: a remote write fills the cleared register of a thread that accepts it, and is else counted as an orphan. -/
theorem test_rput_arrives :
    ((threadOf (after .rputArrival (acting (world [(0, putter), (1, taker)]) (.rputArrival rputMsg))) 1).map fun t => (sget t 5, sEmptyAt t 5))
        = some (7, false)
      ∧ (tileOf (after .rputArrival (acting (world [(0, putter)]) (.rputArrival rputMsg))) 1).orphan.count = 1 := by decide +kernel

/-- R126: a release flips the phase and ends the wait. -/
theorem test_rendezvous_release :
    let s := acting (world [(0, { thr with wait := .rvwait 0, rvArr := 1 })]) (.rendezvousRelease 0 1 0)
    (threadAfter .rendezvousRelease s).wait = .none ∧ (threadAfter .rendezvousRelease s).pc = at0 0x8004
      ∧ pointAt (after .rendezvousRelease s) thr 0 = { expected := 8, arrived := 0, phase := true, closed := false } := by decide +kernel

/-- R116: a push enters its job at the end of its queue and empties the job register. -/
theorem test_jpush_enters :
    let t := after (.jpush 5 8 1) (pushUnit fillWords)
    (queueJobs t thr 1).map (fun j => (j.w0, j.w1, j.enq)) = [(at0 0x200, 55, 1000)] ∧ sEmptyAt (threadAfter (.jpush 5 8 1) (pushUnit fillWords)) 5 = true
      ∧ (threadAfter (.jpush 5 8 1) (unit thr)).fr.cause = 0x15 := by decide +kernel

/-- R47, R321: the end of a FILL writes its word and sends OK with one element. -/
theorem test_fill_ends :
    let t := after .jobEnd (ending true (running fillJob [oneWord] none))
    wordAt t (keySpad 0 0x200) = 55 ∧ (t.agenda.map fun e => (e.cycle, match e.act with | .jobStatusWord _ w => w | _ => -1)) = [(1008, cuStatus 0 0 0 1)] := by
  decide +kernel

/-- R287, R292: MFMT sets the context; MZERO takes 8 cycles and one more for each 512 of 64 × 64 × 4 bytes. -/
theorem test_engine_settings :
    (ctxOf (after .mfmt (starting false mfmtJob (.mfmt 0 0))) 0 0).afmt = 10
      ∧ (engineRun (after .mzero (starting false (mzeroJob 0) (.mzero 0 0))) false 0).map (·.stop) = some 1040 := by decide +kernel

/-- R352, R363: an event goes to the thread that waits. -/
theorem test_event_dispatched :
    let s := acting (waiting 1) (.eventDispatch 1)
    ((threadOf (after .eventDispatch s) 1).map fun t => (sget t 10, t.lt.vck, t.pc)) = some (7, 7, at0 0x8004)
      ∧ (evuOf (after .eventDispatch s) 1).pending = [] := by decide +kernel

/-- R211: a move that is over leaves its block forwarded, and the destination present and lodged. -/
theorem test_move_completes :
    let t := after .moveCompletion (moving .present (some move2) (.moveCompletion 0))
    (blockAt t 0 2).st = .forwarded ∧ (blockAt t 1 3).lodged = true ∧ (tileOf t 0).move = none := by decide +kernel

/-- R146, R152: resume of a stopped thread, whose progress stays for a unit that can be restarted, such as `stn`, and not
for `nop`; and deliver. -/
theorem test_thread_control :
    let s := fun a => acting (world [(0, stopped)]) a
    let stn := fun a => { s a with mem := memPutWord [] (keySpad 0 0x8000) 0xC9DE1001 }
    (∀ x ∈ [(s, 0), (stn, 3)], ((threadAfter .resume (x.1 (.resume 0 0 (tidOf thr)))).stopped,
        (threadAfter .resume (x.1 (.resume 0 0 (tidOf thr)))).resume) = (false, x.2))
      ∧ (threadAfter .deliver (s (.deliver 0 0 (tidOf thr)))).pc = at0 0x9000 := by decide +kernel

/-- R378, R381: a scan places the supervisor team, and its placement starts the thread. -/
theorem test_supervisor_starts :
    let t := after .placement (acting (after .scan (supScan true)) (.placement place))
    t.threads.map (fun e => (e.2.pc, sget e.2 1, e.2.sup, e.2.readyAt)) = [(at0 0x8000, 7, true, 1001)] := by decide +kernel

/-- R415-R418: the reset of a fenced rectangle clears the scratchpad in it. -/
theorem test_containment_clears :
    let s := { contained [] (.containmentReset 0 0) with mem := memPutWord [] (keySpad 1 8) 5, empty := [keySpad 1 8] }
    wordAt (after .containmentReset s) (keySpad 1 8) = 0 ∧ wordFull (after .containmentReset s) (keySpad 1 8) = true := by decide +kernel

end Sys2Proof.Tests
end

/-! The system registers: what a write leaves in each (R71, R94), by mode and by who shares it (R34). -/

namespace Sys2Proof.Machine

open Sys2Proof.Claims

/-! ### Threads outside a redundant pair (R83-R85) -/

theorem mateOf_unpaired {s : State} {u : Nat} {th : Thread} (h : threadOf s u = some th) (hr : th.role = 0) :
    mateOf s u = none := by simp [mateOf, h, hr]

theorem gate_unpaired (s : State) (c : Cur) (th : Thread) (p : Present) (k : State → State) (hr : th.role = 0) :
    gate s c th p k = k s := by simp [gate, gateWith, hr]

theorem lvShare_unpaired {s : State} {c : Cur} {th : Thread} (own : State → List Word) (fin : List Word → State → State)
    (h : threadOf s c.uid = some th) (hr : th.role = 0) :
    lvShare s c th (fun s => (s, own s)) fin = fin (own s) s := by
  simp [lvShare, lvRoom, lvEnter, mateOf_unpaired h hr, hr]

/-! ### Fields of a word as masks -/

theorem bits_low (v : Word) (n : Nat) : bits v 0 n = v.toNat % 2 ^ n := by simp [bits]

theorem getLsbD_seven (j : Nat) : (7 : Word).getLsbD j = decide (j < 3) := Nat.testBit_two_pow_sub_one 3 j

/-- A word with its low three bits replaced by another's. -/
theorem setBits_low3 (w old : Word) : setBits w 0 3 (bits old 0 3) = (w &&& ~~~7) ||| (old &&& 7) := by
  have e : w.toNat - w.toNat % 8 + old.toNat % 8 = 2 ^ 3 * (w.toNat / 2 ^ 3) + old.toNat % 8 := by omega
  have lt : old.toNat % 8 < 2 ^ 3 := Nat.mod_lt _ (by decide)
  apply BitVec.eq_of_getLsbD_eq
  intro j hj
  simp only [setBits, bits_low, Nat.pow_zero, Nat.mul_one, Nat.reducePow, Nat.mod_mod, e, BitVec.getLsbD_ofNat,
    Nat.testBit_two_pow_mul_add _ lt, BitVec.getLsbD_or, BitVec.getLsbD_and, BitVec.getLsbD_not, hj, getLsbD_seven]
  by_cases h : j < 3
  · simp [h, BitVec.getLsbD, Nat.testBit_mod_two_pow old.toNat 3 j]
  · simp [h, BitVec.getLsbD, Nat.testBit_div_two_pow (n := 3), show j - 3 + 3 = j by omega]

theorem keepRnd_eq (old v : Word) :
    keepRnd old v = if 6 ≤ v.toNat % 8 then (v &&& ~~~7) ||| (old &&& 7) else v := by
  rw [keepRnd, setBits_low3, bits_low]
  rfl

/-- The low bits of a word, as a mask leaves them. -/
theorem ofN_bits_low (v m : Word) (n : Nat) (h : m.toNat = 2 ^ n - 1) : ofN (bits v 0 n) = v &&& m := by
  apply BitVec.eq_of_toNat_eq
  have : v.toNat % 2 ^ n ≤ v.toNat := Nat.mod_le _ _
  have := v.isLt
  rw [BitVec.toNat_and, h, Nat.and_two_pow_sub_one_eq_mod, bits_low, ofN, BitVec.toNat_ofNat, Nat.mod_eq_of_lt (by omega)]

/-- What a mask that keeps the low three bits leaves has the low three bits of the word. -/
theorem low3_of_and (w v : Word) (h : w &&& 7 = v &&& 7) : w.toNat % 8 = v.toNat % 8 := by
  have low (x : Word) : (x &&& 7).toNat = x.toNat % 8 := Nat.and_two_pow_sub_one_eq_mod x.toNat 3
  rw [← low, ← low, h]

/-! ### Writing a system register (R71, R94) -/

/-- A write of VCTL, by its mask (R235). -/
theorem vctlWrite_eq (old v : Word) :
    vctlWrite old v = if 6 ≤ v.toNat % 8 then (v &&& 0x1F8) ||| (old &&& 7) else v &&& 0x1FF := by
  have low : (v &&& 0x1FF#64) &&& 7 = v &&& 7 := BitVec.and_assoc v 0x1FF 7
  have high : (v &&& 0x1FF#64) &&& ~~~7 = v &&& 0x1F8 := BitVec.and_assoc v 0x1FF (~~~7)
  rw [vctlWrite, ofN_bits_low v 0x1FF#64 9 rfl, keepRnd_eq, low3_of_and _ v low, high]
  rfl

theorem and_or_and_mask (x y a b m : Word) :
    (x &&& a ||| y &&& b) &&& m = x &&& (a &&& m) ||| y &&& (b &&& m) := by
  rw [BitVec.and_comm, BitVec.and_or_distrib_left, BitVec.and_comm m, BitVec.and_comm m, BitVec.and_assoc, BitVec.and_assoc]

/-- A write of DCTL, by its masks (R94, R261). -/
theorem dctlWrite_eq (old v : Word) :
    dctlWrite old v = if 6 ≤ v.toNat % 8 then (v &&& 0x1F0018) ||| (old &&& 7) ||| (old &&& v &&& 0x1F00)
      else (v &&& 0x1F001F) ||| (old &&& v &&& 0x1F00) := by
  have low : (v &&& 0x1F001F#64 ||| (old &&& v &&& 0x1F00#64)) &&& 7 = v &&& 7 := by
    rw [and_or_and_mask, show (0x1F00#64 &&& 7 : Word) = 0 from rfl, show old &&& v &&& 0 = (0 : Word) from BitVec.and_zero]
    exact BitVec.or_zero
  have high : (v &&& 0x1F001F#64 ||| (old &&& v &&& 0x1F00#64)) &&& ~~~7 = v &&& 0x1F0018 ||| (old &&& v &&& 0x1F00) :=
    and_or_and_mask v (old &&& v) 0x1F001F#64 0x1F00#64 (~~~7)
  rw [dctlWrite, keepRnd_eq, low3_of_and _ v low, high, BitVec.or_assoc, BitVec.or_comm (old &&& v &&& 0x1F00), ← BitVec.or_assoc]
  rfl

/-- DMC as it is read back after a write: its three bits (R184). -/
theorem ofN_dmcOf_written (v : Word) (m : Meter) :
    ofN (dmcOf { m with cnt := bit v 0, trap := bit v 1, jobs := bit v 2 }) = v &&& 7 := by
  have field (i : Nat) : (if bit v i then 2 ^ i else 0) = v.toNat / 2 ^ i % 2 * 2 ^ i := by
    rcases Nat.mod_two_eq_zero_or_one (v.toNat / 2 ^ i) with h | h <;> simp [bit, bits, h]
  have h0 := field 0
  have h1 := field 1
  have h2 := field 2
  norm_num at h0 h1 h2
  rw [← ofN_bits_low v 7 3 rfl, bits_low, dmcOf, h0, h1, h2]
  congr 1
  omega

@[simp] theorem sysRead_unitOver (s : State) (p : Ptr) (r : Nat) (th : Thread) (k : Nat) :
    sysRead s (unitOver p r th) k = sysRead s th k := rfl

/-- A write of a register of the thread leaves what every other register number names. -/
theorem sysRead_threadWrite_of_ne (s : State) (th : Thread) (n k : Nat) (v : Word) (h : k ≠ n) :
    sysRead s (threadWrite n v th) k = sysRead s th k := by
  unfold threadWrite
  split
  case h_11 =>
    split
    · unfold sysRead; split <;> trivial
    · rfl
  all_goals (unfold sysRead; split <;> trivial)

/-- What a write leaves in the register it names (R71, R94). -/
theorem sysRead_threadWrite_self (s : State) (th : Thread) (n : Nat) (v : Word) :
    sysRead s (threadWrite n v th) n = sysAfter n (sysRead s th n) v := by
  unfold threadWrite
  split
  case h_9 => exact ofN_dmcOf_written v th.meter
  case h_10 => exact dctlWrite_eq th.dn.dctl v
  case h_11 =>
    have e : sysAfter 0x034 (sysRead s th 0x034) v
        = if 2 ≤ v.toNat % 2 ^ 7 ∧ v.toNat % 2 ^ 7 ≤ 65 then v &&& 127 else sysRead s th 0x034 := rfl
    rw [e, ← bits_low]
    split
    · exact ofN_bits_low v 127 7 rfl
    · rfl
  case h_12 => exact vctlWrite_eq th.vec.vctl v
  case h_16 => exact ofN_bits_low v 0xFFFFFFFF 32 rfl
  case h_17 => exact ofN_bits_low v 0xFF 8 rfl
  case h_18 => exact ofN_bits_low v 1 1 rfl
  case h_21 => unfold sysAfter; split <;> trivial
  all_goals rfl

theorem apart_time_agenda {s t : State} {c : Cur} (h : Apart s t c) :
    t.cycle = s.cycle ∧ t.tsc = s.tsc ∧ t.agenda = s.agenda := by
  obtain ⟨-, hs, -⟩ := h
  exact ⟨by rw [← hs], by rw [← hs], by rw [← hs]⟩

/-- A unit that works on its own thread alone leaves what every system register of it names, but for what it writes. -/
theorem sysRead_apart {s t : State} {c : Cur} (h : Apart s t c) (x : Thread) (k : Nat) : sysRead t x k = sysRead s x k := by
  obtain ⟨-, hs, -, htile, -⟩ := h
  have hparts : t.parts = s.parts := by rw [← hs]
  have htsc : t.tsc = s.tsc := by rw [← hs]
  have hcsav : (tileOf t x.tile).csav = (tileOf s x.tile).csav := by rw [← htile]
  have hdqsp : (tileOf t x.tile).dqsp = (tileOf s x.tile).dqsp := by rw [← htile]
  have hevsp : (tileOf t x.tile).evsp = (tileOf s x.tile).evsp := by rw [← htile]
  have hpart (p : Nat) : partOf t p = partOf s p := by rw [partOf, partOf, hparts]
  have hframe (p : Nat) : frameOf t p = frameOf s p := by simp only [frameOf, hpart]
  have hteam (p n : Nat) : teamOf t p n = teamOf s p n := by simp only [teamOf, hpart]
  simp only [sysRead, partRead, coreOf, teamReg, partReg, now, hpart, hframe, hteam, htsc, hcsav, hdqsp, hevsp]

/-- A write of a register of the thread changes no more of the thread than its system registers. -/
theorem threadWrite_frame (n : Nat) (v : Word) (th : Thread) :
    { threadWrite n v th with tvec := th.tvec, fr := th.fr, meter := th.meter, dn := th.dn, vec := th.vec, lt := th.lt,
                              racc := th.racc, syto := th.syto, rvto := th.rvto } = th := by
  unfold threadWrite
  split
  case h_11 => split <;> rfl
  all_goals rfl

theorem threadWrite_shared (n : Nat) (v : Word) (th : Thread) (h : n = 0x070 ∨ n = 0x071 ∨ 0x100 ≤ n) :
    threadWrite n v th = th := by
  unfold threadWrite
  split
  case h_21 => rfl
  all_goals omega

/-- A register that neither a partition nor a core shares has no act of its own (R71). -/
theorem sharedAct_own (u partn tile n : Nat) (v : Word) (h : ¬ (n = 0x070 ∨ n = 0x071 ∨ 0x100 ≤ n)) :
    sharedAct u partn tile n v = none := by
  unfold sharedAct
  split
  case h_14 => exact if_neg h
  all_goals exact absurd (by decide) h

/-! ### `mfs` and `mts` -/

theorem privileged_of_executing {s : State} {c : Cur} {th : Thread} (n : BitVec 12) (h : Executing s c th) :
    privileged s n = (!th.sup && decide (0x100 ≤ n.toNat)) := by
  obtain ⟨hc, ht, -⟩ := h
  simp [privileged, hc, ht]

theorem not_privileged {s : State} {c : Cur} {th : Thread} {n : BitVec 12} (h : Executing s c th)
    (hn : n.toNat < 0x100 ∨ th.sup = true) : privileged s n = false := by
  rw [privileged_of_executing n h]
  rcases hn with hn | hn <;> simp [hn]

/-- `mts` of a thread outside a pair: the register of the thread is written as the unit ends, and a shared register's act is
entered. -/
theorem execMts_ready {s : State} {c : Cur} {th : Thread} {r : SReg} {n : BitVec 12}
    (h : Ready s c th { Need.none with sr := [r] }) (hr : th.role = 0) (hn : n.toNat < 0x100 ∨ th.sup = true) :
    execMts r n s = .next
      (let t := retire s c 8 (threadWrite n.toNat (sget th r))
       (sharedAct c.uid th.partn th.tile n.toNat (sget th r)).elim t (schedAt t t.cycle)) := by
  rw [execMts, not_privileged h.1 hn, if_neg Bool.false_ne_true, unit_ready _ h]
  simp only [gate_unpaired _ _ _ _ _ hr, hr, if_neg (show ¬ (0 = 2) by decide)]
  cases sharedAct c.uid th.partn th.tile n.toNat (sget th r) <;> rfl

/-- `mts` of a register of the thread: written as the unit ends (R71, R94). -/
theorem mts_writes_own {s : State} {c : Cur} {th : Thread} {r : SReg} {n : BitVec 12}
    (h : Ready s c th { Need.none with sr := [r] }) (hr : th.role = 0) (hn : n.toNat < 0x100 ∨ th.sup = true)
    (hown : n.toNat < 0x070 ∨ n.toNat = 0x080) :
    ∃ t x, exec (.mts r n) s = .next t ∧ threadOf t c.uid = some x ∧ Over s c x c.npc 8
      ∧ (∀ k : Nat, k < 0x100 → sysRead t x k = if k = n.toNat then sysAfter k (sysRead s th k) (sget th r) else sysRead s th k)
      ∧ { endAs x th with tvec := th.tvec, fr := th.fr, meter := th.meter, dn := th.dn, vec := th.vec, lt := th.lt,
                          racc := th.racc, syto := th.syto, rvto := th.rvto } = th
      ∧ Apart s t c := by
  obtain ⟨hx, hapart⟩ := retireTo_spec s c th 8 c.npc (threadWrite n.toNat (sget th r)) h.1.2.1
  refine ⟨_, _, ?_, hx, ⟨rfl, rfl, rfl, rfl⟩, fun k _ => ?_, ?_, hapart⟩
  · show execMts r n s = _
    rw [execMts_ready h hr hn, sharedAct_own _ _ _ _ _ (by omega)]
    rfl
  · rw [sysRead_apart hapart, sysRead_unitOver]
    by_cases hk : k = n.toNat
    · rw [if_pos hk, hk, sysRead_threadWrite_self]
    · rw [if_neg hk, sysRead_threadWrite_of_ne _ _ _ _ _ hk]
  · calc _ = endAs { threadWrite n.toNat (sget th r) th with
                tvec := th.tvec, fr := th.fr, meter := th.meter, dn := th.dn, vec := th.vec, lt := th.lt,
                racc := th.racc, syto := th.syto, rvto := th.rvto } th := rfl
      _ = th := by rw [threadWrite_frame]; rfl

/-- `mts` of a register that a partition or a core shares: the thread keeps its own, and the register's act is entered. -/
theorem mts_enters_act {s : State} {c : Cur} {th : Thread} {r : SReg} {n : BitVec 12} {a : Act}
    (h : Ready s c th { Need.none with sr := [r] }) (hr : th.role = 0) (hn : n.toNat < 0x100 ∨ th.sup = true)
    (ha : sharedAct c.uid th.partn th.tile n.toNat (sget th r) = some a) :
    ∃ t x, exec (.mts r n) s = .next t ∧ threadOf t c.uid = some x ∧ Over s c x c.npc 8 ∧ endAs x th = th
      ∧ t.agenda = enterTimed s.agenda { cycle := s.cycle, late := false, age := s.tsc, src := 0, act := a }
      ∧ Apart s { t with agenda := s.agenda } c := by
  have hshared : n.toNat = 0x070 ∨ n.toNat = 0x071 ∨ 0x100 ≤ n.toNat := by
    by_contra hno
    rw [sharedAct_own _ _ _ _ _ hno] at ha
    exact absurd ha (Option.some_ne_none a).symm
  obtain ⟨hx, hapart⟩ := retireTo_spec s c th 8 c.npc (threadWrite n.toNat (sget th r)) h.1.2.1
  rw [threadWrite_shared _ _ _ hshared] at hx
  generalize ht : retireTo s c 8 c.npc (threadWrite n.toNat (sget th r)) = t at hx hapart
  obtain ⟨hcycle, htsc, hagenda⟩ := apart_time_agenda hapart
  refine ⟨schedAt t t.cycle a, _, ?_, hx, ⟨rfl, rfl, rfl, rfl⟩, endAs_unitOver _ _ _, ?_, ?_⟩
  · show execMts r n s = _
    rw [execMts_ready h hr hn, ha, retire_eq, ht]
    rfl
  · show enterTimed t.agenda { cycle := t.cycle, late := false, age := t.tsc, src := 0, act := a } = _
    rw [hagenda, hcycle, htsc]
  · have e : { schedAt t t.cycle a with agenda := s.agenda } = t := by rw [← hagenda]; rfl
    rw [e]
    exact hapart

/-- `mfs` reads what its register number names (R71). -/
theorem mfs_reads {s : State} {c : Cur} {th : Thread} {r : SReg} {n : BitVec 12}
    (h : Ready s c th { Need.none with sd := [r] }) (hr : th.role = 0) (hn : n.toNat < 0x100 ∨ th.sup = true) :
    ∃ t, exec (.mfs r n) s = .next t ∧ WritesScalar s c th r (sysRead s th n.toNat) c.npc 8 t := by
  have ht : threadOf s c.uid = some th := h.1.2.1
  refine ⟨retire s c 8 (sset r (sysRead s th n.toNat)), ?_, writesScalar_retireTo s c th 8 c.npc r _ ht⟩
  show execMfs r n s = _
  rw [execMfs, not_privileged h.1 hn, if_neg Bool.false_ne_true, unit_ready _ h,
    lvShare_unpaired (fun s => [sysRead s th n.toNat]) _ ht hr]
  rfl

/-- A register number of the supervisor in user mode: the privileged fault (R34). -/
theorem privileged_faults {s : State} {c : Cur} {th : Thread} {r : SReg} {n : BitVec 12} (h : Executing s c th)
    (hsup : th.sup = false) (hn : 0x100 ≤ n.toNat) (i : Instr) (hi : i ∈ [Instr.mfs r n, .mts r n]) :
    ∃ t, exec i s = .next t ∧ TakesUser s c th 0x04 0 0 t := by
  have hp : privileged s n = true := by simp [privileged_of_executing n h, hsup, hn]
  obtain ⟨hc, ht, he⟩ := h
  have hraise : raisePrivileged s = .next (raise s c 0x04 0 0 0) := by simp [raisePrivileged, withCur, hc, ht]
  refine ⟨raise s c 0x04 0 0 0, ?_, takesUser_raise s c th 0x04 0 0 0 ht he rfl⟩
  rcases List.mem_pair.mp hi with rfl | rfl
  · show execMfs r n s = _
    rw [execMfs, if_pos hp, hraise]
  · show execMts r n s = _
    rw [execMts, if_pos hp, hraise]

end Sys2Proof.Machine

/-- Settles O8: the registers of the thread by `sysRead_threadWrite_self` and `sysRead_threadWrite_of_ne`, the shared ones by
the act that `sharedAct` gives them, and user mode by the privileged fault. -/
theorem systemRegisters : Obligations.SystemRegisters := by
  unfold Obligations.SystemRegisters
  refine ⟨?_, ?_⟩
  · intro s c th r n hr hn
    exact ⟨fun h => Sys2Proof.Machine.mfs_reads h hr hn, fun h hown => Sys2Proof.Machine.mts_writes_own h hr hn hown⟩
  · exact ⟨fun s c th r n h hsup hn i hi => Sys2Proof.Machine.privileged_faults h hsup hn i hi,
      fun s c th r n a h hr hn ha => Sys2Proof.Machine.mts_enters_act h hr hn ha⟩

/-! ## Time goes on

What everything that happens within a cycle keeps of the state it began in, function by function in the order of the model,
and then what the passage to the next cycle keeps.

In a match on the result of a call, the kernel evaluates the call when it compares the match with anything else, down to the
arithmetic of 64-bit addresses. Where that is too deep, a proof puts a variable in the callee's place, of which it knows what
it keeps alone (`obtain ⟨engAt', …⟩ : ∃ g, g = Machine.engAt ∧ …`), and unfolds the function itself as an equation between
functions (`hb : body = fun …`), in which no such match is compared. -/

namespace Sys2Proof.Machine

/-- The maps of threads, tiles, partitions and clusters list rising keys. -/
def State.Rising (s : State) : Prop :=
  keysRise s.threads = true ∧ keysRise s.tiles = true ∧ keysRise s.parts = true ∧ keysRise s.clusters = true

/-- What everything that happens within a cycle keeps of the state it began in: the cycle and the time-stamp counter, and with
them the forms of the byte memories and of the maps, each where the state had it. -/
structure Keeps (s₀ s : State) : Prop where
  cycle : s.cycle = s₀.cycle
  tsc : s.tsc = s₀.tsc
  memOk : s₀.MemOk → s.MemOk
  rising : s₀.Rising → s.Rising

/-- `Keeps` of the state that an optional result holds. -/
def KeepsOpt (s₀ : State) (o : Option State) : Prop := ∀ t, o = some t → Keeps s₀ t

/-- `Keeps` of the state that a row's outcome passes on. -/
def KeepsOut (s₀ : State) (o : Host.Outcome State Fault Refusal) : Prop := ∀ t, o = .next t → Keeps s₀ t

theorem Keeps.refl (s : State) : Keeps s s := ⟨rfl, rfl, id, id⟩

theorem Keeps.trans {r s t : State} (h1 : Keeps r s) (h2 : Keeps s t) : Keeps r t :=
  ⟨h2.cycle.trans h1.cycle, h2.tsc.trans h1.tsc, fun h => h2.memOk (h1.memOk h), fun h => h2.rising (h1.rising h)⟩

section
variable {s₀ s : State}

theorem Keeps.of_fst {β : Type} {p : State × β} {y : β} (h : Keeps s₀ p.1) (e : p = (s, y)) : Keeps s₀ s := by
  subst e; exact h

theorem Keeps.some (h : Keeps s₀ s) : KeepsOpt s₀ (some s) := fun _ e => Option.some.inj e ▸ h
theorem KeepsOpt.none : KeepsOpt s₀ none := fun _ e => nomatch e
theorem Keeps.next (h : Keeps s₀ s) : KeepsOut s₀ (.next s) := fun _ e => Host.Outcome.next.inj e ▸ h
theorem KeepsOut.fault {f : Fault} : KeepsOut s₀ (.fault f) := fun _ e => nomatch e

/-- What else is changed does not matter. -/
theorem Keeps.also {slew : Int} {slewAt : Nat} {aligned : Bool} {issueFrom : Nat} {agenda : List Timed}
    {timers : List (Nat × Act)} {cur : Option Cur} {act : Option Act} {behind : Option Nat} {again : List Act}
    {fresh nextUid nextId : Nat} {ports : AMap Port} {empty poison : List Nat} {scanDue : Option Nat} {lastPlaced : AMap Nat}
    {hists : AMap Hist} {records : List TraceRec} {hfqb : Word} {hfqn hfqw hfqr hfqv : Nat} {hostStuck : Bool}
    {hostEnt : List Entry} {casts : List Broadcast} {substs : List (Nat × Nat)} {calend : Nat} {bad cipher ranking : AMap Nat}
    {ckReserve : Bool} {ckState : Nat} {ckPower : Bool} {ckts : Word} {frozen powerLost : Bool} {links : AMap Link}
    {bootStep bootFail : Nat} {recovery : Bool} {fwVersion fwMinSec : Nat} {fwPending : Option FwImage}
    {outbox : List OutMsg} (h : Keeps s₀ s) :
    Keeps s₀ { s with
      slew := slew, slewAt := slewAt, aligned := aligned, issueFrom := issueFrom, agenda := agenda, timers := timers, cur := cur,
      act := act, behind := behind, again := again, fresh := fresh, nextUid := nextUid, nextId := nextId, ports := ports,
      empty := empty, poison := poison, scanDue := scanDue, lastPlaced := lastPlaced, hists := hists, records := records,
      hfqb := hfqb, hfqn := hfqn, hfqw := hfqw, hfqr := hfqr, hfqv := hfqv, hostStuck := hostStuck, hostEnt := hostEnt,
      casts := casts, substs := substs, calend := calend, bad := bad, cipher := cipher, ranking := ranking,
      ckReserve := ckReserve, ckState := ckState, ckPower := ckPower, ckts := ckts, frozen := frozen, powerLost := powerLost,
      links := links, bootStep := bootStep, bootFail := bootFail, recovery := recovery, fwVersion := fwVersion,
      fwMinSec := fwMinSec, fwPending := fwPending, outbox := outbox } := ⟨h.cycle, h.tsc, h.memOk, h.rising⟩

/-! ### Changes of the maps and of the byte memories -/

theorem Keeps.withThreads {m : AMap Thread} (h : Keeps s₀ s) (hm : keysRise s.threads = true → keysRise m = true) :
    Keeps s₀ { s with threads := m } :=
  ⟨h.cycle, h.tsc, h.memOk, fun hr => have ⟨h1, h2, h3, h4⟩ := h.rising hr; ⟨hm h1, h2, h3, h4⟩⟩

theorem Keeps.withTiles {m : AMap Tile} (h : Keeps s₀ s) (hm : keysRise s.tiles = true → keysRise m = true) :
    Keeps s₀ { s with tiles := m } :=
  ⟨h.cycle, h.tsc, h.memOk, fun hr => have ⟨h1, h2, h3, h4⟩ := h.rising hr; ⟨h1, hm h2, h3, h4⟩⟩

theorem Keeps.withParts {m : AMap Partition} (h : Keeps s₀ s) (hm : keysRise s.parts = true → keysRise m = true) :
    Keeps s₀ { s with parts := m } :=
  ⟨h.cycle, h.tsc, h.memOk, fun hr => have ⟨h1, h2, h3, h4⟩ := h.rising hr; ⟨h1, h2, hm h3, h4⟩⟩

theorem Keeps.withClusters {m : AMap Cluster} (h : Keeps s₀ s) (hm : keysRise s.clusters = true → keysRise m = true) :
    Keeps s₀ { s with clusters := m } :=
  ⟨h.cycle, h.tsc, h.memOk, fun hr => have ⟨h1, h2, h3, h4⟩ := h.rising hr; ⟨h1, h2, h3, hm h4⟩⟩

theorem Keeps.withMem {m : List Host.Cell} (h : Keeps s₀ s) (hm : s.MemOk → Memory.wf m = true) :
    Keeps s₀ { s with mem := m } :=
  ⟨h.cycle, h.tsc, fun hr => ⟨hm (h.memOk hr), (h.memOk hr).2⟩, h.rising⟩

theorem Keeps.withAcc {m : List Host.Cell} (h : Keeps s₀ s) (hm : s.MemOk → Memory.wf m = true) :
    Keeps s₀ { s with acc := m } :=
  ⟨h.cycle, h.tsc, fun hr => ⟨(h.memOk hr).1, hm (h.memOk hr)⟩, h.rising⟩

/-! ### Maps with rising keys -/

theorem keysRise_cons_iff {α : Type} (j : Nat) (v : α) (m : AMap α) :
    keysRise ((j, v) :: m) = true ↔ (∀ e ∈ m, j < e.1) ∧ keysRise m = true := by
  induction m generalizing j v with
  | nil => simp [keysRise]
  | cons e t ih =>
    rcases e with ⟨i, w⟩
    simp only [keysRise, Bool.and_eq_true, decide_eq_true_eq, List.forall_mem_cons]
    constructor
    · rintro ⟨hji, ht⟩
      exact ⟨⟨hji, fun e he => Nat.lt_trans hji ((ih i w).mp ht |>.1 e he)⟩, ht⟩
    · rintro ⟨⟨hji, -⟩, ht⟩
      exact ⟨hji, ht⟩

/-- A map whose entries are changed under their keys. -/
theorem keysRise_map {α β : Type} (g : Nat × α → Nat × β) (hg : ∀ e, (g e).1 = e.1) (m : AMap α) (h : keysRise m = true) :
    keysRise (m.map g : AMap β) = true := by
  induction m with
  | nil => rfl
  | cons e t ih =>
    rcases e with ⟨j, v⟩
    obtain ⟨hj, ht⟩ := (keysRise_cons_iff j v t).mp h
    have e1 : g (j, v) = (j, (g (j, v)).2) := Prod.ext (hg (j, v)) rfl
    rw [List.map_cons, e1]
    refine (keysRise_cons_iff _ _ _).mpr ⟨?_, ih ht⟩
    intro e he
    obtain ⟨x, hx, rfl⟩ := List.mem_map.mp he
    rw [hg]
    exact hj x hx

theorem keysRise_mapValues {α β : Type} (g : Nat × α → β) (m : AMap α) (h : keysRise m = true) :
    keysRise (m.map fun e => (e.1, g e) : AMap β) = true := keysRise_map (fun e => (e.1, g e)) (fun _ => rfl) m h

theorem keysRise_filter {α : Type} (f : Nat × α → Bool) (m : AMap α) (h : keysRise m = true) :
    keysRise (m.filter f : AMap α) = true := by
  induction m with
  | nil => rfl
  | cons e t ih =>
    rcases e with ⟨j, v⟩
    obtain ⟨hj, ht⟩ := (keysRise_cons_iff j v t).mp h
    rw [List.filter_cons]
    split
    · exact (keysRise_cons_iff _ _ _).mpr ⟨fun e he => hj e (List.mem_of_mem_filter he), ih ht⟩
    · exact ih ht

theorem keysRise_upd {α : Type} (m : AMap α) (k : Nat) (f : α → α) (h : keysRise m = true) : keysRise (upd m k f) = true := by
  unfold upd
  split
  · exact keysRise_ins m k _ h
  · exact h

theorem del_eq_filter {α : Type} (m : AMap α) (k : Nat) : del m k = m.filter fun e => decide (e.1 ≠ k) := by
  induction m with
  | nil => rfl
  | cons e t ih =>
    rcases e with ⟨j, v⟩
    by_cases h : j = k <;> simp [del, h, ih]

theorem keysRise_del {α : Type} (m : AMap α) (k : Nat) (h : keysRise m = true) : keysRise (del m k) = true :=
  del_eq_filter m k ▸ keysRise_filter _ m h

/-! ### Folds, options and branches -/

theorem Keeps.foldl {α : Type} {l : List α} {f : State → α → State} (h : Keeps s₀ s)
    (hf : ∀ s a, Keeps s₀ s → Keeps s₀ (f s a)) : Keeps s₀ (l.foldl f s) := by
  induction l generalizing s with
  | nil => exact h
  | cons a t ih => exact ih (hf s a h)

theorem Keeps.foldl_fst {α β : Type} {l : List α} {f : State × β → α → State × β} {p : State × β} (h : Keeps s₀ p.1)
    (hf : ∀ p a, Keeps s₀ p.1 → Keeps s₀ (f p a).1) : Keeps s₀ (l.foldl f p).1 := by
  induction l generalizing p with
  | nil => exact h
  | cons a t ih => exact ih (hf p a h)

theorem KeepsOpt.filter {o : Option State} {f : State → Bool} (h : KeepsOpt s₀ o) : KeepsOpt s₀ (o.filter f) :=
  fun _ e => h _ (Option.filter_eq_some_iff.mp e).1

theorem KeepsOpt.map {α : Type} {o : Option α} {f : α → State} (hf : ∀ a, Keeps s₀ (f a)) : KeepsOpt s₀ (o.map f) := by
  cases o with
  | none => exact KeepsOpt.none
  | some a => exact (hf a).some

theorem KeepsOpt.bind {α : Type} {o : Option α} {f : α → Option State} (hf : ∀ a, KeepsOpt s₀ (f a)) : KeepsOpt s₀ (o.bind f) := by
  cases o with
  | none => exact KeepsOpt.none
  | some a => exact hf a

theorem KeepsOpt.findSome {α : Type} {l : List α} {f : α → Option State} (hf : ∀ a, KeepsOpt s₀ (f a)) :
    KeepsOpt s₀ (l.findSome? f) := by
  intro t e
  obtain ⟨a, -, ha⟩ := List.exists_of_findSome?_eq_some e
  exact hf a t ha

theorem KeepsOpt.andThen {o : Option State} {f : State → State} (h : KeepsOpt s₀ o) (hf : ∀ s, Keeps s₀ s → Keeps s₀ (f s)) :
    KeepsOpt s₀ (o.map f) := by
  cases o with
  | none => exact KeepsOpt.none
  | some t => exact (hf t (h t rfl)).some

theorem Keeps.ite {c : Prop} [Decidable c] {a b : State} (ha : Keeps s₀ a) (hb : Keeps s₀ b) :
    Keeps s₀ (if c then a else b) := by split <;> assumption

theorem Keeps.ite_fst {β : Type} {c : Prop} [Decidable c] {a b : State × β} (ha : Keeps s₀ a.1) (hb : Keeps s₀ b.1) :
    Keeps s₀ (if c then a else b).1 := by split <;> assumption

theorem KeepsOpt.ite {c : Prop} [Decidable c] {a b : Option State} (ha : KeepsOpt s₀ a) (hb : KeepsOpt s₀ b) :
    KeepsOpt s₀ (if c then a else b) := by split <;> assumption

theorem KeepsOut.ite {c : Prop} [Decidable c] {a b : Host.Outcome State Fault Refusal} (ha : KeepsOut s₀ a)
    (hb : KeepsOut s₀ b) : KeepsOut s₀ (if c then a else b) := by split <;> assumption

theorem Keeps.foldl_st {α : Type} {l : List α} {f : Delivered → α → Delivered} {x : Delivered} (h : Keeps s₀ x.st)
    (hf : ∀ x a, Keeps s₀ x.st → Keeps s₀ (f x a).st) : Keeps s₀ (l.foldl f x).st := by
  induction l generalizing x with
  | nil => exact h
  | cons a t ih => exact ih (hf x a h)

theorem Keeps.foldl_read {α : Type} {l : List α} {f : ReadRun → α → ReadRun} {x : ReadRun} (h : Keeps s₀ x.st)
    (hf : ∀ x a, Keeps s₀ x.st → Keeps s₀ (f x a).st) : Keeps s₀ (l.foldl f x).st := by
  induction l generalizing x with
  | nil => exact h
  | cons a t ih => exact ih (hf x a h)

theorem wf_foldl {α : Type} (l : List α) (f : List Host.Cell → α → List Host.Cell)
    (hf : ∀ m a, Memory.wf m = true → Memory.wf (f m a) = true) (m : List Host.Cell) (h : Memory.wf m = true) :
    Memory.wf (l.foldl f m) = true := by
  induction l generalizing m with
  | nil => exact h
  | cons a t ih => exact ih _ (hf m a h)

/-! ### What the functions of Maps.lean keep -/

theorem Keeps.modTile {t : Nat} {f : Tile → Tile} (h : Keeps s₀ s) : Keeps s₀ (modTile s t f) :=
  h.withTiles (keysRise_ins _ _ _)

theorem Keeps.modPort {p : Nat} {f : Port → Port} (h : Keeps s₀ s) : Keeps s₀ (modPort s p f) := h.also

theorem Keeps.modCluster {c : Nat} {f : Cluster → Cluster} (h : Keeps s₀ s) : Keeps s₀ (modCluster s c f) :=
  h.withClusters (keysRise_ins _ _ _)

theorem Keeps.modMxe {c : ℕ} {f : Mxe → Mxe} (h : Keeps s₀ s) : Keeps s₀ (modMxe s c f) := h.modCluster

theorem Keeps.modCu {c : ℕ} {f : Cu → Cu} (h : Keeps s₀ s) : Keeps s₀ (modCu s c f) := h.modCluster

theorem Keeps.modPart {p : Nat} {f : Partition → Partition} (h : Keeps s₀ s) : Keeps s₀ (modPart s p f) :=
  h.withParts (keysRise_ins _ _ _)

theorem Keeps.modThread {u : Nat} {f : Thread → Thread} (h : Keeps s₀ s) : Keeps s₀ (modThread s u f) :=
  h.withThreads (keysRise_upd _ _ _)

theorem Keeps.modTeam {p serial : ℕ} {f : Team → Team} (h : Keeps s₀ s) : Keeps s₀ (modTeam s p serial f) := h.modPart

theorem Keeps.modQueue {p q : ℕ} {f : Queue → Queue} (h : Keeps s₀ s) : Keeps s₀ (modQueue s p q f) := h.modPart

theorem Keeps.modEvu {t : ℕ} {f : Evu → Evu} (h : Keeps s₀ s) : Keeps s₀ (modEvu s t f) := h.modTile

theorem Keeps.modTrace {p : ℕ} {f : TraceBlk → TraceBlk} (h : Keeps s₀ s) : Keeps s₀ (modTrace s p f) := h.modPart

theorem Keeps.modHist {d : ℕ} {f : Hist → Hist} (h : Keeps s₀ s) : Keeps s₀ (modHist s d f) := h.also

theorem Keeps.modLink {l : ℕ} {f : Link → Link} (h : Keeps s₀ s) : Keeps s₀ (modLink s l f) := h.also

theorem Keeps.forEach {α : Type} {l : List α} {f : State → α → State} (h : Keeps s₀ s)
    (hf : ∀ s a, Keeps s₀ s → Keeps s₀ (f s a)) : Keeps s₀ (forEach l f s) := h.foldl hf

theorem Keeps.sched {x : Timed} (h : Keeps s₀ s) : Keeps s₀ (sched s x) := h.also

theorem Keeps.schedAt {cycle : ℕ} {a : Act} (h : Keeps s₀ s) : Keeps s₀ (schedAt s cycle a) := h.sched

theorem Keeps.unsched {f : Act → Bool} (h : Keeps s₀ s) : Keeps s₀ (unsched s f) := by
  have k : Keeps s₀ { s with agenda := s.agenda.filter fun x => !f x.act } := h.also
  unfold Machine.unsched
  dsimp only
  split
  · exact k.withTiles (keysRise_mapValues _ _)
  · exact k

theorem Keeps.freshId (h : Keeps s₀ s) : Keeps s₀ (freshId s) := h.also

theorem Keeps.freshFree (h : Keeps s₀ s) : Keeps s₀ (freshFree s) := h.also

/-! ### What the functions of Regs.lean keep -/

theorem Keeps.granSet {tile g : ℕ} {v : Word} (h : Keeps s₀ s) : Keeps s₀ (granSet tile g v s) := h.modTile

theorem Keeps.vset {th : Thread} {r v : ℕ} (h : Keeps s₀ s) : Keeps s₀ (vset s th r v) := h.foldl (fun _ _ k1 => k1.granSet)

theorem Keeps.vmark {th : Thread} {r : ℕ} {empty : Bool} (h : Keeps s₀ s) : Keeps s₀ (vmark s th r empty) := h.modTile

theorem Keeps.winSet {th : Thread} {g : ℕ} {v : Word} (h : Keeps s₀ s) : Keeps s₀ (winSet s th g v) := h.granSet

/-! ### What the functions of Ops.lean keep -/

theorem Keeps.setView {k view : Nat} (h : Keeps s₀ s) : Keeps s₀ (setView s k view) := by
  unfold Machine.setView
  by_cases hc : k < 2 ^ 40 ∨ lookD s.cipher (k / 64) 0 = view
  · rw [if_pos hc]; exact h
  · rw [if_neg hc]
    generalize List.zipIdx _ = l
    have hv := h.withMem (m := l.foldl (fun m x => memPutWord m (64 * (k / 64) + 8 * x.2) x.1) s.mem)
      fun hm => wf_putWords l (64 * (k / 64)) s.mem hm.1
    exact hv.also

theorem Keeps.putWord {k : Nat} {v : Word} {full : Bool} (h : Keeps s₀ s) : Keeps s₀ (putWord s k v full) :=
  (h.withMem fun hm => wf_memPutWord s.mem k v hm.1).also

theorem Keeps.setWaiters {k : ℕ} {l : List Req} (h : Keeps s₀ s) : Keeps s₀ (setWaiters s k l) := Keeps.ite h.modTile h.modPort

theorem Keeps.answer {r : Req} {res : AccRes} (h : Keeps s₀ s) : Keeps s₀ (answer s r res) := h.sched

theorem Keeps.answerFault {r : Req} {cause info : ℕ} {host : Bool} (h : Keeps s₀ s) :
    Keeps s₀ (answerFault s r cause info host) := h.answer

theorem Keeps.dropTimeout {r : Req} (h : Keeps s₀ s) : Keeps s₀ (dropTimeout s r) := h.unsched

theorem Keeps.serveList {k : Nat} {l : List Req} (h : Keeps s₀ s) : Keeps s₀ (serveList s k l).1 := by
  induction l generalizing s with
  | nil => exact h
  | cons w t ih =>
    unfold Machine.serveList
    dsimp only
    split
    · split
      · refine ih (Keeps.dropTimeout (Keeps.answer ?_))
        split
        · exact h.setView.putWord
        · exact h.setView
      · exact ih h
    · exact ih h

theorem Keeps.serve {k : ℕ} (h : Keeps s₀ s) : Keeps s₀ (serve s k) := Keeps.ite h.serveList.setWaiters h

theorem Keeps.writeWord {k : ℕ} {v : Word} {full : Bool} (h : Keeps s₀ s) : Keeps s₀ (writeWord s k v full) := h.putWord.serve

theorem Keeps.cacheLeaf {port : ℕ} {l : Leaf} (h : Keeps s₀ s) : Keeps s₀ (cacheLeaf s port l) := h.modPort

theorem Keeps.useLeaf {port : ℕ} {l : Leaf} (h : Keeps s₀ s) : Keeps s₀ (useLeaf s port l) := h.modPort

theorem Keeps.translate {port partn o : ℕ} {write fetch : Bool} (h : Keeps s₀ s) :
    Keeps s₀ (translate s port partn o write fetch).1 := by
  unfold Machine.translate
  split
  · exact h.useLeaf
  · split
    · exact h
    · exact h.cacheLeaf

theorem Keeps.modBlock {tile b : ℕ} {f : Block → Block} (h : Keeps s₀ s) : Keeps s₀ (modBlock s tile b f) := h.modTile

theorem Keeps.holdAct {mover : ℕ} {a : Act} (h : Keeps s₀ s) : Keeps s₀ (holdAct s mover a) := h.modTile

theorem Keeps.meetMove {l : List (ℕ × ℕ)} (h : Keeps s₀ s) : Keeps s₀ (meetMove s l) := by
  unfold Machine.meetMove
  split
  · split
    · exact h.also
    · exact h
  · exact h

theorem Keeps.meetEarlier {met : Bool} (h : Keeps s₀ s) : Keeps s₀ (meetEarlier s met) := Keeps.ite h.also h

theorem Keeps.postpone {mover : ℕ} {a : Act} (h : Keeps s₀ s) :
    Keeps s₀ (postpone s mover a) := Keeps.ite (Keeps.ite h.also h.schedAt) (Keeps.ite h.modTile
        (Keeps.ite h.schedAt h.holdAct))

theorem Keeps.countStub {tile b : ℕ} (h : Keeps s₀ s) : Keeps s₀ (countStub s tile b) := h.modBlock

theorem Keeps.countStubs {l : List (ℕ × ℕ)} (h : Keeps s₀ s) : Keeps s₀ (countStubs l s) := h.foldl (fun _ _ k1 => k1.countStub)

theorem Keeps.hwKey {partn : ℕ} {p : Ptr} {write fetch : Bool} (h : Keeps s₀ s) : Keeps s₀ (hwKey s partn p write fetch).1 := by
  unfold Machine.hwKey
  split
  · exact h
  · dsimp only
    split
    · exact h.countStubs.meetMove.meetEarlier
    · split
      · rename_i e1
        exact (h.translate.of_fst e1).setView.meetEarlier
      · rename_i e1
        exact h.translate.of_fst e1
      · rename_i e1
        exact h.translate.of_fst e1
    · split
      · rename_i e1
        exact (h.translate.of_fst e1).setView.meetEarlier
      · rename_i e1
        exact h.translate.of_fst e1
      · rename_i e1
        exact h.translate.of_fst e1
    · exact h
    · exact h

theorem Keeps.hwStore {partn : ℕ} {p : Ptr} {v : Word} (h : Keeps s₀ s) : Keeps s₀ (hwStore s partn p v) := by
  unfold Machine.hwStore
  split
  · rename_i e1
    exact (h.hwKey.of_fst e1).writeWord
  · rename_i e1
    exact h.hwKey.of_fst e1

theorem Keeps.spillStore {tile off : ℕ} {v : Word} (h : Keeps s₀ s) : Keeps s₀ (spillStore s tile off v) := by
  unfold Machine.spillStore
  split
  · exact h
  · dsimp only
    split
    · exact h.freshId.holdAct
    · split
      · exact h.countStubs.writeWord
      · exact h.countStubs

theorem Keeps.hwLoad {partn : ℕ} {p : Ptr} (h : Keeps s₀ s) : Keeps s₀ (hwLoad s partn p).1 := by
  unfold Machine.hwLoad
  split
  · rename_i e1
    exact Keeps.ite_fst (h.hwKey.of_fst e1) (h.hwKey.of_fst e1)
  · rename_i e1
    exact h.hwKey.of_fst e1

theorem Keeps.hwWritable {partn : ℕ} {p : Ptr} (h : Keeps s₀ s) : Keeps s₀ (hwWritable s partn p).1 := by
  unfold Machine.hwWritable
  refine h.foldl_fst (fun _ _ k1 => ?_)
  split
  · rename_i e1
    exact k1.hwKey.of_fst e1
  · rename_i e1
    exact k1.hwKey.of_fst e1

theorem Keeps.hwRecord {partn : ℕ} {p : Ptr} {ws : List Word} (h : Keeps s₀ s) : Keeps s₀ (hwRecord s partn p ws) := by
  unfold Machine.hwRecord
  split
  · exact h
  · exact (h.foldl_fst (fun _ _ k1 => k1.hwStore)).hwStore

theorem Keeps.postHost {e : Entry} (h : Keeps s₀ s) : Keeps s₀ (postHost s e) := h.also

theorem Keeps.postSup {partn : ℕ} {e : Entry} (h : Keeps s₀ s) : Keeps s₀ (postSup s partn e) := h.modPart

theorem Keeps.postDbg {partn : ℕ} {e : Entry} (h : Keeps s₀ s) : Keeps s₀ (postDbg s partn e) := h.modTrace

theorem Keeps.hostRing {e : Entry} (h : Keeps s₀ s) :
    Keeps s₀ (hostRing s e) := Keeps.ite h.freshFree.also (h.freshFree.foldl_fst (fun _ _ k1 => k1.putWord)).also

theorem Keeps.submit {src : ℕ} {k : BcKind} (h : Keeps s₀ s) : Keeps s₀ (submit s src k).1 := h.also

theorem Keeps.noticeFq {partn : ℕ} (h : Keeps s₀ s) : Keeps s₀ (noticeFq s partn) := Keeps.ite h h.modPart.submit

theorem Keeps.supRing {partn : ℕ} {e : Entry} (h : Keeps s₀ s) : Keeps s₀ (supRing s partn e) := by
  unfold Machine.supRing
  dsimp only
  split
  · rename_i e2
    exact (h.hwWritable.of_fst e2).modPart.noticeFq
  · rename_i e2
    exact (h.hwWritable.of_fst e2).hwRecord.modPart

theorem Keeps.dbgRing {partn : ℕ} {e : Entry} (h : Keeps s₀ s) : Keeps s₀ (dbgRing s partn e) := by
  unfold Machine.dbgRing
  dsimp only
  split
  · rename_i e2
    exact (h.hwWritable.of_fst e2).modTrace
  · rename_i e2
    exact Keeps.ite (h.hwWritable.of_fst e2).hwRecord.modTrace.also (h.hwWritable.of_fst e2).hwRecord.modTrace

theorem Keeps.partNext {n : ℕ} {p : Partition} (h : Keeps s₀ s) : KeepsOpt s₀ (partNext s n p) := by
  unfold Machine.partNext
  split
  · exact h.supRing.some
  · split
    · exact h.dbgRing.some
    · exact KeepsOpt.none

theorem KeepsOpt.unmet {o : Option State} (h : KeepsOpt s₀ o) : KeepsOpt s₀ (unmet o) := h.filter

theorem Keeps.postNext (h : Keeps s₀ s) : KeepsOpt s₀ (postNext s) := by
  unfold Machine.postNext
  split
  · exact h.hostRing.some
  · exact KeepsOpt.findSome (fun _ => h.partNext.unmet)

theorem Keeps.postStop {th : Thread} {f : FaultIn} {flags : ℕ} (h : Keeps s₀ s) :
    Keeps s₀ (postStop s th f flags) := Keeps.ite h.postHost (Keeps.ite h.postSup.postHost h.postSup)

theorem Keeps.escalate {u : ℕ} {th : Thread} {f : FaultIn} {ready : ℕ} (h : Keeps s₀ s) :
    Keeps s₀ (escalate s u th f ready) := h.modThread.postStop

theorem Keeps.deliverUser {u : ℕ} {th : Thread} {f : FaultIn} {ready : ℕ} (h : Keeps s₀ s) :
    Keeps s₀ (deliverUser s u th f ready) := Keeps.ite h.escalate h.modThread

theorem Keeps.deliverSup {u : ℕ} {th : Thread} {f : FaultIn} {ready : ℕ} (h : Keeps s₀ s) :
    Keeps s₀ (deliverSup s u th f ready) := h.modThread.postStop

theorem Keeps.fenceRect {partn r : ℕ} (h : Keeps s₀ s) : Keeps s₀ (fenceRect s partn r) := Keeps.ite h h.modPart.also.schedAt

theorem Keeps.deliverPoison {u : ℕ} {th : Thread} {f : FaultIn} {ready : ℕ} (h : Keeps s₀ s) :
    Keeps s₀ (deliverPoison s u th f ready) := by
  unfold Machine.deliverPoison
  dsimp only
  split
  · exact h.modThread.postSup
  · exact h.modThread.postSup.postHost.fenceRect

theorem Keeps.deliverDebug {u : ℕ} {th : Thread} {f : FaultIn} {ready : ℕ} (h : Keeps s₀ s) :
    Keeps s₀ (deliverDebug s u th f ready) := Keeps.ite h.modThread.postStop (Keeps.ite h.modThread h.modThread.postDbg)

theorem Keeps.takeFault {u : ℕ} {f : FaultIn} {ready : ℕ} (h : Keeps s₀ s) : Keeps s₀ (takeFault s u f ready) := by
  unfold Machine.takeFault
  split
  · exact h
  · split
    · exact h
    · split
      · exact h.deliverUser
      · exact h.deliverSup
      · exact h.deliverPoison
      · exact h.deliverDebug

theorem Keeps.actRow {k : Act → State → Option State} (h : Keeps s₀ s) (hk : ∀ x y, Keeps s₀ y → KeepsOpt s₀ (k x y)) :
    KeepsOut s₀ (actRow s k) := by
  unfold Machine.actRow
  split
  · exact KeepsOut.fault
  · split
    · rename_i e1
      refine Keeps.next ?_
      split
      · exact h.also.postpone
      · exact (hk _ _ h.also) _ e1
    · exact KeepsOut.fault

theorem Keeps.withCur {k : Cur → Thread → State} (_h : Keeps s₀ s) (hk : ∀ x y, Keeps s₀ (k x y)) :
    KeepsOut s₀ (withCur s k) := by
  unfold Machine.withCur
  split
  · exact KeepsOut.fault
  · split
    · exact KeepsOut.fault
    · exact (hk _ _).next

theorem Keeps.issued {c : Cur} (h : Keeps s₀ s) : Keeps s₀ (issued s c) := by
  unfold Machine.issued
  split
  · exact h.also
  · refine (Keeps.modTile h.also).withThreads (keysRise_map _ ?_ _)
    intro e
    split
    · split <;> rfl
    · rfl

theorem Keeps.retire {c : Cur} {lat : ℕ} {f : Thread → Thread} (h : Keeps s₀ s) :
    Keeps s₀ (retire s c lat f) := h.issued.modThread

theorem Keeps.retireTo {c : Cur} {lat : ℕ} {target : Ptr} {f : Thread → Thread} (h : Keeps s₀ s) :
    Keeps s₀ (retireTo s c lat target f) := h.issued.modThread

theorem Keeps.parkUnit {c : Cur} {w : Wait} (h : Keeps s₀ s) : Keeps s₀ (parkUnit s c w) := h.also.modThread

theorem Keeps.waitUnit {c : Cur} {w : Wait} (h : Keeps s₀ s) : Keeps s₀ (waitUnit s c w) := h.issued.modThread

theorem Keeps.raiseAt {lat : ℕ} {c : Cur} {cause : ℕ} {addr info : Word} {progress : ℕ} (h : Keeps s₀ s) :
    Keeps s₀ (raiseAt lat s c cause addr info progress) := h.issued.takeFault

theorem Keeps.raiseEnd {lat : ℕ} {c : Cur} {cause : ℕ} {addr info : Word} {progress : ℕ} (h : Keeps s₀ s) :
    Keeps s₀ (raiseEnd lat s c cause addr info progress) := h.issued.freshId.modThread.schedAt

theorem Keeps.raise {c : Cur} {cause : ℕ} {addr info : Word} {progress : ℕ} (h : Keeps s₀ s) :
    Keeps s₀ (raise s c cause addr info progress) := h.raiseAt

theorem Keeps.deliverDeferred {c : Cur} {th : Thread} (h : Keeps s₀ s) : Keeps s₀ (deliverDeferred s c th) := by
  unfold Machine.deliverDeferred
  split
  · exact h
  · split
    · exact h
    · exact h.issued.modThread.takeFault

theorem Keeps.unit {n : Need} {k : Cur → Thread → State} (h : Keeps s₀ s) (hk : ∀ x y, Keeps s₀ (k x y)) :
    KeepsOut s₀ (unit s n k) := h.withCur (fun _ _ => Keeps.ite h.parkUnit (Keeps.ite h.deliverDeferred (Keeps.ite h.raise
        (hk _ _))))

theorem Keeps.unitChecked {n : Need} {bad : Cur → Thread → Option State} {k : Cur → Thread → State} (h : Keeps s₀ s)
    (hbad : ∀ x y, KeepsOpt s₀ (bad x y)) (hk : ∀ x y, Keeps s₀ (k x y)) :
    KeepsOut s₀ (unitChecked s n bad k) := by
  unfold Machine.unitChecked
  refine h.withCur (fun _ _ => ?_)
  split
  · exact h.parkUnit
  · split
    · exact h.deliverDeferred
    · split
      · rename_i e1
        exact (hbad _ _) _ e1
      · exact Keeps.ite h.raise (hk _ _)

theorem Keeps.recheck {u : ℕ} (h : Keeps s₀ s) : Keeps s₀ (recheck s u) := by
  unfold Machine.recheck
  split
  · exact h
  · split
    · exact Keeps.ite h.modThread h
    · exact Keeps.ite h.modThread h
    · exact h

theorem Keeps.wake {u : ℕ} (h : Keeps s₀ s) : Keeps s₀ (wake s u) := h.modThread

theorem Keeps.complete {u : ℕ} {npc : Ptr} {f : Thread → Thread} (h : Keeps s₀ s) : Keeps s₀ (complete s u npc f) := h.modThread

theorem Keeps.metered {c : Cur} {th : Thread} {p : Word} {ch progress : ℕ} {k : State → State} (h : Keeps s₀ s)
    (hk : ∀ x, Keeps s₀ x → Keeps s₀ (k x)) :
    Keeps s₀ (metered s c th p ch progress k) := Keeps.ite (hk _ h) (Keeps.ite h.raise (hk _ h.modThread))

theorem Keeps.lateCharge {u ch : ℕ} (h : Keeps s₀ s) : Keeps s₀ (lateCharge s u ch) := by
  unfold Machine.lateCharge
  split
  · exact h
  · exact Keeps.ite h (Keeps.ite h.modThread h.modThread)

/-! ### What the functions of Operands.lean keep -/

theorem Keeps.mismatch {c : Cur} {mate : ℕ} {p q : Present} (h : Keeps s₀ s) :
    Keeps s₀ (mismatch s c mate p q) := h.modThread.raise

theorem Keeps.gateWith {c : Cur} {th : Thread} {p : Present} {differ : ℕ → Present → State} {k : State → State} (h : Keeps s₀ s)
    (hdiffer : ∀ x y, Keeps s₀ (differ x y)) (hk : ∀ x, Keeps s₀ x → Keeps s₀ (k x)) :
    Keeps s₀ (gateWith s c th p differ k) := by
  unfold Machine.gateWith
  split
  · exact hk _ h
  · split
    · exact hk _ h
    · dsimp only
      split
      · split
        · exact h.parkUnit.wake
        · exact h.parkUnit
      · split
        · exact Keeps.ite (hk _ h.wake.modThread) (hdiffer _ _)
        · exact h.parkUnit

theorem Keeps.gate {c : Cur} {th : Thread} {p : Present} {k : State → State} (h : Keeps s₀ s) (hk : ∀ x, Keeps s₀ x → Keeps s₀
    (k x)) :
    Keeps s₀ (gate s c th p k) := h.gateWith (fun _ _ => h.mismatch) (fun _ k1 => hk _ k1)

theorem Keeps.sendPart {u : ℕ} {th : Thread} {f : Flight} {q : PartReq} {at_ : ℕ} (h : Keeps s₀ s) :
    Keeps s₀ (sendPart s u th f q at_) := by
  unfold Machine.sendPart
  split
  · exact h
  · exact h.sched

theorem Keeps.sendRun {u : Nat} {th : Thread} {f : Flight} {l : List PartReq} {n : Nat} (h : Keeps s₀ s) :
    Keeps s₀ (sendRun s u th f l n) := by
  induction l generalizing s n with
  | nil => exact h
  | cons q t ih => exact ih h.sendPart

theorem Keeps.modFlight {u fid : ℕ} {g : Flight → Flight} (h : Keeps s₀ s) : Keeps s₀ (modFlight s u fid g) := h.modThread

theorem Keeps.lvHold {u fid : ℕ} {th : Thread} {n : ℕ} (h : Keeps s₀ s) : Keeps s₀ (lvHold s u fid th n) := by
  unfold Machine.lvHold
  split
  · exact Keeps.ite h.modThread.modThread h
  · exact h

theorem Keeps.sendNext {u fid at_ : ℕ} (h : Keeps s₀ s) : Keeps s₀ (sendNext s u fid at_) := by
  unfold Machine.sendNext
  split
  · exact h
  · split
    · exact h
    · split
      · exact h
      · exact (Keeps.ite (Keeps.ite (Keeps.ite h.lvHold h) (Keeps.ite h.lvHold h).modFlight).modThread (Keeps.ite
            (Keeps.ite h.lvHold h) (Keeps.ite h.lvHold h).modFlight)).sendRun

theorem Keeps.kick {u : ℕ} (h : Keeps s₀ s) : Keeps s₀ (kick s u) := by
  unfold Machine.kick
  split
  · exact h
  · split
    · exact h
    · exact Keeps.ite h h.sendNext

theorem Keeps.lvWake {u : ℕ} (h : Keeps s₀ s) : Keeps s₀ (lvWake s u) := by
  unfold Machine.lvWake
  split
  · split
    · exact h.wake
    · exact h
  · exact h

theorem Keeps.lvEnter {u : ℕ} {th : Thread} {e : LvEntry} (h : Keeps s₀ s) : Keeps s₀ (lvEnter s u th e) := by
  unfold Machine.lvEnter
  split
  · exact h
  · exact Keeps.ite h.modThread.modThread.lvWake h

theorem Keeps.lvFreed {u : ℕ} (h : Keeps s₀ s) : Keeps s₀ (lvFreed s u) := by
  unfold Machine.lvFreed
  split
  · exact h
  · split
    · exact h.sendNext
    · exact h.lvWake

theorem Keeps.lvLeave {u : ℕ} (h : Keeps s₀ s) : Keeps s₀ (lvLeave s u) := by
  unfold Machine.lvLeave
  dsimp only
  split
  · exact h.modThread.lvFreed
  · exact h.modThread

theorem Keeps.lvRoom {c : Cur} {th : Thread} {k : State} (h : Keeps s₀ s) (hk : Keeps s₀ k) : Keeps s₀ (lvRoom s c th k) := by
  unfold Machine.lvRoom
  split
  · exact hk
  · split
    · exact Keeps.ite h.parkUnit hk
    · exact hk

theorem Keeps.lvShare {c : Cur} {th : Thread} {own : State → State × List Word} {fin : List Word → State → State}
    (h : Keeps s₀ s) (hown : ∀ x, Keeps s₀ x → Keeps s₀ (own x).1) (hfin : ∀ x y, Keeps s₀ y → Keeps s₀ (fin x y)) :
    Keeps s₀ (lvShare s c th own fin) := by
  unfold Machine.lvShare
  split
  · split
    · exact hfin _ _ h.lvLeave
    · exact hfin _ _ h.lvLeave
    · exact Keeps.ite (hfin _ _ (hown _ h)) h.parkUnit
  · exact h.lvRoom (hfin _ _ (hown _ h).lvEnter)

theorem Keeps.lvLead {c : Cur} {th : Thread} {bad : Option (ℕ × Word × Word)} {go rest : State → State} (h : Keeps s₀ s)
    (hgo : ∀ x, Keeps s₀ x → Keeps s₀ (go x)) (hrest : ∀ x, Keeps s₀ x → Keeps s₀ (rest x)) :
    Keeps s₀ (lvLead s c th bad go rest) := by
  unfold Machine.lvLead
  split
  · split
    · exact h.lvLeave.raise
    · exact hrest _ h.lvLeave
    · exact Keeps.ite (hrest _ h) h.parkUnit
  · refine h.lvRoom ?_
    split
    · exact h.lvEnter.raise
    · exact hgo _ h

theorem Keeps.lvOver {u : ℕ} (h : Keeps s₀ s) : Keeps s₀ (lvOver s u) := by
  unfold Machine.lvOver
  split
  · exact h.lvEnter
  · exact h

theorem Keeps.lvPull {u n : Nat} (h : Keeps s₀ s) : Keeps s₀ (lvPull u n s) := by
  induction n generalizing s with
  | zero => exact h
  | succ n ih =>
    unfold Machine.lvPull
    split
    · exact h
    · split
      · dsimp only
        split
        · exact h
        · split
          · exact ih h.lvLeave.schedAt
          · exact ih h.lvLeave.schedAt
          · exact h
      · exact h

theorem Keeps.schedLv {cycle u : ℕ} {f : Flight} (h : Keeps s₀ s) : Keeps s₀ (schedLv s cycle u f) := h.sched

theorem Keeps.lvFollow {c : Cur} {th : Thread} {f : Flight} (h : Keeps s₀ s) : Keeps s₀ (lvFollow s c th f) := by
  unfold Machine.lvFollow
  split
  · exact h.lvPull
  · split
    · exact h.lvLeave.modFlight.schedLv
    · exact h.modThread

theorem Keeps.lvPart {u : ℕ} {th : Thread} {f : Flight} {a : Answer} (h : Keeps s₀ s) : Keeps s₀ (lvPart s u th f a) := by
  unfold Machine.lvPart
  split
  · exact Keeps.ite h.modThread.lvPull h
  · exact h

theorem Keeps.lvCut {u : ℕ} {f : Flight} {j : ℕ} (h : Keeps s₀ s) : Keeps s₀ (lvCut s u f j) := by
  unfold Machine.lvCut
  split
  · exact h
  · split
    · exact h
    · dsimp only
      split
      · exact Keeps.ite h.modThread.modThread h.modThread
      · exact h.modThread

theorem Keeps.lvGive {u : ℕ} {f : Flight} (h : Keeps s₀ s) : Keeps s₀ (lvGive s u f) := by
  unfold Machine.lvGive
  split
  · split
    · split
      · exact h
      · split
        · exact h.modThread.modFlight.schedLv
        · exact h.modThread.lvWake
    · exact h
  · exact h

theorem Keeps.startFlightAt {delay : ℕ} {c : Cur} {th : Thread} {rx : Bool} {op : FlOp} {parts ch : ℕ} {runs : List
    (List PartReq)} (h : Keeps s₀ s) :
    Keeps s₀ (startFlightAt delay s c th rx op parts ch runs) := by
  unfold Machine.startFlightAt
  dsimp only
  split
  · exact h.issued.freshId.modThread.modFlight.lvFollow
  · split
    · split
      · split
        · exact h.issued.freshId.modThread
        · exact h.issued.freshId.modThread.lvEnter
      · refine Keeps.sendNext ?_
        split
        · exact h.issued.freshId.modThread
        · exact h.issued.freshId.modThread.lvEnter
    · split
      · split
        · exact h.issued.freshId.modThread
        · exact h.issued.freshId.modThread.lvEnter
      · refine Keeps.sendNext ?_
        split
        · exact h.issued.freshId.modThread
        · exact h.issued.freshId.modThread.lvEnter

theorem Keeps.startFlight {c : Cur} {th : Thread} {rx : Bool} {op : FlOp} {parts ch : ℕ} {runs : List (List PartReq)}
    (h : Keeps s₀ s) :
    Keeps s₀ (startFlight s c th rx op parts ch runs) := h.startFlightAt

/-! ### What the functions of Alu.lean keep -/

theorem Keeps.scalarUnit {rd : List SReg} {d : SReg} {f : Thread → Word} (h : Keeps s₀ s) :
    KeepsOut s₀ (scalarUnit s rd d f) := h.unit (fun _ _ => h.retire)

theorem Keeps.predUnit {rd : List SReg} {pr : List PReg} {d : PReg} {f : Thread → Bool} (h : Keeps s₀ s) :
    KeepsOut s₀ (predUnit s rd pr d f) := h.unit (fun _ _ => h.retire)

theorem Keeps.execAdd {d a b : SReg} (h : Keeps s₀ s) : KeepsOut s₀ (execAdd d a b s) := h.scalarUnit

theorem Keeps.execSub {d a b : SReg} (h : Keeps s₀ s) : KeepsOut s₀ (execSub d a b s) := h.scalarUnit

theorem Keeps.execMul {d a b : SReg} (h : Keeps s₀ s) : KeepsOut s₀ (execMul d a b s) := h.scalarUnit

theorem Keeps.execMulh {d a b : SReg} (h : Keeps s₀ s) : KeepsOut s₀ (execMulh d a b s) := h.scalarUnit

theorem Keeps.execMulhu {d a b : SReg} (h : Keeps s₀ s) : KeepsOut s₀ (execMulhu d a b s) := h.scalarUnit

theorem Keeps.divUnit {d a b : SReg} {f : Word → Word → Word} (h : Keeps s₀ s) :
    KeepsOut s₀ (divUnit s d a b f) := h.unit (fun _ _ => Keeps.ite h.raise h.retire)

theorem Keeps.execDiv {d a b : SReg} (h : Keeps s₀ s) : KeepsOut s₀ (execDiv d a b s) := h.divUnit

theorem Keeps.execDivu {d a b : SReg} (h : Keeps s₀ s) : KeepsOut s₀ (execDivu d a b s) := h.divUnit

theorem Keeps.execRem {d a b : SReg} (h : Keeps s₀ s) : KeepsOut s₀ (execRem d a b s) := h.divUnit

theorem Keeps.execRemu {d a b : SReg} (h : Keeps s₀ s) : KeepsOut s₀ (execRemu d a b s) := h.divUnit

theorem Keeps.execAnd {d a b : SReg} (h : Keeps s₀ s) : KeepsOut s₀ (execAnd d a b s) := h.scalarUnit

theorem Keeps.execOr {d a b : SReg} (h : Keeps s₀ s) : KeepsOut s₀ (execOr d a b s) := h.scalarUnit

theorem Keeps.execXor {d a b : SReg} (h : Keeps s₀ s) : KeepsOut s₀ (execXor d a b s) := h.scalarUnit

theorem Keeps.execAndn {d a b : SReg} (h : Keeps s₀ s) : KeepsOut s₀ (execAndn d a b s) := h.scalarUnit

theorem Keeps.execOrn {d a b : SReg} (h : Keeps s₀ s) : KeepsOut s₀ (execOrn d a b s) := h.scalarUnit

theorem Keeps.execSll {d a b : SReg} (h : Keeps s₀ s) : KeepsOut s₀ (execSll d a b s) := h.scalarUnit

theorem Keeps.execSrl {d a b : SReg} (h : Keeps s₀ s) : KeepsOut s₀ (execSrl d a b s) := h.scalarUnit

theorem Keeps.execSra {d a b : SReg} (h : Keeps s₀ s) : KeepsOut s₀ (execSra d a b s) := h.scalarUnit

theorem Keeps.execRol {d a b : SReg} (h : Keeps s₀ s) : KeepsOut s₀ (execRol d a b s) := h.scalarUnit

theorem Keeps.execMin {d a b : SReg} (h : Keeps s₀ s) : KeepsOut s₀ (execMin d a b s) := h.scalarUnit

theorem Keeps.execMax {d a b : SReg} (h : Keeps s₀ s) : KeepsOut s₀ (execMax d a b s) := h.scalarUnit

theorem Keeps.execMinu {d a b : SReg} (h : Keeps s₀ s) : KeepsOut s₀ (execMinu d a b s) := h.scalarUnit

theorem Keeps.execMaxu {d a b : SReg} (h : Keeps s₀ s) : KeepsOut s₀ (execMaxu d a b s) := h.scalarUnit

theorem Keeps.execClz {d a : SReg} (h : Keeps s₀ s) : KeepsOut s₀ (execClz d a s) := h.scalarUnit

theorem Keeps.execCtz {d a : SReg} (h : Keeps s₀ s) : KeepsOut s₀ (execCtz d a s) := h.scalarUnit

theorem Keeps.execPop {d a : SReg} (h : Keeps s₀ s) : KeepsOut s₀ (execPop d a s) := h.scalarUnit

theorem Keeps.execSext {d a : SReg} {w : Fin 3} (h : Keeps s₀ s) : KeepsOut s₀ (execSext d a w s) := h.scalarUnit

theorem Keeps.execZext {d a : SReg} {w : Fin 3} (h : Keeps s₀ s) : KeepsOut s₀ (execZext d a w s) := h.scalarUnit

theorem Keeps.execBfx {d a b : SReg} (h : Keeps s₀ s) : KeepsOut s₀ (execBfx d a b s) := h.scalarUnit

theorem Keeps.execBfi {d a b : SReg} (h : Keeps s₀ s) : KeepsOut s₀ (execBfi d a b s) := h.scalarUnit

theorem Keeps.execSel {d a b : SReg} {k : PReg} (h : Keeps s₀ s) :
    KeepsOut s₀ (execSel d a b k s) := h.unit (fun _ _ => h.retire)

theorem Keeps.execAddi {d a : SReg} {imm : ℤ} (h : Keeps s₀ s) : KeepsOut s₀ (execAddi d a imm s) := h.scalarUnit

theorem Keeps.execAndi {d a : SReg} {imm : ℤ} (h : Keeps s₀ s) : KeepsOut s₀ (execAndi d a imm s) := h.scalarUnit

theorem Keeps.execOri {d a : SReg} {imm : ℤ} (h : Keeps s₀ s) : KeepsOut s₀ (execOri d a imm s) := h.scalarUnit

theorem Keeps.execXori {d a : SReg} {imm : ℤ} (h : Keeps s₀ s) : KeepsOut s₀ (execXori d a imm s) := h.scalarUnit

theorem Keeps.execSlli {d a : SReg} {n : Fin 64} (h : Keeps s₀ s) : KeepsOut s₀ (execSlli d a n s) := h.scalarUnit

theorem Keeps.execSrli {d a : SReg} {n : Fin 64} (h : Keeps s₀ s) : KeepsOut s₀ (execSrli d a n s) := h.scalarUnit

theorem Keeps.execSrai {d a : SReg} {n : Fin 64} (h : Keeps s₀ s) : KeepsOut s₀ (execSrai d a n s) := h.scalarUnit

theorem Keeps.execRoli {d a : SReg} {n : Fin 64} (h : Keeps s₀ s) : KeepsOut s₀ (execRoli d a n s) := h.scalarUnit

theorem Keeps.execLih {d : SReg} {pos : Fin 4} {imm : BitVec 16} (h : Keeps s₀ s) :
    KeepsOut s₀ (execLih d pos imm s) := h.scalarUnit

theorem Keeps.execLihK {d : SReg} {pos : Fin 4} {imm : BitVec 16} (h : Keeps s₀ s) :
    KeepsOut s₀ (execLihK d pos imm s) := h.scalarUnit

theorem Keeps.execCmp {p : PReg} {cc : Cond} {u : Bool} {a b : SReg} (h : Keeps s₀ s) :
    KeepsOut s₀ (execCmp p cc u a b s) := h.predUnit

theorem Keeps.execCmpImm {p : PReg} {cc : Cond} {u : Bool} {a : SReg} {imm : BitVec 13} (h : Keeps s₀ s) :
    KeepsOut s₀ (execCmpImm p cc u a imm s) := h.predUnit

theorem Keeps.execPand {d a b : PReg} (h : Keeps s₀ s) : KeepsOut s₀ (execPand d a b s) := h.predUnit

theorem Keeps.execPor {d a b : PReg} (h : Keeps s₀ s) : KeepsOut s₀ (execPor d a b s) := h.predUnit

theorem Keeps.execPxor {d a b : PReg} (h : Keeps s₀ s) : KeepsOut s₀ (execPxor d a b s) := h.predUnit

theorem Keeps.execPandn {d a b : PReg} (h : Keeps s₀ s) : KeepsOut s₀ (execPandn d a b s) := h.predUnit

theorem Keeps.execPnot {d a : PReg} (h : Keeps s₀ s) : KeepsOut s₀ (execPnot d a s) := h.predUnit

theorem Keeps.execPmov {d : PReg} {a : SReg} (h : Keeps s₀ s) : KeepsOut s₀ (execPmov d a s) := h.predUnit

theorem Keeps.execPget {d : SReg} {a : PReg} (h : Keeps s₀ s) : KeepsOut s₀ (execPget d a s) := h.unit (fun _ _ => h.retire)

/-! ### What the functions of Branch.lean keep -/

theorem Keeps.branchUnit {n : Need} {disp : ℤ} {taken : Thread → Bool} {f : Cur → Thread → Thread} (h : Keeps s₀ s) :
    KeepsOut s₀ (branchUnit s n disp taken f) := by
  unfold Machine.branchUnit
  refine h.unit (fun _ _ => ?_)
  split
  · exact h.raise
  · exact h.retireTo

theorem Keeps.execB {disp : BitVec 26} (h : Keeps s₀ s) : KeepsOut s₀ (execB disp s) := h.branchUnit

theorem Keeps.execBl {disp : BitVec 26} (h : Keeps s₀ s) : KeepsOut s₀ (execBl disp s) := h.branchUnit

theorem Keeps.execBp {p : PReg} {disp : BitVec 22} (h : Keeps s₀ s) : KeepsOut s₀ (execBp p disp s) := h.branchUnit

theorem Keeps.execBpNot {p : PReg} {disp : BitVec 22} (h : Keeps s₀ s) : KeepsOut s₀ (execBpNot p disp s) := h.branchUnit

theorem Keeps.jumpUnit {n : Need} {a : SReg} {f : Cur → Thread → Thread} (h : Keeps s₀ s) :
    KeepsOut s₀ (jumpUnit s n a f) := h.unit (fun _ _ => Keeps.ite h.raise (Keeps.ite h.raise h.retireTo))

theorem Keeps.execJr {a : SReg} (h : Keeps s₀ s) : KeepsOut s₀ (execJr a s) := h.jumpUnit

theorem Keeps.execJlr {d a : SReg} (h : Keeps s₀ s) : KeepsOut s₀ (execJlr d a s) := h.jumpUnit

/-! ### What the functions of Rendezvous.lean keep -/

theorem Keeps.modPoint {partn serial k : ℕ} {f : Point → Point} (h : Keeps s₀ s) :
    Keeps s₀ (modPoint s partn serial k f) := h.modTeam

theorem Keeps.setRv {u k : ℕ} {f : Thread → Thread} (h : Keeps s₀ s) : Keeps s₀ (setRv s u k f) := by
  unfold Machine.setRv
  split
  · exact h.modThread.modThread
  · exact h.modThread

theorem Keeps.arrive {u : ℕ} {th : Thread} {k : ℕ} (h : Keeps s₀ s) :
    Keeps s₀ (arrive s u th k) := Keeps.ite h.setRv.modPoint.schedAt h.setRv.modPoint

theorem Keeps.execRvinit {k : Fin 24} {a : SReg} (h : Keeps s₀ s) :
    KeepsOut s₀ (execRvinit k a s) := h.unit (fun _ _ => h.lvLead (fun _ k1 => k1.modPoint.retire.lvOver) (fun _ k2 =>
        k2.retire))

theorem Keeps.execRvarr {k : Fin 24} (h : Keeps s₀ s) :
    KeepsOut s₀ (execRvarr k s) := h.unit (fun _ _ => h.lvLead (fun _ k1 => Keeps.ite k1.waitUnit k1.arrive.retire.lvOver)
        (fun _ k2 => k2.retire))

theorem Keeps.rvCount {u : ℕ} (h : Keeps s₀ s) : Keeps s₀ (rvCount s u) := by
  unfold Machine.rvCount
  split
  · exact h
  · exact Keeps.ite h (Keeps.ite h.modThread h.modThread.schedAt)

theorem Keeps.rvPause {u : ℕ} (h : Keeps s₀ s) : Keeps s₀ (rvPause s u) := by
  unfold Machine.rvPause
  split
  · exact h
  · split
    · exact Keeps.ite h.modThread.unsched h
    · exact h

theorem Keeps.rvFollow {u : ℕ} {th : Thread} {ready : ℕ} (h : Keeps s₀ s) : Keeps s₀ (rvFollow s u th ready) := by
  unfold Machine.rvFollow
  split
  · exact h
  · split
    · exact h
    · split
      · exact h.modThread.modThread
      · exact h.lvEnter

theorem Keeps.execRvwait {k : Fin 24} (h : Keeps s₀ s) : KeepsOut s₀ (execRvwait k s) := by
  unfold Machine.execRvwait
  refine h.unit (fun _ _ => ?_)
  split
  · split
    · exact h.lvLeave.issued.takeFault
    · exact h.lvLeave.retire
    · exact h.waitUnit
  · split
    · exact h.lvRoom h.retire.rvFollow
    · exact h.waitUnit.modThread.rvCount

theorem Keeps.execRvtest {p : PReg} {k : Fin 24} (h : Keeps s₀ s) :
    KeepsOut s₀ (execRvtest p k s) := h.unit (fun _ _ => h.lvShare (fun _ k1 => k1) (fun _ _ k2 => k2.retire))

theorem Keeps.rvwaitDone {u : ℕ} (h : Keeps s₀ s) : Keeps s₀ (rvwaitDone s u) := by
  unfold Machine.rvwaitDone
  split
  · exact h
  · split
    · exact h.complete.unsched.modThread.rvFollow
    · exact h

theorem Keeps.rvarrAgain {u : ℕ} (h : Keeps s₀ s) : Keeps s₀ (rvarrAgain s u) := by
  unfold Machine.rvarrAgain
  dsimp only
  split
  · exact h
  · split
    · exact Keeps.ite h.modThread h.modThread.arrive.modThread.lvOver
    · exact h.modThread

theorem Keeps.releasePoint {partn serial k : ℕ} (h : Keeps s₀ s) : Keeps s₀ (releasePoint s partn serial k) := by
  unfold Machine.releasePoint
  dsimp only
  split
  · exact ((h.modPoint.foldl (fun _ _ k1 => k1.modThread)).forEach (fun _ _ k2 => k2.rvwaitDone)).forEach (fun _ _ k3 =>
        k3.modThread)
  · exact h.modPoint.foldl (fun _ _ k1 => k1.modThread)

theorem Keeps.execRendezvousRelease (h : Keeps s₀ s) : KeepsOut s₀ (execRendezvousRelease s) := by
  unfold Machine.execRendezvousRelease
  refine h.actRow (fun _ _ k1 => ?_)
  split
  · exact k1.releasePoint.some
  · exact KeepsOpt.none

theorem Keeps.rvTimeout {u : ℕ} {th : Thread} {k : ℕ} (h : Keeps s₀ s) : Keeps s₀ (rvTimeout s u th k) := by
  unfold Machine.rvTimeout
  dsimp only
  split
  · exact h.takeFault
  · split
    · exact h.takeFault
    · split
      · exact h.takeFault.takeFault
      · exact h.takeFault.modThread.modThread

theorem Keeps.execRendezvousTimeout (h : Keeps s₀ s) : KeepsOut s₀ (execRendezvousTimeout s) := by
  unfold Machine.execRendezvousTimeout
  refine h.actRow (fun _ _ k1 => ?_)
  split
  · split
    · exact k1.some
    · split
      · exact KeepsOpt.ite k1.rvTimeout.some k1.some
      · exact k1.some
  · exact KeepsOpt.none

/-! ### What the functions of Fabric.lean keep -/

theorem Keeps.execDist {d a : SReg} {k : Fin 6} (h : Keeps s₀ s) :
    KeepsOut s₀ (execDist d a k s) := h.unit (fun _ _ => Keeps.ite h.raise (Keeps.ite h.raise h.retire))

theorem Keeps.pointerAdd {rd : List SReg} {d a : SReg} {v : Thread → ℤ} (h : Keeps s₀ s) :
    KeepsOut s₀ (pointerAdd s rd d a v) := by
  unfold Machine.pointerAdd
  refine h.unit (fun _ _ => ?_)
  split
  · exact h.raise
  · exact h.retire

theorem Keeps.execPadd {d a b : SReg} (h : Keeps s₀ s) : KeepsOut s₀ (execPadd d a b s) := h.pointerAdd

theorem Keeps.execPaddi {d a : SReg} {imm : ℤ} (h : Keeps s₀ s) : KeepsOut s₀ (execPaddi d a imm s) := h.pointerAdd

theorem Keeps.execPmk {d a b : SReg} (h : Keeps s₀ s) :
    KeepsOut s₀ (execPmk d a b s) := h.unit (fun _ _ => Keeps.ite h.raise h.retire)

theorem Keeps.execPfld {d a : SReg} {f : Fin 4} (h : Keeps s₀ s) :
    KeepsOut s₀ (execPfld d a f s) := h.unit (fun _ _ => h.retire)

theorem Keeps.execPfix {d a : SReg} (h : Keeps s₀ s) : KeepsOut s₀ (execPfix d a s) := by
  unfold Machine.execPfix
  refine h.unit (fun _ _ => ?_)
  dsimp only
  split
  · exact h.raise
  · split
    · exact h.lvShare (fun _ k1 => k1) (fun _ _ k2 => k2.retire)
    · split
      · exact h.raise
      · exact h.lvRoom (h.metered (fun _ k1 => k1.startFlight))

theorem Keeps.startLeap {c : Cur} {th : Thread} {p : Ptr} {dst ch : ℕ} {acc : Option LeapAcc} (h : Keeps s₀ s) :
    Keeps s₀ (startLeap s c th p dst ch acc) := h.issued.modThread.modTile.sched

theorem Keeps.execLeap {a : SReg} (h : Keeps s₀ s) : KeepsOut s₀ (execLeap a s) := by
  unfold Machine.execLeap
  refine h.unit (fun _ _ => ?_)
  dsimp only
  split
  · exact h.raise
  · split
    · exact h.raise
    · exact Keeps.ite h.raise (Keeps.ite h.retire (h.metered (fun _ k1 => k1.startLeap)))

theorem Keeps.landLeap {m : LeapMsg} {slot : ℕ} (h : Keeps s₀ s) : Keeps s₀ (landLeap s m slot) := by
  unfold Machine.landLeap
  dsimp only
  split
  · split
    · split
      · exact Keeps.ite h.modThread.schedAt.modThread.recheck h.modThread.schedAt.modThread.recheck.rvCount
      · exact h.modThread.schedAt.modThread.recheck
    · exact h.modThread.schedAt.modThread.recheck
  · split
    · exact h.modThread.schedAt.modThread
    · exact h.modThread.schedAt.freshId.modThread.sendNext

theorem Keeps.slotFreed {tile : ℕ} (h : Keeps s₀ s) : Keeps s₀ (slotFreed s tile) := by
  unfold Machine.slotFreed
  split
  · exact h.modTile.landLeap
  · exact h

theorem Keeps.leapArrives {m : LeapMsg} (h : Keeps s₀ s) : Keeps s₀ (leapArrives s m) := by
  unfold Machine.leapArrives
  split
  · exact h
  · dsimp only
    split
    · exact h.schedAt
    · split
      · exact h.landLeap
      · exact Keeps.ite h.modTile.modThread h.schedAt

theorem Keeps.leapFails {m : LeapMsg} {reason : ℕ} (h : Keeps s₀ s) : Keeps s₀ (leapFails s m reason) := by
  unfold Machine.leapFails
  exact h.modTile.modThread.takeFault

theorem Keeps.leapReturns {m : LeapMsg} (h : Keeps s₀ s) : Keeps s₀ (leapReturns s m) := by
  unfold Machine.leapReturns
  split
  · exact h
  · exact Keeps.ite h.schedAt (Keeps.ite h.leapFails (Keeps.ite h.leapFails h.schedAt))

theorem Keeps.leapSent {m : LeapMsg} (h : Keeps s₀ s) : Keeps s₀ (leapSent s m) := h.sched

theorem Keeps.execLeapArrival (h : Keeps s₀ s) : KeepsOut s₀ (execLeapArrival s) := by
  unfold Machine.execLeapArrival
  refine h.actRow (fun _ _ k1 => ?_)
  split
  · exact k1.leapArrives.some
  · exact KeepsOpt.none

theorem Keeps.execLeapBounce (h : Keeps s₀ s) : KeepsOut s₀ (execLeapBounce s) := by
  unfold Machine.execLeapBounce
  refine h.actRow (fun _ _ k1 => ?_)
  split
  · exact k1.leapReturns.some
  · exact KeepsOpt.none

theorem Keeps.execLeapResend (h : Keeps s₀ s) : KeepsOut s₀ (execLeapResend s) := by
  unfold Machine.execLeapResend
  refine h.actRow (fun _ _ k1 => ?_)
  split
  · exact k1.leapSent.some
  · exact KeepsOpt.none

theorem Keeps.originFreed {tile slot : Nat} (h : Keeps s₀ s) : Keeps s₀ (originFreed s tile slot) :=
  h.modTile.withThreads (keysRise_mapValues _ _)

theorem Keeps.execArrivalAcknowledgement (h : Keeps s₀ s) : KeepsOut s₀ (execArrivalAcknowledgement s) := by
  unfold Machine.execArrivalAcknowledgement
  refine h.actRow (fun _ _ k1 => ?_)
  split
  · exact k1.originFreed.slotFreed.some
  · exact KeepsOpt.none

theorem Keeps.execRput {a b : SReg} (h : Keeps s₀ s) : KeepsOut s₀ (execRput a b s) := by
  unfold Machine.execRput
  refine h.unit (fun _ _ => ?_)
  dsimp only
  split
  · split
    · exact h.raise
    · split
      · exact h.raise
      · exact h.raise
      · exact h.gate (fun _ k1 => k1.metered (fun _ k2 => Keeps.ite k2.startFlight k2.startFlight.sched))
  · split
    · exact h.raise
    · split
      · exact h.raise
      · exact h.raise
      · exact h.gate (fun _ k1 => k1.metered (fun _ k2 => Keeps.ite k2.startFlight k2.startFlight.sched))

theorem Keeps.rputArrives {m : RputMsg} (h : Keeps s₀ s) : Keeps s₀ (rputArrives s m) := by
  unfold Machine.rputArrives
  dsimp only
  split
  · split
    · exact h
    · refine Keeps.schedAt ?_
      split
      · exact h.modThread.recheck.modThread.recheck
      · exact h.modThread.recheck
  · exact h.modTile.schedAt

theorem Keeps.execRputArrival (h : Keeps s₀ s) : KeepsOut s₀ (execRputArrival s) := by
  unfold Machine.execRputArrival
  refine h.actRow (fun _ _ k1 => ?_)
  split
  · exact k1.rputArrives.some
  · exact KeepsOpt.none

/-! ### What the functions of Memory.lean keep -/

theorem Keeps.fetchAccess {c : Cur} {th : Thread} {p : Ptr} {x : Scalar} {rx : Bool} (h : Keeps s₀ s) :
    Keeps s₀ (fetchAccess s c th p x rx) := Keeps.ite (h.lvRoom (h.metered (fun _ k1 => k1.startFlight))) (h.gate (fun _ k2 =>
        k2.metered (fun _ k3 => k3.startFlight)))

theorem Keeps.leapAccess {c : Cur} {th : Thread} {p : Ptr} {x : Scalar} (h : Keeps s₀ s) :
    Keeps s₀ (leapAccess s c th p x) := by
  unfold Machine.leapAccess
  split
  · exact Keeps.ite h.fetchAccess (Keeps.ite h.raise (h.metered (fun _ k1 => k1.startLeap)))
  · exact h.fetchAccess

theorem Keeps.scalarAccess {c : Cur} {th : Thread} {base : Word} {p : Option Ptr} {x : Scalar} {m : MemMode} (h : Keeps s₀ s) :
    Keeps s₀ (scalarAccess s c th base p x m) := by
  unfold Machine.scalarAccess
  split
  · exact h.raise
  · split
    · exact h.raise
    · split
      · exact h.raise
      · split
        · exact h.leapAccess
        · exact h.fetchAccess
        · exact h.fetchAccess

theorem Keeps.relaxedRoom {c : Cur} {th : Thread} {rx : Bool} {k : State} (h : Keeps s₀ s) (hk : Keeps s₀ k) :
    Keeps s₀ (relaxedRoom s c th rx k) := Keeps.ite h.parkUnit hk

theorem Keeps.loadUnit {t a : SReg} {disp : ℤ} {m : MemMode} {n : ℕ} {sx : Bool} (h : Keeps s₀ s) :
    KeepsOut s₀ (loadUnit s t a disp m n sx) := h.unit (fun _ _ => h.relaxedRoom
        (Keeps.ite h.scalarAccess.modThread h.scalarAccess))

theorem Keeps.storeUnit {t a : SReg} {disp : ℤ} {m : MemMode} {n : ℕ} (h : Keeps s₀ s) :
    KeepsOut s₀ (storeUnit s t a disp m n) := h.unit (fun _ _ => h.relaxedRoom h.scalarAccess)

theorem Keeps.execLdb {t a : SReg} {disp : ℤ} {m : MemMode} (h : Keeps s₀ s) : KeepsOut s₀ (execLdb t a disp m s) := h.loadUnit

theorem Keeps.execLdbu {t a : SReg} {disp : ℤ} {m : MemMode} (h : Keeps s₀ s) :
    KeepsOut s₀ (execLdbu t a disp m s) := h.loadUnit

theorem Keeps.execLdh {t a : SReg} {disp : ℤ} {m : MemMode} (h : Keeps s₀ s) : KeepsOut s₀ (execLdh t a disp m s) := h.loadUnit

theorem Keeps.execLdhu {t a : SReg} {disp : ℤ} {m : MemMode} (h : Keeps s₀ s) :
    KeepsOut s₀ (execLdhu t a disp m s) := h.loadUnit

theorem Keeps.execLdw {t a : SReg} {disp : ℤ} {m : MemMode} (h : Keeps s₀ s) : KeepsOut s₀ (execLdw t a disp m s) := h.loadUnit

theorem Keeps.execLdwu {t a : SReg} {disp : ℤ} {m : MemMode} (h : Keeps s₀ s) :
    KeepsOut s₀ (execLdwu t a disp m s) := h.loadUnit

theorem Keeps.execLdd {t a : SReg} {disp : ℤ} {m : MemMode} (h : Keeps s₀ s) : KeepsOut s₀ (execLdd t a disp m s) := h.loadUnit

theorem Keeps.execStb {t a : SReg} {disp : ℤ} {m : MemMode} (h : Keeps s₀ s) : KeepsOut s₀ (execStb t a disp m s) := h.storeUnit

theorem Keeps.execSth {t a : SReg} {disp : ℤ} {m : MemMode} (h : Keeps s₀ s) : KeepsOut s₀ (execSth t a disp m s) := h.storeUnit

theorem Keeps.execStw {t a : SReg} {disp : ℤ} {m : MemMode} (h : Keeps s₀ s) : KeepsOut s₀ (execStw t a disp m s) := h.storeUnit

theorem Keeps.execStd {t a : SReg} {disp : ℤ} {m : MemMode} (h : Keeps s₀ s) : KeepsOut s₀ (execStd t a disp m s) := h.storeUnit

theorem Keeps.syncLoadUnit {t a : SReg} {disp : ℤ} {lp : Bool} {op : AccOp} {wk pres : ℕ} (h : Keeps s₀ s) :
    KeepsOut s₀ (syncLoadUnit s t a disp lp op wk pres) := h.unit (fun _ _ => h.scalarAccess)

theorem Keeps.syncStoreUnit {t a : SReg} {disp : ℤ} {lp : Bool} {op : Word → AccOp} {pres : ℕ} (h : Keeps s₀ s) :
    KeepsOut s₀ (syncStoreUnit s t a disp lp op pres) := h.unit (fun _ _ => h.scalarAccess)

theorem Keeps.execTake {t a : SReg} {disp : ℤ} {lp : Bool} (h : Keeps s₀ s) :
    KeepsOut s₀ (execTake t a disp lp s) := h.syncLoadUnit

theorem Keeps.execPeek {t a : SReg} {disp : ℤ} {lp : Bool} (h : Keeps s₀ s) :
    KeepsOut s₀ (execPeek t a disp lp s) := h.syncLoadUnit

theorem Keeps.execGive {t a : SReg} {disp : ℤ} {lp : Bool} (h : Keeps s₀ s) :
    KeepsOut s₀ (execGive t a disp lp s) := h.syncStoreUnit

theorem Keeps.execPost {t a : SReg} {disp : ℤ} {lp : Bool} (h : Keeps s₀ s) :
    KeepsOut s₀ (execPost t a disp lp s) := h.syncStoreUnit

theorem Keeps.execVoid {a : SReg} {disp : ℤ} {lp : Bool} (h : Keeps s₀ s) :
    KeepsOut s₀ (execVoid a disp lp s) := h.unit (fun _ _ => h.scalarAccess)

theorem Keeps.execProbe {k : PReg} {a : SReg} {disp : ℤ} {lp : Bool} (h : Keeps s₀ s) :
    KeepsOut s₀ (execProbe k a disp lp s) := h.unit (fun _ _ => Keeps.ite h.scalarAccess.modThread h.scalarAccess)

theorem Keeps.amoUnit {d a b : SReg} {lp : Bool} {f : AmoOp} (h : Keeps s₀ s) :
    KeepsOut s₀ (amoUnit s d a b lp f) := h.unit (fun _ _ => h.scalarAccess)

theorem Keeps.execAmoadd {d a b : SReg} {lp : Bool} (h : Keeps s₀ s) : KeepsOut s₀ (execAmoadd d a b lp s) := h.amoUnit

theorem Keeps.execAmoand {d a b : SReg} {lp : Bool} (h : Keeps s₀ s) : KeepsOut s₀ (execAmoand d a b lp s) := h.amoUnit

theorem Keeps.execAmoor {d a b : SReg} {lp : Bool} (h : Keeps s₀ s) : KeepsOut s₀ (execAmoor d a b lp s) := h.amoUnit

theorem Keeps.execAmoxor {d a b : SReg} {lp : Bool} (h : Keeps s₀ s) : KeepsOut s₀ (execAmoxor d a b lp s) := h.amoUnit

theorem Keeps.execAmomin {d a b : SReg} {lp : Bool} (h : Keeps s₀ s) : KeepsOut s₀ (execAmomin d a b lp s) := h.amoUnit

theorem Keeps.execAmomax {d a b : SReg} {lp : Bool} (h : Keeps s₀ s) : KeepsOut s₀ (execAmomax d a b lp s) := h.amoUnit

theorem Keeps.execAmominu {d a b : SReg} {lp : Bool} (h : Keeps s₀ s) : KeepsOut s₀ (execAmominu d a b lp s) := h.amoUnit

theorem Keeps.execAmomaxu {d a b : SReg} {lp : Bool} (h : Keeps s₀ s) : KeepsOut s₀ (execAmomaxu d a b lp s) := h.amoUnit

theorem Keeps.execAmoswap {d a b : SReg} {lp : Bool} (h : Keeps s₀ s) : KeepsOut s₀ (execAmoswap d a b lp s) := h.amoUnit

theorem Keeps.execAmocas {d a b : SReg} {lp : Bool} (h : Keeps s₀ s) : KeepsOut s₀ (execAmocas d a b lp s) := h.amoUnit

theorem Keeps.barUnit {a b : SReg} {op : ℕ → AccOp} {pres : ℕ} (h : Keeps s₀ s) :
    KeepsOut s₀ (barUnit s a b op pres) := h.unit (fun _ _ => h.scalarAccess)

theorem Keeps.execBarini {a b : SReg} (h : Keeps s₀ s) : KeepsOut s₀ (execBarini a b s) := h.barUnit

theorem Keeps.execBarexp {a b : SReg} (h : Keeps s₀ s) : KeepsOut s₀ (execBarexp a b s) := h.barUnit

theorem Keeps.execBarwt {a b : SReg} (h : Keeps s₀ s) : KeepsOut s₀ (execBarwt a b s) := h.unit (fun _ _ => h.scalarAccess)

/-! ### What the functions of Vector.lean keep -/

theorem Keeps.claimed {rs : List VReg} {n : Need} {k : Cur → Thread → State} (h : Keeps s₀ s) (hk : ∀ x y, Keeps s₀ (k x y)) :
    KeepsOut s₀ (claimed s rs n k) := h.unitChecked (fun _ _ => KeepsOpt.map (fun _ => h.raise)) (fun _ _ => hk _ _)

theorem Keeps.vfinish {c : Cur} {th : Thread} {rs : List (ℕ × ℕ)} {lat : ℕ} {w : List ℕ → State → State} (h : Keeps s₀ s)
    (hw : ∀ x y, Keeps s₀ y → Keeps s₀ (w x y)) :
    Keeps s₀ (vfinish s c th rs lat w) := Keeps.ite h.raiseEnd (hw _ _ h).retire

theorem Keeps.laneUnit {d : VReg} {srcs : List VReg} {et : ElemTy} {q : VPfx} {lat : ℕ} {f : Thread → (ℕ → ℕ → ℕ) → ℕ → ℕ × ℕ}
    (h : Keeps s₀ s) :
    KeepsOut s₀ (laneUnit s d srcs et q lat f) := h.claimed (fun _ _ => h.vfinish (fun _ _ k1 => k1.vset))

theorem Keeps.arith2 {d a b : VReg} {et : ElemTy} {q : VPfx} {lat : ℕ} {ff : Rnd → FV → FV → Ex} {fi : ℕ → ℕ → ℕ × ℕ}
    (h : Keeps s₀ s) :
    KeepsOut s₀ (arith2 s d a b et q lat ff fi) := h.laneUnit

theorem Keeps.execVadd {d a b : VReg} {et : ElemTy} {q : VPfx} (h : Keeps s₀ s) :
    KeepsOut s₀ (execVadd d a b et q s) := h.arith2

theorem Keeps.execVsub {d a b : VReg} {et : ElemTy} {q : VPfx} (h : Keeps s₀ s) :
    KeepsOut s₀ (execVsub d a b et q s) := h.arith2

theorem Keeps.execVmul {d a b : VReg} {et : ElemTy} {q : VPfx} (h : Keeps s₀ s) :
    KeepsOut s₀ (execVmul d a b et q s) := h.arith2

theorem Keeps.execVmin {d a b : VReg} {et : ElemTy} {q : VPfx} (h : Keeps s₀ s) :
    KeepsOut s₀ (execVmin d a b et q s) := h.laneUnit

theorem Keeps.execVmax {d a b : VReg} {et : ElemTy} {q : VPfx} (h : Keeps s₀ s) :
    KeepsOut s₀ (execVmax d a b et q s) := h.laneUnit

theorem Keeps.fmaUnit {d a b : VReg} {et : ElemTy} {q : VPfx} {minus : Bool} (h : Keeps s₀ s) :
    KeepsOut s₀ (fmaUnit s d a b et q minus) := by
  unfold Machine.fmaUnit
  exact h.laneUnit

theorem Keeps.execVfma {d a b : VReg} {et : ElemTy} {q : VPfx} (h : Keeps s₀ s) :
    KeepsOut s₀ (execVfma d a b et q s) := h.fmaUnit

theorem Keeps.execVfms {d a b : VReg} {et : ElemTy} {q : VPfx} (h : Keeps s₀ s) :
    KeepsOut s₀ (execVfms d a b et q s) := h.fmaUnit

theorem Keeps.execVdiv {d a b : VReg} {et : ElemTy} {q : VPfx} (h : Keeps s₀ s) :
    KeepsOut s₀ (execVdiv d a b et q s) := h.arith2

theorem Keeps.execVabs {d a : VReg} {et : ElemTy} {q : VPfx} (h : Keeps s₀ s) : KeepsOut s₀ (execVabs d a et q s) := h.laneUnit

theorem Keeps.execVneg {d a : VReg} {et : ElemTy} {q : VPfx} (h : Keeps s₀ s) : KeepsOut s₀ (execVneg d a et q s) := h.laneUnit

theorem Keeps.execVmulh {d a b : VReg} {et : ElemTy} {q : VPfx} (h : Keeps s₀ s) :
    KeepsOut s₀ (execVmulh d a b et q s) := h.laneUnit

theorem Keeps.bitUnit {d a b : VReg} {et : ElemTy} {q : VPfx} {f : ℕ → ℕ → ℕ} (h : Keeps s₀ s) :
    KeepsOut s₀ (bitUnit s d a b et q f) := h.laneUnit

theorem Keeps.execVand {d a b : VReg} {et : ElemTy} {q : VPfx} (h : Keeps s₀ s) :
    KeepsOut s₀ (execVand d a b et q s) := h.bitUnit

theorem Keeps.execVor {d a b : VReg} {et : ElemTy} {q : VPfx} (h : Keeps s₀ s) : KeepsOut s₀ (execVor d a b et q s) := h.bitUnit

theorem Keeps.execVxor {d a b : VReg} {et : ElemTy} {q : VPfx} (h : Keeps s₀ s) :
    KeepsOut s₀ (execVxor d a b et q s) := h.bitUnit

theorem Keeps.execVandn {d a b : VReg} {et : ElemTy} {q : VPfx} (h : Keeps s₀ s) :
    KeepsOut s₀ (execVandn d a b et q s) := h.bitUnit

theorem Keeps.execVshl {d a b : VReg} {et : ElemTy} {q : VPfx} (h : Keeps s₀ s) :
    KeepsOut s₀ (execVshl d a b et q s) := h.bitUnit

theorem Keeps.execVshr {d a b : VReg} {et : ElemTy} {q : VPfx} (h : Keeps s₀ s) :
    KeepsOut s₀ (execVshr d a b et q s) := h.bitUnit

theorem Keeps.execVsra {d a b : VReg} {et : ElemTy} {q : VPfx} (h : Keeps s₀ s) :
    KeepsOut s₀ (execVsra d a b et q s) := h.bitUnit

theorem Keeps.execVcmp {m : MReg} {cc : Cond} {a b : VReg} {et : ElemTy} {q : VPfx} (h : Keeps s₀ s) :
    KeepsOut s₀ (execVcmp m cc a b et q s) := h.claimed (fun _ _ => h.vfinish (fun _ _ k1 => k1.modThread))

theorem Keeps.specialUnit {d a : VReg} {et : ElemTy} {q : VPfx} {f : Thread → FV → ℕ → ℕ × ℕ} (h : Keeps s₀ s) :
    KeepsOut s₀ (specialUnit s d a et q f) := h.laneUnit

theorem Keeps.execVsqrt {d a : VReg} {et : ElemTy} {q : VPfx} (h : Keeps s₀ s) :
    KeepsOut s₀ (execVsqrt d a et q s) := h.specialUnit

theorem Keeps.execVrcp {d a : VReg} {et : ElemTy} {q : VPfx} (h : Keeps s₀ s) :
    KeepsOut s₀ (execVrcp d a et q s) := h.specialUnit

theorem Keeps.execVrsqrt {d a : VReg} {et : ElemTy} {q : VPfx} (h : Keeps s₀ s) :
    KeepsOut s₀ (execVrsqrt d a et q s) := h.specialUnit

theorem Keeps.execVexp2 {d a : VReg} {et : ElemTy} {q : VPfx} (h : Keeps s₀ s) :
    KeepsOut s₀ (execVexp2 d a et q s) := h.specialUnit

theorem Keeps.execVlog2 {d a : VReg} {et : ElemTy} {q : VPfx} (h : Keeps s₀ s) :
    KeepsOut s₀ (execVlog2 d a et q s) := h.specialUnit

theorem Keeps.execVtanh {d a : VReg} {et : ElemTy} {q : VPfx} (h : Keeps s₀ s) :
    KeepsOut s₀ (execVtanh d a et q s) := h.specialUnit

theorem Keeps.execVcvt {d a : VReg} {dt st : ElemTy} {q : VPfx} (h : Keeps s₀ s) :
    KeepsOut s₀ (execVcvt d a dt st q s) := h.claimed (fun _ _ => h.vfinish (fun _ _ k1 => k1.vset))

theorem Keeps.execVperm {d a b : VReg} {et : ElemTy} {q : VPfx} (h : Keeps s₀ s) :
    KeepsOut s₀ (execVperm d a b et q s) := h.laneUnit

theorem Keeps.laneScalar {d : VReg} {srcs : List VReg} {rs : List SReg} {et : ElemTy} {q : VPfx} {f : Thread →
    (ℕ → ℕ → ℕ) → ℕ → ℕ × ℕ} (h : Keeps s₀ s) :
    KeepsOut s₀ (laneScalar s d srcs rs et q f) := h.claimed (fun _ _ => h.vfinish (fun _ _ k1 => k1.vset))

theorem Keeps.execVslide {d a : VReg} {b : SReg} {et : ElemTy} {q : VPfx} (h : Keeps s₀ s) :
    KeepsOut s₀ (execVslide d a b et q s) := h.laneScalar

theorem Keeps.execVbcast {d : VReg} {a : SReg} {et : ElemTy} {q : VPfx} (h : Keeps s₀ s) :
    KeepsOut s₀ (execVbcast d a et q s) := h.laneScalar

theorem Keeps.execVextr {d : SReg} {a : VReg} {b : SReg} {et : ElemTy} {q : VPfx} (h : Keeps s₀ s) :
    KeepsOut s₀ (execVextr d a b et q s) := h.claimed (fun _ _ => h.retire)

theorem Keeps.execVins {d : VReg} {a b : SReg} {et : ElemTy} {q : VPfx} (h : Keeps s₀ s) :
    KeepsOut s₀ (execVins d a b et q s) := h.claimed (fun _ _ => h.vset.retire)

theorem Keeps.redUnit {d a : VReg} {et : ElemTy} {q : VPfx} {kind : ℕ} {op : Thread → ℕ → ℕ → ℕ × ℕ} (h : Keeps s₀ s) :
    KeepsOut s₀ (redUnit s d a et q kind op) := h.claimed (fun _ _ => h.vfinish (fun _ _ k1 => k1.vset))

theorem Keeps.execVredsum {d a : VReg} {et : ElemTy} {q : VPfx} (h : Keeps s₀ s) :
    KeepsOut s₀ (execVredsum d a et q s) := h.redUnit

theorem Keeps.execVredmax {d a : VReg} {et : ElemTy} {q : VPfx} (h : Keeps s₀ s) :
    KeepsOut s₀ (execVredmax d a et q s) := h.redUnit

theorem Keeps.execVredmin {d a : VReg} {et : ElemTy} {q : VPfx} (h : Keeps s₀ s) :
    KeepsOut s₀ (execVredmin d a et q s) := h.redUnit

theorem Keeps.maskUnit {d : MReg} {ms : List MReg} {rs : List SReg} {q : VPfx} {f : Thread → Word} (h : Keeps s₀ s) :
    KeepsOut s₀ (maskUnit s d ms rs q f) := h.unit (fun _ _ => h.retire)

theorem Keeps.execMand {d a b : MReg} {q : VPfx} (h : Keeps s₀ s) : KeepsOut s₀ (execMand d a b q s) := h.maskUnit

theorem Keeps.execMor {d a b : MReg} {q : VPfx} (h : Keeps s₀ s) : KeepsOut s₀ (execMor d a b q s) := h.maskUnit

theorem Keeps.execMxor {d a b : MReg} {q : VPfx} (h : Keeps s₀ s) : KeepsOut s₀ (execMxor d a b q s) := h.maskUnit

theorem Keeps.execMnot {d a : MReg} {q : VPfx} (h : Keeps s₀ s) : KeepsOut s₀ (execMnot d a q s) := h.maskUnit

theorem Keeps.execMset {d : MReg} {a : SReg} {q : VPfx} (h : Keeps s₀ s) : KeepsOut s₀ (execMset d a q s) := h.maskUnit

theorem Keeps.maskRead {d : SReg} {a : MReg} {q : VPfx} {f : Word → ℕ} (h : Keeps s₀ s) :
    KeepsOut s₀ (maskRead s d a q f) := h.unit (fun _ _ => h.retire)

theorem Keeps.execMpop {d : SReg} {a : MReg} {q : VPfx} (h : Keeps s₀ s) : KeepsOut s₀ (execMpop d a q s) := h.maskRead

theorem Keeps.execMfirst {d : SReg} {a : MReg} {q : VPfx} (h : Keeps s₀ s) : KeepsOut s₀ (execMfirst d a q s) := h.maskRead

theorem Keeps.execMget {d : SReg} {a : MReg} {q : VPfx} (h : Keeps s₀ s) : KeepsOut s₀ (execMget d a q s) := h.maskRead

/-! ### What the functions of VecMem.lean keep -/

theorem Keeps.vecAccess {c : Cur} {th : Thread} {base : Word} {x : VAcc} {ps : Parts} {reqs : List PartReq} {ch : ℕ}
    {empty : State} {sent : Thread → State → State} (h : Keeps s₀ s) (hempty : Keeps s₀ empty)
    (hsent : ∀ x y, Keeps s₀ y → Keeps s₀ (sent x y)) :
    Keeps s₀ (vecAccess s c th base x ps reqs ch empty sent) := by
  unfold Machine.vecAccess
  dsimp only
  split
  · exact h.raise
  · split
    · exact h.raise
    · split
      · exact h.raise
      · split
        · exact h.raise
        · split
          · exact h.raise
          · exact Keeps.ite hempty (Keeps.ite (h.lvRoom (h.metered (fun _ k1 => hsent _ _ k1.startFlight))) (h.gate (fun _ k2 =>
                k2.metered (fun _ k3 => hsent _ _ k3.startFlight))))

theorem Keeps.vpolicy {th : Thread} {t : VReg} {w pw first : ℕ} {q : VPfx} (h : Keeps s₀ s) :
    Keeps s₀ (vpolicy s th t w pw first q) := h.vset

theorem Keeps.emptied {rx : Bool} {t : VReg} {th : Thread} {s' : State} (_h : Keeps s₀ s) (hs' : Keeps s₀ s') :
    Keeps s₀ (emptied rx t s th s') := Keeps.ite hs'.vmark hs'

theorem Keeps.lineUnit {t : VReg} {a : SReg} {et : ElemTy} {rx : Bool} {q : VPfx} {load : Bool} (h : Keeps s₀ s) :
    KeepsOut s₀ (lineUnit s t a et rx q load) := h.claimed (fun _ _ => h.relaxedRoom (Keeps.ite (Keeps.ite h.raise
        (Keeps.ite h.raise h.raise)) (h.vecAccess (Keeps.ite h.vpolicy h).retire (fun _ _ k1 => Keeps.ite (h.emptied k1) k1))))

theorem Keeps.execVld {t : VReg} {a : SReg} {et : ElemTy} {rx : Bool} {q : VPfx} (h : Keeps s₀ s) :
    KeepsOut s₀ (execVld t a et rx q s) := h.lineUnit

theorem Keeps.execVst {t : VReg} {a : SReg} {et : ElemTy} {rx : Bool} {q : VPfx} (h : Keeps s₀ s) :
    KeepsOut s₀ (execVst t a et rx q s) := h.lineUnit

theorem Keeps.elemUnit {rs : List VReg} {t : VReg} {srs : List SReg} {a : SReg} {w : ℕ} {rx : Bool} {q : VPfx} {kind : ℕ}
    {et : ElemTy} {ptr : State → Thread → ℕ → Option Ptr} (h : Keeps s₀ s) :
    KeepsOut s₀ (elemUnit s rs t srs a w rx q kind et ptr) := h.claimed (fun _ _ => h.relaxedRoom (h.vecAccess
        (Keeps.ite h.vpolicy h).retire (fun _ _ k1 => Keeps.ite (h.emptied k1) k1)))

theorem Keeps.execVlds {t : VReg} {w : Fin 4} {a b : SReg} {rx : Bool} {q : VPfx} (h : Keeps s₀ s) :
    KeepsOut s₀ (execVlds t w a b rx q s) := h.elemUnit

theorem Keeps.execVsts {t : VReg} {w : Fin 4} {a b : SReg} {rx : Bool} {q : VPfx} (h : Keeps s₀ s) :
    KeepsOut s₀ (execVsts t w a b rx q s) := h.elemUnit

theorem Keeps.execVldx {t i : VReg} {a : SReg} {et : ElemTy} {rx : Bool} {q : VPfx} (h : Keeps s₀ s) :
    KeepsOut s₀ (execVldx t i a et rx q s) := KeepsOut.ite (h.claimed (fun _ _ => h.raise)) h.elemUnit

theorem Keeps.execVstx {t i : VReg} {a : SReg} {et : ElemTy} {rx : Bool} {q : VPfx} (h : Keeps s₀ s) :
    KeepsOut s₀ (execVstx t i a et rx q s) := h.elemUnit

theorem Keeps.execVstxa {t i : VReg} {a : SReg} {et : ElemTy} {rx : Bool} {q : VPfx} (h : Keeps s₀ s) :
    KeepsOut s₀ (execVstxa t i a et rx q s) := h.elemUnit

theorem Keeps.aputWords {th : Thread} {t : VReg} {o : Nat} {q : VPfx} (h : Keeps s₀ s) : Keeps s₀ (aputWords s th t o q) := by
  refine h.withAcc fun hm => wf_foldl _ _ (fun m w hw => ?_) _ hm.2
  split
  · exact wf_memPutWord m _ _ hw
  · exact hw

theorem Keeps.accMove {u : ℕ} {th : Thread} {put : Bool} {t : VReg} {o : ℕ} {q : VPfx} {npc : Ptr} {ready : ℕ}
    (h : Keeps s₀ s) :
    Keeps s₀ (accMove s u th put t o q npc ready) := Keeps.ite (Keeps.ite h h.aputWords).modThread h.vset.lvEnter.modThread

theorem Keeps.accUnit {t : VReg} {a : SReg} {q : VPfx} {put : Bool} (h : Keeps s₀ s) : KeepsOut s₀ (accUnit s t a q put) := by
  unfold Machine.accUnit
  dsimp only
  refine h.claimed (fun _ _ => ?_)
  split
  · exact h.raise
  · split
    · exact h.raise
    · split
      · refine h.gate (fun _ k1 => ?_)
        split
        · exact k1.retire
        · split
          · exact k1.issued.accMove
          · exact k1.waitUnit
      · split
        · exact h.lvShare (fun _ k1 => k1) (fun _ _ k2 => k2.vset.retire)
        · refine h.lvRoom ?_
          split
          · exact h.issued.accMove
          · exact h.waitUnit

theorem Keeps.execAmov {t : VReg} {a : SReg} {q : VPfx} (h : Keeps s₀ s) : KeepsOut s₀ (execAmov t a q s) := h.accUnit

theorem Keeps.execAput {t : VReg} {a : SReg} {q : VPfx} (h : Keeps s₀ s) : KeepsOut s₀ (execAput t a q s) := h.accUnit

theorem Keeps.accJoin {jid : ℕ} (h : Keeps s₀ s) : Keeps s₀ (accJoin s jid) := by
  unfold Machine.accJoin
  refine h.forEach (fun _ _ k1 => ?_)
  split
  · exact k1
  · split
    · exact Keeps.ite k1.accMove k1.modThread
    · exact k1

/-! ### What the functions of Engine.lean keep -/

theorem Keeps.engWord {j : Job} {reason : ℕ} {p : Ptr} (h : Keeps s₀ s) : Keeps s₀ (engWord s j reason p).1 := by
  unfold Machine.engWord
  split
  · rename_i e1
    exact h.hwKey.of_fst e1
  · rename_i e1
    dsimp only
    exact Keeps.ite_fst (h.hwKey.of_fst e1) (h.hwKey.of_fst e1)

theorem Keeps.engBytes {j : Job} {reason : ℕ} {p : Ptr} {n : ℕ} (h : Keeps s₀ s) : Keeps s₀ (engBytes s j reason p n).1 := by
  unfold Machine.engBytes
  split
  · rename_i e1
    exact h.engWord.of_fst e1
  · rename_i e1
    exact h.engWord.of_fst e1

theorem Keeps.engAt {j : Job} {reason : ℕ} {base : Ptr} {d : ℤ} {n : ℕ} (h : Keeps s₀ s) :
    Keeps s₀ (engAt s j reason base d n).1 := by
  unfold Machine.engAt
  split
  · exact h
  · exact h.engBytes

theorem Keeps.engRecord {j : Job} {reason : ℕ} {p : Ptr} (h : Keeps s₀ s) : Keeps s₀ (engRecord s j reason p).1 := by
  unfold Machine.engRecord
  obtain ⟨engAt', e_engAt, k_engAt⟩ : ∃ g, g = Machine.engAt ∧ ∀ s x1 x2 x3 x4 x5, Keeps s₀ s → Keeps s₀
      (g s x1 x2 x3 x4 x5).1 :=
    ⟨_, rfl, fun _ _ _ _ _ _ k => k.engAt⟩
  rw [← e_engAt]
  refine h.foldl_fst (fun _ _ k1 => ?_)
  split
  · exact k1
  · split
    · rename_i e1
      exact (k_engAt _ _ _ _ _ _ k1).of_fst e1
    · rename_i e1
      exact (k_engAt _ _ _ _ _ _ k1).of_fst e1

theorem Keeps.engMap {α β : Type} {f : State → α → State × (JobEv ⊕ β)} {l : List α} (h : Keeps s₀ s)
    (hf : ∀ x, Keeps s₀ x → ∀ y, Keeps s₀ (f x y).1) :
    Keeps s₀ (engMap f l s).1 := by
  unfold Machine.engMap
  dsimp only
  refine h.foldl_fst (fun _ _ k1 => ?_)
  split
  · exact k1
  · split
    · rename_i e1
      exact (hf _ k1 _).of_fst e1
    · rename_i e1
      exact (hf _ k1 _).of_fst e1

theorem Keeps.peerDeliver {reason : ℕ} {p : Ptr} {m : OutMsg} (h : Keeps s₀ s) :
    Keeps s₀ (peerDeliver s reason p m).1 := h.also.freshFree

theorem Keeps.deliverWord {j : Job} {reason : ℕ} {d : Deliv} (h : Keeps s₀ s) : Keeps s₀ (deliverWord s j reason d).1 := by
  unfold Machine.deliverWord
  split
  · exact h
  · exact h.peerDeliver
  · exact h.peerDeliver
  · split
    · rename_i e1
      exact h.hwKey.of_fst e1
    · rename_i e1
      dsimp only
      split
      · exact Keeps.ite_fst (h.hwKey.of_fst e1) (h.hwKey.of_fst e1).writeWord
      · exact Keeps.ite_fst (h.hwKey.of_fst e1) (h.hwKey.of_fst e1).writeWord
      · exact (h.hwKey.of_fst e1).writeWord

theorem Keeps.accClear {tile : Nat} {l : List (Nat × Nat)} (h : Keeps s₀ s) : Keeps s₀ (accClear tile l s) :=
  h.withAcc fun hm => wf_foldl l _ (fun m _ hw => wf_memWrite m _ _ _ hw) _ hm.2

theorem Keeps.deliverOne {j : Job} {reason : ℕ} {a : Delivered} {d : Deliv} (ha : Keeps s₀ a.st) :
    Keeps s₀ (deliverOne j reason a d).st := by
  unfold Machine.deliverOne
  split
  · exact ha
  · dsimp only
    split
    · rename_i e1
      exact ha.deliverWord.of_fst e1
    · rename_i e1
      exact (ha.deliverWord.of_fst e1).accClear

theorem Keeps.deliverElem {j : Job} {reason : ℕ} {skip : Bool} {a : Delivered} {ds : List Deliv} (h : Keeps s₀ a.st) :
    Keeps s₀ (deliverElem j reason skip a ds).st := by
  unfold Machine.deliverElem
  split
  · exact h
  · split
    · exact h.also
    · exact h.foldl_st fun _ _ k => k.deliverOne

theorem Keeps.deliverAll {j : Job} {reason : ℕ} {skip : Bool} {l : List Deliv} (h : Keeps s₀ s) :
    Keeps s₀ (deliverAll j reason skip l s).st := Keeps.foldl_st h fun _ _ k => k.deliverElem

theorem Keeps.barAdd {j : Job} {n : ℕ} (h : Keeps s₀ s) : Keeps s₀ (barAdd s j n).1 := by
  unfold Machine.barAdd
  split
  · exact h
  · split
    · rename_i e1
      exact h.hwKey.of_fst e1
    · rename_i e1
      exact Keeps.ite_fst (h.hwKey.of_fst e1) (h.hwKey.of_fst e1).writeWord

theorem Keeps.postPage {j : Job} {src : ℕ} {pg : Ptr × ℕ × Bool} (h : Keeps s₀ s) :
    Keeps s₀ (postPage s j src pg) := Keeps.ite h.postSup.postHost h.postSup

theorem Keeps.jobEvent {j : Job} {src : ℕ} {e : Option JobEv} (h : Keeps s₀ s) : Keeps s₀ (jobEvent s j src e) := by
  unfold Machine.jobEvent
  split
  · exact h
  · dsimp only
    split
    · refine Keeps.fenceRect ?_
      split
      · exact h.postPage
      · exact h
    · split
      · exact h.postPage
      · exact h

theorem Keeps.schedStatus {cycle src : ℕ} {j : Job} {w : Word} (h : Keeps s₀ s) :
    Keeps s₀ (schedStatus s cycle src j w) := h.sched

theorem Keeps.landSaved {u : ℕ} {j : Job} {w : Word} (h : Keeps s₀ s) : Keeps s₀ (landSaved s u j w) := h.modPart

theorem Keeps.landStatus {u : ℕ} {j : Job} {w : Word} (h : Keeps s₀ s) : Keeps s₀ (landStatus s u j w) := by
  unfold Machine.landStatus
  split
  · exact h.landSaved
  · dsimp only
    split
    · exact Keeps.ite h.modThread.modThread h.modThread
    · exact h.modThread.recheck

theorem Keeps.landLv {u : ℕ} {j : Job} {w : Word} (h : Keeps s₀ s) : Keeps s₀ (landLv s u j w) := h.modThread

theorem Keeps.statusArrives {j : Job} {w : Word} (h : Keeps s₀ s) : Keeps s₀ (statusArrives s j w) := by
  unfold Machine.statusArrives
  dsimp only
  split
  · exact h.landStatus
  · exact h.landStatus.landLv.landStatus

theorem Keeps.enterQueue {j : Job} {q : ℕ} (h : Keeps s₀ s) : Keeps s₀ (enterQueue s j q) := by
  unfold Machine.enterQueue
  dsimp only
  split
  · exact h.modMxe
  · exact h.modCu
  · exact h.modPart

theorem Keeps.unparkPush {q : ℕ} {mine : Job → Bool} (h : Keeps s₀ s) : Keeps s₀ (unparkPush s q mine) := by
  unfold Machine.unparkPush
  split
  · exact h
  · exact h.enterQueue.modThread

theorem Keeps.takeHead {cl ci : ℕ} {cu : Bool} (h : Keeps s₀ s) :
    Keeps s₀ (takeHead s cl ci cu) := (Keeps.ite h.modCu h.modMxe).unparkPush

/-! ### What the functions of Matrix.lean keep -/

theorem Keeps.setCtx {cl ci : ℕ} {f : MxCtx → MxCtx} (h : Keeps s₀ s) : Keeps s₀ (setCtx s cl ci f) := h.modMxe

theorem Keeps.blockedAt {j : Job} {reason : ℕ} {base : Ptr} {f d : ℕ} {bscale : Ptr} (h : Keeps s₀ s) :
    Keeps s₀ (blockedAt s j reason base f d bscale).1 := by
  obtain ⟨body, hb⟩ : ∃ g, g = @Machine.blockedAt := ⟨_, rfl⟩
  obtain ⟨p, hp⟩ : ∃ p, p = body s j reason base f d bscale := ⟨_, rfl⟩
  rw [← hb, ← hp]
  delta Machine.blockedAt at hb
  obtain ⟨engAt', e_engAt, k_engAt⟩ : ∃ g, g = Machine.engAt ∧ ∀ s x1 x2 x3 x4 x5, Keeps s₀ s → Keeps s₀
      (g s x1 x2 x3 x4 x5).1 :=
    ⟨_, rfl, fun _ _ _ _ _ _ k => k.engAt⟩
  rw [← e_engAt] at hb
  rw [hb] at hp
  dsimp only at hp
  split at hp
  · rename_i e1
    subst hp
    exact (k_engAt _ _ _ _ _ _ h).of_fst e1
  · rename_i e1
    split at hp
    · rename_i e2
      subst hp
      exact (k_engAt _ _ _ _ _ _ ((k_engAt _ _ _ _ _ _ h).of_fst e1)).of_fst e2
    · rename_i e2
      subst hp
      exact (k_engAt _ _ _ _ _ _ ((k_engAt _ _ _ _ _ _ h).of_fst e1)).of_fst e2

theorem Keeps.denseAt {j : Job} {reason : ℕ} {base : Ptr} {f d : ℕ} (h : Keeps s₀ s) :
    Keeps s₀ (denseAt s j reason base f d).1 := by
  obtain ⟨body, hb⟩ : ∃ g, g = @Machine.denseAt := ⟨_, rfl⟩
  obtain ⟨p, hp⟩ : ∃ p, p = body s j reason base f d := ⟨_, rfl⟩
  rw [← hb, ← hp]
  delta Machine.denseAt at hb
  obtain ⟨engAt', e_engAt, k_engAt⟩ : ∃ g, g = Machine.engAt ∧ ∀ s x1 x2 x3 x4 x5, Keeps s₀ s → Keeps s₀
      (g s x1 x2 x3 x4 x5).1 :=
    ⟨_, rfl, fun _ _ _ _ _ _ k => k.engAt⟩
  rw [← e_engAt] at hb
  rw [hb] at hp
  dsimp only at hp
  split at hp
  · rename_i e1
    subst hp
    exact (k_engAt _ _ _ _ _ _ h).of_fst e1
  · rename_i e1
    subst hp
    exact (k_engAt _ _ _ _ _ _ h).of_fst e1

theorem Keeps.elemA {j : Job} {m : Mma} {i k : ℕ} (h : Keeps s₀ s) : Keeps s₀ (elemA s j m i k).1 := by
  unfold Machine.elemA
  split
  · dsimp only
    split
    · exact h
    · exact h.denseAt
  · exact Keeps.ite_fst h.blockedAt h.denseAt

theorem Keeps.bpiAt {j : Job} {m : Mma} {k col : ℕ} (h : Keeps s₀ s) : Keeps s₀ (bpiAt s j m k col).1 := by
  unfold Machine.bpiAt
  obtain ⟨engAt', e_engAt, k_engAt⟩ : ∃ g, g = Machine.engAt ∧ ∀ s x1 x2 x3 x4 x5, Keeps s₀ s → Keeps s₀
      (g s x1 x2 x3 x4 x5).1 :=
    ⟨_, rfl, fun _ _ _ _ _ _ k => k.engAt⟩
  rw [← e_engAt]
  dsimp only
  split
  · dsimp only
    exact h.engMap (fun _ k1 _ => k_engAt _ _ _ _ _ _ k1)
  · split
    · rename_i e1
      exact (k_engAt _ _ _ _ _ _ (h.engMap (fun _ k1 _ => k_engAt _ _ _ _ _ _ k1))).of_fst e1
    · rename_i e1
      split
      · rename_i e2
        exact (k_engAt _ _ _ _ _ _ ((k_engAt _ _ _ _ _ _ (h.engMap (fun _ k1 _ =>
            k_engAt _ _ _ _ _ _ k1))).of_fst e1)).of_fst e2
      · rename_i e2
        exact (k_engAt _ _ _ _ _ _ ((k_engAt _ _ _ _ _ _ (h.engMap (fun _ k1 _ =>
            k_engAt _ _ _ _ _ _ k1))).of_fst e1)).of_fst e2

theorem Keeps.elemB {j : Job} {m : Mma} {k col : ℕ} (h : Keeps s₀ s) :
    Keeps s₀ (elemB s j m k col).1 := Keeps.ite_fst h.bpiAt (Keeps.ite_fst h.blockedAt h.denseAt)

theorem Keeps.chunkRead {j : Job} {m : Mma} {c : ℕ} (h : Keeps s₀ s) : Keeps s₀ (chunkRead s j m c).1 := by
  unfold Machine.chunkRead
  obtain ⟨elemA', e_elemA, k_elemA⟩ : ∃ g, g = Machine.elemA ∧ ∀ s x1 x2 x3 x4, Keeps s₀ s → Keeps s₀ (g s x1 x2 x3 x4).1 :=
    ⟨_, rfl, fun _ _ _ _ _ k => k.elemA⟩
  obtain ⟨elemB', e_elemB, k_elemB⟩ : ∃ g, g = Machine.elemB ∧ ∀ s x1 x2 x3 x4, Keeps s₀ s → Keeps s₀ (g s x1 x2 x3 x4).1 :=
    ⟨_, rfl, fun _ _ _ _ _ k => k.elemB⟩
  rw [← e_elemA, ← e_elemB]
  dsimp only
  split
  · dsimp only
    exact h.engMap (fun _ k1 _ => k_elemA _ _ _ _ _ k1)
  · split
    · dsimp only
      exact (h.engMap (fun _ k1 _ => k_elemA _ _ _ _ _ k1)).engMap (fun _ k2 _ => k_elemB _ _ _ _ _ k2)
    · dsimp only
      exact (h.engMap (fun _ k1 _ => k_elemA _ _ _ _ _ k1)).engMap (fun _ k2 _ => k_elemB _ _ _ _ _ k2)

theorem Keeps.mmaRun {j : Job} {m : Mma} {n c : Nat} {block : List (List Nat)} (h : Keeps s₀ s) :
    Keeps s₀ (mmaRun j m n c s block).1 := by
  induction n generalizing c s block with
  | zero => exact h
  | succ n ih =>
    unfold Machine.mmaRun
    split
    · rename_i e1
      exact h.chunkRead.of_fst e1
    · rename_i e1
      exact ih (h.chunkRead.of_fst e1)

theorem wf_putBlock (cells : List Host.Cell) (base acc e : Nat) (block : List (List Nat)) (h : Memory.wf cells = true) :
    Memory.wf (putBlock cells base acc e block) = true :=
  wf_foldl _ _ (fun c _ hc => wf_foldl _ _ (fun c _ hc => wf_memWrite c _ _ _ hc) c hc) cells h

theorem Keeps.commitBlock {tile acc e : Nat} {block : List (List Nat)} (h : Keeps s₀ s) :
    Keeps s₀ (commitBlock s tile acc e block) := h.withAcc fun hm => wf_putBlock _ _ _ _ _ hm.2

theorem Keeps.needRecord {j : Job} {need : Bool} {p : Ptr} {reason : ℕ} (h : Keeps s₀ s) :
    Keeps s₀ (needRecord s j need p reason).1 := Keeps.ite_fst h h.engRecord

theorem Keeps.mmaStart {j : Job} {c : MxCtx} (h : Keeps s₀ s) : Keeps s₀ (mmaStart s j c).1 := by
  unfold Machine.mmaStart
  obtain ⟨needRecord', e_needRecord, k_needRecord⟩ : ∃ g, g = Machine.needRecord ∧ ∀ s x1 x2 x3 x4, Keeps s₀ s → Keeps s₀
      (g s x1 x2 x3 x4).1 :=
    ⟨_, rfl, fun _ _ _ _ _ k => k.needRecord⟩
  obtain ⟨engRecord', e_engRecord, k_engRecord⟩ : ∃ g, g = Machine.engRecord ∧ ∀ s x1 x2 x3, Keeps s₀ s → Keeps s₀
      (g s x1 x2 x3).1 :=
    ⟨_, rfl, fun _ _ _ _ k => k.engRecord⟩
  rw [← e_needRecord, ← e_engRecord]
  dsimp only
  split
  · exact h
  · split
    · exact h
    · split
      · rename_i e1
        exact (k_needRecord _ _ _ _ _ h).of_fst e1
      · rename_i e1
        split
        · rename_i e2
          exact (k_needRecord _ _ _ _ _ ((k_needRecord _ _ _ _ _ h).of_fst e1)).of_fst e2
        · rename_i e2
          split
          · exact (k_needRecord _ _ _ _ _ ((k_needRecord _ _ _ _ _ h).of_fst e1)).of_fst e2
          · exact (k_needRecord _ _ _ _ _ ((k_needRecord _ _ _ _ _ h).of_fst e1)).of_fst e2
          · split
            · exact (k_needRecord _ _ _ _ _ ((k_needRecord _ _ _ _ _ h).of_fst e1)).of_fst e2
            · split
              · exact (k_needRecord _ _ _ _ _ ((k_needRecord _ _ _ _ _ h).of_fst e1)).of_fst e2
              · split
                · exact (k_needRecord _ _ _ _ _ ((k_needRecord _ _ _ _ _ h).of_fst e1)).of_fst e2
                · split
                  · rename_i e3
                    exact (k_engRecord _ _ _ _ ((k_needRecord _ _ _ _ _
                        ((k_needRecord _ _ _ _ _ h).of_fst e1)).of_fst e2)).of_fst e3
                  · rename_i e3
                    exact (k_engRecord _ _ _ _ ((k_needRecord _ _ _ _ _
                        ((k_needRecord _ _ _ _ _ h).of_fst e1)).of_fst e2)).of_fst e3

theorem Keeps.startRun {cl : ℕ} {cu : Bool} {r : Running} (h : Keeps s₀ s) :
    Keeps s₀ (startRun s cl cu r) := (Keeps.ite h.modCu h.modMxe).sched

theorem Keeps.matrixRow {op : ℕ} {k : State → ℕ → ℕ → Job → Running → State × Running} {pick : Act → Option (ℕ × ℕ)}
    (h : Keeps s₀ s) (hk : ∀ x, Keeps s₀ x → ∀ y z w v, Keeps s₀ (k x y z w v).1) :
    KeepsOut s₀ (matrixRow s op k pick) := by
  unfold Machine.matrixRow
  refine h.actRow (fun _ _ k1 => ?_)
  split
  · exact KeepsOpt.none
  · split
    · exact KeepsOpt.ite (hk _ k1.takeHead _ _ _ _).startRun.some KeepsOpt.none
    · exact KeepsOpt.none

theorem Keeps.startMma_countMma {cl ci : ℕ} {c : MxCtx} (h : Keeps s₀ s) : Keeps s₀ (startMma.countMma s cl ci c).1 := by
  unfold Machine.startMma.countMma
  split
  · exact h
  · split
    · exact Keeps.setCtx (f := fun x => { x with cnt := 0 }) h
    · exact Keeps.setCtx (f := fun x => { x with cnt := x.cnt + 1 }) h

theorem Keeps.startMma {cl ci : ℕ} {j : Job} {r : Running} (h : Keeps s₀ s) : Keeps s₀ (startMma s cl ci j r).1 := by
  unfold Machine.startMma
  obtain ⟨mmaStart', e_mmaStart, k_mmaStart⟩ : ∃ g, g = Machine.mmaStart ∧ ∀ s x1 x2, Keeps s₀ s → Keeps s₀ (g s x1 x2).1 :=
    ⟨_, rfl, fun _ _ _ k => k.mmaStart⟩
  obtain ⟨mmaRun', e_mmaRun, k_mmaRun⟩ : ∃ g, g = Machine.mmaRun ∧ ∀ x0 x1 x2 x3 s x5, Keeps s₀ s → Keeps s₀
      (g x0 x1 x2 x3 s x5).1 :=
    ⟨_, rfl, fun _ _ _ _ _ _ k => k.mmaRun⟩
  rw [← e_mmaStart, ← e_mmaRun]
  dsimp only
  split
  · rename_i e1
    exact ((k_mmaStart _ _ _ h).of_fst e1).startMma_countMma
  · rename_i e1
    exact Keeps.ite_fst (k_mmaRun _ _ _ _ _ _ ((k_mmaStart _ _ _ h).of_fst e1).startMma_countMma) (k_mmaRun _ _ _ _ _ _
        ((k_mmaStart _ _ _ h).of_fst e1).startMma_countMma).commitBlock

theorem Keeps.execMma (h : Keeps s₀ s) : KeepsOut s₀ (execMma s) := h.matrixRow (fun _ k1 _ _ _ _ => k1.startMma)

theorem Keeps.startMzero {cl ci : ℕ} {j : Job} {r : Running} (h : Keeps s₀ s) : Keeps s₀ (startMzero s cl ci j r).1 := by
  obtain ⟨body, hb⟩ : ∃ g, g = @Machine.startMzero := ⟨_, rfl⟩
  obtain ⟨p, hp⟩ : ∃ p, p = body s cl ci j r := ⟨_, rfl⟩
  rw [← hb, ← hp]
  delta Machine.startMzero at hb
  rw [hb] at hp
  dsimp only at hp
  split at hp
  · subst hp
    exact h.commitBlock
  · subst hp
    exact h

theorem Keeps.execMzero (h : Keeps s₀ s) : KeepsOut s₀ (execMzero s) := h.matrixRow (fun _ k1 _ _ _ _ => k1.startMzero)

theorem Keeps.startMfmt {cl ci : ℕ} {j : Job} {r : Running} (h : Keeps s₀ s) : Keeps s₀ (startMfmt s cl ci j r).1 := by
  unfold Machine.startMfmt
  dsimp only
  exact h.setCtx

theorem Keeps.execMfmt (h : Keeps s₀ s) : KeepsOut s₀ (execMfmt s) := h.matrixRow (fun _ k1 _ _ _ _ => k1.startMfmt)

theorem Keeps.startMcheck {cl ci : ℕ} {j : Job} {r : Running} (h : Keeps s₀ s) : Keeps s₀ (startMcheck s cl ci j r).1 := by
  unfold Machine.startMcheck
  dsimp only
  exact h.setCtx

theorem Keeps.execMcheck (h : Keeps s₀ s) : KeepsOut s₀ (execMcheck s) := h.matrixRow (fun _ k1 _ _ _ _ => k1.startMcheck)

theorem Keeps.outRecord {j : Job} {c : MxCtx} {oet : ℕ} (h : Keeps s₀ s) : Keeps s₀ (outRecord s j c oet).1 := by
  unfold Machine.outRecord
  split
  · exact h
  · split
    · exact h
    · split
      · rename_i e1
        exact h.engRecord.of_fst e1
      · rename_i e1
        split
        · exact h.engRecord.of_fst e1
        · exact h.engRecord.of_fst e1

theorem Keeps.startMstore {cl ci : ℕ} {j : Job} {r : Running} (h : Keeps s₀ s) : Keeps s₀ (startMstore s cl ci j r).1 := by
  obtain ⟨body, hb⟩ : ∃ g, g = @Machine.startMstore := ⟨_, rfl⟩
  obtain ⟨p, hp⟩ : ∃ p, p = body s cl ci j r := ⟨_, rfl⟩
  rw [← hb, ← hp]
  delta Machine.startMstore at hb
  obtain ⟨outRecord', e_outRecord, k_outRecord⟩ : ∃ g, g = Machine.outRecord ∧ ∀ s x1 x2 x3, Keeps s₀ s → Keeps s₀
      (g s x1 x2 x3).1 :=
    ⟨_, rfl, fun _ _ _ _ k => k.outRecord⟩
  obtain ⟨engAt', e_engAt, k_engAt⟩ : ∃ g, g = Machine.engAt ∧ ∀ s x1 x2 x3 x4 x5, Keeps s₀ s → Keeps s₀
      (g s x1 x2 x3 x4 x5).1 :=
    ⟨_, rfl, fun _ _ _ _ _ _ k => k.engAt⟩
  rw [← e_outRecord, ← e_engAt] at hb
  rw [hb] at hp
  dsimp only at hp
  split at hp
  · subst hp
    exact h
  · split at hp
    · rename_i e1
      subst hp
      exact (k_outRecord _ _ _ _ h).of_fst e1
    · rename_i e1
      split at hp
      · subst hp
        exact (k_outRecord _ _ _ _ h).of_fst e1
      · split at hp
        · subst hp
          exact (k_outRecord _ _ _ _ h).of_fst e1
        · subst hp
          exact Keeps.ite_fst ((k_outRecord _ _ _ _ h).of_fst e1) (((k_outRecord _ _ _ _ h).of_fst e1).engMap (fun _ k1 _ =>
              k_engAt _ _ _ _ _ _ k1))

theorem Keeps.execMstore (h : Keeps s₀ s) : KeepsOut s₀ (execMstore s) := h.matrixRow (fun _ k1 _ _ _ _ => k1.startMstore)

theorem Keeps.jobFault {u cause : ℕ} {addr info : Word} (h : Keeps s₀ s) : Keeps s₀ (jobFault s u cause addr info) := by
  unfold Machine.jobFault
  dsimp only
  split
  · exact h.modThread.modThread
  · exact h.modThread

theorem Keeps.secondRun {cl : ℕ} {r : Running} (h : Keeps s₀ s) : Keeps s₀ (secondRun s cl r).1 := by
  obtain ⟨body, hb⟩ : ∃ g, g = @Machine.secondRun := ⟨_, rfl⟩
  obtain ⟨p, hp⟩ : ∃ p, p = body s cl r := ⟨_, rfl⟩
  rw [← hb, ← hp]
  delta Machine.secondRun at hb
  obtain ⟨mmaRun', e_mmaRun, k_mmaRun⟩ : ∃ g, g = Machine.mmaRun ∧ ∀ x0 x1 x2 x3 s x5, Keeps s₀ s → Keeps s₀
      (g x0 x1 x2 x3 s x5).1 :=
    ⟨_, rfl, fun _ _ _ _ _ _ k => k.mmaRun⟩
  rw [← e_mmaRun] at hb
  rw [hb] at hp
  dsimp only at hp
  split at hp
  · subst hp
    exact k_mmaRun _ _ _ _ _ _ h
  · split at hp
    · split at hp
      · split at hp
        · subst hp
          exact (k_mmaRun _ _ _ _ _ _ h).commitBlock
        · subst hp
          exact (k_mmaRun _ _ _ _ _ _ h).jobFault
      · split at hp
        · subst hp
          exact (k_mmaRun _ _ _ _ _ _ h).commitBlock
        · subst hp
          exact (k_mmaRun _ _ _ _ _ _ h).jobFault
    · split at hp
      · split at hp
        · subst hp
          exact (k_mmaRun _ _ _ _ _ _ h).commitBlock
        · subst hp
          exact (k_mmaRun _ _ _ _ _ _ h).jobFault
      · split at hp
        · subst hp
          exact (k_mmaRun _ _ _ _ _ _ h).commitBlock
        · subst hp
          exact (k_mmaRun _ _ _ _ _ _ h).jobFault

theorem Keeps.endMatrix {cl : ℕ} {r : Running} (h : Keeps s₀ s) :
    Keeps s₀ (endMatrix s cl r) := (Keeps.ite_fst h.modMxe.deliverAll.secondRun
        h.modMxe.deliverAll).jobEvent.barAdd.jobEvent.accJoin.schedStatus

/-! ### What the functions of Copy.lean keep -/

theorem Keeps.peerRead {reason : ℕ} {p : Ptr} (h : Keeps s₀ s) : Keeps s₀ (peerRead s reason p).1 := h.freshFree

theorem Keeps.cuRead {j : Job} {peer reason : ℕ} {base : Ptr} {d : ℤ} (h : Keeps s₀ s) :
    Keeps s₀ (cuRead s j peer reason base d).1 := by
  unfold Machine.cuRead
  split
  · exact h.engAt
  · split
    · exact h
    · exact h.peerRead

theorem Keeps.copyRow {op : ℕ} {k : State → ℕ → ℕ → Job → Running → State × Running} {pick : Act → Option (ℕ × ℕ)}
    (h : Keeps s₀ s) (hk : ∀ x, Keeps s₀ x → ∀ y z w v, Keeps s₀ (k x y z w v).1) :
    KeepsOut s₀ (copyRow s op k pick) := by
  unfold Machine.copyRow
  refine h.actRow (fun _ _ k1 => ?_)
  split
  · exact KeepsOpt.none
  · split
    · exact KeepsOpt.ite (hk _ k1.takeHead _ _ _ _).startRun.some KeepsOpt.none
    · exact KeepsOpt.none

theorem Keeps.jobShape {j : Job} {words : ℕ} (h : Keeps s₀ s) : Keeps s₀ (jobShape s j words).1 := by
  unfold Machine.jobShape
  split
  · exact h
  · split
    · rename_i e1
      exact h.engRecord.of_fst e1
    · rename_i e1
      exact h.engRecord.of_fst e1

theorem Keeps.failRun {j : Job} {r : Running} {e : JobEv} {l : List (Ptr × ℕ)} (h : Keeps s₀ s) :
    Keeps s₀ (failRun s j r e l).1 := h

theorem Keeps.copyPosition {j : Job} {speer dpeer : ℕ} {src : Option Ptr} {dst : Ptr} {value : ℕ} {a : ReadRun}
    {x : ℤ × ℤ} (h : Keeps s₀ a.st) : Keeps s₀ (copyPosition j speer dpeer src dst value a x).st := by
  obtain ⟨read, hread⟩ : ∃ g, g = Machine.cuRead := ⟨_, rfl⟩
  have kread : ∀ s j n r p d, Keeps s₀ s → Keeps s₀ (read s j n r p d).1 := hread ▸ fun _ _ _ _ _ _ k => k.cuRead
  unfold Machine.copyPosition
  rw [← hread]
  split
  · exact h
  · have k : Keeps s₀ (match src with | .some p => read a.st j speer 1 p x.1 | .none => (a.st, Sum.inr value)).1 := by
      split
      · exact kread _ _ _ _ _ _ h
      · exact h
    dsimp only
    split
    · exact k
    · split
      · exact k
      · exact k

theorem Keeps.copyPositions {j : Job} {speer dpeer : ℕ} {src : Option Ptr} {dst : Ptr} {value : ℕ} {l : List (ℤ × ℤ)}
    (h : Keeps s₀ s) : Keeps s₀ (copyPositions s j speer dpeer src dst value l).st :=
  Keeps.foldl_read h fun _ _ k => k.copyPosition

theorem Keeps.runShape {j : Job} {r : Running} {speer dpeer : ℕ} {src : Option Ptr} {dst : Ptr} {value : ℕ} {h' : Shape}
    {l : List (Ptr × ℕ)} {links : List ℕ} (h : Keeps s₀ s) :
    Keeps s₀ (runShape s j r speer dpeer src dst value h' l links).1 := h.copyPositions

theorem Keeps.startCopy {x x' : ℕ} {j : Job} {r : Running} (h : Keeps s₀ s) : Keeps s₀ (startCopy s x x' j r).1 := by
  obtain ⟨body, hb⟩ : ∃ g, g = @Machine.startCopy := ⟨_, rfl⟩
  obtain ⟨p, hp⟩ : ∃ p, p = body s x x' j r := ⟨_, rfl⟩
  rw [← hb, ← hp]
  delta Machine.startCopy at hb
  obtain ⟨jobShape', e_jobShape, k_jobShape⟩ : ∃ g, g = Machine.jobShape ∧ ∀ s x1 x2, Keeps s₀ s → Keeps s₀ (g s x1 x2).1 :=
    ⟨_, rfl, fun _ _ _ k => k.jobShape⟩
  obtain ⟨failRun', e_failRun, k_failRun⟩ : ∃ g, g = Machine.failRun ∧ ∀ s x1 x2 x3 x4, Keeps s₀ s → Keeps s₀
      (g s x1 x2 x3 x4).1 :=
    ⟨_, rfl, fun _ _ _ _ _ k => k.failRun⟩
  obtain ⟨runShape', e_runShape, k_runShape⟩ : ∃ g, g = Machine.runShape ∧ ∀ s x1 x2 x3 x4 x5 x6 x7 x8 x9 x10, Keeps s₀ s →
      Keeps s₀ (g s x1 x2 x3 x4 x5 x6 x7 x8 x9 x10).1 :=
    ⟨_, rfl, fun _ _ _ _ _ _ _ _ _ _ _ k => k.runShape⟩
  obtain ⟨peerLink', e_peerLink⟩ : ∃ g, g = @Machine.peerLink := ⟨_, rfl⟩
  rw [← e_jobShape, ← e_failRun, ← e_runShape, ← e_peerLink] at hb
  rw [hb] at hp
  dsimp only at hp
  split at hp
  · rename_i e1
    subst hp
    exact k_failRun _ _ _ _ _ ((k_jobShape _ _ _ h).of_fst e1)
  · rename_i e1
    split at hp
    · subst hp
      exact k_failRun _ _ _ _ _ ((k_jobShape _ _ _ h).of_fst e1)
    · subst hp
      exact k_failRun _ _ _ _ _ ((k_jobShape _ _ _ h).of_fst e1)
    · subst hp
      exact k_runShape _ _ _ _ _ _ _ _ _ _ _ ((k_jobShape _ _ _ h).of_fst e1)

theorem Keeps.startFill {x x' : ℕ} {j : Job} {r : Running} (h : Keeps s₀ s) : Keeps s₀ (startFill s x x' j r).1 := by
  obtain ⟨body, hb⟩ : ∃ g, g = @Machine.startFill := ⟨_, rfl⟩
  obtain ⟨p, hp⟩ : ∃ p, p = body s x x' j r := ⟨_, rfl⟩
  rw [← hb, ← hp]
  delta Machine.startFill at hb
  obtain ⟨jobShape', e_jobShape, k_jobShape⟩ : ∃ g, g = Machine.jobShape ∧ ∀ s x1 x2, Keeps s₀ s → Keeps s₀ (g s x1 x2).1 :=
    ⟨_, rfl, fun _ _ _ k => k.jobShape⟩
  obtain ⟨failRun', e_failRun, k_failRun⟩ : ∃ g, g = Machine.failRun ∧ ∀ s x1 x2 x3 x4, Keeps s₀ s → Keeps s₀
      (g s x1 x2 x3 x4).1 :=
    ⟨_, rfl, fun _ _ _ _ _ k => k.failRun⟩
  obtain ⟨runShape', e_runShape, k_runShape⟩ : ∃ g, g = Machine.runShape ∧ ∀ s x1 x2 x3 x4 x5 x6 x7 x8 x9 x10, Keeps s₀ s →
      Keeps s₀ (g s x1 x2 x3 x4 x5 x6 x7 x8 x9 x10).1 :=
    ⟨_, rfl, fun _ _ _ _ _ _ _ _ _ _ _ k => k.runShape⟩
  obtain ⟨peerLink', e_peerLink⟩ : ∃ g, g = @Machine.peerLink := ⟨_, rfl⟩
  rw [← e_jobShape, ← e_failRun, ← e_runShape, ← e_peerLink] at hb
  rw [hb] at hp
  dsimp only at hp
  split at hp
  · rename_i e1
    subst hp
    exact k_failRun _ _ _ _ _ ((k_jobShape _ _ _ h).of_fst e1)
  · rename_i e1
    split at hp
    · subst hp
      exact k_failRun _ _ _ _ _ ((k_jobShape _ _ _ h).of_fst e1)
    · subst hp
      exact k_runShape _ _ _ _ _ _ _ _ _ _ _ ((k_jobShape _ _ _ h).of_fst e1)

theorem Keeps.execCopy (h : Keeps s₀ s) : KeepsOut s₀ (execCopy s) := h.copyRow (fun _ k1 _ _ _ _ => k1.startCopy)

theorem Keeps.execFill (h : Keeps s₀ s) : KeepsOut s₀ (execFill s) := h.copyRow (fun _ k1 _ _ _ _ => k1.startFill)

theorem Keeps.listWords {j : Job} {x : Lists} {i idx : Nat} {l : List Nat} (h : Keeps s₀ s) :
    Keeps s₀ (listWords j x i idx l s).1 := by
  induction l generalizing s with
  | nil => exact h
  | cons w t ih =>
    obtain ⟨read, hread⟩ : ∃ g, g = Machine.cuRead := ⟨_, rfl⟩
    have kread : ∀ s j n r p d, Keeps s₀ s → Keeps s₀ (read s j n r p d).1 := hread ▸ fun _ _ _ _ _ _ k => k.cuRead
    unfold Machine.listWords
    rw [← hread]
    dsimp only
    have k := Keeps.ite_fst (c := decide (x.op = 17) = true)
      (kread s j x.peer 1 j.w0 ↑(idx * (8 * 2 ^ x.ew) + 8 * w) h) (kread s j 0 1 j.w2 ↑(i * (8 * 2 ^ x.ew) + 8 * w) h)
    split
    · exact k
    · split
      · exact k
      · exact ih k

theorem Keeps.listElem {j : Job} {x : Lists} {a : ReadRun} {i : ℕ} (ha : Keeps s₀ a.st) : Keeps s₀ (listElem j x a i).st := by
  unfold Machine.listElem
  split
  · exact ha
  · split
    · rename_i e1
      exact ha.engAt.of_fst e1
    · rename_i e1
      dsimp only
      split
      · exact (ha.engAt.of_fst e1).listWords
      · split
        · exact (ha.engAt.of_fst e1).listWords
        · exact (ha.engAt.of_fst e1).listWords

theorem Keeps.emptyBuffer {j : Job} {x : Lists} (h : Keeps s₀ s) : Keeps s₀ (emptyBuffer s j x).1 := by
  obtain ⟨body, hb⟩ : ∃ g, g = @Machine.emptyBuffer := ⟨_, rfl⟩
  obtain ⟨p, hp⟩ : ∃ p, p = body s j x := ⟨_, rfl⟩
  rw [← hb, ← hp]
  delta Machine.emptyBuffer at hb
  obtain ⟨hwKey', e_hwKey, k_hwKey⟩ : ∃ g, g = Machine.hwKey ∧ ∀ s x1 x2 x3 x4, Keeps s₀ s → Keeps s₀ (g s x1 x2 x3 x4).1 :=
    ⟨_, rfl, fun _ _ _ _ _ k => k.hwKey⟩
  obtain ⟨addOff', e_addOff⟩ : ∃ g, g = @Machine.addOff := ⟨_, rfl⟩
  rw [← e_hwKey, ← e_addOff] at hb
  rw [hb] at hp
  dsimp only at hp
  subst hp
  refine h.foldl_fst (fun _ _ k1 => ?_)
  split
  · exact k1
  · split
    · exact k1
    · split
      · rename_i e1
        exact (k_hwKey _ _ _ _ _ k1).of_fst e1
      · rename_i e1
        exact Keeps.ite_fst ((k_hwKey _ _ _ _ _ k1).of_fst e1) ((k_hwKey _ _ _ _ _ k1).of_fst e1).also.serve

theorem Keeps.startLists {x x' : Nat} {j : Job} {r : Running} (h : Keeps s₀ s) : Keeps s₀ (startLists s x x' j r).1 := by
  obtain ⟨body, hb⟩ : ∃ g, g = @Machine.startLists := ⟨_, rfl⟩
  obtain ⟨p, hp⟩ : ∃ p, p = body s x x' j r := ⟨_, rfl⟩
  rw [← hb, ← hp]
  delta Machine.startLists at hb
  obtain ⟨empty, he⟩ : ∃ g, g = Machine.emptyBuffer := ⟨_, rfl⟩
  have kempty : ∀ s j x, Keeps s₀ s → Keeps s₀ (empty s j x).1 := he ▸ fun _ _ _ k => k.emptyBuffer
  obtain ⟨elem, hl⟩ : ∃ g, g = Machine.listElem := ⟨_, rfl⟩
  have kelem : ∀ j x (a : ReadRun) i, Keeps s₀ a.st → Keeps s₀ (elem j x a i).st := hl ▸ fun _ _ _ _ k => k.listElem
  obtain ⟨link, hk⟩ : ∃ g, g = Machine.peerLink := ⟨_, rfl⟩
  rw [← he, ← hl, ← hk] at hb
  rw [hb] at hp
  dsimp only at hp
  split at hp
  · subst hp
    exact h.failRun
  · subst hp
    dsimp only
    split
    · split
      · exact kempty _ _ _ h
      · exact Keeps.foldl_read (kempty _ _ _ h) fun _ _ k => kelem _ _ _ _ k
    · split
      · exact h
      · exact Keeps.foldl_read h fun _ _ k => kelem _ _ _ _ k

theorem Keeps.execGather (h : Keeps s₀ s) : KeepsOut s₀ (execGather s) := h.copyRow (fun _ k1 _ _ _ _ => k1.startLists)

theorem Keeps.execScatter (h : Keeps s₀ s) : KeepsOut s₀ (execScatter s) := h.copyRow (fun _ k1 _ _ _ _ => k1.startLists)

theorem Keeps.execScatteradd (h : Keeps s₀ s) : KeepsOut s₀ (execScatteradd s) := h.copyRow (fun _ k1 _ _ _ _ => k1.startLists)

theorem Keeps.startDigest {cl ci : ℕ} {j : Job} {r : Running} (h : Keeps s₀ s) : Keeps s₀ (startDigest s cl ci j r).1 := by
  unfold Machine.startDigest
  dsimp only
  split
  · exact h
  · dsimp only
    exact h.modCu

theorem Keeps.execDigest (h : Keeps s₀ s) : KeepsOut s₀ (execDigest s) := h.copyRow (fun _ k1 _ _ _ _ => k1.startDigest)

theorem Keeps.cuEnd {cl : ℕ} {j : Job} {ev : Option JobEv} {ok others bytes count : ℕ} (h : Keeps s₀ s) :
    Keeps s₀ (cuEnd s cl j ev ok others bytes count) := h.jobEvent.barAdd.jobEvent.schedStatus

theorem Keeps.completionCharge {j : Job} {ch : ℕ} (h : Keeps s₀ s) : Keeps s₀ (completionCharge s j ch) := by
  unfold Machine.completionCharge
  dsimp only
  split
  · split
    · split
      · refine Keeps.lateCharge ?_
        split
        · exact Keeps.ite h.lateCharge h
        · exact h
      · split
        · exact Keeps.ite h.lateCharge h
        · exact h
    · split
      · exact Keeps.ite h.lateCharge h
      · exact h
  · split
    · exact Keeps.ite h.lateCharge h
    · exact h

theorem Keeps.unmarkRegs {cl jid : ℕ} (h : Keeps s₀ s) : Keeps s₀ (unmarkRegs s cl jid) := h.modCu

theorem Keeps.dropSlot {cl jid : ℕ} (h : Keeps s₀ s) : Keeps s₀ (dropSlot s cl jid) := h.modCu.unmarkRegs.unsched

theorem Keeps.slotEnds {cl : ℕ} {x : CollSlot} {status reason : ℕ} (h : Keeps s₀ s) :
    Keeps s₀ (slotEnds s cl x status reason) := h.dropSlot.cuEnd

theorem Keeps.stopRun {cl : ℕ} {r : Running} {e : JobEv} (h : Keeps s₀ s) : Keeps s₀ (stopRun s cl r e) := h.modCu.unsched.sched

theorem Keeps.collEnds {key : CollKey} {status reason : ℕ} (h : Keeps s₀ s) :
    Keeps s₀ (collEnds s key status reason) := (h.forEach (fun _ _ k1 => k1.slotEnds)).forEach (fun _ _ k2 => k2.stopRun)

theorem Keeps.startColl {x x' : ℕ} {j : Job} {r : Running} (h : Keeps s₀ s) : Keeps s₀ (startColl s x x' j r).1 := by
  unfold Machine.startColl
  obtain ⟨failRun', e_failRun, k_failRun⟩ : ∃ g, g = Machine.failRun ∧ ∀ s x1 x2 x3 x4, Keeps s₀ s → Keeps s₀
      (g s x1 x2 x3 x4).1 :=
    ⟨_, rfl, fun _ _ _ _ _ k => k.failRun⟩
  obtain ⟨engAt', e_engAt, k_engAt⟩ : ∃ g, g = Machine.engAt ∧ ∀ s x1 x2 x3 x4 x5, Keeps s₀ s → Keeps s₀
      (g s x1 x2 x3 x4 x5).1 :=
    ⟨_, rfl, fun _ _ _ _ _ _ k => k.engAt⟩
  rw [← e_failRun, ← e_engAt]
  dsimp only
  split
  · exact k_failRun _ _ _ _ _ h
  · split
    · exact k_failRun _ _ _ _ _ h
    · split
      · exact k_failRun _ _ _ _ _ h
      · split
        · exact k_failRun _ _ _ _ _ h
        · split
          · exact k_failRun _ _ _ _ _ h
          · split
            · exact k_failRun _ _ _ _ _ (Keeps.ite (Keeps.ite (h.engMap (fun _ k1 _ => k_engAt _ _ _ _ _ _ k1)).schedAt
                  (h.engMap (fun _ k2 _ => k_engAt _ _ _ _ _ _ k2))).collEnds (Keeps.ite (h.engMap (fun _ k3 _ =>
                  k_engAt _ _ _ _ _ _ k3)).schedAt (h.engMap (fun _ k4 _ => k_engAt _ _ _ _ _ _ k4))))
            · exact Keeps.ite (h.engMap (fun _ k1 _ => k_engAt _ _ _ _ _ _ k1)).schedAt (h.engMap (fun _ k2 _ =>
                  k_engAt _ _ _ _ _ _ k2))

theorem Keeps.execColl (h : Keeps s₀ s) : KeepsOut s₀ (execColl s) := h.copyRow (fun _ k1 _ _ _ _ => k1.startColl)

theorem Keeps.collJoin {cl : ℕ} {x : CollSlot} (h : Keeps s₀ s) :
    Keeps s₀ (collJoin s cl x) := Keeps.ite h.modCu.also (Keeps.ite h.modCu.slotEnds (Keeps.ite h.modCu.slotEnds
        (Keeps.ite h.modCu.collEnds (Keeps.ite h.modCu.schedAt h.modCu))))

theorem Keeps.markRegs {cl ci : ℕ} {j : Job} (h : Keeps s₀ s) : Keeps s₀ (markRegs s cl ci j) := Keeps.ite h h.modCu

theorem Keeps.endCopy {cl : ℕ} {r : Running} (h : Keeps s₀ s) :
    Keeps s₀ (endCopy s cl r) := Keeps.ite h.modCu.markRegs.collJoin (Keeps.ite
        (Keeps.ite h.modCu.deliverAll.unmarkRegs h.modCu.deliverAll).completionCharge
        (Keeps.ite h.modCu.deliverAll.unmarkRegs h.modCu.deliverAll)).cuEnd

theorem Keeps.regionWords {j : Job} {ci cl : ℕ} (h : Keeps s₀ s) : Keeps s₀ (regionWords s j ci cl).1 := by
  unfold Machine.regionWords
  obtain ⟨engAt', e_engAt, k_engAt⟩ : ∃ g, g = Machine.engAt ∧ ∀ s x1 x2 x3 x4 x5, Keeps s₀ s → Keeps s₀
      (g s x1 x2 x3 x4 x5).1 :=
    ⟨_, rfl, fun _ _ _ _ _ _ k => k.engAt⟩
  rw [← e_engAt]
  exact h.engMap (fun _ k1 _ => k_engAt _ _ _ _ _ _ k1)

theorem Keeps.collDeliver {x : CollSlot} {res : List Word} (h : Keeps s₀ s) : Keeps s₀ (collDeliver s x res).st := by
  obtain ⟨body, hb⟩ : ∃ g, g = @Machine.collDeliver := ⟨_, rfl⟩
  obtain ⟨p, hp⟩ : ∃ p, p = body s x res := ⟨_, rfl⟩
  rw [← hb, ← hp]
  delta Machine.collDeliver at hb
  obtain ⟨deliverAll', e_deliverAll, k_deliverAll⟩ : ∃ g, g = Machine.deliverAll ∧ ∀ x0 x1 x2 x3 s, Keeps s₀ s → Keeps s₀
      (g x0 x1 x2 x3 s).st :=
    ⟨_, rfl, fun _ _ _ _ _ k => k.deliverAll⟩
  rw [← e_deliverAll] at hb
  rw [hb] at hp
  dsimp only at hp
  split at hp
  · subst hp
    exact k_deliverAll _ _ _ _ _ h
  · subst hp
    exact k_deliverAll _ _ _ _ _ h

theorem Keeps.collMember {res : List Word} {m : ℕ × CollSlot} (h : Keeps s₀ s) : Keeps s₀ (collMember res s m) := by
  obtain ⟨body, hb⟩ : ∃ g, g = @Machine.collMember := ⟨_, rfl⟩
  obtain ⟨p, hp⟩ : ∃ p, p = body res s m := ⟨_, rfl⟩
  rw [← hb, ← hp]
  delta Machine.collMember at hb
  obtain ⟨collDeliver', e_collDeliver, k_collDeliver⟩ : ∃ g, g = Machine.collDeliver ∧ ∀ s x1 x2, Keeps s₀ s → Keeps s₀
      (g s x1 x2).st :=
    ⟨_, rfl, fun _ _ _ k => k.collDeliver⟩
  obtain ⟨regionWords', e_regionWords, k_regionWords⟩ : ∃ g, g = Machine.regionWords ∧ ∀ s x1 x2 x3, Keeps s₀ s → Keeps s₀
      (g s x1 x2 x3).1 :=
    ⟨_, rfl, fun _ _ _ _ k => k.regionWords⟩
  rw [← e_collDeliver, ← e_regionWords] at hb
  rw [hb] at hp
  dsimp only at hp
  split at hp
  · subst hp
    exact (k_collDeliver _ _ _ h).modCu.dropSlot.cuEnd
  · subst hp
    exact (k_collDeliver _ _ _ h).modCu.dropSlot.cuEnd
  · split at hp
    · rename_i e1
      subst hp
      exact ((k_regionWords _ _ _ _ (k_collDeliver _ _ _ h).modCu).of_fst e1).dropSlot.cuEnd
    · rename_i e1
      subst hp
      exact ((k_regionWords _ _ _ _ (k_collDeliver _ _ _ h).modCu).of_fst e1).modCu.also

theorem Keeps.collProceeds {key : CollKey} {peers : List CollPeer} (h : Keeps s₀ s) :
    KeepsOpt s₀ (collProceeds s key peers) := by
  unfold Machine.collProceeds
  dsimp only
  split
  · exact KeepsOpt.none
  · exact KeepsOpt.ite KeepsOpt.none (KeepsOpt.ite h.collEnds.some (KeepsOpt.ite h.collEnds.some (KeepsOpt.ite KeepsOpt.none
      (Keeps.some (h.forEach fun _ _ k => k.collMember)))))

theorem Keeps.digestDecides {key : CollKey} {peers : List (ℕ × Option (BitVec 128))} (h : Keeps s₀ s) :
    KeepsOpt s₀ (digestDecides s key peers) := by
  unfold Machine.digestDecides
  split
  · exact KeepsOpt.none
  · exact KeepsOpt.ite KeepsOpt.none (KeepsOpt.ite h.slotEnds.some (KeepsOpt.ite KeepsOpt.none (KeepsOpt.ite
        (Keeps.ite h h.modPart).postSup.postHost.modCu.some (Keeps.ite h h.modPart).dropSlot.cuEnd.some)))

theorem Keeps.divergedEnds {cl : ℕ} {x : CollSlot} {w : Word} (h : Keeps s₀ s) :
    Keeps s₀ (divergedEnds s cl x w) := h.dropSlot.barAdd.jobEvent.schedStatus

theorem Keeps.memberTimesOut {cl jid : ℕ} (h : Keeps s₀ s) : Keeps s₀ (memberTimesOut s cl jid) := by
  unfold Machine.memberTimesOut
  split
  · split
    · exact Keeps.ite h.stopRun h
    · exact h
  · split
    · exact Keeps.ite h h.divergedEnds
    · exact Keeps.ite h (Keeps.ite h.slotEnds (Keeps.ite (Keeps.ite h.slotEnds h) h.slotEnds))

/-! ### What the functions of Fetch.lean keep -/

theorem Keeps.fetchWord {th : Thread} {p : Ptr} (h : Keeps s₀ s) : Keeps s₀ (fetchWord s th p).1 := by
  unfold Machine.fetchWord
  split
  · exact h
  · split
    · exact h
    · split
      · exact h
      · split
        · rename_i e1
          exact h.hwKey.of_fst e1
        · rename_i e1
          exact Keeps.ite_fst (h.hwKey.of_fst e1) (h.hwKey.of_fst e1)

theorem Keeps.fetchFrom {th : Thread} {fx n : Nat} {ws : List (BitVec 32)} (h : Keeps s₀ s) :
    Keeps s₀ (fetchFrom s th fx n ws).1 := by
  obtain ⟨body, hb⟩ : ∃ g, g = @Machine.fetchFrom := ⟨_, rfl⟩
  obtain ⟨word, hw⟩ : ∃ g, g = Machine.fetchWord := ⟨_, rfl⟩
  have kword : ∀ s th p, Keeps s₀ s → Keeps s₀ (word s th p).1 := hw ▸ fun _ _ _ k => k.fetchWord
  rw [← hb]
  delta Machine.fetchFrom Machine.fetchFrom._f at hb
  rw [← hw] at hb
  clear hw
  induction n generalizing s fx ws with
  | zero => subst hb; exact h
  | succ n ih =>
    have e : body s th fx (n + 1) ws = match word s th (offBy th.pc (4 * ws.length)) with
        | (s1, .bad c i h) => (s1, .bad (offBy th.pc (4 * ws.length)) c i h, fx)
        | (s1, .word w l) =>
          match decodeUnit th.sup (ws ++ [w]) with
          | .unit i k => (s1, .ready i k w, if ws.isEmpty then l else fx)
          | .bad f k => (s1, .refused f k w, if ws.isEmpty then l else fx)
          | .more => body s1 th (if ws.isEmpty then l else fx) n (ws ++ [w]) := by
      clear ih
      subst hb
      rfl
    rw [e]
    split
    · rename_i e1
      exact (kword _ _ _ h).of_fst e1
    · rename_i e1
      have k := (kword _ _ _ h).of_fst e1
      split
      · exact k
      · exact k
      · exact ih k

theorem Keeps.fetchUnit {th : Thread} (h : Keeps s₀ s) : Keeps s₀ (fetchUnit s th).1 := h.fetchFrom

theorem Keeps.execIllegalInstruction {f : DecodeFault} (h : Keeps s₀ s) :
    KeepsOut s₀ (execIllegalInstruction f s) := h.withCur (fun _ _ => Keeps.ite h.raiseEnd h.raise)

/-! ### What the functions of Events.lean keep -/

theorem Keeps.keepSnap {tile : ℕ} (h : Keeps s₀ s) : Keeps s₀ (keepSnap s tile) := h.modEvu

theorem Keeps.sendPromise {tile slot : ℕ} {v : Word} {vigil : Bool} (h : Keeps s₀ s) :
    Keeps s₀ (sendPromise s tile slot v vigil) := by
  unfold Machine.sendPromise
  split
  · exact h.modEvu.sched
  · exact h

theorem Keeps.sendAll {tile : ℕ} {vigil : Bool} {value : OutLink → Word} (h : Keeps s₀ s) :
    Keeps s₀ (sendAll s tile vigil value) := h.forEach (fun _ _ k1 => Keeps.ite k1.sendPromise k1)

theorem Keeps.exitPromise {u : ℕ} (h : Keeps s₀ s) : Keeps s₀ (exitPromise s u) := by
  unfold Machine.exitPromise
  split
  · exact h
  · exact Keeps.ite (h.forEach (fun _ _ k1 => k1.sendPromise)).modEvu h

theorem Keeps.evuTick {tile : ℕ} (h : Keeps s₀ s) : Keeps s₀ (evuTick s tile) := Keeps.ite h (Keeps.ite h.modEvu h.modEvu)

theorem Keeps.evComplete {u : ℕ} {ws : List Word} (h : Keeps s₀ s) : Keeps s₀ (evComplete s u ws) := by
  unfold Machine.evComplete
  split
  · exact h
  · split
    · exact h.complete.lvEnter
    · exact h

theorem Keeps.spill {tile : ℕ} (h : Keeps s₀ s) : Keeps s₀ (spill s tile) := h.foldl (fun _ _ k1 => k1.spillStore)

theorem Keeps.dispatchEvent {tile : ℕ} (h : Keeps s₀ s) : KeepsOpt s₀ (dispatchEvent s tile) := by
  unfold Machine.dispatchEvent
  split
  · exact KeepsOpt.none
  · split
    · exact KeepsOpt.none
    · exact h.keepSnap.modEvu.evComplete.spill.some

theorem Keeps.execEventDispatch (h : Keeps s₀ s) : KeepsOut s₀ (execEventDispatch s) := by
  unfold Machine.execEventDispatch
  refine h.actRow (fun _ _ k1 => ?_)
  split
  · exact k1.dispatchEvent
  · exact KeepsOpt.none

theorem Keeps.execEndOfLocalTime (h : Keeps s₀ s) : KeepsOut s₀ (execEndOfLocalTime s) := by
  unfold Machine.execEndOfLocalTime
  refine h.actRow (fun _ _ k1 => ?_)
  split
  · exact KeepsOpt.ite k1.keepSnap.modEvu.evComplete.some KeepsOpt.none
  · exact KeepsOpt.none

theorem Keeps.countDrop {tile : ℕ} (h : Keeps s₀ s) : Keeps s₀ (countDrop s tile) := h.modEvu

theorem Keeps.promiseArrives {m : PromiseMsg} (h : Keeps s₀ s) :
    Keeps s₀ (promiseArrives s m) := Keeps.ite h.countDrop (Keeps.ite h h.modEvu)

theorem Keeps.execAlmanacMessage (h : Keeps s₀ s) : KeepsOut s₀ (execAlmanacMessage s) := by
  unfold Machine.execAlmanacMessage
  refine h.actRow (fun _ _ k1 => ?_)
  split
  · exact k1.promiseArrives.some
  · exact KeepsOpt.none

theorem Keeps.execAlmanacHoldExpiry (h : Keeps s₀ s) : KeepsOut s₀ (execAlmanacHoldExpiry s) := by
  unfold Machine.execAlmanacHoldExpiry
  refine h.actRow (fun _ _ k1 => ?_)
  split
  · split
    · exact KeepsOpt.map (fun _ => k1.modEvu.sendPromise)
    · exact KeepsOpt.none
  · exact KeepsOpt.none

theorem Keeps.zeroLookahead {tile : ℕ} {o : ℕ × ℕ × Word} {rounds u : ℕ} (h : Keeps s₀ s) :
    Keeps s₀ (zeroLookahead s tile o rounds u) := by
  unfold Machine.zeroLookahead
  split
  · exact h
  · split
    · exact h.lvEnter.modThread.takeFault
    · exact h

theorem Keeps.vigil {tile : ℕ} (h : Keeps s₀ s) : Keeps s₀ (vigil s tile) := by
  unfold Machine.vigil
  dsimp only
  split
  · exact Keeps.ite (h.sendAll.modEvu.forEach (fun _ _ k1 => k1.zeroLookahead)) h.sendAll.modEvu
  · exact h.sendAll.modEvu

theorem Keeps.execVigilRound (h : Keeps s₀ s) : KeepsOut s₀ (execVigilRound s) := by
  unfold Machine.execVigilRound
  refine h.actRow (fun _ _ k1 => ?_)
  split
  · exact KeepsOpt.ite k1.vigil.some KeepsOpt.none
  · exact KeepsOpt.none

theorem Keeps.execVigilEvent (h : Keeps s₀ s) : KeepsOut s₀ (execVigilEvent s) := by
  unfold Machine.execVigilEvent
  refine h.actRow (fun _ _ k1 => ?_)
  split
  · exact k1.promiseArrives.some
  · exact KeepsOpt.none

theorem Keeps.enterOrBusy {m : EventMsg} (h : Keeps s₀ s) :
    Keeps s₀ (enterOrBusy s m).1 := Keeps.ite_fst h.countDrop (Keeps.ite_fst h.countDrop (Keeps.ite_fst h h.modEvu.spill))

theorem Keeps.sendEvent {m : EventMsg} (h : Keeps s₀ s) : Keeps s₀ (sendEvent s m) := h.sched

theorem Keeps.joinHeld {m : EventMsg} (h : Keeps s₀ s) : Keeps s₀ (joinHeld s m) := h.modEvu

theorem Keeps.postEvent {m : EventMsg} (h : Keeps s₀ s) : Keeps s₀ (postEvent s m) := Keeps.ite h.sendEvent h.joinHeld

theorem Keeps.selfWaits {m : EventMsg} (h : Keeps s₀ s) : Keeps s₀ (selfWaits s m) := Keeps.ite h.modThread h

theorem Keeps.selfHeld {m : EventMsg} (h : Keeps s₀ s) : Keeps s₀ (selfHeld s m) := Keeps.ite h.selfWaits h

theorem Keeps.evHeldEnds {u : ℕ} (h : Keeps s₀ s) : Keeps s₀ (evHeldEnds s u) := by
  unfold Machine.evHeldEnds
  split
  · split
    · exact h.postEvent.modThread.selfHeld
    · exact h
  · exact h

theorem Keeps.evEntered {m : EventMsg} (h : Keeps s₀ s) : Keeps s₀ (evEntered s m) := by
  unfold Machine.evEntered
  split
  · exact Keeps.ite h.wake h.recheck
  · exact h

theorem Keeps.evHeldWake {tile : ℕ} (h : Keeps s₀ s) : Keeps s₀ (evHeldWake s tile) := h.forEach (fun _ _ k1 => k1.evHeldEnds)

theorem Keeps.heldLeaves {m : EventMsg} (h : Keeps s₀ s) : Keeps s₀ (heldLeaves s m) := by
  unfold Machine.heldLeaves
  dsimp only
  refine Keeps.evHeldWake ?_
  split
  · exact h.modEvu.evEntered
  · exact h.modEvu.evEntered.sendEvent

theorem Keeps.answerEvent {m : EventMsg} (h : Keeps s₀ s) : Keeps s₀ (answerEvent s m) := h.schedAt

theorem Keeps.eventArrives {m : EventMsg} (h : Keeps s₀ s) : Keeps s₀ (eventArrives s m) := by
  unfold Machine.eventArrives
  split
  · exact h.selfWaits.answerEvent
  · split
    · rename_i e1
      exact (h.enterOrBusy.of_fst e1).selfWaits.answerEvent
    · rename_i e1
      exact Keeps.ite (h.enterOrBusy.of_fst e1).heldLeaves (h.enterOrBusy.of_fst e1).evEntered

theorem Keeps.eventRefused {m : EventMsg} (h : Keeps s₀ s) :
    Keeps s₀ (eventRefused s m) := Keeps.ite (Keeps.ite h h.joinHeld).schedAt (Keeps.ite h h.joinHeld)

theorem Keeps.execEventEntry (h : Keeps s₀ s) : KeepsOut s₀ (execEventEntry s) := by
  unfold Machine.execEventEntry
  refine h.actRow (fun _ _ k1 => ?_)
  split
  · exact k1.eventArrives.some
  · exact KeepsOpt.none

theorem Keeps.execEventBusyAnswer (h : Keeps s₀ s) : KeepsOut s₀ (execEventBusyAnswer s) := by
  unfold Machine.execEventBusyAnswer
  refine h.actRow (fun _ _ k1 => ?_)
  split
  · exact k1.eventRefused.some
  · exact KeepsOpt.none

theorem Keeps.execEventResend (h : Keeps s₀ s) : KeepsOut s₀ (execEventResend s) := by
  unfold Machine.execEventResend
  refine h.actRow (fun _ _ k1 => ?_)
  split
  · split
    · exact k1.some
    · exact k1.sendEvent.some
  · exact KeepsOpt.none

theorem Keeps.recordInbound {dst src L : ℕ} (h : Keeps s₀ s) : Keeps s₀ (recordInbound s dst src L) := h.modEvu

theorem Keeps.recordOutbound {tile k dst L : ℕ} (h : Keeps s₀ s) : Keeps s₀ (recordOutbound s tile k dst L) := by
  unfold Machine.recordOutbound
  dsimp only
  refine Keeps.modEvu ?_
  split
  · exact Keeps.ite h h.modEvu
  · exact h

theorem Keeps.registerLink {m : LinkMsg} (h : Keeps s₀ s) : Keeps s₀ (registerLink s m) := by
  unfold Machine.registerLink
  dsimp only
  split
  · exact h.recordInbound.schedAt
  · exact h.schedAt
  · exact h.schedAt

theorem Keeps.execLinkRegistration (h : Keeps s₀ s) : KeepsOut s₀ (execLinkRegistration s) := by
  unfold Machine.execLinkRegistration
  refine h.actRow (fun _ _ k1 => ?_)
  split
  · exact k1.registerLink.some
  · exact KeepsOpt.none

theorem Keeps.notLocal {c : Cur} (h : Keeps s₀ s) : Keeps s₀ (notLocal s c) := h.raise

theorem Keeps.execEvsend {d : Fin 16} {a b : SReg} (h : Keeps s₀ s) : KeepsOut s₀ (execEvsend d a b s) := by
  unfold Machine.execEvsend
  refine h.unit (fun _ _ => ?_)
  split
  · exact h.notLocal
  · dsimp only
    split
    · exact h.raise
    · split
      · exact h.raise
      · exact Keeps.ite h.raise (Keeps.ite h.raise (h.gate (fun _ k1 => k1.metered (fun _ k2 => Keeps.ite k2.retire
            (Keeps.ite k2.waitUnit k2.postEvent.retire.selfHeld)))))

theorem Keeps.execEvnext {d : Fin 30} (h : Keeps s₀ s) : KeepsOut s₀ (execEvnext d s) := by
  unfold Machine.execEvnext
  refine h.unit (fun _ _ => ?_)
  split
  · exact h.notLocal
  · split
    · split
      · exact h.lvLeave.retire
      · exact h.lvLeave.raise
      · exact h.parkUnit
    · exact h.lvRoom h.modEvu.waitUnit.modThread

theorem Keeps.execEvnull (h : Keeps s₀ s) :
    KeepsOut s₀ (execEvnull s) := h.unit (fun _ _ => Keeps.ite h.notLocal (Keeps.ite h.retire h.sendAll.retire))

theorem Keeps.execLkset {k : Fin 8} {a b : SReg} (h : Keeps s₀ s) : KeepsOut s₀ (execLkset k a b s) := by
  unfold Machine.execLkset
  refine h.unit (fun _ _ => ?_)
  split
  · exact h.notLocal
  · dsimp only
    split
    · exact h.raise
    · exact Keeps.ite h.raise (Keeps.ite h.raise (Keeps.ite h.raise (h.gate (fun _ k1 => Keeps.ite (k1.lvLead (fun _ k2 =>
          k2.metered (fun _ k3 => k3.recordInbound.recordOutbound.retire.lvOver)) (fun _ k4 => k4.metered (fun _ k5 =>
          k5.retire))) (k1.metered (fun _ k6 => Keeps.ite k6.startFlight k6.startFlight.sched))))))

/-! ### What the functions of Launch.lean keep -/

theorem Keeps.setTimer {tick : ℕ} {a : Act} (h : Keeps s₀ s) : Keeps s₀ (setTimer s tick a) := h.also

theorem Keeps.scanAt {cycle : ℕ} (h : Keeps s₀ s) : Keeps s₀ (scanAt s cycle) := h.also

theorem Keeps.scanNext (h : Keeps s₀ s) : Keeps s₀ (scanNext s) := h.scanAt

theorem Keeps.startSlice {partn serial from_ : ℕ} (h : Keeps s₀ s) : Keeps s₀ (startSlice s partn serial from_) := by
  unfold Machine.startSlice
  split
  · exact Keeps.ite h h.modTeam.setTimer
  · exact h

theorem Keeps.queueKick {partn q : ℕ} (h : Keeps s₀ s) : Keeps s₀ (queueKick s partn q) := Keeps.ite h.modQueue.schedAt h

theorem Keeps.headReturns {partn q index : ℕ} (h : Keeps s₀ s) : Keeps s₀ (headReturns s partn q index) := by
  unfold Machine.headReturns
  dsimp only
  split
  · exact h
  · split
    · refine (h.foldl_fst (fun _ _ k1 => ?_)).modQueue.scanNext
      split
      · rename_i e1
        exact k1.hwLoad.of_fst e1
      · rename_i e1
        exact k1.hwLoad.of_fst e1
    · refine (h.foldl_fst (fun _ _ k1 => ?_)).modQueue
      split
      · rename_i e1
        exact k1.hwLoad.of_fst e1
      · rename_i e1
        exact k1.hwLoad.of_fst e1

theorem Keeps.execHeadRead (h : Keeps s₀ s) : KeepsOut s₀ (execHeadRead s) := by
  unfold Machine.execHeadRead
  refine h.actRow (fun _ _ k1 => ?_)
  split
  · exact k1.headReturns.some
  · exact KeepsOpt.none

theorem Keeps.recordWord {partn : ℕ} {q : Queue} {i : ℕ} {f : Word → Word} (h : Keeps s₀ s) :
    Keeps s₀ (recordWord s partn q i f) := Keeps.ite h h.hwLoad.hwStore

theorem Keeps.tailWritten {partn q : ℕ} {v : Word} (h : Keeps s₀ s) :
    Keeps s₀ (tailWritten s partn q v) := Keeps.ite h.modQueue.queueKick h.recordWord

theorem Keeps.execTailWrite (h : Keeps s₀ s) : KeepsOut s₀ (execTailWrite s) := by
  unfold Machine.execTailWrite
  refine h.actRow (fun _ _ k1 => ?_)
  split
  · exact k1.tailWritten.some
  · exact KeepsOpt.none

theorem Keeps.switchInQueue {partn q : ℕ} (h : Keeps s₀ s) : Keeps s₀ (switchInQueue s partn q) := by
  unfold Machine.switchInQueue
  dsimp only
  split
  · exact h
  · split
    · refine h.foldl_fst (fun _ _ k1 => ?_)
      split
      · rename_i e1
        exact k1.hwLoad.of_fst e1
      · rename_i e1
        exact k1.hwLoad.of_fst e1
    · refine (h.foldl_fst (fun _ _ k1 => ?_)).modQueue.queueKick.scanNext
      split
      · rename_i e1
        exact k1.hwLoad.of_fst e1
      · rename_i e1
        exact k1.hwLoad.of_fst e1

theorem Keeps.switchOutQueue {partn q : ℕ} (h : Keeps s₀ s) :
    Keeps s₀ (switchOutQueue s partn q) := Keeps.ite h (h.foldl_fst (fun _ _ k1 => k1.hwStore)).modQueue

theorem Keeps.execSwitchIn (h : Keeps s₀ s) : KeepsOut s₀ (execSwitchIn s) := by
  unfold Machine.execSwitchIn
  refine h.actRow (fun _ _ k1 => ?_)
  split
  · exact k1.switchInQueue.some
  · exact KeepsOpt.none

theorem Keeps.execSwitchOut (h : Keeps s₀ s) : KeepsOut s₀ (execSwitchOut s) := by
  unfold Machine.execSwitchOut
  refine h.actRow (fun _ _ k1 => ?_)
  split
  · exact k1.switchOutQueue.some
  · exact KeepsOpt.none

theorem Keeps.advanceQueue {partn q : ℕ} (h : Keeps s₀ s) :
    Keeps s₀ (advanceQueue s partn q) := Keeps.ite h.also.modQueue.queueKick h.also.modQueue.recordWord

theorem Keeps.execLaunch (h : Keeps s₀ s) : KeepsOut s₀ (execLaunch s) := by
  unfold Machine.execLaunch
  refine h.actRow (fun _ _ k1 => ?_)
  split
  · split
    · exact KeepsOpt.ite k1.modPart.scanNext.some KeepsOpt.none
    · exact KeepsOpt.none
  · exact KeepsOpt.none

theorem Keeps.tellOrigin {partn serial : ℕ} {t : Team} (h : Keeps s₀ s) : Keeps s₀ (tellOrigin s partn serial t) := by
  unfold Machine.tellOrigin
  split
  · exact h
  · exact Keeps.ite h.modQueue h.modQueue.recordWord
  · exact h.schedStatus

theorem Keeps.retireTeam {partn serial : ℕ} {t : Team} (h : Keeps s₀ s) :
    Keeps s₀ (retireTeam s partn serial t) := (h.forEach (fun _ _ k1 => k1.modTile)).tellOrigin.modPart.also.scanNext

theorem Keeps.teamCheck {partn serial : ℕ} (h : Keeps s₀ s) : Keeps s₀ (teamCheck s partn serial) := by
  unfold Machine.teamCheck
  split
  · exact Keeps.ite h.retireTeam h
  · exact h

theorem Keeps.withdrawWaits {u : Nat} (h : Keeps s₀ s) : Keeps s₀ (withdrawWaits s u) := by
  unfold Machine.withdrawWaits
  have k : Keeps s₀ { s with ports := s.ports.map fun e => (e.1, { e.2 with waiters := reqsWithout u e.2.waiters }) } := h.also
  refine Keeps.unsched ?_
  exact k.withTiles (keysRise_mapValues _ _)

theorem Keeps.dropLeap {u : Nat} (h : Keeps s₀ s) : Keeps s₀ (dropLeap s u) :=
  Keeps.forEach (h.unsched.withTiles (keysRise_mapValues _ _)) fun _ _ k => k.modTile.slotFreed

theorem Keeps.endThread {u : Nat} (h : Keeps s₀ s) : Keeps s₀ (endThread s u) := by
  unfold Machine.endThread
  split
  · exact h
  · have k := h.exitPromise (u := u) |>.withdrawWaits (u := u) |>.dropLeap (u := u)
      |>.withThreads (m := del _ u) (keysRise_del _ _)
    refine (Keeps.slotFreed ?_).teamCheck
    split
    · exact k.modTile.lvWake.recheck
    · exact k.modTile

theorem Keeps.terminateThread {u : ℕ} (h : Keeps s₀ s) : Keeps s₀ (terminateThread s u) := by
  unfold Machine.terminateThread
  split
  · exact h
  · split
    · exact h.withdrawWaits.modThread
    · exact h.endThread

theorem Keeps.cleanRows {tile : ℕ} {rows : List ℕ} (h : Keeps s₀ s) : Keeps s₀ (cleanRows s tile rows) := by
  unfold Machine.cleanRows
  exact h.modTile

theorem Keeps.bear {th : Thread} (h : Keeps s₀ s) : Keeps s₀ (bear s th) := by
  have k := (h.cleanRows (tile := th.tile) (rows := (freeRows s th.tile).take (rowsFor th.vn th.dwin))).withThreads
    (m := ins _ _ { th with rows := (freeRows s th.tile).take (rowsFor th.vn th.dwin) }) (keysRise_ins _ s.nextUid _)
  exact k.also

theorem Keeps.launchThread {p : Placement} {j : Job} {gx gy tile idx k slot role : ℕ} (h : Keeps s₀ s) :
    Keeps s₀ (launchThread s p j gx gy tile idx k slot role) := h.bear

theorem Keeps.resetCore {tile : Nat} {ltm : Bool} (h : Keeps s₀ s) : Keeps s₀ (resetCore s tile ltm) := by
  unfold Machine.resetCore
  refine Keeps.modMxe ?_
  exact Keeps.withAcc h.modTile fun hm => wf_filter _ _ hm.2

theorem Keeps.startTeam {p : Placement} (h : Keeps s₀ s) : Keeps s₀ (startTeam s p) := by
  unfold Machine.startTeam
  dsimp only
  split
  · exact h
  · refine h.forEach (fun _ _ k1 => k1.resetCore.forEach (fun _ _ k2 => ?_))
    split
    · exact k2.launchThread
    · exact k2.launchThread

theorem Keeps.placementDone {p : Placement} (h : Keeps s₀ s) : KeepsOpt s₀ (placementDone s p) := by
  unfold Machine.placementDone
  split
  · exact KeepsOpt.none
  · dsimp only
    refine Keeps.some ?_
    split
    · refine Keeps.teamCheck ?_
      split
      · exact h.modTeam.startTeam.startSlice.advanceQueue
      · exact h.modTeam.startTeam.startSlice
    · split
      · exact h.modTeam.startTeam.startSlice.advanceQueue
      · exact h.modTeam.startTeam.startSlice

theorem Keeps.decide_ {partn serial ox oy : ℕ} {j : Job} {src : TeamSrc} (h : Keeps s₀ s) :
    Keeps s₀ (decide_ s partn serial ox oy j src) := h.modPart.schedAt

theorem Keeps.dropDev {partn : ℕ} (h : Keeps s₀ s) : Keeps s₀ (dropDev s partn) := h.modPart.unparkPush

theorem Keeps.rejectHead {partn q : ℕ} {j : Job} {reason : ℕ} (h : Keeps s₀ s) :
    Keeps s₀ (rejectHead s partn q j reason) := Keeps.ite h.dropDev.schedStatus.teamCheck h.modQueue.advanceQueue

theorem Keeps.tryHead {pr key : ℕ} (h : Keeps s₀ s) : Keeps s₀ (tryHead s pr key) := by
  obtain ⟨body, hb⟩ : ∃ g, g = @Machine.tryHead := ⟨_, rfl⟩
  obtain ⟨p, hp⟩ : ∃ p, p = body s pr key := ⟨_, rfl⟩
  rw [← hb, ← hp]
  delta Machine.tryHead at hb
  obtain ⟨headAt', e_headAt⟩ : ∃ g, g = @Machine.headAt := ⟨_, rfl⟩
  obtain ⟨frameOf', e_frameOf⟩ : ∃ g, g = @Machine.frameOf := ⟨_, rfl⟩
  obtain ⟨launchReject', e_launchReject⟩ : ∃ g, g = @Machine.launchReject := ⟨_, rfl⟩
  obtain ⟨freeOrigin', e_freeOrigin⟩ : ∃ g, g = @Machine.freeOrigin := ⟨_, rfl⟩
  rw [← e_headAt, ← e_frameOf, ← e_launchReject, ← e_freeOrigin] at hb
  rw [hb] at hp
  dsimp only at hp
  split at hp
  · split at hp
    · subst hp
      exact h
    · split at hp
      · subst hp
        exact h.rejectHead
      · split at hp
        · subst hp
          exact h
        · split at hp
          · subst hp
            exact h
          · subst hp
            exact (Keeps.ite h.decide_.dropDev h.decide_.modQueue).also
  · subst hp
    exact h

theorem Keeps.tryRestore {x : ℕ × Image} (h : Keeps s₀ s) : Keeps s₀ (tryRestore s x) := by
  unfold Machine.tryRestore
  dsimp only
  split
  · exact h
  · exact Keeps.ite h.modPart.schedAt h

theorem Keeps.trySup {partn : ℕ} (h : Keeps s₀ s) : Keeps s₀ (trySup s partn) := by
  unfold Machine.trySup
  dsimp only
  split
  · split
    · exact h
    · split
      · exact h
      · exact h.decide_.modPart
  · exact h

theorem Keeps.markTried (h : Keeps s₀ s) : Keeps s₀ (markTried s) := h.withParts (keysRise_mapValues _ _)

theorem Keeps.scanAll (h : Keeps s₀ s) :
    Keeps s₀ (scanAll s) := (h.also.markTried.forEach (fun _ _ k1 => k1.trySup)).forEach (fun _ _ k2 => (k2.forEach
        (fun _ _ k3 => k3.tryHead)).forEach (fun _ _ k4 => k4.tryRestore))

theorem Keeps.execScan (h : Keeps s₀ s) : KeepsOut s₀ (execScan s) := by
  unfold Machine.execScan
  refine h.actRow (fun _ _ k1 => ?_)
  split
  · exact k1.scanAll.some
  · exact KeepsOpt.none

theorem Keeps.request {partn serial : ℕ} {r : PreReq} (h : Keeps s₀ s) : Keeps s₀ (request s partn serial r) := by
  unfold Machine.request
  split
  · exact h
  · exact Keeps.ite (Keeps.ite h h.modTeam) (Keeps.ite h.modTeam h.modTeam.setTimer)

theorem Keeps.execSliceExpiry (h : Keeps s₀ s) : KeepsOut s₀ (execSliceExpiry s) := by
  unfold Machine.execSliceExpiry
  refine h.actRow (fun _ _ k1 => ?_)
  split
  · split
    · exact k1.some
    · exact KeepsOpt.ite k1.some (KeepsOpt.ite k1.request.some k1.startSlice.some)
  · exact KeepsOpt.none

theorem Keeps.preqOutcome {partn n : ℕ} (h : Keeps s₀ s) : Keeps s₀ (preqOutcome s partn n) := h.modPart

theorem Keeps.execSave (h : Keeps s₀ s) : KeepsOut s₀ (execSave s) := by
  unfold Machine.execSave
  refine h.actRow (fun _ _ k1 => ?_)
  split
  · split
    · exact k1.preqOutcome.some
    · exact KeepsOpt.ite k1.preqOutcome.some (KeepsOpt.ite k1.preqOutcome.some k1.request.modPart.some)
  · exact KeepsOpt.none

theorem Keeps.teamEnds {partn serial : ℕ} (h : Keeps s₀ s) : Keeps s₀ (teamEnds s partn serial) := h.modTeam

theorem Keeps.terminateTeam {partn serial : ℕ} (h : Keeps s₀ s) :
    Keeps s₀ (terminateTeam s partn serial) := (h.teamEnds.forEach (fun _ _ k1 => k1.terminateThread)).teamCheck

theorem Keeps.execTeamTerminate (h : Keeps s₀ s) : KeepsOut s₀ (execTeamTerminate s) := by
  unfold Machine.execTeamTerminate
  refine h.actRow (fun _ _ k1 => ?_)
  split
  · split
    · exact k1.preqOutcome.some
    · exact KeepsOpt.ite k1.preqOutcome.some (KeepsOpt.ite k1.preqOutcome.some k1.terminateTeam.preqOutcome.some)
  · exact KeepsOpt.none

theorem Keeps.execDiscard (h : Keeps s₀ s) : KeepsOut s₀ (execDiscard s) := by
  unfold Machine.execDiscard
  refine h.actRow (fun _ _ k1 => ?_)
  split
  · split
    · exact KeepsOpt.ite k1.preqOutcome.some k1.modPart.tellOrigin.scanNext.preqOutcome.some
    · exact k1.preqOutcome.some
  · exact KeepsOpt.none

theorem Keeps.execCreate (h : Keeps s₀ s) : KeepsOut s₀ (execCreate s) := by
  unfold Machine.execCreate
  refine h.actRow (fun _ _ k1 => ?_)
  split
  · exact KeepsOpt.ite k1.modPart.some (KeepsOpt.ite k1.modPart.some (KeepsOpt.ite k1.modPart.some
        (KeepsOpt.ite k1.modPart.some k1.submit.modPart.some)))
  · exact KeepsOpt.none

theorem Keeps.execDelete (h : Keeps s₀ s) : KeepsOut s₀ (execDelete s) := by
  unfold Machine.execDelete
  refine h.actRow (fun _ _ k1 => ?_)
  split
  · exact KeepsOpt.ite k1.modPart.some k1.submit.modPart.some
  · exact KeepsOpt.none

theorem Keeps.createEffect {partn : ℕ} (h : Keeps s₀ s) :
    Keeps s₀ (createEffect s partn) := h.modPart.scanAt.forEach (fun _ _ k1 => k1.queueKick)

theorem Keeps.deleteEffect {partn : ℕ} (h : Keeps s₀ s) : Keeps s₀ (deleteEffect s partn) := h.modPart

/-! ### What the functions of Jobs.lean keep -/

theorem Keeps.pushWords {partn : ℕ} {p : Ptr} (h : Keeps s₀ s) : Keeps s₀ (pushWords s partn p).1 := by
  unfold Machine.pushWords
  refine h.foldl_fst (fun _ _ k1 => ?_)
  split
  · exact k1
  · split
    · rename_i e1
      exact k1.hwLoad.of_fst e1
    · rename_i e1
      exact k1.hwLoad.of_fst e1

theorem Keeps.trailPush {c : Cur} {th : Thread} {d : SReg} {w : Bool} (h : Keeps s₀ s) : Keeps s₀ (trailPush s c th d w) := by
  unfold Machine.trailPush
  split
  · exact h.retire
  · split
    · exact h.lvLeave.retire
    · exact Keeps.ite h.lvLeave.waitUnit.modThread h.lvLeave.retire
    · exact h.lvLeave.retire

theorem Keeps.enqueueJob {c : Cur} {th : Thread} {j : Job} {q : ℕ} {w : Bool} (h : Keeps s₀ s) :
    Keeps s₀ (enqueueJob s c th j q w) := Keeps.ite (Keeps.ite h.freshId h.freshId.lvEnter).waitUnit (Keeps.ite
        (Keeps.ite h.freshId h.freshId.lvEnter).enterQueue.waitUnit.modThread
        (Keeps.ite h.freshId h.freshId.lvEnter).enterQueue.retire)

theorem Keeps.pushUnit {d a : SReg} {q : ℕ} {w : Bool} (h : Keeps s₀ s) : KeepsOut s₀ (pushUnit s d a q w) := by
  unfold Machine.pushUnit
  refine h.unit (fun _ _ => ?_)
  dsimp only
  split
  · exact h.raise
  · split
    · exact h.raise
    · split
      · exact h.raise
      · split
        · exact h.parkUnit
        · split
          · exact h.modThread
          · split
            · rename_i e1
              exact (h.pushWords.of_fst e1).raise
            · rename_i e1
              split
              · exact (h.pushWords.of_fst e1).raise
              · exact (h.pushWords.of_fst e1).gate (fun _ k1 => Keeps.ite (k1.metered (fun _ k2 =>
                    Keeps.ite k2.trailPush k2.enqueueJob)) (Keeps.ite k1.trailPush k1.enqueueJob))

theorem Keeps.execJpush {d a : SReg} {q : Fin 3} (h : Keeps s₀ s) : KeepsOut s₀ (execJpush d a q s) := h.pushUnit

theorem Keeps.execJpushW {d a : SReg} {q : Fin 3} (h : Keeps s₀ s) : KeepsOut s₀ (execJpushW d a q s) := h.pushUnit

theorem Keeps.checkTeams {partn : ℕ} (h : Keeps s₀ s) : Keeps s₀ (checkTeams s partn) := h.forEach (fun _ _ k1 => k1.teamCheck)

theorem Keeps.execJobEnd (h : Keeps s₀ s) : KeepsOut s₀ (execJobEnd s) := by
  unfold Machine.execJobEnd
  refine h.actRow (fun _ _ k1 => ?_)
  split
  · dsimp only
    split
    · exact KeepsOpt.ite (Keeps.ite k1.endCopy k1.endMatrix).checkTeams.some KeepsOpt.none
    · exact KeepsOpt.none
  · exact KeepsOpt.none

theorem Keeps.statusDue {j : Job} {w : Word} (h : Keeps s₀ s) :
    Keeps s₀ (statusDue s j w) := Keeps.ite h.schedStatus h.statusArrives

theorem Keeps.execJobStatusWord (h : Keeps s₀ s) : KeepsOut s₀ (execJobStatusWord s) := by
  unfold Machine.execJobStatusWord
  refine h.actRow (fun _ _ k1 => ?_)
  split
  · exact k1.statusDue.some
  · exact KeepsOpt.none

theorem Keeps.execCollProceed (h : Keeps s₀ s) : KeepsOut s₀ (execCollProceed s) := by
  unfold Machine.execCollProceed
  refine h.actRow (fun _ _ k1 => ?_)
  split
  · exact k1.collProceeds.andThen (fun _ k1 => k1.checkTeams)
  · exact KeepsOpt.none

theorem Keeps.execMemberTimeout (h : Keeps s₀ s) : KeepsOut s₀ (execMemberTimeout s) := by
  unfold Machine.execMemberTimeout
  refine h.actRow (fun _ _ k1 => ?_)
  split
  · dsimp only
    split
    · exact k1.memberTimesOut.checkTeams.some
    · exact k1.memberTimesOut.some
  · exact KeepsOpt.none

theorem Keeps.execDigestDecision (h : Keeps s₀ s) : KeepsOut s₀ (execDigestDecision s) := by
  unfold Machine.execDigestDecision
  refine h.actRow (fun _ _ k1 => ?_)
  split
  · exact k1.digestDecides.andThen (fun _ k1 => k1.checkTeams)
  · exact KeepsOpt.none

/-! ### What the functions of System.lean keep -/

theorem Keeps.sharedWrite {partn tile n : ℕ} {v : Word} (h : Keeps s₀ s) : Keeps s₀ (sharedWrite s partn tile n v) := by
  unfold Machine.sharedWrite
  dsimp only
  split
  · exact Keeps.ite h.modPart h
  · exact h.modPart
  · exact Keeps.ite h.modPart h
  · exact Keeps.ite h.modPart h
  · exact Keeps.ite h.modPart h
  · exact Keeps.ite h.modPart h
  · exact h.modPart
  · exact Keeps.ite h.modPart h
  · exact Keeps.ite h.modPart h
  · exact Keeps.ite h.modPart h
  · exact Keeps.ite h.modTile h
  · exact Keeps.ite h.modTile h
  · exact Keeps.ite h.modTile h
  · exact h

theorem Keeps.execNop (h : Keeps s₀ s) : KeepsOut s₀ (execNop s) := h.unit (fun _ _ => h.retire)

theorem Keeps.execTrap {imm : BitVec 12} (h : Keeps s₀ s) : KeepsOut s₀ (execTrap imm s) := h.unit (fun _ _ => h.raise)

theorem Keeps.execEbreak {imm : BitVec 12} (h : Keeps s₀ s) : KeepsOut s₀ (execEbreak imm s) := h.unit (fun _ _ => h.raise)

theorem Keeps.execEret (h : Keeps s₀ s) : KeepsOut s₀ (execEret s) := by
  unfold Machine.execEret
  refine h.unit (fun _ _ => ?_)
  split
  · exact h.issued.modThread
  · exact h.raise

theorem Keeps.raisePrivileged (h : Keeps s₀ s) : KeepsOut s₀ (raisePrivileged s) := h.withCur (fun _ _ => h.raise)

theorem Keeps.execMfs {d : SReg} {n : BitVec 12} (h : Keeps s₀ s) :
    KeepsOut s₀ (execMfs d n s) := KeepsOut.ite h.raisePrivileged (h.unit (fun _ _ => h.lvShare (fun _ k1 => k1) (fun _ _ k2 =>
        k2.retire)))

theorem Keeps.execMts {a : SReg} {n : BitVec 12} (h : Keeps s₀ s) : KeepsOut s₀ (execMts a n s) := by
  unfold Machine.execMts
  split
  · exact h.raisePrivileged
  · refine h.unit (fun _ _ => h.gate (fun _ k1 => ?_))
    dsimp only
    split
    · exact k1.retire
    · split
      · exact k1.retire.schedAt
      · exact k1.retire

theorem Keeps.execTfork {d a : SReg} (h : Keeps s₀ s) : KeepsOut s₀ (execTfork d a s) := by
  unfold Machine.execTfork
  refine h.unit (fun _ _ => ?_)
  dsimp only
  split
  · exact h.lvShare (fun _ k1 => k1) (fun _ _ k2 => k2.retire)
  · split
    · exact h.retire
    · exact Keeps.ite h.retire h.bear.retire

theorem Keeps.execTexit (h : Keeps s₀ s) : KeepsOut s₀ (execTexit s) := h.unit (fun _ _ => h.issued.endThread)

theorem Keeps.execTyield (h : Keeps s₀ s) : KeepsOut s₀ (execTyield s) := h.unit (fun _ _ => h.issued.modThread)

theorem Keeps.sendRecord {r : TraceRec} (h : Keeps s₀ s) : Keeps s₀ (sendRecord s r) := Keeps.ite h.also h

theorem Keeps.countMarks {th : Thread} {pc : Word} (h : Keeps s₀ s) : Keeps s₀ (countMarks s th pc) := h.modTrace

theorem Keeps.execTmark {imm : BitVec 12} (h : Keeps s₀ s) :
    KeepsOut s₀ (execTmark imm s) := h.unit (fun _ _ => (Keeps.ite h h.countMarks.sendRecord).retire)

theorem Keeps.execSafept {a : SReg} (h : Keeps s₀ s) :
    KeepsOut s₀ (execSafept a s) := h.unit (fun _ _ => Keeps.ite h.waitUnit.modThread h.retire)

theorem Keeps.execFence {scope : Fin 6} {engines : BitVec 3} (h : Keeps s₀ s) :
    KeepsOut s₀ (execFence scope engines s) := h.unit (fun _ _ => Keeps.ite h.retire h.waitUnit.modThread)

theorem Keeps.fenceEnds {u : ℕ} (h : Keeps s₀ s) : Keeps s₀ (fenceEnds s u) := by
  unfold Machine.fenceEnds
  split
  · split
    · exact Keeps.ite h.modThread h
    · exact h
  · exact h

theorem Keeps.execRclr {d : SReg} (h : Keeps s₀ s) : KeepsOut s₀ (execRclr d s) := h.unit (fun _ _ => h.retire)

/-! ### What the functions of Trace.lean keep -/

theorem Keeps.holdThread {u : ℕ} (h : Keeps s₀ s) : Keeps s₀ (holdThread s u) := h.modThread.rvPause

theorem Keeps.freeThread {step : Bool} {u : ℕ} (h : Keeps s₀ s) : Keeps s₀ (freeThread step s u) := by
  unfold Machine.freeThread
  split
  · exact h
  · split
    · exact h
    · dsimp only
      split
      · exact Keeps.ite h.modThread.rvCount h.modThread
      · exact h.modThread

theorem Keeps.startHold {partn serial : ℕ} (h : Keeps s₀ s) : Keeps s₀ (startHold s partn serial) := h.modTeam

theorem Keeps.holdTick {partn serial : ℕ} (h : Keeps s₀ s) : Keeps s₀ (holdTick s partn serial) := by
  unfold Machine.holdTick
  split
  · exact Keeps.ite (Keeps.ite (h.forEach (fun _ _ k1 => k1.holdThread)).modTeam (h.forEach (fun _ _ k2 => k2.holdThread))) h
  · exact h

theorem Keeps.dcmdSet {partn out tid : ℕ} {hold : Bool} (h : Keeps s₀ s) : Keeps s₀ (dcmdSet s partn out tid hold) := h.modTrace

theorem Keeps.dcmdSettles (h : Keeps s₀ s) : KeepsOpt s₀ (dcmdSettles s) := KeepsOpt.map (fun _ => h.modTrace)

theorem Keeps.teamRow {partn tid : ℕ} {hold : Bool} {f : ℕ → State} {out : ℕ} (h : Keeps s₀ s) (hf : ∀ x, Keeps s₀ (f x)) :
    Keeps s₀ (teamRow s partn tid hold f out) := by
  unfold Machine.teamRow
  split
  · exact h.dcmdSet
  · exact (hf _).dcmdSet

theorem Keeps.threadRow {partn tid : ℕ} {f : List ℕ → State × ℕ} (h : Keeps s₀ s) (hf : ∀ x, Keeps s₀ (f x).1) :
    Keeps s₀ (threadRow s partn tid f) := by
  unfold Machine.threadRow
  split
  · exact h.dcmdSet
  · exact (hf _).dcmdSet

theorem Keeps.execHold (h : Keeps s₀ s) : KeepsOut s₀ (execHold s) := by
  unfold Machine.execHold
  refine h.actRow (fun _ _ k1 => ?_)
  split
  · exact (k1.teamRow (fun _ => k1.startHold)).some
  · exact KeepsOpt.none

theorem Keeps.execRelease (h : Keeps s₀ s) : KeepsOut s₀ (execRelease s) := by
  unfold Machine.execRelease
  refine h.actRow (fun _ _ k1 => ?_)
  split
  · exact (k1.teamRow (fun _ => k1.modTeam.forEach (fun _ _ k1 => k1.freeThread))).some
  · exact KeepsOpt.none

theorem Keeps.execStep (h : Keeps s₀ s) : KeepsOut s₀ (execStep s) := by
  unfold Machine.execStep
  refine h.actRow (fun _ _ k1 => ?_)
  split
  · exact (k1.threadRow (fun _ => Keeps.ite_fst k1 (k1.forEach (fun _ _ k1 => k1.freeThread)))).some
  · exact KeepsOpt.none

theorem Keeps.execCancel (h : Keeps s₀ s) : KeepsOut s₀ (execCancel s) := by
  unfold Machine.execCancel
  refine h.actRow (fun _ _ k1 => ?_)
  split
  · exact (k1.threadRow (fun _ => k1.forEach (fun _ _ k1 => k1.holdThread))).some
  · exact KeepsOpt.none

theorem Keeps.execReleaseOne (h : Keeps s₀ s) : KeepsOut s₀ (execReleaseOne s) := by
  unfold Machine.execReleaseOne
  refine h.actRow (fun _ _ k1 => ?_)
  split
  · exact (k1.threadRow (fun _ => k1.forEach (fun _ _ k1 => k1.freeThread))).some
  · exact KeepsOpt.none

theorem Keeps.execArmedTaskEntryWrite (h : Keeps s₀ s) : KeepsOut s₀ (execArmedTaskEntryWrite s) := by
  unfold Machine.execArmedTaskEntryWrite
  refine h.actRow (fun _ _ k1 => ?_)
  split
  · exact KeepsOpt.ite k1.modTrace.some k1.some
  · exact KeepsOpt.none

theorem Keeps.windowWrite {u : ℕ} {th : Thread} {o : ℕ} {v : Word} (h : Keeps s₀ s) :
    Keeps s₀ (windowWrite s u th o v) := Keeps.ite h.modThread (Keeps.ite h.modThread (Keeps.ite h (Keeps.ite h.modThread
        (Keeps.ite h.modThread (Keeps.ite h (Keeps.ite h.modThread (Keeps.ite h.sharedWrite h.modThread)))))))

theorem Keeps.debugWrite {tile off : ℕ} {v : Word} (h : Keeps s₀ s) : Keeps s₀ (debugWrite s tile off v) := by
  unfold Machine.debugWrite
  split
  · exact h
  · split
    · exact h
    · split
      · exact h
      · split
        · exact h
        · split
          · exact h.windowWrite.recheck
          · exact Keeps.ite h.granSet h
          · exact Keeps.ite h.winSet h

theorem Keeps.execDebugWindowWrite (h : Keeps s₀ s) : KeepsOut s₀ (execDebugWindowWrite s) := by
  unfold Machine.execDebugWindowWrite
  refine h.actRow (fun _ _ k1 => ?_)
  split
  · exact k1.debugWrite.some
  · exact KeepsOpt.none

theorem Keeps.cipherWords {partn : Nat} {p : Ptr} {n : Nat} (h : Keeps s₀ s) : Keeps s₀ (cipherWords partn p n s) := by
  induction n generalizing s p with
  | zero => exact h
  | succ n ih => exact ih h.freshFree.hwStore

theorem Keeps.execDump (h : Keeps s₀ s) : KeepsOut s₀ (execDump s) := by
  unfold Machine.execDump
  refine h.actRow (fun _ _ k1 => ?_)
  split
  · exact KeepsOpt.ite k1.cipherWords.some k1.some
  · exact KeepsOpt.none

theorem Keeps.execTriggerArm (h : Keeps s₀ s) : KeepsOut s₀ (execTriggerArm s) := by
  unfold Machine.execTriggerArm
  refine h.actRow (fun _ _ k1 => ?_)
  split
  · exact KeepsOpt.ite k1.some k1.modTrace.some
  · exact KeepsOpt.none

theorem Keeps.markPc {th : Thread} (h : Keeps s₀ s) : Keeps s₀ (markPc s th) := Keeps.ite h h.modTrace

theorem Keeps.trigRecord {partn k : ℕ} {hit : Option (ℕ × ℕ × Word)} (h : Keeps s₀ s) :
    Keeps s₀ (trigRecord s partn k hit) := by
  unfold Machine.trigRecord
  split
  · exact h.also
  · exact h.freshFree.freshFree.also

theorem Keeps.trigMoves {partn k : ℕ} (h : Keeps s₀ s) : KeepsOpt s₀ (trigMoves s partn k) := by
  unfold Machine.trigMoves
  dsimp only
  split
  · exact KeepsOpt.none
  · split
    · exact (Keeps.ite (Keeps.ite h.trigRecord h).modTrace.startHold (Keeps.ite h.trigRecord h).modTrace).some
    · exact (Keeps.ite h.trigRecord h).modTrace.some

theorem Keeps.execTriggerTransition (h : Keeps s₀ s) : KeepsOut s₀ (execTriggerTransition s) := by
  unfold Machine.execTriggerTransition
  refine h.actRow (fun _ _ k1 => ?_)
  split
  · exact k1.trigMoves
  · exact KeepsOpt.none

theorem Keeps.writeRecord {r : TraceRec} (h : Keeps s₀ s) : Keeps s₀ (writeRecord s r) := by
  unfold Machine.writeRecord
  dsimp only
  split
  · exact h
  · split
    · rename_i e1
      exact h.hwKey.of_fst e1
    · rename_i e1
      exact (h.hwKey.of_fst e1).hwRecord.modTrace

theorem Keeps.execTraceRecordWrite (h : Keeps s₀ s) : KeepsOut s₀ (execTraceRecordWrite s) := by
  unfold Machine.execTraceRecordWrite
  refine h.actRow (fun _ _ k1 => ?_)
  split
  · split
    · exact k1.also.writeRecord.some
    · exact KeepsOpt.none
  · exact KeepsOpt.none

theorem Keeps.foldPulse {partn : ℕ} (h : Keeps s₀ s) :
    Keeps s₀ (foldPulse s partn) := h.modTrace.forEach (fun _ _ k1 => Keeps.ite k1.modTile.modHist k1.modTile)

theorem Keeps.execSolsticePulse (h : Keeps s₀ s) : KeepsOut s₀ (execSolsticePulse s) := by
  unfold Machine.execSolsticePulse
  refine h.actRow (fun _ _ k1 => ?_)
  split
  · exact k1.foldPulse.some
  · exact KeepsOpt.none

theorem Keeps.execHistogramClear (h : Keeps s₀ s) : KeepsOut s₀ (execHistogramClear s) := by
  unfold Machine.execHistogramClear
  refine h.actRow (fun _ _ k1 => ?_)
  split
  · exact k1.modHist.some
  · exact KeepsOpt.none

/-! ### What the functions of Ctrl.lean keep -/

theorem Keeps.schedOpt {a : Option Act} (h : Keeps s₀ s) : Keeps s₀ (schedOpt s a) := by
  unfold Machine.schedOpt
  split
  · exact h.schedAt
  · exact h

theorem Keeps.tileWrite {tile off : ℕ} {v : Word} (h : Keeps s₀ s) : Keeps s₀ (tileWrite s tile off v) := by
  unfold Machine.tileWrite
  split
  · exact h.schedOpt
  · split
    · exact h.modTile
    · split
      · exact h.modTile
      · split
        · split
          · exact h.modTile.schedAt
          · exact h
        · exact Keeps.ite h.modTile (Keeps.ite h.modEvu (Keeps.ite h.modEvu (Keeps.ite h.schedAt h)))

theorem Keeps.lqcWrite {partn q : ℕ} {v : Word} (h : Keeps s₀ s) : Keeps s₀ (lqcWrite s partn q v) := by
  unfold Machine.lqcWrite
  dsimp only
  split
  · exact h
  · split
    · exact (Keeps.ite h.modQueue.queueKick h.modQueue.recordWord).schedAt
    · exact (Keeps.ite h.modQueue.queueKick h.modQueue.recordWord).schedAt
    · exact Keeps.ite h.modQueue.queueKick h.modQueue.recordWord

theorem Keeps.lqWrite {partn q o : ℕ} {v : Word} (h : Keeps s₀ s) : Keeps s₀ (lqWrite s partn q o v) := by
  unfold Machine.lqWrite
  dsimp only
  split
  · exact Keeps.ite h.modQueue h
  · exact Keeps.ite h.modQueue h
  · exact h.schedAt
  · exact h.lqcWrite
  · exact Keeps.ite h.modQueue h
  · exact h

theorem Keeps.hfqWrite {off : ℕ} {v : Word} (h : Keeps s₀ s) : Keeps s₀ (hfqWrite s off v) := by
  unfold Machine.hfqWrite
  split
  · exact h.schedAt
  · exact Keeps.ite h.also h
  · exact h.schedAt
  · exact h.also
  · exact h

theorem Keeps.launchWrite {off : ℕ} {v : Word} (h : Keeps s₀ s) : Keeps s₀ (launchWrite s off v) := by
  unfold Machine.launchWrite
  split
  · exact h
  · dsimp only
    split
    · exact h.lqWrite
    · split
      · exact Keeps.ite h.modPart h
      · split
        · exact h.modPart
        · split
          · exact h.schedOpt
          · exact Keeps.ite h.modPart h
          · exact Keeps.ite h.modPart h
          · exact Keeps.ite h.modPart h
          · exact Keeps.ite h.modPart h
          · exact h.schedOpt
          · exact Keeps.ite h.modPart h
          · exact h.modPart
          · exact Keeps.ite h.modPart h
          · exact h

theorem Keeps.traceWrite {off : ℕ} {v : Word} (h : Keeps s₀ s) : Keeps s₀ (traceWrite s off v) := by
  unfold Machine.traceWrite
  split
  · exact h
  · dsimp only
    split
    · exact Keeps.ite h.schedAt h.modTrace
    · split
      · exact h.schedAt
      · split
        · exact h.modTrace
        · exact Keeps.ite h.modTrace h
        · exact Keeps.ite h.modTrace h
        · exact h.modTrace
        · exact Keeps.ite h.modTrace h
        · exact Keeps.ite h.modTrace h
        · exact h.modTrace
        · exact h.modTrace
        · exact Keeps.ite h h.modTrace
        · exact h.schedOpt
        · exact h.schedAt
        · exact h

theorem Keeps.histWrite {die off : ℕ} {v : Word} (h : Keeps s₀ s) : Keeps s₀ (histWrite s die off v) := by
  unfold Machine.histWrite
  split
  · exact Keeps.ite h.modHist.schedAt h.modHist
  · exact h.modHist
  · exact Keeps.ite h.modHist h
  · exact h

theorem Keeps.ckWrite {v : Word} (h : Keeps s₀ s) : Keeps s₀ (ckWrite s v) := by
  unfold Machine.ckWrite
  dsimp only
  split
  · exact h.also
  · exact h.also.schedAt
  · exact h.also.schedAt
  · exact h.also.schedAt
  · exact h

theorem Keeps.rectWrite {partn k : ℕ} {v : Word} (h : Keeps s₀ s) :
    Keeps s₀ (rectWrite s partn k v) := Keeps.ite (Keeps.ite h.schedAt h) (Keeps.ite h.modPart h)

theorem Keeps.keyWrite {partn i : ℕ} {v : Word} (h : Keeps s₀ s) :
    Keeps s₀ (keyWrite s partn i v) := Keeps.ite h.modPart h.modPart.schedAt

theorem Keeps.relWrite {off : ℕ} {v : Word} (h : Keeps s₀ s) :
    Keeps s₀ (relWrite s off v) := Keeps.ite h.ckWrite (Keeps.ite (Keeps.ite h.modLink.schedAt
        (Keeps.ite h.modLink.modLink h.modLink)) (Keeps.ite h.modPart (Keeps.ite h.keyWrite (Keeps.ite h.rectWrite h))))

theorem Keeps.devWrite {unit off : ℕ} {v : Word} (h : Keeps s₀ s) : Keeps s₀ (devWrite s unit off v) := by
  unfold Machine.devWrite
  split
  · exact h.launchWrite
  · exact h.traceWrite
  · exact h.relWrite
  · exact Keeps.ite h.histWrite h

theorem Keeps.ctrlWrite {pl : Place} {v : Word} (h : Keeps s₀ s) : Keeps s₀ (ctrlWrite s pl v) := by
  unfold Machine.ctrlWrite
  split
  · exact h.tileWrite
  · exact h.devWrite
  · exact h

theorem Keeps.execRegisterWrite (h : Keeps s₀ s) : KeepsOut s₀ (execRegisterWrite s) := by
  unfold Machine.execRegisterWrite
  refine h.actRow (fun _ _ k1 => ?_)
  split
  · exact KeepsOpt.map (fun _ => k1.sharedWrite)
  · exact k1.tileWrite.some
  · exact k1.devWrite.some
  · exact KeepsOpt.none

theorem Keeps.execFqbWrite (h : Keeps s₀ s) : KeepsOut s₀ (execFqbWrite s) := by
  unfold Machine.execFqbWrite
  refine h.actRow (fun _ _ k1 => ?_)
  split
  · exact KeepsOpt.ite k1.modPart.some k1.some
  · exact KeepsOpt.none

theorem Keeps.execFqrWrite (h : Keeps s₀ s) : KeepsOut s₀ (execFqrWrite s) := by
  unfold Machine.execFqrWrite
  refine h.actRow (fun _ _ k1 => ?_)
  split
  · exact k1.modPart.some
  · exact KeepsOpt.none

theorem Keeps.execHfqbWrite (h : Keeps s₀ s) : KeepsOut s₀ (execHfqbWrite s) := by
  unfold Machine.execHfqbWrite
  refine h.actRow (fun _ _ k1 => ?_)
  split
  · exact KeepsOpt.ite k1.also.some k1.some
  · exact KeepsOpt.none

theorem Keeps.execHfqrWrite (h : Keeps s₀ s) : KeepsOut s₀ (execHfqrWrite s) := by
  unfold Machine.execHfqrWrite
  refine h.actRow (fun _ _ k1 => ?_)
  split
  · exact k1.also.some
  · exact KeepsOpt.none

theorem Keeps.execDivsClear (h : Keeps s₀ s) : KeepsOut s₀ (execDivsClear s) := by
  unfold Machine.execDivsClear
  refine h.actRow (fun _ _ k1 => ?_)
  split
  · exact k1.modPart.scanNext.some
  · exact KeepsOpt.none

theorem Keeps.hostDone {h' : HostReq} {v : Word} (h : Keeps s₀ s) : Keeps s₀ (hostDone s h' v) := by
  unfold Machine.hostDone
  split
  · exact h
  · exact h.also

theorem Keeps.hostAborts {h' : HostReq} (h : Keeps s₀ s) : Keeps s₀ (hostAborts s h') := h.also

theorem Keeps.hostWindow {h' : HostReq} {partn off : ℕ} (h : Keeps s₀ s) : Keeps s₀ (hostWindow s h' partn off) := by
  unfold Machine.hostWindow
  dsimp only
  split
  · split
    · rename_i e1
      split
      · exact (h.translate.of_fst e1).hostDone
      · split
        · exact (h.translate.of_fst e1).setView.writeWord
        · exact (h.translate.of_fst e1).setView.hostDone
    · rename_i e1
      exact (h.translate.of_fst e1).hostAborts.postHost
    · rename_i e1
      exact (h.translate.of_fst e1).hostAborts
  · exact h.hostAborts

theorem Keeps.hostAccess {h' : HostReq} (h : Keeps s₀ s) : Keeps s₀ (hostAccess s h') := by
  unfold Machine.hostAccess
  split
  · exact h.hostAborts
  · exact h.hostDone
  · exact h.hostWindow
  · split
    · exact h.hostDone
    · split
      · exact h.hostDone
      · split
        · exact Keeps.ite h.hfqWrite h.devWrite
        · exact h.hostDone

theorem Keeps.execHostBarAccess (h : Keeps s₀ s) : KeepsOut s₀ (execHostBarAccess s) := by
  unfold Machine.execHostBarAccess
  refine h.actRow (fun _ _ k1 => ?_)
  split
  · exact k1.hostAccess.some
  · exact KeepsOpt.none

/-! ### What the functions of Dennum.lean keep -/

theorem Keeps.winPut {th : Thread} {g : ℕ} {ws : List Word} (h : Keeps s₀ s) :
    Keeps s₀ (winPut th g ws s) := h.foldl_fst (fun _ _ k1 => k1.winSet)

theorem Keeps.dput {th : Thread} {k : DReg} {v : FV} (h : Keeps s₀ s) : Keeps s₀ (dput th k v s) := h.winPut

theorem Keeps.dputHead {th : Thread} {k : DReg} {h' : Word} (h : Keeps s₀ s) : Keeps s₀ (dputHead th k h' s) := h.winPut

theorem Keeps.draise {c : Cur} {cause : ℕ} {addr info : Word} {progress : ℕ} (h : Keeps s₀ s) :
    Keeps s₀ (draise s c cause addr info progress) := h.raiseEnd

theorem Keeps.dmetered {c : Cur} {th : Thread} {p : Word} {ch progress : ℕ} {k : State → State} (h : Keeps s₀ s)
    (hk : ∀ x, Keeps s₀ x → Keeps s₀ (k x)) :
    Keeps s₀ (dmetered s c th p ch progress k) := Keeps.ite (hk _ h) (Keeps.ite h.draise (hk _ h.modThread))

theorem Keeps.dunit {ds : List DReg} {reads : Thread → List DReg} {n : Need} {k : Cur → Thread → State} (h : Keeps s₀ s)
    (hk : ∀ x y, Keeps s₀ (k x y)) :
    KeepsOut s₀ (dunit s ds reads n k) := by
  unfold Machine.dunit
  refine h.unitChecked (fun _ _ => ?_) (fun _ _ => hk _ _)
  split
  · exact h.draise.some
  · exact KeepsOpt.ite h.draise.some KeepsOpt.none

theorem Keeps.dfinish {c : Cur} {th : Thread} {fl lat : ℕ} {w : State → State} {f : Thread → Thread} (h : Keeps s₀ s)
    (hw : ∀ x, Keeps s₀ x → Keeps s₀ (w x)) :
    Keeps s₀ (dfinish s c th fl lat w f) := Keeps.ite h.raiseEnd (hw _ h).retire

theorem Keeps.dop {d : DReg} {srcs : List DReg} {lat : ℕ → ℕ} {f : Thread → (DReg → FV) → FV × ℕ} (h : Keeps s₀ s) :
    KeepsOut s₀ (dop s d srcs lat f) := h.dunit (fun _ _ => h.dfinish (fun _ k1 => k1.dput))

theorem Keeps.execDadd {d a b : DReg} (h : Keeps s₀ s) : KeepsOut s₀ (execDadd d a b s) := h.dop

theorem Keeps.execDsub {d a b : DReg} (h : Keeps s₀ s) : KeepsOut s₀ (execDsub d a b s) := h.dop

theorem Keeps.execDmul {d a b : DReg} (h : Keeps s₀ s) : KeepsOut s₀ (execDmul d a b s) := h.dop

theorem Keeps.execDdiv {d a b : DReg} (h : Keeps s₀ s) : KeepsOut s₀ (execDdiv d a b s) := h.dop

theorem Keeps.execDfma {d a b : DReg} (h : Keeps s₀ s) : KeepsOut s₀ (execDfma d a b s) := h.dop

theorem Keeps.execDsqrt {d a : DReg} (h : Keeps s₀ s) : KeepsOut s₀ (execDsqrt d a s) := h.dop

theorem Keeps.execDneg {d a : DReg} (h : Keeps s₀ s) : KeepsOut s₀ (execDneg d a s) := h.dop

theorem Keeps.execDabs {d a : DReg} (h : Keeps s₀ s) : KeepsOut s₀ (execDabs d a s) := h.dop

theorem Keeps.execDmov {d a : DReg} (h : Keeps s₀ s) : KeepsOut s₀ (execDmov d a s) := h.dunit (fun _ _ => h.winPut.retire)

theorem Keeps.execDround {d a : DReg} (h : Keeps s₀ s) : KeepsOut s₀ (execDround d a s) := by
  unfold Machine.execDround
  refine h.dunit (fun _ _ => h.dfinish (fun _ k1 => ?_))
  split
  · exact k1.dputHead
  · exact k1.dput

theorem Keeps.execDcmp {p : PReg} {cc : Cond} {a b : DReg} (h : Keeps s₀ s) :
    KeepsOut s₀ (execDcmp p cc a b s) := h.dunit (fun _ _ => h.dfinish (fun _ k1 => k1))

theorem Keeps.execDcvtf {d : DReg} {a : SReg} (h : Keeps s₀ s) :
    KeepsOut s₀ (execDcvtf d a s) := h.dunit (fun _ _ => h.dfinish (fun _ k1 => k1.dput))

theorem Keeps.execDcvti {d : DReg} {a : SReg} (h : Keeps s₀ s) :
    KeepsOut s₀ (execDcvti d a s) := h.dunit (fun _ _ => h.dfinish (fun _ k1 => k1.dput))

theorem Keeps.execDcvtd {d : SReg} {a : DReg} (h : Keeps s₀ s) :
    KeepsOut s₀ (execDcvtd d a s) := h.dunit (fun _ _ => h.dfinish (fun _ k1 => k1))

theorem Keeps.execDcvtdi {d : SReg} {a : DReg} (h : Keeps s₀ s) :
    KeepsOut s₀ (execDcvtdi d a s) := h.dunit (fun _ _ => h.dfinish (fun _ k1 => k1))

theorem Keeps.execDhead {d : SReg} {a : DReg} (h : Keeps s₀ s) : KeepsOut s₀ (execDhead d a s) := h.dunit (fun _ _ => h.retire)

theorem Keeps.execDclass {d : SReg} {a : DReg} (h : Keeps s₀ s) :
    KeepsOut s₀ (execDclass d a s) := h.dunit (fun _ _ => h.retire)

theorem Keeps.precUnit {c : Cur} {th : Thread} {n q : ℕ} (h : Keeps s₀ s) :
    Keeps s₀ (precUnit s c th n q) := Keeps.ite h.draise (Keeps.ite h.draise (h.dfinish (fun _ k1 => k1.winPut)))

theorem Keeps.execPrec {n : Fin 17} {p : ℕ} (h : Keeps s₀ s) : KeepsOut s₀ (execPrec n p s) := h.unit (fun _ _ => h.precUnit)

theorem Keeps.execPrecReg {n : Fin 17} {a : SReg} (h : Keeps s₀ s) :
    KeepsOut s₀ (execPrecReg n a s) := h.unit (fun _ _ => Keeps.ite h.draise h.precUnit)

theorem Keeps.rawAdd {th : Thread} {t : DReg} {got : AMap (List Word)} (h : Keeps s₀ s) :
    Keeps s₀ (rawAdd s th t got) := h.foldl (fun _ _ k1 => Keeps.ite k1.winPut (Keeps.ite k1.winSet
        (Keeps.ite k1.winSet k1.winSet)))

theorem Keeps.ldnWrite {u : ℕ} {th : Thread} {t : DReg} {npc : Ptr} {ready : ℕ} (h : Keeps s₀ s) :
    Keeps s₀ (ldnWrite s u th t npc ready) := by
  unfold Machine.ldnWrite
  dsimp only
  split
  · exact h
  · exact (Keeps.ite h.dputHead h.dput).modThread

theorem Keeps.ldnEnd_failEnd {u : ℕ} {fpc npc : Ptr} {charge j : ℕ} {b : PartFault} {at_ : ℕ} (h : Keeps s₀ s) :
    Keeps s₀ (ldnEnd.failEnd s u fpc npc charge j b at_) := h.freshId.modThread.schedAt

theorem Keeps.ldnEnd {u : ℕ} {th : Thread} {t : DReg} {ptr fpc npc : Ptr} {charge ready : ℕ} (h : Keeps s₀ s) :
    Keeps s₀ (ldnEnd s u th t ptr fpc npc charge ready) := by
  obtain ⟨body, hb⟩ : ∃ g, g = @Machine.ldnEnd := ⟨_, rfl⟩
  obtain ⟨p, hp⟩ : ∃ p, p = body s u th t ptr fpc npc charge ready := ⟨_, rfl⟩
  rw [← hb, ← hp]
  delta Machine.ldnEnd at hb
  obtain ⟨ldnFault', e_ldnFault⟩ : ∃ g, g = @Machine.ldnFault := ⟨_, rfl⟩
  rw [← e_ldnFault] at hb
  rw [hb] at hp
  dsimp only at hp
  split at hp
  · subst hp
    exact h.ldnWrite
  · subst hp
    exact h.ldnEnd_failEnd

theorem Keeps.execLdn {t : DReg} {a : SReg} {disp : ℤ} (h : Keeps s₀ s) : KeepsOut s₀ (execLdn t a disp s) := by
  obtain ⟨body, hb⟩ : ∃ g, g = @Machine.execLdn := ⟨_, rfl⟩
  obtain ⟨p, hp⟩ : ∃ p, p = body t a disp s := ⟨_, rfl⟩
  rw [← hb, ← hp]
  delta Machine.execLdn at hb
  obtain ⟨eaOf', e_eaOf⟩ : ∃ g, g = @Machine.eaOf := ⟨_, rfl⟩
  obtain ⟨checkPtr', e_checkPtr⟩ : ∃ g, g = @Machine.checkPtr := ⟨_, rfl⟩
  obtain ⟨watchHit', e_watchHit⟩ : ∃ g, g = @Machine.watchHit := ⟨_, rfl⟩
  obtain ⟨limbLimits', e_limbLimits⟩ : ∃ g, g = @Machine.limbLimits := ⟨_, rfl⟩
  obtain ⟨watchParts', e_watchParts⟩ : ∃ g, g = @Machine.watchParts := ⟨_, rfl⟩
  rw [← e_eaOf, ← e_checkPtr, ← e_watchHit, ← e_limbLimits, ← e_watchParts] at hb
  rw [hb] at hp
  dsimp only at hp
  subst hp
  refine h.dunit (fun _ _ => ?_)
  split
  · exact h.draise
  · split
    · exact h.draise
    · split
      · exact h.draise
      · split
        · exact h.lvRoom (h.dmetered (fun _ k1 => k1.startFlight))
        · split
          · exact h.draise
          · split
            · exact h.draise
            · split
              · exact h.issued.ldnEnd
              · split
                · exact h.draise
                · exact h.lvRoom (h.dmetered (fun _ k1 => k1.startFlight))

theorem Keeps.stnDiffer {c : Cur} {th : Thread} {ptr : Ptr} {ws : List Word} {fl mate n : ℕ} {q : Present} (h : Keeps s₀ s) :
    Keeps s₀ (stnDiffer s c th ptr ws fl mate n q) := Keeps.ite h.modThread.draise (h.modThread.dmetered (fun _ k1 =>
        k1.startFlightAt.modFlight))

theorem Keeps.stnUnit {c : Cur} {th : Thread} {ptr : Ptr} {ws : List Word} {fl : ℕ} (h : Keeps s₀ s) :
    Keeps s₀ (stnUnit s c th ptr ws fl) := by
  unfold Machine.stnUnit
  dsimp only
  split
  · exact h.draise
  · split
    · exact h.draise
    · exact h.gateWith (fun _ _ => h.stnDiffer) (fun _ k1 => k1.dmetered (fun _ k2 => Keeps.ite k2.retire k2.startFlightAt))

theorem Keeps.execStn {t : DReg} {a : SReg} {disp : ℤ} (h : Keeps s₀ s) : KeepsOut s₀ (execStn t a disp s) := by
  unfold Machine.execStn
  refine h.dunit (fun _ _ => ?_)
  split
  · exact h.draise
  · split
    · exact h.draise
    · exact Keeps.ite h.stnUnit (Keeps.ite h.draise (Keeps.ite h.raiseEnd h.stnUnit))

/-! ### What the functions of Work.lean keep -/

theorem Keeps.spillRanges {tile : ℕ} (h : Keeps s₀ s) : Keeps s₀ (spillRanges s tile) := h.foldl (fun _ _ k1 => k1.spillStore)

theorem Keeps.setDeque {tile : ℕ} {d : List Range} (h : Keeps s₀ s) : Keeps s₀ (setDeque s tile d) := h.modTile.spillRanges

theorem Keeps.execDqpush {d a b : SReg} (h : Keeps s₀ s) :
    KeepsOut s₀ (execDqpush d a b s) := h.unit (fun _ _ => Keeps.ite h.retire (h.gate (fun _ k1 => k1.lvLead (fun _ k2 =>
        k2.setDeque.retire.lvOver) (fun _ k3 => k3.retire))))

theorem Keeps.execDqpop {d : Fin 30} {k : PReg} (h : Keeps s₀ s) : KeepsOut s₀ (execDqpop d k s) := by
  unfold Machine.execDqpop
  refine h.unit (fun _ _ => h.lvShare (fun _ k1 => ?_) (fun _ _ k2 => k2.retire))
  split
  · exact k1.setDeque
  · exact k1

theorem Keeps.execDqsplit (h : Keeps s₀ s) : KeepsOut s₀ (execDqsplit s) := by
  unfold Machine.execDqsplit
  refine h.unit (fun _ _ => h.lvLead (fun _ k1 => ?_) (fun _ k2 => k2.retire))
  split
  · exact k1.setDeque.retire.lvOver
  · exact k1.retire.lvOver

theorem Keeps.execDqcnt {d : SReg} (h : Keeps s₀ s) :
    KeepsOut s₀ (execDqcnt d s) := h.unit (fun _ _ => h.lvShare (fun _ k1 => k1) (fun _ _ k2 => k2.retire))

theorem Keeps.sendVisit {m : StealMsg} {at_ : ℕ} (h : Keeps s₀ s) : Keeps s₀ (sendVisit s m at_) := h.sched

theorem Keeps.execDqsteal {d : Fin 30} {k : PReg} (h : Keeps s₀ s) : KeepsOut s₀ (execDqsteal d k s) := by
  unfold Machine.execDqsteal
  refine h.unit (fun _ _ => ?_)
  split
  · exact h.lvShare (fun _ k1 => k1) (fun _ _ k2 => k2.retire)
  · exact h.lvRoom (Keeps.ite h.startFlight.modThread h.startFlight.modThread.sendVisit)

theorem Keeps.stealAnswer {m : StealMsg} {extra : ℕ} {vs : List Word} (h : Keeps s₀ s) :
    Keeps s₀ (stealAnswer s m extra vs) := h.schedAt

theorem Keeps.stealArrives {m : StealMsg} (h : Keeps s₀ s) : Keeps s₀ (stealArrives s m) := by
  unfold Machine.stealArrives
  split
  · exact Keeps.ite h.setDeque.stealAnswer h.setDeque.stealAnswer
  · split
    · exact h.sendVisit
    · exact h.stealAnswer

theorem Keeps.execStealVisit (h : Keeps s₀ s) : KeepsOut s₀ (execStealVisit s) := by
  unfold Machine.execStealVisit
  refine h.actRow (fun _ _ k1 => ?_)
  split
  · exact k1.stealArrives.some
  · exact KeepsOpt.none

/-! ### What the functions of Home.lean keep -/

theorem Keeps.answerBusy {r : Req} (h : Keeps s₀ s) : Keeps s₀ (answerBusy s r) := h.schedAt

theorem Keeps.startTimeout {r : Req} (h : Keeps s₀ s) : Keeps s₀ (startTimeout s r) := Keeps.ite h h.schedAt

theorem Keeps.enterWait {r : Req} {k : ℕ} (h : Keeps s₀ s) :
    Keeps s₀ (enterWait s r k) := Keeps.ite h.answerBusy h.setWaiters.startTimeout

theorem Keeps.partDone {r : Req} (h : Keeps s₀ s) : Keeps s₀ (partDone s r) := h.modFlight

theorem Keeps.partFails {r : Req} {cause info : ℕ} {host : Bool} (h : Keeps s₀ s) :
    Keeps s₀ (partFails s r cause info host) := h.partDone.modFlight.answerFault

theorem Keeps.consumes {r : Req} {w : ℕ} (h : Keeps s₀ s) : Keeps s₀ (consumes s r w) := by
  unfold Machine.consumes
  split
  · exact h.partFails
  · split
    · exact h.partFails
    · exact Keeps.ite h.partFails h.deliverPoison

theorem Keeps.performAt {r : Req} {k : ℕ} (h : Keeps s₀ s) : Keeps s₀ (performAt s r k) := by
  unfold Machine.performAt
  dsimp only
  split
  · exact h.partDone.answer
  · split
    · exact h.partDone.consumes
    · split
      · exact h.partDone.partFails
      · split
        · split
          · exact h.partDone.answer.writeWord
          · exact h.partDone.answer
        · exact h.partDone.enterWait

theorem Keeps.performCtrl {r : Req} {pl : Place} {tile : ℕ} (h : Keeps s₀ s) : Keeps s₀ (performCtrl s r pl tile) := by
  unfold Machine.performCtrl
  dsimp only
  split
  · exact h.partDone.partFails
  · split
    · exact Keeps.ite h.partDone.answerBusy h.partDone.modTile.startTimeout
    · split
      · exact h.partDone.answer
      · split
        · exact Keeps.ite h.partDone.modTile.ctrlWrite h.partDone.answer.ctrlWrite
        · exact h.partDone.answer.ctrlWrite

theorem Keeps.holdAccess {tile mover : ℕ} {r : Req} (h : Keeps s₀ s) :
    Keeps s₀ (holdAccess s tile mover r) := Keeps.ite h.answerBusy h.freshId.holdAct

theorem Keeps.pfixCharge {r : Req} {c : ℕ} (h : Keeps s₀ s) : Keeps s₀ (pfixCharge s r c).1 := by
  unfold Machine.pfixCharge
  split
  · exact h
  · exact Keeps.ite_fst h (Keeps.ite_fst h.partFails h.modThread.modFlight)

theorem Keeps.redirect {tile b : ℕ} {r : Req} (h : Keeps s₀ s) : Keeps s₀ (redirect s tile b r) := by
  unfold Machine.redirect
  dsimp only
  split
  · split
    · split
      · rename_i e1
        exact ((Keeps.ite h h.countStub).pfixCharge.of_fst e1).sched
      · rename_i e1
        exact (Keeps.ite h h.countStub).pfixCharge.of_fst e1
    · exact (Keeps.ite h h.countStub).sched
  · exact (Keeps.ite h h.countStub).partFails

theorem Keeps.spadAccess {r : Req} {tile off : ℕ} (h : Keeps s₀ s) : Keeps s₀ (spadAccess s r tile off) := by
  unfold Machine.spadAccess
  split
  · exact h.partFails
  · split
    · exact h.holdAccess
    · split
      · exact h.performAt
      · exact h.redirect
      · exact h.partFails

theorem Keeps.afterXlat {r : Req} {port o : ℕ} {a : Xlat} (h : Keeps s₀ s) : Keeps s₀ (afterXlat s r port o a) := by
  unfold Machine.afterXlat
  split
  · exact h.setView.performAt
  · exact h.partFails
  · exact h.partFails

theorem Keeps.startWalk {port : ℕ} {e : WalkEnt} (h : Keeps s₀ s) : Keeps s₀ (startWalk s port e).1 := h.sched

theorem Keeps.portAccess {r : Req} {port o : ℕ} (h : Keeps s₀ s) : Keeps s₀ (portAccess s r port o) := by
  unfold Machine.portAccess
  dsimp only
  split
  · exact Keeps.ite h.modPort h.useLeaf.afterXlat
  · exact Keeps.ite h.modPort (Keeps.ite h.modPort h.startWalk.modPort)

theorem Keeps.takeWalker {port : ℕ} (h : Keeps s₀ s) : Keeps s₀ (takeWalker s port) := by
  unfold Machine.takeWalker
  split
  · exact h
  · exact h.startWalk.modPort

theorem Keeps.portRun {port n : Nat} (h : Keeps s₀ s) : Keeps s₀ (portRun port n s) := by
  induction n generalizing s with
  | zero => exact h
  | succ n ih =>
    unfold Machine.portRun
    split
    · exact h
    · exact ih (Keeps.ite h.modPort h.modPort.translate.afterXlat)

theorem Keeps.walkEnds {r : Req} (h : Keeps s₀ s) : Keeps s₀ (walkEnds s r) := by
  unfold Machine.walkEnds
  split
  · exact h.translate.modPort.takeWalker.portRun
  · exact h

theorem Keeps.restartWalks {partn port : ℕ} (h : Keeps s₀ s) :
    Keeps s₀ (restartWalks s partn port) := h.unsched.forEach (fun _ _ k1 => k1.startWalk.modPort)

theorem Keeps.arriveHome {r : Req} (h : Keeps s₀ s) : Keeps s₀ (arriveHome s r) := by
  unfold Machine.arriveHome
  split
  · exact h
  · exact h.sched
  · exact h.sched
  · split
    · exact h.spadAccess
    · exact h.portAccess
    · exact h.portAccess
    · exact h.performAt
    · exact Keeps.ite h.partFails h.performCtrl
    · exact h.performCtrl

theorem Keeps.execHomeAccess (h : Keeps s₀ s) : KeepsOut s₀ (execHomeAccess s) := by
  unfold Machine.execHomeAccess
  refine h.actRow (fun _ _ k1 => ?_)
  split
  · exact k1.arriveHome.some
  · exact KeepsOpt.none

theorem Keeps.execTableWalk (h : Keeps s₀ s) : KeepsOut s₀ (execTableWalk s) := by
  unfold Machine.execTableWalk
  refine h.actRow (fun _ _ k1 => ?_)
  split
  · exact k1.walkEnds.some
  · exact KeepsOpt.none

theorem Keeps.resend {r : Req} (h : Keeps s₀ s) : Keeps s₀ (resend s r) := h.sched

theorem Keeps.execBusyResend (h : Keeps s₀ s) : KeepsOut s₀ (execBusyResend s) := by
  unfold Machine.execBusyResend
  refine h.actRow (fun _ _ k1 => ?_)
  split
  · exact k1.resend.some
  · exact KeepsOpt.none

theorem Keeps.timesOut {r : Req} (h : Keeps s₀ s) :
    Keeps s₀ (timesOut s r) := Keeps.ite (Keeps.ite h.modTile.partFails h) (Keeps.ite h.setWaiters.partFails h)

theorem Keeps.execSyncTimeout (h : Keeps s₀ s) : KeepsOut s₀ (execSyncTimeout s) := by
  unfold Machine.execSyncTimeout
  refine h.actRow (fun _ _ k1 => ?_)
  split
  · exact k1.timesOut.some
  · exact KeepsOpt.none

theorem Keeps.landParts {u : ℕ} {th : Thread} {f : Flight} {limit : ℕ} (h : Keeps s₀ s) :
    Keeps s₀ (landParts s u th f limit) := by
  unfold Machine.landParts
  dsimp only
  split
  · exact Keeps.ite (Keeps.ite h.modThread h) h.modThread
  · exact Keeps.ite h h.modThread
  · exact Keeps.ite h h.modThread
  · exact Keeps.ite h h.modThread
  · exact Keeps.ite h.modThread h.modThread
  · exact Keeps.ite h h.modThread
  · exact h.vset
  · exact Keeps.ite h.modThread h
  · exact Keeps.ite h h.recordOutbound
  · exact h.rawAdd
  · exact h

theorem Keeps.dropFlight {u fid : ℕ} (h : Keeps s₀ s) : Keeps s₀ (dropFlight u fid s) := h.modThread

theorem Keeps.afterRelaxed {u : ℕ} (h : Keeps s₀ s) : Keeps s₀ (afterRelaxed s u) := by
  unfold Machine.afterRelaxed
  split
  · exact h.endThread
  · exact h.kick.recheck

theorem Keeps.lateFee {u : ℕ} {fee : Option ℕ} (h : Keeps s₀ s) : Keeps s₀ (lateFee s u fee) := by
  unfold Machine.lateFee
  split
  · exact h.lateCharge
  · exact h

theorem Keeps.endRelaxed {u : ℕ} {th : Thread} {f : Flight} {limit : ℕ} {failed : Bool} (h : Keeps s₀ s) :
    Keeps s₀ (endRelaxed s u th f limit failed) :=
        (Keeps.ite h.landParts.lateFee.modFlight h.landParts.lateFee.dropFlight).afterRelaxed

theorem Keeps.ldnEnds {u : ℕ} {t : DReg} {ptr : Ptr} {f : Flight} {lat : ℕ} (h : Keeps s₀ s) :
    Keeps s₀ (ldnEnds s u t ptr f lat) := by
  unfold Machine.ldnEnds
  split
  · exact h
  · exact (Keeps.ite h.lateFee h).ldnEnd

theorem Keeps.failAt {u : ℕ} {th : Thread} {f : Flight} {j : ℕ} {b : PartFault} (h : Keeps s₀ s) :
    Keeps s₀ (failAt s u th f j b) := Keeps.ite h.endRelaxed h.landParts.modThread.dropFlight.takeFault

theorem Keeps.succeed {u : ℕ} {th : Thread} {f : Flight} (h : Keeps s₀ s) : Keeps s₀ (succeed s u th f) := by
  unfold Machine.succeed
  split
  · exact h.endRelaxed
  · dsimp only
    split
    · exact h.landParts.dropFlight.ldnEnds
    · exact h.landParts.dropFlight.lateFee.complete
    · exact h.landParts.dropFlight.lateFee.complete

theorem Keeps.ldnLimbs {u : ℕ} {th : Thread} {f : Flight} {ptr : Ptr} (h : Keeps s₀ s) :
    Keeps s₀ (ldnLimbs s u th f ptr).1 := by
  unfold Machine.ldnLimbs
  dsimp only
  split
  · exact h
  · split
    · exact h
    · split
      · exact h
      · split
        · exact h
        · exact Keeps.ite_fst h (Keeps.ite h.modThread h)

theorem Keeps.flightOn {u : ℕ} {th : Thread} {f : Flight} (h : Keeps s₀ s) : Keeps s₀ (flightOn s u th f) := by
  unfold Machine.flightOn
  dsimp only
  split
  · exact Keeps.ite h.modFlight (Keeps.ite h.modFlight.sendNext h.modFlight.lvGive.lvCut.failAt)
  · exact Keeps.ite h.modFlight (Keeps.ite h.modFlight.sendNext (Keeps.ite h.modFlight.schedLv h.modFlight.lvGive.succeed))

theorem Keeps.flagsBack {u : ℕ} {f : Flight} {a : Answer} (h : Keeps s₀ s) : Keeps s₀ (flagsBack s u f a) := by
  unfold Machine.flagsBack
  split
  · exact h.modThread
  · exact h

theorem Keeps.answered {a : Answer} (h : Keeps s₀ s) : Keeps s₀ (answered s a) := by
  unfold Machine.answered
  split
  · exact h
  · split
    · exact h
    · dsimp only
      split
      · exact Keeps.ite h.flagsBack.lvPart.ldnLimbs.flightOn.lvPull h.flagsBack.lvPart.ldnLimbs.flightOn
      · split
        · exact Keeps.ite h.flagsBack.lvPart.flightOn h.flagsBack.lvPart.flightOn
        · exact h.flagsBack.lvPart.flightOn

theorem Keeps.execAccessResponse (h : Keeps s₀ s) : KeepsOut s₀ (execAccessResponse s) := by
  unfold Machine.execAccessResponse
  refine h.actRow (fun _ _ k1 => ?_)
  split
  · exact k1.answered.some
  · exact KeepsOpt.none

theorem Keeps.execRelaxedAccessCompletion (h : Keeps s₀ s) : KeepsOut s₀ (execRelaxedAccessCompletion s) := by
  unfold Machine.execRelaxedAccessCompletion
  refine h.actRow (fun _ _ k1 => ?_)
  split
  · exact k1.answered.some
  · exact KeepsOpt.none

/-! ### What the functions of Preempt.lean keep -/

theorem Keeps.withdrawSync {u : Nat} {th : Thread} (h : Keeps s₀ s) : Keeps s₀ (withdrawSync s u th) := by
  unfold Machine.withdrawSync
  split
  · split
    · refine Keeps.modThread ?_
      have k : Keeps s₀ { s with ports := s.ports.map fun e => (e.1, { e.2 with waiters := reqsWithout u e.2.waiters }) } :=
        h.also
      have kp := k.withTiles (m := s.tiles.map fun e => (e.1, { e.2 with waiters := reqsWithout u e.2.waiters }))
        (keysRise_mapValues _ _)
      split
      · refine Keeps.ite (Keeps.modThread (Keeps.unsched ?_)) (Keeps.unsched ?_)
        · exact kp.withTiles (keysRise_mapValues _ _)
        · exact kp.withTiles (keysRise_mapValues _ _)
      · refine Keeps.unsched ?_
        exact kp.withTiles (keysRise_mapValues _ _)
    · exact h
  · exact h

theorem Keeps.writeRecordOf {u : ℕ} (h : Keeps s₀ s) : Keeps s₀ (writeRecordOf s u) := by
  unfold Machine.writeRecordOf
  split
  · exact h
  · dsimp only
    split
    · exact h.schedAt
    · exact (h.foldl_fst (fun _ _ k1 => k1.hwStore)).modThread.schedAt

theorem Keeps.swapOut {u : ℕ} (h : Keeps s₀ s) : Keeps s₀ (swapOut s u) := by
  unfold Machine.swapOut
  split
  · exact h
  · dsimp only
    refine (Keeps.rvPause ?_).modThread.modTile.writeRecordOf
    split
    · exact h
    · exact h.withdrawSync

theorem Keeps.deliverRecord {u : ℕ} (h : Keeps s₀ s) : Keeps s₀ (deliverRecord s u) := by
  unfold Machine.deliverRecord
  split
  · exact h
  · exact (h.foldl (fun _ _ k1 => Keeps.ite k1 (Keeps.ite k1.hwLoad.hwStore k1.hwStore))).modThread

theorem Keeps.sendDisplaced {u : ℕ} {th : Thread} {dst : ℕ} (h : Keeps s₀ s) :
    Keeps s₀ (sendDisplaced s u th dst) := (Keeps.ite h.rvPause.modThread.modThread h.rvPause.modThread).modTile.sched

theorem Keeps.tcwSet {tile slot out : ℕ} (h : Keeps s₀ s) : Keeps s₀ (tcwSet s tile slot out) := h.modTile

theorem Keeps.leave {u : ℕ} (h : Keeps s₀ s) : Keeps s₀ (leave s u) := by
  unfold Machine.leave
  split
  · exact h
  · split
    · exact h.sendDisplaced
    · exact Keeps.ite (h.forEach (fun _ _ k1 => k1.modThread)).tcwSet (h.forEach (fun _ _ k2 => k2.swapOut))

theorem Keeps.swapIn {u slot : Nat} (h : Keeps s₀ s) : Keeps s₀ (swapIn s u slot) := by
  obtain ⟨load, hl⟩ : ∃ g, g = Machine.hwLoad := ⟨_, rfl⟩
  have kload : ∀ s partn p, Keeps s₀ s → Keeps s₀ (load s partn p).1 := hl ▸ fun _ _ _ k => k.hwLoad
  unfold Machine.swapIn
  rw [← hl]
  split
  · exact h
  · extract_lets cached t p r d t1 t2
    have k : Keeps s₀ t := by
      unfold t
      split
      · exact h
      · exact h.deliverRecord
    have kr : Keeps s₀ r.1 := by
      unfold r
      split
      · exact k
      · exact Keeps.foldl_fst k fun _ _ k => kload _ _ _ k
    have k2 : Keeps s₀ t2 := kr.modThread.modTile
    split
    · split
      · exact Keeps.ite k2 k2.rvCount
      · exact k2.recheck
    · exact k2

theorem Keeps.tcwRow {tile slot tid : ℕ} {f : ℕ → Thread → State × ℕ} (h : Keeps s₀ s) (hf : ∀ x y, Keeps s₀ (f x y).1) :
    Keeps s₀ (tcwRow s tile slot tid f) := by
  unfold Machine.tcwRow
  split
  · exact h.tcwSet
  · exact (hf _ _).tcwSet

theorem Keeps.execResume (h : Keeps s₀ s) : KeepsOut s₀ (execResume s) := by
  unfold Machine.execResume
  refine h.actRow (fun _ _ k1 => ?_)
  split
  · exact (k1.tcwRow (fun _ _ => Keeps.ite_fst k1 k1.modThread)).some
  · exact KeepsOpt.none

theorem Keeps.execDeliver (h : Keeps s₀ s) : KeepsOut s₀ (execDeliver s) := by
  unfold Machine.execDeliver
  refine h.actRow (fun _ _ k1 => ?_)
  split
  · exact (k1.tcwRow (fun _ _ => Keeps.ite_fst k1 k1.modThread)).some
  · exact KeepsOpt.none

theorem Keeps.execTerminate (h : Keeps s₀ s) : KeepsOut s₀ (execTerminate s) := by
  unfold Machine.execTerminate
  refine h.actRow (fun _ _ k1 => ?_)
  split
  · exact (k1.tcwRow (fun _ _ => k1.terminateThread)).some
  · exact KeepsOpt.none

theorem Keeps.execVacate (h : Keeps s₀ s) : KeepsOut s₀ (execVacate s) := by
  unfold Machine.execVacate
  refine h.actRow (fun _ _ k1 => ?_)
  split
  · exact (k1.tcwRow (fun _ _ => Keeps.ite_fst k1 (Keeps.ite_fst k1 (k1.forEach (fun _ _ k1 => k1.modThread))))).some
  · exact KeepsOpt.none

theorem Keeps.execRestore (h : Keeps s₀ s) : KeepsOut s₀ (execRestore s) := by
  unfold Machine.execRestore
  refine h.actRow (fun _ _ k1 => ?_)
  split
  · refine (k1.tcwRow (fun _ _ => ?_)).some
    dsimp only
    split
    · exact k1
    · split
      · exact k1.modTile.forEach (fun _ _ k1 => k1.modThread)
      · refine k1.modTile.forEach (fun _ _ k1 => ?_)
        split
        · exact Keeps.ite k1.swapIn k1
        · exact k1
  · exact KeepsOpt.none

theorem Keeps.execSaveWriteAcknowledgement (h : Keeps s₀ s) : KeepsOut s₀ (execSaveWriteAcknowledgement s) := by
  unfold Machine.execSaveWriteAcknowledgement
  refine h.actRow (fun _ _ k1 => ?_)
  split
  · exact k1.modTile.some
  · exact KeepsOpt.none

theorem Keeps.execContextSaveFault (h : Keeps s₀ s) : KeepsOut s₀ (execContextSaveFault s) := by
  unfold Machine.execContextSaveFault
  refine h.actRow (fun _ _ k1 => ?_)
  split
  · split
    · exact k1.some
    · exact (Keeps.ite k1.modTile.postHost k1.modTile.postSup.postHost).some
  · exact KeepsOpt.none

theorem Keeps.disableSlot {tile slot : ℕ} (h : Keeps s₀ s) : Keeps s₀ (disableSlot s tile slot) := by
  unfold Machine.disableSlot
  dsimp only
  split
  · exact h.modTile.modThread
  · exact h.modTile

theorem Keeps.execSlotDisable (h : Keeps s₀ s) : KeepsOut s₀ (execSlotDisable s) := by
  unfold Machine.execSlotDisable
  refine h.actRow (fun _ _ k1 => ?_)
  split
  · split
    · exact k1.some
    · exact KeepsOpt.ite (k1.modTile.forEach (fun _ _ k1 => k1.disableSlot)).some k1.some
  · exact KeepsOpt.none

theorem Keeps.enableSlot {tile slot : ℕ} (h : Keeps s₀ s) : Keeps s₀ (enableSlot s tile slot) := by
  unfold Machine.enableSlot
  dsimp only
  split
  · exact h.modTile.modThread
  · exact h.modTile.slotFreed

theorem Keeps.returnDisplaced {tile slot : ℕ} (h : Keeps s₀ s) : Keeps s₀ (returnDisplaced s tile slot) := by
  unfold Machine.returnDisplaced
  split
  · exact h
  · split
    · exact h
    · dsimp only
      split
      · exact Keeps.ite h (Keeps.ite h.modThread h).swapIn
      · exact Keeps.ite h h.swapIn

theorem Keeps.execSlotReenable (h : Keeps s₀ s) : KeepsOut s₀ (execSlotReenable s) := by
  unfold Machine.execSlotReenable
  refine h.actRow (fun _ _ k1 => ?_)
  split
  · split
    · exact k1.some
    · exact ((k1.modTile.forEach (fun _ _ k1 => k1.enableSlot)).forEach (fun _ _ k2 => k2.returnDisplaced)).scanNext.some
  · exact KeepsOpt.none

theorem Keeps.execRankingRefresh (h : Keeps s₀ s) : KeepsOut s₀ (execRankingRefresh s) := by
  unfold Machine.execRankingRefresh
  refine h.actRow (fun _ _ k1 => ?_)
  split
  · exact (k1.also.forEach (fun _ _ k1 => k1.modTile)).some
  · exact KeepsOpt.none

theorem Keeps.readThrough {partn : ℕ} {l : List Ptr} (h : Keeps s₀ s) :
    Keeps s₀ (readThrough s partn l) := h.foldl (fun _ _ k1 => k1.hwKey)

theorem Keeps.tableFault {u : ℕ} (h : Keeps s₀ s) : Keeps s₀ (tableFault s u) := by
  unfold Machine.tableFault
  split
  · exact h
  · exact h.withdrawSync.modThread.escalate

theorem Keeps.deliveredNow {r : Running} (h : Keeps s₀ s) : Keeps s₀ (deliveredNow s r).st := h.deliverAll

theorem Keeps.stopLists {cl : ℕ} {r : Running} (h : Keeps s₀ s) : Keeps s₀ (stopLists s cl r) := by
  unfold Machine.stopLists
  exact h.deliveredNow.modCu

theorem Keeps.stopAllLists {partn serial : ℕ} (h : Keeps s₀ s) : Keeps s₀ (stopAllLists s partn serial) := by
  unfold Machine.stopAllLists
  refine h.forEach (fun _ _ k1 => ?_)
  split
  · exact Keeps.ite k1.stopLists k1
  · exact k1

theorem Keeps.vacateTeam {partn serial : Nat} (h : Keeps s₀ s) : Keeps s₀ (vacateTeam s partn serial) := by
  unfold Machine.vacateTeam
  have k := h.withThreads (m := s.threads.filter fun e => decide (e.1 ∉ teamThreads s partn serial)) (keysRise_filter _ _)
  refine Keeps.unsched ?_
  exact (Keeps.forEach k fun _ _ k => k.modTile.modCu).withClusters (keysRise_mapValues _ _)

theorem Keeps.abandon {partn serial out : ℕ} (h : Keeps s₀ s) : Keeps s₀ (abandon s partn serial out) := by
  unfold Machine.abandon
  split
  · exact h
  · dsimp only
    split
    · exact Keeps.ite (h.modTeam.forEach (fun _ _ k1 => k1.modThread)).preqOutcome (h.modTeam.forEach (fun _ _ k2 =>
          k2.modThread))
    · exact (Keeps.ite (h.modTeam.forEach (fun _ _ k1 => k1.modThread)).preqOutcome (h.modTeam.forEach (fun _ _ k2 =>
          k2.modThread))).startSlice

theorem Keeps.stopTeam {partn serial : ℕ} (h : Keeps s₀ s) : Keeps s₀ (stopTeam s partn serial) := by
  unfold Machine.stopTeam
  refine (h.forEach (fun _ _ k1 => ?_)).stopAllLists
  split
  · exact k1.withdrawSync.rvPause
  · exact k1

theorem Keeps.saveTeam {partn serial : ℕ} {t : Team} (h : Keeps s₀ s) : Keeps s₀ (saveTeam s partn serial t) := by
  unfold Machine.saveTeam
  dsimp only
  split
  · exact h.readThrough.forEach (fun _ _ k1 => k1.tableFault)
  · split
    · exact h.readThrough.abandon
    · split
      · exact h.readThrough.abandon
      · refine Keeps.scanNext ?_
        split
        · exact (h.readThrough.stopTeam.readThrough.foldl_fst (fun _ _ k1 => k1.hwStore)).vacateTeam.modPart.also.preqOutcome
        · exact (h.readThrough.stopTeam.readThrough.foldl_fst (fun _ _ k1 => k1.hwStore)).vacateTeam.modPart.also

theorem Keeps.execTeamSave (h : Keeps s₀ s) : KeepsOut s₀ (execTeamSave s) := by
  unfold Machine.execTeamSave
  refine h.actRow (fun _ _ k1 => ?_)
  split
  · exact KeepsOpt.ite (KeepsOpt.map (fun _ => k1.saveTeam)) KeepsOpt.none
  · exact KeepsOpt.none

theorem Keeps.execPreemptionTimeout (h : Keeps s₀ s) : KeepsOut s₀ (execPreemptionTimeout s) := by
  unfold Machine.execPreemptionTimeout
  refine h.actRow (fun _ _ k1 => ?_)
  split
  · split
    · exact KeepsOpt.ite k1.some (KeepsOpt.ite k1.some k1.abandon.some)
    · exact k1.some
  · exact KeepsOpt.none

theorem Keeps.poolWords {img : Image} (h : Keeps s₀ s) : Keeps s₀ (poolWords s img).1 := h.foldl_fst (fun _ _ k1 => k1.hwLoad)

theorem Keeps.restoreThread {x : SavedThread} (h : Keeps s₀ s) : Keeps s₀ (restoreThread s x) := by
  unfold Machine.restoreThread
  dsimp only
  have k := (h.foldl (l := x.grans) fun _ g k => k.granSet (tile := x.th.tile) (g := g.1) (v := g.2)).modTile (t := x.th.tile)
    (f := fun t => { t with poolPois := x.pois.foldl setAdd t.poolPois })
  split
  · exact Keeps.ite (k.withThreads (keysRise_ins _ _ _)) (Keeps.rvCount (k.withThreads (keysRise_ins _ _ _)))
  · exact k.withThreads (keysRise_ins _ _ _)

theorem Keeps.restoreCore_spillRestore {tile : ℕ} (h : Keeps s₀ s) :
    Keeps s₀ (restoreCore.spillRestore s tile) := h.foldl (fun _ _ k1 => Keeps.ite k1 k1.spillStore)

theorem Keeps.restoreCore {c : CoreImage} (h : Keeps s₀ s) : Keeps s₀ (restoreCore s c) := by
  have k := Keeps.withAcc (m := c.acc.foldl (fun m b => memSet m b.1 b.2) (s.acc.filter fun b => decide (b.1 / 32768 ≠ c.tile)))
    (h.modTile (t := c.tile) (f := fun t =>
      { t with deque := c.deque, dqsp := c.dqsp, evsp := c.evsp, evu := { c.evu with snap := none, drops := t.evu.drops } }))
    fun hm => wf_foldl c.acc _ (fun m b hw => wf_memSet m b.1 b.2 hw) _ (wf_filter _ _ hm.2)
  exact k.modMxe.modCu.restoreCore_spillRestore.foldl fun _ _ k => k.schedAt

theorem Keeps.restoreWord {partn : ℕ} {q : Ptr} {w : SavedWord} (h : Keeps s₀ s) : Keeps s₀ (restoreWord s partn q w) := by
  unfold Machine.restoreWord
  split
  · exact h
  · split
    · rename_i e1
      exact Keeps.ite (h.hwKey.of_fst e1).writeWord.also (h.hwKey.of_fst e1).writeWord
    · rename_i e1
      exact h.hwKey.of_fst e1

theorem Keeps.restoreRange {partn : ℕ} {r : SavedRange} (h : Keeps s₀ s) : Keeps s₀ (restoreRange partn s r) := by
  unfold Machine.restoreRange
  refine h.foldl (fun _ _ k1 => ?_)
  split
  · exact k1.restoreWord
  · exact k1

theorem Keeps.unparkRestored {partn n : Nat} (h : Keeps s₀ s) : Keeps s₀ (unparkRestored partn n s) := by
  induction n generalizing s with
  | zero => exact h
  | succ n ih => exact Keeps.ite (ih h.unparkPush) h

theorem Keeps.restoreTeam {p : Placement} (h : Keeps s₀ s) : KeepsOpt s₀ (restoreTeam s p) := by
  unfold Machine.restoreTeam
  split
  · exact (((h.poolWords.modPart.foldl (fun _ _ k1 => k1.restoreRange)).foldl (fun _ _ k2 => k2.restoreCore)).foldl
        (fun _ _ k3 => k3.restoreThread)).unparkRestored.startSlice.some
  · exact KeepsOpt.none

theorem Keeps.execPlacement (h : Keeps s₀ s) : KeepsOut s₀ (execPlacement s) := by
  unfold Machine.execPlacement
  refine h.actRow (fun _ _ k1 => ?_)
  split
  · exact KeepsOpt.ite k1.restoreTeam k1.placementDone
  · exact KeepsOpt.none

/-! ### What the functions of Device.lean keep -/

theorem Keeps.notice {parts : List ℕ} {code tag : ℕ} {addr : Word} (h : Keeps s₀ s) :
    Keeps s₀ (notice s parts code tag addr) := Keeps.ite h h.submit

theorem Keeps.openNotice {parts : List ℕ} {code tag : ℕ} (h : Keeps s₀ s) :
    Keeps s₀ (openNotice s parts code tag) := h.freshFree.notice

theorem Keeps.shoot {partn : ℕ} {v : Word} (h : Keeps s₀ s) : Keeps s₀ (shoot s partn v) := h.also

theorem Keeps.remapLater (h : Keeps s₀ s) : Keeps s₀ (remapLater s) := h.also

theorem Keeps.castEffect {a : BcKind} (h : Keeps s₀ s) : Keeps s₀ (castEffect s a) := by
  unfold Machine.castEffect
  split
  · exact Keeps.ite h.also.remapLater h.also
  · exact h.createEffect.also.remapLater
  · exact h.deleteEffect.remapLater
  · exact h.shoot.forEach (fun _ _ k1 => k1.restartWalks)
  · exact Keeps.ite (h.forEach (fun _ _ k1 => k1.postSup)).postHost (h.forEach (fun _ _ k2 => k2.postSup))

theorem Keeps.substDue (h : Keeps s₀ s) : KeepsOpt s₀ (substDue s) := KeepsOpt.map (fun _ => h.also.submit)

theorem Keeps.calendTurns (h : Keeps s₀ s) : Keeps s₀ (calendTurns s) :=
  Keeps.withParts (Keeps.foldl h.also fun _ _ k => k.castEffect) (keysRise_mapValues _ _)

theorem Keeps.execCalendBoundary (h : Keeps s₀ s) : KeepsOut s₀ (execCalendBoundary s) := by
  unfold Machine.execCalendBoundary
  refine h.actRow (fun _ _ k1 => ?_)
  split
  · exact KeepsOpt.ite k1.calendTurns.some KeepsOpt.none
  · exact KeepsOpt.none

theorem Keeps.execTranslationShootdown (h : Keeps s₀ s) : KeepsOut s₀ (execTranslationShootdown s) := by
  unfold Machine.execTranslationShootdown
  refine h.actRow (fun _ _ k1 => ?_)
  split
  · exact KeepsOpt.ite k1.some k1.submit.modPart.some
  · exact KeepsOpt.none

theorem Keeps.logMove {partn reason status : ℕ} {old new : Word} (h : Keeps s₀ s) :
    Keeps s₀ (logMove s partn reason status old new) := by
  unfold Machine.logMove
  dsimp only
  split
  · exact h
  · split
    · rename_i e1
      exact h.hwKey.of_fst e1
    · rename_i e1
      exact (h.hwKey.of_fst e1).hwRecord.modPart

theorem Keeps.startMove {partn tile reason b : ℕ} {dest : Ptr} {ack : Option Req} (h : Keeps s₀ s) :
    Keeps s₀ (startMove s partn tile reason b dest ack) := h.modTile.schedAt

theorem Keeps.takePool {partn tile reason b n : Nat} (h : Keeps s₀ s) : Keeps s₀ (takePool partn tile reason b n s) := by
  induction n generalizing s with
  | zero => exact h
  | succ n ih =>
    have k := Keeps.modPart (p := partn) (f := fun q => { q with rlpr := (q.rlpr + 1) % 2 ^ 32 })
      (h.hwLoad (partn := partn) (p := offBy (partOf s partn).rlpb (8 * ((partOf s partn).rlpr % (partOf s partn).rlpn))))
    exact Keeps.ite (Keeps.ite h h.modTile.logMove) (Keeps.ite k.modTile.startMove (ih k.logMove))

theorem Keeps.moveNext {tile : ℕ} (h : Keeps s₀ s) : Keeps s₀ (moveNext s tile) := by
  unfold Machine.moveNext
  split
  · exact h
  · dsimp only
    split
    · exact h.modTile.takePool
    · exact h.modTile

theorem Keeps.queueMoves {tile reason : ℕ} {banks : List ℕ} (h : Keeps s₀ s) :
    Keeps s₀ (queueMoves s tile reason banks) := h.modTile.moveNext

theorem Keeps.rlDone {tile out : ℕ} {ack : Option Req} (h : Keeps s₀ s) : Keeps s₀ (rlDone s tile out ack) := by
  unfold Machine.rlDone
  dsimp only
  split
  · exact h.modTile.answer
  · exact h.modTile

theorem Keeps.execRelocate (h : Keeps s₀ s) : KeepsOut s₀ (execRelocate s) := by
  unfold Machine.execRelocate
  refine h.actRow (fun _ _ k1 => ?_)
  split
  · dsimp only
    split
    · exact k1.modTile.rlDone.some
    · split
      · exact k1.modTile.rlDone.some
      · split
        · exact k1.modTile.rlDone.some
        · exact KeepsOpt.ite k1.modTile.startMove.some k1.modTile.rlDone.some
  · exact KeepsOpt.none

theorem Keeps.blockRow {tile b : ℕ} {old new : BlockState} (h : Keeps s₀ s) :
    Keeps s₀ (blockRow s tile b old new) := Keeps.ite h.rlDone (Keeps.ite h.rlDone h.modBlock.rlDone)

theorem Keeps.execRetireStub (h : Keeps s₀ s) : KeepsOut s₀ (execRetireStub s) := by
  unfold Machine.execRetireStub
  refine h.actRow (fun _ _ k1 => ?_)
  split
  · exact k1.blockRow.some
  · exact KeepsOpt.none

theorem Keeps.execReinstate (h : Keeps s₀ s) : KeepsOut s₀ (execReinstate s) := by
  unfold Machine.execReinstate
  refine h.actRow (fun _ _ k1 => ?_)
  split
  · exact k1.blockRow.some
  · exact KeepsOpt.none

theorem Keeps.execThermalEvacuation (h : Keeps s₀ s) : KeepsOut s₀ (execThermalEvacuation s) := by
  unfold Machine.execThermalEvacuation
  refine h.actRow (fun _ _ k1 => ?_)
  split
  · exact k1.queueMoves.some
  · exact KeepsOpt.none

theorem Keeps.execPoolSupply (h : Keeps s₀ s) : KeepsOut s₀ (execPoolSupply s) := by
  unfold Machine.execPoolSupply
  refine h.actRow (fun _ _ k1 => ?_)
  split
  · exact (k1.modPart.forEach (fun _ _ k1 => Keeps.ite k1.moveNext k1)).some
  · exact KeepsOpt.none

theorem Keeps.copyBlock {k1 k2 : ℕ} (h : Keeps s₀ s) :
    Keeps s₀ (copyBlock s k1 k2) := h.foldl (fun _ _ k1 => Keeps.ite k1.putWord.also k1.putWord)

theorem Keeps.moveWaiter {k1 k2 leg : ℕ} {r : Req} (h : Keeps s₀ s) :
    Keeps s₀ (moveWaiter k1 k2 leg s r) := Keeps.ite h.dropTimeout.answerBusy h.setWaiters.also

theorem Keeps.moveEnds {tile : ℕ} {m : Move} (h : Keeps s₀ s) : Keeps s₀ (moveEnds s tile m) := by
  unfold Machine.moveEnds
  dsimp only
  split
  · exact h.modTile
  · refine Keeps.moveNext ?_
    split
    · refine Keeps.rlDone ?_
      split
      · exact (((h.modTile.copyBlock.foldl (fun _ _ k1 => k1.moveWaiter)).modBlock.modBlock.foldl (fun _ _ k2 =>
            k2.serve)).foldl (fun _ _ k3 => k3.sched)).logMove.answer
      · exact (((h.modTile.copyBlock.foldl (fun _ _ k1 => k1.moveWaiter)).modBlock.modBlock.foldl (fun _ _ k2 =>
            k2.serve)).foldl (fun _ _ k3 => k3.sched)).logMove
    · split
      · exact (((h.modTile.copyBlock.foldl (fun _ _ k1 => k1.moveWaiter)).modBlock.modBlock.foldl (fun _ _ k2 =>
            k2.serve)).foldl (fun _ _ k3 => k3.sched)).logMove.answer
      · exact (((h.modTile.copyBlock.foldl (fun _ _ k1 => k1.moveWaiter)).modBlock.modBlock.foldl (fun _ _ k2 =>
            k2.serve)).foldl (fun _ _ k3 => k3.sched)).logMove

theorem Keeps.execMoveCompletion (h : Keeps s₀ s) : KeepsOut s₀ (execMoveCompletion s) := by
  unfold Machine.execMoveCompletion
  refine h.actRow (fun _ _ k1 => ?_)
  split
  · exact KeepsOpt.map (fun _ => k1.moveEnds)
  · exact KeepsOpt.none

theorem Keeps.execCorrectedError (h : Keeps s₀ s) : KeepsOut s₀ (execCorrectedError s) := by
  unfold Machine.execCorrectedError
  refine h.actRow (fun _ _ k1 => ?_)
  split
  · exact (Keeps.ite k1.modTile.queueMoves.openNotice k1.modTile).some
  · exact KeepsOpt.none

theorem Keeps.execUncorrectableError (h : Keeps s₀ s) : KeepsOut s₀ (execUncorrectableError s) := by
  unfold Machine.execUncorrectableError
  refine h.actRow (fun _ _ k1 => ?_)
  split
  · exact k1.also.some
  · exact k1.modThread.some
  · exact k1.modThread.some
  · exact k1.modThread.some
  · exact k1.modTile.some
  · exact KeepsOpt.none

theorem Keeps.execParityReplay (h : Keeps s₀ s) : KeepsOut s₀ (execParityReplay s) := by
  unfold Machine.execParityReplay
  refine h.actRow (fun _ _ k1 => ?_)
  split
  · exact k1.modThread.some
  · exact KeepsOpt.none

theorem Keeps.spareRow {ch bank row : ℕ} (h : Keeps s₀ s) : Keeps s₀ (spareRow s ch bank row) := by
  unfold Machine.spareRow
  split
  · exact h.modPort.schedAt
  · exact h.modPort.notice

theorem Keeps.spareLater {ch : ℕ} {x : ℕ × ℕ} (h : Keeps s₀ s) : Keeps s₀ (spareLater ch s x) := Keeps.ite h.modPort h.spareRow

theorem Keeps.spareWaiting {ch : ℕ} (h : Keeps s₀ s) :
    Keeps s₀ (spareWaiting s ch) := h.modPort.foldl (fun _ _ k1 => k1.spareLater)

theorem Keeps.rowError {ch bank row : ℕ} (h : Keeps s₀ s) :
    Keeps s₀ (rowError s ch bank row) := Keeps.ite h.modPort.spareLater h.modPort

theorem Keeps.execRowSparing (h : Keeps s₀ s) : KeepsOut s₀ (execRowSparing s) := by
  unfold Machine.execRowSparing
  refine h.actRow (fun _ _ k1 => ?_)
  split
  · exact k1.rowError.some
  · exact KeepsOpt.none

theorem Keeps.execSpareSwitch (h : Keeps s₀ s) : KeepsOut s₀ (execSpareSwitch s) := by
  unfold Machine.execSpareSwitch
  refine h.actRow (fun _ _ k1 => ?_)
  split
  · exact KeepsOpt.map (fun _ => k1.modPort.spareWaiting)
  · exact KeepsOpt.none

theorem Keeps.execSpareRowError (h : Keeps s₀ s) : KeepsOut s₀ (execSpareRowError s) := by
  unfold Machine.execSpareRowError
  refine h.actRow (fun _ _ k1 => ?_)
  split
  · exact KeepsOpt.map (fun _ => Keeps.ite k1.modPort.unsched.spareRow k1.modPort.unsched.spareRow.spareWaiting)
  · exact KeepsOpt.none

theorem Keeps.clearEngines {tile : Nat} (h : Keeps s₀ s) : Keeps s₀ (clearEngines s tile) := by
  unfold Machine.clearEngines
  refine Keeps.forEach (h.modMxe.modCu.unsched.withAcc fun hm => wf_filter _ _ hm.2) fun _ _ k => ?_
  exact Keeps.ite k.collEnds k.also

theorem Keeps.clearCore {tile : Nat} (h : Keeps s₀ s) : Keeps s₀ (clearCore s tile) := by
  unfold Machine.clearCore
  dsimp only
  refine (Keeps.forEach (Keeps.forEach ?_ fun _ _ k => k.schedAt) fun _ _ k => k.dropTimeout.partFails).clearEngines
  exact Keeps.also ((Keeps.unsched h.modTile).withMem fun hm => wf_filter _ _ hm.1)

theorem Keeps.containment {partn rect : ℕ} (h : Keeps s₀ s) :
    Keeps s₀ (containment s partn rect) := (((((h.forEach (fun _ _ k1 => k1.modEvu)).forEach (fun _ _ k2 =>
        k2.teamEnds)).forEach (fun _ _ k3 => k3.endThread)).forEach (fun _ _ k4 => k4.terminateTeam)).forEach (fun _ _ k5 =>
        k5.clearCore)).checkTeams

theorem Keeps.execContainmentReset (h : Keeps s₀ s) : KeepsOut s₀ (execContainmentReset s) := by
  unfold Machine.execContainmentReset
  refine h.actRow (fun _ _ k1 => ?_)
  split
  · exact KeepsOpt.ite k1.containment.some KeepsOpt.none
  · exact KeepsOpt.none

theorem Keeps.execUnfence (h : Keeps s₀ s) : KeepsOut s₀ (execUnfence s) := by
  unfold Machine.execUnfence
  refine h.actRow (fun _ _ k1 => ?_)
  split
  · exact k1.modPart.scanNext.some
  · exact KeepsOpt.none

theorem wf_imageWritten (m₀ l a : List Host.Cell) (ts : AMap Tile) (h : Memory.wf m₀ = true) :
    Memory.wf (ts.foldl (fun m t => t.2.pool.foldl (fun m g => memPutWord m (retentionKey (poolImage t.1 g.1)) g.2) m)
      (a.foldl (fun m c => memSet m (retentionKey (accImage c.1)) c.2)
        (l.foldl (fun m c => match imageOff c.1 with | some o => memSet m (retentionKey o) c.2 | none => m) m₀))) = true := by
  refine wf_foldl _ _ (fun m t hw => wf_foldl _ _ (fun m g hw => wf_memPutWord m _ _ hw) m hw) _ ?_
  refine wf_foldl _ _ (fun m c hw => wf_memSet m _ _ hw) _ ?_
  refine wf_foldl _ _ (fun m c hw => ?_) _ h
  split
  · exact wf_memSet m _ _ hw
  · exact hw

theorem Keeps.writeImage (h : Keeps s₀ s) : Keeps s₀ (writeImage s) := by
  have k : Keeps s₀ (s.cipher.foldl (fun s e => Machine.setView s (64 * e.1) 0) s) := h.foldl fun _ _ k => k.setView
  unfold Machine.writeImage
  generalize s.cipher.foldl (fun s e => Machine.setView s (64 * e.1) 0) s = t at k ⊢
  have kt := k.withMem fun hm => wf_imageWritten _ t.mem t.acc t.tiles (wf_filter t.mem (fun c => !inRetention c.1) hm.1)
  exact kt.also

theorem Keeps.checkpoint (h : Keeps s₀ s) : Keeps s₀ (checkpoint s) := h.also.schedAt

theorem Keeps.execCheckpointNow (h : Keeps s₀ s) : KeepsOut s₀ (execCheckpointNow s) := by
  unfold Machine.execCheckpointNow
  refine h.actRow (fun _ _ k1 => ?_)
  split
  · exact KeepsOpt.ite k1.some k1.checkpoint.some
  · exact KeepsOpt.none

theorem Keeps.execCheckpointComplete (h : Keeps s₀ s) : KeepsOut s₀ (execCheckpointComplete s) := by
  unfold Machine.execCheckpointComplete
  refine h.actRow (fun _ _ k1 => ?_)
  split
  · dsimp only
    refine Keeps.some ?_
    split
    · exact k1.schedAt
    · split
      · exact k1.writeImage.also
      · exact k1.writeImage.also
  · exact KeepsOpt.none

theorem Keeps.execModulePowerFailure (h : Keeps s₀ s) : KeepsOut s₀ (execModulePowerFailure s) := by
  unfold Machine.execModulePowerFailure
  refine h.actRow (fun _ _ k1 => ?_)
  split
  · exact KeepsOpt.ite k1.also.some (KeepsOpt.ite k1.also.checkpoint.some k1.also.also.some)
  · exact KeepsOpt.none

theorem Keeps.execRestoreTierOne (h : Keeps s₀ s) : KeepsOut s₀ (execRestoreTierOne s) := by
  unfold Machine.execRestoreTierOne
  refine h.actRow (fun _ _ k1 => ?_)
  split
  · exact KeepsOpt.ite k1.some k1.also.schedAt.some
  · exact KeepsOpt.none

theorem wf_tierOneRestored (m₀ l : List Host.Cell) (h : Memory.wf m₀ = true) :
    Memory.wf (l.foldl (fun m c => match imageChanKey c.1 with | some k => memSet m k c.2 | none => m) m₀) = true := by
  refine wf_foldl _ _ (fun m c hw => ?_) _ h
  split
  · exact wf_memSet m _ _ hw
  · exact hw

theorem Keeps.execRestoreTierOneComplete (h : Keeps s₀ s) : KeepsOut s₀ (execRestoreTierOneComplete s) := by
  unfold Machine.execRestoreTierOneComplete
  refine h.actRow fun _ t k => ?_
  split
  · refine Keeps.some ?_
    have kt := k.withMem fun hm => wf_tierOneRestored _ t.mem (wf_filter t.mem (fun c => !inTierOne c.1) hm.1)
    exact kt.also
  · exact KeepsOpt.none

theorem Keeps.execInvalidate (h : Keeps s₀ s) : KeepsOut s₀ (execInvalidate s) := by
  unfold Machine.execInvalidate
  refine h.actRow (fun _ _ k1 => ?_)
  split
  · exact (Keeps.ite k1.also k1).some
  · exact KeepsOpt.none

theorem Keeps.cleared (h : Keeps s₀ s) : Keeps s₀ (cleared s) :=
  ⟨h.cycle, h.tsc, fun hm => ⟨wf_filter _ _ (h.memOk hm).1, rfl⟩, fun _ => ⟨rfl, rfl, rfl, rfl⟩⟩

theorem Keeps.bringsUp {i : BringUpIn} (h : Keeps s₀ s) : Keeps s₀ (bringsUp s i) := by
  unfold Machine.bringsUp
  dsimp only
  split
  · exact h.cleared.also
  · split
    · exact h.cleared.also
    · split
      · refine Keeps.also ?_
        split
        · exact h.cleared.also
        · exact h.cleared
      · split
        · refine Keeps.also ?_
          split
          · exact h.cleared.also
          · exact h.cleared
        · refine Keeps.also ?_
          split
          · exact h.cleared.also
          · exact h.cleared

theorem Keeps.execBringUp (h : Keeps s₀ s) : KeepsOut s₀ (execBringUp s) := by
  unfold Machine.execBringUp
  refine h.actRow (fun _ _ k1 => ?_)
  split
  · exact k1.bringsUp.some
  · exact KeepsOpt.none

theorem Keeps.execFirmwareUpload (h : Keeps s₀ s) : KeepsOut s₀ (execFirmwareUpload s) := by
  unfold Machine.execFirmwareUpload
  refine h.actRow (fun _ _ k1 => ?_)
  split
  · exact (Keeps.ite k1.also k1).some
  · exact KeepsOpt.none

theorem Keeps.execKeyInstall (h : Keeps s₀ s) : KeepsOut s₀ (execKeyInstall s) := by
  unfold Machine.execKeyInstall
  refine h.actRow (fun _ _ k1 => ?_)
  split
  · exact k1.freshId.modPart.some
  · exact KeepsOpt.none

theorem Keeps.execFlitReplay (h : Keeps s₀ s) : KeepsOut s₀ (execFlitReplay s) := by
  unfold Machine.execFlitReplay
  refine h.actRow (fun _ _ k1 => ?_)
  split
  · exact k1.modLink.some
  · exact KeepsOpt.none

theorem Keeps.loseJob {l cl : ℕ} {r : Running} (h : Keeps s₀ s) : Keeps s₀ (loseJob s l cl r) := Keeps.ite h.stopRun h

theorem Keeps.linkLost {l : ℕ} (h : Keeps s₀ s) : Keeps s₀ (linkLost s l) := by
  unfold Machine.linkLost
  refine h.forEach (fun _ _ k1 => Keeps.forEach ?_ (fun _ _ k2 => k2.slotEnds))
  split
  · exact k1.loseJob
  · exact k1

theorem Keeps.execPeerLinkDown (h : Keeps s₀ s) : KeepsOut s₀ (execPeerLinkDown s) := by
  unfold Machine.execPeerLinkDown
  refine h.actRow (fun _ _ k1 => ?_)
  split
  · exact k1.modLink.linkLost.openNotice.some
  · exact KeepsOpt.none

theorem Keeps.execPeerLinkUp (h : Keeps s₀ s) : KeepsOut s₀ (execPeerLinkUp s) := by
  unfold Machine.execPeerLinkUp
  refine h.actRow (fun _ _ k1 => ?_)
  split
  · exact k1.modLink.some
  · exact KeepsOpt.none

theorem Keeps.servesPeer {p : PeerReq} (h : Keeps s₀ s) : Keeps s₀ (servesPeer s p) := by
  unfold Machine.servesPeer
  dsimp only
  split
  · split
    · exact h.also
    · split
      · rename_i e1
        exact (h.hwKey.of_fst e1).also
      · rename_i e1
        split
        · split
          · exact (h.hwKey.of_fst e1).writeWord.also
          · exact Keeps.ite (h.hwKey.of_fst e1).also (h.hwKey.of_fst e1).writeWord.also
        · exact Keeps.ite (h.hwKey.of_fst e1).also (h.hwKey.of_fst e1).also
  · split
    · exact h.also
    · split
      · rename_i e1
        exact (h.hwKey.of_fst e1).also
      · rename_i e1
        split
        · split
          · exact (h.hwKey.of_fst e1).writeWord.also
          · exact Keeps.ite (h.hwKey.of_fst e1).also (h.hwKey.of_fst e1).writeWord.also
        · exact Keeps.ite (h.hwKey.of_fst e1).also (h.hwKey.of_fst e1).also

theorem Keeps.execPeerRequest (h : Keeps s₀ s) : KeepsOut s₀ (execPeerRequest s) := by
  unfold Machine.execPeerRequest
  refine h.actRow (fun _ _ k1 => ?_)
  split
  · exact k1.servesPeer.some
  · exact KeepsOpt.none

theorem Keeps.execTimeSync (h : Keeps s₀ s) : KeepsOut s₀ (execTimeSync s) := by
  unfold Machine.execTimeSync
  refine h.actRow (fun _ _ k1 => ?_)
  split
  · exact k1.also.some
  · exact KeepsOpt.none

/-! ### What the functions of Dispatch.lean keep -/

theorem Keeps.exec {i : Instr} (h : Keeps s₀ s) : KeepsOut s₀ (exec i s) := by
  unfold Machine.exec
  split
  · exact h.execNop
  · exact h.execTrap
  · exact h.execEret
  · exact h.execEbreak
  · exact h.execMfs
  · exact h.execMts
  · exact h.execTfork
  · exact h.execTexit
  · exact h.execTyield
  · exact h.execTmark
  · exact h.execSafept
  · exact h.execFence
  · exact h.execRclr
  · exact h.execAdd
  · exact h.execSub
  · exact h.execMul
  · exact h.execMulh
  · exact h.execMulhu
  · exact h.execDiv
  · exact h.execDivu
  · exact h.execRem
  · exact h.execRemu
  · exact h.execAnd
  · exact h.execOr
  · exact h.execXor
  · exact h.execAndn
  · exact h.execOrn
  · exact h.execSll
  · exact h.execSrl
  · exact h.execSra
  · exact h.execRol
  · exact h.execMin
  · exact h.execMax
  · exact h.execMinu
  · exact h.execMaxu
  · exact h.execClz
  · exact h.execCtz
  · exact h.execPop
  · exact h.execSext
  · exact h.execZext
  · exact h.execBfx
  · exact h.execBfi
  · exact h.execSel
  · exact h.execAddi
  · exact h.execAndi
  · exact h.execOri
  · exact h.execXori
  · exact h.execSlli
  · exact h.execSrli
  · exact h.execSrai
  · exact h.execRoli
  · exact h.execLih
  · exact h.execLihK
  · exact h.execCmp
  · exact h.execCmpImm
  · exact h.execPand
  · exact h.execPor
  · exact h.execPxor
  · exact h.execPandn
  · exact h.execPnot
  · exact h.execPmov
  · exact h.execPget
  · exact h.execB
  · exact h.execBl
  · exact h.execBp
  · exact h.execBpNot
  · exact h.execJr
  · exact h.execJlr
  · exact h.execLdb
  · exact h.execLdbu
  · exact h.execLdh
  · exact h.execLdhu
  · exact h.execLdw
  · exact h.execLdwu
  · exact h.execLdd
  · exact h.execStb
  · exact h.execSth
  · exact h.execStw
  · exact h.execStd
  · exact h.execTake
  · exact h.execPeek
  · exact h.execGive
  · exact h.execPost
  · exact h.execVoid
  · exact h.execProbe
  · exact h.execAmoadd
  · exact h.execAmoand
  · exact h.execAmoor
  · exact h.execAmoxor
  · exact h.execAmomin
  · exact h.execAmomax
  · exact h.execAmominu
  · exact h.execAmomaxu
  · exact h.execAmoswap
  · exact h.execAmocas
  · exact h.execDist
  · exact h.execPadd
  · exact h.execPmk
  · exact h.execPfld
  · exact h.execPfix
  · exact h.execLeap
  · exact h.execRput
  · exact h.execPaddi
  · exact h.execRvinit
  · exact h.execRvarr
  · exact h.execRvwait
  · exact h.execRvtest
  · exact h.execJpush
  · exact h.execJpushW
  · exact h.execBarini
  · exact h.execBarexp
  · exact h.execBarwt
  · exact h.execEvsend
  · exact h.execEvnext
  · exact h.execEvnull
  · exact h.execLkset
  · exact h.execDqpush
  · exact h.execDqpop
  · exact h.execDqsplit
  · exact h.execDqsteal
  · exact h.execDqcnt
  · exact h.execVadd
  · exact h.execVsub
  · exact h.execVmul
  · exact h.execVmin
  · exact h.execVmax
  · exact h.execVfma
  · exact h.execVfms
  · exact h.execVdiv
  · exact h.execVabs
  · exact h.execVneg
  · exact h.execVmulh
  · exact h.execVand
  · exact h.execVor
  · exact h.execVxor
  · exact h.execVandn
  · exact h.execVshl
  · exact h.execVshr
  · exact h.execVsra
  · exact h.execVcmp
  · exact h.execVsqrt
  · exact h.execVrcp
  · exact h.execVrsqrt
  · exact h.execVexp2
  · exact h.execVlog2
  · exact h.execVtanh
  · exact h.execVcvt
  · exact h.execVperm
  · exact h.execVslide
  · exact h.execVbcast
  · exact h.execVextr
  · exact h.execVins
  · exact h.execVredsum
  · exact h.execVredmax
  · exact h.execVredmin
  · exact h.execMand
  · exact h.execMor
  · exact h.execMxor
  · exact h.execMnot
  · exact h.execMpop
  · exact h.execMfirst
  · exact h.execMset
  · exact h.execMget
  · exact h.execVld
  · exact h.execVlds
  · exact h.execVldx
  · exact h.execVst
  · exact h.execVsts
  · exact h.execVstx
  · exact h.execVstxa
  · exact h.execAmov
  · exact h.execAput
  · exact h.execDadd
  · exact h.execDsub
  · exact h.execDmul
  · exact h.execDdiv
  · exact h.execDfma
  · exact h.execDsqrt
  · exact h.execDneg
  · exact h.execDabs
  · exact h.execDmov
  · exact h.execDround
  · exact h.execDcmp
  · exact h.execDcvtf
  · exact h.execDcvtd
  · exact h.execDcvti
  · exact h.execDcvtdi
  · exact h.execDhead
  · exact h.execDclass
  · exact h.execLdn
  · exact h.execStn
  · exact h.execPrec
  · exact h.execPrecReg
  · exact h.execIllegalInstruction
  · exact h.execMma
  · exact h.execMzero
  · exact h.execMfmt
  · exact h.execMstore
  · exact h.execMcheck
  · exact h.execCopy
  · exact h.execFill
  · exact h.execGather
  · exact h.execScatter
  · exact h.execScatteradd
  · exact h.execColl
  · exact h.execDigest
  · exact h.execLaunch
  · exact h.execJobEnd
  · exact h.execJobStatusWord
  · exact h.execCollProceed
  · exact h.execMemberTimeout
  · exact h.execDigestDecision
  · exact h.execHomeAccess
  · exact h.execTableWalk
  · exact h.execAccessResponse
  · exact h.execRelaxedAccessCompletion
  · exact h.execBusyResend
  · exact h.execSyncTimeout
  · exact h.execRendezvousRelease
  · exact h.execRendezvousTimeout
  · exact h.execRputArrival
  · exact h.execLeapArrival
  · exact h.execLeapBounce
  · exact h.execLeapResend
  · exact h.execArrivalAcknowledgement
  · exact h.execContainmentReset
  · exact h.execResume
  · exact h.execDeliver
  · exact h.execTerminate
  · exact h.execVacate
  · exact h.execRestore
  · exact h.execSaveWriteAcknowledgement
  · exact h.execContextSaveFault
  · exact h.execSlotDisable
  · exact h.execSlotReenable
  · exact h.execRankingRefresh
  · exact h.execSave
  · exact h.execTeamTerminate
  · exact h.execDiscard
  · exact h.execSliceExpiry
  · exact h.execTeamSave
  · exact h.execPreemptionTimeout
  · exact h.execScan
  · exact h.execPlacement
  · exact h.execCreate
  · exact h.execDelete
  · exact h.execSwitchIn
  · exact h.execSwitchOut
  · exact h.execTailWrite
  · exact h.execHeadRead
  · exact h.execCalendBoundary
  · exact h.execTranslationShootdown
  · exact h.execRelocate
  · exact h.execRetireStub
  · exact h.execReinstate
  · exact h.execThermalEvacuation
  · exact h.execPoolSupply
  · exact h.execMoveCompletion
  · exact h.execCorrectedError
  · exact h.execUncorrectableError
  · exact h.execParityReplay
  · exact h.execRowSparing
  · exact h.execSpareSwitch
  · exact h.execSpareRowError
  · exact h.execUnfence
  · exact h.execCheckpointNow
  · exact h.execRestoreTierOne
  · exact h.execInvalidate
  · exact h.execCheckpointComplete
  · exact h.execModulePowerFailure
  · exact h.execBringUp
  · exact h.execFirmwareUpload
  · exact h.execKeyInstall
  · exact h.execFlitReplay
  · exact h.execPeerLinkDown
  · exact h.execPeerRequest
  · exact h.execHostBarAccess
  · exact h.execTimeSync
  · exact h.execEventEntry
  · exact h.execEventBusyAnswer
  · exact h.execEventResend
  · exact h.execEventDispatch
  · exact h.execEndOfLocalTime
  · exact h.execAlmanacMessage
  · exact h.execAlmanacHoldExpiry
  · exact h.execVigilRound
  · exact h.execVigilEvent
  · exact h.execLinkRegistration
  · exact h.execHold
  · exact h.execRelease
  · exact h.execStep
  · exact h.execCancel
  · exact h.execReleaseOne
  · exact h.execArmedTaskEntryWrite
  · exact h.execDebugWindowWrite
  · exact h.execDump
  · exact h.execTriggerArm
  · exact h.execTriggerTransition
  · exact h.execSolsticePulse
  · exact h.execHistogramClear
  · exact h.execTraceRecordWrite
  · exact h.execFqbWrite
  · exact h.execFqrWrite
  · exact h.execHfqbWrite
  · exact h.execHfqrWrite
  · exact h.execDivsClear
  · exact h.execRegisterWrite
  · exact h.execStealVisit
  · exact h.execPeerLinkUp
  · exact h.execRestoreTierOneComplete

/-! ### What the functions of Sched.lean keep -/

theorem Keeps.holdNext (h : Keeps s₀ s) :
    KeepsOpt s₀ (holdNext s) := KeepsOpt.findSome (fun _ => KeepsOpt.map (fun _ => h.holdTick))

theorem Keeps.fenceNext (h : Keeps s₀ s) : KeepsOpt s₀ (fenceNext s) := KeepsOpt.map (fun _ => h.fenceEnds)

theorem Keeps.quiet (h : Keeps s₀ s) : KeepsOpt s₀ (quiet s) := by
  unfold Machine.quiet
  split
  · rename_i e1
    exact (h.postNext _ e1).some
  · split
    · rename_i e1
      exact ((KeepsOpt.map (fun _ => h.deliverRecord)).unmet _ e1).some
    · split
      · rename_i e1
        exact ((KeepsOpt.map (fun _ => h.leave)).unmet _ e1).some
      · split
        · rename_i e1
          exact (h.holdNext _ e1).some
        · split
          · rename_i e1
            exact (h.fenceNext _ e1).some
          · split
            · rename_i e1
              exact (h.substDue _ e1).some
            · exact h.dcmdSettles

theorem Keeps.enterFetch {u : ℕ} {th : Thread} {pl : Place} (h : Keeps s₀ s) : Keeps s₀ (enterFetch u th s pl) := by
  unfold Machine.enterFetch
  split
  · exact Keeps.ite h h.freshId.portAccess
  · exact h

/-! ### What the functions of Park.lean keep -/

theorem Keeps.parkNext {u : ℕ} (h : Keeps s₀ s) : Keeps s₀ (parkNext u s) := by
  unfold Machine.parkNext
  split
  · exact h
  · split
    · split
      · split
        · exact h.modThread
        · exact h
      · exact h
    · exact h

theorem Keeps.parkAhead (h : Keeps s₀ s) : Keeps s₀ (parkAhead s) := Keeps.ite h (h.forEach (fun _ _ k1 => k1.parkNext))

/-! ### What happens next -/

/-- What a choice leaves of a state, when it stays in the state's cycle: the state of its row, or the state it passes on to. -/
def KeepsChoice (s₀ : State) : Choice → Prop
  | .run _ t => Keeps s₀ t
  | .rest t => Keeps s₀ t

theorem KeepsChoice.withPorts {p : AMap Port} {c : Choice} (h : KeepsChoice s₀ c) : KeepsChoice s₀ (c.withPorts p) := by
  cases c with
  | run i t => exact Keeps.also h
  | rest t => exact Keeps.also h

theorem Keeps.runAct {a : Act} (h : Keeps s₀ s) : KeepsChoice s₀ (runAct s a) := h.also

theorem Keeps.issueUnit {u : Nat} {th : Thread} (h : Keeps s₀ s) : KeepsChoice s₀ (issueUnit s u th) := by
  obtain ⟨fetch, hf⟩ : ∃ g, g = Machine.fetchUnit := ⟨_, rfl⟩
  have kfetch : ∀ s th, Keeps s₀ s → Keeps s₀ (fetch s th).1 := hf ▸ fun _ _ k => k.fetchUnit
  unfold Machine.issueUnit
  rw [← hf]
  dsimp only
  split
  · exact Keeps.takeFault h.issued.modThread
  · split
    · exact Keeps.raise h
    · split
      · exact h.modThread
      · split
        · rename_i e1
          exact Keeps.takeFault ((kfetch _ _ h).of_fst e1).issued
        · rename_i e1
          exact ((kfetch _ _ h).of_fst e1).also
        · rename_i e1
          exact ((kfetch _ _ h).of_fst e1).also

theorem Keeps.issueTurn {u : Nat} {th : Thread} (h : Keeps s₀ s) : KeepsChoice s₀ (issueTurn s u th) := by
  unfold Machine.issueTurn
  split
  · exact h.issueUnit
  · split
    · exact h.issueUnit
    · have k : ∀ l, Keeps s₀ (Machine.forEach l (Machine.enterFetch u th) s) := fun _ => h.forEach fun _ _ k => k.enterFetch
      dsimp only
      split
      · exact (k _).modThread
      · exact (k _).issueUnit.withPorts

theorem keepsChoice_of_issueNext {c : Choice} (h : Keeps s₀ s) (hc : issueNext s = some c) : KeepsChoice s₀ c := by
  unfold issueNext at hc
  dsimp only at hc
  split at hc
  · split at hc
    · exact Option.some.inj hc ▸ h.rvarrAgain
    · exact Option.some.inj hc ▸ h.also.markPc.issueTurn
  · exact Option.some.inj hc ▸ h.rvarrAgain
  · exact Option.some.inj hc ▸ h.also.markPc.issueTurn
  · cases hc

/-! ### The passage to the next cycle -/

/-- What the passage to the next cycle keeps of the state it leaves. -/
structure Passes (s₀ s : State) : Prop where
  cycle : s.cycle = s₀.cycle + 1
  tsc : s₀.tsc ≤ s.tsc
  memOk : s₀.MemOk → s.MemOk
  rising : s₀.Rising → s.Rising

theorem Passes.keeps {t : State} (h : Passes s₀ s) (k : Keeps s t) : Passes s₀ t :=
  ⟨k.cycle.trans h.cycle, k.tsc ▸ h.tsc, fun hm => k.memOk (h.memOk hm), fun hr => k.rising (h.rising hr)⟩

theorem tsc_le_tickAt (s : State) (c : Nat) : s.tsc ≤ tickAt s c := Nat.le_add_right _ _

/-- A correction of the time-stamp counter holds it for a tick or moves it one tick further; it never sets it back. -/
theorem tsc_le_tickOn (s : State) : s.tsc ≤ (tickOn s).tsc := by
  have hle := tsc_le_tickAt s (s.cycle + 1)
  unfold Machine.tickOn
  dsimp only
  split
  · dsimp only
    split
    · exact Nat.le_succ_of_le hle
    · exact Nat.le_refl _
  · exact hle

theorem memOk_tickOn (h : s.MemOk) : (tickOn s).MemOk := by
  unfold Machine.tickOn
  dsimp only
  split
  · exact h
  · exact h

theorem rising_tickOn (h : s.Rising) : (tickOn s).Rising := by
  unfold Machine.tickOn
  dsimp only
  split
  · exact h
  · exact h

theorem passes_nextCycle (s : State) : Passes s (nextCycle s) := by
  have k : Keeps s (forEach (evTiles s) evuTick s) := (Keeps.refl s).forEach fun _ _ k => k.evuTick
  refine ⟨rfl, ?_, fun hm => memOk_tickOn (k.memOk hm), fun hr => rising_tickOn (k.rising hr)⟩
  exact k.tsc ▸ tsc_le_tickOn _

/-! ### The step -/

/-- A choice runs its row in the cycle it is made in; a choice that runs no row may end the cycle. -/
def GoesOn (s₀ : State) : Choice → Prop
  | .run _ t => Keeps s₀ t
  | .rest t => Keeps s₀ t ∨ Passes s₀ t

theorem KeepsChoice.goesOn {c : Choice} (h : KeepsChoice s₀ c) : GoesOn s₀ c := by
  cases c with
  | run i t => exact h
  | rest t => exact Or.inl h

theorem keeps_agendaDue {late : Bool} {a : Act} {t : State} (h : agendaDue s late = some (a, t)) : Keeps s t := by
  obtain ⟨x, -, hx⟩ := Option.map_eq_some_iff.mp h
  obtain ⟨-, rfl⟩ := Prod.mk.inj hx
  exact (Keeps.refl s).also

theorem keeps_timerDue {a : Act} {t : State} (h : timerDue s = some (a, t)) : Keeps s t := by
  obtain ⟨x, -, hx⟩ := Option.map_eq_some_iff.mp h
  obtain ⟨-, rfl⟩ := Prod.mk.inj hx
  exact (Keeps.refl s).also

theorem keeps_frozenDue {a : Act} {t : State} (h : frozenDue s = some (a, t)) : Keeps s t := by
  obtain ⟨x, -, hx⟩ := Option.map_eq_some_iff.mp h
  obtain ⟨-, rfl⟩ := Prod.mk.inj hx
  exact (Keeps.refl s).also

theorem goesOn_runAct {a : Act} (h : Keeps s₀ s) : GoesOn s₀ (runAct s a) := h.runAct.goesOn

theorem goesOn_nextCycle (s : State) : GoesOn s (.rest (nextCycle s)) := Or.inr (passes_nextCycle s)

theorem goesOn_afterIssue (s : State) : GoesOn s (afterIssue s) := by
  unfold Machine.afterIssue
  split
  · exact goesOn_runAct (Keeps.refl s)
  · split
    · next e => exact goesOn_runAct (keeps_agendaDue e)
    · split
      · next e => exact goesOn_runAct (keeps_timerDue e)
      · split
        · exact goesOn_runAct (Keeps.refl s)
        · exact goesOn_nextCycle s

theorem goesOn_running (s : State) : GoesOn s (running s) := by
  unfold Machine.running
  split
  · exact goesOn_runAct (Keeps.refl s)
  · split
    · next e => exact Or.inl ((Keeps.refl s).quiet _ e)
    · split
      · next e => exact (keepsChoice_of_issueNext (Keeps.refl s) e).goesOn
      · exact goesOn_afterIssue s

theorem goesOn_whileFrozen (s : State) : GoesOn s (whileFrozen s) := by
  unfold Machine.whileFrozen
  split
  · next e => exact goesOn_runAct (keeps_frozenDue e)
  · exact goesOn_nextCycle s

theorem goesOn_choose (s : State) : GoesOn s (choose s) := by
  unfold Machine.choose
  split
  · exact goesOn_whileFrozen s
  · split
    · exact goesOn_runAct (Keeps.refl s)
    · split
      · next e => exact goesOn_runAct (keeps_agendaDue e)
      · exact goesOn_running s

/-- A step stays in its cycle or is the passage to the next one. -/
theorem keeps_or_passes_of_step {t : State} (h : step s = .next t) : Keeps s t ∨ Passes s t := by
  have hc := goesOn_choose s
  unfold Machine.step at h
  split at h
  · next e =>
    rw [e] at hc
    exact Or.inl (Keeps.exec hc t h)
  · next r e =>
    rw [e] at hc
    obtain rfl := Host.Outcome.next.inj h
    split
    · exact hc
    · exact hc.imp (fun k => k.parkAhead) fun p => p.keeps (Keeps.refl r).parkAhead

end

/-- Settles O55: all that happens within a cycle keeps both the cycle and the time-stamp counter, and the passage to the
next cycle moves the counter only forwards. -/
theorem timeGoesOn : Obligations.TimeGoesOn := by
  unfold Obligations.TimeGoesOn
  intro s t h
  rcases keeps_or_passes_of_step h with k | p
  · exact ⟨Or.inl k.cycle, Nat.le_of_eq k.tsc.symm⟩
  · exact ⟨Or.inr p.cycle, p.tsc⟩

end Sys2Proof.Machine

/-! ## Every row answers

A row of the table is a unit, whose meaning is run for the thread in hand, or an act, whose meaning is run for the act in
hand; so no row is refused, and a unit in hand always has a next state (R9, R27, R57, R140). -/

namespace Sys2Proof.Machine

open Sys2Proof.Claims

/-- Where a check of the operands chooses between two meanings, the row still runs one of them for the thread in hand. -/
theorem withCur_ite (s : State) (p : Prop) [Decidable p] (k l : Cur → Thread → State) :
    (if p then withCur s k else withCur s l) = withCur s (if p then k else l) := by split <;> rfl

theorem matrixRow_eq_actRow (s : State) (op : Nat) (k : State → Nat → Nat → Job → Running → State × Running)
    (pick : Act → Option (Nat × Nat)) : ∃ m, matrixRow s op k pick = actRow s m := ⟨_, rfl⟩

theorem copyRow_eq_actRow (s : State) (op : Nat) (k : State → Nat → Nat → Job → Running → State × Running)
    (pick : Act → Option (Nat × Nat)) : ∃ m, copyRow s op k pick = actRow s m := ⟨_, rfl⟩

/-- The rows of commands and acts run for the act in hand, and no instruction word encodes them; all others run for the
thread in hand. -/
theorem exec_eq_withCur_or_actRow (i : Instr) (s : State) :
    (∃ k, exec i s = withCur s k) ∨ i.wf = false ∧ ∃ k, exec i s = actRow s k := by
  cases i with
  | mma | mzero | mfmt | mstore | mcheck => exact Or.inr ⟨rfl, by dsimp only [exec]; exact matrixRow_eq_actRow s _ _ _⟩
  | copy | fill | gather | scatter | scatteradd | coll | digest =>
    exact Or.inr ⟨rfl, by dsimp only [exec]; exact copyRow_eq_actRow s _ _ _⟩
  | launch | jobEnd | jobStatusWord | collProceed | memberTimeout | digestDecision | homeAccess | tableWalk | accessResponse
  | relaxedAccessCompletion | busyResend | syncTimeout | rendezvousRelease | rendezvousTimeout | rputArrival | leapArrival
  | leapBounce | leapResend | arrivalAcknowledgement | containmentReset | resume | deliver | terminate | vacate | restore
  | saveWriteAcknowledgement | contextSaveFault | slotDisable | slotReenable | rankingRefresh | save | teamTerminate | discard
  | sliceExpiry | teamSave | preemptionTimeout | scan | placement | create | delete | switchIn | switchOut | tailWrite | headRead
  | calendBoundary | translationShootdown | relocate | retireStub | reinstate | thermalEvacuation | poolSupply | moveCompletion
  | correctedError | uncorrectableError | parityReplay | rowSparing | spareSwitch | spareRowError | unfence | checkpointNow
  | restoreTierOne | invalidate | checkpointComplete | modulePowerFailure | bringUp | firmwareUpload | keyInstall | flitReplay
  | peerLinkDown | peerRequest | hostBarAccess | timeSync | eventEntry | eventBusyAnswer | eventResend | eventDispatch
  | endOfLocalTime | almanacMessage | almanacHoldExpiry | vigilRound | vigilEvent | linkRegistration | hold | release | step | cancel
  | releaseOne | armedTaskEntryWrite | debugWindowWrite | dump | triggerArm | triggerTransition | solsticePulse | histogramClear
  | traceRecordWrite | fqbWrite | fqrWrite | hfqbWrite | hfqrWrite | divsClear | registerWrite | stealVisit | peerLinkUp
  | restoreTierOneComplete => exact Or.inr ⟨rfl, by dsimp only [exec]; exact ⟨_, rfl⟩⟩
  | mfs d n => exact Or.inl ⟨_, withCur_ite s _ _ _⟩
  | mts a n => exact Or.inl ⟨_, withCur_ite s _ _ _⟩
  | vldx t i a et rx q => exact Or.inl ⟨_, withCur_ite s _ _ _⟩
  | _ => exact Or.inl ⟨_, rfl⟩

theorem withCur_of_executing {s : State} {c : Cur} {th : Thread} (h : Executing s c th) (k : Cur → Thread → State) :
    withCur s k = .next (k c th) := by
  obtain ⟨hc, hth, -⟩ := h
  simp [withCur, hc, hth]

theorem withCur_ne_refused (s : State) (k : Cur → Thread → State) (r : Refusal) : withCur s k ≠ .refused r := by
  unfold withCur
  split
  · simp
  · split <;> simp

theorem actRow_ne_refused (s : State) (k : Act → State → Option State) (r : Refusal) : actRow s k ≠ .refused r := by
  rcases actRow_cases s k with ⟨t, ht⟩ | hf
  · simp [ht]
  · simp [hf]

/-- Settles O54: by `exec_eq_withCur_or_actRow` a row that a word encodes runs for the thread in hand, and neither kind of row
is refused. -/
theorem unitsRun : Obligations.UnitsRun := by
  unfold Obligations.UnitsRun
  refine ⟨fun i s c th hwf h => ?_, fun i s r => ?_⟩
  · rcases exec_eq_withCur_or_actRow i s with ⟨k, hk⟩ | ⟨hno, -⟩
    · exact ⟨k c th, hk.trans (withCur_of_executing h k)⟩
    · exact absurd hwf (by simp [hno])
  · rcases exec_eq_withCur_or_actRow i s with ⟨k, hk⟩ | ⟨-, k, hk⟩
    · exact hk ▸ withCur_ne_refused s k r
    · exact hk ▸ actRow_ne_refused s k r

end Sys2Proof.Machine

/-! ## Broadcasts and the turn of a calend (R15, R179, R205) -/

namespace Sys2Proof.Machine

open Sys2Proof.Claims

/-- What each step of a fold keeps, the fold keeps. -/
theorem foldl_keeps {α β : Type} (g : State → β) {f : State → α → State} (h : ∀ s a, g (f s a) = g s) (l : List α)
    (s : State) : g (l.foldl f s) = g s := by
  induction l generalizing s with
  | nil => rfl
  | cons a t ih => exact (ih (f s a)).trans (h s a)

theorem le_calend_of_submit (s : State) (src : Nat) (k : BcKind) : now s / 64 + 2 ≤ (submit s src k).2 := by
  unfold submit
  dsimp only
  split <;> omega

theorem submit_fst (s : State) (src : Nat) (k : BcKind) :
    (submit s src k).1 = { s with casts := s.casts ++ [{ src := src, calend := (submit s src k).2, kind := k }] } := rfl

theorem mem_casts_submit (s : State) (src : Nat) (k : BcKind) :
    { src := src, calend := (submit s src k).2, kind := k } ∈ (submit s src k).1.casts := by simp [submit_fst]

/-- What a broadcast that takes effect leaves alone: the calend, the broadcasts to come, and that no act has to wait. -/
def announced (s : State) : Nat × List Broadcast × Option Nat := (s.calend, s.casts, s.behind)

theorem announced_queueKick (s : State) (n q : Nat) : announced (queueKick s n q) = announced s := by
  unfold queueKick
  dsimp only
  split <;> rfl

theorem announced_createEffect (s : State) (n : Nat) : announced (createEffect s n) = announced s :=
  foldl_keeps announced (fun s q => announced_queueKick s n q) _ _

theorem announced_bootStep (s : State) (b : Nat) : announced { s with bootStep := b } = announced s := rfl

theorem announced_remapLater (s : State) : announced (remapLater s) = announced s := rfl

theorem announced_restartWalks (s : State) (n port : Nat) : announced (restartWalks s n port) = announced s := by
  unfold restartWalks
  refine (foldl_keeps announced ?_ _ _).trans (by simp [announced])
  exact fun _ _ => rfl

theorem announced_castEffect (s : State) (k : BcKind) : announced (castEffect s k) = announced s := by
  unfold castEffect
  cases k with
  | substitution die b => dsimp only; split <;> rfl
  | create n =>
    exact (announced_remapLater _).trans ((announced_bootStep _ _).trans (announced_createEffect s n))
  | delete n => exact announced_remapLater (deleteEffect s n)
  | shootdown n v =>
    exact (foldl_keeps announced (fun s port => announced_restartWalks s n port) (s.ports.map (·.1)) (shoot s n v)).trans rfl
  | notice ps host e =>
    have hp : announced (forEach ps (fun s n => postSup s n e) s) = announced s := by
      refine foldl_keeps announced ?_ ps s
      exact fun _ _ => rfl
    cases host with
    | true => exact hp
    | false => exact hp

theorem announced_calendTurns (s : State) : announced (calendTurns s) =
    (now s / 64, s.casts.filter (fun b => decide (now s / 64 < b.calend)), s.behind) :=
  foldl_keeps announced (fun s (b : Broadcast) => announced_castEffect s b.kind) _ _

theorem calendTurns_calend (s : State) : (calendTurns s).calend = now s / 64 :=
  congrArg (fun x => x.1) (announced_calendTurns s)

theorem calendTurns_casts (s : State) : (calendTurns s).casts = s.casts.filter fun b => decide (now s / 64 < b.calend) :=
  congrArg (fun x => x.2.1) (announced_calendTurns s)

theorem calendTurns_behind (s : State) : (calendTurns s).behind = s.behind :=
  congrArg (fun x => x.2.2) (announced_calendTurns s)

/-- The turn of a calend in which no broadcast is due: DRAIN moves, and nothing else is changed. -/
theorem calendTurns_of_none_due (s : State) (h : ∀ b ∈ s.casts, now s / 64 < b.calend) :
    ∃ report : Nat → Nat, calendTurns s = { s with
      calend := now s / 64,
      parts := s.parts.map fun e => (e.1, { e.2 with drain := e.2.drainReport, drainReport := report e.1 }) } := by
  have hdue : s.casts.filter (fun b => decide (b.calend ≤ now s / 64)) = [] :=
    List.filter_eq_nil_iff.mpr fun b hb => by simpa using h b hb
  have hrest : s.casts.filter (fun b => decide (now s / 64 < b.calend)) = s.casts :=
    List.filter_eq_self.mpr fun b hb => by simpa using h b hb
  refine ⟨oldestInj { s with calend := now s / 64 }, ?_⟩
  simp only [calendTurns, hdue, hrest, inSourceOrder, List.foldl_nil]

theorem exec_calendBoundary {s : State} (h : Acting s .calendBoundary) (hc : s.calend < now s / 64) :
    exec .calendBoundary s = .next (calendTurns { s with act := none }) := by
  change execCalendBoundary s = _
  unfold execCalendBoundary
  exact actRow_done h.1 (if_pos hc) ((calendTurns_behind _).trans h.2)

/-- A TSHD write that is ignored: a reserved bit is set, or the size is not one of a page level and not all are meant (R179). -/
def tshdBroken (v : Word) : Prop :=
  bits v 0 12 ≠ 0 ∨ bits v 46 2 ≠ 0 ∨ bits v 52 12 ≠ 0 ∨ (bits v 48 3 = 7 ∧ bit v 51 = false)

theorem exec_translationShootdown_ignored {s : State} {n tile : Nat} {v : Word} (h : Acting s (.translationShootdown n tile v))
    (hv : tshdBroken v) : exec .translationShootdown s = .next { s with act := none } := by
  change execTranslationShootdown s = _
  unfold execTranslationShootdown
  exact actRow_done h.1 (if_pos hv) h.2

theorem exec_translationShootdown_announced {s : State} {n tile : Nat} {v : Word} (h : Acting s (.translationShootdown n tile v))
    (hv : ¬ tshdBroken v) : exec .translationShootdown s =
      .next (modPart (submit { s with act := none } tile (.shootdown n v)).1 n fun p =>
        { p with tshs := (submit { s with act := none } tile (.shootdown n v)).2 }) := by
  change execTranslationShootdown s = _
  unfold execTranslationShootdown
  exact actRow_done h.1 (if_neg hv) h.2

end Sys2Proof.Machine

namespace Sys2Proof.Claims

open Sys2Proof.Machine

/-- Settles O43: no broadcast that takes effect touches the calend or the broadcasts to come (`announced_calendTurns`), a turn
with none due moves DRAIN alone (`calendTurns_of_none_due`), and a TSHD write is submitted as a broadcast. -/
theorem calendTurns : Obligations.CalendTurns := by
  unfold Obligations.CalendTurns
  refine fun s => ⟨fun h hc => ?_, fun partn tile v h => ⟨fun hbad => ?_, fun h0 h46 h52 hlvl => ?_⟩⟩
  · refine ⟨_, exec_calendBoundary h hc, calendTurns_calend _, fun b hb => ?_, fun hnone => ?_⟩
    · rw [calendTurns_casts] at hb
      exact of_decide_eq_true (List.mem_filter.mp hb).2
    · obtain ⟨report, hreport⟩ := calendTurns_of_none_due { s with act := none } hnone
      rw [hreport]
      refine ⟨rfl, rfl, rfl, rfl, fun n p hp => ?_⟩
      simp [partOf, lookD, look_map, hp]
  · exact ⟨_, exec_translationShootdown_ignored h hbad, rfl⟩
  · have hv : ¬ tshdBroken v := by
      rintro (hb | hb | hb | ⟨hb, hall⟩)
      · exact hb h0
      · exact hb h46
      · exact hb h52
      · simp [hb, hall] at hlvl
    refine ⟨_, exec_translationShootdown_announced h hv, _, mem_casts_submit { s with act := none } tile (.shootdown partn v),
      rfl, rfl, le_calend_of_submit { s with act := none } tile (.shootdown partn v), ?_,
      fun x hx => List.mem_append_left _ hx, rfl, rfl⟩
    rw [partOf_modPart_self]

end Sys2Proof.Claims

/-! ## Accesses of the hardware that nothing hinders -/

namespace Sys2Proof.Machine

open Sys2Proof.Claims

/-! ### Entries of tables and agendas -/

theorem mem_of_look {α : Type} {m : AMap α} {k : Nat} {v : α} (h : look m k = some v) : (k, v) ∈ m := by
  induction m with
  | nil => simp [look] at h
  | cons x t ih =>
    obtain ⟨j, w⟩ := x
    by_cases hj : j = k
    · simp_all [look]
    · exact List.mem_cons_of_mem _ (ih (by simpa [look, hj] using h))

/-- What holds of the default and of every entry holds of what is read. -/
theorem lookD_of_forall {α : Type} {m : AMap α} {d : α} (P : α → Prop) (hd : P d) (h : ∀ e ∈ m, P e.2) (k : Nat) :
    P (lookD m k d) := by
  unfold lookD
  cases hk : look m k with
  | none => exact hd
  | some v => exact h (k, v) (mem_of_look hk)

theorem forall_ins {α : Type} {m : AMap α} {k : Nat} {v : α} (P : α → Prop) (hv : P v) (h : ∀ e ∈ m, P e.2) :
    ∀ e ∈ ins m k v, P e.2 := by
  induction m with
  | nil => simpa [ins] using hv
  | cons x t ih =>
    obtain ⟨j, w⟩ := x
    obtain ⟨hx, ht⟩ := List.forall_mem_cons.mp h
    simp only [ins]
    split
    · exact List.forall_mem_cons.mpr ⟨hx, ih ht⟩
    · split
      · exact List.forall_mem_cons.mpr ⟨hv, ht⟩
      · exact List.forall_mem_cons.mpr ⟨hv, h⟩

theorem forall_enterTimed {l : List Timed} {x : Timed} (P : Timed → Prop) (hx : P x) (h : ∀ y ∈ l, P y) :
    ∀ y ∈ enterTimed l x, P y := by
  induction l with
  | nil => simpa [enterTimed] using hx
  | cons y t ih =>
    obtain ⟨hy, ht⟩ := List.forall_mem_cons.mp h
    simp only [enterTimed]
    split
    · exact List.forall_mem_cons.mpr ⟨hx, h⟩
    · exact List.forall_mem_cons.mpr ⟨hy, ih ht⟩

/-! ### The two ways an access of the hardware takes -/

/-- The way behind a port: the translation, the view of the line, and the accesses that came before (R177, R372, R53). -/
def portKey (s : State) (n c o : Nat) (w f : Bool) : State × Hw :=
  match translate s c n o w f with
  | (s1, .ok a) => (meetEarlier (setView s1 (keyPort c a) (viewOf s1 c n o)) (earlierAtPort s c (keyPort c a)), .ok (keyPort c a))
  | (s1, .page l h) => (s1, .bad 0x09 (l + if w then 16 else 0) h)
  | (s1, .prot) => (s1, .bad 0x0A ((if w then 1 else 0) + if w then 16 else 0) false)

/-- The way to a scratchpad word: the stubs, the moves, and the accesses that a move held (R211, R212, R53). -/
def spadKey (s : State) (n : Nat) (p : Ptr) : State × Hw :=
  let r := stubEnd s n p
  (meetEarlier (meetMove (countStubs r.2.2 s) (r.2.2 ++ endBlock s n r.2.1))
    (match r.1 with | .ok k => !r.2.2.isEmpty && earlierOnWay s k | .bad _ _ _ => false), r.1)

theorem hwKey_eq (s : State) (n : Nat) (p : Ptr) (w f : Bool) : hwKey s n p w f =
    if limitsOf s n p ≠ 0 then (s, .bad 0x08 (limitsOf s n p) false)
    else match placeOf s n p with
      | some (.spad _ _) => spadKey s n p
      | some (.chan c o) => portKey s n c o w f
      | some (.tier2 c o) => portKey s n (48 + c) o w f
      | some (.host b) => (s, .ok (keyHost b))
      | _ => (s, .bad 0x08 1 false) := by
  unfold hwKey portKey
  rfl

/-! ### States in which no access of the hardware has to wait -/

/-- An act that a move held and that is on its way again (R211). -/
def heldAct : Act → Bool
  | .homeAccess r => r.turn.isSome
  | _ => false

/-- No access of the hardware has met anything, and there is nothing for one to meet. -/
structure Clear (s : State) : Prop where
  behind : s.behind = none
  moves : ∀ e ∈ s.tiles, e.2.move = none
  walks : ∀ e ∈ s.ports, e.2.walks = []
  held : ∀ x ∈ s.agenda, heldAct x.act = false

theorem clear_of_unhindered {s : State} (hb : s.behind = none) (h : Unhindered s) : Clear s := by
  simp only [Unhindered, unhindered, Bool.and_eq_true, Bool.not_eq_true', List.all_eq_true, List.isEmpty_iff] at h
  obtain ⟨⟨hm, hw⟩, ha⟩ := h
  refine ⟨hb, ?_, hw, fun x hx => ?_⟩
  · simpa [anyMove] using hm
  · have := ha x hx
    unfold heldAct
    split <;> simp_all

section
variable {s : State}

theorem Clear.anyMove (h : Clear s) : anyMove s = false := by
  simpa [Machine.anyMove] using h.moves

theorem Clear.tile (h : Clear s) (k : Nat) : (tileOf s k).move = none :=
  lookD_of_forall (fun t : Tile => t.move = none) rfl h.moves k

theorem Clear.port (h : Clear s) (k : Nat) : (portOf s k).walks = [] :=
  lookD_of_forall (fun p : Port => p.walks = []) rfl h.walks k

theorem Clear.earlierAtPort (h : Clear s) (n k : Nat) : earlierAtPort s n k = false := by
  simp [Machine.earlierAtPort, h.port]

theorem Clear.earlierOnWay (h : Clear s) (k : Nat) : earlierOnWay s k = false := by
  refine List.any_eq_false.mpr fun x hx => ?_
  have := h.held x hx
  unfold heldAct at this
  split <;> simp_all

/-- Changes of memory, of the full/empty and poison bits and of partitions hinder nothing. -/
theorem Clear.also {m : List Host.Cell} {e p : List Nat} {c : AMap Nat} {ps : AMap Partition} {d : Option Nat} (h : Clear s) :
    Clear { s with mem := m, empty := e, poison := p, cipher := c, parts := ps, scanDue := d } :=
  ⟨h.behind, h.moves, h.walks, h.held⟩

theorem Clear.modTile (h : Clear s) (k : Nat) {f : Tile → Tile} (hf : ∀ t, (f t).move = t.move) : Clear (modTile s k f) :=
  ⟨h.behind, forall_ins (fun t : Tile => t.move = none) ((hf _).trans (h.tile k)) h.moves, h.walks, h.held⟩

theorem Clear.modPort (h : Clear s) (k : Nat) {f : Port → Port} (hf : ∀ p, (f p).walks = p.walks) : Clear (modPort s k f) :=
  ⟨h.behind, h.moves, forall_ins (fun p : Port => p.walks = []) ((hf _).trans (h.port k)) h.walks, h.held⟩

theorem Clear.sched (h : Clear s) {x : Timed} (hx : heldAct x.act = false) : Clear (sched s x) :=
  ⟨h.behind, h.moves, h.walks, forall_enterTimed (fun y : Timed => heldAct y.act = false) hx h.held⟩

theorem Clear.unsched (h : Clear s) (f : Act → Bool) : Clear (unsched s f) := by
  rw [Machine.unsched, if_neg (by simp [h.anyMove])]
  exact ⟨h.behind, h.moves, h.walks, fun x hx => h.held x (List.mem_of_mem_filter hx)⟩

theorem Clear.foldl_fst {α β : Type} {l : List α} {f : State × β → α → State × β} {p : State × β} (h : Clear p.1)
    (hf : ∀ p a, Clear p.1 → Clear (f p a).1) : Clear (l.foldl f p).1 := by
  induction l generalizing p with
  | nil => exact h
  | cons a t ih => exact ih (hf p a h)

theorem Clear.setView (h : Clear s) (k view : Nat) : Clear (setView s k view) := by
  obtain ⟨m, c, e⟩ := setView_shape s k view
  exact e ▸ h.also

theorem Clear.answer (h : Clear s) (r : Req) (res : AccRes) : Clear (answer s r res) :=
  h.sched (by dsimp only; split <;> rfl)

theorem Clear.serveList (h : Clear s) (k : Nat) (l : List Req) : Clear (serveList s k l).1 := by
  induction l generalizing s with
  | nil => exact h
  | cons w t ih =>
    simp only [Machine.serveList]
    split
    · split
      · refine ih ((Clear.answer ?_ _ _).unsched _)
        split
        · exact (h.setView k w.view).also
        · exact h.setView k w.view
      · exact ih h
    · exact ih h

theorem Clear.setWaiters (h : Clear s) (k : Nat) (l : List Req) : Clear (setWaiters s k l) := by
  unfold Machine.setWaiters
  split
  · exact h.modTile _ fun _ => rfl
  · exact h.modPort _ fun _ => rfl

theorem Clear.writeWord (h : Clear s) (k : Nat) (v : Word) (full : Bool) : Clear (writeWord s k v full) := by
  have hp : Clear (putWord s k v full) := h.also
  unfold Machine.writeWord serve
  split
  · exact (hp.serveList k _).setWaiters k _
  · exact hp

theorem Clear.useLeaf (h : Clear s) (port : Nat) (l : Leaf) : Clear (useLeaf s port l) := by
  refine h.modPort port ?_
  exact fun _ => rfl

theorem Clear.cacheLeaf (h : Clear s) (port : Nat) (l : Leaf) : Clear (cacheLeaf s port l) := by
  refine h.modPort port ?_
  exact fun _ => rfl

theorem Clear.translate (h : Clear s) (port n o : Nat) (w f : Bool) : Clear (translate s port n o w f).1 := by
  unfold Machine.translate
  split
  · exact h.useLeaf port _
  · split
    · exact h
    · exact h.cacheLeaf port _

theorem Clear.countStub (h : Clear s) (tile b : Nat) : Clear (countStub s tile b) := by
  unfold Machine.countStub modBlock
  exact h.modTile tile fun _ => rfl

theorem Clear.countStubs (h : Clear s) (l : List (Nat × Nat)) : Clear (countStubs l s) := by
  unfold Machine.countStubs
  induction l generalizing s with
  | nil => exact h
  | cons x t ih => exact ih (h.countStub x.1 x.2)

theorem Clear.meetMove (h : Clear s) (l : List (Nat × Nat)) : Clear (meetMove s l) := by
  rwa [Machine.meetMove, if_neg (by simp [h.anyMove])]

theorem Clear.meetEarlier (h : Clear s) {met : Bool} (hm : met = false) : Clear (meetEarlier s met) := by
  rwa [Machine.meetEarlier, if_neg (by simp [hm])]

theorem Clear.portKey (h : Clear s) (n c o : Nat) (w f : Bool) : Clear (portKey s n c o w f).1 := by
  have ht := h.translate c n o w f
  unfold Machine.portKey
  split
  · rename_i e; rw [e] at ht; exact (ht.setView _ _).meetEarlier (h.earlierAtPort c _)
  · rename_i e; rw [e] at ht; exact ht
  · rename_i e; rw [e] at ht; exact ht

theorem Clear.spadKey (h : Clear s) (n : Nat) (p : Ptr) : Clear (spadKey s n p).1 := by
  unfold Machine.spadKey
  refine ((h.countStubs _).meetMove _).meetEarlier ?_
  split
  · simp [h.earlierOnWay]
  · rfl

theorem Clear.hwKey (h : Clear s) (n : Nat) (p : Ptr) (w f : Bool) : Clear (hwKey s n p w f).1 := by
  rw [hwKey_eq]
  split
  · exact h
  · split
    · exact h.spadKey n p
    · exact h.portKey n _ _ w f
    · exact h.portKey n _ _ w f
    · exact h
    · exact h

theorem Clear.hwStore (h : Clear s) (n : Nat) (p : Ptr) (v : Word) : Clear (hwStore s n p v) := by
  have hk := h.hwKey n p true false
  unfold Machine.hwStore
  split
  · rename_i e; rw [e] at hk; exact hk.writeWord _ v true
  · rename_i e; rw [e] at hk; exact hk

theorem Clear.hwLoad (h : Clear s) (n : Nat) (p : Ptr) : Clear (hwLoad s n p).1 := by
  have hk := h.hwKey n p false false
  unfold Machine.hwLoad
  split
  · rename_i e; rw [e] at hk; split <;> exact hk
  · rename_i e; rw [e] at hk; exact hk

end

/-! ### What an access of the hardware does not touch, and does not look at -/

theorem meetEarlier_parts (s : State) (met : Bool) : (meetEarlier s met).parts = s.parts := by unfold meetEarlier; split <;> rfl

theorem meetMove_parts (s : State) (l : List (Nat × Nat)) : (meetMove s l).parts = s.parts := by
  unfold meetMove
  split
  · split <;> rfl
  · rfl

theorem countStubs_parts (l : List (Nat × Nat)) (s : State) : (countStubs l s).parts = s.parts := by
  unfold countStubs
  refine foldl_keeps (·.parts) ?_ l s
  exact fun _ _ => rfl

theorem translate_parts (s : State) (port n o : Nat) (w f : Bool) : (translate s port n o w f).1.parts = s.parts := by
  unfold translate
  split
  · rfl
  · split <;> rfl

theorem portKey_parts (s : State) (n c o : Nat) (w f : Bool) : (portKey s n c o w f).1.parts = s.parts := by
  have ht := translate_parts s c n o w f
  unfold portKey
  split
  · rename_i e; rw [e] at ht; simpa [meetEarlier_parts] using ht
  · rename_i e; rw [e] at ht; exact ht
  · rename_i e; rw [e] at ht; exact ht

theorem spadKey_parts (s : State) (n : Nat) (p : Ptr) : (spadKey s n p).1.parts = s.parts := by
  unfold spadKey
  dsimp only
  rw [meetEarlier_parts, meetMove_parts, countStubs_parts]

theorem hwKey_parts (s : State) (n : Nat) (p : Ptr) (w f : Bool) : (hwKey s n p w f).1.parts = s.parts := by
  rw [hwKey_eq]
  split
  · rfl
  · split
    · exact spadKey_parts s n p
    · exact portKey_parts s n _ _ w f
    · exact portKey_parts s n _ _ w f
    · rfl
    · rfl

theorem hwLoad_parts (s : State) (n : Nat) (p : Ptr) : (hwLoad s n p).1.parts = s.parts := by
  have hk := hwKey_parts s n p false false
  unfold hwLoad
  split
  · rename_i e; rw [e] at hk; split <;> exact hk
  · rename_i e; rw [e] at hk; exact hk

end Sys2Proof.Machine

/-! ### An access of the hardware does not look at the act in hand -/

namespace Sys2Proof.Machine

section
variable (s : State) (a : Option Act)

theorem throughStubs_withAct (n k : Nat) (p : Ptr) : throughStubs { s with act := a } n k p = throughStubs s n k p := by
  induction k generalizing p with
  | zero => rfl
  | succ k ih => simp only [throughStubs, ih]; rfl

theorem stubEnd_withAct (n : Nat) (p : Ptr) : stubEnd { s with act := a } n p = stubEnd s n p := throughStubs_withAct s a n _ p

theorem setView_withAct (k view : Nat) : setView { s with act := a } k view = { setView s k view with act := a } := by
  unfold setView
  by_cases h : k < 2 ^ 40 ∨ lookD s.cipher (k / 64) 0 = view
  · simp only [if_pos h]
  · simp only [if_neg h]

theorem tableEntry_withAct (place addr : Nat) : tableEntry { s with act := a } place addr = tableEntry s place addr := by
  unfold tableEntry rawWord
  rw [setView_withAct]
  rfl

theorem walkFrom_withAct (port n o k lvl : Nat) (e : Word) :
    walkFrom { s with act := a } port n o k lvl e = walkFrom s port n o k lvl e := by
  induction k generalizing lvl e with
  | zero => unfold walkFrom; rfl
  | succ k ih => simp only [walkFrom, ih, tableEntry_withAct]; rfl

theorem walk_withAct (port n o : Nat) : walk { s with act := a } port n o = walk s port n o := by
  have hr : rootEntry { s with act := a } n o = rootEntry s n o := by
    simp only [rootEntry, tableEntry_withAct]; rfl
  rw [walk, hr, walkFrom_withAct, walk]

theorem translate_withAct (port n o : Nat) (w f : Bool) : translate { s with act := a } port n o w f =
    ({ (translate s port n o w f).1 with act := a }, (translate s port n o w f).2) := by
  have hc : cached { s with act := a } port n o = cached s port n o := rfl
  simp only [translate, hc, walk_withAct]
  split
  · rfl
  · split <;> rfl

theorem meetEarlier_withAct (met : Bool) : meetEarlier { s with act := a } met = { meetEarlier s met with act := a } := by
  unfold meetEarlier; split <;> rfl

theorem meetMove_withAct (l : List (Nat × Nat)) : meetMove { s with act := a } l = { meetMove s l with act := a } := by
  have hm : movedBy { s with act := a } = movedBy s := rfl
  have hany : anyMove { s with act := a } = anyMove s := rfl
  simp only [meetMove, hm, hany]
  split
  · split <;> rfl
  · rfl

theorem countStubs_withAct (l : List (Nat × Nat)) : countStubs l { s with act := a } = { countStubs l s with act := a } := by
  unfold countStubs
  induction l generalizing s with
  | nil => rfl
  | cons x t ih => exact ih (countStub s x.1 x.2)

theorem earlierOnWay_withAct (k : Nat) : earlierOnWay { s with act := a } k = earlierOnWay s k := by
  simp only [earlierOnWay, reqWord, stubEnd_withAct]
  rfl

theorem earlierAtPort_withAct (c k : Nat) : earlierAtPort { s with act := a } c k = earlierAtPort s c k := by
  have hp : portWord { s with act := a } = portWord s := by
    funext c n o
    simp only [portWord, walk_withAct]
    rfl
  simp only [earlierAtPort, hp]
  rfl

theorem portKey_withAct (n c o : Nat) (w f : Bool) : portKey { s with act := a } n c o w f =
    ({ (portKey s n c o w f).1 with act := a }, (portKey s n c o w f).2) := by
  simp only [portKey, translate_withAct, earlierAtPort_withAct]
  rcases translate s c n o w f with ⟨s1, x⟩
  cases x with
  | ok b =>
    have hv : viewOf { s1 with act := a } c n o = viewOf s1 c n o := rfl
    simp only [hv, setView_withAct, meetEarlier_withAct]
  | page l h => rfl
  | prot => rfl

theorem spadKey_withAct (n : Nat) (p : Ptr) : spadKey { s with act := a } n p =
    ({ (spadKey s n p).1 with act := a }, (spadKey s n p).2) := by
  simp only [spadKey, stubEnd_withAct, countStubs_withAct, meetMove_withAct, meetEarlier_withAct, earlierOnWay_withAct]
  rfl

theorem hwKey_withAct (n : Nat) (p : Ptr) (w f : Bool) : hwKey { s with act := a } n p w f =
    ({ (hwKey s n p w f).1 with act := a }, (hwKey s n p w f).2) := by
  have hl : limitsOf { s with act := a } n p = limitsOf s n p := rfl
  have hp : placeOf { s with act := a } n p = placeOf s n p := rfl
  rw [hwKey_eq, hwKey_eq, hl, hp]
  split
  · rfl
  · split
    · exact spadKey_withAct s a n p
    · exact portKey_withAct s a n _ _ w f
    · exact portKey_withAct s a n _ _ w f
    · rfl
    · rfl

theorem hwLoad_withAct (n : Nat) (p : Ptr) : hwLoad { s with act := a } n p =
    ({ (hwLoad s n p).1 with act := a }, (hwLoad s n p).2) := by
  simp only [hwLoad, hwKey_withAct]
  rcases hwKey s n p false false with ⟨s1, x⟩
  cases x with
  | ok k =>
    have hw : wordPois { s1 with act := a } (k / 8 * 8) = wordPois s1 (k / 8 * 8) := rfl
    simp only [hw]
    split <;> rfl
  | bad c i h => rfl

end

end Sys2Proof.Machine

/-! ## The launch unit: partitions and launch queues (R15, R371, R375-R377) -/

namespace Sys2Proof.Machine

open Sys2Proof.Claims

theorem Quiet.threads {s t : State} (h : Quiet s t) : t.threads = s.threads := by obtain ⟨ht, -⟩ := h; exact ht

theorem Quiet.cycle {s t : State} (h : Quiet s t) : t.cycle = s.cycle := by obtain ⟨-, -, -, hc, -⟩ := h; exact hc

/-! ### How an act ends -/

theorem quiet_postpone (s : State) (m : Nat) (a : Act) : Quiet s (postpone s m a) := by
  unfold postpone
  split
  · split
    · exact Quiet.refl s
    · exact quiet_schedAt s _ a
  · split
    · exact quiet_modTile s m _
    · split
      · exact quiet_schedAt s _ a
      · exact quiet_modTile s m _

theorem postpone_parts (s : State) (m : Nat) (a : Act) : (postpone s m a).parts = s.parts := by
  unfold postpone
  split
  · split <;> rfl
  · split
    · rfl
    · split <;> rfl

/-- The state in which the meaning of an act in hand begins. -/
abbrev begun (s : State) : State := { s with act := none }

/-- The outcome of an act in hand whose effect is `u`: the effect, unless it met a moving block or an earlier access, and then
the act is put off. -/
def ActEnds (s : State) (a : Act) (u : State) (o : Host.Outcome State Fault Refusal) : Prop :=
  ∃ t, o = .next t ∧ (u.behind = none → t = u) ∧ (t = u ∨ ∃ m, t = postpone (begun s) m a)

theorem actEnds_actRow {s u : State} {k : Act → State → Option State} {a : Act} (h : s.act = some a)
    (hk : k a (begun s) = some u) : ActEnds s a u (actRow s k) := by
  unfold ActEnds
  rw [actRow_some s k a h, hk]
  dsimp only
  split
  · rename_i m hm
    exact ⟨_, rfl, fun hn => absurd (hm.symm.trans hn) (by simp), .inr ⟨m, rfl⟩⟩
  · exact ⟨_, rfl, fun _ => rfl, .inl rfl⟩

theorem threads_of_actEnds {s t u : State} {a : Act} (hq : Quiet (begun s) u)
    (h : t = u ∨ ∃ m, t = postpone (begun s) m a) : t.threads = s.threads := by
  rcases h with rfl | ⟨m, rfl⟩
  · exact hq.threads
  · exact (quiet_postpone _ m a).threads

/-! ### Launch queues -/

theorem queueAt_modQueue_self (s : State) (n q : Nat) (f : Queue → Queue) :
    queueAt (modQueue s n q f) n q = f (queueAt s n q) := by simp [queueAt, modQueue, queueOf]

theorem queueAt_modQueue_of_ne (s : State) (n q j : Nat) (f : Queue → Queue) (h : j ≠ q) :
    queueAt (modQueue s n q f) n j = queueAt s n j := by simp [queueAt, modQueue, queueOf, lookD_ins_of_ne _ _ _ _ _ h]

theorem queueAt_congr {s t : State} (h : t.parts = s.parts) (n q : Nat) : queueAt t n q = queueAt s n q := by
  simp only [queueAt, partOf, h]

theorem quiet_modQueue (s : State) (n q : Nat) (f : Queue → Queue) : Quiet s (modQueue s n q f) := quiet_modPart s n _

/-- A kick starts the read of a queue's head, or does nothing. -/
theorem queueKick_cases (s : State) (n q : Nat) : queueKick s n q = s ∨
    ∃ c a, queueKick s n q = schedAt (modQueue s n q fun x => { x with reading := true }) c a := by
  unfold queueKick
  dsimp only
  split
  · exact .inr ⟨_, _, rfl⟩
  · exact .inl rfl

theorem queueAt_queueKick_self (s : State) (n q : Nat) :
    ∃ b, queueAt (queueKick s n q) n q = { queueAt s n q with reading := b } := by
  rcases queueKick_cases s n q with h | ⟨c, a, h⟩
  · exact ⟨(queueAt s n q).reading, by rw [h]⟩
  · exact ⟨true, by rw [h, queueAt_congr (schedAt_parts _ c a), queueAt_modQueue_self]⟩

theorem queueAt_queueKick_of_ne (s : State) (n q j : Nat) (hj : j ≠ q) : queueAt (queueKick s n q) n j = queueAt s n j := by
  rcases queueKick_cases s n q with h | ⟨c, a, h⟩
  · rw [h]
  · rw [h, queueAt_congr (schedAt_parts _ c a), queueAt_modQueue_of_ne s n q j _ hj]

theorem quiet_queueKick (s : State) (n q : Nat) : Quiet s (queueKick s n q) := by
  rcases queueKick_cases s n q with h | ⟨c, a, h⟩
  · rw [h]; exact Quiet.refl s
  · rw [h]; exact (quiet_modQueue s n q _).trans (quiet_schedAt _ c a)

theorem queueKick_mem (s : State) (n q : Nat) : (queueKick s n q).mem = s.mem := by
  rcases queueKick_cases s n q with h | ⟨c, a, h⟩
  · rw [h]
  · rw [h]; rfl

theorem queueKick_behind (s : State) (n q : Nat) : (queueKick s n q).behind = s.behind :=
  congrArg (fun x => x.2.2) (announced_queueKick s n q)

theorem quiet_scanNext (s : State) : Quiet s (scanNext s) := ⟨rfl, id, rfl, rfl, rfl, rfl, rfl⟩

theorem queueAt_scanNext (s : State) (n q : Nat) : queueAt (scanNext s) n q = queueAt s n q := rfl

theorem Clear.scanNext {s : State} (h : Clear s) : Clear (scanNext s) := h.also

theorem Clear.modQueue {s : State} (h : Clear s) (n q : Nat) (f : Queue → Queue) : Clear (modQueue s n q f) := h.also

theorem scanSoon_scanNext {s t : State} (h : t.cycle = s.cycle) : ScanSoon s (scanNext t) := by
  unfold ScanSoon scanNext scanAt
  cases t.scanDue with
  | none => exact ⟨_, rfl, by omega⟩
  | some c => exact ⟨_, rfl, by omega⟩

/-! ### Words that the launch unit reads one after another

Where a function of the model is compared with `readWords`, a variable is put in the place of `hwLoad`, so that no load is
evaluated in the comparison. -/

/-- One word read: it is appended, or the whole read has failed. -/
def readStep (n : Nat) (p : Ptr) (a : State × List Word × Bool) (i : Nat) : State × List Word × Bool :=
  match hwLoad a.1 n (offBy p (8 * i)) with
  | (s1, .ok _, w) => (s1, a.2.1 ++ [w], a.2.2)
  | (s1, _, _) => (s1, a.2.1, false)

/-- The first words from a pointer on, and whether all of them could be read. -/
def readWords (s : State) (n : Nat) (p : Ptr) (len : Nat) : State × List Word × Bool :=
  (List.range len).foldl (readStep n p) (s, [], true)

section
variable (n : Nat) (p : Ptr)

theorem readStep_fst (a : State × List Word × Bool) (i : Nat) :
    (readStep n p a i).1 = (hwLoad a.1 n (offBy p (8 * i))).1 := by
  unfold readStep; split <;> simp_all

/-- Words read stay, and a failure stays a failure. -/
theorem prefix_of_readStep {a : State × List Word × Bool} {i : Nat} (h : (readStep n p a i).2.2 = true) :
    a.2.1 <+: (readStep n p a i).2.1 ∧ a.2.2 = true := by
  unfold readStep at h ⊢
  split
  · simp_all
  · simp_all

theorem prefix_of_readAll (l : List Nat) {a : State × List Word × Bool} (h : (l.foldl (readStep n p) a).2.2 = true) :
    a.2.1 <+: (l.foldl (readStep n p) a).2.1 ∧ a.2.2 = true := by
  induction l generalizing a with
  | nil => exact ⟨List.prefix_rfl, h⟩
  | cons i t ih =>
    obtain ⟨hp, hf⟩ := ih h
    obtain ⟨hp', hf'⟩ := prefix_of_readStep n p hf
    exact ⟨hp'.trans hp, hf'⟩

variable (s : State) (len : Nat)

theorem quiet_readWords : Quiet s (readWords s n p len).1 :=
  quiet_foldl_fst _ _ (fun a i => readStep_fst n p a i ▸ quiet_hwLoad a.1 n _) (s, [], true)

theorem readWords_parts : (readWords s n p len).1.parts = s.parts := by
  unfold readWords
  generalize ([], true) = x
  induction List.range len generalizing s x with
  | nil => rfl
  | cons i t ih => exact (ih _ _).trans ((congrArg (·.parts) (readStep_fst n p (s, x) i)).trans (hwLoad_parts s n _))

theorem clear_readWords (h : Clear s) : Clear (readWords s n p len).1 :=
  Clear.foldl_fst (p := (s, [], true)) h fun a i ha => readStep_fst n p a i ▸ ha.hwLoad n _

end

theorem offBy_zero (p : Ptr) : offBy p 0 = p := by
  apply BitVec.eq_of_toNat_eq
  have := p.isLt
  simp only [offBy, withOff, pOff, BitVec.toNat_ofNat]
  omega

/-- The first word of a read that succeeds. -/
theorem readWords_head (s : State) (n : Nat) (p : Ptr) (len : Nat) (h : (readWords s n p (len + 1)).2.2 = true) :
    (readWords s n p (len + 1)).2.1.getD 0 0 = (hwLoad s n p).2.2 := by
  have hz : offBy p (8 * 0) = p := offBy_zero p
  unfold readWords at h ⊢
  rw [List.range_succ_eq_map, List.foldl_cons] at h ⊢
  obtain ⟨⟨rest, hrest⟩, hok⟩ := prefix_of_readAll n p _ h
  rw [← hrest]
  unfold readStep at hok ⊢
  split at hok
  · rename_i s1 k w e
    rw [hz] at e
    simp [e]
  · simp at hok

end Sys2Proof.Machine

/-! ### What the acts on launch queues do -/

namespace Sys2Proof.Machine

open Sys2Proof.Claims

theorem quiet_recordWord (s : State) (n : Nat) (k : Queue) (i : Nat) (f : Word → Word) : Quiet s (recordWord s n k i f) := by
  unfold recordWord
  split
  · exact Quiet.refl s
  · exact (quiet_hwLoad s n _).trans (quiet_hwStore _ n _ _)

section
variable (s : State) (n q : Nat)

/-! A tail write (R375). -/

theorem tailWritten_of_resident (v : Word) (h : (queueAt s n q).resident = true) :
    tailWritten s n q v = queueKick (modQueue s n q fun x => { x with lqt := bits v 0 32 }) n q := if_pos h

theorem quiet_tailWritten (v : Word) : Quiet s (tailWritten s n q v) := by
  unfold tailWritten
  dsimp only
  split
  · exact (quiet_modQueue s n q _).trans (quiet_queueKick _ n q)
  · exact quiet_recordWord s n _ 2 _

theorem actEnds_tailWrite {v : Word} (h : s.act = some (.tailWrite n q v)) :
    ActEnds s (.tailWrite n q v) (tailWritten (begun s) n q v) (exec .tailWrite s) := by
  change ActEnds s _ _ (execTailWrite s)
  unfold execTailWrite
  exact actEnds_actRow h rfl

/-! A queue is switched out (R376). -/

/-- The words of a queue's record, in the order in which R376 names them. -/
def queueRecord (k : Queue) : List Word :=
  [k.lqb, BitVec.ofNat 64 k.lqn, BitVec.ofNat 64 k.lqt, BitVec.ofNat 64 k.lqp, lqrWord k, lqcWord k]

/-- The record written to the saved-queue area. -/
def recordSaved (k : Queue) : State :=
  ((queueRecord k).foldl (fun (a : State × Nat) w => (hwStore a.1 n (offBy k.lqsv (8 * a.2)) w, a.2 + 1)) (s, 0)).1

theorem switchOutQueue_of_not (h : (queueAt s n q).resident = false ∨ (queueAt s n q).lqsv = 0) :
    switchOutQueue s n q = s := if_pos h

theorem switchOutQueue_of_resident (h : (queueAt s n q).resident = true) (hv : (queueAt s n q).lqsv ≠ 0) :
    switchOutQueue s n q =
      modQueue (recordSaved s n (queueAt s n q)) n q fun x => { x with resident := false, reading := false, head := none } := by
  have hn : ¬ ((queueOf (partOf s n) q).resident = false ∨ (queueOf (partOf s n) q).lqsv = 0) :=
    not_or.mpr ⟨ne_of_eq_of_ne h (by simp), hv⟩
  unfold switchOutQueue
  exact if_neg hn

theorem quiet_recordSaved (k : Queue) : Quiet s (recordSaved s n k) :=
  quiet_foldl_fst _ _ (fun a _ => quiet_hwStore a.1 n _ _) (s, 0)

theorem clear_recordSaved (k : Queue) (h : Clear s) : Clear (recordSaved s n k) :=
  Clear.foldl_fst (p := (s, 0)) h fun _ _ ha => ha.hwStore n _ _

theorem quiet_switchOutQueue : Quiet s (switchOutQueue s n q) := by
  by_cases h : (queueAt s n q).resident = false ∨ (queueAt s n q).lqsv = 0
  · rw [switchOutQueue_of_not s n q h]
    exact Quiet.refl s
  · rw [not_or, Bool.not_eq_false] at h
    rw [switchOutQueue_of_resident s n q h.1 h.2]
    exact (quiet_recordSaved s n _).trans (quiet_modQueue _ n q _)

theorem actEnds_switchOut (h : s.act = some (.switchOut n q)) :
    ActEnds s (.switchOut n q) (switchOutQueue (begun s) n q) (exec .switchOut s) := by
  change ActEnds s _ _ (execSwitchOut s)
  unfold execSwitchOut
  exact actEnds_actRow h rfl

/-! A queue is switched in (R376). -/

/-- The registers that a queue takes from the words of its record. -/
def Queue.ofRecord (w : Nat → Word) (k : Queue) : Queue :=
  { k with lqb := w 0, lqn := bits (w 1) 0 13, lqt := bits (w 2) 0 32, lqp := bits (w 3) 0 32, retired := bits (w 4) 0 32,
           rejected := bits (w 4) 32 16, reason := bits (w 4) 48 9, prio := bits (w 5) 0 2, en := bit (w 5) 2,
           resident := true, reading := false, head := none }

theorem switchInQueue_of_not
    (h : (queueAt s n q).resident = true ∨ 64 ≤ residentCount s ∨ (queueAt s n q).lqsv = 0) :
    switchInQueue s n q = s := if_pos h

theorem switchInQueue_of_room
    (h : ¬ ((queueAt s n q).resident = true ∨ 64 ≤ residentCount s ∨ (queueAt s n q).lqsv = 0)) :
    let r := readWords s n (queueAt s n q).lqsv 6
    switchInQueue s n q = if r.2.2 = false then r.1
      else scanNext (queueKick (modQueue r.1 n q (Queue.ofRecord fun i => r.2.1.getD i 0)) n q) := by
  unfold queueAt at h
  unfold switchInQueue readWords readStep queueAt
  dsimp only
  refine (if_neg h).trans ?_
  generalize hwLoad = load
  rfl

theorem quiet_switchInQueue : Quiet s (switchInQueue s n q) := by
  by_cases h : (queueAt s n q).resident = true ∨ 64 ≤ residentCount s ∨ (queueAt s n q).lqsv = 0
  · rw [switchInQueue_of_not s n q h]
    exact Quiet.refl s
  · rw [switchInQueue_of_room s n q h]
    have hr := quiet_readWords n (queueAt s n q).lqsv s 6
    split
    · exact hr
    · exact ((hr.trans (quiet_modQueue _ n q _)).trans (quiet_queueKick _ n q)).trans (quiet_scanNext _)

/-- A queue that has become resident was read from its record, with room for it, and is tried in the next scan. -/
theorem switchInQueue_resident (h0 : (queueAt s n q).resident = false)
    (h1 : (queueAt (switchInQueue s n q) n q).resident = true) :
    residentCount s < 64 ∧ ScanSoon s (switchInQueue s n q)
      ∧ (queueAt (switchInQueue s n q) n q).lqb = (hwLoad s n (queueAt s n q).lqsv).2.2 := by
  by_cases h : (queueAt s n q).resident = true ∨ 64 ≤ residentCount s ∨ (queueAt s n q).lqsv = 0
  · rw [switchInQueue_of_not s n q h, h0] at h1
    exact absurd h1 (by simp)
  · rw [switchInQueue_of_room s n q h] at h1 ⊢
    split at h1
    · rw [queueAt_congr (readWords_parts n _ s 6), h0] at h1
      exact absurd h1 (by simp)
    · rename_i hok
      have hw := readWords_head s n (queueAt s n q).lqsv 5 (by simpa using hok)
      have hr := quiet_readWords n (queueAt s n q).lqsv s 6
      rw [if_neg hok, queueAt_scanNext]
      generalize readWords s n (queueAt s n q).lqsv 6 = r at hw hr ⊢
      obtain ⟨b, hb⟩ := queueAt_queueKick_self (modQueue r.1 n q (Queue.ofRecord fun i => r.2.1.getD i 0)) n q
      refine ⟨by omega, scanSoon_scanNext ((hr.trans (quiet_modQueue _ n q _)).trans (quiet_queueKick _ n q)).cycle, ?_⟩
      rw [hb, queueAt_modQueue_self]
      exact hw

theorem actEnds_switchIn (h : s.act = some (.switchIn n q)) :
    ActEnds s (.switchIn n q) (switchInQueue (begun s) n q) (exec .switchIn s) := by
  change ActEnds s _ _ (execSwitchIn s)
  unfold execSwitchIn
  exact actEnds_actRow h rfl

/-! A head comes back (R375). -/

/-- A queue whose head was read: it is known where all its words could be read. -/
def Queue.withHead (r : State × List Word × Bool) (k : Queue) : Queue :=
  { k with reading := false, tried := false, head := if r.2.2 then some r.2.1 else none }

theorem headReturns_of_not (i : Nat)
    (h : (queueAt s n q).reading = false ∨ (queueAt s n q).lqp ≠ i ∨ (queueAt s n q).resident = false) :
    headReturns s n q i = s := if_pos h

theorem headReturns_of_reading (i : Nat)
    (h : ¬ ((queueAt s n q).reading = false ∨ (queueAt s n q).lqp ≠ i ∨ (queueAt s n q).resident = false)) :
    let r := readWords s n (headPtr (queueAt s n q)) 4
    headReturns s n q i =
      if r.2.2 then scanNext (modQueue r.1 n q (Queue.withHead r)) else modQueue r.1 n q (Queue.withHead r) := by
  unfold queueAt at h
  unfold headReturns readWords readStep queueAt
  dsimp only
  refine (if_neg h).trans ?_
  generalize hwLoad = load
  rfl

theorem quiet_headReturns (i : Nat) : Quiet s (headReturns s n q i) := by
  by_cases h : (queueAt s n q).reading = false ∨ (queueAt s n q).lqp ≠ i ∨ (queueAt s n q).resident = false
  · rw [headReturns_of_not s n q i h]
    exact Quiet.refl s
  · rw [headReturns_of_reading s n q i h]
    have hr := quiet_readWords n (headPtr (queueAt s n q)) s 4
    split
    · exact (hr.trans (quiet_modQueue _ n q _)).trans (quiet_scanNext _)
    · exact hr.trans (quiet_modQueue _ n q _)

theorem clear_headReturns (i : Nat) (hc : Clear s) : Clear (headReturns s n q i) := by
  by_cases h : (queueAt s n q).reading = false ∨ (queueAt s n q).lqp ≠ i ∨ (queueAt s n q).resident = false
  · rwa [headReturns_of_not s n q i h]
  · rw [headReturns_of_reading s n q i h]
    have hr := clear_readWords n (headPtr (queueAt s n q)) s 4 hc
    split
    · exact (hr.modQueue n q _).scanNext
    · exact hr.modQueue n q _

/-- The read of a head is over, and a head that is known is tried in the next scan. -/
theorem headReturns_known (i : Nat)
    (h : ¬ ((queueAt s n q).reading = false ∨ (queueAt s n q).lqp ≠ i ∨ (queueAt s n q).resident = false)) :
    (queueAt (headReturns s n q i) n q).reading = false
      ∧ ((queueAt (headReturns s n q i) n q).head.isSome = true → ScanSoon s (headReturns s n q i)) := by
  rw [headReturns_of_reading s n q i h]
  have hr := quiet_readWords n (headPtr (queueAt s n q)) s 4
  generalize readWords s n (headPtr (queueAt s n q)) 4 = r at hr ⊢
  split
  · rw [queueAt_scanNext, queueAt_modQueue_self]
    exact ⟨rfl, fun _ => scanSoon_scanNext (hr.trans (quiet_modQueue _ n q _)).cycle⟩
  · rename_i hbad
    rw [queueAt_modQueue_self]
    exact ⟨rfl, fun hs => by simp [Queue.withHead, hbad] at hs⟩

theorem actEnds_headRead {i : Nat} (h : s.act = some (.headRead n q i)) :
    ActEnds s (.headRead n q i) (headReturns (begun s) n q i) (exec .headRead s) := by
  change ActEnds s _ _ (execHeadRead s)
  unfold execHeadRead
  exact actEnds_actRow h rfl

end

/-! A pushed launch comes to the head of its device queue (R377). -/

theorem exec_launch {s : State} {j : Job} {l : List Job} (h : Acting s (.launch j)) (hd : (partOf s j.partn).devq = j :: l) :
    exec .launch s = .next (scanNext (modPart (begun s) j.partn fun p => { p with devHead := some j.jid, devTried := false })) := by
  have hd0 : (partOf (begun s) j.partn).devq = j :: l := hd
  change execLaunch s = _
  unfold execLaunch
  refine actRow_done h.1 ?_ h.2
  simp only [hd0, if_true]

/-! ### Partitions are created and deleted (R371) -/

/-- The outcome of an action on PCTL. -/
def pctlOutcome (s : State) (n out : Nat) : State := modPart s n fun p => { p with pout := out }

/-- What creating a partition does. -/
def createAction (s : State) (n : Nat) : State :=
  if (partOf s n).pstate ≠ 0 then pctlOutcome s n 3
  else if blockBroken s n then pctlOutcome s n 1
  else if blockOverlaps s n then pctlOutcome s n 2
  else if (partOf s n).pconf && !(partOf s n).pkey then pctlOutcome s n 4
  else modPart (submit s srcFirmware (.create n)).1 n fun p => { p with pout := 0, pstate := 1 }

/-- A deletion has to wait: the partition holds a team, or is absent or being deleted (log 82). -/
def deleteBusy (p : Partition) : Bool := !p.teams.isEmpty || !p.saved.isEmpty || decide (p.pstate = 0 ∨ p.pstate = 3)

/-- A partition that is being deleted, its queues reset. -/
def Partition.leaving (p : Partition) : Partition :=
  { p with pout := 0, pstate := 3, devq := [], devHead := none, supDue := false,
           queues := p.queues.map fun e => (e.1, Queue.reset) }

/-- What deleting a partition does. -/
def deleteAction (s : State) (n : Nat) : State :=
  if deleteBusy (partOf s n) then pctlOutcome s n 3
  else modPart (submit s srcFirmware (.delete n)).1 n Partition.leaving

theorem createAction_behind (s : State) (n : Nat) : (createAction s n).behind = s.behind := by
  unfold createAction pctlOutcome
  split_ifs <;> rfl

theorem deleteAction_behind (s : State) (n : Nat) : (deleteAction s n).behind = s.behind := by
  unfold deleteAction pctlOutcome
  split_ifs <;> rfl

theorem exec_create {s : State} {n : Nat} (h : Acting s (.create n)) :
    exec .create s = .next (createAction (begun s) n) := by
  change execCreate s = _
  unfold execCreate
  refine actRow_done h.1 ?_ ((createAction_behind _ n).trans h.2)
  unfold createAction pctlOutcome
  dsimp only
  split_ifs <;> rfl

theorem exec_delete {s : State} {n : Nat} (h : Acting s (.delete n)) :
    exec .delete s = .next (deleteAction (begun s) n) := by
  change execDelete s = _
  unfold execDelete
  refine actRow_done h.1 ?_ ((deleteAction_behind _ n).trans h.2)
  unfold deleteAction deleteBusy pctlOutcome
  dsimp only
  split_ifs <;> rfl

/-- An action on PCTL that has an outcome and no other effect. -/
theorem pctlOnly_pctlOutcome (s : State) (n out : Nat) : PctlOnly s (pctlOutcome (begun s) n out) n out :=
  ⟨rfl, partOf_modPart_self _ n _, fun k hk => partOf_modPart_of_ne _ n k _ hk⟩

theorem queueAt_of_leaving {s : State} {n : Nat} {p : Partition} (h : partOf s n = p.leaving) (q : Nat) :
    queueAt s n q = Queue.reset := by
  unfold queueAt queueOf
  rw [h]
  refine lookD_of_forall (fun k : Queue => k = Queue.reset) rfl ?_ q
  rintro e he
  obtain ⟨x, -, rfl⟩ := List.mem_map.mp he
  rfl

section
variable {s : State} {n : Nat}

theorem createAction_busy (hp : (partOf s n).pstate ≠ 0) : createAction s n = pctlOutcome s n 3 := if_pos hp

theorem createAction_broken (hp : (partOf s n).pstate = 0) (hb : blockBroken s n = true) :
    createAction s n = pctlOutcome s n 1 := by simp [createAction, hp, hb]

theorem createAction_overlaps (hp : (partOf s n).pstate = 0) (hb : blockBroken s n = false) (ho : blockOverlaps s n = true) :
    createAction s n = pctlOutcome s n 2 := by simp [createAction, hp, hb, ho]

theorem createAction_keyless (hp : (partOf s n).pstate = 0) (hb : blockBroken s n = false) (ho : blockOverlaps s n = false)
    (hc : (partOf s n).pconf = true) (hk : (partOf s n).pkey = false) : createAction s n = pctlOutcome s n 4 := by
  simp [createAction, hp, hb, ho, hc, hk]

theorem createAction_begins (hp : (partOf s n).pstate = 0) (hb : blockBroken s n = false) (ho : blockOverlaps s n = false)
    (hk : (partOf s n).pconf = false ∨ (partOf s n).pkey = true) :
    createAction s n = modPart (submit s srcFirmware (.create n)).1 n fun p => { p with pout := 0, pstate := 1 } := by
  have hkey : ((partOf s n).pconf && !(partOf s n).pkey) = false := by rcases hk with hk | hk <;> simp [hk]
  simp [createAction, hp, hb, ho, hkey]

theorem deleteBusy_iff (p : Partition) :
    deleteBusy p = true ↔ p.teams ≠ [] ∨ p.saved ≠ [] ∨ p.pstate = 0 ∨ p.pstate = 3 := by
  simp [deleteBusy, or_assoc]

theorem deleteAction_busy (h : deleteBusy (partOf s n) = true) : deleteAction s n = pctlOutcome s n 3 := if_pos h

theorem deleteAction_begins (h : ¬ deleteBusy (partOf s n) = true) :
    deleteAction s n = modPart (submit s srcFirmware (.delete n)).1 n Partition.leaving := if_neg h

/-- A broadcast that an action on PCTL submits is in effect two calends later at the earliest (R15). -/
theorem cast_of_submit (s : State) (n : Nat) (k : BcKind) (f : Partition → Partition) :
    ∃ b ∈ (modPart (submit s srcFirmware k).1 n f).casts, b.kind = k ∧ s.tsc / 64 + 2 ≤ b.calend :=
  ⟨_, mem_casts_submit s srcFirmware k, rfl, le_calend_of_submit s srcFirmware k⟩

end

end Sys2Proof.Machine

namespace Sys2Proof.Machine

open Sys2Proof.Claims

/-- R371: the outcomes of a creation in their order, and the partition that is being created. -/
theorem partitionsMade : Claims.PartitionsMade := by
  unfold Claims.PartitionsMade
  refine fun s n => ⟨fun h => ?_, fun h => ?_⟩
  · rw [exec_create h]
    refine ⟨fun hp => ⟨_, rfl, ?_⟩, fun hp hb => ⟨_, rfl, ?_⟩, fun hp hb ho => ⟨_, rfl, ?_⟩,
      fun hp hb ho hc hk => ⟨_, rfl, ?_⟩, fun hp hb ho hk => ⟨_, rfl, ?_⟩⟩
    · rw [createAction_busy (s := begun s) hp]
      exact pctlOnly_pctlOutcome s n 3
    · rw [createAction_broken (s := begun s) hp hb]
      exact pctlOnly_pctlOutcome s n 1
    · rw [createAction_overlaps (s := begun s) hp hb ho]
      exact pctlOnly_pctlOutcome s n 2
    · rw [createAction_keyless (s := begun s) hp hb ho hc hk]
      exact pctlOnly_pctlOutcome s n 4
    · rw [createAction_begins (s := begun s) hp hb ho hk, partOf_modPart_self]
      exact ⟨rfl, rfl, cast_of_submit (begun s) n (.create n) _⟩
  · rw [exec_delete h]
    refine ⟨fun hb => ⟨_, rfl, ?_⟩, fun ht hs h0 h3 => ⟨_, rfl, ?_⟩⟩
    · rw [deleteAction_busy (s := begun s) ((deleteBusy_iff _).mpr hb)]
      exact pctlOnly_pctlOutcome s n 3
    · rw [deleteAction_begins (s := begun s) (fun hb => ?_), partOf_modPart_self]
      · exact ⟨rfl, rfl, rfl, queueAt_of_leaving (partOf_modPart_self _ n _), cast_of_submit (begun s) n (.delete n) _⟩
      · rcases (deleteBusy_iff _).mp hb with hb | hb | hb | hb
        · exact hb ht
        · exact hb hs
        · exact h0 hb
        · exact h3 hb

section
variable {s : State} {n q : Nat}

/-- R375: a tail write of a resident queue sets its tail, and neither memory nor another queue changes. -/
theorem tailWrite_sets {v : Word} (h : Acting s (.tailWrite n q v)) :
    ∃ t, exec .tailWrite s = .next t ∧ t.threads = s.threads
      ∧ ((queueAt s n q).resident = true → (queueAt t n q).lqt = bits v 0 32 ∧ t.mem = s.mem
          ∧ ∀ j, j ≠ q → queueAt t n j = queueAt s n j) := by
  obtain ⟨t, ht, hdone, hor⟩ := actEnds_tailWrite s n q h.1
  refine ⟨t, ht, threads_of_actEnds (quiet_tailWritten _ n q v) hor, fun hk => ?_⟩
  rw [tailWritten_of_resident (begun s) n q v hk] at hdone
  obtain ⟨b, hb⟩ := queueAt_queueKick_self (modQueue (begun s) n q fun x => { x with lqt := bits v 0 32 }) n q
  rw [hdone ((queueKick_behind _ n q).trans h.2), hb, queueAt_modQueue_self]
  refine ⟨rfl, queueKick_mem _ n q, fun j hj => ?_⟩
  rw [queueAt_queueKick_of_ne _ n q j hj, queueAt_modQueue_of_ne _ n q j _ hj]
  rfl

/-- R376: a queue that is switched out is no longer resident. -/
theorem switchOut_leaves (h : Acting s (.switchOut n q)) :
    ∃ t, exec .switchOut s = .next t ∧ t.threads = s.threads
      ∧ ((queueAt s n q).resident = false ∨ (queueAt s n q).lqsv = 0 → t = { s with act := none })
      ∧ ((queueAt s n q).resident = true → (queueAt s n q).lqsv ≠ 0 → Unhindered s →
          (queueAt t n q).resident = false ∧ (queueAt t n q).head = none) := by
  obtain ⟨t, ht, hdone, hor⟩ := actEnds_switchOut s n q h.1
  refine ⟨t, ht, threads_of_actEnds (quiet_switchOutQueue _ n q) hor, fun hk => ?_, fun hk hv hu => ?_⟩
  · rw [switchOutQueue_of_not (begun s) n q hk] at hdone
    exact hdone h.2
  · have hc : Clear (begun s) := clear_of_unhindered h.2 hu
    rw [switchOutQueue_of_resident (begun s) n q hk hv] at hdone
    rw [hdone ((clear_recordSaved (begun s) n _ hc).modQueue n q _).behind, queueAt_modQueue_self]
    exact ⟨rfl, rfl⟩

/-- R376: a queue becomes resident only where it was not and there is room for it, and then it stands in the next scan. -/
theorem switchIn_enters (h : Acting s (.switchIn n q)) :
    ∃ t, exec .switchIn s = .next t ∧ t.threads = s.threads
      ∧ ((queueAt s n q).resident = true ∨ 64 ≤ residentCount s ∨ (queueAt s n q).lqsv = 0 → t = { s with act := none })
      ∧ ((queueAt s n q).resident = false → (queueAt t n q).resident = true → residentCount s < 64 ∧ ScanSoon s t
          ∧ (queueAt t n q).lqb = (hwLoad s n (queueAt s n q).lqsv).2.2) := by
  obtain ⟨t, ht, hdone, hor⟩ := actEnds_switchIn s n q h.1
  refine ⟨t, ht, threads_of_actEnds (quiet_switchInQueue _ n q) hor, fun hk => ?_, fun hk hr => ?_⟩
  · rw [switchInQueue_of_not (begun s) n q hk] at hdone
    exact hdone h.2
  · rcases hor with rfl | ⟨m, rfl⟩
    · obtain ⟨hroom, hscan, hlqb⟩ := switchInQueue_resident (begun s) n q hk hr
      have hq : queueAt (begun s) n q = queueAt s n q := rfl
      rw [hq, hwLoad_withAct] at hlqb
      exact ⟨hroom, hscan, hlqb⟩
    · rw [queueAt_congr (postpone_parts _ m _)] at hr
      exact absurd (hk.symm.trans hr) (by simp)

/-- R375: a head that comes back for a queue that still waits for it is known where it could be read. -/
theorem headRead_returns {i : Nat} (h : Acting s (.headRead n q i)) :
    ∃ t, exec .headRead s = .next t ∧ t.threads = s.threads
      ∧ ((queueAt s n q).reading = false ∨ (queueAt s n q).lqp ≠ i ∨ (queueAt s n q).resident = false →
          t = { s with act := none })
      ∧ ((queueAt s n q).reading = true → (queueAt s n q).lqp = i → (queueAt s n q).resident = true → Unhindered s →
          (queueAt t n q).reading = false ∧ ((queueAt t n q).head.isSome = true → ScanSoon s t)) := by
  obtain ⟨t, ht, hdone, hor⟩ := actEnds_headRead s n q h.1
  refine ⟨t, ht, threads_of_actEnds (quiet_headReturns _ n q i) hor, fun hk => ?_, fun hr hl hk hu => ?_⟩
  · rw [headReturns_of_not (begun s) n q i hk] at hdone
    exact hdone h.2
  · have hc : Clear (begun s) := clear_of_unhindered h.2 hu
    rw [hdone (clear_headReturns (begun s) n q i hc).behind]
    refine headReturns_known (begun s) n q i ?_
    rintro (hn | hn | hn)
    · exact absurd (hr.symm.trans hn) (by simp)
    · exact hn hl
    · exact absurd (hk.symm.trans hn) (by simp)

/-- R377: a pushed launch at the head of its device queue is tried in the next scan. -/
theorem launch_heads {j : Job} {l : List Job} (h : Acting s (.launch j)) (hd : (partOf s j.partn).devq = j :: l) :
    ∃ t, exec .launch s = .next t ∧ (partOf t j.partn).devHead = some j.jid ∧ (partOf t j.partn).devq = j :: l
      ∧ ScanSoon s t := by
  have hp := partOf_modPart_self (begun s) j.partn fun p => { p with devHead := some j.jid, devTried := false }
  refine ⟨_, exec_launch h hd, ?_, ?_, scanSoon_scanNext rfl⟩
  · exact congrArg (·.devHead) hp
  · exact (congrArg (·.devq) hp).trans hd

end

theorem launchQueues : Claims.LaunchQueues := fun _ _ _ =>
  ⟨fun _ => tailWrite_sets, switchOut_leaves, switchIn_enters, fun _ => headRead_returns, fun _ _ => launch_heads⟩

/-- Settles O41: `partitionsMade` goes through the outcomes of PCTL, and `launchQueues` takes the acts on queues one by one. That a
store or load of the launch unit does not have to wait, where nothing hinders it, is `Clear.hwStore` and `Clear.hwLoad`. -/
theorem launchUnit : Obligations.LaunchUnit := by
  unfold Obligations.LaunchUnit
  exact ⟨partitionsMade, launchQueues⟩

end Sys2Proof.Machine

/-! ## Words and their fields (R24, R25, R33, R40, R41, R240, R249) -/

namespace Sys2Proof

/-! ### Fields of a number -/

theorem fld_mul_add_of_le {k lo len : Nat} (hi r : Nat) (h : lo + len ≤ k) : fld (hi * 2 ^ k + r) lo len = fld r lo len := by
  obtain ⟨m, rfl⟩ := Nat.exists_eq_add_of_le h
  have hs : hi * 2 ^ (lo + len + m) + r = r + 2 ^ lo * (2 ^ len * (hi * 2 ^ m)) := by simp only [Nat.pow_add]; ring
  simp only [fld, hs, Nat.add_mul_div_left _ _ (Nat.two_pow_pos lo), Nat.add_mul_mod_self_left]

theorem fld_zero_eq_self {n len : Nat} (h : n < 2 ^ len) : fld n 0 len = n := by
  simp [fld, Nat.mod_eq_of_lt h]

theorem fld_eq_zero {n lo : Nat} (len : Nat) (h : n < 2 ^ lo) : fld n lo len = 0 := by
  simp [fld, Nat.div_eq_of_lt h]

@[simp] theorem rS_val (r : SReg) : rS r.val = r := Fin.ofNat_val_eq_self r
@[simp] theorem rP_val (r : PReg) : rP r.val = r := Fin.ofNat_val_eq_self r
@[simp] theorem rM_val (r : MReg) : rM r.val = r := Fin.ofNat_val_eq_self r
@[simp] theorem rV_val (r : VReg) : rV r.val = r := Fin.ofNat_val_eq_self r
@[simp] theorem rD_val (r : DReg) : rD r.val = r := Fin.ofNat_val_eq_self r

/-! ### Codes of element types, conditions and rounding modes -/

theorem ElemTy.code_lt (e : ElemTy) : e.code < 14 := by cases e <;> decide
theorem Cond.code_lt (c : Cond) : c.code < 6 := by cases c <;> decide
theorem Rnd.code_lt : ∀ r : Option Rnd, Rnd.code r < 6
  | none => by decide
  | some r => by cases r <;> decide

@[simp] theorem Rnd.ofCode_code : ∀ r : Option Rnd, Rnd.ofCode (Rnd.code r) = r
  | none => rfl
  | some r => by cases r <;> rfl

@[simp] theorem withEt_code (e : ElemTy) (allowed : ElemTy → Bool) (k : ElemTy → WordRes) :
    withEt e.code allowed k = if allowed e then k e else .ill := by cases e <;> rfl

@[simp] theorem withCond_code (c : Cond) (k : Cond → WordRes) : withCond c.code k = k c := by cases c <;> rfl

@[simp] theorem ElemTy.any_eq_true (e : ElemTy) : e.any = true := rfl

/-! ### Two's complement (R25) -/

/-- A number that fits n bits is what its low bits say in two's complement. -/
theorem sx_low {n : Nat} {i : Int} (h : fitsS (n + 1) i = true) : sx (n + 1) (low (n + 1) i) = i := by
  simp only [fitsS, Nat.add_sub_cancel, Bool.and_eq_true, decide_eq_true_eq] at h
  obtain ⟨hlo, hhi⟩ := h
  have hp : (2 : Int) ^ (n + 1) = 2 * 2 ^ n := by ring
  have hcast : ((2 ^ n : Nat) : Int) = 2 ^ n := by push_cast; rfl
  simp only [sx, low, Nat.add_sub_cancel]
  rcases lt_or_ge i 0 with hneg | hpos
  · have hm : i % 2 ^ (n + 1) = i + 2 ^ (n + 1) := by
      rw [← Int.add_emod_right, Int.emod_eq_of_lt (by omega) (by omega)]
    rw [hm, if_neg (by omega)]; omega
  · rw [Int.emod_eq_of_lt hpos (by omega), if_pos (by omega)]; omega

theorem low_lt (n : Nat) (i : Int) : low n i < 2 ^ n := by
  have hp : (0 : Int) < 2 ^ n := by positivity
  have h := Int.emod_lt_of_pos i hp
  have hcast : ((2 ^ n : Nat) : Int) = 2 ^ n := by push_cast; rfl
  simp only [low]
  omega

/-- The low bits of a number are those of a wider reading of it. -/
theorem low_mod_two_pow {m n : Nat} (h : m ≤ n) (i : Int) : low n i % 2 ^ m = low m i := by
  have hp : (0 : Int) < 2 ^ n := by positivity
  have hq : (0 : Int) < 2 ^ m := by positivity
  have hd : (2 : Int) ^ m ∣ 2 ^ n := pow_dvd_pow 2 h
  zify
  simp only [low, Int.toNat_of_nonneg (Int.emod_nonneg i hp.ne'), Int.toNat_of_nonneg (Int.emod_nonneg i hq.ne'),
    Int.emod_emod_of_dvd i hd]

/-! ### Format A -/

section
variable {op d a b fn : Nat}

theorem encA_lt (ho : op < 64) (hd : d < 32) (ha : a < 32) (hb : b < 32) (hf : fn < 2048) : encA op d a b fn < 2 ^ 32 := by
  simp only [encA]; omega

@[simp] theorem fld_encA_op (hd : d < 32) (ha : a < 32) (hb : b < 32) (hf : fn < 2048) (ho : op < 64) :
    fld (encA op d a b fn) 26 6 = op := by
  simp only [fld, encA]; omega

@[simp] theorem fD_encA (hd : d < 32) (ha : a < 32) (hb : b < 32) (hf : fn < 2048) : fD (encA op d a b fn) = d := by
  simp only [fD, fld, encA]; omega

@[simp] theorem fA_encA (ha : a < 32) (hb : b < 32) (hf : fn < 2048) : fA (encA op d a b fn) = a := by
  simp only [fA, fld, encA]; omega

@[simp] theorem fB_encA (hb : b < 32) (hf : fn < 2048) : fB (encA op d a b fn) = b := by
  simp only [fB, fld, encA]; omega

theorem fld_encA_low {lo len : Nat} (h : lo + len ≤ 11) : fld (encA op d a b fn) lo len = fld fn lo len := by
  have hs : encA op d a b fn = (op * 32768 + d * 1024 + a * 32 + b) * 2 ^ 11 + fn := by simp only [encA]; omega
  rw [hs, fld_mul_add_of_le _ _ h]

@[simp] theorem fld_encA_fn {len : Nat} (hf : fn < 2 ^ len) (h : len ≤ 11) : fld (encA op d a b fn) 0 len = fn := by
  rw [fld_encA_low (by omega), fld_zero_eq_self hf]

@[simp] theorem fld_encA_above_fn {lo len : Nat} (hf : fn < 2 ^ lo) (h : lo + len ≤ 11) : fld (encA op d a b fn) lo len = 0 := by
  rw [fld_encA_low h, fld_eq_zero _ hf]

end

/-! ### Formats I and SYS -/

section
variable {op d a sub imm : Nat}

theorem encI_lt (ho : op < 64) (hd : d < 32) (ha : a < 32) (hi : imm < 65536) : encI op d a imm < 2 ^ 32 := by
  simp only [encI]; omega

@[simp] theorem fld_encI_op (ho : op < 64) (hd : d < 32) (ha : a < 32) (hi : imm < 65536) : fld (encI op d a imm) 26 6 = op := by
  simp only [fld, encI]; omega

@[simp] theorem fD_encI (hd : d < 32) (ha : a < 32) (hi : imm < 65536) : fD (encI op d a imm) = d := by
  simp only [fD, fld, encI]; omega

@[simp] theorem fA_encI (ha : a < 32) (hi : imm < 65536) : fA (encI op d a imm) = a := by
  simp only [fA, fld, encI]; omega

@[simp] theorem fld_encI_imm (hi : imm < 65536) : fld (encI op d a imm) 0 16 = imm := by
  simp only [fld, encI]; omega

theorem encS_lt (hd : d < 32) (ha : a < 32) (hs : sub < 16) (hi : imm < 4096) : encS d a sub imm < 2 ^ 32 := by
  simp only [encS]; omega

@[simp] theorem fld_encS_op (hd : d < 32) (ha : a < 32) (hs : sub < 16) (hi : imm < 4096) : fld (encS d a sub imm) 26 6 = 0 := by
  simp only [fld, encS]; omega

@[simp] theorem fD_encS (hd : d < 32) (ha : a < 32) (hs : sub < 16) (hi : imm < 4096) : fD (encS d a sub imm) = d := by
  simp only [fD, fld, encS]; omega

@[simp] theorem fA_encS (ha : a < 32) (hs : sub < 16) (hi : imm < 4096) : fA (encS d a sub imm) = a := by
  simp only [fA, fld, encS]; omega

@[simp] theorem fld_encS_sub (hs : sub < 16) (hi : imm < 4096) : fld (encS d a sub imm) 12 4 = sub := by
  simp only [fld, encS]; omega

@[simp] theorem fld_encS_imm (hi : imm < 4096) : fld (encS d a sub imm) 0 12 = imm := by
  simp only [fld, encS]; omega

end

/-! ### Format M -/

section
variable {op t a fn disp : Nat}

theorem encM_lt (ho : op < 64) (ht : t < 32) (ha : a < 32) (hf : fn < 16) (hd : disp < 4096) : encM op t a fn disp < 2 ^ 32 := by
  simp only [encM]; omega

@[simp] theorem fld_encM_op (ho : op < 64) (ht : t < 32) (ha : a < 32) (hf : fn < 16) (hd : disp < 4096) :
    fld (encM op t a fn disp) 26 6 = op := by
  simp only [fld, encM]; omega

@[simp] theorem fD_encM (ht : t < 32) (ha : a < 32) (hf : fn < 16) (hd : disp < 4096) : fD (encM op t a fn disp) = t := by
  simp only [fD, fld, encM]; omega

@[simp] theorem fA_encM (ha : a < 32) (hf : fn < 16) (hd : disp < 4096) : fA (encM op t a fn disp) = a := by
  simp only [fA, fld, encM]; omega

@[simp] theorem fld_encM_fn (hf : fn < 16) (hd : disp < 4096) : fld (encM op t a fn disp) 12 4 = fn := by
  simp only [fld, encM]; omega

theorem fld_encM_low {lo len : Nat} (h : lo + len ≤ 12) : fld (encM op t a fn disp) lo len = fld disp lo len := by
  have hs : encM op t a fn disp = (op * 16384 + t * 512 + a * 16 + fn) * 2 ^ 12 + disp := by simp only [encM]; omega
  rw [hs, fld_mul_add_of_le _ _ h]

@[simp] theorem fld_encM_disp {len : Nat} (hd : disp < 2 ^ len) (h : len ≤ 12) : fld (encM op t a fn disp) 0 len = disp := by
  rw [fld_encM_low (by omega), fld_zero_eq_self hd]

@[simp] theorem fld_encM_above_disp {lo len : Nat} (hd : disp < 2 ^ lo) (h : lo + len ≤ 12) :
    fld (encM op t a fn disp) lo len = 0 := by
  rw [fld_encM_low h, fld_eq_zero _ hd]

end

/-! ### Formats V and VM -/

section
variable {op d a b et vf : Nat}

theorem encV_lt (ho : op < 64) (hd : d < 64) (ha : a < 64) (hb : b < 64) (he : et < 16) (hf : vf < 16) :
    encV op d a b et vf < 2 ^ 32 := by
  simp only [encV]; omega

@[simp] theorem fld_encV_op (ho : op < 64) (hd : d < 64) (ha : a < 64) (hb : b < 64) (he : et < 16) (hf : vf < 16) :
    fld (encV op d a b et vf) 26 6 = op := by
  simp only [fld, encV]; omega

@[simp] theorem fVd_encV (hd : d < 64) (ha : a < 64) (hb : b < 64) (he : et < 16) (hf : vf < 16) : fVd (encV op d a b et vf) = d := by
  simp only [fVd, fld, encV]; omega

@[simp] theorem fVa_encV (ha : a < 64) (hb : b < 64) (he : et < 16) (hf : vf < 16) : fVa (encV op d a b et vf) = a := by
  simp only [fVa, fld, encV]; omega

@[simp] theorem fVb_encV (hb : b < 64) (he : et < 16) (hf : vf < 16) : fVb (encV op d a b et vf) = b := by
  simp only [fVb, fld, encV]; omega

@[simp] theorem fld_encV_et (he : et < 16) (hf : vf < 16) : fld (encV op d a b et vf) 4 4 = et := by
  simp only [fld, encV]; omega

@[simp] theorem fld_encV_vf (hf : vf < 16) : fld (encV op d a b et vf) 0 4 = vf := by
  simp only [fld, encV]; omega

end

section
variable {t i a b fn : Nat}

theorem encVM_lt (ht : t < 64) (hi : i < 64) (ha : a < 32) (hb : b < 32) (hf : fn < 16) : encVM t i a b fn < 2 ^ 32 := by
  simp only [encVM]; omega

@[simp] theorem fld_encVM_op (ht : t < 64) (hi : i < 64) (ha : a < 32) (hb : b < 32) (hf : fn < 16) :
    fld (encVM t i a b fn) 26 6 = 0x26 := by
  simp only [fld, encVM]; omega

@[simp] theorem fVd_encVM (ht : t < 64) (hi : i < 64) (ha : a < 32) (hb : b < 32) (hf : fn < 16) : fVd (encVM t i a b fn) = t := by
  simp only [fVd, fld, encVM]; omega

@[simp] theorem fVa_encVM (hi : i < 64) (ha : a < 32) (hb : b < 32) (hf : fn < 16) : fVa (encVM t i a b fn) = i := by
  simp only [fVa, fld, encVM]; omega

@[simp] theorem fld_encVM_a (ha : a < 32) (hb : b < 32) (hf : fn < 16) : fld (encVM t i a b fn) 9 5 = a := by
  simp only [fld, encVM]; omega

@[simp] theorem fld_encVM_b (hb : b < 32) (hf : fn < 16) : fld (encVM t i a b fn) 4 5 = b := by
  simp only [fld, encVM]; omega

@[simp] theorem fld_encVM_fn (hf : fn < 16) : fld (encVM t i a b fn) 0 4 = fn := by
  simp only [fld, encVM]; omega

@[simp] theorem fld_encVM_et {e : Nat} (he : e < 16) (hf : fn < 16) : fld (encVM t i a (e * 2) fn) 5 4 = e := by
  simp only [fld, encVM]; omega

@[simp] theorem fld_encVM_et_pad {e : Nat} (hf : fn < 16) : fld (encVM t i a (e * 2) fn) 4 1 = 0 := by
  simp only [fld, encVM]; omega

end

end Sys2Proof

/-! ## Units: the words of prefixes (pfx), then the instruction word (R27-R37) -/

namespace Sys2Proof

/-! ### The vector pfx (R28) -/

theorem vecWord_lt (q : VPfx) : vecWord q < 2 ^ 32 := by
  have := Rnd.code_lt q.rnd
  cases hz : q.zero <;> cases hv : q.vc <;> simp [vecWord, hz, hv] <;> omega

theorem vecWord_fields (q : VPfx) :
    fld (vecWord q) 26 6 = 63 ∧ fld (vecWord q) 24 2 = 0 ∧ fld (vecWord q) 0 4 = 0 ∧ fld (vecWord q) 17 3 = Rnd.code q.rnd
      ∧ fld (vecWord q) 21 3 = q.mask.val ∧ fld (vecWord q) 20 1 = q.zero.toNat ∧ fld (vecWord q) 10 1 = q.vc.isSome.toNat
      ∧ ∀ r, q.vc = some r → fld (vecWord q) 11 6 = r.val := by
  have := Rnd.code_lt q.rnd
  cases hz : q.zero <;> cases hv : q.vc <;> simp [vecWord, hz, hv, fld] <;> omega

/-- The pfx word of a vector pfx reads as that pfx. -/
theorem vpfxOf_vecWord {p : Pfxs} (q : VPfx) (pos : Nat) (h : p.vec = some (vecWord q, pos)) : vpfxOf p = q := by
  obtain ⟨-, -, -, hrnd, hmask, hzero, hhas, hvc⟩ := vecWord_fields q
  obtain ⟨mask, zero, rnd, vc⟩ := q
  simp only [vpfxOf, h, hrnd, hmask, hzero, hhas, rM_val, Rnd.ofCode_code]
  cases zero <;> cases vc <;> simp_all

/-- An instruction that can use all that a vector pfx holds does not refuse it (R33). -/
theorem refuseVec_vecWord {a : Accepts} {q : VPfx} (pos : Nat) (ha : a.vec = true) (hq : q.wf a.rnd a.zero a.vc = true) :
    refuseVec a (some (vecWord q, pos)) = none := by
  obtain ⟨-, -, -, hrnd, -, hzero, hhas, -⟩ := vecWord_fields q
  obtain ⟨mask, zero, rnd, vc⟩ := q
  simp only [VPfx.wf, Bool.and_eq_true, Bool.or_eq_true, decide_eq_true_eq, Bool.not_eq_true'] at hq
  obtain ⟨⟨hr, hz⟩, hv⟩ := hq
  have hr0 : Rnd.code none = 0 := rfl
  simp only [refuseVec, ha, hrnd, hzero, hhas]
  rcases hr with hr | hr <;> rcases hz with hz | hz <;> rcases hv with hv | hv <;> simp [hr, hz, hv, hr0]

/-! ### The memory pfx (R29) and the immediate pfx (R30) -/

theorem memWord_fields (m : MemMode) :
    memWord (memBody m) < 2 ^ 32 ∧ fld (memWord (memBody m)) 26 6 = 63 ∧ fld (memWord (memBody m)) 24 2 = 1
      ∧ fld (memWord (memBody m)) 0 4 = 0 ∧ fld (memWord (memBody m)) 21 2 = (decide (m = .leap)).toNat
      ∧ fld (memWord (memBody m)) 23 1 = (decide (m = .relaxed)).toNat := by
  cases m <;> decide

theorem memOf_memWord {p : Pfxs} (m : MemMode) (pos : Nat) (h : p.mem = some (memWord (memBody m), pos)) : memOf p = m := by
  obtain ⟨-, -, -, -, hlp, hrx⟩ := memWord_fields m
  cases m <;> simp_all [memOf]

/-- The pfx of an access by leap, or a relaxed one, is not refused where the instruction can be made so (R33). -/
theorem refuseMem_memWord {a : Accepts} {m : MemMode} (pos : Nat) (ha : a.mem = true) (hr : m = .relaxed → a.rx = true)
    (hl : m = .leap → a.lp = true) : refuseMem a (some (memWord (memBody m), pos)) = none := by
  obtain ⟨-, -, -, -, hlp, hrx⟩ := memWord_fields m
  cases m <;> simp_all [refuseMem]

theorem immWord_fields {b : Nat} (h : b < 2 ^ 24) :
    immWord b < 2 ^ 32 ∧ fld (immWord b) 26 6 = 63 ∧ fld (immWord b) 24 2 = 2 ∧ fld (immWord b) 0 24 = b := by
  simp only [immWord, fld]; omega

/-! ### A unit of prefixes and an instruction word -/

/-- The prefixes read off the words of a unit are those of its encoding, wherever they stand. -/
def Carries (p : Pfxs) (e : Enc) : Prop :=
  p.vec.map Prod.fst = e.vec.map vecWord ∧ p.mem.map Prod.fst = (if e.mem = 0 then none else some (memWord e.mem))
    ∧ p.imm.map Prod.fst = e.imm.map immWord

/-- An instruction accepts the prefixes of an encoding (R32, R33). -/
structure Accepts.Admits (a : Accepts) (e : Enc) : Prop where
  vec : ∀ q, e.vec = some q → a.vec = true ∧ q.wf a.rnd a.zero a.vc = true
  mem : ∃ m, e.mem = memBody m ∧ (m ≠ .plain → a.mem = true) ∧ (m = .relaxed → a.rx = true) ∧ (m = .leap → a.lp = true)
  imm : ∀ b, e.imm = some b → a.imm = true ∧ b < 2 ^ 24
  two : e.vec = none ∨ e.imm = none

section
variable {p : Pfxs} {e : Enc}

theorem Carries.vpfxOf (h : Carries p e) : vpfxOf p = e.vec.getD VPfx.none := by
  obtain ⟨hv, -, -⟩ := h
  cases he : e.vec with
  | none => rw [he] at hv; simp_all [Sys2Proof.vpfxOf, VPfx.none]
  | some q =>
    simp only [he, Option.map_some, Option.map_eq_some_iff, Prod.exists, exists_and_right, exists_eq_right] at hv
    obtain ⟨pos, hv⟩ := hv
    exact vpfxOf_vecWord q pos hv

theorem Carries.memOf {m : MemMode} (h : Carries p e) (hm : e.mem = memBody m) : memOf p = m := by
  obtain ⟨-, hp, -⟩ := h
  rw [hm] at hp
  split at hp
  next h0 =>
    simp only [Option.map_eq_none_iff] at hp
    cases m <;> simp_all [Sys2Proof.memOf, memBody]
  next h0 =>
    simp only [Option.map_eq_some_iff, Prod.exists, exists_and_right, exists_eq_right] at hp
    obtain ⟨pos, hp⟩ := hp
    exact memOf_memWord m pos hp

theorem Carries.immOf (h : Carries p e) (hb : ∀ b, e.imm = some b → b < 2 ^ 24) : immOf p = e.imm := by
  obtain ⟨-, -, hi⟩ := h
  cases he : e.imm with
  | none => rw [he] at hi; simp_all [Sys2Proof.immOf]
  | some b =>
    simp only [he, Option.map_some, Option.map_eq_some_iff, Prod.exists, exists_and_right, exists_eq_right] at hi
    obtain ⟨pos, hi⟩ := hi
    obtain ⟨-, -, -, hf⟩ := immWord_fields (hb b he)
    simp [Sys2Proof.immOf, hi, hf]

theorem Carries.refusePfx (h : Carries p e) (ha : (acceptsOf e.word).Admits e) : refusePfx e.word p = none := by
  obtain ⟨hv, hp, hi⟩ := h
  have h1 : refuseVec (acceptsOf e.word) p.vec = none := by
    cases he : e.vec with
    | none => rw [he] at hv; simp_all [refuseVec]
    | some q =>
      simp only [he, Option.map_some, Option.map_eq_some_iff, Prod.exists, exists_and_right, exists_eq_right] at hv
      obtain ⟨pos, hv⟩ := hv
      obtain ⟨hav, hq⟩ := ha.vec q he
      exact hv ▸ refuseVec_vecWord pos hav hq
  have h2 : refuseMem (acceptsOf e.word) p.mem = none := by
    obtain ⟨m, hm, hmem, hrx, hlp⟩ := ha.mem
    rw [hm] at hp
    split at hp
    next => rw [Option.map_eq_none_iff] at hp; rw [hp]; rfl
    next h0 =>
      simp only [Option.map_eq_some_iff, Prod.exists, exists_and_right, exists_eq_right] at hp
      obtain ⟨pos, hp⟩ := hp
      exact hp ▸ refuseMem_memWord pos (hmem (by rintro rfl; exact h0 rfl)) hrx hlp
  have h3 : refuseImm (acceptsOf e.word) p.imm = none := by
    cases he : e.imm with
    | none => rw [he] at hi; simp_all [refuseImm]
    | some b =>
      simp only [he, Option.map_some, Option.map_eq_some_iff, Prod.exists, exists_and_right, exists_eq_right] at hi
      obtain ⟨pos, hi⟩ := hi
      simp [refuseImm, hi, (ha.imm b he).1]
  simp [Sys2Proof.refusePfx, h1, h2, h3, firstBad]

end

section
variable {sup : Bool} {p p' : Pfxs} {pos w : Nat} {ws : List (BitVec 32)}

theorem decFrom_prefix (hw : w < 2 ^ 32) (hop : fld w 26 6 = 63) (hres : pfxReserved w = false) (hpos : pos ≠ 2)
    (hadd : addPfx p w pos = some p') : decFrom sup p pos (BitVec.ofNat 32 w :: ws) = decFrom sup p' (pos + 1) ws := by
  have hn : (BitVec.ofNat 32 w).toNat = w := by rw [BitVec.toNat_ofNat, Nat.mod_eq_of_lt hw]
  simp only [decFrom, hn, isPfx, hop, hres, hpos, hadd, decide_true, if_true, Bool.false_eq_true, if_false]

theorem decFrom_vecWord (q : VPfx) (hp : p.vec = none) (hpos : pos ≠ 2) :
    decFrom sup p pos (BitVec.ofNat 32 (vecWord q) :: ws) = decFrom sup { p with vec := some (vecWord q, pos) } (pos + 1) ws := by
  obtain ⟨hop, hkind, hlow, hrnd, -⟩ := vecWord_fields q
  have hc := Rnd.code_lt q.rnd
  exact decFrom_prefix (vecWord_lt q) hop (by simp [pfxReserved, hkind, hlow, hrnd, hc]) hpos (by simp [addPfx, hkind, hp])

theorem decFrom_memWord (m : MemMode) (hp : p.mem = none) (hpos : pos ≠ 2) :
    decFrom sup p pos (BitVec.ofNat 32 (memWord (memBody m)) :: ws)
      = decFrom sup { p with mem := some (memWord (memBody m), pos) } (pos + 1) ws := by
  obtain ⟨hlt, hop, hkind, hlow, hlp, -⟩ := memWord_fields m
  have hc : (decide (m = .leap)).toNat < 2 := Bool.toNat_lt _
  exact decFrom_prefix hlt hop (by simp [pfxReserved, hkind, hlow, hlp, hc]) hpos (by simp [addPfx, hkind, hp])

theorem decFrom_immWord {b : Nat} (hb : b < 2 ^ 24) (hp : p.imm = none) (hpos : pos ≠ 2) :
    decFrom sup p pos (BitVec.ofNat 32 (immWord b) :: ws) = decFrom sup { p with imm := some (immWord b, pos) } (pos + 1) ws := by
  obtain ⟨hlt, hop, hkind, -⟩ := immWord_fields hb
  exact decFrom_prefix hlt hop (by simp [pfxReserved, hkind]) hpos (by simp [addPfx, hkind, hp])

theorem decFrom_word {i : Instr} (hw : w < 2 ^ 32) (hop : fld w 26 6 < 63) (hi : decWord sup w p = .ok i)
    (hr : refusePfx w p = none) : decFrom sup p pos (BitVec.ofNat 32 w :: ws) = .unit i (pos + 1) := by
  have hn : (BitVec.ofNat 32 w).toNat = w := by rw [BitVec.toNat_ofNat, Nat.mod_eq_of_lt hw]
  simp only [decFrom, hn, isPfx, hop.ne, hi, hr, decide_false, Bool.false_eq_true, if_false]

end

/-- The word of a pfx that may be absent. -/
def optWord (o : Option Nat) : List (BitVec 32) := o.toList.map (BitVec.ofNat 32)

theorem optWord_length (o : Option Nat) : (optWord o).length = o.toList.length := by simp [optWord]

/-- The memory pfx of an encoding, if it has one. -/
def Enc.memPfx (e : Enc) : Option Nat := if e.mem = 0 then none else some (memWord e.mem)

theorem Enc.words_eq (e : Enc) :
    e.words = optWord (e.vec.map vecWord) ++ (optWord e.memPfx ++ (optWord (e.imm.map immWord) ++ [BitVec.ofNat 32 e.word])) := by
  obtain ⟨word, vec, mem, imm⟩ := e
  simp only [Enc.words, Enc.memPfx, List.append_assoc]
  congr 1
  · cases vec <;> rfl
  · congr 1
    · split <;> rfl
    · cases imm <;> rfl

/-- Reading the vector pfx of an encoding, or none. -/
theorem decFrom_optVec (v : Option VPfx) : ∃ p : Pfxs, p.vec.map Prod.fst = v.map vecWord ∧ p.mem = none ∧ p.imm = none
    ∧ ∀ sup ws, decFrom sup Pfxs.none 0 (optWord (v.map vecWord) ++ ws) = decFrom sup p (optWord (v.map vecWord)).length ws := by
  cases v with
  | none => exact ⟨Pfxs.none, rfl, rfl, rfl, fun _ _ => rfl⟩
  | some q => exact ⟨{ Pfxs.none with vec := some (vecWord q, 0) }, rfl, rfl, rfl, fun _ _ => decFrom_vecWord q rfl (by decide)⟩

theorem decFrom_optMem {e : Enc} {m : MemMode} (hm : e.mem = memBody m) (p : Pfxs) {pos : Nat} (hp : p.mem = none) (hpos : pos ≠ 2) :
    ∃ p' : Pfxs, p'.mem.map Prod.fst = e.memPfx ∧ p'.vec = p.vec ∧ p'.imm = p.imm
      ∧ ∀ sup ws, decFrom sup p pos (optWord e.memPfx ++ ws) = decFrom sup p' (pos + (optWord e.memPfx).length) ws := by
  simp only [Enc.memPfx, hm]
  split
  · exact ⟨p, by rw [hp]; rfl, rfl, rfl, fun _ _ => rfl⟩
  · exact ⟨{ p with mem := some (memWord (memBody m), pos) }, rfl, rfl, rfl, fun _ _ => decFrom_memWord m hp hpos⟩

theorem decFrom_optImm (o : Option Nat) (p : Pfxs) {pos : Nat} (ho : ∀ b, o = some b → b < 2 ^ 24 ∧ pos ≠ 2) (hp : p.imm = none) :
    ∃ p' : Pfxs, p'.imm.map Prod.fst = o.map immWord ∧ p'.vec = p.vec ∧ p'.mem = p.mem
      ∧ ∀ sup ws, decFrom sup p pos (optWord (o.map immWord) ++ ws) = decFrom sup p' (pos + (optWord (o.map immWord)).length) ws := by
  cases o with
  | none => exact ⟨p, by rw [hp]; rfl, rfl, rfl, fun _ _ => rfl⟩
  | some b =>
    obtain ⟨hb, hpos⟩ := ho b rfl
    exact ⟨{ p with imm := some (immWord b, pos) }, rfl, rfl, rfl, fun _ _ => decFrom_immWord hb hp hpos⟩

/-- Reading the prefixes of an encoding that has at most two of them leaves its instruction word to be read. -/
theorem decFrom_prefixes {e : Enc} {m : MemMode} (hm : e.mem = memBody m) (hb : ∀ b, e.imm = some b → b < 2 ^ 24)
    (htwo : e.vec = none ∨ e.imm = none) : ∃ p, Carries p e ∧ ∀ sup rest,
      decFrom sup Pfxs.none 0 (e.words ++ rest) = decFrom sup p (e.words.length - 1) (BitVec.ofNat 32 e.word :: rest) := by
  obtain ⟨p1, hv1, hm1, hi1, h1⟩ := decFrom_optVec e.vec
  have hlen (o : Option Nat) : (optWord o).length ≤ 1 := by cases o <;> simp [optWord]
  have hv := hlen (e.vec.map vecWord)
  obtain ⟨p2, hm2, hv2, hi2, h2⟩ := decFrom_optMem hm p1 hm1 (by omega : (optWord (e.vec.map vecWord)).length ≠ 2)
  obtain ⟨p3, hi3, hv3, hm3, h3⟩ := decFrom_optImm e.imm p2
    (pos := (optWord (e.vec.map vecWord)).length + (optWord e.memPfx).length)
    (fun b hbb => ⟨hb b hbb, by
      have hmem := hlen e.memPfx
      rcases htwo with h | h
      · simp only [h, Option.map_none, optWord, Option.toList_none, List.map_nil, List.length_nil] at hmem ⊢; omega
      · simp [h] at hbb⟩) (hi2.trans hi1)
  refine ⟨p3, ⟨?_, ?_, hi3⟩, fun sup rest => ?_⟩
  · rw [hv3, hv2, hv1]
  · rw [hm3, hm2]; rfl
  · simp only [Enc.words_eq, List.append_assoc, h1, h2, h3, List.length_append, List.length_singleton, List.singleton_append]
    congr 1; omega

/-- An encoding decodes to an instruction, in either mode and whatever words follow. -/
def Decodes (e : Enc) (i : Instr) : Prop := ∀ (sup : Bool) (rest : List (BitVec 32)), decode sup (e.words ++ rest) = some (i, rest)

/-- An encoding whose prefixes its instruction accepts decodes to what its instruction word says with them. -/
theorem decodes_of_decWord {e : Enc} {i : Instr} (hw : e.word < 2 ^ 32) (hop : fld e.word 26 6 < 63)
    (ha : (acceptsOf e.word).Admits e) (hi : ∀ sup p, Carries p e → decWord sup e.word p = .ok i) : Decodes e i := by
  intro sup rest
  obtain ⟨m, hm, -⟩ := ha.mem
  obtain ⟨p, hp, hread⟩ := decFrom_prefixes hm (fun b h => (ha.imm b h).2) ha.two
  have hpos : 1 ≤ e.words.length := by simp only [Enc.words_eq, List.length_append, List.length_singleton]; omega
  rw [decode, decodeUnit, hread, decFrom_word hw hop (hi sup p hp) (hp.refusePfx ha), Nat.sub_add_cancel hpos]
  simp
end Sys2Proof

/-! ## Every row decodes from its encoding (R38-R41) -/
namespace Sys2Proof

/-! ### Encodings by their format -/

/-- An instruction word without prefixes. -/
theorem decodes_plain {w : Nat} {i : Instr} (hw : w < 2 ^ 32) (hop : fld w 26 6 < 63) (hi : ∀ sup p, decWord sup w p = .ok i) :
    Decodes (.plain w) i :=
  decodes_of_decWord hw hop ⟨fun _ h => (nomatch h), ⟨.plain, rfl, by simp, by simp, by simp⟩, fun _ h => (nomatch h), .inl rfl⟩
    fun sup p _ => hi sup p

section
variable {op d a b fn : Nat} {i : Instr}

theorem decodes_encA (hlt : d < 32 ∧ a < 32 ∧ b < 32 ∧ fn < 2048 ∧ op < 63)
    (hi : ∀ sup p, decWord sup (encA op d a b fn) p = .ok i) : Decodes (.plain (encA op d a b fn)) i :=
  have ⟨hd, ha, hb, hf, hop⟩ := hlt
  decodes_plain (encA_lt (by omega) hd ha hb hf) (by rwa [fld_encA_op hd ha hb hf (by omega)]) hi

theorem decodes_encI (hlt : d < 32 ∧ a < 32 ∧ b < 65536 ∧ op < 63)
    (hi : ∀ sup p, decWord sup (encI op d a b) p = .ok i) : Decodes (.plain (encI op d a b)) i :=
  have ⟨hd, ha, hb, hop⟩ := hlt
  decodes_plain (encI_lt (by omega) hd ha hb) (by rwa [fld_encI_op (by omega) hd ha hb]) hi

theorem decodes_encS (hlt : d < 32 ∧ a < 32 ∧ b < 16 ∧ fn < 4096)
    (hi : ∀ sup p, decWord sup (encS d a b fn) p = .ok i) : Decodes (.plain (encS d a b fn)) i :=
  have ⟨hd, ha, hb, hf⟩ := hlt
  decodes_plain (encS_lt hd ha hb hf) (by rw [fld_encS_op hd ha hb hf]; decide) hi

theorem decodes_encM (hlt : d < 32 ∧ a < 32 ∧ b < 16 ∧ fn < 4096 ∧ op < 63)
    (hi : ∀ sup p, decWord sup (encM op d a b fn) p = .ok i) : Decodes (.plain (encM op d a b fn)) i :=
  have ⟨hd, ha, hb, hf, hop⟩ := hlt
  decodes_plain (encM_lt (by omega) hd ha hb hf) (by rwa [fld_encM_op (by omega) hd ha hb hf]) hi

theorem lpBody_eq (lp : Bool) : lpBody lp = memBody (if lp then .leap else .plain) := by cases lp <;> rfl

/-- An atomic (R115): by leap with the memory pfx. -/
theorem decodes_atom (lp : Bool) (hlt : d < 32 ∧ a < 32 ∧ b < 32 ∧ fn < 2048)
    (hi : ∀ sup p, lpOf p = lp → decWord sup (encA 19 d a b fn) p = .ok i) :
    Decodes { Enc.plain (encA 19 d a b fn) with mem := lpBody lp } i := by
  obtain ⟨hd, ha, hb, hf⟩ := hlt
  have hm := lpBody_eq lp
  have hop : fld (encA 19 d a b fn) 26 6 = 19 := fld_encA_op hd ha hb hf (by omega)
  refine decodes_of_decWord (encA_lt (by omega) hd ha hb hf) (by simp only [Enc.plain]; omega)
    ⟨fun _ h => (nomatch h), ⟨_, hm, ?_, ?_, ?_⟩, fun _ h => (nomatch h), .inl rfl⟩ fun sup p hp => hi sup p ?_
  · cases lp <;> simp [Enc.plain, acceptsOf, hop]
  · cases lp <;> simp
  · cases lp <;> simp [Enc.plain, acceptsOf, hop]
  · have := hp.memOf hm
    cases lp <;> simp_all [lpOf]

end

/-! ### Immediates and displacements (R25) -/

/-- A number of more bits is the low ones in the word and the rest in the immediate pfx. -/
theorem low_split {m n : Nat} (h : m ≤ n) (i : Int) : low n i / 2 ^ m * 2 ^ m + low m i = low n i := by
  rw [← low_mod_two_pow h i]; exact Nat.div_add_mod' _ _

section
variable {op d a fn : Nat} {i : Instr} {imm : Int}

theorem encImmS_word (op d a : Nat) (imm : Int) : (encImmS op d a imm).word = encI op d a (low 16 imm)
    ∧ (encImmS op d a imm).vec = none ∧ (encImmS op d a imm).mem = 0 := by
  unfold encImmS; split <;> exact ⟨rfl, rfl, rfl⟩

theorem encImmU_word (op d a : Nat) (imm : Int) : (encImmU op d a imm).word = encI op d a (low 16 imm)
    ∧ (encImmU op d a imm).vec = none ∧ (encImmU op d a imm).mem = 0 := by
  unfold encImmU; split <;> exact ⟨rfl, rfl, rfl⟩

theorem encDisp_word (op d a fn : Nat) (imm : Int) (m : Nat) : (encDisp op d a fn imm m).word = encM op d a fn (low 12 imm)
    ∧ (encDisp op d a fn imm m).vec = none ∧ (encDisp op d a fn imm m).mem = m := by
  unfold encDisp; split <;> exact ⟨rfl, rfl, rfl⟩

theorem encImmS_imm (h : immWf imm = true) : (∀ b, (encImmS op d a imm).imm = some b → b < 2 ^ 24)
    ∧ immS (encImmS op d a imm).imm (encI op d a (low 16 imm)) = imm := by
  have hl : low 16 imm < 65536 := low_lt 16 imm
  have hl40 := low_lt 40 imm
  unfold encImmS
  split
  next hf => exact ⟨fun _ h => (nomatch h), by simp only [Enc.plain, immS, fld_encI_imm hl]; exact sx_low hf⟩
  next =>
    refine ⟨by simp only [Option.some.injEq, forall_eq']; omega, ?_⟩
    simp only [immS, fld_encI_imm hl]
    rw [show 65536 = 2 ^ 16 from rfl, low_split (by decide)]
    exact sx_low h

theorem encImmU_imm (h : immWf imm = true) : (∀ b, (encImmU op d a imm).imm = some b → b < 2 ^ 24)
    ∧ immU (encImmU op d a imm).imm (encI op d a (low 16 imm)) = imm := by
  have hl : low 16 imm < 65536 := low_lt 16 imm
  have hl40 := low_lt 40 imm
  unfold encImmU
  split
  next hf =>
    refine ⟨fun _ h => (nomatch h), ?_⟩
    simp only [Enc.plain, immU, fld_encI_imm hl]
    simp only [low]; omega
  next =>
    refine ⟨by simp only [Option.some.injEq, forall_eq']; omega, ?_⟩
    simp only [immU, fld_encI_imm hl]
    rw [show 65536 = 2 ^ 16 from rfl, low_split (by decide)]
    exact sx_low h

theorem encDisp_imm {m : Nat} (h : dispWf imm = true) : (∀ b, (encDisp op d a fn imm m).imm = some b → b < 2 ^ 24)
    ∧ immD (encDisp op d a fn imm m).imm (encM op d a fn (low 12 imm)) = imm := by
  have hl : low 12 imm < 2 ^ 12 := low_lt 12 imm
  have hl36 := low_lt 36 imm
  unfold encDisp
  split
  next hf => exact ⟨fun _ h => (nomatch h), by simp only [immD, fld_encM_disp hl (by decide)]; exact sx_low hf⟩
  next =>
    refine ⟨by simp only [Option.some.injEq, forall_eq']; omega, ?_⟩
    simp only [immD, fld_encM_disp hl (by decide)]
    rw [show 4096 = 2 ^ 12 from rfl, low_split (by decide)]
    exact sx_low h

/-- An instruction of format I that accepts the immediate pfx. -/
theorem decodes_encImm {e : Enc} {l : Nat} (hl : l < 65536) (hlt : d < 32 ∧ a < 32 ∧ op < 63)
    (he : e.word = encI op d a l ∧ e.vec = none ∧ e.mem = 0) (hb : ∀ b, e.imm = some b → b < 2 ^ 24)
    (hacc : (acceptsOf (encI op d a l)).imm = true) (hi : ∀ sup p, immOf p = e.imm → decWord sup (encI op d a l) p = .ok i) :
    Decodes e i := by
  obtain ⟨hd, ha, hop⟩ := hlt
  obtain ⟨hw, hv, hm⟩ := he
  refine decodes_of_decWord (hw ▸ encI_lt (by omega) hd ha hl) (by rwa [hw, fld_encI_op (by omega) hd ha hl])
    ⟨fun q h => by simp [hv] at h, ⟨.plain, hm, by simp, by simp, by simp⟩, fun b h => ⟨hw ▸ hacc, hb b h⟩, .inl hv⟩
    fun sup p hp => hw ▸ hi sup p (hp.immOf hb)

theorem decodes_encImmS (h : immWf imm = true) (hlt : d < 32 ∧ a < 32 ∧ op < 63)
    (hacc : ∀ l, l < 65536 → (acceptsOf (encI op d a l)).imm = true)
    (hi : ∀ sup p l, l < 65536 → immS (immOf p) (encI op d a l) = imm → decWord sup (encI op d a l) p = .ok i) :
    Decodes (encImmS op d a imm) i := by
  obtain ⟨hb, himm⟩ := encImmS_imm (op := op) (d := d) (a := a) h
  have hl : low 16 imm < 65536 := low_lt 16 imm
  exact decodes_encImm hl hlt (encImmS_word op d a imm) hb (hacc _ hl) fun sup p hp => hi sup p _ hl (hp ▸ himm)

theorem decodes_encImmU (h : immWf imm = true) (hlt : d < 32 ∧ a < 32 ∧ op < 63)
    (hacc : ∀ l, l < 65536 → (acceptsOf (encI op d a l)).imm = true)
    (hi : ∀ sup p l, l < 65536 → immU (immOf p) (encI op d a l) = imm → decWord sup (encI op d a l) p = .ok i) :
    Decodes (encImmU op d a imm) i := by
  obtain ⟨hb, himm⟩ := encImmU_imm (op := op) (d := d) (a := a) h
  have hl : low 16 imm < 65536 := low_lt 16 imm
  exact decodes_encImm hl hlt (encImmU_word op d a imm) hb (hacc _ hl) fun sup p hp => hi sup p _ hl (hp ▸ himm)

/-- An access of format M in the mode that its memory pfx gives, if it has one. -/
theorem decodes_encDisp (m : MemMode) (h : dispWf imm = true) (hlt : d < 32 ∧ a < 32 ∧ fn < 16 ∧ op < 63)
    (hacc : ∀ w, fld w 26 6 = op → (acceptsOf w).imm = true ∧ (m ≠ .plain → (acceptsOf w).mem = true)
      ∧ (m = .relaxed → (acceptsOf w).rx = true) ∧ (m = .leap → (acceptsOf w).lp = true))
    (hi : ∀ sup p disp, disp < 4096 → immD (immOf p) (encM op d a fn disp) = imm → memOf p = m →
      decWord sup (encM op d a fn disp) p = .ok i) :
    Decodes (encDisp op d a fn imm (memBody m)) i := by
  obtain ⟨hd, ha, hf, hop⟩ := hlt
  obtain ⟨hw, hv, hm⟩ := encDisp_word op d a fn imm (memBody m)
  obtain ⟨hb, himm⟩ := encDisp_imm (op := op) (d := d) (a := a) (fn := fn) (m := memBody m) h
  have hl : low 12 imm < 4096 := low_lt 12 imm
  have ho := fld_encM_op (by omega : op < 64) hd ha hf hl
  obtain ⟨hai, ham, har, hal⟩ := hacc _ ho
  rw [← hw] at ho hai ham har hal
  refine decodes_of_decWord (hw ▸ encM_lt (by omega) hd ha hf hl) (by rw [ho]; exact hop)
    ⟨fun q h => by simp [hv] at h, ⟨m, hm, ham, har, hal⟩, fun b h => ⟨hai, hb b h⟩, .inl hv⟩
    fun sup p hp => hw ▸ hi sup p _ hl ?_ (hp.memOf hm)
  rw [hp.immOf hb, himm]

end

/-- A synchronising access (R112): by leap with the memory pfx. -/
theorem decodes_encSync {t a fn : Nat} {d : Int} {i : Instr} (lp : Bool) (h : dispWf d = true) (hlt : t < 32 ∧ a < 32 ∧ fn < 16)
    (hi : ∀ sup p disp, disp < 4096 → immD (immOf p) (encM 18 t a fn disp) = d → lpOf p = lp →
      decWord sup (encM 18 t a fn disp) p = .ok i) : Decodes (encDisp 18 t a fn d (lpBody lp)) i := by
  rw [lpBody_eq]
  refine decodes_encDisp _ h (by omega) (fun w hw => ?_) fun sup p l hl hd hmem => hi sup p l hl hd ?_
  · cases lp <;> simp [acceptsOf, hw, Accepts.immOnly]
  · cases lp <;> simp [lpOf, hmem]

/-! ### Vector instructions -/

/-- A vector instruction with the fields of its vector pfx that it can use (R33), and its memory pfx. -/
theorem decodes_vector {w : Nat} {q : VPfx} {i : Instr} (acc : Accepts) (rx : Bool) (hw : w < 2 ^ 32) (hop : fld w 26 6 < 63)
    (hacc : acceptsOf w = acc) (hv : acc.vec = true) (hm : rx = true → acc.mem = true ∧ acc.rx = true)
    (hq : q.wf acc.rnd acc.zero acc.vc = true) (hi : ∀ sup p, vpfxOf p = q → rxOf p = rx → decWord sup w p = .ok i) :
    Decodes (encVmem w rx q) i := by
  have hmem : (encVmem w rx q).mem = memBody (if rx then .relaxed else .plain) := by cases rx <;> rfl
  have hvec : (encVmem w rx q).vec.getD VPfx.none = q ∧ ∀ r, (encVmem w rx q).vec = some r → r = q := by
    by_cases h : q = VPfx.none <;> simp [encVmem, encVec, h]
  subst hacc
  refine decodes_of_decWord (e := encVmem w rx q) hw hop ⟨fun r h => ⟨hv, hvec.2 r h ▸ hq⟩, ⟨_, hmem, ?_, ?_, ?_⟩,
    fun _ h => (nomatch h), .inr rfl⟩ fun sup p hp => hi sup p (hp.vpfxOf.trans hvec.1) ?_
  · cases rx <;> simp
    exact (hm rfl).1
  · cases rx <;> simp
    exact (hm rfl).2
  · cases rx <;> simp
  · have := hp.memOf hmem
    cases rx <;> simp_all [rxOf]

section
variable {op d a b et vf : Nat} {q : VPfx} {i : Instr}

theorem decodes_encV (acc : Accepts) (hlt : d < 64 ∧ a < 64 ∧ b < 64 ∧ et < 16 ∧ vf < 16 ∧ op < 63)
    (hacc : acceptsOf (encV op d a b et vf) = acc) (hv : acc.vec = true) (hq : q.wf acc.rnd acc.zero acc.vc = true)
    (hi : ∀ sup p, vpfxOf p = q → decWord sup (encV op d a b et vf) p = .ok i) : Decodes (encVec (encV op d a b et vf) q) i :=
  have ⟨hd, ha, hb, he, hf, hop⟩ := hlt
  decodes_vector (w := encV op d a b et vf) acc false (encV_lt (by omega) hd ha hb he hf)
    (by rwa [fld_encV_op (by omega) hd ha hb he hf]) hacc hv (fun h => (nomatch h)) hq fun sup p hp _ => hi sup p hp

end

section
variable {t i a b fn : Nat} {q : VPfx} {r : Instr}

theorem decodes_encVM (acc : Accepts) (rx : Bool) (hlt : t < 64 ∧ i < 64 ∧ a < 32 ∧ b < 32 ∧ fn < 16)
    (hacc : acceptsOf (encVM t i a b fn) = acc) (hv : acc.vec = true) (hm : rx = true → acc.mem = true ∧ acc.rx = true)
    (hq : q.wf acc.rnd acc.zero acc.vc = true) (hr : ∀ sup p, vpfxOf p = q → rxOf p = rx → decWord sup (encVM t i a b fn) p = .ok r) :
    Decodes (encVmem (encVM t i a b fn) rx q) r :=
  have ⟨ht, hi, ha, hb, hf⟩ := hlt
  decodes_vector acc rx (encVM_lt ht hi ha hb hf) (by rw [fld_encVM_op ht hi ha hb hf]; decide) hacc hv hm hq hr

/-- A vector load (R249, R253): merged or zeroed, fetched or relaxed. -/
theorem decodes_vload (rx : Bool) (hlt : t < 64 ∧ i < 64 ∧ a < 32 ∧ b < 32 ∧ fn < 3) (hq : q.wf false true false = true)
    (hr : ∀ sup p, vpfxOf p = q → rxOf p = rx → decWord sup (encVM t i a b fn) p = .ok r) :
    Decodes (encVmem (encVM t i a b fn) rx q) r := by
  refine decodes_encVM { Accepts.vector with zero := true, mem := true, rx := true } rx (by omega) ?_ rfl (fun _ => ⟨rfl, rfl⟩) hq hr
  obtain ⟨ht, hi, ha, hb, hf⟩ := hlt
  interval_cases fn <;> simp (disch := omega) [acceptsOf, Accepts.vector]

/-- A vector store (R249, R253). -/
theorem decodes_vstore (rx : Bool) (hlt : t < 64 ∧ i < 64 ∧ a < 32 ∧ b < 32 ∧ 3 ≤ fn ∧ fn < 7) (hq : q.wf false false false = true)
    (hr : ∀ sup p, vpfxOf p = q → rxOf p = rx → decWord sup (encVM t i a b fn) p = .ok r) :
    Decodes (encVmem (encVM t i a b fn) rx q) r := by
  refine decodes_encVM { Accepts.vector with zero := false, mem := true, rx := true } rx (by omega) ?_ rfl (fun _ => ⟨rfl, rfl⟩) hq hr
  obtain ⟨ht, hi, ha, hb, hf, hf'⟩ := hlt
  interval_cases fn <;> simp (disch := omega) [acceptsOf]

end

end Sys2Proof

namespace Sys2Proof

/-! ### Words whose fields are their own -/

theorem sysListed_of_sysKnown {n : Nat} (sup : Bool) (h : sysKnown n = true) : sysListed sup n = true := by
  have hs : ∀ m ∈ sysSup, 0x100 ≤ m := by decide
  have hu : ∀ m ∈ sysUser, m < 0x100 := by decide
  simp only [sysKnown, Bool.or_eq_true, decide_eq_true_eq] at h
  unfold sysListed
  rcases h with h | h
  · simp [hu n h, h]
  · have := hs n h
    cases sup <;> simp [h] <;> omega

theorem decShi_encI (d a : SReg) (n : Fin 64) :
    decShi (encI 6 d a n) = .ok (.slli d a n) ∧ decShi (encI 6 d a (16384 + n.val)) = .ok (.srli d a n)
      ∧ decShi (encI 6 d a (32768 + n.val)) = .ok (.srai d a n) ∧ decShi (encI 6 d a (49152 + n.val)) = .ok (.roli d a n) := by
  have hlow (k : Nat) (hk : k < 4) : fld (encI 6 d a (k * 16384 + n.val)) 14 2 = k ∧ fld (encI 6 d a (k * 16384 + n.val)) 6 8 = 0
      ∧ fld (encI 6 d a (k * 16384 + n.val)) 0 6 = n.val := by simp only [fld, encI]; omega
  have h0 := hlow 0 (by omega)
  have h1 := hlow 1 (by omega)
  have h2 := hlow 2 (by omega)
  have h3 := hlow 3 (by omega)
  simp only [Nat.zero_mul, Nat.one_mul, Nat.zero_add, Nat.reduceMul] at h0 h1 h2 h3
  refine ⟨?_, ?_, ?_, ?_⟩ <;> simp (disch := omega) [decShi, h0, h1, h2, h3, chk]

theorem decLih_encI (d : SReg) (p : Fin 4) (i : BitVec 16) :
    decLih (encI 7 d (p.val * 8) i.toNat) = .ok (.lih d p i) ∧ decLih (encI 7 d (p.val * 8 + 4) i.toNat) = .ok (.lihK d p i) := by
  have hlow (k : Nat) (hk : k < 2) : fld (encI 7 d (p.val * 8 + k * 4) i.toNat) 16 2 = 0
      ∧ fld (encI 7 d (p.val * 8 + k * 4) i.toNat) 18 1 = k ∧ fld (encI 7 d (p.val * 8 + k * 4) i.toNat) 19 2 = p.val := by
    simp only [fld, encI]; omega
  have h0 := hlow 0 (by omega)
  have h1 := hlow 1 (by omega)
  simp only [Nat.zero_mul, Nat.one_mul, Nat.add_zero] at h0 h1
  constructor <;> simp (disch := omega) [decLih, h0, h1, chk]

theorem fld_encV_mask {op m c a b et vf : Nat} (hm : m < 8) (ha : a < 64) (hb : b < 64) (he : et < 16) (hf : vf < 16) :
    fld (encV op (m + c * 8) a b et vf) 20 3 = m := by
  simp only [fld, encV]; omega

theorem fld_encV_cond {op m c a b et vf : Nat} (hm : m < 8) (hc : c < 6) (ha : a < 64) (hb : b < 64) (he : et < 16) (hf : vf < 16) :
    fld (encV op (m + c * 8) a b et vf) 23 3 = c := by
  simp only [fld, encV]; omega

theorem fld_encV_dt {op d a t et vf : Nat} (ht : t < 16) (he : et < 16) (hf : vf < 16) :
    fld (encV op d a t et vf) 8 4 = t := by
  simp only [fld, encV]; omega

theorem fld_encV_pad {op d a t et vf : Nat} (ht : t < 16) (he : et < 16) (hf : vf < 16) :
    fld (encV op d a t et vf) 12 2 = 0 := by
  simp only [fld, encV]; omega

/-- The words of `cmp` (R40). -/
theorem decodes_cmp (p : PReg) (c : Cond) (u : Bool) (a b : SReg) : Decodes (.plain (8 * 67108864 + p.val * 8388608
    + c.code * 1048576 + u.toNat * 524288 + a.val * 16384 + b.val * 256)) (.cmp p c u a b) := by
  generalize hw : 8 * 67108864 + p.val * 8388608 + c.code * 1048576 + u.toNat * 524288 + a.val * 16384 + b.val * 256 = w
  have hc := c.code_lt
  have hu := u.toNat_lt
  have hf : w < 2 ^ 32 ∧ fld w 26 6 = 8 ∧ fld w 23 3 = p.val ∧ fld w 20 3 = c.code ∧ fld w 19 1 = u.toNat ∧ fld w 14 5 = a.val
      ∧ fld w 13 1 = 0 ∧ fld w 8 5 = b.val ∧ fld w 0 8 = 0 := by simp only [fld]; omega
  obtain ⟨hlt, hop, hp, hcc, hus, ha, hk, hb, hz⟩ := hf
  exact decodes_plain hlt (by omega) fun sup pf => by simp [decWord, hop, decCmp, hp, hcc, hus, ha, hk, hb, hz, chk]

theorem decodes_cmpImm (p : PReg) (c : Cond) (u : Bool) (a : SReg) (i : BitVec 13) : Decodes (.plain (8 * 67108864 + p.val * 8388608
    + c.code * 1048576 + u.toNat * 524288 + a.val * 16384 + 8192 + i.toNat)) (.cmpImm p c u a i) := by
  generalize hw : 8 * 67108864 + p.val * 8388608 + c.code * 1048576 + u.toNat * 524288 + a.val * 16384 + 8192 + i.toNat = w
  have hc := c.code_lt
  have hu := u.toNat_lt
  have hf : w < 2 ^ 32 ∧ fld w 26 6 = 8 ∧ fld w 23 3 = p.val ∧ fld w 20 3 = c.code ∧ fld w 19 1 = u.toNat ∧ fld w 14 5 = a.val
      ∧ fld w 13 1 = 1 ∧ fld w 0 13 = i.toNat := by simp only [fld]; omega
  obtain ⟨hlt, hop, hp, hcc, hus, ha, hk, hi⟩ := hf
  exact decodes_plain hlt (by omega) fun sup pf => by simp [decWord, hop, decCmp, hp, hcc, hus, ha, hk, hi]

/-- The words of `b` and `bl`. -/
theorem decodes_branch {op : Nat} (d : BitVec 26) {i : Instr} (hop : op < 63)
    (hi : ∀ sup p w, fld w 26 6 = op → fld w 0 26 = d.toNat → decWord sup w p = .ok i) :
    Decodes (.plain (op * 67108864 + d.toNat)) i := by
  generalize hw : op * 67108864 + d.toNat = w
  have hf : w < 2 ^ 32 ∧ fld w 26 6 = op ∧ fld w 0 26 = d.toNat := by simp only [fld]; omega
  obtain ⟨hlt, ho, hd⟩ := hf
  exact decodes_plain hlt (by omega) fun sup p => hi sup p w ho hd

/-- The words of `bp`: on a predicate or on its opposite. -/
theorem decodes_bp (p : PReg) (d : BitVec 22) : Decodes (.plain (12 * 67108864 + p.val * 8388608 + d.toNat)) (.bp p d)
    ∧ Decodes (.plain (12 * 67108864 + p.val * 8388608 + 4194304 + d.toNat)) (.bpNot p d) := by
  have hf (w n : Nat) (hw : w = 12 * 67108864 + p.val * 8388608 + n * 4194304 + d.toNat) (hn : n < 2) : w < 2 ^ 32 ∧ fld w 26 6 = 12
      ∧ fld w 23 3 = p.val ∧ fld w 22 1 = n ∧ fld w 0 22 = d.toNat := by simp only [fld]; omega
  constructor
  · generalize hw : 12 * 67108864 + p.val * 8388608 + d.toNat = w
    obtain ⟨hlt, hop, hp, hn, hd⟩ := hf w 0 (by omega) (by omega)
    exact decodes_plain hlt (by omega) fun sup pf => by simp [decWord, hop, hp, hn, hd]
  · generalize hw : 12 * 67108864 + p.val * 8388608 + 4194304 + d.toNat = w
    obtain ⟨hlt, hop, hp, hn, hd⟩ := hf w 1 (by omega) (by omega)
    exact decodes_plain hlt (by omega) fun sup pf => by simp [decWord, hop, hp, hn, hd]

theorem decSys_fence (s : Fin 6) (e : BitVec 3) (sup : Bool) : decSys sup (encS 0 0 11 (s.val + e.toNat * 16)) = .ok (.fence s e) := by
  generalize hw : encS 0 0 11 (s.val + e.toNat * 16) = w
  have hf : fD w = 0 ∧ fA w = 0 ∧ fld w 12 4 = 11 ∧ fld w 3 1 = 0 ∧ fld w 7 5 = 0 ∧ fld w 0 3 = s.val ∧ fld w 4 3 = e.toNat := by
    simp only [fD, fA, fld, ← hw, encS]; omega
  obtain ⟨hd, ha, hop, hz3, hz7, hs, he⟩ := hf
  simp [decSys, hop, hd, ha, hz3, hz7, hs, he, chk]

/-! ### The rows of the table, unit by unit -/

/-- The row stands before those of the vector unit in the table: groups SYS to WORK. -/
def Instr.Scalar (i : Instr) : Prop := i.ctorIdx < (Instr.vadd 0 0 0 .i8 VPfx.none).ctorIdx

/-- The row stands behind those of the vector unit: groups DA to DM, `prec`, commands and acts. -/
def Instr.Dennum (i : Instr) : Prop := (Instr.dadd 0 0 0).ctorIdx ≤ i.ctorIdx

/-- The encodings of the scalar rows (R38-R41): each format's word gives back its fields. -/
theorem decodes_enc_scalar (i : Instr) (h : i.wf = true) (hs : i.Scalar) : ∃ e, enc i = some e ∧ Decodes e i := by
  cases i with
  | nop => exact ⟨_, rfl, decodes_encS (d := 0) (a := 0) (b := 0) (fn := 0) (by omega) fun sup p => by
      simp (disch := omega) [decWord, decSys, chk]⟩
  | fence s e => exact ⟨_, rfl, decodes_encS (by omega) fun sup p => by simp (disch := omega) [decWord, decSys_fence]⟩
  | trap | eret | ebreak | tfork | texit | tyield | tmark | safept | rclr =>
    exact ⟨_, rfl, decodes_encS (by omega) fun sup p => by simp (disch := omega) [decWord, decSys, chk]⟩
  | mfs d n | mts a n =>
    exact ⟨_, rfl, decodes_encS (by omega) fun sup p => by
      simp (disch := omega) [decWord, decSys, chk, sysListed_of_sysKnown sup h]⟩
  | add | sub | mul | mulh | mulhu | div | divu | rem | remu | and | or | xor | andn | orn | sll | srl | sra | rol | min | max
  | minu | maxu | clz | ctz | pop | sext | zext | bfx | bfi =>
    exact ⟨_, rfl, decodes_encA (by omega) fun sup p => by simp (disch := omega) [decWord, decAlu, chk]⟩
  | sel d a b k =>
    have hf : fld (29 + k.val * 64) 0 6 = 29 ∧ fld (29 + k.val * 64) 9 2 = 0 ∧ fld (29 + k.val * 64) 6 3 = k.val := by
      simp only [fld]; omega
    exact ⟨_, rfl, decodes_encA (by omega) fun sup p => by simp (disch := omega) [decWord, decAlu, chk, fld_encA_low, hf]⟩
  | addi d a imm | paddi d a imm =>
    exact ⟨_, rfl, decodes_encImmS h (by omega) (fun l hl => by simp (disch := omega) [acceptsOf, Accepts.immOnly])
      fun sup p l hl himm => by simp (disch := omega) [decWord, himm]⟩
  | andi d a imm | ori d a imm | xori d a imm =>
    exact ⟨_, rfl, decodes_encImmU h (by omega) (fun l hl => by simp (disch := omega) [acceptsOf, Accepts.immOnly])
      fun sup p l hl himm => by simp (disch := omega) [decWord, himm]⟩
  | slli d a n | srli d a n | srai d a n | roli d a n =>
    exact ⟨_, rfl, decodes_encI (by omega) fun sup p => by simp (disch := omega) [decWord, decShi_encI]⟩
  | lih d p i | lihK d p i =>
    exact ⟨_, rfl, decodes_encI (by omega) fun sup p => by simp (disch := omega) [decWord, decLih_encI]⟩
  | cmp p c u a b => exact ⟨_, rfl, decodes_cmp p c u a b⟩
  | cmpImm p c u a i => exact ⟨_, rfl, decodes_cmpImm p c u a i⟩
  | pand | por | pxor | pandn | pnot | pmov | pget =>
    exact ⟨_, rfl, decodes_encA (by omega) fun sup p => by simp (disch := omega) [decWord, decPred, chk]⟩
  | b d | bl d => exact ⟨_, rfl, decodes_branch _ (by omega) fun sup p w ho hd => by simp [decWord, ho, hd]⟩
  | bp p d => exact ⟨_, rfl, (decodes_bp p d).1⟩
  | bpNot p d => exact ⟨_, rfl, (decodes_bp p d).2⟩
  | jr | jlr =>
    exact ⟨_, rfl, decodes_encA (by omega) fun sup p => by simp (disch := omega) [decWord, decJr, chk]⟩
  | ldb t a d m | ldbu t a d m | ldh t a d m | ldhu t a d m | ldw t a d m | ldwu t a d m | ldd t a d m =>
    exact ⟨_, rfl, decodes_encDisp m h (by omega) (fun w hw => by simp [acceptsOf, hw, Accepts.immOnly])
      fun sup p l hl hd hm => by simp (disch := omega) [decWord, decLd, hd, hm]⟩
  | stb t a d m | sth t a d m | stw t a d m | std t a d m =>
    exact ⟨_, rfl, decodes_encDisp m h (by omega) (fun w hw => by simp [acceptsOf, hw, Accepts.immOnly])
      fun sup p l hl hd hm => by simp (disch := omega) [decWord, decSt, hd, hm]⟩
  | take t a d lp | peek t a d lp | give t a d lp | post t a d lp | void a d lp | probe t a d lp =>
    exact ⟨_, rfl, decodes_encSync lp h (by omega) fun sup p l hl hd hm => by
      simp (disch := omega) [decWord, decSync, chk, hd, hm]⟩
  | amoadd d a b lp | amoand d a b lp | amoor d a b lp | amoxor d a b lp | amomin d a b lp | amomax d a b lp | amominu d a b lp
  | amomaxu d a b lp | amoswap d a b lp | amocas d a b lp =>
    exact ⟨_, rfl, decodes_atom lp (by omega) fun sup p hp => by
      simp (disch := omega) [decWord, decAtom, chk, hp]⟩
  | dist | padd | pmk | pfld | pfix | leap | rput =>
    exact ⟨_, rfl, decodes_encA (by omega) fun sup p => by simp (disch := omega) [decWord, decFab, chk]⟩
  | rvinit | rvarr | rvwait | rvtest =>
    exact ⟨_, rfl, decodes_encM (by omega) fun sup p => by simp (disch := omega) [decWord, decRv, chk]⟩
  | jpush | barini | barexp | barwt =>
    exact ⟨_, rfl, decodes_encA (by omega) fun sup p => by simp (disch := omega) [decWord, decJob, chk]⟩
  | jpushW d a q =>
    have hf : fld 16 0 4 = 0 ∧ fld 16 4 1 = 1 ∧ fld 16 5 6 = 0 := by decide
    exact ⟨_, rfl, decodes_encA (by omega) fun sup p => by simp (disch := omega) [decWord, decJob, chk, fld_encA_low, hf]⟩
  | evsend | evnext | evnull | lkset =>
    exact ⟨_, rfl, decodes_encA (by omega) fun sup p => by simp (disch := omega) [decWord, decEvt, chk]⟩
  | dqpush | dqsplit | dqcnt =>
    exact ⟨_, rfl, decodes_encA (by omega) fun sup p => by simp (disch := omega) [decWord, decWork, chk]⟩
  | dqpop d k | dqsteal d k =>
    have hf (n : Nat) (hn : n < 16) : fld (n + k.val * 64) 0 4 = n ∧ fld (n + k.val * 64) 9 2 = 0 ∧ fld (n + k.val * 64) 4 2 = 0
        ∧ fld (n + k.val * 64) 6 3 = k.val := by simp only [fld]; omega
    exact ⟨_, rfl, decodes_encA (by omega) fun sup p => by simp (disch := omega) [decWord, decWork, chk, fld_encA_low, hf]⟩
  | _ => simp [Instr.wf, Instr.Scalar, Instr.ctorIdx] at h hs

/-- The encodings of the vector rows (R28, R33, R240, R249), with the fields of the vector pfx that each can use. -/
theorem decodes_enc_vector (i : Instr) (h : i.wf = true) (hs : ¬ i.Scalar) (hd : ¬ i.Dennum) : ∃ e, enc i = some e ∧ Decodes e i := by
  cases i with
  | vadd d a b e q | vsub d a b e q | vmul d a b e q | vdiv d a b e q =>
    obtain ⟨hq, he⟩ := Bool.and_eq_true_iff.mp h
    have hc := e.code_lt
    exact ⟨_, rfl, decodes_encV .vectorRnd (by omega) (by simp (disch := omega) [acceptsOf]) rfl hq
      fun sup p hp => by simp (disch := omega) [decWord, decVa, hp, he]⟩
  | vfma d a b e q | vfms d a b e q =>
    obtain ⟨hq, he⟩ : q.wf true true true = true ∧ e.upTo11 = true := Bool.and_eq_true_iff.mp h
    have hc := e.code_lt
    exact ⟨_, rfl, decodes_encV { Accepts.vectorRnd with vc := true } (by omega) (by simp (disch := omega) [acceptsOf]) rfl hq
      fun sup p hp => by simp (disch := omega) [decWord, decVa, hp, he]⟩
  | vmin d a b e q | vmax d a b e q | vabs d a e q | vneg d a e q | vmulh d a b e q =>
    obtain ⟨hq, he⟩ := Bool.and_eq_true_iff.mp h
    have hc := e.code_lt
    exact ⟨_, rfl, decodes_encV .vector (by omega) (by simp (disch := omega) [acceptsOf]) rfl hq
      fun sup p hp => by simp (disch := omega) [decWord, decVa, hp, he, chk]⟩
  | vand d a b e q | vor d a b e q | vxor d a b e q | vandn d a b e q =>
    have hc := e.code_lt
    exact ⟨_, rfl, decodes_encV .vector (by omega) (by simp (disch := omega) [acceptsOf]) rfl h
      fun sup p hp => by simp (disch := omega) [decWord, decVl, hp]⟩
  | vshl d a b e q | vshr d a b e q | vsra d a b e q =>
    obtain ⟨hq, he⟩ := Bool.and_eq_true_iff.mp h
    have hc := e.code_lt
    exact ⟨_, rfl, decodes_encV .vector (by omega) (by simp (disch := omega) [acceptsOf]) rfl hq
      fun sup p hp => by simp (disch := omega) [decWord, decVl, hp, he]⟩
  | vcmp m c a b e q =>
    obtain ⟨hq, he⟩ := Bool.and_eq_true_iff.mp h
    have hc := e.code_lt
    have hcc := c.code_lt
    exact ⟨_, rfl, decodes_encV .vector (by omega) (by simp (disch := omega) [acceptsOf]) rfl hq fun sup p hp => by
        simp (disch := omega) [decWord, decVc, hp, he, fld_encV_mask, fld_encV_cond]⟩
  | vsqrt d a e q | vrcp d a e q | vrsqrt d a e q | vexp2 d a e q | vlog2 d a e q | vtanh d a e q =>
    obtain ⟨hq, he⟩ := Bool.and_eq_true_iff.mp h
    have hc := e.code_lt
    exact ⟨_, rfl, decodes_encV .vectorRnd (by omega) (by simp (disch := omega) [acceptsOf]) rfl hq
      fun sup p hp => by simp (disch := omega) [decWord, decVs, hp, he, chk]⟩
  | vcvt d a t e q =>
    have hc := e.code_lt
    have ht := t.code_lt
    exact ⟨_, rfl, decodes_encV .vectorRnd (by omega) (by simp (disch := omega) [acceptsOf]) rfl h fun sup p hp => by
        simp (disch := omega) [decWord, decVx, hp, chk, fld_encV_dt, fld_encV_pad]⟩
  | vperm d a b e q | vslide d a b e q | vbcast d a e q | vextr d a b e q | vins d a b e q =>
    have hc := e.code_lt
    exact ⟨_, rfl, decodes_encV .vector (by omega) (by simp (disch := omega) [acceptsOf]) rfl h
      fun sup p hp => by simp (disch := omega) [decWord, decVp, hp, chk]⟩
  | vredsum d a e q =>
    obtain ⟨hq, he⟩ := Bool.and_eq_true_iff.mp h
    have hc := e.code_lt
    exact ⟨_, rfl, decodes_encV .vectorRnd (by omega) (by simp (disch := omega) [acceptsOf]) rfl hq
      fun sup p hp => by simp (disch := omega) [decWord, decVp, hp, he, chk]⟩
  | vredmax d a e q | vredmin d a e q =>
    obtain ⟨hq, he⟩ := Bool.and_eq_true_iff.mp h
    have hc := e.code_lt
    exact ⟨_, rfl, decodes_encV .vector (by omega) (by simp (disch := omega) [acceptsOf]) rfl hq
      fun sup p hp => by simp (disch := omega) [decWord, decVp, hp, he, chk]⟩
  | mand d a b q | mor d a b q | mxor d a b q | mnot d a q | mpop d a q | mfirst d a q | mset d a q | mget d a q =>
    exact ⟨_, rfl, decodes_encV .vector (by omega) (by simp (disch := omega) [acceptsOf]) rfl h
      fun sup p hp => by simp (disch := omega) [decWord, decVk, hp, chk]⟩
  | vld t a e rx q | vldx t i a e rx q =>
    have hc := e.code_lt
    exact ⟨_, rfl, decodes_vload rx (by omega) h fun sup p hp hrx => by simp (disch := omega) [decWord, decVm, hp, hrx, chk]⟩
  | vlds t w a b rx q =>
    exact ⟨_, rfl, decodes_vload rx (by omega) h fun sup p hp hrx => by simp (disch := omega) [decWord, decVm, hp, hrx, chk]⟩
  | vst t a e rx q | vstx t i a e rx q =>
    have hc := e.code_lt
    exact ⟨_, rfl, decodes_vstore rx (by omega) h fun sup p hp hrx => by simp (disch := omega) [decWord, decVm, hp, hrx, chk]⟩
  | vsts t w a b rx q =>
    exact ⟨_, rfl, decodes_vstore rx (by omega) h fun sup p hp hrx => by simp (disch := omega) [decWord, decVm, hp, hrx, chk]⟩
  | vstxa t i a e rx q =>
    obtain ⟨hq, he⟩ : q.wf false false false = true ∧ e.upTo11 = true := Bool.and_eq_true_iff.mp h
    have hc := e.code_lt
    exact ⟨_, rfl, decodes_vstore rx (by omega) hq fun sup p hp hrx => by
      simp (disch := omega) [decWord, decVm, hp, hrx, chk, he]⟩
  | amov t a q =>
    exact ⟨_, rfl, decodes_encVM { Accepts.vector with mem := true } false (by omega) (by simp (disch := omega) [acceptsOf])
      rfl (fun h => (nomatch h)) h fun sup p hp hrx => by simp (disch := omega) [decWord, decVm, hp, chk]⟩
  | aput t a q =>
    exact ⟨_, rfl, decodes_encVM { Accepts.vector with zero := false, mem := true } false (by omega)
      (by simp (disch := omega) [acceptsOf]) rfl (fun h => (nomatch h)) h fun sup p hp hrx => by
        simp (disch := omega) [decWord, decVm, hp, chk]⟩
  | _ => simp [Instr.wf, Instr.Scalar, Instr.Dennum, Instr.ctorIdx] at h hs hd

/-- The encodings of the dennum rows (R38, R41). -/
theorem decodes_enc_dennum (i : Instr) (h : i.wf = true) (hs : i.Dennum) : ∃ e, enc i = some e ∧ Decodes e i := by
  cases i with
  | dadd | dsub | dmul | ddiv | dfma | dsqrt | dneg | dabs | dmov | dround =>
    exact ⟨_, rfl, decodes_encA (by omega) fun sup p => by simp (disch := omega) [decWord, decDa, chk]⟩
  | dcmp p c a b =>
    have hc := c.code_lt
    have hf : fld (10 + c.code * 16) 0 4 = 10 ∧ fld (10 + c.code * 16) 4 3 = c.code ∧ fld (10 + c.code * 16) 7 4 = 0 := by
      simp only [fld]; omega
    exact ⟨_, rfl, decodes_encA (by omega) fun sup p => by simp (disch := omega) [decWord, decDa, chk, fld_encA_low, hf]⟩
  | dcvtf | dcvtd | dcvti | dcvtdi | dhead | dclass =>
    exact ⟨_, rfl, decodes_encA (by omega) fun sup p => by simp (disch := omega) [decWord, decDx, chk]⟩
  | ldn t a d | stn t a d =>
    exact ⟨_, rfl, decodes_encDisp .plain h (by omega) (fun w hw => by simp [acceptsOf, hw, Accepts.immOnly])
      fun sup p l hl hd hm => by simp (disch := omega) [decWord, decDm, chk, hd]⟩
  | prec n p =>
    obtain ⟨h8, h4096⟩ : 8 ≤ p ∧ p ≤ 4096 := by simpa [Instr.wf, precWf] using h
    exact ⟨_, rfl, decodes_encI (by omega) fun sup q => by
      simp (disch := omega) [decWord, decPrec, chk, h8, h4096]⟩
  | precReg n a =>
    have ha : a ≠ 0 := of_decide_eq_true h
    exact ⟨_, rfl, decodes_encI (by omega) fun sup q => by
      simp (disch := omega) [decWord, decPrec, chk, ha]⟩
  | _ => simp [Instr.wf, Instr.Dennum, Instr.ctorIdx] at h hs

/-- Every well-formed instruction has an encoding, which decodes to it. -/
theorem decodes_enc (i : Instr) (h : i.wf = true) : ∃ e, enc i = some e ∧ Decodes e i := by
  by_cases hs : i.Scalar
  · exact decodes_enc_scalar i h hs
  · by_cases hd : i.Dennum
    · exact decodes_enc_dennum i h hd
    · exact decodes_enc_vector i h hs hd

/-- Settles O51: the words of an encoding are read back one by one, and its instruction word by its fields. -/
theorem decodeOfEncode : Obligations.DecodeOfEncode := by
  unfold Obligations.DecodeOfEncode
  intro i h sup rest
  obtain ⟨e, he, hdec⟩ := decodes_enc i h
  simp only [encode, he]
  exact hdec sup rest

/-- Settles O52, by decoding each of the eight words. -/
theorem sampleWordsDecode : Obligations.SampleWordsDecode := by
  unfold Obligations.SampleWordsDecode
  decide

end Sys2Proof

/-! ## The step of an issue: the words at the PC are fetched one by one until they decode (R22, R27, R75, R78, R87) -/

namespace Sys2Proof.Machine

open Sys2Proof.Claims

/-! ### Decoding more words of a unit -/

/-- Where the words at hand decode, or are refused, further words change nothing, and the unit is no longer than they are. -/
theorem decFrom_append {sup : Bool} (ys : List (BitVec 32)) : ∀ (xs : List (BitVec 32)) (p : Pfxs) (pos : Nat),
    decFrom sup p pos xs ≠ .more → decFrom sup p pos (xs ++ ys) = decFrom sup p pos xs
      ∧ ∀ i n, decFrom sup p pos xs = .unit i n → n ≤ pos + xs.length
  | [], p, pos, h => absurd rfl h
  | x :: xs, p, pos, h => by
    have ih := decFrom_append (sup := sup) ys xs
    simp only [List.cons_append, decFrom, List.length_cons] at h ⊢
    by_cases hp : isPfx x.toNat = true
    · by_cases hr : pfxReserved x.toNat = true
      · simp [hp, hr]
      · by_cases h2 : pos = 2
        · simp [hp, hr, h2]
        · cases ha : addPfx p x.toNat pos with
          | none => simp [hp, hr, h2]
          | some p' =>
            simp only [hp, hr, h2, ha, if_true, if_false, Bool.false_eq_true] at h ⊢
            obtain ⟨heq, hle⟩ := ih p' (pos + 1) h
            exact ⟨heq, fun i n hi => by have := hle i n hi; omega⟩
    · simp only [hp, if_false, Bool.false_eq_true, true_and]
      intro i n hi
      split at hi
      · simp at hi
      · simp at hi
      · split at hi
        · simp at hi
        · simp only [Decoded.unit.injEq] at hi; omega

/-- Before its last word a unit is not complete. -/
theorem decodeUnit_of_lt {sup : Bool} {xs ys : List (BitVec 32)} {i : Instr} (hys : ys ≠ [])
    (h : decodeUnit sup (xs ++ ys) = .unit i (xs ++ ys).length) : decodeUnit sup xs = .more := by
  by_contra hne
  obtain ⟨heq, hle⟩ := decFrom_append ys xs Pfxs.none 0 hne
  have hlen := hle i _ (heq.symm.trans h)
  have := List.length_pos_iff.mpr hys
  rw [List.length_append] at hlen
  omega

/-! ### Fetching a unit -/

theorem fetchWord_of_codeAt {s : State} {th : Thread} {j : Nat} {w : BitVec 32} (h : CodeAt s th j w) :
    fetchWord s th (offBy th.pc (4 * j)) = (s, .word w (fetchLat s th (offBy th.pc (4 * j)))) := by
  obtain ⟨hkind, hlim, hal, k, hkey, hpois, rfl⟩ := h
  have hk : (decide (pKind (offBy th.pc (4 * j)) = 0) || decide (pKind (offBy th.pc (4 * j)) = 2) || decide (pKind (offBy th.pc (4 * j)) = 3)
      || decide (pKind (offBy th.pc (4 * j)) = 4)) = true := by simpa [or_assoc] using hkind
  simp [fetchWord, hk, hlim, hal, hkey, hpois]

/-- One word of a fetch. The reading and the decoding of a word are held opaque while the recursion is unfolded: the kernel would
else run them on the symbolic word. -/
theorem fetchFrom_of_word {s s1 : State} {th : Thread} {fx n l : Nat} {ws : List (BitVec 32)} {w : BitVec 32}
    (hw : fetchWord s th (offBy th.pc (4 * ws.length)) = (s1, .word w l)) :
    (∀ i k, decodeUnit th.sup (ws ++ [w]) = .unit i k →
      fetchFrom s th fx (n + 1) ws = (s1, .ready i k w, if ws.isEmpty then l else fx))
    ∧ (decodeUnit th.sup (ws ++ [w]) = .more →
      fetchFrom s th fx (n + 1) ws = fetchFrom s1 th (if ws.isEmpty then l else fx) n (ws ++ [w])) := by
  obtain ⟨body, hb⟩ : ∃ g, g = @fetchFrom := ⟨_, rfl⟩
  obtain ⟨word, hword⟩ : ∃ g, g = fetchWord := ⟨_, rfl⟩
  obtain ⟨dec, hdec⟩ : ∃ g, g = decodeUnit := ⟨_, rfl⟩
  rw [← hb, ← hdec]
  rw [← hword] at hw
  delta fetchFrom fetchFrom._f at hb
  rw [← hword, ← hdec] at hb
  clear hword hdec
  have e : body s th fx (n + 1) ws = match word s th (offBy th.pc (4 * ws.length)) with
      | (s1, .bad c i h) => (s1, .bad (offBy th.pc (4 * ws.length)) c i h, fx)
      | (s1, .word w l) =>
        match dec th.sup (ws ++ [w]) with
        | .unit i k => (s1, .ready i k w, if ws.isEmpty then l else fx)
        | .bad f k => (s1, .refused f k w, if ws.isEmpty then l else fx)
        | .more => body s1 th (if ws.isEmpty then l else fx) n (ws ++ [w]) := by
    clear hw
    subst hb
    rfl
  rw [e, hw]
  exact ⟨fun i k h => by simp only [h], fun h => by simp only [h]⟩
/-- The words of a unit that are still to be fetched, after those at hand. -/
theorem fetchFrom_of_codeAt {s : State} {th : Thread} {i : Instr} : ∀ (n : Nat) (done todo : List (BitVec 32)) (fx : Nat),
    todo ≠ [] → todo.length ≤ n → decodeUnit th.sup (done ++ todo) = .unit i (done ++ todo).length →
    (∀ j w, (done ++ todo)[j]? = some w → CodeAt s th j w) → (done ≠ [] → fx = fetchLat s th (offBy th.pc 0)) →
    fetchFrom s th fx n done
      = (s, .ready i (done ++ todo).length ((done ++ todo).getLastD 0), fetchLat s th (offBy th.pc 0))
  | 0, done, todo, fx, hne, hn, _, _, _ => absurd (List.length_eq_zero_iff.mp (Nat.le_zero.mp hn)) hne
  | n + 1, done, [], fx, hne, _, _, _, _ => absurd rfl hne
  | n + 1, done, w :: rest, fx, _, hn, hdec, hcode, hfx => by
    have hw := fetchWord_of_codeAt (hcode done.length w (by simp))
    obtain ⟨hlast, hmore⟩ := fetchFrom_of_word (fx := fx) (n := n) hw
    have hlat : (if done.isEmpty then fetchLat s th (offBy th.pc (4 * done.length)) else fx) = fetchLat s th (offBy th.pc 0) := by
      cases done with
      | nil => simp only [List.isEmpty_nil, if_true, List.length_nil, Nat.mul_zero]
      | cons x xs => exact hfx (by simp)
    have happ : done ++ w :: rest = done ++ [w] ++ rest := by simp
    rw [happ] at hdec hcode ⊢
    cases rest with
    | nil =>
      rw [List.append_nil] at hdec ⊢
      rw [hlast _ _ hdec, hlat, List.getLastD_concat]
    | cons x xs =>
      rw [hmore (decodeUnit_of_lt (by simp) hdec), hlat]
      exact fetchFrom_of_codeAt n (done ++ [w]) (x :: xs) _ (by simp) (by simpa using hn) hdec hcode fun _ => rfl

theorem fetchUnit_of_codeAt {s : State} {th : Thread} {i : Instr} {ws : List (BitVec 32)} (hlen : ws.length ≤ 3)
    (hdec : decodeUnit th.sup ws = .unit i ws.length) (hcode : ∀ j w, ws[j]? = some w → CodeAt s th j w) :
    fetchUnit s th = (s, .ready i ws.length (ws.getLastD 0), fetchLat s th (offBy th.pc 0)) := by
  have hne : ws ≠ [] := by rintro rfl; cases hdec
  exact fetchFrom_of_codeAt 3 [] ws 0 hne hlen hdec hcode fun h => absurd rfl h

/-! ### The turn of a thread -/

@[simp] theorem markPc_behind (s : State) (th : Thread) : (markPc s th).behind = s.behind := by
  unfold markPc; split <;> rfl

theorem issueUnit_of_codeAt {s : State} {u : Nat} {th : Thread} {i : Instr} {ws : List (BitVec 32)} (hlate : th.late = [])
    (hbreak : breakHit s th th.pc = none) (hbehind : s.behind = none) (hlen : ws.length ≤ 3)
    (hdec : decodeUnit th.sup ws = .unit i ws.length) (hcode : ∀ j w, ws[j]? = some w → CodeAt s th j w) :
    issueUnit s u th = .run i { s with cur := some (curFor u th ws.length (fetchLat s th (offBy th.pc 0)) (ws.getLastD 0)) } := by
  simp [issueUnit, hlate, hbreak, fetchUnit_of_codeAt hlen hdec hcode, hbehind]

/-- Where nothing else is due first, what happens next is the turn of the first ready thread of the lowest core. -/
theorem choose_of_issues {s : State} {t u : Nat} {th : Thread} (h : Issues s t u th) :
    choose s = issueTurn (markPc { s with issueFrom := t + 1 } th) u th := by
  obtain ⟨hcal, hagenda, hfrozen, hpolled, hquiet, harr, -, htile, hthread, -⟩ := h
  have hc : ¬ s.calend < now s / 64 := Nat.not_lt.mpr hcal
  simp [choose, hfrozen, hc, hagenda, running, hpolled, hquiet, issueNext, harr, htile, hthread]

/-- Settles O53: the turn is that thread's, and fetching its words ends with the word that completes the unit. -/
theorem stepRunsUnit : Obligations.StepRunsUnit := by
  unfold Obligations.StepRunsUnit
  intro s t u th ws i hiss s0 hmiss hbreak hcode hlen hdec
  have hturn := choose_of_issues hiss
  obtain ⟨-, -, -, -, -, -, hbehind, -, -, hlate⟩ := hiss
  have hrun := issueUnit_of_codeAt (u := u) hlate hbreak ((markPc_behind _ _).trans hbehind) hlen hdec hcode
  have hissue : issueTurn s0 u th = issueUnit s0 u th := by simp [issueTurn, hlate, hbreak, hmiss]
  simp only [step, hturn]
  rw [hissue, hrun]
  rfl

end Sys2Proof.Machine

/-! ## Software traps, breakpoints and units that do not decode (R34, R35, R92, R266, R399) -/

namespace Sys2Proof.Machine

open Sys2Proof.Claims

/-- A unit that enters an act of its own under a fresh number, and works on its thread alone otherwise. -/
theorem apart_schedAt_freshId {s t : State} {c : Cur} (h : Apart s t c) (f : Thread → Thread) (k : Nat) (a : Act) :
    Apart s { schedAt (modThread (freshId t) c.uid f) k a with agenda := s.agenda, nextId := s.nextId } c := by
  obtain ⟨-, -, hagenda⟩ := apart_time_agenda h
  have hid : t.nextId = s.nextId := by have := congrArg State.nextId h.2.1; exact this
  have e : { schedAt (modThread (freshId t) c.uid f) k a with agenda := s.agenda, nextId := s.nextId } = modThread t c.uid f := by
    rw [← hagenda, ← hid]; rfl
  rw [e]
  exact apart_modThread h f

/-- A fault delivered at the end of its unit's latency (R266): till then the thread waits as for an access. -/
theorem faultsLater_raiseEnd {s : State} {c : Cur} {th : Thread} (lat cause : Nat) (addr info : Word)
    (h : threadOf s c.uid = some th) : FaultsLater s c th cause addr info lat (raiseEnd lat s c cause addr info 0) := by
  have hi := threadOf_issued_self s c th h
  have hapart := apart_issued s c th h
  obtain ⟨-, htsc, hagenda⟩ := apart_time_agenda hapart
  refine ⟨_, _, { uid := c.uid, fid := s.nextId, part := 2, addr := 0, stub := none, res := .done [] 0 },
    threadOf_modThread_some (s := freshId (issued s c)) _ hi, rfl, rfl, rfl, rfl, rfl, rfl, rfl, rfl, rfl, rfl, rfl,
    rfl, rfl, rfl, rfl, rfl, ?_, apart_schedAt_freshId hapart _ _ _⟩
  show enterTimed (issued s c).agenda { cycle := _, late := false, age := (issued s c).tsc, src := 0, act := _ } = _
  rw [hagenda, htsc]

/-- A user-class fault of a unit that has made no progress (R141, R146, R147). -/
theorem takesUser_raise_zero {s : State} {c : Cur} {th : Thread} (cause : Nat) (addr info : Word) (h : Executing s c th)
    (hc : causeClass cause = 0) : TakesUser s c th cause addr info (raise s c cause addr info 0) := by
  obtain ⟨-, ht, he⟩ := h
  simpa using takesUser_raise s c th cause addr info 0 ht he hc

theorem trapRaises : TrapRaises := fun _ _ _ _ h =>
  ⟨_, unit_ready _ h, takesUser_raise_zero 0x17 0 _ h.1 rfl⟩

/-- A debug fault (R92, R399): its thread and the record it leaves. -/
theorem threadOf_deliverDebug {s : State} {u : Nat} {th : Thread} (f : FaultIn) (r : Nat) (h : threadOf s u = some th) :
    threadOf (deliverDebug s u th f r) u = some (if (partOf s th.partn).trace.dbqb = 0 then
      { faulted r f th with stopped := true, fr := f.record } else { faulted r f th with held := true, debugged := true, fr := f.record }) := by
  unfold deliverDebug
  split
  · rw [threadOf_postStop, threadOf_modThread_some _ h]
  · split
    · rw [threadOf_modThread_some _ h]
    · exact threadOf_modThread_some _ h

theorem partOf_of_apart {s t : State} {c : Cur} (h : Apart s t c) (n : Nat) : partOf t n = partOf s n := by
  have hparts : t.parts = s.parts := by have := congrArg State.parts h.2.1; exact this
  rw [partOf, partOf, hparts]

/-- A debug fault found in execution (R92, R399): held for the agent, or stopped where none is attached. -/
theorem threadOf_raise_debug {s : State} {c : Cur} {th : Thread} (info : Word) (h : Executing s c th) (f : FaultIn)
    (hf : f = { cause := 0x18, addr := 0, info := info, progress := 0, fpc := c.fpc, tick := now s, host := false }) :
    threadOf (raise s c 0x18 0 info 0) c.uid = some (if (partOf s th.partn).trace.dbqb = 0 then
      { faulted (s.cycle + c.fx + 8) f th with stopped := true, fr := f.record }
      else { faulted (s.cycle + c.fx + 8) f th with held := true, debugged := true, fr := f.record }) := by
  obtain ⟨-, ht, he⟩ := h
  have hi := threadOf_issued_self s c th ht
  subst hf
  rw [← partOf_of_apart (apart_issued s c th ht), raise, raiseAt, takeFault, hi]
  simp only [he, Bool.false_eq_true, if_false]
  exact threadOf_deliverDebug _ _ hi

theorem record_debug (s : State) (c : Cur) (info : Word) :
    FaultIn.record { cause := 0x18, addr := 0, info := info, progress := 0, fpc := c.fpc, tick := now s, host := false }
      = recordOf s c 0x318 0 info := by
  simp [FaultIn.record, FaultIn.fcause, causeClass, recordOf, now]

theorem ebreakDebugFault : EbreakDebugFault := by
  intro s c th imm h
  refine ⟨_, _, unit_ready _ h, threadOf_raise_debug _ h.1 _ rfl, ?_⟩
  rw [record_debug]
  split
  · exact ⟨rfl, rfl, rfl, rfl, rfl, rfl⟩
  · exact ⟨rfl, rfl, rfl, rfl, rfl, rfl, rfl⟩

theorem illegalFaults : IllegalFaults := by
  intro s c th f h hc major
  have hexec (k : Cur → Thread → State) : withCur s k = .next (k c th) := withCur_of_executing h k
  constructor
  · intro hmajor
    refine ⟨raise s c f.cause 0 (decodeInfo f) 0, ?_, takesUser_raise_zero f.cause 0 _ h hc⟩
    show execIllegalInstruction f s = _
    rw [execIllegalInstruction, hexec, dennumWord, decide_eq_false hmajor, if_neg Bool.false_ne_true]
  · intro hmajor
    refine ⟨raiseEnd 8 s c f.cause 0 (decodeInfo f) 0, ?_, faultsLater_raiseEnd 8 f.cause 0 _ h.2.1⟩
    show execIllegalInstruction f s = _
    rw [execIllegalInstruction, hexec, dennumWord, decide_eq_true hmajor, if_pos rfl]

/-- Settles O7: traps by the delivery of a user-class fault, breakpoints by that of a debug fault, and units that do not decode by
the one or, in the majors of the dennum unit, by a fault at the end of the latency. -/
theorem trapsTaken : Obligations.TrapsTaken := by
  unfold Obligations.TrapsTaken
  exact ⟨trapRaises, ebreakDebugFault, illegalFaults⟩

end Sys2Proof.Machine

/-! ## What a scalar access is checked for before it is sent (R25, R88, R169, R185) -/

namespace Sys2Proof.Machine

open Sys2Proof.Claims

/-! ### A fault leaves the numbers that are given out -/

theorem issued_nextId (s : State) (c : Cur) : (issued s c).nextId = s.nextId := by unfold issued; split <;> rfl

theorem postStop_nextId (s : State) (th : Thread) (f : FaultIn) (fl : Nat) : (postStop s th f fl).nextId = s.nextId := by
  unfold postStop
  split
  · rfl
  · dsimp only; split <;> rfl

theorem raise_nextId {s : State} {c : Cur} {cause : Nat} (addr info : Word) (progress : Nat) (hc : causeClass cause = 0) :
    (raise s c cause addr info progress).nextId = s.nextId := by
  rw [raise, raiseAt, takeFault]
  split
  · exact issued_nextId s c
  · split
    · exact issued_nextId s c
    · simp only [hc, deliverUser]
      split
      · rw [escalate, postStop_nextId, modThread_nextId, issued_nextId]
      · rw [modThread_nextId, issued_nextId]

/-! ### The access of a unit -/

/-- An access as the machine makes it is the one that the page of its instruction gives. -/
def Scalar.Makes (y : Scalar) (x : Access) : Prop :=
  y.n = x.n ∧ y.sync = x.sync ∧ y.spad = x.spad ∧ y.wk = x.kind ∧ y.op = x.op ∧ y.fl = x.fl

/-- The unit makes the access, then at most marks a destination that the access will fill: only where a request was sent. -/
def RunsAccess (s : State) (c : Cur) (th : Thread) (x : Access) (o : Host.Outcome State Fault Refusal) : Prop :=
  ∃ (y : Scalar) (mark : State → State), y.Makes x ∧ (∀ t, t.nextId = s.nextId → mark t = t)
    ∧ o = .next (mark (scalarAccess s c th x.base x.ea y x.mode))

section
variable {s : State} {c : Cur} {th : Thread} {x : Access}

theorem runsAccess_unit {n : Need} {k : Cur → Thread → State} (h : Ready s c th n) (y : Scalar) (hy : y.Makes x)
    (hk : k c th = scalarAccess s c th x.base x.ea y x.mode) : RunsAccess s c th x (unit s n k) :=
  ⟨y, id, hy, fun _ _ => rfl, by rw [unit_ready k h, hk]; rfl⟩

theorem need_rx (m : MemMode) : decide (m ≠ .relaxed) = !isRx m := by cases m <;> rfl

/-- A relaxed access that finds a place free does not park (R56). -/
theorem relaxedRoom_of_free {m : MemMode} (h : m = .relaxed → rxCount th < 8) (k : State) : relaxedRoom s c th (isRx m) k = k := by
  cases m with
  | relaxed => simp [relaxedRoom, isRx, Nat.not_le.mpr (h rfl)]
  | plain | leap => rfl

theorem loadUnit_runs {t a : SReg} {d : Int} {m : MemMode} {n : Nat} {sx : Bool} (h : (plainForm.load th t a d m n sx).ready s c th) :
    RunsAccess s c th (plainForm.load th t a d m n sx) (loadUnit s t a d m n sx) := by
  obtain ⟨hr, hroom⟩ := h
  simp only [plainForm.load, need_rx] at hr
  refine ⟨⟨n, false, false, 1, .load n, .loadS t n sx, 0, [], if sx then 1 else 2, t.val⟩,
    fun s1 => if isRx m && decide (s1.nextId ≠ s.nextId) then modThread s1 c.uid (sOutstanding t) else s1,
    ⟨rfl, rfl, rfl, rfl, rfl, rfl⟩, fun t ht => by simp [ht], ?_⟩
  rw [loadUnit, unit_ready _ hr, relaxedRoom_of_free (m := m) hroom]
  rfl

theorem storeUnit_runs {t a : SReg} {d : Int} {m : MemMode} {n : Nat} (h : (plainForm.store th t a d m n).ready s c th) :
    RunsAccess s c th (plainForm.store th t a d m n) (storeUnit s t a d m n) := by
  obtain ⟨hr, hroom⟩ := h
  simp only [plainForm.store, need_rx] at hr
  exact runsAccess_unit hr _ ⟨rfl, rfl, rfl, rfl, rfl, rfl⟩ (relaxedRoom_of_free hroom _)

theorem amoUnit_runs {d a b : SReg} {lp : Bool} {f : AmoOp} (hf : f ≠ .cas) (h : (wordForm.amo th d a b lp f).ready s c th) :
    RunsAccess s c th (wordForm.amo th d a b lp f) (amoUnit s d a b lp f) := by
  obtain ⟨hr, -⟩ := h
  simp only [amoUnit, hf, decide_false, Bool.false_eq_true, if_false]
  exact runsAccess_unit hr _ ⟨rfl, rfl, rfl, rfl, rfl, rfl⟩ rfl

theorem bits_zero_eq (v : Word) (n : Nat) : bits v 0 n = v.toNat % 2 ^ n := by simp [bits]

theorem barUnit_runs {a b : SReg} {op : Nat → AccOp} (pres : Nat) (h : (wordForm.bar th a b 2 (op ((sget th b).toNat % 2 ^ 31))).ready s c th) :
    RunsAccess s c th (wordForm.bar th a b 2 (op ((sget th b).toNat % 2 ^ 31))) (barUnit s a b op pres) := by
  obtain ⟨hr, -⟩ := h
  exact runsAccess_unit hr _ ⟨rfl, rfl, rfl, rfl, by rw [bits_zero_eq]; rfl, rfl⟩ rfl

theorem bit_eq_getLsbD (v : Word) : bit v 0 = v.getLsbD 0 := by
  rw [bit, bits_zero_eq, Nat.pow_one, BitVec.getLsbD, Nat.testBit_zero]

theorem execProbe_runs {k : PReg} {a : SReg} {d : Int} {lp : Bool}
    (h : (wordForm.sync th [a] [] a d lp 1 .probe (.probe k)).ready s c th) :
    RunsAccess s c th (wordForm.sync th [a] [] a d lp 1 .probe (.probe k)) (execProbe k a d lp s) := by
  obtain ⟨hr, -⟩ := h
  refine ⟨{ n := 8, sync := true, spad := false, wk := 1, op := .probe, fl := .probe k, pres := 0, data := [], code := 4, reg := k.val },
    fun s1 => if s1.nextId ≠ s.nextId then modThread s1 c.uid (pclear k) else s1, ⟨rfl, rfl, rfl, rfl, rfl, rfl⟩, fun t ht => by simp [ht], ?_⟩
  exact unit_ready _ hr

/-- Every scalar memory instruction makes the access of its page. -/
theorem exec_runsAccess {i : Instr} (hform : accessForm th i = some x) (h : x.ready s c th) : RunsAccess s c th x (exec i s) := by
  cases i with
  | ldb | ldbu | ldh | ldhu | ldw | ldwu | ldd => cases Option.some.inj hform; exact loadUnit_runs h
  | stb | sth | stw | std => cases Option.some.inj hform; exact storeUnit_runs h
  | take | peek | give | post | void =>
    cases Option.some.inj hform
    exact runsAccess_unit h.1 _ ⟨rfl, rfl, rfl, rfl, rfl, rfl⟩ rfl
  | probe => cases Option.some.inj hform; exact execProbe_runs h
  | amoadd | amoand | amoor | amoxor | amomin | amomax | amominu | amomaxu | amoswap =>
    cases Option.some.inj hform
    exact amoUnit_runs (by decide) h
  | amocas =>
    cases Option.some.inj hform
    exact runsAccess_unit h.1 _ ⟨rfl, rfl, rfl, rfl, rfl, rfl⟩ rfl
  | barini => cases Option.some.inj hform; exact barUnit_runs 7 h
  | barexp => cases Option.some.inj hform; exact barUnit_runs 8 h
  | barwt =>
    cases Option.some.inj hform
    exact runsAccess_unit h.1 _ ⟨rfl, rfl, rfl, rfl, congrArg AccOp.barwt (bit_eq_getLsbD _), rfl⟩ rfl
  | _ => simp [accessForm, plainForm, wordForm] at hform

/-- Where the access ends in a fault, so does its instruction. -/
theorem access_faults {i : Instr} {cause : Nat} {addr info : Word} (hform : accessForm th i = some x) (h : x.ready s c th)
    (hc : causeClass cause = 0)
    (hf : ∀ y : Scalar, y.Makes x → scalarAccess s c th x.base x.ea y x.mode = raise s c cause addr info 0) :
    ∃ t, exec i s = .next t ∧ TakesUser s c th cause addr info t := by
  obtain ⟨y, mark, hy, hmark, he⟩ := exec_runsAccess hform h
  refine ⟨_, ?_, takesUser_raise_zero cause addr info h.1.1 hc⟩
  rw [he, hf y hy, hmark _ (raise_nextId addr info 0 hc)]

end

/-! ### The checks at issue (R88) -/

theorem checkPtr_eq (s : State) (th : Thread) (p : Ptr) (n : Nat) (sync spad : Bool) :
    checkPtr s th p n sync spad =
      if limitsOf s th.partn p ≠ 0 then some (0x08, limitsOf s th.partn p)
      else if (sync = true ∧ p.toNat / 2 ^ 60 = 5) ∨ (spad = true ∧ p.toNat / 2 ^ 60 ≠ 0) then some (0x08, 4)
      else if p.toNat / 2 ^ 60 = 6 ∧ th.sup = false then some (0x04, 0)
      else if p.toNat % 2 ^ 46 % n ≠ 0 then some (0x07, n) else none := by
  simp only [checkPtr, Bool.or_eq_true, Bool.and_eq_true, decide_eq_true_eq]
  rfl

theorem scalarAccess_of_check {s : State} {c : Cur} {th : Thread} {x : Access} {y : Scalar} {p : Ptr} {cause info : Nat} (base : Word)
    (m : MemMode) (hy : y.Makes x) (h : checkPtr s th p x.n x.sync x.spad = some (cause, info)) :
    scalarAccess s c th base (some p) y m = raise s c cause p (BitVec.ofNat 64 info) 0 := by
  obtain ⟨hn, hsync, hspad, -⟩ := hy
  simp only [scalarAccess, hn, hsync, hspad, h]

theorem issueChecks : IssueChecks := by
  intro i s c th x hform h
  refine ⟨fun hea => access_faults hform h rfl fun y _ => by rw [hea]; rfl, fun p hea => ?_⟩
  have faults (cause info : Nat) (hc : causeClass cause = 0) (hk : checkPtr s th p x.n x.sync x.spad = some (cause, info)) :
      ∃ t, exec i s = .next t ∧ TakesUser s c th cause p (BitVec.ofNat 64 info) t :=
    access_faults hform h hc fun y hy => by rw [hea]; exact scalarAccess_of_check _ _ hy hk
  refine ⟨fun hl => faults _ _ rfl ?_, fun hl hb => faults _ _ rfl ?_, fun hl hb hctrl => faults _ _ rfl ?_,
    fun hl hb hctrl ho => faults _ _ rfl ?_⟩
  · rw [checkPtr_eq, if_pos hl]
  · rw [checkPtr_eq, if_neg (not_not.mpr hl), if_pos hb]
  · rw [checkPtr_eq, if_neg (not_not.mpr hl), if_neg hb, if_pos hctrl]
  · rw [checkPtr_eq, if_neg (not_not.mpr hl), if_neg hb, if_neg hctrl, if_pos ho]

/-! ### The charge at issue (R185) -/

/-- The bits that the access of an instruction moves (R182). -/
theorem opBits_of_accessForm {th : Thread} {i : Instr} {x : Access} (h : accessForm th i = some x) :
    opBits x.op = match x.op with | .amo .cas _ _ => 320 | .amo _ _ _ => 256 | _ => 192 := by
  cases i with
  | ldb | ldbu | ldh | ldhu | ldw | ldwu | ldd | stb | sth | stw | std | take | peek | give | post | void | probe
  | amoadd | amoand | amoor | amoxor | amomin | amomax | amominu | amomaxu | amoswap | amocas | barini | barexp | barwt =>
    cases Option.some.inj h; rfl
  | _ => simp [accessForm, plainForm, wordForm] at h

theorem scalarCharge_eq_accessCharge {s : State} {th : Thread} {i : Instr} {x : Access} (p : Ptr) (h : accessForm th i = some x) :
    scalarCharge s th p x.op = accessCharge s th p x.op := by
  unfold scalarCharge accessCharge
  cases frameOf s th.partn with
  | none => rfl
  | some f =>
    exact congrArg (fun b => if pKind p = 6 then 0 else b * lenTo s th.tile (placeIn f 0 p)) (opBits_of_accessForm h)

section
variable {s : State} {c : Cur} {th : Thread}

theorem metered_traps {ch : Nat} (p : Word) (progress : Nat) (k : State → State) (hcnt : th.meter.cnt = true) (h : meterTraps th ch = true) :
    metered s c th p ch progress k = raise s c 0x0F p (BitVec.ofNat 64 ch) progress := by
  simp [metered, hcnt, h]

/-- Outside a redundant pair an access goes to the meter at once. -/
theorem fetchAccess_unpaired (p : Ptr) (y : Scalar) (rx : Bool) (ht : threadOf s c.uid = some th) (hr : th.role = 0) :
    fetchAccess s c th p y rx = metered s c th p (scalarCharge s th p y.op) 0 fun s1 =>
      startFlight s1 c th rx y.fl 1 (scalarCharge s th p y.op) [[{ part := 0, ptr := p, op := y.op, line := none }]] := by
  unfold fetchAccess
  split
  · simp [lvRoom, mateOf_unpaired ht hr]
  · rw [gate_unpaired _ _ _ _ _ hr]

/-- An access that passes its checks and is made from its tile. -/
theorem scalarAccess_here {x : Access} {y : Scalar} {p : Ptr} (base : Word) (hy : y.Makes x)
    (hcheck : checkPtr s th p x.n x.sync x.spad = none) (hwatch : watchHit s th p x.kind = none) (hhere : x.here s th p) :
    scalarAccess s c th base (some p) y x.mode = fetchAccess s c th p y (isRx x.mode) := by
  obtain ⟨hn, hsync, hspad, hwk, -⟩ := hy
  simp only [scalarAccess, hn, hsync, hspad, hwk, hcheck, hwatch]
  cases hm : x.mode with
  | plain | relaxed => rfl
  | leap =>
    simp only [leapAccess]
    split
    next dst off hpl => rw [if_pos (hhere hm dst off hpl)]; rfl
    next => rfl

end

theorem accessMeterTraps : AccessMeterTraps := by
  intro i s c th x p hform h hr hea hcheck hwatch hhere hcnt htrap hlt
  have ht : threadOf s c.uid = some th := h.1.1.2.1
  refine access_faults hform h rfl fun y hy => ?_
  have hop : y.op = x.op := hy.2.2.2.2.1
  rw [hea, scalarAccess_here _ hy hcheck hwatch hhere, fetchAccess_unpaired _ _ _ ht hr, hop, scalarCharge_eq_accessCharge p hform]
  exact metered_traps _ _ _ hcnt (by simp [meterTraps, hcnt, htrap, hlt])

/-- Settles O10: each failing check and each charge past the limit is the fault in which the access of the instruction ends. -/
theorem accessChecks : Obligations.AccessChecks := by
  unfold Obligations.AccessChecks
  exact ⟨issueChecks, accessMeterTraps⟩

end Sys2Proof.Machine

/-! ## The end of a job where the table of clusters is out of order (R284, R335) -/

namespace Sys2Proof.Machine

open Sys2Proof.Claims

/-- The command of a member of a team collective of n elements: allreduce, collective 0 of team 0. -/
def teamColl (jid n : Nat) : Job :=
  { jid := jid, uid := 0, tid := 0, partn := 0, serial := 0, tile := 0, reg := 0, enq := 0, cmd := 0, w0 := 0, w1 := 0,
    w2 := BitVec.ofNat 64 (n * 2 ^ 32), w3 := 0x1501000000000000, seg := 0, done := 0, half := [], skipped := false, owed := 0,
    ran := false }

/-- The member of rank 0 of two, of no elements, in its engine; it ends in cycle 0. -/
def leavingColl : Running :=
  { job := teamColl 1 0, ci := 0, start := 0, stop := 0, consumed := 0, ev := none, count := 0, checked := false, bytes := 0,
    acc := [], recs := [2, 0], deliv := [], skip := false, skipped := false, charge := 0, links := [], evAt := 0, phase := 0 }

/-- The member of rank 1, of one element, which waits and does not belong together with the other. -/
def waitingColl : CollSlot :=
  { job := teamColl 2 1, ci := 0, key := collKey (teamColl 2 1), rank := 1, g := 2, contrib := [0], joined := 0,
    proceeding := false, result := [], count := 0, links := [], digest := 0, status := none }

/-- The end of the first member's job is in hand; the table of clusters lists cluster 1 before cluster 0. -/
def clustersOutOfOrder : State :=
  { State.reset with
    act := some (.jobEnd 0 true)
    clusters := [(1, { Cluster.reset with cu := { Cluster.reset.cu with slots := [waitingColl] } }),
                 (0, { Cluster.reset with cu := { Cluster.reset.cu with run := some leavingColl } })] }

/-- The job in the copy unit of a cluster after a step; none where the step has no next state. -/
def engineAfter (cl : Nat) (o : Host.Outcome State Fault Refusal) : Option Running :=
  match o with
  | .next t => engineRun t true cl
  | _ => none

/-- The entry of cluster 0 that `ins` writes stands before the old one, which still lists the job; the mismatch ends all
members "in an engine" and so puts it back. -/
theorem engineAfter_clustersOutOfOrder : (engineAfter 0 (exec .jobEnd clustersOutOfOrder)).isSome = true := by
  decide +kernel

end Sys2Proof.Machine

namespace Sys2Proof

open Sys2Proof.Machine Sys2Proof.Claims

/-- R284 as stated fails in a state whose table of clusters is not in order: nothing in `JobEnds` asks that its keys rise. -/
theorem not_jobEnds : ¬ Claims.JobEnds := by
  intro h
  obtain ⟨t, ht, hidle, -⟩ := h clustersOutOfOrder 0 true leavingColl ⟨rfl, rfl⟩ (by decide +kernel) rfl rfl
  have hafter : engineAfter 0 (exec .jobEnd clustersOutOfOrder) = none := by rw [ht]; exact hidle
  have hsome := engineAfter_clustersOutOfOrder
  rw [hafter] at hsome
  exact Bool.false_ne_true hsome

/-- Refutes O36: its part `JobEnds` claims of every state that the end of a job frees its engine, and does not ask that the
table of clusters has rising keys, as `CollectiveResult` and the other statements about collectives do. In the state
`clustersOutOfOrder` two members of a team collective do not belong together; the one that leaves its engine ends both, and
its own stale entry in the table puts its job back. States in order (`Claims.Ordered`, O60) are not of this kind. -/
theorem not_jobsEnd : ¬ Obligations.JobsEnd := by
  rintro ⟨-, -, -, hends, -, -⟩
  exact not_jobEnds hends

end Sys2Proof

/-! ## The byte memories through every step, and the state after reset (R51, R67, R71, R184, R283, R290, R430) -/

namespace Sys2Proof.Machine

open Sys2Proof.Claims

/-- Settles O56: what happens within a cycle keeps the form of the byte memories (`Keeps`), and so does the passage to the
next one (`Passes`). -/
theorem stepKeepsMemory : Obligations.StepKeepsMemory := by
  unfold Obligations.StepKeepsMemory
  intro s t hm h
  rcases keeps_or_passes_of_step h with k | p
  · exact k.memOk hm
  · exact p.memOk hm

/-- How far bring-up has come after a step, and which of its steps has failed (R430); none where the step has no next state. -/
def bootAfter (o : Host.Outcome State Fault Refusal) : Option (Nat × Nat) :=
  match o with
  | .next t => some (t.bootStep, t.bootFail)
  | _ => none

/-- The agenda of the reset state holds bring-up alone, which is due at once and succeeds (R430). -/
theorem bootAfter_step_reset : bootAfter (step State.reset) = some (7, 0) := by decide +kernel

theorem bootAfter_eq_some {o : Host.Outcome State Fault Refusal} {b f : Nat} (h : bootAfter o = some (b, f)) :
    ∃ t, o = .next t ∧ t.bootStep = b ∧ t.bootFail = f := by
  cases o with
  | next t => exact ⟨t, rfl, by simpa [bootAfter] using h⟩
  | fault | refused => simp [bootAfter] at h

theorem sget_reset (r : SReg) : sget Thread.reset r = 0 := by
  unfold sget
  split <;> rfl

/-- Settles O57: no table of the reset state lists anything, so that every word, partition, tile and thread reads as its
default; the one act of the agenda is bring-up, which succeeds (`bootAfter_step_reset`). -/
theorem resetState : Obligations.ResetState := by
  unfold Obligations.ResetState
  exact ⟨⟨rfl, rfl⟩, ⟨rfl, rfl, rfl, rfl, rfl⟩, fun _ => rfl, fun _ => ⟨rfl, rfl⟩, fun _ => ⟨rfl, rfl⟩,
    fun _ => rfl, bootAfter_eq_some bootAfter_step_reset, sget_reset, rfl, rfl, rfl, rfl, rfl, rfl, rfl, rfl, rfl, rfl, rfl, rfl, fun _ => rfl⟩

end Sys2Proof.Machine

/-! ## One access at one word (R52, R63, R64, R110, R112, R115, R118, R119) -/

namespace Sys2Proof.Machine

open Sys2Proof.Claims

/-! ### The bytes of a word -/

theorem testBit_bits (v : Word) (lo n j : Nat) : (bits v lo n).testBit j = (decide (j < n) && v.getLsbD (lo + j)) := by
  rw [bits, Nat.testBit_mod_two_pow, Nat.testBit_div_two_pow, BitVec.getLsbD, Nat.add_comm]

/-- Bytes set one above the other, as `mixBytes` joins them. -/
theorem testBit_foldl_bytes {g : Nat → Nat} (hg : ∀ i, g i < 2 ^ 8) (n k : Nat) :
    (List.range n).foldl (fun a i => a + g i * 2 ^ (8 * i)) 0 < 2 ^ (8 * n)
      ∧ ((List.range n).foldl (fun a i => a + g i * 2 ^ (8 * i)) 0).testBit k
        = (decide (k < 8 * n) && (g (k / 8)).testBit (k % 8)) := by
  induction n with
  | zero => simp
  | succ n ih =>
    obtain ⟨hlt, hbit⟩ := ih
    have hn := hg n
    rw [List.range_succ, List.foldl_append, List.foldl_cons, List.foldl_nil]
    generalize (List.range n).foldl (fun a i => a + g i * 2 ^ (8 * i)) 0 = low at hlt hbit
    have hpow : 2 ^ (8 * (n + 1)) = 2 ^ (8 * n) * 2 ^ 8 := by rw [← Nat.pow_add]; rfl
    refine ⟨?_, ?_⟩
    · rw [hpow]
      have : (g n + 1) * 2 ^ (8 * n) ≤ 2 ^ 8 * 2 ^ (8 * n) := Nat.mul_le_mul_right _ hn
      rw [Nat.add_mul, Nat.one_mul] at this
      rw [Nat.mul_comm (2 ^ (8 * n))]
      omega
    · rw [Nat.add_comm low, Nat.mul_comm, Nat.testBit_two_pow_mul_add _ hlt]
      by_cases hk : k < 8 * n
      · have hk' : k < 8 * (n + 1) := by omega
        simp [hk, hk', hbit]
      · by_cases hk' : k < 8 * (n + 1)
        · have hd : k / 8 = n := by omega
          have hm : k - 8 * n = k % 8 := by omega
          simp [hk, hk', hd, hm]
        · have h8 : 8 ≤ k - 8 * n := by omega
          have hz : (g n).testBit (k - 8 * n) = false :=
            Nat.testBit_lt_two_pow (Nat.lt_of_lt_of_le hn (Nat.pow_le_pow_right (by decide) h8))
          simp [hk, hk', hz]

theorem getLsbD_mixBytes (old new : Word) (mask k : Nat) (hk : k < 64) :
    (mixBytes old new mask).getLsbD k = if mask.testBit (k / 8) then new.getLsbD k else old.getLsbD k := by
  have hbyte (i : Nat) : (if mask / 2 ^ i % 2 = 1 then bits new (8 * i) 8 else bits old (8 * i) 8) < 2 ^ 8 := by
    split <;> exact Nat.mod_lt _ (by decide)
  have hmask : mask.testBit (k / 8) = decide (mask / 2 ^ (k / 8) % 2 = 1) := Nat.testBit_eq_decide_div_mod_eq
  have hsplit : 8 * (k / 8) + k % 8 = k := Nat.div_add_mod k 8
  rw [mixBytes, BitVec.getLsbD_ofNat, (testBit_foldl_bytes hbyte 8 k).2, hmask]
  have h8 : k % 8 < 8 := Nat.mod_lt _ (by decide)
  by_cases hm : mask / 2 ^ (k / 8) % 2 = 1 <;> simp [hm, hk, testBit_bits, hsplit, h8]

theorem testBit_byteMask (j n i : Nat) : (byteMask j n).testBit i = decide (j ≤ i ∧ i < j + n) := by
  rw [byteMask, Nat.testBit_mul_two_pow, Nat.testBit_two_pow_sub_one, Bool.decide_and]
  by_cases h : j ≤ i
  · simp [h, show i - j < n ↔ i < j + n by omega]
  · simp [h]

/-- The bytes that a store writes (R53). -/
theorem mixBytes_byteMask (old v : Word) (j n : Nat) : mixBytes old (v <<< (8 * j)) (byteMask j n) = bytesOver old v j n := by
  apply BitVec.eq_of_getLsbD_eq
  intro k hk
  rw [getLsbD_mixBytes _ _ _ _ hk, testBit_byteMask, bytesOver, BitVec.getLsbD_ofFnLE, dif_pos hk, BitVec.getLsbD_shiftLeft]
  have hin : (j ≤ k / 8 ∧ k / 8 < j + n) ↔ (8 * j ≤ k ∧ k < 8 * (j + n)) := by omega
  simp only [hin, decide_eq_true_eq]
  split
  next h => simp [hk, Nat.not_lt.mpr h.1]
  next => rfl

/-! ### The new values (R64, R115) -/

theorem amoNew_eq_atomicNew (f : AmoOp) (old v e : Word) : amoNew f old v e = atomicNew f old v e := by
  cases f with
  | add => exact BitVec.eq_of_toNat_eq (by simp [amoNew, atomicNew])
  | and | or | xor | swap | cas => rfl
  | min =>
    simp only [amoNew, atomicNew, BitVec.slt_iff_toInt_lt]
    split
    next h => rw [Int.min_eq_left (Int.le_of_lt h), BitVec.ofInt_toInt]
    next h => rw [Int.min_eq_right (Int.not_lt.mp h), BitVec.ofInt_toInt]
  | max =>
    simp only [amoNew, atomicNew, BitVec.slt_iff_toInt_lt]
    split
    next h => rw [Int.max_eq_left (Int.le_of_lt h), BitVec.ofInt_toInt]
    next h => rw [Int.max_eq_right (Int.not_lt.mp h), BitVec.ofInt_toInt]
  | minu =>
    simp only [amoNew, atomicNew, BitVec.ult_iff_lt, BitVec.lt_def]
    split
    next h => rw [Nat.min_eq_left (Nat.le_of_lt h), BitVec.ofNat_toNat, BitVec.setWidth_eq]
    next h => rw [Nat.min_eq_right (Nat.not_lt.mp h), BitVec.ofNat_toNat, BitVec.setWidth_eq]
  | maxu =>
    simp only [amoNew, atomicNew, BitVec.ult_iff_lt, BitVec.lt_def]
    split
    next h => rw [Nat.max_eq_left (Nat.le_of_lt h), BitVec.ofNat_toNat, BitVec.setWidth_eq]
    next h => rw [Nat.max_eq_right (Nat.not_lt.mp h), BitVec.ofNat_toNat, BitVec.setWidth_eq]

theorem toNat_bit_63 (v : Word) : (bit v 63).toNat = v.toNat / 2 ^ 63 := by
  have h : v.toNat / 2 ^ 63 < 2 := Nat.div_lt_of_lt_mul v.isLt
  rw [bit, bits, Nat.pow_one, Nat.mod_eq_of_lt h]
  generalize v.toNat / 2 ^ 63 = n at h ⊢
  interval_cases n <;> rfl

theorem barMake_of_lt {ph : Bool} {e a : Nat} (he : e < 2 ^ 31) (ha : a < 2 ^ 32) :
    barMake ph e a = BitVec.ofNat 64 (ph.toNat * 2 ^ 63 + e * 2 ^ 32 + a) := by
  rw [barMake, Nat.mod_eq_of_lt he, Nat.mod_eq_of_lt ha]
  cases ph <;> simp

theorem barMake_zero (b : Nat) : barMake false b 0 = BitVec.ofNat 64 (b % 2 ^ 31 * 2 ^ 32) := by
  rw [barMake, Nat.zero_mod, if_neg Bool.false_ne_true, Nat.zero_add, Nat.add_zero]

/-- The addition of `barexp` and the check that follows it (R64, R118). -/
theorem barExpect_eq_expectMore (old : Word) (b : Nat) : barExpect old b = expectMore old b := by
  have hphase := toNat_bit_63 old
  have ha : bits old 0 32 = old.toNat % 2 ^ 32 := bits_zero_eq old 32
  have hlt : old.toNat % 2 ^ 32 < 2 ^ 32 := Nat.mod_lt _ (by decide)
  have hnot : (!bit old 63).toNat = 1 - old.toNat / 2 ^ 63 := by rw [← hphase]; cases bit old 63 <;> rfl
  unfold barExpect expectMore barCheck
  rw [ha]
  dsimp only
  rw [show bits old 32 31 = old.toNat / 2 ^ 32 % 2 ^ 31 from rfl, show (0x7FFFFFFF : Nat) = 2 ^ 31 - 1 from rfl]
  generalize he : min (old.toNat / 2 ^ 32 % 2 ^ 31 + b) (2 ^ 31 - 1) = e
  have hel : e < 2 ^ 31 := by omega
  split
  · rw [barMake_of_lt hel (by omega), hnot]
  · rw [barMake_of_lt hel hlt, hphase]

theorem getLsbD_eq_bit (v : Word) (i : Nat) : v.getLsbD i = bit v i := by
  rw [bit, bits, Nat.pow_one, BitVec.getLsbD, Nat.testBit_eq_decide_div_mod_eq]

/-- What a scalar access does to its word: it writes a new one, or leaves the word and its full/empty bit. -/
theorem performWord_of_wordEffect {op : AccOp} {j : Nat} {old v : Word} {full fl : Bool} {vals : List Word}
    (h : wordEffect op j old full = some (vals, v, fl)) :
    performWord op j old full = .done vals (some (v, fl)) 0
      ∨ performWord op j old full = .done vals none 0 ∧ v = old ∧ fl = full := by
  cases op with
  | load n | probe => cases Option.some.inj h; exact .inr ⟨rfl, rfl, rfl⟩
  | post x | void => cases Option.some.inj h; exact .inl rfl
  | store n x => cases Option.some.inj h; exact .inl (by rw [performWord, mixBytes_byteMask])
  | amo f x e => cases Option.some.inj h; exact .inl (by rw [performWord, amoNew_eq_atomicNew])
  | barini b => cases Option.some.inj h; exact .inl (by rw [performWord, barMake_zero])
  | barexp b => cases Option.some.inj h; exact .inl (by rw [performWord, barExpect_eq_expectMore])
  | take =>
    cases full with
    | true => cases Option.some.inj h; exact .inl rfl
    | false => exact absurd h.symm (Option.some_ne_none _)
  | peek =>
    cases full with
    | true => cases Option.some.inj h; exact .inr ⟨rfl, rfl, rfl⟩
    | false => exact absurd h.symm (Option.some_ne_none _)
  | give x =>
    cases full with
    | true => exact absurd h.symm (Option.some_ne_none _)
    | false => cases Option.some.inj h; exact .inl rfl
  | barwt ph =>
    have he : wordEffect (.barwt ph) j old full = if old.getLsbD 63 = ph then none else some ([], old, full) := rfl
    have hp : performWord (.barwt ph) j old full = if bit old 63 = ph then .waits else .done [] none 0 := rfl
    rw [he, getLsbD_eq_bit] at h
    rw [hp]
    by_cases hph : bit old 63 = ph
    · rw [if_pos hph] at h
      exact absurd h.symm (Option.some_ne_none _)
    · rw [if_neg hph] at h ⊢
      cases Option.some.inj h
      exact .inr ⟨rfl, rfl, rfl⟩
  | addElem | storeBytes | pfix => exact absurd h.symm (Option.some_ne_none _)

end Sys2Proof.Machine

/-! ## What an access does at its home (R52, R53, R113, R177) -/

namespace Sys2Proof.Machine

open Sys2Proof.Claims

/-! ### Entering the agenda, and the full/empty bits -/

theorem mem_enterTimed_self (l : List Timed) (x : Timed) : x ∈ enterTimed l x := by
  induction l with
  | nil => exact List.mem_singleton_self x
  | cons y t ih =>
    rw [enterTimed]
    split
    · exact List.mem_cons_self
    · exact List.mem_cons_of_mem y ih

theorem wordFull_putWord (s : State) (k j : Nat) (v : Word) (full : Bool) :
    wordFull (putWord s k v full) j = if j = k then full else wordFull s j := by
  cases full <;> by_cases h : j = k <;> simp [wordFull, putWord, setPut, h]

theorem wordIs_refl (s : State) (w : Nat) : WordIs s s w (wordAt s w) (wordFull s w) := ⟨rfl, rfl, fun _ _ => rfl, fun _ _ => rfl⟩

theorem wordIs_putWord {s : State} (hm : s.MemOk) (w : Nat) (v : Word) (full : Bool) : WordIs s (putWord s w v full) w v full := by
  refine ⟨memWord_memPutWord s.mem w v hm.1, ?_, fun k hk => ?_, fun a ha => memGet_memWrite_of_out s.mem w v.toNat 8 a ha⟩
  · rw [wordFull_putWord, if_pos rfl]
  · rw [wordFull_putWord, if_neg hk]

/-- A write serves nobody where nobody waits at its word. -/
theorem writeWord_unwaited {s : State} {w : Nat} (v : Word) (full : Bool)
    (h : ((waitersAt s w).any fun q => decide (q.key / 8 * 8 = w)) = false) : writeWord s w v full = putWord s w v full := by
  have hp : ((waitersAt (putWord s w v full) w).any fun q => decide (q.key / 8 * 8 = w)) = false := h
  rw [writeWord, serve, if_neg (by rw [hp]; exact Bool.false_ne_true)]

/-! ### Performing -/

section
variable {s : State} {r : Req} {k : Nat} {vals : List Word} {v : Word} {full : Bool}

/-- What a request leaves that is performed at a word: the word, the answer on its way, and that its act need not wait. -/
structure Performed (s t : State) (r : Req) (w : Nat) (vals : List Word) (v : Word) (full : Bool) : Prop where
  word : WordIs s t w v full
  answered : Answered s t r (.done vals 0)
  behind : t.behind = s.behind

/-- The answer of a request enters the agenda. -/
theorem answered_answer (s : State) (r : Req) (res : AccRes) : Answered s (answer s r res) r res := by
  refine ⟨_, mem_enterTimed_self s.agenda _, ?_, rfl⟩
  dsimp only
  unfold extraLat
  cases isAtomic r.op with
  | true => rfl
  | false => simp

theorem performed_performAt (hm : s.MemOk) (hpois : wordPois s (k / 8 * 8) = false ∨ coversWord r.op = true)
    (htime : outOfTime s r = false) (hwait : ((waitersAt s (k / 8 * 8)).any fun q => decide (q.key / 8 * 8 = k / 8 * 8)) = false)
    (heff : wordEffect r.op (k % 8) (wordAt s (k / 8 * 8)) (wordFull s (k / 8 * 8)) = some (vals, v, full)) :
    Performed s (performAt s r k) r (k / 8 * 8) vals v full := by
  have hop : r.op ≠ .pfix := by
    intro h
    rw [h] at heff
    exact absurd heff.symm (Option.some_ne_none _)
  have hcons : ¬ (wordPois (partDone s r) (k / 8 * 8) && !coversWord r.op) = true := by
    show ¬ (wordPois s (k / 8 * 8) && !coversWord r.op) = true
    rcases hpois with h | h <;> simp [h]
  have htime' : ¬ outOfTime (partDone s r) r = true := by
    show ¬ outOfTime s r = true
    simp [htime]
  have heff' : wordEffect r.op (k % 8) (wordAt (partDone s r) (k / 8 * 8)) (wordFull (partDone s r) (k / 8 * 8))
      = some (vals, v, full) := heff
  unfold performAt
  dsimp only
  rw [if_neg hop, if_neg hcons, if_neg htime']
  rcases performWord_of_wordEffect heff' with hp | ⟨hp, rfl, rfl⟩
  · rw [hp]
    dsimp only
    rw [writeWord_unwaited v full (s := answer (partDone s r) r (.done vals 0)) hwait]
    exact ⟨wordIs_putWord hm _ v full, answered_answer s r _, rfl⟩
  · rw [hp]
    exact ⟨wordIs_refl s _, answered_answer s r _, rfl⟩

end

/-! ### From the request at its home to the word (R53, R177, R211) -/

section
variable {s : State} {r : Req} {k : Nat}

theorem waitersAt_useLeaf (s : State) (port : Nat) (l : Leaf) (w : Nat) : waitersAt (useLeaf s port l) w = waitersAt s w := by
  unfold waitersAt
  split
  · rfl
  · by_cases h : keyToPort w = port
    · rw [h, useLeaf, portOf_modPort_self]
    · rw [useLeaf, portOf, modPort, lookD_ins_of_ne _ _ _ _ _ h]
      rfl

theorem cached_useLeaf {port partn o : Nat} {l : Leaf} (h : cached s port partn o = some l) :
    cached (useLeaf s port l) port partn o = some l := by
  have hl : l.covers partn o = true := List.find?_some (p := fun x : Leaf => x.covers partn o) h
  rw [cached, useLeaf, portOf_modPort_self]
  exact List.find?_cons_of_pos hl

/-- A line that lies under the view of an access stays as it is (R372). -/
theorem setView_of_lineKey {view : Nat} (h : lineKey s k = view) : setView s k view = s := if_pos (Or.inr h)

/-- An access whose leaf is cached, and which nothing bars, is performed at once (R177). -/
theorem portAccess_of_key {port o : Nat} (h : homeKey.port s r port o = some k) :
    ∃ l view, portAccess s r port o = performAt (useLeaf s port l) { r with view := view } k := by
  unfold homeKey.port at h
  split at h
  next l hc =>
    split at h
    next a hx =>
      split at h
      next => exact absurd h.symm (Option.some_ne_none _)
      next hfree =>
        obtain ⟨hbars, hline⟩ := not_or.mp hfree
        cases Option.some.inj h
        have hview : viewOf (useLeaf s port l) port r.partn o = viewNo s r.partn l := by
          rw [viewOf, cached_useLeaf hc]
          rfl
        have hsame : lineKey (useLeaf s port l) (keyPort port a) = viewNo s r.partn l := not_not.mp hline
        refine ⟨l, viewNo s r.partn l, ?_⟩
        simp only [portAccess, hc, if_neg hbars, hx, afterXlat, hview, setView_of_lineKey hsame]
    next => exact absurd h.symm (Option.some_ne_none _)
  next => exact absurd h.symm (Option.some_ne_none _)

theorem spadAccess_of_present {t o : Nat} (hf : ¬ fencedAt s r.partn t = true) (hm : movedBy s t (o / 256) = none)
    (hb : (blockOf s t o).st = .present) : spadAccess s r t o = performAt s r (keySpad t o) := by
  rw [spadAccess, if_neg hf, hm, hb]

/-- A request in its turn whose word can be reached is performed there, whether its leaf was used before or not. -/
theorem arriveHome_of_homeKey (ht : turnOf s r = .go) (hk : homeKey s r = some k) :
    arriveHome s r = performAt s r k
      ∨ ∃ port l view, arriveHome s r = performAt (useLeaf s port l) { r with view := view } k := by
  unfold homeKey at hk
  obtain ⟨place, hh⟩ : ∃ p, r.home = p := ⟨_, rfl⟩
  cases place with
  | spad t o =>
    have e : arriveHome s r = spadAccess s r t o := by simp only [arriveHome, ht, hh]
    simp only [hh] at hk
    split at hk
    next => exact absurd hk.symm (Option.some_ne_none _)
    next hfree =>
      obtain ⟨hf, hrest⟩ := not_or.mp hfree
      obtain ⟨hm, hb⟩ := not_or.mp hrest
      cases Option.some.inj hk
      exact .inl (e.trans (spadAccess_of_present hf (by simpa using hm) (not_not.mp hb)))
  | chan c o =>
    have e : arriveHome s r = portAccess s r c o := by simp only [arriveHome, ht, hh]
    simp only [hh] at hk
    obtain ⟨l, view, hl⟩ := portAccess_of_key hk
    exact .inr ⟨c, l, view, e.trans hl⟩
  | tier2 c o =>
    have e : arriveHome s r = portAccess s r (48 + c) o := by simp only [arriveHome, ht, hh]
    simp only [hh] at hk
    obtain ⟨l, view, hl⟩ := portAccess_of_key hk
    exact .inr ⟨48 + c, l, view, e.trans hl⟩
  | host b =>
    have e : arriveHome s r = performAt s r (keyHost b) := by simp only [arriveHome, ht, hh]
    simp only [hh] at hk
    cases Option.some.inj hk
    exact .inl e
  | tileCtrl | devCtrl =>
    simp only [hh] at hk
    exact absurd hk.symm (Option.some_ne_none _)

theorem performed_arriveHome {vals : List Word} {v : Word} {full : Bool} (hm : s.MemOk) (ht : turnOf s r = .go)
    (hk : homeKey s r = some k) (hpois : wordPois s (k / 8 * 8) = false ∨ coversWord r.op = true) (htime : outOfTime s r = false)
    (hwait : ((waitersAt s (k / 8 * 8)).any fun q => decide (q.key / 8 * 8 = k / 8 * 8)) = false)
    (heff : wordEffect r.op (k % 8) (wordAt s (k / 8 * 8)) (wordFull s (k / 8 * 8)) = some (vals, v, full)) :
    Performed s (arriveHome s r) r (k / 8 * 8) vals v full := by
  rcases arriveHome_of_homeKey ht hk with e | ⟨port, l, view, e⟩
  · rw [e]
    exact performed_performAt hm hpois htime hwait heff
  · have hwait' : ((waitersAt (useLeaf s port l) (k / 8 * 8)).any fun q => decide (q.key / 8 * 8 = k / 8 * 8)) = false := by
      rw [waitersAt_useLeaf, hwait]
    obtain ⟨hword, hanswer, hbehind⟩ :=
      performed_performAt (s := useLeaf s port l) (r := { r with view := view }) hm hpois htime hwait' heff
    rw [e]
    exact ⟨hword, hanswer, hbehind⟩

/-! ### An access does not look at the act in hand -/

variable (s r) (a : Option Act)

theorem portWord_withAct (port n o : Nat) : portWord { s with act := a } port n o = portWord s port n o := by
  simp only [portWord, walk_withAct]
  rfl

theorem sameWord_withAct (n n' : Nat) (p p' : Ptr) : sameWord { s with act := a } n p n' p' = sameWord s n p n' p' := by
  have hw (n : Nat) (p : Ptr) : wordOf { s with act := a } n p = wordOf s n p := by
    simp only [wordOf, stubEnd_withAct, portWord_withAct]
    rfl
  simp only [sameWord, hw]

theorem turnOf_withAct : turnOf { s with act := a } r = turnOf s r := by
  have hq : reqWord { s with act := a } = reqWord s := by
    funext q
    simp only [reqWord, stubEnd_withAct]
  have hheld : heldBefore { s with act := a } r = heldBefore s r := by
    simp only [heldBefore, hq]
  simp only [turnOf, hheld, sameWord_withAct]
  rfl

theorem homeKey_withAct : homeKey { s with act := a } r = homeKey s r := by
  have hp (q o : Nat) : homeKey.port { s with act := a } r q o = homeKey.port s r q o := by
    simp only [homeKey.port, WalkEnt.bars, sameWord_withAct]
    rfl
  simp only [homeKey, hp]
  rfl

end

/-- Settles O12: the request is performed at its word (`performed_arriveHome`) in the state that its act leaves to it. -/
theorem homePerforms : Obligations.HomePerforms := by
  unfold Obligations.HomePerforms
  intro s r k vals v full hm hact ht hk hpois htime hwait heff
  have ht' : turnOf { s with act := none } r = .go := (turnOf_withAct s r none).trans ht
  have hk' : homeKey { s with act := none } r = some k := (homeKey_withAct s r none).trans hk
  obtain ⟨hword, hanswer, hbehind⟩ := performed_arriveHome (s := { s with act := none }) hm ht' hk' hpois htime hwait heff
  refine ⟨arriveHome { s with act := none } r, ?_, hword, hanswer⟩
  change execHomeAccess s = _
  unfold execHomeAccess
  exact actRow_done hact.1 rfl (hbehind.trans hact.2)

end Sys2Proof.Machine

/-! ## A unit whose flight gets a number that is taken (R54) -/

namespace Sys2Proof.Machine

open Sys2Proof.Claims

/-- A partition of one tile without memory of its own. -/
def oneTilePart : Partition :=
  { Partition.reset with
    frame := some { ox := 0, oy := 0, w := 1, h := 1, chans := [], ptroot := 0, hwsz := 0, conf := false } }

/-- A flight of one part that is on its way, under the number 0. -/
def flightZero (op : FlOp) (rx : Bool) : Flight :=
  { fid := 0, rx := rx, fpc := 0, npc := 4, op := op, first := 0, parts := 1, out := [0], pend := [], got := [], flags := 0, bad := [],
    sent := [], minEnd := 0, charge := 0, stub := none, fee := 0, lv := 0, done := false }

/-- A thread with such a flight of a store. -/
def numberedThread : Thread := { Thread.reset with flights := [flightZero .storeS false] }

def firstUnit : Cur := { uid := 0, fpc := 0, npc := 4, fx := 0, word := 0, pos := 0 }

/-- A unit of that thread is in hand, and the next number that is given out is 0 again. -/
def numberTaken : State :=
  { State.reset with cur := some firstUnit, threads := [(0, numberedThread)], parts := [(0, oneTilePart)] }

/-- The parts that the flights of thread 0 have on their way after a step. -/
def partsOut (o : Host.Outcome State Fault Refusal) : Option (List (List Nat)) :=
  match o with
  | .next t => (threadOf t 0).map fun th => th.flights.map (·.out)
  | _ => none

/-- The request is looked up by its number, under which the older flight is found: nothing is sent. -/
theorem partsOut_numberTaken : partsOut (exec (.ldd 5 0 0 .plain) numberTaken) = some [[0], []] := by decide +kernel

theorem not_requestSent : ¬ RequestSent := by
  intro h
  have hready : (plainForm.load numberedThread 5 0 0 .plain 8 false).ready numberTaken firstUnit numberedThread := by
    unfold Access.ready Ready Executing
    decide +kernel
  obtain ⟨t, y, f, r, ht, hy, hflights, -, -, -, -, -, -, hout, -⟩ :=
    h (.ldd 5 0 0 .plain) numberTaken firstUnit numberedThread _ 0 (.spad 0 0) rfl hready rfl (by decide +kernel) (by decide +kernel)
      (by decide +kernel) (by decide +kernel) (fun hm => absurd hm (by decide)) (by decide +kernel) (by decide +kernel)
  have hthread : threadOf t 0 = some y := hy
  have hparts : partsOut (exec (.ldd 5 0 0 .plain) numberTaken) = some [[0], [0]] := by
    rw [ht]
    simp [partsOut, hthread, hflights, hout, numberedThread, flightZero]
  rw [partsOut_numberTaken] at hparts
  exact absurd hparts (by decide)

/-- Refutes O11: its part `RequestSent` does not ask that the number of the next flight is not one that the thread's flights
carry already. In the state `numberTaken` the thread has a flight 0 and the next number is 0: the flight of the load is
entered, but the sending finds the older flight under its number, and the load's own request never leaves. No state that
gives out each number once is of this kind. -/
theorem not_accessSent : ¬ Obligations.AccessSent := by
  rintro ⟨hsent, -⟩
  exact not_requestSent hsent

/-! ## A thread that ends while a move holds its team's queue record (R96, R211, R376) -/

/-- A team of a host queue that has started. -/
def hostTeam : Team := { (default : Team) with src := .host 0, started := true }

/-- The team's thread has been terminated and waits for its last access, a relaxed load into s5. -/
def endingThread : Thread := { Thread.reset with ending := true, flights := [flightZero (.loadS 5 8 false) true] }

/-- The queue is switched out; its record stands at offset 8 of the tile's scratchpad. -/
def hostTeamPart : Partition :=
  { oneTilePart with teams := [(0, hostTeam)], queues := [(0, { Queue.reset with lqsv := 8 })] }

/-- The block of the record is being moved. -/
def movingTile : Tile :=
  { Tile.reset with
    move := some { partn := 0, since := 0, reason := 0, block := 0, dest := 0x100, ack := none, latest := false, held := [],
                   stalled := [] } }

def lastAnswer : Answer := { uid := 0, fid := 0, part := 0, addr := 0, stub := none, res := .done [7] 0 }

/-- The answer of the last access is in hand. -/
def recordMoves : State :=
  { State.reset with
    act := some (.relaxedAccessCompletion lastAnswer), threads := [(0, endingThread)], parts := [(0, hostTeamPart)]
    tiles := [(0, movingTile)] }

/-- The retirement of the team meets the move, so the whole act waits for its end. -/
theorem partsOut_recordMoves : partsOut (exec .relaxedAccessCompletion recordMoves) = some [[0]] := by decide +kernel

theorem not_relaxedLoadFills : ¬ RelaxedLoadFills := by
  intro h
  obtain ⟨t, ht, hended⟩ :=
    (h recordMoves lastAnswer endingThread (flightZero (.loadS 5 8 false) true) 5 8 7 ⟨rfl, rfl⟩
      rfl rfl rfl rfl rfl rfl rfl rfl rfl rfl (Nat.le_refl 0) rfl rfl rfl rfl).1 rfl fun g hg hne => absurd (List.mem_singleton.mp hg ▸ rfl) hne
  have hnone : partsOut (exec .relaxedAccessCompletion recordMoves) = none := by
    rw [ht]
    exact congrArg (Option.map _) hended
  rw [partsOut_recordMoves] at hnone
  exact absurd hnone (Option.some_ne_none _)

/-- Refutes O15: its part `RelaxedLoadFills` claims that the answer to the last access of a terminated thread ends it in the
same step, and does not ask that no access of the hardware has to wait (`Unhindered`). In the state `recordMoves` the thread
is the last of its team, whose retirement writes the record of a queue that is switched out; the record's block is being
moved, so that by R211 the act waits for the end of the move and the thread is still there. -/
theorem not_answersComplete : ¬ Obligations.AnswersComplete := by
  rintro ⟨-, hfills, -, -⟩
  exact not_relaxedLoadFills hfills

end Sys2Proof.Machine

/-! ## Registers (R67-R69) and the units that wait for them -/

namespace Sys2Proof.Machine

open Sys2Proof.Claims

/-- A unit that is not issued changes its thread alone (R69, R76). -/
theorem apart_parkUnit (s : State) (c : Cur) (w : Wait) : Apart s (parkUnit s c w) c := by
  have hidle : Apart s { s with cur := none } c :=
    ⟨rfl, rfl, fun _ => rfl, fun _ => rfl, fun _ _ x hx => ⟨x, hx, rfl⟩⟩
  exact apart_modThread hidle _

/-- A unit whose needs are not met is not issued: its thread parks (R69). -/
theorem parks_of_unmet {s : State} {c : Cur} {th : Thread} {n : Need} (k : Cur → Thread → State) (h : Executing s c th)
    (hn : needMet s c.uid th n = false) :
    ∃ t x, unit s n k = .next t ∧ threadOf t c.uid = some x ∧ x.wait = .issue n ∧ { x with wait := th.wait } = th ∧ Apart s t c := by
  obtain ⟨hc, ht, -⟩ := h
  have hu : unit s n k = .next (parkUnit s c (.issue n)) := by simp only [unit, withCur, hc, ht, hn, if_true]
  exact ⟨_, _, hu, threadOf_modThread_some (s := { s with cur := none }) _ ht, rfl, rfl, apart_parkUnit s c _⟩

/-- A unit that reads an empty scalar has not what it needs. -/
theorem needMet_of_sEmpty {s : State} {u : Nat} {th : Thread} {n : Need} {r : SReg} (hr : r ∈ n.sr) (he : sEmptyAt th r = true) :
    needMet s u th n = false := by
  have : n.sr.all (fun r => !sEmptyAt th r) = false := List.all_eq_false.mpr ⟨r, hr, by simp [he]⟩
  simp [needMet, this]

theorem sEmptyAt_zero (th : Thread) : sEmptyAt th 0 = false := by simp [sEmptyAt]

/-- A register that its thread writes is full (R68). -/
theorem sEmptyAt_sset_self (th : Thread) (d : SReg) (v : Word) : sEmptyAt (sset d v th) d = false := by
  by_cases hd : d = 0
  · subst hd; exact sEmptyAt_zero _
  · simp [sEmptyAt, sset, hd]

/-- The instructions named by R69's clause are units that read two scalars and write one. -/
theorem exec_eq_unit_of_mem (s : State) (d a b : SReg) :
    ∀ i ∈ [Instr.add d a b, .sub d a b, .mul d a b, .and d a b, .or d a b, .xor d a b, .min d a b, .sll d a b],
      ∃ k, exec i s = unit s { Need.none with sr := [a, b], sd := [d] } k := by
  simp only [List.forall_mem_cons, List.not_mem_nil, false_implies, implies_true, and_true]
  exact ⟨⟨_, rfl⟩, ⟨_, rfl⟩, ⟨_, rfl⟩, ⟨_, rfl⟩, ⟨_, rfl⟩, ⟨_, rfl⟩, ⟨_, rfl⟩, ⟨_, rfl⟩⟩

/-- Settles O58, by the read of each kind of register after a write, and by the parking of a unit whose needs are not met. -/
theorem registersHold : Obligations.RegistersHold := by
  unfold Obligations.RegistersHold
  refine ⟨fun th d r v => ⟨sget_sset th d r v, sget_zero th, sEmptyAt_sset_self th d v, sEmptyAt_zero th⟩,
    fun th d r v => ⟨pget_pset th d r v, pget_zero th⟩, fun th d r v => ⟨mget_mset th d r v, mget_zero th⟩, ?_⟩
  intro s c th d a b h he i hi
  obtain ⟨k, hk⟩ := exec_eq_unit_of_mem s d a b i hi
  have hn : needMet s c.uid th { Need.none with sr := [a, b], sd := [d] } = false := by
    rcases he with he | he
    · exact needMet_of_sEmpty (List.mem_cons_self ..) he
    · exact needMet_of_sEmpty (List.mem_cons_of_mem _ (List.mem_cons_self ..)) he
  obtain ⟨t, x, ht⟩ := parks_of_unmet k h hn
  exact ⟨t, x, _, hk ▸ ht⟩

end Sys2Proof.Machine

/-! ## Vector compares and the mask operations (R244, R255) -/

namespace Sys2Proof.Machine

open Sys2Proof.Claims

/-! ### The mask operations (R255) -/

/-- A mask result, bit by bit. -/
theorem maskMix_eq (th : Thread) (d : MReg) (q : VPfx) (v : Word) : maskMix th d q v =
    BitVec.ofFnLE fun k : Fin 64 => if lane th q k.val then v.getLsbD k.val else !q.zero && (mget th d).getLsbD k.val := by
  apply BitVec.eq_of_getLsbD_eq
  intro j hj
  cases hq : (mget th q.mask)[j] <;> cases hz : q.zero <;> simp [maskMix, lane, hj, hq, hz]

theorem maskUnit_ready {s : State} {c : Cur} {th : Thread} {d : MReg} {ms : List MReg} {rs : List SReg} {q : VPfx}
    (f : Thread → Word) (h : Ready s c th { Need.none with sr := rs, mr := q.mask :: (if q.zero then ms else ms ++ [d]) }) :
    ∃ t, maskUnit s d ms rs q f = .next t ∧ WritesMask s c th d (maskMix th d q (f th)) 8 t :=
  ⟨_, unit_ready _ h, writesMask_retire s c th 8 d _ h.1.2.1⟩

/-- The ones of a word, counted from either end. -/
theorem onesTo_eq_onesBelow (w : Word) (n : Nat) : onesTo w n = onesBelow w n := by
  induction n with
  | zero => rfl
  | succ n ih =>
    simp only [onesTo, ih, onesBelow, List.range_succ, List.filter_append, List.length_append]
    cases hw : w.getLsbD n <;> simp [hw]

/-- The first number from `a` on that satisfies `p` stands behind those that do not. -/
theorem find_range'_getD (p : Nat → Bool) (a n : Nat) :
    ((List.range' a n).find? p).getD (a + n) = a + ((List.range' a n).takeWhile fun k => !p k).length := by
  induction n generalizing a with
  | zero => simp
  | succ n ih =>
    have := ih (a + 1)
    cases hp : p a
    · simp only [List.range'_succ, List.find?_cons, hp, List.takeWhile_cons, Bool.not_false, if_true, List.length_cons]
      rw [show a + (n + 1) = a + 1 + n by omega, this]
      omega
    · simp [List.range'_succ, hp]

theorem maskRead_ready {s : State} {c : Cur} {th : Thread} {d : SReg} {a : MReg} {q : VPfx} (f : Word → Nat)
    (h : Ready s c th { Need.none with sd := [d], mr := [q.mask, a] }) :
    ∃ t, maskRead s d a q f = .next t
      ∧ WritesScalar s c th d (BitVec.ofNat 64 (f (mget th a &&& mget th q.mask))) c.npc 8 t :=
  ⟨_, unit_ready _ h, writesScalar_retireTo s c th 8 c.npc d _ h.1.2.1⟩

theorem maskOperations : MaskOperations := by
  constructor
  · intro i s c th d ms sr q v hi h
    rw [← maskMix_eq]
    unfold maskForm at hi
    split at hi
    all_goals cases hi
    · exact maskUnit_ready (fun th => mget th _ &&& mget th _) h
    · exact maskUnit_ready (fun th => mget th _ ||| mget th _) h
    · exact maskUnit_ready (fun th => mget th _ ^^^ mget th _) h
    · exact maskUnit_ready (fun th => ~~~mget th _) h
    · exact maskUnit_ready (fun th => sget th _) h
  · intro i s c th d a q v hi h
    unfold maskCount at hi
    split at hi
    all_goals cases hi
    · rw [← onesTo_eq_onesBelow]
      exact maskRead_ready (fun w => onesTo w 64) h
    · have hfirst := maskRead_ready (fun w => ((List.range 64).find? fun k => w.getLsbD k).getD 64) h
      rwa [List.range_eq_range', find_range'_getD _ 0 64, Nat.zero_add, ← List.range_eq_range'] at hfirst
    · have hget := maskRead_ready (fun w => w.toNat) h
      rwa [BitVec.ofNat_toNat, BitVec.setWidth_eq] at hget

/-! ### Compares (R244) -/

/-- A unit that is checked at issue and passes has its own effect. -/
theorem unitChecked_ready {s : State} {c : Cur} {th : Thread} {n : Need} {bad : Cur → Thread → Option State}
    (k : Cur → Thread → State) (h : Ready s c th n) (hb : bad c th = none) : unitChecked s n bad k = .next (k c th) := by
  obtain ⟨⟨hc, ht, -⟩, h1, h2, h3⟩ := h
  simp [unitChecked, withCur, hc, ht, h1, h2, h3, hb]

/-- A unit that names only registers of the thread's claim has its own effect (R234). -/
theorem claimed_ready {s : State} {c : Cur} {th : Thread} {rs : List VReg} {n : Need} (k : Cur → Thread → State)
    (h : Ready s c th n) (hr : ∀ r ∈ rs, r.val < th.vn) : claimed s rs n k = .next (k c th) := by
  refine unitChecked_ready k h ?_
  rw [Option.map_eq_none_iff, List.find?_eq_none]
  intro r hm
  simpa using hr r hm

/-- A change of the unit's own thread before its issue is a change of that thread alone. -/
theorem apart_of_modThread {s t : State} {c : Cur} {f : Thread → Thread} (h : Apart (modThread s c.uid f) t c) : Apart s t c := by
  obtain ⟨hcur, hrest, hmem, htiles, hothers⟩ := h
  have hsame : { t with threads := s.threads, tiles := s.tiles, cur := s.cur } = s := by
    have := congrArg (fun x : State => { x with threads := s.threads }) hrest
    exact this
  refine ⟨hcur, hsame, hmem, htiles, fun u hu x hx => hothers u hu x ?_⟩
  rwa [threadOf_modThread_of_ne _ _ _ _ hu]

/-- Bit k of a joined list of bits is its k-th. -/
theorem testBit_joinElems_one (l : List Nat) (k : Nat) : (joinElems 1 l).testBit k = decide (l.getD k 0 % 2 = 1) := by
  induction l generalizing k with
  | nil => simp [joinElems]
  | cons x t ih =>
    cases k with
    | zero => simp [joinElems, Nat.testBit_zero, Nat.add_mul_mod_self_left]
    | succ k =>
      rw [Nat.testBit_succ, show joinElems 1 (x :: t) / 2 = joinElems 1 t by simp only [joinElems]; omega, ih]
      rfl

/-- The result of a compare at element k, with its flags (R237, R244): the bit of an inactive one stays, or is zero under
zeroing. -/
def cmpLane (s : State) (th : Thread) (m : MReg) (cc : Cond) (a b : VReg) (et : ElemTy) (q : VPfx) (k : Nat) : Bool × Nat :=
  if lane th q k then cmpElem cc et (ftzOf th) (elem (ewidth et) (vget s th a.val) k) (elem (ewidth et) (vget s th b.val) k)
  else (!q.zero && (mget th m).getLsbD k, 0)

/-- The flags of all elements of a compare. -/
def cmpFlags (s : State) (th : Thread) (m : MReg) (cc : Cond) (a b : VReg) (et : ElemTy) (q : VPfx) : Nat :=
  (List.range (512 / ewidth et)).foldl (fun f k => f ||| (cmpLane s th m cc a b et q k).2) 0

/-- The mask that a compare writes. -/
def cmpMask (s : State) (th : Thread) (m : MReg) (cc : Cond) (a b : VReg) (et : ElemTy) (q : VPfx) : Word :=
  BitVec.ofNat 64 (joinElems 1 ((List.range (512 / ewidth et)).map fun k => (cmpLane s th m cc a b et q k).1.toNat))

section
variable (s : State) (th : Thread) (m : MReg) (cc : Cond) (a b : VReg) (et : ElemTy) (q : VPfx)

/-- Bits beyond the elements are zero (R244). -/
theorem getLsbD_cmpMask (k : Nat) (hk : k < 64) :
    (cmpMask s th m cc a b et q).getLsbD k = (decide (k < 512 / ewidth et) && (cmpLane s th m cc a b et q k).1) := by
  rw [cmpMask, BitVec.getLsbD_ofNat, testBit_joinElems_one]
  by_cases h : k < 512 / ewidth et
  · cases hb : (cmpLane s th m cc a b et q k).1 <;> simp [List.getD, hk, h, hb]
  · simp [List.getD, h]

theorem cmpLanes_eq :
    laneResults th q (lanes et) (fun i => if (mget th m).getLsbD i then 1 else 0) (fun i =>
        let r := cmpElem cc et (ftzOf th) (elem (ewidth et) (vget s th a.val) i) (elem (ewidth et) (vget s th b.val) i)
        (if r.1 then 1 else 0, r.2))
      = (List.range (512 / ewidth et)).map fun k => ((cmpLane s th m cc a b et q k).1.toNat, (cmpLane s th m cc a b et q k).2) := by
  refine List.map_congr_left fun k _ => ?_
  unfold cmpLane active lane
  by_cases hl : (mget th q.mask).getLsbD k = true
  · simp only [hl, if_true, Bool.toNat, cond_eq_ite]
  · cases hz : q.zero <;> simp [hl, Bool.toNat, cond_eq_ite]

/-- A compare that issues ends with the results of its elements. -/
theorem exec_vcmp {s th m a b q} {c : Cur} (ha : a.val < th.vn) (hb : b.val < th.vn)
    (h : Ready s c th { Need.none with mr := if q.zero then [q.mask] else [q.mask, m], vr := [a, b] }) :
    exec (.vcmp m cc a b et q) s = .next (vfinish s c th
      ((List.range (512 / ewidth et)).map fun k => ((cmpLane s th m cc a b et q k).1.toNat, (cmpLane s th m cc a b et q k).2)) 8
      fun vs s => modThread s c.uid (mset m (BitVec.ofNat 64 (joinElems 1 vs)))) := by
  have hclaim : ∀ r ∈ [a, b], r.val < th.vn := by simp [ha, hb]
  rw [← cmpLanes_eq]
  exact claimed_ready _ h hclaim

theorem orAll_cmpFlags :
    orAll (((List.range (512 / ewidth et)).map fun k =>
      ((cmpLane s th m cc a b et q k).1.toNat, (cmpLane s th m cc a b et q k).2)).map (·.2)) = cmpFlags s th m cc a b et q := by
  rw [List.map_map, orAll, List.foldl_map]
  rfl

end

/-- A flag that is raised and enabled (R235, R238). -/
theorem trapping_eq_false_iff (th : Thread) (fl : Nat) : trapping th fl = false ↔ fl &&& th.vec.vctl.toNat / 16 % 32 = 0 := by
  rw [trapping, decide_eq_false_iff_not, not_not]
  rfl

section
variable {s : State} {c : Cur} {th : Thread} {rs : List (Nat × Nat)} {lat : Nat} (w : List Nat → State → State)

/-- A vector unit that raises no enabled flag writes and ORs its flags (R237). -/
theorem vfinish_of_quiet (h : trapping th (orAll (rs.map (·.2))) = false) :
    vfinish s c th rs lat w = retire (w (rs.map (·.1)) s) c lat (stick (orAll (rs.map (·.2)))) := by
  simp [vfinish, h]

/-- One that raises an enabled flag faults at the end of its latency (R238). -/
theorem vfinish_of_trapping (h : trapping th (orAll (rs.map (·.2))) = true) :
    ∃ info, vfinish s c th rs lat w = raiseEnd lat s c 0x16 0 info 0 := by
  simp only [vfinish, h, if_true]
  exact ⟨_, rfl⟩

end

/-- A write to a mask register touches the masks alone. -/
theorem mset_shape (d : MReg) (v : Word) (th : Thread) :
    ∃ ms e p, mset d v th = { th with m := ms, mEmpty := e, mPois := p } := by
  unfold mset
  split
  · exact ⟨th.m, th.mEmpty, th.mPois, rfl⟩
  · exact ⟨_, _, _, rfl⟩

/-- A unit that has written a mask of its thread, and ends raising flags: its thread and the frame. -/
theorem retire_mset_stick {s : State} {c : Cur} {th : Thread} (h : threadOf s c.uid = some th) (m : MReg) (v : Word) (fl : Nat) :
    ∃ t z, retire (modThread s c.uid (mset m v)) c 8 (stick fl) = t ∧ threadOf t c.uid = some z ∧ Over s c z c.npc 8
      ∧ (∀ k, mget z k = if k = m ∧ m ≠ 0 then v else mget th k)
      ∧ z.vec = { th.vec with vstat := th.vec.vstat ||| BitVec.ofNat 64 fl }
      ∧ { endAs z th with m := th.m, mEmpty := th.mEmpty, mPois := th.mPois, vec := th.vec } = th ∧ Apart s t c := by
  obtain ⟨hz, hapart⟩ := retireTo_spec _ c _ 8 c.npc (stick fl) (threadOf_modThread_some (mset m v) h)
  obtain ⟨ms, e, p, hshape⟩ := mset_shape m v th
  refine ⟨_, _, rfl, hz, ⟨rfl, rfl, rfl, rfl⟩, fun k => mget_mset th m k v, ?_, ?_, apart_of_modThread hapart⟩
  · rw [hshape]; rfl
  · rw [hshape]; rfl

theorem vectorCompare : VectorCompare := by
  intro s c th m cc a b et q ha hb h
  have hexec := exec_vcmp cc et ha hb h
  have hflags := orAll_cmpFlags s th m cc a b et q
  have ht := h.1.2.1
  refine ⟨fun hq => ?_, fun htrap => ?_⟩
  · rw [vfinish_of_quiet _ (hflags ▸ (trapping_eq_false_iff th _).mpr hq), hflags, List.map_map] at hexec
    obtain ⟨t, z, rfl, hz, hover, hmask, hvec, hrest, hapart⟩ := retire_mset_stick ht m (cmpMask s th m cc a b et q)
      (cmpFlags s th m cc a b et q)
    refine ⟨_, z, hexec, hz, hover, fun k hk hm => ?_, fun k hk => ?_, hvec, hrest, hapart⟩
    · rw [hmask, if_pos ⟨rfl, hm⟩, getLsbD_cmpMask _ _ _ _ _ _ _ _ k hk]
      rfl
    · rw [hmask, if_neg fun hk' => hk hk'.1]
  · have htrap' : trapping th (cmpFlags s th m cc a b et q) = true :=
      Bool.eq_true_of_not_eq_false fun hf => htrap ((trapping_eq_false_iff th _).mp hf)
    obtain ⟨info, hinfo⟩ := vfinish_of_trapping (s := s) (c := c) (lat := 8) _ (hflags ▸ htrap')
    exact ⟨_, info, hexec.trans (congrArg _ hinfo), faultsLater_raiseEnd 8 0x16 0 info ht⟩

/-- Settles O27: compares by the results of their elements, mask operations bit by bit under the governing mask. -/
theorem maskResults : Obligations.MaskResults := by
  unfold Obligations.MaskResults
  exact ⟨vectorCompare, maskOperations⟩

end Sys2Proof.Machine

/-! ## Thread control of a slot's own thread (R152) -/

namespace Sys2Proof.Machine

open Sys2Proof.Claims

section
variable {s : State} {tile slot tid u : Nat} {th : Thread}

/-- The thread that a thread-control word names is the one in the slot where it has the TID. -/
theorem tcwThread_atSlot (hs : AtSlot s tile slot u th) (hid : tidOf th = tid) : tcwThread s tile slot tid = some u := by
  obtain ⟨hocc, ht⟩ := hs
  have hany : (threadOf s u).any (fun x => decide (tidOf x = tid)) = true := by
    rw [ht, Option.any_some, decide_eq_true_iff, hid]
  unfold tcwThread
  rw [hocc, Option.filter_some, if_pos hany]

theorem tcwRow_atSlot (hs : AtSlot s tile slot u th) (hid : tidOf th = tid) (f : Nat → Thread → State × Nat) :
    tcwRow s tile slot tid f = tcwSet (f u th).1 tile slot (f u th).2 := by
  obtain ⟨-, ht⟩ := id hs
  unfold tcwRow
  rw [tcwThread_atSlot hs hid, Option.bind_some, ht]
  rfl

/-- A row of the thread-control word on the slot's own thread: its effect, then its outcome. -/
theorem next_of_tcwRow {a : Act} {k : Act → State → Option State} {f : Nat → Thread → State × Nat} {r : State} {out : Nat}
    (ha : Acting s a) (hs : AtSlot s tile slot u th) (hid : tidOf th = tid)
    (hk : k a (begun s) = some (tcwRow (begun s) tile slot tid f)) (hf : f u th = (r, out)) (hb : r.behind = none) :
    actRow s k = .next (tcwSet r tile slot out) := by
  have hs' : AtSlot (begun s) tile slot u th := hs
  rw [tcwRow_atSlot hs' hid, hf] at hk
  exact actRow_done ha.1 hk hb

end

@[simp] theorem tcw_tcwSet (s : State) (tile slot out : Nat) : lookD (tileOf (tcwSet s tile slot out) tile).tcw slot 0 = out := by
  simp [tcwSet]

/-- An outcome is all that a thread-control word changes of the tiles. -/
theorem tileOf_tcwSet (s : State) (tile slot out k : Nat) :
    { tileOf (tcwSet s tile slot out) k with tcw := (tileOf s k).tcw } = tileOf s k := by
  by_cases h : k = tile
  · subst h; simp [tcwSet]
  · rw [tcwSet, tileOf_modTile_of_ne _ _ _ _ h]

@[simp] theorem threadOf_tcwSet (s : State) (tile slot out u : Nat) : threadOf (tcwSet s tile slot out) u = threadOf s u := rfl

/-- An act that gives an outcome and does nothing else. -/
theorem outcomeOnly_tcwSet (s : State) (tile slot out : Nat) : OutcomeOnly s (tcwSet (begun s) tile slot out) tile slot out :=
  ⟨tcw_tcwSet _ _ _ _, rfl, fun k => tileOf_tcwSet (begun s) tile slot out k⟩

/-- An act that changes one thread, with outcome 0. -/
theorem outcomeThread_modThread {s : State} {tile slot u : Nat} {th : Thread} (f : Thread → Thread) (h : threadOf s u = some th) :
    OutcomeThread s (tcwSet (modThread (begun s) u f) tile slot 0) tile slot u (f th) :=
  ⟨tcw_tcwSet _ _ _ _, threadOf_modThread_some (s := begun s) f h, fun v hv => threadOf_modThread_of_ne (begun s) u v f hv, rfl,
    fun k => tileOf_tcwSet (modThread (begun s) u f) tile slot 0 k⟩

/-! ### Vacating (R156, R159) -/

section
variable {s : State} {tile slot tid u : Nat} {th : Thread}

/-- A thread outside a pair moves alone. -/
theorem together_alone (hm : mateOf s u = none) : together s u = [u] := by rw [together, hm]

theorem vacate_refused (ha : Acting s (.vacate tile slot tid)) (hs : AtSlot s tile slot u th) (hid : tidOf th = tid)
    (h : (tileOf s tile).csav = 0 ∨ th.stand = .vacated) : ∃ t, exec .vacate s = .next t ∧ OutcomeOnly s t tile slot 2 := by
  refine ⟨_, ?_, outcomeOnly_tcwSet s tile slot 2⟩
  change execVacate s = _
  unfold execVacate
  exact next_of_tcwRow ha hs hid rfl (if_pos h) ha.2

theorem vacate_full (ha : Acting s (.vacate tile slot tid)) (hs : AtSlot s tile slot u th) (hid : tidOf th = tid)
    (hsave : (tileOf s tile).csav ≠ 0) (hstand : th.stand ≠ .vacated)
    (hroom : cacheRoom (tileOf s tile) (together s u).length = false) :
    ∃ t, exec .vacate s = .next t ∧ OutcomeOnly s t tile slot 3 := by
  have hroom' : (!cacheRoom (tileOf s tile) (together s u).length) = true := by rw [hroom]; rfl
  refine ⟨_, ?_, outcomeOnly_tcwSet s tile slot 3⟩
  change execVacate s = _
  unfold execVacate
  exact next_of_tcwRow ha hs hid rfl ((if_neg (not_or.mpr ⟨hsave, hstand⟩)).trans (if_pos hroom')) ha.2

theorem vacate_accepted (ha : Acting s (.vacate tile slot tid)) (hs : AtSlot s tile slot u th) (hid : tidOf th = tid)
    (hsave : (tileOf s tile).csav ≠ 0) (hstand : th.stand ≠ .vacated) (hroom : cacheRoom (tileOf s tile) 1 = true)
    (hm : mateOf s u = none) :
    ∃ t, exec .vacate s = .next t ∧ OutcomeThread s t tile slot u { th with leaving := 1 } := by
  have halone : together (begun s) u = [u] := together_alone hm
  have hroom' : ¬ (!cacheRoom (tileOf s tile) (together (begun s) u).length) = true := by simp [halone, hroom]
  have heffect : forEach (together (begun s) u) (fun st v => modThread st v fun t => { t with leaving := 1 }) (begun s)
      = modThread (begun s) u fun t => { t with leaving := 1 } := by rw [halone]; rfl
  refine ⟨_, ?_, outcomeThread_modThread (fun t => { t with leaving := 1 }) hs.2⟩
  change execVacate s = _
  unfold execVacate
  exact next_of_tcwRow ha hs hid rfl
    (((if_neg (not_or.mpr ⟨hsave, hstand⟩)).trans (if_neg hroom')).trans (congrArg (·, 0) heffect)) ha.2

end

/-! ### What the cache is told of a save record (R159, R161) -/

theorem saveWriteAcknowledged {s : State} {tile u : Nat} (ha : Acting s (.saveWriteAcknowledgement tile u)) :
    ∃ t, exec .saveWriteAcknowledgement s = .next t ∧ t.threads = s.threads ∧ t.mem = s.mem
      ∧ (tileOf t tile).cache = (tileOf s tile).cache.map fun e => { e with written := e.written || decide (e.uid = u) } := by
  refine ⟨modTile (begun s) tile fun t =>
    { t with cache := t.cache.map fun e => if e.uid = u then { e with written := true } else e }, ?_, rfl, rfl, ?_⟩
  · change execSaveWriteAcknowledgement s = _
    unfold execSaveWriteAcknowledgement
    exact actRow_done ha.1 rfl ha.2
  · rw [tileOf_modTile_self]
    refine List.map_congr_left fun e _ => ?_
    by_cases h : e.uid = u <;> simp [h]

/-- A context of the cache whose save has faulted is kept there, or is released. -/
def keepContext (s : State) (tile u : Nat) (kept : Bool) : State :=
  modTile s tile fun t => { t with cache := t.cache.map fun e => if e.uid = u then { e with kept := kept } else e }

/-- The context-save fault of a thread (R161), posted as R148 says. -/
def saveFaulted (s : State) (tile u cause : Nat) (p : Ptr) (th : Thread) : State :=
  let e := faultEntry s th { cause := 0x1D, addr := p, info := ofN cause, progress := 0, fpc := th.pc, tick := now s, host := true } 4
  if th.sup then postHost (keepContext s tile u true) e else postHost (postSup (keepContext s tile u true) th.partn e) e

/-- The fault goes to queues, and to the cache. -/
theorem saveFaulted_frame (s : State) (tile u cause : Nat) (p : Ptr) (th : Thread) :
    (saveFaulted s tile u cause p th).threads = s.threads ∧ (saveFaulted s tile u cause p th).behind = s.behind
      ∧ (saveFaulted s tile u cause p th).tiles = (keepContext s tile u true).tiles := by
  unfold saveFaulted
  dsimp only
  split <;> exact ⟨rfl, rfl, rfl⟩

theorem contextSaveFaults {s : State} {tile u cause : Nat} {p : Ptr} {th : Thread} (ht : threadOf s u = some th)
    (ha : Acting s (.contextSaveFault tile u cause p)) :
    ∃ t, exec .contextSaveFault s = .next t ∧ t.threads = s.threads
      ∧ (tileOf t tile).cache = (tileOf s tile).cache.map fun e => { e with kept := e.kept || decide (e.uid = u) } := by
  obtain ⟨hthreads, hbehind, htiles⟩ := saveFaulted_frame (begun s) tile u cause p th
  refine ⟨saveFaulted (begun s) tile u cause p th, ?_, hthreads, ?_⟩
  · change execContextSaveFault s = _
    unfold execContextSaveFault
    refine actRow_done ha.1 ?_ (hbehind.trans ha.2)
    have ht' : threadOf (begun s) u = some th := ht
    simp only [ht']
    rfl
  · rw [tileOf, htiles]
    change (tileOf (keepContext (begun s) tile u true) tile).cache = _
    rw [keepContext, tileOf_modTile_self]
    refine List.map_congr_left fun e _ => ?_
    by_cases h : e.uid = u <;> simp [h]

end Sys2Proof.Machine

/-! ## What the return of a context leaves of the machine (R81, R159, R160) -/

namespace Sys2Proof.Machine

open Sys2Proof.Claims

/-! ### The slots of the cores through the hardware's own accesses -/

/-- The slots that each core has disabled, and when it last changed one (R80). -/
def coreSlots (s : State) (k : Nat) : List Nat × Option Nat := ((tileOf s k).disabled, (tileOf s k).thermAt)

/-- A change of a tile that is none of its slots. -/
theorem coreSlots_modTile (s : State) (j : Nat) {f : Tile → Tile}
    (hf : ∀ t, ((f t).disabled, (f t).thermAt) = (t.disabled, t.thermAt)) : coreSlots (modTile s j f) = coreSlots s := by
  funext k
  by_cases h : k = j
  · subst h; simp only [coreSlots, tileOf_modTile_self, hf]
  · simp only [coreSlots, tileOf_modTile_of_ne _ _ _ _ h]

theorem coreSlots_unsched (s : State) (f : Act → Bool) : coreSlots (unsched s f) = coreSlots s := by
  unfold unsched
  dsimp only
  split
  · funext k
    unfold coreSlots tileOf lookD
    rw [look_map]
    cases look s.tiles k <;> rfl
  · rfl

theorem coreSlots_setView (s : State) (k view : Nat) : coreSlots (setView s k view) = coreSlots s := by
  obtain ⟨m, c, e⟩ := setView_shape s k view
  rw [e]; rfl

theorem coreSlots_serveList (k : Nat) (l : List Req) (s : State) : coreSlots (serveList s k l).1 = coreSlots s := by
  induction l generalizing s with
  | nil => rfl
  | cons w t ih =>
    simp only [serveList]
    split
    · split
      · refine (ih _).trans ((coreSlots_unsched _ _).trans ?_)
        split <;> exact coreSlots_setView s k w.view
      · exact ih s
    · exact ih s

theorem coreSlots_setWaiters (s : State) (k : Nat) (l : List Req) : coreSlots (setWaiters s k l) = coreSlots s := by
  unfold setWaiters
  split
  · exact coreSlots_modTile s _ fun _ => rfl
  · rfl

theorem coreSlots_writeWord (s : State) (k : Nat) (v : Word) (full : Bool) : coreSlots (writeWord s k v full) = coreSlots s := by
  unfold writeWord serve
  split
  · exact (coreSlots_setWaiters _ k _).trans (coreSlots_serveList k _ (putWord s k v full))
  · rfl

theorem coreSlots_translate (s : State) (port n o : Nat) (w f : Bool) : coreSlots (translate s port n o w f).1 = coreSlots s := by
  unfold translate
  split
  · rfl
  · split <;> rfl

theorem coreSlots_countStubs (l : List (Nat × Nat)) (s : State) : coreSlots (countStubs l s) = coreSlots s := by
  unfold countStubs
  refine foldl_keeps coreSlots (fun s x => ?_) l s
  unfold countStub modBlock
  exact coreSlots_modTile s x.1 fun _ => rfl

theorem coreSlots_meetMove (s : State) (l : List (Nat × Nat)) : coreSlots (meetMove s l) = coreSlots s := by
  unfold meetMove
  split
  · split <;> rfl
  · rfl

theorem coreSlots_meetEarlier (s : State) (met : Bool) : coreSlots (meetEarlier s met) = coreSlots s := by
  unfold meetEarlier; split <;> rfl

theorem coreSlots_portKey (s : State) (n c o : Nat) (w f : Bool) : coreSlots (portKey s n c o w f).1 = coreSlots s := by
  have ht := coreSlots_translate s c n o w f
  unfold portKey
  split
  · rename_i e; rw [e] at ht; exact (coreSlots_meetEarlier _ _).trans ((coreSlots_setView _ _ _).trans ht)
  · rename_i e; rw [e] at ht; exact ht
  · rename_i e; rw [e] at ht; exact ht

theorem coreSlots_spadKey (s : State) (n : Nat) (p : Ptr) : coreSlots (spadKey s n p).1 = coreSlots s :=
  (coreSlots_meetEarlier _ _).trans ((coreSlots_meetMove _ _).trans (coreSlots_countStubs _ s))

theorem coreSlots_hwKey (s : State) (n : Nat) (p : Ptr) (w f : Bool) : coreSlots (hwKey s n p w f).1 = coreSlots s := by
  rw [hwKey_eq]
  split
  · rfl
  · split
    · exact coreSlots_spadKey s n p
    · exact coreSlots_portKey s n _ _ w f
    · exact coreSlots_portKey s n _ _ w f
    · rfl
    · rfl

theorem coreSlots_hwStore (s : State) (n : Nat) (p : Ptr) (v : Word) : coreSlots (hwStore s n p v) = coreSlots s := by
  have hk := coreSlots_hwKey s n p true false
  unfold hwStore
  split
  · rename_i e; rw [e] at hk; exact (coreSlots_writeWord _ _ _ _).trans hk
  · rename_i e; rw [e] at hk; exact hk

theorem coreSlots_hwLoad (s : State) (n : Nat) (p : Ptr) : coreSlots (hwLoad s n p).1 = coreSlots s := by
  have hk := coreSlots_hwKey s n p false false
  unfold hwLoad
  split
  · rename_i e; rw [e] at hk; split <;> exact hk
  · rename_i e; rw [e] at hk; exact hk

/-! ### Steps that disturb no core -/

/-- What the return of a context, or the landing of a leap, leaves of the machine: time, the slots of every core, its threads
by name, and that no access has to wait. -/
structure Steady (s t : State) : Prop where
  clear : Clear s → Clear t
  cycle : t.cycle = s.cycle
  tsc : t.tsc = s.tsc
  slots : coreSlots t = coreSlots s
  known : ∀ u, (threadOf t u).isSome = (threadOf s u).isSome

theorem Steady.refl (s : State) : Steady s s := ⟨id, rfl, rfl, rfl, fun _ => rfl⟩

theorem Steady.trans {s t r : State} (h : Steady s t) (h' : Steady t r) : Steady s r :=
  ⟨h'.clear ∘ h.clear, h'.cycle.trans h.cycle, h'.tsc.trans h.tsc, h'.slots.trans h.slots, fun u => (h'.known u).trans (h.known u)⟩

theorem Steady.of_quiet {s t : State} (hq : Quiet s t) (hc : Clear s → Clear t) (hs : coreSlots t = coreSlots s) : Steady s t := by
  obtain ⟨-, -, -, hcycle, htsc, -⟩ := id hq
  exact ⟨hc, hcycle, htsc, hs, fun u => by rw [hq.threadOf]⟩

theorem Steady.forEach {α : Type} {l : List α} {f : State → α → State} (h : ∀ s a, Steady s (f s a)) (s : State) :
    Steady s (forEach l f s) := by
  unfold Machine.forEach
  induction l generalizing s with
  | nil => exact Steady.refl s
  | cons a t ih => exact (h s a).trans (ih _)

theorem Steady.foldl_fst {α β : Type} {l : List α} {f : State × β → α → State × β} (h : ∀ p a, Steady p.1 (f p a).1)
    (p : State × β) : Steady p.1 (l.foldl f p).1 := by
  induction l generalizing p with
  | nil => exact Steady.refl _
  | cons a t ih => exact (h p a).trans (ih _)

theorem isSome_threadOf_modThread (s : State) (u v : Nat) (f : Thread → Thread) :
    (threadOf (modThread s u f) v).isSome = (threadOf s v).isSome := by
  by_cases h : v = u
  · subst h; rw [threadOf_modThread_self, Option.isSome_map]
  · rw [threadOf_modThread_of_ne _ _ _ _ h]

theorem steady_modThread (s : State) (u : Nat) (f : Thread → Thread) : Steady s (modThread s u f) :=
  ⟨fun h => ⟨h.behind, h.moves, h.walks, h.held⟩, rfl, rfl, rfl, fun v => isSome_threadOf_modThread s u v f⟩

/-- A change of a tile that is none of its slots and of no move. -/
theorem steady_modTile (s : State) (k : Nat) {f : Tile → Tile} (hm : ∀ t, (f t).move = t.move)
    (hf : ∀ t, ((f t).disabled, (f t).thermAt) = (t.disabled, t.thermAt)) : Steady s (modTile s k f) :=
  ⟨fun h => h.modTile k hm, rfl, rfl, coreSlots_modTile s k hf, fun _ => rfl⟩

theorem steady_sched (s : State) {x : Timed} (hx : heldAct x.act = false) : Steady s (sched s x) :=
  ⟨fun h => h.sched hx, rfl, rfl, rfl, fun _ => rfl⟩

theorem steady_schedAt (s : State) (c : Nat) {a : Act} (ha : heldAct a = false) : Steady s (schedAt s c a) := steady_sched s ha

theorem steady_hwStore (s : State) (n : Nat) (p : Ptr) (v : Word) : Steady s (hwStore s n p v) :=
  Steady.of_quiet (quiet_hwStore s n p v) (fun h => h.hwStore n p v) (coreSlots_hwStore s n p v)

theorem steady_hwLoad (s : State) (n : Nat) (p : Ptr) : Steady s (hwLoad s n p).1 :=
  Steady.of_quiet (quiet_hwLoad s n p) (fun h => h.hwLoad n p) (coreSlots_hwLoad s n p)

theorem steady_freshId (s : State) : Steady s (freshId s) :=
  ⟨fun h => ⟨h.behind, h.moves, h.walks, h.held⟩, rfl, rfl, rfl, fun _ => rfl⟩

/-! ### A context comes back (R159, R160) -/

theorem steady_rvCount (s : State) (u : Nat) : Steady s (rvCount s u) := by
  unfold rvCount
  split
  · exact Steady.refl s
  · split
    · exact Steady.refl s
    · dsimp only
      split
      · exact steady_modThread s u _
      · exact (steady_modThread s u _).trans (steady_schedAt _ _ rfl)

theorem steady_recheck (s : State) (u : Nat) : Steady s (recheck s u) := by
  unfold recheck
  split
  · exact Steady.refl s
  · split
    · split
      · exact steady_modThread s u _
      · exact Steady.refl s
    · split
      · exact steady_modThread s u _
      · exact Steady.refl s
    · exact Steady.refl s

theorem steady_deliverRecord (s : State) (u : Nat) : Steady s (deliverRecord s u) := by
  unfold deliverRecord
  split
  · exact Steady.refl s
  · refine Steady.trans ?_ (steady_modThread _ u _)
    refine Steady.forEach (fun st i => ?_) s
    dsimp only
    split
    · exact Steady.refl st
    · split
      · exact (steady_hwLoad st _ _).trans (steady_hwStore _ _ _ _)
      · exact steady_hwStore st _ _ _

/-- The words of a save record, read one after another. -/
theorem steady_readRecord (s : State) (n : Nat) (p : Ptr) (l : List Nat) (ws : List Word) :
    Steady s (l.foldl (fun (a : State × List Word) i =>
      let x := hwLoad a.1 n (offBy p (8 * i)); (x.1, a.2 ++ [x.2.2])) (s, ws)).1 := by
  refine Steady.foldl_fst ?_ (s, ws)
  exact fun a _ => steady_hwLoad a.1 n _

/-- The wait that a context came back with goes on (R81, R159). -/
def resumeWait (s : State) (u : Nat) : State :=
  match threadOf s u with
  | some t => match t.wait with | .rvwait _ => if t.held then s else rvCount s u | _ => recheck s u
  | none => s

/-- A context leaves the cache. -/
def leaveCache (s : State) (tile u : Nat) : State :=
  modTile s tile fun t => { t with cache := t.cache.filter fun e => decide (e.uid ≠ u) }

theorem steady_resumeWait (s : State) (u : Nat) : Steady s (resumeWait s u) := by
  unfold resumeWait
  split
  · split
    · split
      · exact Steady.refl s
      · exact steady_rvCount s u
    · exact steady_recheck s u
  · exact Steady.refl s

theorem steady_leaveCache (s : State) (tile u : Nat) : Steady s (leaveCache s tile u) :=
  steady_modTile s tile (fun _ => rfl) fun _ => rfl

/-- A context that comes back: what it needs is read, its thread stands in the slot, and it leaves the cache. -/
theorem swapIn_shape {s : State} {u : Nat} {th : Thread} (slot : Nat) (h : threadOf s u = some th) :
    ∃ r g, swapIn s u slot = resumeWait (leaveCache (modThread r u g) th.tile u) u ∧ Steady s r
      ∧ ∀ t, (g t).stand = .inSlot ∧ (g t).slot = slot := by
  unfold swapIn
  simp only [h]
  refine ⟨_, _, rfl, ?_, fun t => ⟨rfl, rfl⟩⟩
  have hbase : Steady s (if inCache s th.tile u = true ∨ th.saved = [] then s else deliverRecord s u) := by
    split
    · exact Steady.refl s
    · exact steady_deliverRecord s u
  split
  · exact hbase
  · exact hbase.trans (steady_readRecord _ _ _ _ _)

theorem steady_swapIn (s : State) (u slot : Nat) : Steady s (swapIn s u slot) := by
  cases h : threadOf s u with
  | none => unfold swapIn; simp only [h]; exact Steady.refl s
  | some th =>
    obtain ⟨r, g, e, hr, -⟩ := swapIn_shape slot h
    rw [e]
    exact ((hr.trans (steady_modThread r u g)).trans (steady_leaveCache _ _ u)).trans (steady_resumeWait _ u)

end Sys2Proof.Machine

/-! ## The context cache (R156-R161) -/

namespace Sys2Proof.Machine

open Sys2Proof.Claims

/-- The thread stands where it stood, and no tile has changed. -/
def StandsAs (s t : State) (u : Nat) : Prop :=
  t.tiles = s.tiles ∧ ∀ x, threadOf s u = some x → ∃ y, threadOf t u = some y ∧ y.stand = x.stand ∧ y.slot = x.slot

theorem StandsAs.refl (s : State) (u : Nat) : StandsAs s s u := ⟨rfl, fun x hx => ⟨x, hx, rfl, rfl⟩⟩

theorem standsAs_modThread (s : State) (u : Nat) {f : Thread → Thread} (hf : ∀ t, (f t).stand = t.stand ∧ (f t).slot = t.slot) :
    StandsAs s (modThread s u f) u :=
  ⟨rfl, fun x hx => ⟨f x, threadOf_modThread_some f hx, hf x⟩⟩

theorem standsAs_rvCount (s : State) (u : Nat) : StandsAs s (rvCount s u) u := by
  unfold rvCount
  split
  · exact StandsAs.refl s u
  · split
    · exact StandsAs.refl s u
    · dsimp only
      split
      · exact standsAs_modThread s u fun _ => ⟨rfl, rfl⟩
      · exact standsAs_modThread s u fun _ => ⟨rfl, rfl⟩

theorem standsAs_recheck (s : State) (u : Nat) : StandsAs s (recheck s u) u := by
  unfold recheck
  split
  · exact StandsAs.refl s u
  · split
    · split
      · exact standsAs_modThread s u fun _ => ⟨rfl, rfl⟩
      · exact StandsAs.refl s u
    · split
      · exact standsAs_modThread s u fun _ => ⟨rfl, rfl⟩
      · exact StandsAs.refl s u
    · exact StandsAs.refl s u

theorem standsAs_resumeWait (s : State) (u : Nat) : StandsAs s (resumeWait s u) u := by
  unfold resumeWait
  split
  · split
    · split
      · exact StandsAs.refl s u
      · exact standsAs_rvCount s u
    · exact standsAs_recheck s u
  · exact StandsAs.refl s u

/-- A context that has come back stands in its slot, and the cache of its tile does not list it. -/
theorem swapIn_stands {s : State} {u : Nat} {th : Thread} (slot : Nat) (h : threadOf s u = some th) :
    ∃ x, threadOf (swapIn s u slot) u = some x ∧ x.stand = .inSlot ∧ x.slot = slot
      ∧ ∀ e ∈ (tileOf (swapIn s u slot) th.tile).cache, e.uid ≠ u := by
  obtain ⟨r, g, e, hr, hg⟩ := swapIn_shape slot h
  obtain ⟨y, hy⟩ := Option.isSome_iff_exists.mp ((hr.known u).trans (by rw [h]; rfl))
  obtain ⟨htiles, hstands⟩ := standsAs_resumeWait (leaveCache (modThread r u g) th.tile u) u
  obtain ⟨x, hx, hstand, hslot⟩ := hstands (g y) (threadOf_modThread_some g hy)
  rw [e]
  refine ⟨x, hx, hstand.trans (hg y).1, hslot.trans (hg y).2, ?_⟩
  rw [tileOf, htiles]
  change ∀ e ∈ (tileOf (leaveCache (modThread r u g) th.tile u) th.tile).cache, e.uid ≠ u
  rw [leaveCache, tileOf_modTile_self]
  simp

section
variable {s : State} {tile slot tid u : Nat} {th : Thread}

theorem restore_refused (ha : Acting s (.restore tile slot tid)) (hs : AtSlot s tile slot u th) (hid : tidOf th = tid)
    (h : th.stand ≠ .vacated) : ∃ t, exec .restore s = .next t ∧ OutcomeOnly s t tile slot 2 := by
  refine ⟨_, ?_, outcomeOnly_tcwSet s tile slot 2⟩
  change execRestore s = _
  unfold execRestore
  exact next_of_tcwRow ha hs hid rfl (if_pos (.inl h)) ha.2

/-- A thread that software vacated may be restored, whether its save has faulted or not (R159, R161). -/
theorem restorable (hstand : th.stand = .vacated) (hd : th.displaced = none) (b : Bool) :
    ¬ (th.stand ≠ .vacated ∨ (th.displaced.isSome = true ∧ b = false)) := by simp [hstand, hd]

/-- A vacated thread whose slot is disabled waits as a displaced thread does (R82). -/
def waitDisplaced (cycle : Nat) (t : Thread) : Thread := { t with displaced := some (t.displaced.getD cycle) }

theorem restore_waits (ha : Acting s (.restore tile slot tid)) (hs : AtSlot s tile slot u th) (hid : tidOf th = tid)
    (hstand : th.stand = .vacated) (hd : th.displaced = none) (hm : mateOf s u = none) (hslot : th.slot ∈ (tileOf s tile).disabled) :
    ∃ t, exec .restore s = .next t ∧ lookD (tileOf t tile).tcw slot 0 = 0
      ∧ threadOf t u = some { th with displaced := some s.cycle } ∧ ∀ v, v ≠ u → threadOf t v = threadOf s v := by
  have heffect : forEach (together (begun s) u) (fun st v => modThread st v (waitDisplaced s.cycle)) (keepContext (begun s) tile u false)
      = modThread (keepContext (begun s) tile u false) u (waitDisplaced s.cycle) := by
    rw [together_alone (s := begun s) hm]; rfl
  refine ⟨tcwSet (modThread (keepContext (begun s) tile u false) u (waitDisplaced s.cycle)) tile slot 0, ?_, tcw_tcwSet _ _ _ _, ?_,
    fun v hv => threadOf_modThread_of_ne (keepContext (begun s) tile u false) u v _ hv⟩
  · change execRestore s = _
    unfold execRestore
    exact next_of_tcwRow ha hs hid rfl (((if_neg (restorable hstand hd _)).trans (if_pos hslot)).trans (congrArg (·, 0) heffect)) ha.2
  · refine (threadOf_modThread_some (s := keepContext (begun s) tile u false) _ hs.2).trans ?_
    simp only [waitDisplaced, hd, Option.getD_none]

/-- A vacated thread goes back to its slot; another stays. -/
def returnVacated (s : State) (u : Nat) : State :=
  match threadOf s u with
  | some t => if t.stand = .vacated then swapIn s u t.slot else s
  | none => s

theorem returnVacated_of_vacated {s : State} {u : Nat} {th : Thread} (h : threadOf s u = some th) (hstand : th.stand = .vacated) :
    returnVacated s u = swapIn s u th.slot := by simp only [returnVacated, h, hstand, if_true]

theorem restore_returns (ha : Acting s (.restore tile slot tid)) (hs : AtSlot s tile slot u th) (hid : tidOf th = tid)
    (htile : th.tile = tile) (hstand : th.stand = .vacated) (hd : th.displaced = none) (hm : mateOf s u = none)
    (hslot : th.slot ∉ (tileOf s tile).disabled) (hu : Unhindered s) :
    ∃ t x, exec .restore s = .next t ∧ lookD (tileOf t tile).tcw slot 0 = 0 ∧ threadOf t u = some x
      ∧ x.stand = .inSlot ∧ x.slot = th.slot ∧ ∀ e ∈ (tileOf t tile).cache, e.uid ≠ u := by
  have hkept : threadOf (keepContext (begun s) tile u false) u = some th := hs.2
  have hclear : Clear (keepContext (begun s) tile u false) :=
    (clear_of_unhindered (s := begun s) ha.2 hu).modTile tile fun _ => rfl
  have heffect : forEach (together (begun s) u) returnVacated (keepContext (begun s) tile u false)
      = swapIn (keepContext (begun s) tile u false) u th.slot := by
    rw [together_alone (s := begun s) hm]
    exact returnVacated_of_vacated hkept hstand
  obtain ⟨x, hx, hin, hat, hcache⟩ := swapIn_stands th.slot hkept
  refine ⟨tcwSet (swapIn (keepContext (begun s) tile u false) u th.slot) tile slot 0, x, ?_, tcw_tcwSet _ _ _ _, hx, hin, hat, ?_⟩
  · change execRestore s = _
    unfold execRestore
    exact next_of_tcwRow ha hs hid rfl (((if_neg (restorable hstand hd _)).trans (if_neg hslot)).trans (congrArg (·, 0) heffect))
      ((steady_swapIn _ u th.slot).clear hclear).behind
  · rw [tcwSet, tileOf_modTile_self]
    exact htile ▸ hcache

end

theorem contextCache : ContextCache := by
  intro s tile slot tid u th hs hid htile hslot
  refine ⟨fun ha => ⟨vacate_refused ha hs hid, vacate_full ha hs hid, vacate_accepted ha hs hid⟩, fun ha => ⟨restore_refused ha hs hid, ?_, ?_⟩,
    saveWriteAcknowledged, fun cause p => contextSaveFaults hs.2⟩
  · intro hstand hd hm hin
    exact restore_waits ha hs hid hstand hd hm (hslot ▸ hin)
  · intro hstand hd hm hin hu
    obtain ⟨t, x, hexec, htcw, hx, hstands, hat, hcache⟩ := restore_returns ha hs hid htile hstand hd hm (hslot ▸ hin) hu
    exact ⟨t, x, hexec, htcw, hx, hstands, hat.trans hslot, hcache⟩

end Sys2Proof.Machine

/-! ## Thermal slots (R80-R82, R412) -/

namespace Sys2Proof.Machine

open Sys2Proof.Claims

/-! ### A slot is disabled (R80, R81) -/

/-- A change of an entry, under rising keys, is a change of every entry of its key. -/
theorem upd_eq_map {α : Type} (m : AMap α) (k : Nat) (f : α → α) (h : keysRise m = true) :
    upd m k f = m.map fun e => (e.1, if e.1 = k then f e.2 else e.2) := by
  induction m with
  | nil => rfl
  | cons e t ih =>
    obtain ⟨j, v⟩ := e
    obtain ⟨hj, ht⟩ := (keysRise_cons_iff j v t).mp h
    by_cases hjk : j = k
    · subst hjk
      have hrest : t.map (fun e => (e.1, if e.1 = j then f e.2 else e.2)) = t := by
        refine (List.map_congr_left fun e he => ?_).trans (List.map_id t)
        rw [if_neg (by have := hj e he; omega)]; rfl
      simp [upd, look, ins, hrest]
    · have hcons : upd ((j, v) :: t) k f = (j, v) :: upd t k f := by
        unfold upd
        rw [look, if_neg hjk]
        cases hl : look t k with
        | none => rfl
        | some w =>
          have : j < k := hj (k, w) (mem_of_look hl)
          simp [ins, this]
      rw [hcons, ih ht]
      simp [hjk]

/-- Which thread stands in a slot does not hang on what else a thread does. -/
theorem atSlot_modThread {s : State} (h : keysRise s.threads = true) (u : Nat) {f : Thread → Thread}
    (hf : ∀ t, (f t).tile = t.tile ∧ (f t).slot = t.slot ∧ (f t).stand = t.stand) (tile k : Nat) :
    atSlot (modThread s u f) tile k = atSlot s tile k := by
  unfold atSlot threadsWhere modThread
  rw [upd_eq_map _ _ _ h, List.filter_map, List.map_map]
  refine congrArg List.head? (congrArg₂ List.map rfl (congrArg (List.filter · s.threads) ?_))
  funext e
  by_cases he : e.1 = u <;> simp [he, hf]

/-- A thread whose slot is disabled begins to leave, unless it leaves already (R81). -/
def startLeaving (t : Thread) : Thread := if t.stand = .inSlot ∧ t.leaving = 0 then { t with leaving := 2 } else t

theorem startLeaving_startLeaving (t : Thread) : startLeaving (startLeaving t) = startLeaving t := by
  by_cases h : t.stand = .inSlot ∧ t.leaving = 0 <;> simp [startLeaving, h]

theorem startLeaving_place (t : Thread) :
    (startLeaving t).tile = t.tile ∧ (startLeaving t).slot = t.slot ∧ (startLeaving t).stand = t.stand := by
  unfold startLeaving; split <;> exact ⟨rfl, rfl, rfl⟩

/-- The list of disabled slots is longer by one. -/
def markDisabled (s : State) (tile k : Nat) : State := modTile s tile fun t => { t with disabled := setAdd t.disabled k }

theorem disableSlot_cases (s : State) (tile k : Nat) :
    (atSlot s tile k = none ∧ disableSlot s tile k = markDisabled s tile k)
      ∨ ∃ v, atSlot s tile k = some v ∧ disableSlot s tile k = modThread (markDisabled s tile k) v startLeaving := by
  unfold disableSlot
  cases atSlot s tile k with
  | none => exact .inl ⟨rfl, rfl⟩
  | some v => exact .inr ⟨v, rfl, rfl⟩

/-- What one disabled slot does: to the machine, to the thread that stands there, and to every other. -/
theorem disableSlot_spec {s : State} (h : keysRise s.threads = true) (tile k : Nat) :
    keysRise (disableSlot s tile k).threads = true ∧ (disableSlot s tile k).behind = s.behind
      ∧ tileOf (disableSlot s tile k) tile = { tileOf s tile with disabled := setAdd (tileOf s tile).disabled k }
      ∧ (∀ j, atSlot (disableSlot s tile k) tile j = atSlot s tile j)
      ∧ (∀ u th, threadOf s u = some th → atSlot s tile k = some u → threadOf (disableSlot s tile k) u = some (startLeaving th))
      ∧ ∀ u th, threadOf s u = some th → threadOf (disableSlot s tile k) u = some th
          ∨ threadOf (disableSlot s tile k) u = some (startLeaving th) := by
  rcases disableSlot_cases s tile k with ⟨hat, e⟩ | ⟨v, hat, e⟩
  · rw [e]
    refine ⟨h, rfl, tileOf_modTile_self s tile _, fun _ => rfl, fun u th _ hu => ?_, fun u th hu => .inl hu⟩
    rw [hat] at hu; exact absurd hu (by simp)
  · have hself : ∀ u th, threadOf s u = some th → u = v →
        threadOf (modThread (markDisabled s tile k) v startLeaving) u = some (startLeaving th) := by
      rintro u th hu rfl
      exact threadOf_modThread_some (s := markDisabled s tile k) startLeaving hu
    rw [e]
    refine ⟨keysRise_upd _ _ _ h, rfl, tileOf_modTile_self s tile fun t => { t with disabled := setAdd t.disabled k },
      atSlot_modThread (s := markDisabled s tile k) h v startLeaving_place tile, fun u th hu hk => ?_, fun u th hu => ?_⟩
    · exact hself u th hu (Option.some.inj (hk.symm.trans hat))
    · by_cases huv : u = v
      · exact .inr (hself u th hu huv)
      · exact .inl ((threadOf_modThread_of_ne _ _ _ _ huv).trans hu)

/-- Several slots of a core are disabled. -/
theorem disableSlots_spec (g : List Nat) (tile : Nat) {s : State} (h : keysRise s.threads = true) :
    (forEach g (fun s k => disableSlot s tile k) s).behind = s.behind
      ∧ (tileOf (forEach g (fun s k => disableSlot s tile k) s) tile).thermAt = (tileOf s tile).thermAt
      ∧ (∀ n, n ∈ (tileOf (forEach g (fun s k => disableSlot s tile k) s) tile).disabled ↔ n ∈ g ∨ n ∈ (tileOf s tile).disabled)
      ∧ (∀ u th, threadOf s u = some th → (∃ k ∈ g, atSlot s tile k = some u) →
          threadOf (forEach g (fun s k => disableSlot s tile k) s) u = some (startLeaving th))
      ∧ ∀ u th, threadOf s u = some th → threadOf (forEach g (fun s k => disableSlot s tile k) s) u = some th
          ∨ threadOf (forEach g (fun s k => disableSlot s tile k) s) u = some (startLeaving th) := by
  induction g generalizing s with
  | nil => exact ⟨rfl, rfl, fun n => by simp [forEach], fun u th _ ⟨k, hk, _⟩ => absurd hk (by simp), fun u th hu => .inl hu⟩
  | cons k g ih =>
    obtain ⟨hrise, hbehind, htile, hat, hhere, hall⟩ := disableSlot_spec h tile k
    obtain ⟨ibehind, itherm, idis, ihere, iall⟩ := ih hrise
    rw [show forEach (k :: g) (fun s k => disableSlot s tile k) s = forEach g (fun s k => disableSlot s tile k) (disableSlot s tile k) from rfl]
    refine ⟨ibehind.trans hbehind, itherm.trans (by rw [htile]), fun n => ?_, ?_, ?_⟩
    · rw [idis, htile, mem_setAdd, List.mem_cons]; tauto
    · rintro u th hu ⟨j, hj, hju⟩
      rcases List.mem_cons.mp hj with rfl | hj
      · rcases iall u _ (hhere u th hu hju) with e | e
        · exact e
        · rwa [startLeaving_startLeaving] at e
      · have hju' : ∃ i ∈ g, atSlot (disableSlot s tile k) tile i = some u := ⟨j, hj, (hat j).trans hju⟩
        rcases hall u th hu with e | e
        · exact ihere u th e hju'
        · rw [ihere u _ e hju', startLeaving_startLeaving]
    · intro u th hu
      rcases hall u th hu with e | e
      · exact iall u th e
      · rcases iall u _ e with e' | e'
        · exact .inr e'
        · rw [startLeaving_startLeaving] at e'; exact .inr e'

/-! ### Which slots go (R80) -/

theorem mem_slotGroup (s : State) (tile k : Nat) : k ∈ slotGroup s tile k := by
  unfold slotGroup
  dsimp only
  split
  · simp only [List.mem_cons, List.not_mem_nil, or_false]; omega
  · exact List.mem_singleton.mpr rfl

theorem slotGroup_lt (s : State) (tile k : Nat) (hk : k < 16) : ∀ n ∈ slotGroup s tile k, n < 16 := by
  unfold slotGroup
  dsimp only
  split
  · simp only [List.forall_mem_cons, List.not_mem_nil, false_implies, implies_true, and_true]; omega
  · simpa using hk

/-- On a core that runs no pair a slot changes alone (R80). -/
theorem slotGroup_unpaired (s : State) (tile k : Nat) (h : ∀ e ∈ s.threads, e.2.tile = tile → e.2.role = 0) :
    slotGroup s tile k = [k] := by
  have hpair : s.threads.any (fun e => decide (e.2.tile = tile) && decide (e.2.role ≠ 0)) = false := by
    refine List.any_eq_false.mpr fun e he => ?_
    have := h e he
    simpa using this
  unfold slotGroup
  dsimp only
  rw [hpair]
  rfl

/-- The last number below n that satisfies p. -/
theorem find_reverse_range {p : Nat → Bool} {n k : Nat} (h : (List.range n).reverse.find? p = some k) :
    k < n ∧ p k = true ∧ ∀ j, k < j → j < n → p j = false := by
  induction n with
  | zero => simp at h
  | succ n ih =>
    rw [List.range_succ, List.reverse_append, List.reverse_singleton, List.singleton_append, List.find?_cons] at h
    cases hp : p n with
    | true =>
      rw [hp] at h
      obtain rfl := Option.some.inj h
      exact ⟨by omega, hp, fun j h1 h2 => by omega⟩
    | false =>
      rw [hp] at h
      obtain ⟨h1, h2, h3⟩ := ih h
      refine ⟨by omega, h2, fun j hj hjn => ?_⟩
      by_cases e : j = n
      · rwa [e]
      · exact h3 j hj (by omega)

/-- A core that disables takes the group of its highest enabled slot, never slot 0 (R80). -/
theorem disableNext_spec {s : State} {tile : Nat} {g : List Nat} (h : disableNext s tile = some g) :
    ∃ k, g = slotGroup s tile k ∧ 0 ∉ g ∧ k < 16 ∧ k ≠ 0 ∧ k ∉ (tileOf s tile).disabled
      ∧ ∀ n, k < n → n < 16 → n ∈ (tileOf s tile).disabled := by
  unfold disableNext at h
  split at h
  · exact absurd h (by simp)
  · rename_i k hk
    obtain ⟨hlt, hp, habove⟩ := find_reverse_range hk
    simp only [Bool.and_eq_true, decide_eq_true_eq] at hp
    split at h
    · exact absurd h (by simp)
    · rename_i h0
      obtain rfl := Option.some.inj h
      refine ⟨k, rfl, h0, hlt, hp.1, hp.2, fun n hn hn16 => ?_⟩
      have := habove n hn hn16
      simp only [Bool.and_eq_false_iff, decide_eq_false_iff_not, not_not] at this
      rcases this with h0 | hdis
      · omega
      · exact hdis

end Sys2Proof.Machine

/-! ### A slot is given back (R80, R82, R197) -/

namespace Sys2Proof.Machine

open Sys2Proof.Claims

theorem steady_sendPart (s : State) (u : Nat) (th : Thread) (f : Flight) (q : PartReq) (at_ : Nat) :
    Steady s (sendPart s u th f q at_) := by
  unfold sendPart
  split
  · exact Steady.refl s
  · exact steady_sched s rfl

theorem steady_sendRun (u : Nat) (th : Thread) (f : Flight) (run : List PartReq) (s : State) (at_ : Nat) :
    Steady s (sendRun s u th f run at_) := by
  induction run generalizing s at_ with
  | nil => exact Steady.refl s
  | cons q t ih => exact (steady_sendPart s u th f q at_).trans (ih _ _)

theorem steady_lvHold (s : State) (u fid : Nat) (th : Thread) (n : Nat) : Steady s (lvHold s u fid th n) := by
  unfold lvHold
  split
  · split
    · exact (steady_modThread s _ _).trans (steady_modThread _ u _)
    · exact Steady.refl s
  · exact Steady.refl s

theorem steady_modFlight (s : State) (u fid : Nat) (g : Flight → Flight) : Steady s (modFlight s u fid g) := steady_modThread s u _

theorem Steady.ite {s t r : State} {c : Prop} [Decidable c] (ht : Steady s t) (hr : Steady s r) : Steady s (if c then t else r) := by
  split <;> assumption

theorem steady_sendNext (s : State) (u fid at_ : Nat) : Steady s (sendNext s u fid at_) := by
  unfold sendNext
  split
  · exact Steady.refl s
  · split
    · exact Steady.refl s
    · split
      · exact Steady.refl s
      · dsimp only
        refine Steady.trans ?_ (steady_sendRun u _ _ _ _ _)
        have hhold : ∀ th n c, Steady s (if (c : Bool) = true then lvHold s u fid th n else s) := fun th n c =>
          Steady.ite (steady_lvHold s u fid th n) (Steady.refl s)
        refine Steady.ite (Steady.trans ?_ (steady_modThread _ u _)) ?_
        all_goals exact Steady.ite (hhold _ _ _) ((hhold _ _ _).trans (steady_modFlight _ u fid _))

theorem steady_landLeap (s : State) (m : LeapMsg) (k : Nat) : Steady s (landLeap s m k) := by
  have hland : ∀ f c a, heldAct a = false → Steady s (schedAt (modThread s m.uid f) c a) := fun f c a ha =>
    (steady_modThread s m.uid f).trans (steady_schedAt _ c ha)
  unfold landLeap
  dsimp only
  split
  · have hwake : ∀ r, Steady s r → Steady s (match threadOf r m.uid with
        | some th => match th.wait with | .rvwait _ => if th.held then r else rvCount r m.uid | _ => r
        | none => r) := by
      intro r hr
      split
      · split
        · exact Steady.ite hr (hr.trans (steady_rvCount r m.uid))
        · exact hr
      · exact hr
    exact hwake _ (((hland _ _ _ rfl).trans (steady_modThread _ m.uid _)).trans (steady_recheck _ m.uid))
  · split
    · exact (hland _ _ _ rfl).trans (steady_modThread _ m.uid _)
    · exact (((hland _ _ _ rfl).trans (steady_freshId _)).trans (steady_modThread _ m.uid _)).trans (steady_sendNext _ _ _ _)

theorem steady_slotFreed (s : State) (tile : Nat) : Steady s (slotFreed s tile) := by
  unfold slotFreed
  split
  · refine Steady.trans ?_ (steady_landLeap _ _ _)
    exact steady_modTile s tile (fun _ => rfl) fun _ => rfl
  · exact Steady.refl s

theorem steady_returnDisplaced (s : State) (tile k : Nat) : Steady s (returnDisplaced s tile k) := by
  unfold returnDisplaced
  split
  · exact Steady.refl s
  · split
    · exact Steady.refl s
    · dsimp only
      refine Steady.ite (Steady.refl s) (Steady.trans ?_ (steady_swapIn _ _ k))
      split
      · exact Steady.ite (steady_modThread s _ _) (Steady.refl s)
      · exact Steady.refl s

/-- The list of disabled slots without one. -/
def markEnabled (s : State) (tile k : Nat) : State := modTile s tile fun t => { t with disabled := setDel t.disabled k }

theorem steady_enableSlot (s : State) (tile k : Nat) : Steady (markEnabled s tile k) (enableSlot s tile k) := by
  unfold enableSlot
  split
  · exact steady_modThread _ _ _
  · exact steady_slotFreed _ tile

/-- What the re-enabling of a core's slots does to its slots, and leaves of the machine. -/
theorem enableSlots_spec (g : List Nat) (tile : Nat) (s : State) :
    let t := forEach g (fun s k => enableSlot s tile k) s
    (Clear s → Clear t) ∧ t.cycle = s.cycle ∧ (tileOf t tile).thermAt = (tileOf s tile).thermAt
      ∧ ∀ n, n ∈ (tileOf t tile).disabled ↔ n ∉ g ∧ n ∈ (tileOf s tile).disabled := by
  induction g generalizing s with
  | nil => exact ⟨id, rfl, rfl, fun n => by simp [forEach]⟩
  | cons k g ih =>
    obtain ⟨iclear, icycle, itherm, idis⟩ := ih (enableSlot s tile k)
    have hsteady := steady_enableSlot s tile k
    have hmark : tileOf (markEnabled s tile k) tile = { tileOf s tile with disabled := setDel (tileOf s tile).disabled k } :=
      tileOf_modTile_self s tile _
    have hslots : coreSlots (enableSlot s tile k) tile = (setDel (tileOf s tile).disabled k, (tileOf s tile).thermAt) := by
      rw [hsteady.slots, coreSlots, hmark]
    obtain ⟨hdis, htherm⟩ := Prod.mk.inj hslots
    refine ⟨fun h => iclear (hsteady.clear (h.modTile tile fun _ => rfl)), icycle.trans hsteady.cycle, itherm.trans htherm, fun n => ?_⟩
    rw [show forEach (k :: g) (fun s k => enableSlot s tile k) s = forEach g (fun s k => enableSlot s tile k) (enableSlot s tile k) from rfl,
      idis, hdis, mem_setDel, List.mem_cons]
    tauto

/-- A core re-enables a group of slots, and its displaced threads return (R80, R82). -/
def reenabled (s : State) (tile : Nat) (g : List Nat) : State :=
  forEach g (fun s k => returnDisplaced s tile k) (forEach g (fun s k => enableSlot s tile k)
    (modTile s tile fun t => { t with thermAt := some (now s) }))

theorem reenabled_spec (s : State) (tile : Nat) (g : List Nat) :
    (Clear s → Clear (reenabled s tile g)) ∧ (reenabled s tile g).cycle = s.cycle
      ∧ (tileOf (reenabled s tile g) tile).thermAt = some (now s) ∧ ∀ k ∈ g, k ∉ (tileOf (reenabled s tile g) tile).disabled := by
  obtain ⟨hclear, hcycle, htherm, hdis⟩ := enableSlots_spec g tile (modTile s tile fun t => { t with thermAt := some (now s) })
  have hreturn := Steady.forEach (l := g) (fun s k => steady_returnDisplaced s tile k)
    (forEach g (fun s k => enableSlot s tile k) (modTile s tile fun t => { t with thermAt := some (now s) }))
  obtain ⟨rdis, rtherm⟩ := Prod.mk.inj (congrFun hreturn.slots tile)
  refine ⟨fun h => hreturn.clear (hclear (h.modTile tile fun _ => rfl)), hreturn.cycle.trans hcycle, ?_, fun k hk => ?_⟩
  · rw [reenabled, rtherm, htherm, tileOf_modTile_self]
  · rw [reenabled, rdis, hdis]
    exact fun h => h.1 hk

/-! ### Firmware and parity (R80, R82, R412; log 7) -/

section
variable {α β : Type} (key : α → Nat)

/-- An entry that is written once, under its own key, is read back. -/
theorem lookD_foldl_ins (val : α → β) (d : β) (l : List α) (h : (l.map key).Nodup) (m : AMap β) :
    (∀ x ∈ l, lookD (l.foldl (fun m x => ins m (key x) (val x)) m) (key x) d = val x)
      ∧ ∀ k, k ∉ l.map key → lookD (l.foldl (fun m x => ins m (key x) (val x)) m) k d = lookD m k d := by
  induction l generalizing m with
  | nil => exact ⟨fun x hx => absurd hx (by simp), fun _ _ => rfl⟩
  | cons y t ih =>
    obtain ⟨hy, ht⟩ := List.nodup_cons.mp h
    obtain ⟨ihere, ielse⟩ := ih ht (ins m (key y) (val y))
    refine ⟨fun x hx => ?_, fun k hk => ?_⟩
    · rcases List.mem_cons.mp hx with rfl | hx
      · exact (ielse _ hy).trans (lookD_ins_self m _ _ d)
      · exact ihere x hx
    · obtain ⟨hky, hkt⟩ := not_or.mp (mt List.mem_cons.mpr hk)
      exact (ielse k hkt).trans (lookD_ins_of_ne m _ _ _ d hky)

/-- A tile that is changed once has that change, and one that is not changed stays. -/
theorem tileOf_forEach_modTile (f : α → Tile → Tile) (l : List α) (h : (l.map key).Nodup) (s : State) :
    (∀ x ∈ l, tileOf (forEach l (fun s x => modTile s (key x) (f x)) s) (key x) = f x (tileOf s (key x)))
      ∧ ∀ k, k ∉ l.map key → tileOf (forEach l (fun s x => modTile s (key x) (f x)) s) k = tileOf s k := by
  induction l generalizing s with
  | nil => exact ⟨fun x hx => absurd hx (by simp), fun _ _ => rfl⟩
  | cons y t ih =>
    obtain ⟨hy, ht⟩ := List.nodup_cons.mp h
    obtain ⟨ihere, ielse⟩ := ih ht (modTile s (key y) (f y))
    refine ⟨fun x hx => ?_, fun k hk => ?_⟩
    · rcases List.mem_cons.mp hx with rfl | hx
      · exact (ielse _ hy).trans (tileOf_modTile_self s _ _)
      · have hne : key x ≠ key y := fun e => hy (e ▸ List.mem_map_of_mem hx)
        exact (ihere x hx).trans (congrArg (f x) (tileOf_modTile_of_ne s _ _ _ hne))
    · obtain ⟨hky, hkt⟩ := not_or.mp (mt List.mem_cons.mpr hk)
      exact (ielse k hkt).trans (tileOf_modTile_of_ne s _ _ _ hky)

/-- Nothing but tiles is touched. -/
theorem forEach_modTile_frame (f : α → Tile → Tile) (l : List α) (s : State) :
    { forEach l (fun s x => modTile s (key x) (f x)) s with tiles := s.tiles } = s := by
  refine foldl_keeps (fun t : State => { t with tiles := s.tiles }) ?_ l s
  exact fun _ _ => rfl

end

/-! ### What the acts do -/

section
variable {s : State} {tile : Nat}

theorem slotDisable_none (ha : Acting s (.slotDisable tile)) (hd : disableNext s tile = none) :
    exec .slotDisable s = .next { s with act := none } := by
  change execSlotDisable s = _
  unfold execSlotDisable
  refine actRow_done ha.1 ?_ ha.2
  have hd' : disableNext (begun s) tile = none := hd
  simp only [hd']

theorem slotDisable_stays {g : List Nat} (ha : Acting s (.slotDisable tile)) (hd : disableNext s tile = some g)
    (hc : g.all (canLeave s tile) = false) : exec .slotDisable s = .next { s with act := none } := by
  change execSlotDisable s = _
  unfold execSlotDisable
  refine actRow_done ha.1 ?_ ha.2
  have hd' : disableNext (begun s) tile = some g := hd
  have hc' : g.all (canLeave (begun s) tile) = false := hc
  simp only [hd', hc', Bool.false_eq_true, if_false]

theorem slotDisable_goes {g : List Nat} (ha : Acting s (.slotDisable tile)) (hr : keysRise s.threads = true)
    (hd : disableNext s tile = some g) (hc : g.all (canLeave s tile) = true) :
    ∃ t, exec .slotDisable s = .next t ∧ (tileOf t tile).thermAt = some s.tsc
      ∧ (∀ n, n ∈ (tileOf t tile).disabled ↔ n ∈ g ∨ n ∈ (tileOf s tile).disabled)
      ∧ ∀ k ∈ g, ∀ u th, atSlot s tile k = some u → threadOf s u = some th → th.stand = .inSlot → th.leaving = 0 →
          threadOf t u = some { th with leaving := 2 } := by
  have hr' : keysRise (modTile (begun s) tile fun t => { t with thermAt := some (now s) }).threads = true := hr
  obtain ⟨hbehind, htherm, hdis, hhere, -⟩ := disableSlots_spec g tile hr'
  refine ⟨_, ?_, htherm.trans (by rw [tileOf_modTile_self]; rfl), fun n => ?_, ?_⟩
  · change execSlotDisable s = _
    unfold execSlotDisable
    refine actRow_done ha.1 ?_ (hbehind.trans ha.2)
    have hd' : disableNext (begun s) tile = some g := hd
    have hc' : g.all (canLeave (begun s) tile) = true := hc
    simp only [hd', hc', if_true]
    rfl
  · rw [hdis, tileOf_modTile_self]; rfl
  · intro k hk u th hat hu hstand hleaving
    rw [hhere u th hu ⟨k, hk, hat⟩, startLeaving, if_pos ⟨hstand, hleaving⟩]

theorem slotReenable_none (ha : Acting s (.slotReenable tile)) (hd : (tileOf s tile).disabled = []) :
    exec .slotReenable s = .next { s with act := none } := by
  change execSlotReenable s = _
  unfold execSlotReenable
  refine actRow_done ha.1 ?_ ha.2
  have hd' : (tileOf (begun s) tile).disabled = [] := hd
  simp only [hd']

theorem slotReenable_goes {k : Nat} {l : List Nat} (ha : Acting s (.slotReenable tile)) (hu : Unhindered s)
    (hd : (tileOf s tile).disabled = k :: l) :
    ∃ t, exec .slotReenable s = .next t ∧ k ∉ (tileOf t tile).disabled ∧ (tileOf t tile).thermAt = some s.tsc
      ∧ ∃ c, t.scanDue = some c ∧ c ≤ s.cycle + 1 := by
  obtain ⟨hclear, hcycle, htherm, hdis⟩ := reenabled_spec (begun s) tile (slotGroup (begun s) tile k)
  have hc : Clear (scanNext (reenabled (begun s) tile (slotGroup (begun s) tile k))) :=
    (hclear (clear_of_unhindered (s := begun s) ha.2 hu)).scanNext
  refine ⟨scanNext (reenabled (begun s) tile (slotGroup (begun s) tile k)), ?_, hdis k (mem_slotGroup _ tile k), htherm,
    scanSoon_scanNext (s := s) hcycle⟩
  change execSlotReenable s = _
  unfold execSlotReenable
  refine actRow_done ha.1 ?_ hc.behind
  have hd' : (tileOf (begun s) tile).disabled = k :: l := hd
  simp only [hd']
  rfl

/-- A core's temperature and limits, as firmware sets them. -/
def setLimits (x : Thermal) (t : Tile) : Tile := { t with temp := x.temp, thresh := x.thresh, hyst := x.hyst }

/-- The ranking table with a list of temperatures entered. -/
def ranked (s : State) (l : List Thermal) : State := { s with ranking := l.foldl (fun m x => ins m x.tile x.temp) s.ranking }

/-- Firmware's refresh (R80, R82). -/
def refreshed (s : State) (l : List Thermal) : State := forEach l (fun s x => modTile s x.tile (setLimits x)) (ranked s l)

/-- A refresh changes the tiles and the ranking table alone. -/
theorem refreshed_frame (s : State) (l : List Thermal) : { refreshed s l with tiles := s.tiles } = ranked s l :=
  forEach_modTile_frame Thermal.tile setLimits l (ranked s l)

theorem rankingRefreshed {l : List Thermal} (ha : Acting s (.rankingRefresh l)) :
    ∃ t, exec .rankingRefresh s = .next t ∧ { t with tiles := s.tiles, ranking := s.ranking, act := s.act } = s
      ∧ ((l.map (·.tile)).Nodup → ∀ x ∈ l, lookD t.ranking x.tile 0 = x.temp
          ∧ tileOf t x.tile = { tileOf s x.tile with temp := x.temp, thresh := x.thresh, hyst := x.hyst }) := by
  have hframe := refreshed_frame (begun s) l
  have hbehind : (refreshed (begun s) l).behind = s.behind := by have := congrArg State.behind hframe; exact this
  have hranking : (refreshed (begun s) l).ranking = (ranked (begun s) l).ranking := by
    have := congrArg State.ranking hframe; exact this
  refine ⟨refreshed (begun s) l, ?_, ?_, fun hn x hx => ⟨?_, ?_⟩⟩
  · change execRankingRefresh s = _
    unfold execRankingRefresh
    exact actRow_done ha.1 rfl (hbehind.trans ha.2)
  · have := congrArg (fun t : State => { t with ranking := s.ranking, act := s.act }) hframe
    exact this
  · rw [hranking]
    exact (lookD_foldl_ins Thermal.tile Thermal.temp 0 l hn s.ranking).1 x hx
  · exact (tileOf_forEach_modTile Thermal.tile setLimits l hn (ranked (begun s) l)).1 x hx

theorem parityReplayed {u : Nat} {th : Thread} (ha : Acting s (.parityReplay u)) (ht : threadOf s u = some th) :
    ∃ t, exec .parityReplay s = .next t ∧ threadOf t u = some { th with readyAt := max th.readyAt s.cycle + 8 }
      ∧ (∀ v, v ≠ u → threadOf t v = threadOf s v) ∧ { t with threads := s.threads, act := s.act } = s := by
  refine ⟨modThread (begun s) u fun t => { t with readyAt := max t.readyAt s.cycle + 8 }, ?_, threadOf_modThread_some (s := begun s) _ ht,
    fun v hv => threadOf_modThread_of_ne (begun s) u v _ hv, rfl⟩
  change execParityReplay s = _
  unfold execParityReplay
  exact actRow_done ha.1 rfl ha.2

end

theorem thermalSlots : ThermalSlots := by
  intro s tile
  refine ⟨fun ha hr => ⟨slotDisable_none ha, fun g hd => ?_⟩, fun ha hu => ⟨slotReenable_none ha, fun k l hd => slotReenable_goes ha hu hd⟩,
    fun l ha => rankingRefreshed ha, fun u th ha ht => parityReplayed ha ht⟩
  obtain ⟨j, rfl, h0, hj16, hj0, hjin, habove⟩ := disableNext_spec hd
  refine ⟨h0, slotGroup_lt s tile j hj16, fun k hk0 hk16 hkin hkabove => ?_, slotDisable_stays ha hd, slotDisable_goes ha hr hd⟩
  have hjk : j = k := by
    rcases Nat.lt_trichotomy j k with h | h | h
    · exact absurd (habove k h hk16) hkin
    · exact h
    · exact absurd (hkabove j h hj16) hjin
  subst hjk
  exact ⟨mem_slotGroup s tile j, slotGroup_unpaired s tile j⟩

/-- Settles O39: the rows of the thread-control word and of the save records by their effects, and thermal slots by what
disabling and re-enabling a core's slots changes and leaves. -/
theorem contextsMove : Obligations.ContextsMove := by
  unfold Obligations.ContextsMove
  exact ⟨contextCache, thermalSlots⟩

end Sys2Proof.Machine

/-! ## The scan of the launch unit (R378, R380) -/

namespace Sys2Proof.Machine

open Sys2Proof.Claims

/-! ### The heads that a scan marks -/

/-- A partition whose heads the scan has tried (R375). -/
def triedPart (p : Partition) : Partition :=
  { p with devTried := p.devHead.isSome, queues := p.queues.map fun q => (q.1, { q.2 with tried := q.2.head.isSome }) }

/-- The state in which a scan looks for what to place. -/
def scanStart (s : State) : State := markTried { s with scanDue := none }

theorem partOf_scanStart (s : State) (n : Nat) : partOf (scanStart s) n = triedPart (partOf s n) := by
  unfold partOf lookD
  change (look (s.parts.map fun e => (e.1, triedPart e.2)) n).getD _ = _
  rw [look_map]
  cases look s.parts n <;> rfl

theorem queueOf_triedPart (p : Partition) (q : Nat) :
    queueOf (triedPart p) q = { queueOf p q with tried := (queueOf p q).head.isSome } := by
  unfold queueOf lookD triedPart
  rw [look_map]
  cases look p.queues q <;> rfl

theorem headAt_scanStart (s : State) (n q : Nat) : headAt (scanStart s) n q = headAt s n q := by
  unfold headAt
  simp only [partOf_scanStart, queueOf_triedPart]
  rfl

/-- The head of a queue is a matter of its partition's queues. -/
theorem headAt_congr {s t : State} {n : Nat} (hv : (partOf t n).devq = (partOf s n).devq)
    (hh : (partOf t n).devHead = (partOf s n).devHead) (hq : (partOf t n).queues = (partOf s n).queues) (q : Nat) :
    headAt t n q = headAt s n q := by
  unfold headAt queueOf
  simp only [hv, hh, hq]

/-- A partition that is not there has no head. -/
theorem headAt_absent {s : State} {n : Nat} (h : look s.parts n = none) (q : Nat) : headAt s n q = none := by
  have hp : partOf s n = Partition.reset := by rw [partOf, lookD, h]; rfl
  unfold headAt
  rw [hp]
  split <;> rfl

/-! ### A scan that finds nothing -/

/-- A step that does nothing for any of a list's elements does nothing for the list. -/
theorem forEach_idle {α : Type} {l : List α} {f : State → α → State} {s : State} (h : ∀ a ∈ l, f s a = s) : forEach l f s = s := by
  unfold forEach
  induction l with
  | nil => rfl
  | cons a t ih =>
    rw [List.foldl_cons, h a List.mem_cons_self]
    exact ih fun b hb => h b (List.mem_cons_of_mem a hb)

/-- What a scan does at one priority: the heads in turn, then the saved teams (R380, R385). -/
def scanPriority (s : State) (pr : Nat) : State :=
  forEach (savedAt (forEach (keysInTurn s pr) (fun s k => tryHead s pr k) s) pr) tryRestore
    (forEach (keysInTurn s pr) (fun s k => tryHead s pr k) s)

theorem scanAll_eq (s : State) :
    scanAll s = forEach [3, 2, 1, 0] scanPriority (forEach (s.parts.map (·.1)) trySup (scanStart s)) := rfl

theorem tryHead_none {s : State} {key : Nat} (h : headAt s (key / 17) (key % 17) = none) (pr : Nat) : tryHead s pr key = s := by
  unfold tryHead
  simp only [h]

theorem savedAt_nil {s : State} (h : ∀ e ∈ s.parts, e.2.saved = []) (pr : Nat) : savedAt s pr = [] := by
  have hl : (s.parts.flatMap fun e => (e.2.saved.filter fun i => decide (i.team.prio = pr)).map fun i => (e.1, i)) = [] := by
    rw [List.flatMap_eq_nil_iff]
    intro e he
    rw [h e he]; rfl
  unfold savedAt
  simp only [hl]
  rfl

theorem trySup_notDue {s : State} {n : Nat} (h : (partOf s n).supDue = false) : trySup s n = s := by
  unfold trySup
  dsimp only
  split
  · rw [if_pos (Or.inl h)]
  · rfl

/-- With no head and no saved team, no priority places anything. -/
theorem priorities_idle {s : State} (hh : ∀ n q, headAt s n q = none) (hs : ∀ e ∈ s.parts, e.2.saved = []) (l : List Nat) :
    forEach l scanPriority s = s := by
  refine forEach_idle fun pr _ => ?_
  have hkeys : forEach (keysInTurn s pr) (fun s k => tryHead s pr k) s = s := forEach_idle fun k _ => tryHead_none (hh _ _) pr
  rw [scanPriority, hkeys, savedAt_nil hs]
  rfl

theorem saved_scanStart {s : State} (h : ∀ e ∈ s.parts, e.2.saved = []) : ∀ e ∈ (scanStart s).parts, e.2.saved = [] := by
  intro e he
  obtain ⟨d, hd, rfl⟩ := List.mem_map.mp he
  exact h d hd

theorem supDue_partOf {s : State} (h : ∀ e ∈ s.parts, e.2.supDue = false) (n : Nat) : (partOf s n).supDue = false := by
  unfold partOf lookD
  cases hl : look s.parts n with
  | none => rfl
  | some p => exact h (n, p) (mem_of_look hl)

theorem scanAll_idle {s : State} (hs : ∀ e ∈ s.parts, e.2.supDue = false ∧ e.2.saved = []) (hh : ∀ n q, headAt s n q = none) :
    scanAll s = scanStart s := by
  have hsup : forEach (s.parts.map (·.1)) trySup (scanStart s) = scanStart s := by
    refine forEach_idle fun n _ => trySup_notDue ?_
    rw [partOf_scanStart]
    exact supDue_partOf (s := s) (fun e he => (hs e he).1) n
  rw [scanAll_eq, hsup]
  exact priorities_idle (fun n q => (headAt_scanStart s n q).trans (hh n q)) (saved_scanStart fun e he => (hs e he).2) _

theorem scan_placesNothing {s : State} (ha : Acting s .scan) (hs : ∀ e ∈ s.parts, e.2.supDue = false ∧ e.2.saved = [])
    (hh : ∀ n q, headAt s n q = none) :
    ∃ t, exec .scan s = .next t ∧ { t with parts := s.parts } = { s with scanDue := none, act := none }
      ∧ ∀ n, { partOf t n with devTried := (partOf s n).devTried, queues := (partOf s n).queues } = partOf s n := by
  refine ⟨scanStart (begun s), ?_, rfl, fun n => ?_⟩
  · change execScan s = _
    unfold execScan
    exact actRow_done ha.1 (congrArg some (scanAll_idle (s := begun s) hs hh)) ha.2
  · rw [partOf_scanStart]; rfl

/-! ### A scan that finds a supervisor team due (R371, R416) -/

/-- The breaks of a launch do not look at the machine: those that do are of other engines' commands. -/
theorem cmdBreaks_launch (s t : State) (j : Job) (sup : Bool) : cmdBreaks s j 2 sup = cmdBreaks t j 2 sup := by
  unfold cmdBreaks
  dsimp only
  by_cases h : cmdQueue (cmdOpcode j) = some 2
  · have hop : cmdOpcode j = 0x20 := by
      unfold cmdQueue at h
      grind
    simp [hop]
  · rw [if_pos h, if_pos h]

theorem launchReject_congr (s t : State) (f : Frame) (j : Job) (pushed sup : Bool) :
    launchReject t f j pushed sup = launchReject s f j pushed sup := by
  unfold launchReject
  rw [cmdBreaks_launch t s]

/-- Whether a rectangle is free is a matter of the partition's teams and rectangles, and of the tiles. -/
theorem freeOrigin_congr {s t : State} {n : Nat} (hteams : (partOf t n).teams = (partOf s n).teams)
    (hrects : (partOf t n).rects = (partOf s n).rects) (htiles : t.tiles = s.tiles) (f : Frame) (w h k : Nat) :
    freeOrigin t n f w h k = freeOrigin s n f w h k := by
  unfold freeOrigin originFree
  simp only [hteams, hrects, htiles]

/-- The words of a partition's supervisor launch (R371). -/
def supJob (n : Nat) (p : Partition) : Job := wordsJob n ((List.range 4).map fun i => lookD p.psup i 0)

/-- The supervisor team of a partition is placed. -/
def supPlaced (s : State) (n x y : Nat) : State :=
  modPart (decide_ s n 0 x y (supJob n (partOf s n)) .sup) n fun p => { p with supDue := false, pstate := 2 }

theorem trySup_places {s : State} {n x y : Nat} {f : Frame} (hf : (partOf s n).frame = some f) (hd : (partOf s n).supDue = true)
    (hr : launchReject s f (supJob n (partOf s n)) false true = 0)
    (ho : freeOrigin s n f (lW (supJob n (partOf s n))) (lH (supJob n (partOf s n))) (lT (supJob n (partOf s n))) = some (x, y)) :
    trySup s n = supPlaced s n x y := by
  have hok : ¬ ((partOf s n).supDue = false ∨ launchReject s f (supJob n (partOf s n)) false true ≠ 0) := by simp [hd, hr]
  unfold supJob at hok ho
  unfold trySup
  simp only [hf, if_neg hok, ho]
  rfl

end Sys2Proof.Machine

/-! ## The placement of a due supervisor team (R371, R380, R416) -/

namespace Sys2Proof.Machine

open Sys2Proof.Claims

/-! ### What a decided placement is -/

/-- The team of a partition's supervisor launch, before its threads start (R371). -/
def supTeam (x y : Nat) (j : Job) : Team :=
  { ox := x, oy := y, w := lW j, h := lH j, t := lT j, v := lV j, win := lWin j, pair := lPair j, ltm := lLtm j, sup := lSup j,
    prio := lPrio j, sd := lSd j, slice := lSlice j, sliceEnd := 0, launch := launchCount j, words := jobWords j, src := .sup,
    started := false, holding := false, points := [(0, { Point.reset with expected := launchCount j })], req := none, reqAt := 0,
    reason := 0 }

/-- The placement of that team. -/
def supPlacement (n x y : Nat) (j : Job) : Placement :=
  { partn := n, serial := 0, ox := x, oy := y, w0 := j.w0, w1 := j.w1, w2 := j.w2, w3 := j.w3, queue := none, job := none,
    restore := false }

/-- A partition whose supervisor team takes a rectangle. -/
def addSupTeam (x y : Nat) (j : Job) (p : Partition) : Partition := { p with teams := ins p.teams 0 (supTeam x y j) }

/-- A partition whose due supervisor team takes a rectangle. -/
def withSupTeam (x y : Nat) (j : Job) (p : Partition) : Partition := { addSupTeam x y j p with supDue := false, pstate := 2 }

theorem decide_sup (s : State) (n x y : Nat) (j : Job) :
    decide_ s n 0 x y j .sup = schedAt (modPart s n (addSupTeam x y j))
      (s.cycle + 16 + 2 * (lW j + lH j)) (.placement (supPlacement n x y j)) := by
  unfold decide_
  simp only [if_true]
  rfl

/-! ### A machine with one partition -/

section
variable {s : State} {n : Nat} {p : Partition}

theorem partOf_only (h : s.parts = [(n, p)]) : partOf s n = p := by simp [partOf, lookD, h, look]

theorem parts_modPart_only (h : s.parts = [(n, p)]) (f : Partition → Partition) : (modPart s n f).parts = [(n, f p)] := by
  change ins s.parts n (f (partOf s n)) = _
  rw [partOf_only h, h]
  simp [ins]

theorem parts_scanStart_only (h : s.parts = [(n, p)]) : (scanStart s).parts = [(n, triedPart p)] := by
  change s.parts.map (fun e => (e.1, triedPart e.2)) = _
  rw [h]; rfl

theorem parts_supPlaced (h : s.parts = [(n, p)]) (x y : Nat) : (supPlaced s n x y).parts = [(n, withSupTeam x y (supJob n p) p)] := by
  unfold supPlaced
  rw [decide_sup, partOf_only h]
  have hteam := parts_modPart_only h (addSupTeam x y (supJob n p))
  exact parts_modPart_only (s := schedAt (modPart s n (addSupTeam x y (supJob n p))) _ _) hteam _

/-- Where the only partition has no head there is none. -/
theorem headAt_only (h : s.parts = [(n, p)]) (hh : ∀ q, headAt s n q = none) (m q : Nat) : headAt s m q = none := by
  by_cases hm : m = n
  · rw [hm]; exact hh q
  · exact headAt_absent (by simp [h, look, Ne.symm hm]) q

theorem saved_only (h : s.parts = [(n, p)]) (hs : p.saved = []) : ∀ e ∈ s.parts, e.2.saved = [] := by
  intro e he
  rw [h, List.mem_singleton] at he
  rw [he]; exact hs

end

/-! ### The scan -/

section
variable {s : State} {n x y : Nat} {p : Partition} {f : Frame}

theorem supJob_scanStart (h : s.parts = [(n, p)]) : supJob n (partOf (scanStart s) n) = supJob n p := by
  rw [partOf_scanStart, partOf_only h]; rfl

/-- What the scan has marked does not enter into what it asks of a rectangle. -/
theorem freeOrigin_scanStart (s : State) (n : Nat) (f : Frame) (w h k : Nat) :
    freeOrigin (scanStart s) n f w h k = freeOrigin s n f w h k := by
  refine freeOrigin_congr (s := s) (t := scanStart s) ?_ ?_ rfl f w h k
  · rw [partOf_scanStart]; rfl
  · rw [partOf_scanStart]; rfl

/-- The scan's first stage decides the placement. -/
theorem trySup_scanStart (h : s.parts = [(n, p)]) (hf : p.frame = some f) (hd : p.supDue = true)
    (hr : launchReject s f (supJob n p) false true = 0)
    (ho : freeOrigin s n f (lW (supJob n p)) (lH (supJob n p)) (lT (supJob n p)) = some (x, y)) :
    trySup (scanStart s) n = supPlaced (scanStart s) n x y := by
  have hpart : partOf (scanStart s) n = triedPart p := by rw [partOf_scanStart, partOf_only h]
  refine trySup_places (f := f) (by rw [hpart]; exact hf) (by rw [hpart]; exact hd) ?_ ?_
  · rw [supJob_scanStart h, launchReject_congr s]; exact hr
  · rw [supJob_scanStart h, freeOrigin_scanStart]; exact ho

theorem headAt_supPlaced (h : s.parts = [(n, p)]) (hh : ∀ q, headAt s n q = none) (m q : Nat) :
    headAt (supPlaced s n x y) m q = none := by
  have hplaced := parts_supPlaced h x y
  refine headAt_only hplaced (fun q => ?_) m q
  rw [headAt_congr (s := s), hh]
  all_goals rw [partOf_only hplaced, partOf_only h]; rfl

/-- That placement is the whole of the scan. -/
theorem scanAll_supDue (h : s.parts = [(n, p)]) (hf : p.frame = some f) (hd : p.supDue = true) (hs : p.saved = [])
    (hh : ∀ q, headAt s n q = none) (hr : launchReject s f (supJob n p) false true = 0)
    (ho : freeOrigin s n f (lW (supJob n p)) (lH (supJob n p)) (lT (supJob n p)) = some (x, y)) :
    scanAll s = supPlaced (scanStart s) n x y := by
  have hmark : (scanStart s).parts = [(n, triedPart p)] := parts_scanStart_only h
  have hkeys : s.parts.map (·.1) = [n] := by rw [h]; rfl
  have hfirst : forEach (s.parts.map (·.1)) trySup (scanStart s) = supPlaced (scanStart s) n x y := by
    rw [hkeys, ← trySup_scanStart h hf hd hr ho]; rfl
  rw [scanAll_eq, hfirst]
  refine priorities_idle (headAt_supPlaced hmark fun q => ?_) (saved_only (parts_supPlaced hmark x y) hs) _
  rw [headAt_scanStart, hh]

theorem mem_agenda_supPlaced (s : State) (n x y : Nat) :
    ∃ e ∈ (supPlaced s n x y).agenda,
      e.cycle = s.cycle + 16 + 2 * (lW (supJob n (partOf s n)) + lH (supJob n (partOf s n)))
        ∧ e.act = .placement (supPlacement n x y (supJob n (partOf s n))) := by
  unfold supPlaced
  rw [decide_sup]
  exact ⟨_, mem_enterTimed_self _ _, rfl, rfl⟩

/-- Nothing but the agenda and the partitions is touched. -/
theorem supPlaced_frame (s : State) (n x y : Nat) :
    { supPlaced s n x y with parts := s.parts, agenda := s.agenda } = s := by
  unfold supPlaced
  rw [decide_sup]; rfl

theorem scan_placesSup (ha : Acting s .scan) (h : s.parts = [(n, p)]) (hf : p.frame = some f) (hd : p.supDue = true)
    (hs : p.saved = []) (hh : ∀ q, headAt s n q = none) (hr : launchReject s f (supJob n p) false true = 0)
    (ho : freeOrigin s n f (lW (supJob n p)) (lH (supJob n p)) (lT (supJob n p)) = some (x, y)) :
    ∃ t tm, exec .scan s = .next t ∧ teamOf t n 0 = some tm ∧ tm.ox = x ∧ tm.oy = y ∧ tm.w = lW (supJob n p)
      ∧ tm.h = lH (supJob n p) ∧ tm.started = false ∧ (partOf t n).supDue = false ∧ (partOf t n).pstate = 2
      ∧ t.threads = s.threads
      ∧ ∃ e ∈ t.agenda, e.cycle = s.cycle + 16 + 2 * (lW (supJob n p) + lH (supJob n p))
          ∧ ∃ pl, e.act = .placement pl ∧ pl.partn = n ∧ pl.serial = 0 ∧ pl.ox = x ∧ pl.oy = y ∧ pl.restore = false := by
  have hmark : (scanStart (begun s)).parts = [(n, triedPart p)] := parts_scanStart_only h
  have hpart := partOf_only (parts_supPlaced hmark x y)
  have hframe := supPlaced_frame (scanStart (begun s)) n x y
  have hbehind : (supPlaced (scanStart (begun s)) n x y).behind = s.behind := by
    have := congrArg State.behind hframe; exact this
  have hthreads : (supPlaced (scanStart (begun s)) n x y).threads = s.threads := by
    have := congrArg State.threads hframe; exact this
  obtain ⟨e, he, hcycle, hact⟩ := mem_agenda_supPlaced (scanStart (begun s)) n x y
  rw [partOf_only hmark] at hcycle hact
  refine ⟨supPlaced (scanStart (begun s)) n x y, supTeam x y (supJob n p), ?_, ?_, rfl, rfl, rfl, rfl, rfl,
    ?_, ?_, hthreads, e, he, hcycle, _, hact, rfl, rfl, rfl, rfl, rfl⟩
  · change execScan s = _
    unfold execScan
    exact actRow_done ha.1 (congrArg some (scanAll_supDue (s := begun s) h hf hd hs hh hr ho)) (hbehind.trans ha.2)
  · rw [teamOf, hpart]
    exact look_ins_self _ _ _
  · rw [hpart]; rfl
  · rw [hpart]; rfl

end

end Sys2Proof.Machine

/-! ## The start of a team of one thread (R70, R381) -/

namespace Sys2Proof.Machine

open Sys2Proof.Claims

/-! ### The scalars that a launch gives (R70) -/

/-- Enters the next start scalar; a zero is not listed. -/
def enterScalar (a : AMap Word × Nat) (w : Word) : AMap Word × Nat := (if w = 0 then a.1 else ins a.1 a.2 w, a.2 + 1)

theorem startScalars_eq (l : List Word) : startScalars l = (l.foldl enterScalar ([], 1)).1 := rfl

theorem lookD_enterScalar {m : AMap Word} {i : Nat} (h : lookD m i 0 = 0) (w : Word) (k : Nat) :
    lookD (enterScalar (m, i) w).1 k 0 = if k = i then w else lookD m k 0 := by
  unfold enterScalar
  by_cases hk : k = i
  · subst hk
    by_cases hw : w = 0
    · rw [if_pos hw, if_pos rfl, hw, h]
    · rw [if_neg hw, if_pos rfl, lookD_ins_self]
  · rw [if_neg hk]
    split
    · rfl
    · exact lookD_ins_of_ne m i k w 0 hk

/-- Scalars entered from a number on stand from that number on. -/
theorem lookD_foldl_enterScalar (l : List Word) (m : AMap Word) (i : Nat) (h : ∀ k, i ≤ k → lookD m k 0 = 0) (k : Nat) :
    lookD (l.foldl enterScalar (m, i)).1 k 0 = if k < i then lookD m k 0 else l.getD (k - i) 0 := by
  induction l generalizing m i with
  | nil =>
    by_cases hk : k < i
    · rw [if_pos hk]; rfl
    · rw [if_neg hk]; exact h k (not_lt.mp hk)
  | cons w t ih =>
    have hw := lookD_enterScalar (h i le_rfl) w
    have hrest : ∀ k, i + 1 ≤ k → lookD (enterScalar (m, i) w).1 k 0 = 0 := fun k hk => by
      rw [hw, if_neg (by omega), h k (by omega)]
    rw [List.foldl_cons]
    refine (ih (enterScalar (m, i) w).1 (i + 1) hrest).trans ?_
    rw [hw]
    rcases Nat.lt_trichotomy k i with hk | rfl | hk
    · rw [if_pos (by omega), if_neg (by omega), if_pos hk]
    · rw [if_pos (by omega), if_pos rfl, if_neg (by omega), Nat.sub_self, List.getD_cons_zero]
    · rw [if_neg (by omega), if_neg (by omega), show k - i = k - (i + 1) + 1 by omega, List.getD_cons_succ]

/-- The start scalars stand in s1, s2 and so on, and every other scalar is zero. -/
theorem lookD_startScalars (l : List Word) {k : Nat} (hk : 1 ≤ k) : lookD (startScalars l) k 0 = l.getD (k - 1) 0 := by
  rw [startScalars_eq, lookD_foldl_enterScalar l [] 1 (fun _ _ => rfl), if_neg (by omega)]

/-! ### The steps of a start -/

@[simp] theorem teamOf_modTeam_self (s : State) (n k : Nat) (f : Team → Team) :
    teamOf (modTeam s n k f) n k = (teamOf s n k).map f := by
  unfold teamOf modTeam
  rw [partOf_modPart_self]
  exact look_upd_self _ _ _

theorem frameOf_modTeam (s : State) (n k : Nat) (f : Team → Team) : frameOf (modTeam s n k f) n = frameOf s n := by
  unfold frameOf modTeam
  rw [partOf_modPart_self]

theorem threadOf_bear_self (s : State) (th : Thread) :
    threadOf (bear s th) s.nextUid = some { th with rows := (freeRows s th.tile).take (rowsFor th.vn th.dwin) } :=
  look_ins_self _ _ _

theorem threadOf_bear_of_ne (s : State) (th : Thread) {u : Nat} (h : u ≠ s.nextUid) : threadOf (bear s th) u = threadOf s u :=
  look_ins_of_ne _ _ _ _ h

theorem teamOf_bear (s : State) (th : Thread) (n k : Nat) : teamOf (bear s th) n k = teamOf s n k := rfl
theorem nextUid_bear (s : State) (th : Thread) : (bear s th).nextUid = s.nextUid + 1 := rfl
theorem behind_bear (s : State) (th : Thread) : (bear s th).behind = s.behind := rfl

/-- The reset of a core is no matter of partitions, threads or moves. -/
theorem resetCore_frame (s : State) (tile : Nat) (ltm : Bool) :
    (resetCore s tile ltm).parts = s.parts ∧ (resetCore s tile ltm).threads = s.threads
      ∧ (resetCore s tile ltm).nextUid = s.nextUid ∧ (resetCore s tile ltm).behind = s.behind := ⟨rfl, rfl, rfl, rfl⟩

/-- A slice that starts changes its team's slice end and the timers. -/
theorem startSlice_frame (s : State) (n k c : Nat) :
    (startSlice s n k c).threads = s.threads ∧ (startSlice s n k c).nextUid = s.nextUid ∧ (startSlice s n k c).behind = s.behind := by
  unfold startSlice
  split
  · split <;> exact ⟨rfl, rfl, rfl⟩
  · exact ⟨rfl, rfl, rfl⟩

theorem started_startSlice {s : State} {n k : Nat} {tm : Team} (h : teamOf s n k = some tm) (c : Nat) :
    ∃ tm', teamOf (startSlice s n k c) n k = some tm' ∧ tm'.started = tm.started := by
  unfold startSlice
  simp only [h]
  split
  · exact ⟨tm, h, rfl⟩
  · exact ⟨_, (teamOf_modTeam_self s n k _).trans (congrArg (Option.map _) h), rfl⟩

/-! ### A team of one core and one thread -/

/-- The thread of such a team (R70). -/
def soleThread (cycle : Nat) (p : Placement) (j : Job) (tile : Nat) : Thread :=
  { Thread.reset with
    partn := p.partn, serial := p.serial, sup := lSup j, ltm := lLtm j, tile := tile, pc := j.w0, vn := lV j, dwin := lWin j,
    readyAt := cycle + 1,
    s := startScalars [j.w1, 0, BitVec.ofNat 64 (packCore p.ox p.oy), BitVec.ofNat 64 (packCore 1 1)] }

theorem startTeam_sole {s : State} {p : Placement} {f : Frame} {j : Job} (hj : wordsJob p.partn [p.w0, p.w1, p.w2, p.w3] = j)
    (hf : frameOf s p.partn = some f) (hw : lW j = 1) (hh : lH j = 1) (ht : lT j = 1) (hp : lPair j = false) :
    startTeam s p = bear (resetCore s (tileAt f p.ox p.oy) (lLtm j)) (soleThread s.cycle p j (tileAt f p.ox p.oy)) := by
  unfold startTeam
  simp only [hj, hf, hw, hh, ht, hp, launchThread]
  rfl

theorem sget_soleThread (cycle : Nat) (p : Placement) (j : Job) (tile : Nat) (rows : List Nat) {r : SReg} (hr : r ≠ 0) :
    sget { soleThread cycle p j tile with rows := rows } r
      = [j.w1, 0, BitVec.ofNat 64 (packCore p.ox p.oy), BitVec.ofNat 64 (packCore 1 1)].getD (r.val - 1) 0 := by
  rw [sget, if_neg hr]
  exact lookD_startScalars _ (Nat.pos_of_ne_zero fun h => hr (Fin.ext h))

end Sys2Proof.Machine

/-! ## The placement of a team (R381) -/

namespace Sys2Proof.Machine

open Sys2Proof.Claims

/-- The team of a placement has started. -/
def teamMarked (s : State) (p : Placement) : State := modTeam s p.partn p.serial fun t => { t with started := true }

/-- A team's threads and slice start (R381, R383). -/
def teamBegun (s : State) (p : Placement) : State :=
  startSlice (startTeam (teamMarked s p) p) p.partn p.serial (now (startTeam (teamMarked s p) p))

/-- A placement of a team that is there completes; that of a supervisor team is the start of its threads and slice. -/
theorem placementDone_some {s : State} {p : Placement} {tm : Team} (h : teamOf s p.partn p.serial = some tm) :
    ∃ u, placementDone s p = some u ∧ (tm.src = .sup → u = teamBegun s p) := by
  unfold placementDone
  simp only [h]
  exact ⟨_, rfl, fun hsrc => by rw [hsrc]; rfl⟩

section
variable {s : State} {p : Placement} {tm : Team} {f : Frame} {j : Job}

/-- The start of a team of one core and one thread bears that thread, and nothing of the other threads. -/
theorem teamBegun_sole (hteam : teamOf s p.partn p.serial = some tm) (hf : frameOf s p.partn = some f)
    (hj : wordsJob p.partn [p.w0, p.w1, p.w2, p.w3] = j) (hw : lW j = 1) (hh : lH j = 1) (ht : lT j = 1) (hp : lPair j = false) :
    (∃ tm', teamOf (teamBegun s p) p.partn p.serial = some tm' ∧ tm'.started = true)
      ∧ (∃ rows : List Nat, rows.length ≤ rowsFor (lV j) (lWin j)
          ∧ threadOf (teamBegun s p) s.nextUid = some { soleThread s.cycle p j (tileAt f p.ox p.oy) with rows := rows })
      ∧ (∀ u, u ≠ s.nextUid → threadOf (teamBegun s p) u = threadOf s u)
      ∧ (teamBegun s p).nextUid = s.nextUid + 1 ∧ (teamBegun s p).behind = s.behind := by
  have hstart : startTeam (teamMarked s p) p = bear (resetCore (teamMarked s p) (tileAt f p.ox p.oy) (lLtm j))
      (soleThread s.cycle p j (tileAt f p.ox p.oy)) :=
    startTeam_sole (s := teamMarked s p) hj ((frameOf_modTeam s _ _ _).trans hf) hw hh ht hp
  obtain ⟨rparts, rthreads, rnext, rbehind⟩ := resetCore_frame (teamMarked s p) (tileAt f p.ox p.oy) (lLtm j)
  have hteam' : teamOf (startTeam (teamMarked s p) p) p.partn p.serial = some { tm with started := true } := by
    rw [hstart, teamOf_bear, teamOf, partOf, rparts]
    exact (teamOf_modTeam_self s p.partn p.serial fun t => { t with started := true }).trans (congrArg (Option.map _) hteam)
  obtain ⟨hthreads, hnext, hbehind⟩ :=
    startSlice_frame (startTeam (teamMarked s p) p) p.partn p.serial (now (startTeam (teamMarked s p) p))
  refine ⟨started_startSlice hteam' _, ⟨(freeRows (resetCore (teamMarked s p) (tileAt f p.ox p.oy) (lLtm j))
    (tileAt f p.ox p.oy)).take (rowsFor (lV j) (lWin j)), List.length_take_le _ _, ?_⟩, fun u hu => ?_, ?_, ?_⟩
  · have hborn := threadOf_bear_self (resetCore (teamMarked s p) (tileAt f p.ox p.oy) (lLtm j))
      (soleThread s.cycle p j (tileAt f p.ox p.oy))
    rw [threadOf, teamBegun, hthreads, hstart]
    exact hborn
  · have hborn := threadOf_bear_of_ne (resetCore (teamMarked s p) (tileAt f p.ox p.oy) (lLtm j))
      (soleThread s.cycle p j (tileAt f p.ox p.oy)) (rnext ▸ hu)
    rw [threadOf, teamBegun, hthreads, hstart]
    exact hborn.trans (congrArg (look · u) rthreads)
  · rw [teamBegun, hnext, hstart, nextUid_bear, rnext]; rfl
  · rw [teamBegun, hbehind, hstart, behind_bear, rbehind]; rfl

end

/-- The placement of a team ends in one cycle; that of a supervisor team is the start of its threads. -/
theorem placement_starts {s : State} {p : Placement} {tm : Team} (ha : Acting s (.placement p)) (hr : p.restore = false)
    (hteam : teamOf s p.partn p.serial = some tm) :
    ∃ t, exec .placement s = .next t
      ∧ (tm.src = .sup → (teamBegun (begun s) p).behind = none → t = teamBegun (begun s) p) := by
  obtain ⟨u, hu, hsup⟩ := placementDone_some (s := begun s) hteam
  obtain ⟨t, ht, hdone, -⟩ : ActEnds s (.placement p) u (execPlacement s) := by
    unfold execPlacement
    refine actEnds_actRow ha.1 ?_
    simp only [hr]
    exact hu
  refine ⟨t, ht, fun hsrc hb => ?_⟩
  rw [← hsup hsrc] at hb ⊢
  exact hdone hb

/-- Settles O42: a scan with nothing to place, one with a due supervisor team, and the start of a team of one thread, each by
the state it results in. -/
theorem teamsStart : Obligations.TeamsStart := by
  unfold Obligations.TeamsStart
  refine ⟨fun s ha => ⟨fun hs hh _ => scan_placesNothing ha hs hh,
    fun n p f x y h hf hd hsaved _ hh => scan_placesSup ha h hf hd hsaved hh⟩, fun s p tm f ha hr hteam hf => ?_⟩
  intro j
  obtain ⟨t, ht, hdone⟩ := placement_starts ha hr hteam
  refine ⟨t, ht, fun hsrc hw hh hT hp => ?_⟩
  obtain ⟨hstarted, ⟨rows, hrows, hthread⟩, hothers, hnext, hbehind⟩ :=
    teamBegun_sole (s := begun s) (j := j) hteam hf rfl hw hh hT hp
  have hscalar := fun (r : SReg) (h : r ≠ 0) => sget_soleThread s.cycle p j (tileAt f p.ox p.oy) rows h
  rw [hdone hsrc (hbehind.trans ha.2)]
  refine ⟨hstarted, _, hthread, hnext, rfl, rfl, rfl, rfl, rfl, rfl, rfl, rfl, rfl, rfl, rfl, rfl, hrows,
    hscalar 1 (by decide), hscalar 2 (by decide), hscalar 3 (by decide), hscalar 4 (by decide), fun r hr5 => ?_,
    rfl, rfl, rfl, rfl, rfl, hothers⟩
  rw [hscalar r (fun h => by simp [h] at hr5)]
  exact List.getD_eq_default _ _ (by simp; omega)

end Sys2Proof.Machine

/-! ## Rendezvous points of threads outside a redundant pair (R123-R133) -/

namespace Sys2Proof.Machine

open Sys2Proof.Claims

/-! ### Points of a team, and the bits that a thread keeps of them -/

theorem teamOf_modPoint (s : State) (n m k : Nat) (f : Point → Point) :
    teamOf (modPoint s n m k f) n m = (teamOf s n m).map fun t => { t with points := ins t.points k (f (pointOf t k)) } := by
  simp [teamOf, modPoint, modTeam]

theorem pointAt_modPoint_self {s : State} {th : Thread} {tm : Team} (k : Nat) (f : Point → Point)
    (h : teamOf s th.partn th.serial = some tm) :
    pointAt (modPoint s th.partn th.serial k f) th k = f (pointAt s th k) := by
  simp [pointAt, teamOf_modPoint, h, pointOf]

theorem pointAt_modPoint_of_ne (s : State) (th : Thread) {k j : Nat} (f : Point → Point) (hj : j ≠ k) :
    pointAt (modPoint s th.partn th.serial k f) th j = pointAt s th j := by
  simp only [pointAt, teamOf_modPoint]
  cases teamOf s th.partn th.serial with
  | none => rfl
  | some tm => exact lookD_ins_of_ne _ _ _ _ _ hj

theorem pointAt_congr {s t : State} (h : t.parts = s.parts) (th : Thread) (k : Nat) : pointAt t th k = pointAt s th k := by
  simp only [pointAt, teamOf, partOf, h]

theorem partOf_modPoint_frame (s : State) (n m k : Nat) (f : Point → Point) (p : Nat) :
    { partOf (modPoint s n m k f) p with teams := (partOf s p).teams } = partOf s p := by
  by_cases hp : p = n
  · subst hp; simp [modPoint, modTeam]
  · simp [modPoint, modTeam, partOf_modPart_of_ne _ _ _ _ hp]

theorem wireTime_eq_wire {s : State} {th : Thread} {tm : Team} (h : teamOf s th.partn th.serial = some tm) :
    wireTime s th = wire tm := by simp [wireTime, wire, h]

theorem getLsbD_setBit24 (b : BitVec 24) {k j : Nat} (v : Bool) (hj : j < 24) :
    (setBit24 b k v).getLsbD j = if j = k then v else b.getLsbD j := by
  have hbit : (1#24 <<< k).getLsbD j = decide (j = k) := by
    rcases Nat.lt_trichotomy j k with h | h | h
    · simp [hj, h, Nat.ne_of_lt h]
    · subst h; simp [hj]
    · have h1 : j - k ≠ 0 := by omega
      simp [h1, Nat.ne_of_gt h]
  unfold setBit24
  split
  · rename_i hv
    rw [BitVec.getLsbD_or, hbit, hv]
    by_cases h : j = k <;> simp [h]
  · rename_i hv
    rw [BitVec.getLsbD_and, BitVec.getLsbD_not, hbit]
    by_cases h : j = k <;> simp [h, hv, hj]

/-! ### Units of a thread outside a pair (R134) -/

section
variable {s : State} {u : Nat} {c : Cur} {th : Thread}

theorem lvLead_unpaired {bad : Option (Nat × Word × Word)} {go rest : State → State} (h : threadOf s c.uid = some th) (hr : th.role = 0) :
    lvLead s c th bad go rest = match bad with
      | some (cause, addr, info) => raise s c cause addr info 0
      | none => go s := by
  cases bad <;> simp [lvLead, lvRoom, lvEnter, mateOf_unpaired h hr, hr]

theorem lvOver_unpaired (h : threadOf s u = some th) (hr : th.role = 0) : lvOver s u = s := by
  simp [lvOver, lvEnter, h, mateOf_unpaired h hr]

theorem rvFollow_unpaired (x : Thread) (ready : Nat) (h : threadOf s u = some th) (hr : th.role = 0) :
    rvFollow s u x ready = s := by simp [rvFollow, mateOf_unpaired h hr]

end

/-- Beside a thread, no more is changed than a point of its team; acts may have been entered. -/
def PointChanged (s t : State) (u : Nat) (th : Thread) (k : Nat) (f : Point → Point) : Prop :=
  t.parts = (modPoint s th.partn th.serial k f).parts ∧ t.cycle = s.cycle ∧ t.mem = s.mem ∧ t.empty = s.empty
    ∧ t.poison = s.poison ∧ ∀ v, v ≠ u → threadOf t v = threadOf s v

/-- The end of a unit that has changed a point of its thread's team. -/
theorem retire_of_pointChanged {s s1 : State} {c : Cur} {th x : Thread} {tm : Team} {k lat : Nat} {f : Point → Point}
    (hteam : teamOf s th.partn th.serial = some tm) (hx : threadOf s1 c.uid = some x) (h : PointChanged s s1 c.uid th k f) :
    let t := retire s1 c lat id
    threadOf t c.uid = some (unitOver c.npc (s.cycle + c.fx + lat) x)
      ∧ pointAt t th k = f (pointAt s th k) ∧ PointsOnly s t c th k ∧ t.agenda = s1.agenda := by
  intro t
  obtain ⟨hparts, hcycle, hmem, hempty, hpoison, hothers⟩ := h
  obtain ⟨hown, hapart⟩ := retireTo_spec s1 c x lat c.npc id hx
  obtain ⟨-, -, hagenda⟩ := apart_time_agenda hapart
  obtain ⟨hcur, hrest, -, -, hkept⟩ := hapart
  have hp : t.parts = (modPoint s th.partn th.serial k f).parts := (congrArg State.parts hrest).trans hparts
  refine ⟨hcycle ▸ hown, (pointAt_congr hp th k).trans (pointAt_modPoint_self k f hteam), ⟨fun j hj => ?_, hcur,
    (congrArg State.mem hrest).trans hmem, (congrArg State.empty hrest).trans hempty,
    (congrArg State.poison hrest).trans hpoison, fun v hv y hy => hkept v hv y ((hothers v hv).trans hy), fun p => ?_⟩, hagenda⟩
  · exact (pointAt_congr hp th j).trans (pointAt_modPoint_of_ne s th f hj)
  · have hpart : partOf t p = partOf (modPoint s th.partn th.serial k f) p := by rw [partOf, partOf, hp]
    rw [hpart]
    exact partOf_modPoint_frame s th.partn th.serial k f p

/-! ### `rvinit` (R125-R128, R133) -/

/-- The part of O20 about `rvinit` holds of every state. -/
theorem rendezvousInit : RendezvousInit := by
  intro s c th tm k a h hr hteam n p
  obtain ⟨-, ht, -⟩ := h.1
  have hexec : exec (.rvinit k a) s = .next (match (if n = 0 ∨ threadLimit s th < n then some (0x0E, rvAddr 3 k.val, (0 : Word))
        else if 0 < p.arrived then some (0x0E, rvAddr 2 k.val, 0) else none) with
      | some (cause, addr, info) => raise s c cause addr info 0
      | none => lvOver (retire (modPoint s th.partn th.serial k.val fun p => { p with expected := n }) c (wire tm) id) c.uid) := by
    rw [← wireTime_eq_wire hteam]
    exact (unit_ready _ h).trans (congrArg _ (lvLead_unpaired ht hr))
  refine ⟨fun hbad => ⟨_, hexec, ?_⟩, fun hn hl ha => ⟨_, hexec, ?_⟩, fun hn hl ha => ?_⟩
  · rw [if_pos hbad]
    exact takesUser_raise_zero 0x0E _ 0 h.1 rfl
  · rw [if_neg (by omega), if_pos ha]
    exact takesUser_raise_zero 0x0E _ 0 h.1 rfl
  · rw [if_neg (by omega), if_neg (by omega)] at hexec
    obtain ⟨hown, hpoint, honly, hagenda⟩ := retire_of_pointChanged (lat := wire tm) (k := k.val) hteam
      (s1 := modPoint s th.partn th.serial k.val fun p => { p with expected := n }) ht ⟨rfl, rfl, rfl, rfl, rfl, fun _ _ => rfl⟩
    exact ⟨_, _, hexec.trans (congrArg _ (lvOver_unpaired hown hr)), hown, ⟨rfl, rfl, rfl, rfl⟩, rfl, hpoint, honly, hagenda⟩

/-! ### `rvarr` (R126, R129, R133) -/

/-- What an arrival leaves of its thread: the point is arrived at in a phase. -/
def arrivedIn (k : Nat) (phase : Bool) (t : Thread) : Thread :=
  { t with rvRec := setBit24 t.rvRec k phase, rvArr := setBit24 t.rvArr k true }

/-- An arrival counts its thread at the point, and the one that completes the count has the release follow. -/
theorem arrive_unpaired {s : State} {u : Nat} {th : Thread} (k : Nat) (h : threadOf s u = some th) (hr : th.role = 0) :
    let p := pointAt s th k
    let s1 := arrive s u th k
    threadOf s1 u = some (arrivedIn k p.phase th)
      ∧ PointChanged s s1 u th k (fun q => { q with arrived := q.arrived + 1, closed := decide (p.arrived + 1 = p.expected) })
      ∧ (p.arrived + 1 = p.expected → ∃ e ∈ s1.agenda, e.cycle = s.cycle + wireTime s th
          ∧ e.act = .rendezvousRelease th.partn th.serial k) := by
  intro p s1
  have hs1 : s1 = arrive s u th k := rfl
  simp only [arrive, setRv, mateOf_unpaired h hr] at hs1
  have hown := threadOf_modThread_some (arrivedIn k p.phase) h
  have hothers := fun v hv => threadOf_modThread_of_ne s u v (arrivedIn k p.phase) hv
  by_cases hfull : p.arrived + 1 = p.expected
  · rw [if_pos (decide_eq_true hfull)] at hs1
    rw [hs1]
    exact ⟨hown, ⟨rfl, rfl, rfl, rfl, rfl, hothers⟩, fun _ => ⟨_, mem_enterTimed_self _ _, rfl, rfl⟩⟩
  · rw [if_neg (by simpa using hfull)] at hs1
    rw [hs1]
    exact ⟨hown, ⟨rfl, rfl, rfl, rfl, rfl, hothers⟩, fun hf => absurd hf hfull⟩

theorem endAs_arrivedIn (n : Ptr) (ready k : Nat) (phase : Bool) (th : Thread) :
    { endAs (unitOver n ready (arrivedIn k phase th)) th with rvRec := th.rvRec, rvArr := th.rvArr } = th := by
  simp only [endAs, unitOver, arrivedIn]

/-- The part of O20 about `rvarr` holds of every state. -/
theorem rendezvousArrive : RendezvousArrive := by
  intro s c th tm k h hr hteam p
  obtain ⟨-, ht, -⟩ := h.1
  have hexec : exec (.rvarr k) s = .next (match (if p.expected = 0 then some (0x0E, rvAddr 4 k.val, (0 : Word)) else none) with
      | some (cause, addr, info) => raise s c cause addr info 0
      | none => if th.rvArr.getLsbD k.val ∨ p.closed then waitUnit s c (.rvarr k)
          else lvOver (retire (arrive s c.uid th k.val) c 8 id) c.uid) :=
    (unit_ready _ h).trans (congrArg _ (lvLead_unpaired ht hr))
  refine ⟨fun he => ⟨_, hexec, ?_⟩, fun he hw => ?_, fun he ha hc => ?_⟩
  · rw [if_pos he]
    exact takesUser_raise_zero 0x0E _ 0 h.1 rfl
  · rw [if_neg he] at hexec
    simp only [if_pos hw] at hexec
    exact ⟨_, _, hexec, threadOf_modThread_some _ (threadOf_issued_self s c th ht), rfl, rfl, apart_modThread (apart_issued s c th ht) _⟩
  · rw [if_neg he] at hexec
    simp only [ha, hc, Bool.false_eq_true, or_self, if_false] at hexec
    obtain ⟨hown1, hchanged, hrelease⟩ := arrive_unpaired k.val ht hr
    obtain ⟨hown, hpoint, honly, hagenda⟩ := retire_of_pointChanged (lat := 8) hteam hown1 hchanged
    refine ⟨_, _, hexec.trans (congrArg _ (lvOver_unpaired hown hr)), hown, ⟨rfl, rfl, rfl, rfl⟩, fun j hj => ?_,
      endAs_arrivedIn _ _ _ _ _, hpoint, honly, ?_⟩
    · refine ⟨(getLsbD_setBit24 th.rvArr true hj).trans ?_, getLsbD_setBit24 th.rvRec p.phase hj⟩
      by_cases hjk : j = k.val <;> simp [hjk]
    · rw [hagenda, ← wireTime_eq_wire hteam]
      exact hrelease

/-- The count of a thread's parked cycles starts. -/
def countFrom (cycle : Nat) (t : Thread) : Thread := { t with rvSince := cycle, rvOn := true }

/-- The thread of a unit that is ready, parked by an `rvwait` of which no cycle has been counted. -/
def rvParked (s : State) (c : Cur) (k : Fin 24) : State :=
  modThread (waitUnit s c (.rvwait k)) c.uid fun t => { t with rvSpent := 0 }

/-- The count of an `rvwait` starts: its thread parks, at most RVTO cycles unless RVTO is zero (R132). -/
theorem rvCount_rvParked {s : State} {c : Cur} {th : Thread} (k : Fin 24) (h : threadOf s c.uid = some th) (hr : th.role = 0) :
    let t := rvCount (rvParked s c k) c.uid
    threadOf t c.uid = some { th with wait := .rvwait k, rvSince := s.cycle, rvSpent := 0, rvOn := true }
      ∧ Apart s { t with agenda := s.agenda } c
      ∧ (th.rvto ≠ 0 → ∃ e ∈ t.agenda, e.cycle = s.cycle + th.rvto.toNat ∧ e.act = .rendezvousTimeout c.uid s.cycle) := by
  intro t
  have hparked : threadOf (rvParked s c k) c.uid = some { th with wait := .rvwait k, rvSpent := 0 } :=
    threadOf_modThread_some _ (threadOf_modThread_some _ (threadOf_issued_self s c th h))
  have hapart : Apart s (modThread (rvParked s c k) c.uid (countFrom s.cycle)) c :=
    apart_modThread (apart_modThread (apart_modThread (apart_issued s c th h) _) _) _
  obtain ⟨hcycle, -, hagenda⟩ := apart_time_agenda hapart
  have hcount : t = if th.rvto = 0 then modThread (rvParked s c k) c.uid (countFrom s.cycle)
      else schedAt (modThread (rvParked s c k) c.uid (countFrom s.cycle))
        (s.cycle + (th.rvto.toNat - 0)) (.rendezvousTimeout c.uid s.cycle) := by
    have hc : (rvParked s c k).cycle = s.cycle := hcycle
    simp only [t, rvCount, hparked, hr, hc]
    rfl
  have hown := threadOf_modThread_some (countFrom s.cycle) hparked
  rw [hcount]
  by_cases hto : th.rvto = 0
  · rw [if_pos hto]
    exact ⟨hown, hagenda ▸ hapart, fun hne => absurd hto hne⟩
  · rw [if_neg hto]
    exact ⟨hown, hagenda ▸ hapart, fun _ => ⟨_, mem_enterTimed_self _ _, rfl, rfl⟩⟩

/-! ### `rvwait` and `rvtest` (R126, R130-R132) -/

/-- The part of O20 about `rvtest` and `rvwait` holds of every state. -/
theorem rendezvousWait : RendezvousWait := by
  intro s c th k q h hr ended
  obtain ⟨-, ht, -⟩ := h.1
  have hrole : ¬ th.role = 2 := by omega
  refine ⟨⟨_, (unit_ready _ h).trans (congrArg _ (lvShare_unpaired _ _ ht hr)), ?_⟩, fun he => ?_, fun he => ?_⟩
  · have hv : decide (([if (pointAt s th k.val).phase ≠ th.rvRec.getLsbD k.val then (1 : Word) else 0] : List Word).headD 0 = 1) = ended := by
      by_cases hp : (pointAt s th k.val).phase = th.rvRec.getLsbD k.val <;> simp [hp, ended]
    rw [hv]
    exact writesPred_retire s c th 8 q ended ht
  · have hp : (pointAt s th k.val).phase ≠ th.rvRec.getLsbD k.val := of_decide_eq_true he
    obtain ⟨hown, -⟩ := retireTo_spec s c th 8 c.npc id ht
    refine ⟨_, unit_ready _ h, ?_⟩
    simp only [if_neg hrole, if_pos hp, lvRoom, mateOf_unpaired ht hr, retire_eq]
    rw [rvFollow_unpaired th _ hown hr]
    exact writesNothing_retireTo s c th 8 c.npc ht
  · have hp : ¬ (pointAt s th k.val).phase ≠ th.rvRec.getLsbD k.val := of_decide_eq_false he
    obtain ⟨hown, hapart, htimeout⟩ := rvCount_rvParked k ht hr
    refine ⟨_, _, (unit_ready _ h).trans ?_, hown, rfl, rfl, rfl, hapart, htimeout⟩
    rw [if_neg hrole, if_neg hp]
    rfl

/-! ### The timeout (R132, R133) -/

/-- What a user-class fault makes of a thread that takes it to its handler. -/
def handled (ready : Nat) (f : FaultIn) (t : Thread) : Thread :=
  { faulted ready f t with fr := f.record, inHandler := true, pc := t.tvec }

/-- A user-class fault of a thread with a handler that it is not in goes to the handler (R146). -/
theorem takeFault_handled {s : State} {u : Nat} {th : Thread} {f : FaultIn} (ready : Nat) (h : threadOf s u = some th)
    (he : th.ending = false) (hv : th.tvec ≠ 0) (hh : th.inHandler = false) (hc : causeClass f.cause = 0) :
    takeFault s u f ready = modThread s u (handled ready f) := by
  have hown : ¬ (th.tvec = 0 ∨ th.inHandler = true) := by
    rintro (hn | hn)
    · exact hv hn
    · exact Bool.false_ne_true (hh.symm.trans hn)
  simp only [takeFault, h, he, hc, deliverUser, if_neg hown, Bool.false_eq_true, if_false]
  rfl

/-- The timeout as `RendezvousEnds` has it: in every state the rendezvous fault with detail 1 of the thread that waits. -/
theorem rendezvousTimeout_faults {s : State} {u : Nat} {th : Thread} {k : Fin 24} (ha : Acting s (.rendezvousTimeout u th.rvSince))
    (h : threadOf s u = some th) (hw : th.wait = .rvwait k) (hr : th.role = 0) (hv : th.tvec ≠ 0) (hh : th.inHandler = false)
    (he : th.ending = false) :
    ∃ t y, exec .rendezvousTimeout s = .next t ∧ threadOf t u = some y ∧ y.pc = th.tvec ∧ y.inHandler = true ∧ y.wait = .none
      ∧ y.fr = { cause := 0x0E, addr := BitVec.ofNat 64 (2 ^ 60 + k.val), pc := th.pc, info := BitVec.ofNat 64 (missing s th k.val),
                 tsc := BitVec.ofNat 64 s.tsc }
      ∧ t.parts = s.parts ∧ t.mem = s.mem := by
  have hrun : rvTimeout (begun s) u th k.val = takeFault (begun s) u (rvFault th.pc k.val (missing s th k.val) s.tsc) (s.cycle + 1) := by
    simp only [rvTimeout, mateOf_unpaired (s := begun s) h hr]
    rfl
  rw [takeFault_handled (s := begun s) _ h he hv hh rfl] at hrun
  have hexec : execRendezvousTimeout s
      = .next (modThread (begun s) u (handled (s.cycle + 1) (rvFault th.pc k.val (missing s th k.val) s.tsc))) := by
    refine actRow_done ha.1 ?_ ha.2
    simp only [show threadOf (begun s) u = some th from h, hw, hrun, if_true]
  refine ⟨_, _, hexec, threadOf_modThread_some (s := begun s) _ h, rfl, rfl, rfl, ?_, rfl, rfl⟩
  exact record_user 0x0E _ _ 0 th.pc s.tsc false rfl

/-! ### The release (R126, R129) -/

/-- The names in a table with rising keys differ, and each entry is the one that its name finds. -/
theorem nodup_keys_of_keysRise {α : Type} {m : AMap α} (h : keysRise m = true) :
    (m.map Prod.fst).Nodup ∧ ∀ e ∈ m, look m e.1 = some e.2 := by
  induction m with
  | nil => exact ⟨List.nodup_nil, fun e he => absurd he List.not_mem_nil⟩
  | cons x l ih =>
    rcases x with ⟨j, v⟩
    obtain ⟨hj, hl⟩ := (keysRise_cons_iff j v l).mp h
    obtain ⟨hnodup, hlook⟩ := ih hl
    refine ⟨List.nodup_cons.mpr ⟨fun hmem => ?_, hnodup⟩, fun e he => ?_⟩
    · obtain ⟨e, he, rfl⟩ := List.mem_map.mp hmem
      exact Nat.lt_irrefl _ (hj e he)
    · rcases List.mem_cons.mp he with rfl | he
      · exact if_pos rfl
      · exact (if_neg (Nat.ne_of_lt (hj e he))).trans (hlook e he)

/-- A change of one thread: it becomes what `F` makes of it, and no other thread, team or act is touched. -/
def ThreadBecomes (F : Thread → Thread) (u : Nat) (s t : State) : Prop :=
  threadOf t u = (threadOf s u).map F ∧ (∀ v, v ≠ u → threadOf t v = threadOf s v)
    ∧ t.parts = s.parts ∧ t.cycle = s.cycle ∧ t.behind = s.behind

theorem threadBecomes_modThread (F : Thread → Thread) (u : Nat) (s : State) : ThreadBecomes F u s (modThread s u F) :=
  ⟨threadOf_modThread_self s u F, fun v hv => threadOf_modThread_of_ne s u v F hv, rfl, rfl, rfl⟩

/-- Changes of one thread after another, each once, of threads that `P` admits. -/
theorem forEach_threadBecomes {F : Thread → Thread} {P : Nat → Thread → Prop} {c : Nat} {g : State → Nat → State}
    (hg : ∀ s v x, s.cycle = c → threadOf s v = some x → P v x → ThreadBecomes F v s (g s v)) {l : List Nat} (hl : l.Nodup)
    {s : State} (hc : s.cycle = c) (hP : ∀ v ∈ l, ∃ x, threadOf s v = some x ∧ P v x) :
    let t := forEach l g s
    (∀ v, threadOf t v = if v ∈ l then (threadOf s v).map F else threadOf s v)
      ∧ t.parts = s.parts ∧ t.cycle = s.cycle ∧ t.behind = s.behind := by
  induction l generalizing s with
  | nil => exact ⟨fun v => by simp [forEach], rfl, rfl, rfl⟩
  | cons u l ih =>
    obtain ⟨hu, hl⟩ := List.nodup_cons.mp hl
    obtain ⟨x, hx, hPx⟩ := hP u (by simp)
    obtain ⟨hown, hothers, hparts, hcycle, hbehind⟩ := hg s u x hc hx hPx
    obtain ⟨hrest, hparts', hcycle', hbehind'⟩ := ih hl (hcycle.trans hc) fun v hv => by
      rw [hothers v fun e => hu (e ▸ hv)]
      exact hP v (List.mem_cons_of_mem _ hv)
    refine ⟨fun v => (hrest v).trans ?_, hparts'.trans hparts, hcycle'.trans hcycle, hbehind'.trans hbehind⟩
    by_cases hv : v = u
    · subst hv; simp [hu, hown]
    · simp [hv, hothers v hv]

/-- A thread of a team, under its name. -/
abbrev InTeam (s : State) (n m u : Nat) (th : Thread) : Prop := threadOf s u = some th ∧ th.partn = n ∧ th.serial = m

/-- Changes of those threads of a team that `q` picks by what they were in `s`, made where each thread of the team is what `G`
makes of it. -/
theorem forEach_inTeam {s r : State} {n m : Nat} {q : Thread → Prop} [DecidablePred q] {F G : Thread → Thread} {l : List Nat}
    {g : State → Nat → State} (hl : l.Nodup) (hmem : ∀ v, v ∈ l ↔ ∃ th, InTeam s n m v th ∧ q th)
    (hG : ∀ v th, InTeam s n m v th → threadOf r v = some (G th))
    (hg : ∀ s' v th, InTeam s n m v th → q th → s'.cycle = r.cycle → threadOf s' v = some (G th) → ThreadBecomes F v s' (g s' v)) :
    let t := forEach l g r
    (∀ v th, InTeam s n m v th → threadOf t v = some (if q th then F (G th) else G th))
      ∧ t.parts = r.parts ∧ t.cycle = r.cycle ∧ t.behind = r.behind := by
  obtain ⟨ht, hrest⟩ := forEach_threadBecomes (F := F) (P := fun v x => ∃ th, InTeam s n m v th ∧ q th ∧ x = G th) (g := g)
    (s := r) (fun s' v x hc hx ⟨th, hth, hq, hxG⟩ => hg s' v th hth hq hc (hxG ▸ hx)) hl rfl fun v hv => by
      obtain ⟨th, hth, hq⟩ := (hmem v).mp hv
      exact ⟨_, hG v th hth, th, hth, hq, rfl⟩
  refine ⟨fun v th hth => ?_, hrest⟩
  have hv : v ∈ l ↔ q th := (hmem v).trans
    ⟨fun ⟨x, hx, hq⟩ => Option.some.inj (hx.1.symm.trans hth.1) ▸ hq, fun hq => ⟨th, hth, hq⟩⟩
  rw [ht, hG v th hth]
  by_cases hq : q th
  · rw [if_pos (hv.mpr hq), if_pos hq]; rfl
  · rw [if_neg (hv.not.mpr hq), if_neg hq]

/-- What the end of an `rvwait` in a cycle makes of its thread, which goes on at `n`. -/
def rvWaitedTo (n : Ptr) (cycle : Nat) (t : Thread) : Thread := { unitOver n (cycle + 1) t with rvOn := false }

theorem rvWaitedTo_role (n : Ptr) (cycle : Nat) (t : Thread) : (rvWaitedTo n cycle t).role = t.role := rfl
theorem rvWaitedTo_rvArr (n : Ptr) (cycle : Nat) (t : Thread) : (rvWaitedTo n cycle t).rvArr = t.rvArr := rfl
theorem sget_rvWaitedTo (n : Ptr) (cycle : Nat) (t : Thread) (r : SReg) : sget (rvWaitedTo n cycle t) r = sget t r := rfl

/-- An `rvwait` that ends goes on at the next word. -/
def rvWaited (cycle : Nat) (t : Thread) : Thread := rvWaitedTo (offBy t.pc 4) cycle t

theorem threadBecomes_rvWaited {s : State} {u : Nat} {th : Thread} (f : Act → Bool) (ready : Nat) (h : threadOf s u = some th)
    (hr : th.role = 0) :
    ThreadBecomes (rvWaited s.cycle) u s
      (rvFollow (modThread (unsched (complete s u (offBy th.pc 4) id) f) u fun t => { t with rvOn := false }) u th ready) := by
  have hsame : ∀ (r : State) (v : Nat), threadOf (unsched r f) v = threadOf r v := fun r v => by
    simp only [threadOf, unsched_threads]
  have hown : threadOf (modThread (unsched (complete s u (offBy th.pc 4) id) f) u fun t => { t with rvOn := false }) u
      = some (rvWaited s.cycle th) :=
    threadOf_modThread_some _ ((hsame _ u).trans (threadOf_modThread_some _ h))
  rw [rvFollow_unpaired th ready hown ((rvWaitedTo_role _ _ th).trans hr)]
  refine ⟨hown.trans (congrArg (Option.map _) h).symm, fun v hv => ?_, unsched_parts _ f, unsched_cycle _ f, unsched_behind _ f⟩
  rw [threadOf_modThread_of_ne _ _ _ _ hv, hsame, complete, threadOf_modThread_of_ne _ _ _ _ hv]

theorem threadBecomes_rvwaitDone {s : State} {u : Nat} {th : Thread} {k : Fin 24} (h : threadOf s u = some th) (hr : th.role = 0)
    (hw : th.wait = .rvwait k) : ThreadBecomes (rvWaited s.cycle) u s (rvwaitDone s u) := by
  unfold rvwaitDone
  split
  · rename_i hnone
    exact nomatch hnone.symm.trans h
  · rename_i x hx
    obtain rfl := Option.some.inj (hx.symm.trans h)
    split
    · exact threadBecomes_rvWaited _ _ h hr
    · rename_i hnot
      exact absurd hw (hnot k)

/-- What a release forgets of a thread: its arrival at the point. -/
def unarrived (k : Nat) (t : Thread) : Thread := { t with rvArr := setBit24 t.rvArr k false }

/-- An arrival that is parked is counted in the cycle after this one. -/
def dueAfter (cycle : Nat) (t : Thread) : Thread := { t with rvDue := some (cycle + 1) }

/-- What a release makes of a thread of the team, by what the thread waits for. -/
def releasedAt (k : Fin 24) (cycle : Nat) (t : Thread) : Thread :=
  let t1 := if t.wait = .rvwait k then rvWaited cycle (unarrived k.val t) else unarrived k.val t
  if t.wait = .rvarr k then dueAfter cycle t1 else t1

/-- With rising keys the threads of a team are listed once each, and are those that their names find. -/
theorem mem_teamThreads {s : State} (hrise : keysRise s.threads = true) (n m u : Nat) :
    u ∈ teamThreads s n m ↔ ∃ th, InTeam s n m u th := by
  simp only [teamThreads, threadsWhere, List.mem_map, List.mem_filter, decide_eq_true_eq]
  constructor
  · rintro ⟨e, ⟨he, hm⟩, rfl⟩
    exact ⟨e.2, (nodup_keys_of_keysRise hrise).2 e he, hm⟩
  · rintro ⟨th, hu, hm⟩
    exact ⟨(u, th), ⟨mem_of_look hu, hm⟩, rfl⟩

/-- The point is released and the arrivals of the team's threads are forgotten. -/
def forgetArrivals (s : State) (n m k : Nat) : State :=
  forEach (teamThreads s n m) (fun s u => modThread s u (unarrived k))
    (modPoint s n m k fun p => { p with phase := !p.phase, arrived := 0, closed := false })

/-- A thread parks for a reason, and is not the trailing one of a pair. -/
def waitsFor (s : State) (w : Wait) (u : Nat) : Bool :=
  match threadOf s u with
  | some th => decide (th.wait = w) && decide (th.role ≠ 2)
  | none => false

theorem releasePoint_eq (s : State) (n m : Nat) (k : Fin 24) :
    releasePoint s n m k.val =
      (let s2 := forgetArrivals s n m k.val
       let s3 := forEach ((teamThreads s n m).filter (waitsFor s2 (.rvwait k))) rvwaitDone s2
       forEach ((teamThreads s n m).filter (waitsFor s2 (.rvarr k)))
         (fun r u => modThread r u (dueAfter r.cycle)) s3) := by
  unfold releasePoint
  rw [dif_pos k.isLt]
  rfl

theorem releasePoint_spec {s : State} {n m : Nat} (k : Fin 24) (hrise : keysRise s.threads = true)
    (hroles : ∀ u th, InTeam s n m u th → th.role = 0) :
    let t := releasePoint s n m k.val
    (∀ u th, InTeam s n m u th → threadOf t u = some (releasedAt k s.cycle th))
      ∧ t.parts = (modPoint s n m k.val fun p => { p with phase := !p.phase, arrived := 0, closed := false }).parts
      ∧ t.behind = s.behind := by
  have hnodup : (teamThreads s n m).Nodup := (nodup_keys_of_keysRise hrise).1.sublist (List.filter_sublist.map _)
  have hteam := mem_teamThreads hrise n m
  obtain ⟨hforgot, hparts2, hcycle2, hbehind2⟩ := forEach_inTeam (s := s) (q := fun _ => True) (F := unarrived k.val) (G := id)
    (r := modPoint s n m k.val fun p => { p with phase := !p.phase, arrived := 0, closed := false })
    hnodup (fun v => by simpa using hteam v) (fun v th hth => hth.1) (fun s' v _ _ _ _ _ => threadBecomes_modThread (unarrived k.val) v s')
  have hwaits : ∀ w u, u ∈ (teamThreads s n m).filter (waitsFor (forgetArrivals s n m k.val) w)
      ↔ ∃ th, InTeam s n m u th ∧ th.wait = w := by
    intro w u
    have hown : ∀ th, InTeam s n m u th → waitsFor (forgetArrivals s n m k.val) w u = decide (th.wait = w) := fun th hth => by
      have hth2 : threadOf (forgetArrivals s n m k.val) u = some (unarrived k.val th) :=
        (hforgot u th hth).trans (congrArg some (if_pos trivial))
      simp [waitsFor, hth2, unarrived, hroles u th hth]
    rw [List.mem_filter, hteam]
    constructor
    · rintro ⟨⟨th, hth⟩, hw⟩
      exact ⟨th, hth, of_decide_eq_true ((hown th hth).symm.trans hw)⟩
    · rintro ⟨th, hth, hw⟩
      exact ⟨⟨th, hth⟩, (hown th hth).trans (decide_eq_true hw)⟩
  obtain ⟨hwaited, hparts3, hcycle3, hbehind3⟩ := forEach_inTeam (s := s) (q := fun th => th.wait = .rvwait k)
    (F := rvWaited s.cycle) (G := unarrived k.val) (r := forgetArrivals s n m k.val)
    (hnodup.filter _) (hwaits _) (fun v th hth => (hforgot v th hth).trans (congrArg some (if_pos trivial)))
    (fun s' v th hth hw hc hx => (hc.trans hcycle2) ▸ threadBecomes_rvwaitDone hx (hroles v th hth) hw)
  obtain ⟨hdue, hparts4, -, hbehind4⟩ := forEach_inTeam (s := s) (q := fun th => th.wait = .rvarr k)
    (F := dueAfter s.cycle) (g := fun r u => modThread r u (dueAfter r.cycle))
    (hnodup.filter _) (hwaits _) hwaited
    (fun s' v th _ _ hc _ => (hc.trans (hcycle3.trans hcycle2)) ▸
      threadBecomes_modThread (dueAfter s'.cycle) v s')
  rw [releasePoint_eq]
  exact ⟨hdue, hparts4.trans (hparts3.trans hparts2), hbehind4.trans (hbehind3.trans hbehind2)⟩

theorem releasedAt_of_waiting {k : Fin 24} {th : Thread} (cycle : Nat) (hw : th.wait = .rvwait k) :
    releasedAt k cycle th = rvWaited cycle (unarrived k.val th) := by
  simp only [releasedAt, hw, if_true, if_neg (show ¬ Wait.rvwait k = Wait.rvarr k from nofun)]

theorem releasedAt_of_arriving {k : Fin 24} {th : Thread} (cycle : Nat) (hw : th.wait = .rvarr k) :
    releasedAt k cycle th = dueAfter cycle (unarrived k.val th) := by
  simp only [releasedAt, hw, if_true, if_neg (show ¬ Wait.rvarr k = Wait.rvwait k from nofun)]

theorem releasedAt_of_other {k : Fin 24} {th : Thread} (cycle : Nat) (hw : th.wait ≠ .rvwait k) (ha : th.wait ≠ .rvarr k) :
    releasedAt k cycle th = unarrived k.val th := by
  simp only [releasedAt, if_neg hw, if_neg ha]

/-- The release as `RendezvousEnds` has it, in a state whose table of threads lists each name once (`Claims.Ordered`). -/
theorem rendezvousRelease_ends {s : State} {partn serial : Nat} {k : Fin 24} {tm : Team} (hrise : keysRise s.threads = true)
    (ha : Acting s (.rendezvousRelease partn serial k.val)) (hteam : teamOf s partn serial = some tm)
    (hroles : ∀ u th, threadOf s u = some th → th.partn = partn → th.serial = serial → th.role = 0) :
    ∃ t, exec .rendezvousRelease s = .next t
      ∧ (∃ tn, teamOf t partn serial = some tn
          ∧ pointOf tn k.val = { pointOf tm k.val with phase := !(pointOf tm k.val).phase, arrived := 0, closed := false })
      ∧ ∀ u th, threadOf s u = some th → th.partn = partn → th.serial = serial →
          ∃ y, threadOf t u = some y ∧ y.rvArr.getLsbD k.val = false ∧ (∀ r, sget y r = sget th r)
            ∧ (th.wait = .rvwait k → y.wait = .none ∧ y.pc = offBy th.pc 4 ∧ y.readyAt = s.cycle + 1)
            ∧ (th.wait = .rvarr k → y.wait = .rvarr k ∧ y.pc = th.pc ∧ y.rvDue = some (s.cycle + 1))
            ∧ (th.wait ≠ .rvwait k → { y with rvArr := th.rvArr, rvDue := th.rvDue } = th) := by
  obtain ⟨hthreads, hparts, hbehind⟩ := releasePoint_spec (s := begun s) (n := partn) (m := serial) k hrise
    fun u th ⟨hu, hn, hm⟩ => hroles u th hu hn hm
  have hexec : execRendezvousRelease s = .next (releasePoint (begun s) partn serial k.val) :=
    actRow_done ha.1 rfl (hbehind.trans ha.2)
  have htn : teamOf (releasePoint (begun s) partn serial k.val) partn serial = (teamOf s partn serial).map fun t =>
      { t with points := ins t.points k.val { pointOf t k.val with phase := !(pointOf t k.val).phase, arrived := 0, closed := false } } := by
    have hp := teamOf_modPoint (begun s) partn serial k.val fun p => { p with phase := !p.phase, arrived := 0, closed := false }
    rw [teamOf, partOf, ← hparts] at hp
    exact hp
  refine ⟨_, hexec, ⟨_, htn.trans (congrArg _ hteam), lookD_ins_self _ _ _ _⟩,
    fun u th hu hn hm => ⟨_, hthreads u th ⟨hu, hn, hm⟩, ?_⟩⟩
  have hforgot : (unarrived k.val th).rvArr.getLsbD k.val = false := (getLsbD_setBit24 th.rvArr false k.isLt).trans (if_pos rfl)
  by_cases hw : th.wait = .rvwait k
  · rw [releasedAt_of_waiting _ hw]
    exact ⟨(congrArg (·.getLsbD k.val) (rvWaitedTo_rvArr _ _ _)).trans hforgot, sget_rvWaitedTo _ _ _, fun _ => ⟨rfl, rfl, rfl⟩,
      fun harr => absurd (hw.symm.trans harr) nofun, fun hne => absurd hw hne⟩
  · by_cases harr : th.wait = .rvarr k
    · rw [releasedAt_of_arriving _ harr]
      exact ⟨hforgot, fun _ => rfl, fun hwait => absurd hwait hw, fun _ => ⟨harr, rfl, rfl⟩, fun _ => rfl⟩
    · rw [releasedAt_of_other _ hw harr]
      exact ⟨hforgot, fun _ => rfl, fun hwait => absurd hwait hw, fun h => absurd h harr, fun _ => rfl⟩

end Sys2Proof.Machine

/-! ## A release among threads two of which share a name (R126) -/

namespace Sys2Proof.Machine

open Sys2Proof.Claims

/-- A table of threads that lists the names 0 and 1 twice. The first entry of each name, the one that is looked up, is the
leading thread of a pair of team 2, waiting at point 0 of its own team, and a thread of team 1 outside any pair; the second
entries belong to the other team. -/
def namesTwice : AMap Thread :=
  [(0, { Thread.reset with serial := 2, role := 1, wait := .rvwait 0 }), (0, { Thread.reset with serial := 1 }),
   (1, { Thread.reset with serial := 1 }), (1, { Thread.reset with serial := 2, role := 2 })]

/-- The release of point 0 of team 1 is in hand. -/
def releaseAmongTwins : State :=
  { State.reset with
    act := some (.rendezvousRelease 0 1 0), threads := namesTwice, parts := [(0, { oneTilePart with teams := [(1, hostTeam)] })] }

/-- The load-value queue of thread 1 after a step. -/
def lvqAfter (o : Host.Outcome State Fault Refusal) : Option (AMap LvEntry) :=
  match o with
  | .next t => (threadOf t 1).map (·.lvq)
  | _ => none

/-- Thread 0 passes for one of team 1 by its second entry, so its wait ends; thread 1 passes for its trailing thread by its
second entry, so the end of the wait enters the queue of thread 1. -/
theorem lvqAfter_releaseAmongTwins : lvqAfter (exec .rendezvousRelease releaseAmongTwins) = some [(0, .vals [1])] := by
  decide +kernel

theorem not_rendezvousEnds : ¬ RendezvousEnds := by
  rintro ⟨hrelease, -⟩
  have hroles : ∀ e ∈ namesTwice, e.2.serial = 1 → e.2.role = 0 := by decide
  obtain ⟨t, ht, -, hteam⟩ := hrelease releaseAmongTwins 0 1 0 hostTeam ⟨rfl, rfl⟩ rfl
    fun u th hu _ hserial => hroles (u, th) (mem_of_look hu) hserial
  obtain ⟨y, hy, -, -, -, -, hframe⟩ := hteam 1 { Thread.reset with serial := 1 } rfl rfl rfl
  have hempty : y.lvq = [] := congrArg Thread.lvq (hframe (by decide))
  have hafter := lvqAfter_releaseAmongTwins
  rw [ht] at hafter
  simp [lvqAfter, hy, hempty] at hafter

/-- Refutes O20: its part `RendezvousEnds` does not ask that the table of threads lists each name once. In the state
`releaseAmongTwins` the release ends the wait of another team's leading thread, whose completion enters the load-value queue
of a thread of the team that does not wait. No state in order (`Claims.Ordered`, O60) is of this kind: there the release is
as stated (`rendezvousRelease_ends`), and all else of O20 holds in every state (`rendezvousInit`, `rendezvousArrive`,
`rendezvousWait`, `rendezvousTimeout_faults`). -/
theorem not_rendezvousPoints : ¬ Obligations.RendezvousPoints := by
  rintro ⟨-, -, -, hends⟩
  exact not_rendezvousEnds hends

end Sys2Proof.Machine

/-! ## An indexed load over its own index register (R155) -/

namespace Sys2Proof.Machine

open Sys2Proof.Claims

/-- Settles O29: the overlap is found before anything of the load is done, so the unit is that fault and no other. -/
theorem indexedOverlap : Obligations.IndexedOverlap := by
  unfold Obligations.IndexedOverlap
  intro s c th v a et rx q hv hready
  have hclaimed : ∀ r ∈ [v, v], r.val < th.vn := by simpa using hv
  obtain ⟨hexecuting, -⟩ := id hready
  refine ⟨raise s c 0x06 0 (BitVec.ofNat 64 (v.val + v.val * 256)) 0, ?_, takesUser_raise_zero 0x06 0 _ hexecuting rfl⟩
  change execVldx v v a et rx q s = _
  rw [execVldx, if_pos rfl]
  exact claimed_ready _ hready hclaimed

end Sys2Proof.Machine

/-! ## What the end of a thread leaves (R96, R382) -/

namespace Sys2Proof.Machine

open Sys2Proof.Claims

theorem rxOut_iff (th : Thread) : rxOut th = true ↔ RelaxedOut th := by simp [rxOut, RelaxedOut]

/-- What the end of a thread leaves of another: its team, whether it has a relaxed access outstanding, and that it ends where
it was to end. -/
structure StaysOn (x y : Thread) : Prop where
  partn : y.partn = x.partn
  serial : y.serial = x.serial
  rx : rxOut y = rxOut x
  ending : x.ending = true → y.ending = true

theorem StaysOn.refl (x : Thread) : StaysOn x x := ⟨rfl, rfl, rfl, id⟩

theorem StaysOn.trans {x y z : Thread} (h : StaysOn x y) (h' : StaysOn y z) : StaysOn x z :=
  ⟨h'.partn.trans h.partn, h'.serial.trans h.serial, h'.rx.trans h.rx, h'.ending ∘ h.ending⟩

/-- No thread is new, and the threads that are left stay on. -/
structure Outlasts (s t : State) : Prop where
  rise : keysRise s.threads = true → keysRise t.threads = true
  left : ∀ v y, threadOf t v = some y → ∃ x, threadOf s v = some x ∧ StaysOn x y

theorem Outlasts.trans {s t r : State} (h : Outlasts s t) (h' : Outlasts t r) : Outlasts s r := by
  refine ⟨h'.rise ∘ h.rise, fun v z hz => ?_⟩
  obtain ⟨y, hy, hyz⟩ := h'.left v z hz
  obtain ⟨x, hx, hxy⟩ := h.left v y hy
  exact ⟨x, hx, hxy.trans hyz⟩

theorem Outlasts.of_threads {s t : State} (h : t.threads = s.threads) : Outlasts s t :=
  ⟨fun hr => h ▸ hr, fun v y hy => ⟨y, by rw [threadOf, ← h]; exact hy, StaysOn.refl y⟩⟩

theorem Outlasts.refl (s : State) : Outlasts s s := Outlasts.of_threads rfl

theorem Outlasts.ite {s t r : State} {c : Prop} [Decidable c] (ht : Outlasts s t) (hr : Outlasts s r) :
    Outlasts s (if c then t else r) := by split <;> assumption

theorem outlasts_modThread (s : State) (u : Nat) {f : Thread → Thread} (hf : ∀ x, StaysOn x (f x)) : Outlasts s (modThread s u f) := by
  refine ⟨keysRise_upd _ _ _, fun v y hy => ?_⟩
  by_cases hv : v = u
  · subst hv
    rw [threadOf_modThread_self] at hy
    obtain ⟨x, hx, rfl⟩ := Option.map_eq_some_iff.mp hy
    exact ⟨x, hx, hf x⟩
  · rw [threadOf_modThread_of_ne _ _ _ _ hv] at hy
    exact ⟨y, hy, StaysOn.refl y⟩

/-- A change of a thread that is none of its team, its flights or its end. -/
theorem outlasts_modThread_aside (s : State) (u : Nat) {f : Thread → Thread}
    (hf : ∀ x, ((f x).partn, (f x).serial, (f x).flights, (f x).ending) = (x.partn, x.serial, x.flights, x.ending)) :
    Outlasts s (modThread s u f) := by
  refine outlasts_modThread s u fun x => ?_
  have h := hf x
  simp only [Prod.mk.injEq] at h
  obtain ⟨hpartn, hserial, hflights, hending⟩ := h
  exact ⟨hpartn, hserial, by rw [rxOut, hflights, rxOut], fun he => hending.trans he⟩

/-! ### A leap lands in the slot that has become free (R191, R196, R197) -/

theorem outlasts_rvCount (s : State) (u : Nat) : Outlasts s (rvCount s u) := by
  unfold rvCount
  split
  · exact Outlasts.refl s
  · split
    · exact Outlasts.refl s
    · dsimp only
      have h := outlasts_modThread_aside s u (f := fun t => { t with rvSince := s.cycle, rvOn := true }) fun _ => by rfl
      exact Outlasts.ite h (h.trans (Outlasts.of_threads rfl))

theorem outlasts_recheck (s : State) (u : Nat) : Outlasts s (recheck s u) := by
  have h := outlasts_modThread_aside s u (f := fun t => { t with wait := .none, readyAt := max t.readyAt (s.cycle + 1) }) fun _ => by rfl
  unfold recheck
  split
  · exact Outlasts.refl s
  · split
    · exact Outlasts.ite h (Outlasts.refl s)
    · exact Outlasts.ite h (Outlasts.refl s)
    · exact Outlasts.refl s

theorem outlasts_lvWake (s : State) (u : Nat) : Outlasts s (lvWake s u) := by
  unfold lvWake
  split
  · split
    · exact outlasts_modThread_aside s u fun _ => by rfl
    · exact Outlasts.refl s
  · exact Outlasts.refl s

theorem outlasts_lvHold (s : State) (u fid : Nat) (th : Thread) (n : Nat) : Outlasts s (lvHold s u fid th n) := by
  unfold lvHold
  split
  · refine Outlasts.ite ?_ (Outlasts.refl s)
    refine Outlasts.trans ?_ (outlasts_modThread_aside _ u fun _ => by rfl)
    exact outlasts_modThread_aside s _ fun _ => by rfl
  · exact Outlasts.refl s

/-- A change of flights that keeps which are relaxed and which are done. -/
theorem outlasts_modFlight (s : State) (u fid : Nat) {g : Flight → Flight} (hg : ∀ f, ((g f).rx, (g f).done) = (f.rx, f.done)) :
    Outlasts s (modFlight s u fid g) := by
  refine outlasts_modThread s u fun x => ⟨rfl, rfl, ?_, id⟩
  rw [rxOut, rxOut, List.any_map]
  refine congrArg (List.any x.flights) (funext fun f => ?_)
  obtain ⟨hrx, hdone⟩ := Prod.mk.inj (hg f)
  by_cases hf : f.fid = fid <;> simp [hf, hrx, hdone]

theorem sendRun_threads (u : Nat) (th : Thread) (f : Flight) (l : List PartReq) (at_ : Nat) (s : State) :
    (sendRun s u th f l at_).threads = s.threads := by
  induction l generalizing s at_ with
  | nil => rfl
  | cons q t ih =>
    rw [sendRun, ih]
    unfold sendPart
    split <;> rfl

theorem outlasts_sendNext (s : State) (u fid at_ : Nat) : Outlasts s (sendNext s u fid at_) := by
  unfold sendNext
  split
  · exact Outlasts.refl s
  · split
    · exact Outlasts.refl s
    · split
      · exact Outlasts.refl s
      · dsimp only
        refine Outlasts.trans ?_ (Outlasts.of_threads (sendRun_threads u _ _ _ _ _))
        have hhold : ∀ th n c, Outlasts s (if (c : Bool) = true then lvHold s u fid th n else s) := fun th n c =>
          Outlasts.ite (outlasts_lvHold s u fid th n) (Outlasts.refl s)
        refine Outlasts.ite (Outlasts.trans ?_ (outlasts_modThread_aside _ u fun _ => by rfl)) ?_
        all_goals exact Outlasts.ite (hhold _ _ _) ((hhold _ _ _).trans (outlasts_modFlight _ u fid fun _ => by rfl))

/-- A thread that has landed and waited in an `rvwait` has its cycles counted again. -/
theorem outlasts_wakeLanded (s : State) (u : Nat) : Outlasts s (match threadOf s u with
    | some th => match th.wait with | .rvwait _ => if th.held then s else rvCount s u | _ => s
    | none => s) := by
  split
  · split
    · exact Outlasts.ite (Outlasts.refl s) (outlasts_rvCount s u)
    · exact Outlasts.refl s
  · exact Outlasts.refl s

theorem outlasts_landLeap (s : State) (m : LeapMsg) (k : Nat) : Outlasts s (landLeap s m k) := by
  have hland := outlasts_modThread_aside s m.uid
    (f := fun th => { th with tile := m.dst, slot := k, stand := .inSlot, origins := th.origins ++ [(m.src, m.slot)] }) fun _ => by rfl
  unfold landLeap
  dsimp only
  split
  · refine Outlasts.trans ?_ (outlasts_wakeLanded _ m.uid)
    refine Outlasts.trans ?_ (outlasts_recheck _ m.uid)
    refine Outlasts.trans ?_ (outlasts_modThread_aside _ m.uid fun _ => by rfl)
    exact hland.trans (Outlasts.of_threads rfl)
  · split
    · refine Outlasts.trans ?_ (outlasts_modThread_aside _ m.uid fun _ => by rfl)
      exact hland.trans (Outlasts.of_threads rfl)
    · refine Outlasts.trans ?_ (outlasts_sendNext _ _ _ _)
      refine Outlasts.trans ?_ (outlasts_modThread _ m.uid fun x => ⟨rfl, rfl, ?_, id⟩)
      · exact hland.trans (Outlasts.of_threads rfl)
      · simp [rxOut]

theorem outlasts_slotFreed (s : State) (tile : Nat) : Outlasts s (slotFreed s tile) := by
  unfold slotFreed
  split
  · refine Outlasts.trans ?_ (outlasts_landLeap _ _ _)
    exact Outlasts.of_threads rfl
  · exact Outlasts.refl s

/-! ### The steps of a thread's end -/

/-- A step of a thread's end: no access of the hardware meets anything by it, and the other threads stay on. -/
structure EndStep (s t : State) : Prop where
  clear : Clear s → Clear t
  lasts : Outlasts s t

theorem EndStep.refl (s : State) : EndStep s s := ⟨id, Outlasts.refl s⟩

theorem EndStep.trans {s t r : State} (h : EndStep s t) (h' : EndStep t r) : EndStep s r :=
  ⟨h'.clear ∘ h.clear, h.lasts.trans h'.lasts⟩

theorem EndStep.ite {s t r : State} {c : Prop} [Decidable c] (ht : EndStep s t) (hr : EndStep s r) :
    EndStep s (if c then t else r) := by split <;> assumption

theorem EndStep.forEach {α : Type} {l : List α} {f : State → α → State} (h : ∀ s a, EndStep s (f s a)) (s : State) :
    EndStep s (forEach l f s) := by
  unfold Machine.forEach
  induction l generalizing s with
  | nil => exact EndStep.refl s
  | cons a t ih => exact (h s a).trans (ih _)

/-- A step that changes no thread. -/
theorem EndStep.of_quiet {s t : State} (hq : Quiet s t) (hc : Clear s → Clear t) : EndStep s t :=
  ⟨hc, Outlasts.of_threads hq.threads⟩

theorem EndStep.modTile (s : State) (k : Nat) {f : Tile → Tile} (hf : ∀ t, (f t).move = t.move) : EndStep s (modTile s k f) :=
  EndStep.of_quiet (quiet_modTile s k f) fun h => h.modTile k hf

theorem EndStep.unsched (s : State) (f : Act → Bool) : EndStep s (unsched s f) :=
  EndStep.of_quiet (quiet_unsched s f) fun h => h.unsched f

theorem EndStep.modThread (s : State) (u : Nat) {f : Thread → Thread} (hf : ∀ x, StaysOn x (f x)) : EndStep s (modThread s u f) :=
  ⟨(steady_modThread s u f).clear, outlasts_modThread s u hf⟩

theorem EndStep.recheck (s : State) (u : Nat) : EndStep s (recheck s u) := ⟨(steady_recheck s u).clear, outlasts_recheck s u⟩

theorem EndStep.slotFreed (s : State) (tile : Nat) : EndStep s (slotFreed s tile) :=
  ⟨(steady_slotFreed s tile).clear, outlasts_slotFreed s tile⟩

theorem EndStep.lvWake (s : State) (u : Nat) : EndStep s (lvWake s u) := by
  refine ⟨?_, outlasts_lvWake s u⟩
  unfold Machine.lvWake
  split
  · split
    · exact (steady_modThread s u _).clear
    · exact id
  · exact id

/-- What the tiles and ports wait for is changed, but no move and no walk. -/
theorem Clear.mapPlaces {s : State} (h : Clear s) {f : Tile → Tile} {g : Port → Port} (hf : ∀ t, t.move = none → (f t).move = none)
    (hg : ∀ p, (g p).walks = p.walks) :
    Clear { s with tiles := s.tiles.map (fun e => (e.1, f e.2)), ports := s.ports.map fun e => (e.1, g e.2) } := by
  refine ⟨h.behind, fun e he => ?_, fun e he => ?_, h.held⟩
  · obtain ⟨x, hx, rfl⟩ := List.mem_map.mp he
    exact hf x.2 (h.moves x hx)
  · obtain ⟨x, hx, rfl⟩ := List.mem_map.mp he
    exact (hg x.2).trans (h.walks x hx)

theorem Clear.mapTiles {s : State} (h : Clear s) {f : Tile → Tile} (hf : ∀ t, t.move = none → (f t).move = none) :
    Clear { s with tiles := s.tiles.map fun e => (e.1, f e.2) } := by
  refine ⟨h.behind, fun e he => ?_, h.walks, h.held⟩
  obtain ⟨x, hx, rfl⟩ := List.mem_map.mp he
  exact hf x.2 (h.moves x hx)

theorem EndStep.sendPromise (s : State) (tile slot : Nat) (v : Word) (vigil : Bool) : EndStep s (sendPromise s tile slot v vigil) := by
  unfold Machine.sendPromise
  split
  · dsimp only
    refine EndStep.trans (t := modEvu s tile _) ?_ ⟨fun h => h.sched ?_, Outlasts.of_threads rfl⟩
    · exact EndStep.modTile s tile fun _ => by rfl
    · cases vigil <;> rfl
  · exact EndStep.refl s

theorem EndStep.exitPromise (s : State) (u : Nat) : EndStep s (exitPromise s u) := by
  unfold Machine.exitPromise
  split
  · exact EndStep.refl s
  · refine EndStep.ite ?_ (EndStep.refl s)
    exact (EndStep.forEach (fun s x => EndStep.sendPromise s _ _ _ _) s).trans (EndStep.modTile _ _ fun _ => by rfl)

theorem EndStep.withdrawWaits (s : State) (u : Nat) : EndStep s (withdrawWaits s u) := by
  unfold Machine.withdrawWaits
  dsimp only
  refine EndStep.trans ?_ (EndStep.unsched _ _)
  refine ⟨fun h => ?_, Outlasts.of_threads rfl⟩
  exact h.mapPlaces (f := fun t => { t with waiters := reqsWithout u t.waiters })
    (g := fun p => { p with waiters := reqsWithout u p.waiters }) (fun _ => id) fun _ => by rfl

theorem EndStep.dropLeap (s : State) (u : Nat) : EndStep s (dropLeap s u) := by
  unfold Machine.dropLeap
  dsimp only
  refine EndStep.trans ?_ (EndStep.forEach (fun s m => ?_) _)
  · refine (EndStep.unsched s _).trans ⟨fun h => ?_, Outlasts.of_threads rfl⟩
    exact h.mapTiles (f := fun t => { t with arrivals := t.arrivals.filter fun m => !decide (m.uid = u) }) fun _ => id
  · exact (EndStep.modTile s _ fun _ => by rfl).trans (EndStep.slotFreed _ _)

/-! ### The retirement of a team (R382) -/

theorem Clear.recordWord {s : State} (h : Clear s) (n : Nat) (k : Queue) (i : Nat) (f : Word → Word) : Clear (recordWord s n k i f) := by
  unfold Machine.recordWord
  split
  · exact h
  · exact (h.hwLoad n _).hwStore n _ _

theorem EndStep.tellOrigin (s : State) (n k : Nat) (t : Team) : EndStep s (tellOrigin s n k t) := by
  unfold Machine.tellOrigin
  split
  · exact EndStep.refl s
  · dsimp only
    refine EndStep.ite ?_ ?_
    · exact EndStep.of_quiet (quiet_modQueue s n _ _) fun h => h.modQueue n _ _
    · exact EndStep.of_quiet ((quiet_modQueue s n _ _).trans (quiet_recordWord _ n _ 4 _)) fun h => (h.modQueue n _ _).recordWord n _ 4 _
  · exact EndStep.of_quiet (quiet_sched s _) fun h => h.sched rfl

theorem EndStep.retireTeam (s : State) (n k : Nat) (t : Team) : EndStep s (retireTeam s n k t) := by
  unfold Machine.retireTeam
  dsimp only
  refine ((EndStep.forEach (fun s tile => ?_) s).trans (EndStep.tellOrigin _ n k t)).trans ⟨fun h => ?_, Outlasts.of_threads rfl⟩
  · exact EndStep.modTile s tile fun _ => by rfl
  · exact ⟨h.behind, h.moves, h.walks, h.held⟩

theorem EndStep.teamCheck (s : State) (n k : Nat) : EndStep s (teamCheck s n k) := by
  unfold Machine.teamCheck
  split
  · exact EndStep.ite (EndStep.retireTeam s n k _) (EndStep.refl s)
  · exact EndStep.refl s

/-! ### A thread ends (R96) -/

theorem outlasts_del (s : State) (u : Nat) : Outlasts s { s with threads := del s.threads u } := by
  refine ⟨keysRise_del _ _, fun v y hy => ?_⟩
  by_cases hv : v = u
  · subst hv
    exact nomatch (look_del_self s.threads v).symm.trans hy
  · exact ⟨y, (look_del_of_ne s.threads u v hv).symm.trans hy, StaysOn.refl y⟩

/-- A thread that ends is gone at one point, with what it waited for; what follows brings no thread back. -/
theorem endThread_shape {s : State} {u : Nat} {th : Thread} (h : threadOf s u = some th) :
    ∃ r, EndStep s r ∧ threadOf r u = none ∧ EndStep r (endThread s u) := by
  have hdel : ∀ r : State, EndStep r { r with threads := del r.threads u } := fun r =>
    ⟨fun hc => ⟨hc.behind, hc.moves, hc.walks, hc.held⟩, outlasts_del r u⟩
  refine ⟨{ dropLeap (withdrawWaits (exitPromise s u) u) u with threads := del (dropLeap (withdrawWaits (exitPromise s u) u) u).threads u },
    (((EndStep.exitPromise s u).trans (EndStep.withdrawWaits _ u)).trans (EndStep.dropLeap _ u)).trans (hdel _), look_del_self _ u, ?_⟩
  unfold endThread
  simp only [h]
  refine EndStep.trans ?_ ((EndStep.slotFreed _ _).trans (EndStep.teamCheck _ _ _))
  refine EndStep.trans (EndStep.modTile _ th.tile (f := fun t => { t with cache := t.cache.filter fun e => decide (e.uid ≠ u) }) fun _ => by rfl) ?_
  split
  · exact (EndStep.lvWake _ _).trans (EndStep.recheck _ _)
  · exact EndStep.refl _

theorem EndStep.endThread (s : State) (u : Nat) : EndStep s (endThread s u) := by
  cases h : threadOf s u with
  | none => unfold Machine.endThread; simp only [h]; exact EndStep.refl s
  | some th =>
    obtain ⟨r, hbefore, -, hafter⟩ := endThread_shape h
    exact hbefore.trans hafter

theorem threadOf_endThread {s : State} {u : Nat} {th : Thread} (h : threadOf s u = some th) : threadOf (endThread s u) u = none := by
  obtain ⟨r, -, hgone, hafter⟩ := endThread_shape h
  refine Option.eq_none_iff_forall_ne_some.mpr fun y hy => ?_
  obtain ⟨x, hx, -⟩ := hafter.lasts.left u y hy
  exact nomatch hgone.symm.trans hx

/-- What is left of a thread that ends once its relaxed accesses have been performed. -/
def endsLater (t : Thread) : Thread := { t with wait := .none, ending := true, stopped := false, held := false }

/-- A thread that is terminated ends at once, or once its relaxed accesses have been performed. -/
theorem terminateThread_cases {s : State} {u : Nat} {th : Thread} (h : threadOf s u = some th) :
    (rxOut th = false ∧ terminateThread s u = endThread s u)
      ∨ rxOut th = true ∧ terminateThread s u = modThread (withdrawWaits s u) u endsLater := by
  unfold terminateThread
  simp only [h]
  cases hx : rxOut th
  · exact .inl ⟨rfl, rfl⟩
  · exact .inr ⟨rfl, rfl⟩

theorem EndStep.terminateThread (s : State) (u : Nat) : EndStep s (terminateThread s u) := by
  cases h : threadOf s u with
  | none => unfold Machine.terminateThread; simp only [h]; exact EndStep.refl s
  | some th =>
    rcases terminateThread_cases h with ⟨-, e⟩ | ⟨-, e⟩
    · rw [e]; exact EndStep.endThread s u
    · rw [e]; exact (EndStep.withdrawWaits s u).trans (EndStep.modThread _ u fun _ => ⟨rfl, rfl, rfl, fun _ => by rfl⟩)

theorem threadOf_withdrawWaits (s : State) (u v : Nat) : threadOf (withdrawWaits s u) v = threadOf s v := by
  unfold withdrawWaits
  simp only [threadOf, unsched_threads]

theorem threadOf_terminateThread {s : State} {u : Nat} {th : Thread} (h : threadOf s u = some th) :
    threadOf (terminateThread s u) u = if rxOut th then some (endsLater th) else none := by
  rcases terminateThread_cases h with ⟨hx, e⟩ | ⟨hx, e⟩
  · rw [e, hx, threadOf_endThread h]; rfl
  · rw [e, hx, if_pos rfl]
    exact threadOf_modThread_some endsLater ((threadOf_withdrawWaits s u u).trans h)

end Sys2Proof.Machine


/-! ## Thread control (R96, R146, R152) -/

namespace Sys2Proof.Machine

open Sys2Proof.Claims

/-! ### The thread that a word and a TID name -/

section
variable {s : State} {tile slot tid u : Nat} {th : Thread}

/-- A slot whose occupant has another TID does not hold the thread that is named. -/
theorem filter_occupant_none (h : ∀ v x, occupant s tile slot = some v → threadOf s v = some x → tidOf x ≠ tid) :
    (occupant s tile slot).filter (fun u => (threadOf s u).any fun th => decide (tidOf th = tid)) = none := by
  refine Option.filter_eq_none_iff.mpr fun v hv hany => ?_
  have hany' : (threadOf s v).any (fun th => decide (tidOf th = tid)) = true := hany
  cases hx : threadOf s v with
  | none => rw [hx] at hany'; exact nomatch hany'
  | some x =>
    rw [hx, Option.any_some] at hany'
    exact h v x hv hx (of_decide_eq_true hany')

theorem tcwThread_named (hn : Named s tile slot tid u th) : tcwThread s tile slot tid = some u := by
  obtain ⟨ht, hid, hocc | ⟨hmem, hstand, htile, hslot, hother, hone⟩⟩ := hn
  · exact tcwThread_atSlot ⟨hocc, ht⟩ hid
  unfold tcwThread
  rw [filter_occupant_none hother]
  dsimp only
  have hfound : (s.threads.find? fun e =>
      decide (e.2.stand = .vacated ∧ e.2.tile = tile ∧ e.2.recSlot = slot ∧ tidOf e.2 = tid)).isSome = true :=
    List.find?_isSome.mpr ⟨(u, th), hmem, by simp [hstand, htile, hslot, hid]⟩
  obtain ⟨e, he⟩ := Option.isSome_iff_exists.mp hfound
  have hp := List.find?_some he
  obtain ⟨hstand', htile', hslot', hid'⟩ := of_decide_eq_true hp
  rw [he, hone e (List.mem_of_find?_eq_some he) hstand' htile' hslot' hid', Option.map_some]

theorem tcwThread_noneNamed (hn : NoneNamed s tile slot tid) : tcwThread s tile slot tid = none := by
  obtain ⟨hother, hvacated⟩ := hn
  unfold tcwThread
  rw [filter_occupant_none hother]
  refine Option.map_eq_none_iff.mpr (List.find?_eq_none.mpr fun e he hp => ?_)
  obtain ⟨hstand, htile, hslot, hid⟩ := of_decide_eq_true hp
  exact hvacated e he hstand htile hslot hid

/-- A row of the thread-control word on the thread that is named: its effect, then its outcome. -/
theorem next_of_named {a : Act} {k : Act → State → Option State} {f : Nat → Thread → State × Nat} {r : State} {out : Nat}
    (ha : Acting s a) (hn : Named s tile slot tid u th)
    (hk : k a (begun s) = some (tcwRow (begun s) tile slot tid f)) (hf : f u th = (r, out)) (hb : r.behind = none) :
    actRow s k = .next (tcwSet r tile slot out) := by
  have hnamed : tcwThread (begun s) tile slot tid = some u := tcwThread_named (s := begun s) hn
  have ht : threadOf (begun s) u = some th := hn.1
  have hrow : tcwRow (begun s) tile slot tid f = tcwSet r tile slot out := by
    unfold tcwRow
    rw [hnamed, Option.bind_some, ht, Option.map_some]
    dsimp only
    rw [hf]
  exact actRow_done ha.1 (hk.trans (congrArg some hrow)) hb

/-- A row of the thread-control word that names no thread has outcome 1. -/
theorem next_of_noneNamed {a : Act} {k : Act → State → Option State} {f : Nat → Thread → State × Nat}
    (ha : Acting s a) (hn : NoneNamed s tile slot tid) (hk : k a (begun s) = some (tcwRow (begun s) tile slot tid f)) :
    ∃ t, actRow s k = .next t ∧ OutcomeOnly s t tile slot 1 := by
  have hnone : tcwThread (begun s) tile slot tid = none := tcwThread_noneNamed (s := begun s) hn
  have hrow : tcwRow (begun s) tile slot tid f = tcwSet (begun s) tile slot 1 := by
    unfold tcwRow
    rw [hnone]
    rfl
  exact ⟨_, actRow_done ha.1 (hk.trans (congrArg some hrow)) ha.2, outcomeOnly_tcwSet s tile slot 1⟩

/-! ### The actions -/

theorem control_noneNamed {i : Instr} {mk : Nat → Nat → Nat → Act} (hrow : controlRow i = some mk) (ha : Acting s (mk tile slot tid))
    (hn : NoneNamed s tile slot tid) : ∃ t, exec i s = .next t ∧ OutcomeOnly s t tile slot 1 := by
  unfold controlRow at hrow
  split at hrow
  · obtain rfl := Option.some.inj hrow
    change ∃ t, execResume s = .next t ∧ _
    unfold execResume
    exact next_of_noneNamed ha hn rfl
  · obtain rfl := Option.some.inj hrow
    change ∃ t, execDeliver s = .next t ∧ _
    unfold execDeliver
    exact next_of_noneNamed ha hn rfl
  · obtain rfl := Option.some.inj hrow
    change ∃ t, execTerminate s = .next t ∧ _
    unfold execTerminate
    exact next_of_noneNamed ha hn rfl
  · obtain rfl := Option.some.inj hrow
    change ∃ t, execVacate s = .next t ∧ _
    unfold execVacate
    exact next_of_noneNamed ha hn rfl
  · obtain rfl := Option.some.inj hrow
    change ∃ t, execRestore s = .next t ∧ _
    unfold execRestore
    exact next_of_noneNamed ha hn rfl
  · exact nomatch hrow

theorem resume_refused (ha : Acting s (.resume tile slot tid)) (hn : Named s tile slot tid u th) (h : th.stopped = false) :
    ∃ t, exec .resume s = .next t ∧ OutcomeOnly s t tile slot 2 := by
  refine ⟨_, ?_, outcomeOnly_tcwSet s tile slot 2⟩
  change execResume s = _
  unfold execResume
  exact next_of_named ha hn rfl (if_pos h) ha.2

theorem resume_accepted (ha : Acting s (.resume tile slot tid)) (hn : Named s tile slot tid u th) (h : th.stopped = true) :
    ∃ t, exec .resume s = .next t ∧ OutcomeThread s t tile slot u
      { th with stopped := false, resume := if restartsAt { s with act := none } th th.pc then bits th.fr.cause 32 32 else 0,
                readyAt := max th.readyAt (s.cycle + 1) } := by
  obtain ⟨ht, -⟩ := id hn
  refine ⟨_, ?_, outcomeThread_modThread
    (fun t => { t with stopped := false, readyAt := max t.readyAt (s.cycle + 1),
                       resume := if restartsAt { s with act := none } th th.pc then bits th.fr.cause 32 32 else 0 }) ht⟩
  change execResume s = _
  unfold execResume
  exact next_of_named ha hn rfl (if_neg (by simp [h])) ha.2

theorem deliver_refused (ha : Acting s (.deliver tile slot tid)) (hn : Named s tile slot tid u th)
    (h : th.stopped = false ∨ th.tvec = 0 ∨ th.inHandler = true) : ∃ t, exec .deliver s = .next t ∧ OutcomeOnly s t tile slot 2 := by
  refine ⟨_, ?_, outcomeOnly_tcwSet s tile slot 2⟩
  change execDeliver s = _
  unfold execDeliver
  exact next_of_named ha hn rfl (if_pos h) ha.2

theorem deliver_accepted (ha : Acting s (.deliver tile slot tid)) (hn : Named s tile slot tid u th) (hstopped : th.stopped = true)
    (htvec : th.tvec ≠ 0) (hhandler : th.inHandler = false) :
    ∃ t, exec .deliver s = .next t ∧ OutcomeThread s t tile slot u
      { th with stopped := false, inHandler := true, pc := th.tvec, resume := 0, readyAt := max th.readyAt (s.cycle + 1) } := by
  obtain ⟨ht, -⟩ := id hn
  refine ⟨_, ?_, outcomeThread_modThread
    (fun t => { t with stopped := false, inHandler := true, pc := t.tvec, resume := 0, readyAt := max t.readyAt (s.cycle + 1) }) ht⟩
  change execDeliver s = _
  unfold execDeliver
  refine next_of_named ha hn rfl (if_neg fun h => ?_) ha.2
  rcases h with h | h | h
  · exact nomatch hstopped.symm.trans h
  · exact htvec h
  · exact nomatch hhandler.symm.trans h

theorem terminate_accepted (ha : Acting s (.terminate tile slot tid)) (hu : Unhindered s) (hn : Named s tile slot tid u th) :
    ∃ t, exec .terminate s = .next t ∧ lookD (tileOf t tile).tcw slot 0 = 0
      ∧ ((∀ f ∈ th.flights, f.rx = false ∨ f.done = true) → threadOf t u = none)
      ∧ ((∃ f ∈ th.flights, f.rx = true ∧ f.done = false) →
          ∃ x, threadOf t u = some x ∧ x.ending = true ∧ x.wait = .none ∧ ∀ r, sget x r = sget th r) := by
  have ht : threadOf (begun s) u = some th := hn.1
  have hleft := threadOf_terminateThread ht
  have hclear : Clear (begun s) := clear_of_unhindered ha.2 hu
  have hbehind := ((EndStep.terminateThread (begun s) u).clear hclear).behind
  refine ⟨tcwSet (terminateThread (begun s) u) tile slot 0, ?_, tcw_tcwSet _ _ _ _, fun hrx => ?_, fun hrx => ?_⟩
  · change execTerminate s = _
    unfold execTerminate
    exact next_of_named ha hn rfl rfl hbehind
  · have hno : ¬ rxOut th = true := fun h => by
      obtain ⟨f, hf, hrx', hdone⟩ := (rxOut_iff th).mp h
      rcases hrx f hf with h' | h'
      · exact nomatch hrx'.symm.trans h'
      · exact nomatch hdone.symm.trans h'
    rw [threadOf_tcwSet, hleft, if_neg hno]
  · rw [threadOf_tcwSet, hleft, if_pos ((rxOut_iff th).mpr hrx)]
    exact ⟨endsLater th, rfl, rfl, rfl, fun _ => rfl⟩

end

/-- Settles O38: a row finds the thread that is named, or none, and its condition gives the outcome. -/
theorem threadControl : Obligations.ThreadControl := by
  unfold Obligations.ThreadControl
  intro s tile slot tid
  refine ⟨fun i mk hrow ha hn => control_noneNamed hrow ha hn, fun u th hn => ⟨fun ha => ?_, fun ha => ?_, fun ha hu => ?_⟩⟩
  · exact ⟨resume_refused ha hn, resume_accepted ha hn⟩
  · exact ⟨deliver_refused ha hn, deliver_accepted ha hn⟩
  · exact terminate_accepted ha hu hn

end Sys2Proof.Machine

/-! ## Writes in CTRL space meet nothing (R53, R211) -/

namespace Sys2Proof.Machine

open Sys2Proof.Claims

section
variable {s : State} {b : Option Nat}

theorem behind_ite {t r : State} {c : Prop} [Decidable c] (ht : t.behind = b) (hr : r.behind = b) : (if c then t else r).behind = b := by
  split <;> assumption

theorem schedOpt_behind (s : State) (a : Option Act) : (schedOpt s a).behind = s.behind := by
  cases a <;> rfl

theorem tileWrite_behind (s : State) (tile off : Nat) (v : Word) : (tileWrite s tile off v).behind = s.behind := by
  unfold tileWrite
  refine behind_ite (schedOpt_behind s _) (behind_ite rfl (behind_ite rfl (behind_ite ?_ ?_)))
  · split <;> rfl
  · exact behind_ite rfl (behind_ite rfl (behind_ite rfl (behind_ite rfl rfl)))

/-- Only the record of a queue that is switched out lies in memory (R374). -/
theorem lqcWrite_behind (h : Clear s) (n q : Nat) (v : Word) : (lqcWrite s n q v).behind = none := by
  have hset : ∀ (f : Queue → Queue) (c : Prop) [Decidable c], (if c then queueKick (modQueue s n q f) n q
      else recordWord (modQueue s n q f) n (queueOf (partOf s n) q) 5 fun _ => ofN (bits v 0 3)).behind = none := fun f c _ =>
    behind_ite ((queueKick_behind _ n q).trans h.behind) ((h.modQueue n q f).recordWord n _ 5 _).behind
  unfold lqcWrite
  dsimp only
  refine behind_ite h.behind ?_
  split
  · exact hset _ _
  · exact hset _ _
  · exact hset _ _

theorem lqWrite_behind (h : Clear s) (n q o : Nat) (v : Word) : (lqWrite s n q o v).behind = none := by
  unfold lqWrite
  dsimp only
  split
  · exact behind_ite h.behind h.behind
  · exact behind_ite h.behind h.behind
  · exact h.behind
  · exact lqcWrite_behind h n q v
  · exact behind_ite h.behind h.behind
  · exact h.behind

theorem launchWrite_behind (h : Clear s) (off : Nat) (v : Word) : (launchWrite s off v).behind = none := by
  have hopt : ∀ a, (schedOpt s a).behind = none := fun a => (schedOpt_behind s a).trans h.behind
  unfold launchWrite
  dsimp only
  refine behind_ite h.behind (behind_ite (lqWrite_behind h _ _ _ v) ?_)
  refine behind_ite (behind_ite h.behind h.behind) (behind_ite h.behind ?_)
  split
  · exact hopt _
  · exact behind_ite h.behind h.behind
  · exact behind_ite h.behind h.behind
  · exact behind_ite h.behind h.behind
  · exact behind_ite h.behind h.behind
  · exact hopt _
  · exact behind_ite h.behind h.behind
  · exact h.behind
  · exact behind_ite h.behind h.behind
  · exact h.behind

theorem traceWrite_behind (s : State) (off : Nat) (v : Word) : (traceWrite s off v).behind = s.behind := by
  unfold traceWrite
  dsimp only
  refine behind_ite rfl (behind_ite (behind_ite rfl rfl) (behind_ite rfl ?_))
  split
  · rfl
  · exact behind_ite rfl rfl
  · exact behind_ite rfl rfl
  · rfl
  · exact behind_ite rfl rfl
  · exact behind_ite rfl rfl
  · rfl
  · rfl
  · exact behind_ite rfl rfl
  · exact schedOpt_behind s _
  · rfl
  · rfl

theorem histWrite_behind (s : State) (d off : Nat) (v : Word) : (histWrite s d off v).behind = s.behind := by
  unfold histWrite
  split
  · exact behind_ite rfl rfl
  · rfl
  · exact behind_ite rfl rfl
  · rfl

theorem relWrite_behind (s : State) (off : Nat) (v : Word) : (relWrite s off v).behind = s.behind := by
  unfold relWrite
  refine behind_ite ?_ (behind_ite (behind_ite rfl (behind_ite rfl rfl)) (behind_ite rfl (behind_ite ?_ (behind_ite ?_ rfl))))
  · unfold ckWrite
    dsimp only
    split <;> rfl
  · exact behind_ite rfl rfl
  · exact behind_ite (behind_ite rfl rfl) (behind_ite rfl rfl)

theorem devWrite_behind (h : Clear s) (unit off : Nat) (v : Word) : (devWrite s unit off v).behind = none := by
  unfold devWrite
  split
  · exact launchWrite_behind h off v
  · exact (traceWrite_behind s off v).trans h.behind
  · exact (relWrite_behind s off v).trans h.behind
  · exact behind_ite ((histWrite_behind s _ off v).trans h.behind) h.behind

end

end Sys2Proof.Machine

/-! ## What a store of the hardware does not touch (R53, R113) -/

namespace Sys2Proof.Machine

theorem serveList_parts (s : State) (k : Nat) (l : List Req) : (serveList s k l).1.parts = s.parts := by
  induction l generalizing s with
  | nil => rfl
  | cons w t ih =>
    simp only [serveList]
    split
    · split
      · rw [ih, dropTimeout, unsched_parts, answer]
        split
        · exact setView_parts s k w.view
        · exact setView_parts s k w.view
      · exact ih s
    · exact ih s

theorem writeWord_parts (s : State) (k : Nat) (v : Word) (full : Bool) : (writeWord s k v full).parts = s.parts := by
  unfold writeWord serve
  split
  · unfold setWaiters
    split <;> exact serveList_parts _ _ _
  · rfl

theorem hwStore_parts (s : State) (n : Nat) (p : Ptr) (v : Word) : (hwStore s n p v).parts = s.parts := by
  have hk := hwKey_parts s n p true false
  unfold hwStore
  split
  · rename_i e; rw [e] at hk; exact (writeWord_parts _ _ v true).trans hk
  · rename_i e; rw [e] at hk; exact hk

theorem hwRecord_parts (s : State) (n : Nat) (p : Ptr) (ws : List Word) : (hwRecord s n p ws).parts = s.parts := by
  cases ws with
  | nil => rfl
  | cons w t =>
    have hrest : ∀ (l : List Word) (a : State × Nat),
        (l.foldl (fun (a : State × Nat) w => (hwStore a.1 n (offBy p (8 * a.2)) w, a.2 + 1)) a).1.parts = a.1.parts := by
      intro l
      induction l with
      | nil => exact fun _ => rfl
      | cons x l ih => exact fun a => (ih _).trans (hwStore_parts a.1 n _ x)
    exact (hwStore_parts _ n p w).trans (hrest t (s, 1))

end Sys2Proof.Machine

/-! ## The fault-queue registers and the posting of held entries (R150-R152, R210, R341, R373, R408) -/

namespace Sys2Proof.Machine

open Sys2Proof.Claims

section
variable {s : State} {n : Nat} {v : Word}

/-! ### Registers that take a value -/

theorem fqbWrite_takes (ha : Acting s (.fqbWrite n v)) :
    ∃ t, exec .fqbWrite s = .next t ∧ { t with parts := s.parts, act := s.act } = s
      ∧ partOf t n = if ringBaseOk v 64 then { partOf s n with fqb := v, fqNoted := false, fqStuck := false } else partOf s n := by
  change ∃ t, execFqbWrite s = .next t ∧ _
  unfold execFqbWrite
  by_cases hok : ringBaseOk v 64 = true
  · rw [if_pos hok]
    exact ⟨_, actRow_done ha.1 (if_pos hok) ha.2, rfl, partOf_modPart_self _ _ _⟩
  · rw [if_neg hok]
    exact ⟨_, actRow_done ha.1 (if_neg hok) ha.2, rfl, rfl⟩

theorem fqrWrite_takes (ha : Acting s (.fqrWrite n v)) :
    ∃ t, exec .fqrWrite s = .next t ∧ { t with parts := s.parts, act := s.act } = s
      ∧ partOf t n = { partOf s n with fqr := bits v 0 32, fqStuck := false } := by
  change ∃ t, execFqrWrite s = .next t ∧ _
  unfold execFqrWrite
  exact ⟨_, actRow_done ha.1 rfl ha.2, rfl, partOf_modPart_self _ _ _⟩

theorem hfqbWrite_takes (ha : Acting s (.hfqbWrite v)) :
    exec .hfqbWrite s = .next (if bits v 0 6 = 0 then { s with hfqb := v, hostStuck := false, act := none } else { s with act := none }) := by
  change execHfqbWrite s = _
  unfold execHfqbWrite
  by_cases hok : bits v 0 6 = 0
  · rw [if_pos hok]
    exact actRow_done ha.1 (if_pos hok) ha.2
  · rw [if_neg hok]
    exact actRow_done ha.1 (if_neg hok) ha.2

theorem hfqrWrite_takes (ha : Acting s (.hfqrWrite v)) :
    exec .hfqrWrite s = .next { s with hfqr := bits v 0 32, hostStuck := false, act := none } := by
  change execHfqrWrite s = _
  unfold execHfqrWrite
  exact actRow_done ha.1 rfl ha.2

theorem divsClear_clears (ha : Acting s (.divsClear n v)) :
    ∃ t, exec .divsClear s = .next t ∧ (partOf t n).divs = (partOf s n).divs &&& ~~~v &&& 0xFFFFFFFF#64 ∧ ScanSoon s t
      ∧ t.threads = s.threads ∧ t.mem = s.mem := by
  change ∃ t, execDivsClear s = .next t ∧ _
  unfold execDivsClear
  refine ⟨_, actRow_done ha.1 rfl ha.2, ?_, scanSoon_scanNext rfl, rfl, rfl⟩
  exact congrArg (·.divs) (partOf_modPart_self (begun s) n fun p => { p with divs := p.divs &&& ~~~v &&& 0xFFFFFFFF#64 })

/-! ### Writes in CTRL space -/

theorem tileRegister_written {u tile off : Nat} (ha : Acting s (.registerWrite (.tile u tile off) v)) :
    exec .registerWrite s = .next (tileWrite (begun s) tile (off / 8 * 8) v) := by
  change execRegisterWrite s = _
  unfold execRegisterWrite
  exact actRow_done ha.1 rfl ((tileWrite_behind (begun s) tile _ v).trans ha.2)

theorem devRegister_written {u unit off : Nat} (ha : Acting s (.registerWrite (.dev u unit off) v)) (hu : Unhindered s) :
    exec .registerWrite s = .next (devWrite (begun s) unit (off / 8 * 8) v) := by
  have hclear : Clear (begun s) := clear_of_unhindered ha.2 hu
  change execRegisterWrite s = _
  unfold execRegisterWrite
  exact actRow_done ha.1 rfl (devWrite_behind hclear unit _ v)

/-- The word of a slot is a thread-control word; action 1 is due at once (R152). -/
theorem tileWrite_resume (s : State) (tile slot : Nat) {v : Word} (hslot : slot < 16) (hzero : bits v 4 12 = 0) (hact : bits v 0 4 = 1) :
    ∃ e ∈ (tileWrite s tile (0x4000 + 8 * slot) v).agenda, e.cycle = s.cycle ∧ e.act = .resume tile slot (bits v 16 48) := by
  have hword : (0x4000 + 8 * slot - 0x4000) / 8 = slot := by omega
  have hresume : tcwAct tile slot v = some (.resume tile slot (bits v 16 48)) := by
    unfold tcwAct
    dsimp only
    rw [if_neg (not_not.mpr hzero), hact]
    rfl
  have hwrite : tileWrite s tile (0x4000 + 8 * slot) v = schedAt s s.cycle (.resume tile slot (bits v 16 48)) := by
    unfold tileWrite
    rw [if_pos (by omega), hword, hresume]
    rfl
  rw [hwrite]
  exact ⟨_, mem_enterTimed_self _ _, rfl, rfl⟩

theorem tileWrite_rldst (s : State) (tile : Nat) (v : Word) : (tileOf (tileWrite s tile 0x5000 v) tile).rldst = v := by
  have h : tileWrite s tile 0x5000 v = modTile s tile fun t => { t with rldst := v } := rfl
  rw [h, tileOf_modTile_self]

theorem tileWrite_orphan (s : State) (tile : Nat) (v : Word) :
    (tileOf (tileWrite s tile 0x4100 v) tile).orphan = { (tileOf s tile).orphan with count := bits v 0 32 } := by
  have h : tileWrite s tile 0x4100 v = modTile s tile fun t => { t with orphan := { t.orphan with count := bits v 0 32 } } := rfl
  rw [h, tileOf_modTile_self]

theorem devWrite_hbas (s : State) {d : Nat} (hd : d < 4) (v : Word) : (histOf (devWrite s (2 + d) 0x80008 v) d).hbas = bits v 0 46 := by
  have h : devWrite s (2 + d) 0x80008 v = modHist s d fun h => { h with hbas := bits v 0 46 } := by
    have hdie : 2 + d - 2 = d := by omega
    unfold devWrite
    split
    · omega
    · omega
    · omega
    · rw [if_pos (by omega), hdie]
      rfl
  rw [h, histOf_modHist_self]

theorem devWrite_hostQueue (s : State) {off : Nat} (h : 0x80000 ≤ off) (v : Word) : devWrite s 0 (off / 8 * 8) v = s := by
  change launchWrite s (off / 8 * 8) v = s
  unfold launchWrite
  exact if_pos (by omega)

/-! ### The host driver's queue -/

/-- One word of an entry put into a ring in memory. -/
def ringPut (base : Nat) (a : State × Nat) (w : Word) : State × Nat := (putWord a.1 (base + 8 * a.2) w true, a.2 + 1)

/-- The words of an entry change memory alone. -/
theorem ringPut_frame (base : Nat) (l : List Word) (a : State × Nat) :
    (l.foldl (ringPut base) a).1 = { a.1 with mem := (l.foldl (ringPut base) a).1.mem, empty := (l.foldl (ringPut base) a).1.empty,
                                              poison := (l.foldl (ringPut base) a).1.poison } := by
  induction l generalizing a with
  | nil => rfl
  | cons w t ih => exact ih (ringPut base a w)

/-- They touch nothing below their first word. -/
theorem ringPut_below (base : Nat) (l : List Word) (a : State × Nat) {c : Nat} (hc : c + 8 ≤ base + 8 * a.2) :
    wordAt (l.foldl (ringPut base) a).1 c = wordAt a.1 c := by
  induction l generalizing a with
  | nil => rfl
  | cons w t ih =>
    have hnext : c + 8 ≤ base + 8 * (ringPut base a w).2 := by
      change c + 8 ≤ base + 8 * (a.2 + 1)
      omega
    exact (ih _ hnext).trans (memWord_memPutWord_of_out a.1.mem (base + 8 * a.2) c w (.inl hc))

theorem ringPut_words (base : Nat) (l : List Word) (a : State × Nat) (hm : Memory.wf a.1.mem = true) {k : Nat} (hk : k < l.length) :
    wordAt (l.foldl (ringPut base) a).1 (base + 8 * a.2 + 8 * k) = l.getD k 0 := by
  induction l generalizing a k with
  | nil => exact absurd hk (Nat.not_lt_zero k)
  | cons w t ih =>
    cases k with
    | zero =>
      refine (ringPut_below base t (ringPut base a w) (Nat.le_of_eq ?_)).trans (memWord_memPutWord a.1.mem _ w hm)
      change base + 8 * a.2 + 8 = base + 8 * (a.2 + 1)
      omega
    | succ k =>
      have hnext := ih (ringPut base a w) (wf_memPutWord a.1.mem _ w hm) (Nat.lt_of_succ_lt_succ hk)
      have hplace : base + 8 * (ringPut base a w).2 + 8 * k = base + 8 * a.2 + 8 * (k + 1) := by
        change base + 8 * (a.2 + 1) + 8 * k = _
        omega
      rwa [hplace] at hnext

/-- The first entry is due once it may be posted. -/
theorem entryDue_cons {s : State} {stuck room : Bool} {e : Entry} (l : List Entry) (hstuck : stuck = false) (hroom : room = true)
    (htick : e.tsc < s.tsc) (hfirst : earlierFault s e = false) : entryDue s stuck room (e :: l) = some e := by
  refine if_pos ?_
  rw [hstuck, hroom, hfirst, decide_eq_true (show e.tsc < now s from htick)]
  rfl

/-- The ring's state after the words of an entry. -/
def hostPosted (e : Entry) (r : State) : State :=
  { r with hfqw := (r.hfqw + 1) % 2 ^ 32, outbox := r.outbox ++ [.msix 0 r.hfqv], hostEnt := r.hostEnt.erase e }

theorem hostRing_posted (s : State) (e : Entry) (h : Config.hostWriteFails s.fresh = false) : hostRing s e =
    hostPosted e (e.words.foldl (ringPut (keyHost (s.hfqb.toNat + 64 * (s.hfqw % s.hfqn)))) (freshFree s, 0)).1 := by
  unfold hostRing
  rw [if_neg (by rw [h]; exact Bool.false_ne_true)]
  rfl

theorem hostEntry_posted {e : Entry} {l : List Entry} (hl : s.hostEnt = e :: l) (hstuck : s.hostStuck = false)
    (hroom : hasRoom s.hfqb s.hfqn s.hfqw s.hfqr = true) (htick : e.tsc < s.tsc) (hfirst : earlierFault s e = false) :
    ∃ t, postNext s = some t
      ∧ (Config.hostWriteFails s.fresh = true → t.hostStuck = true ∧ t.hostEnt = s.hostEnt ∧ t.hfqw = s.hfqw ∧ t.mem = s.mem)
      ∧ (Config.hostWriteFails s.fresh = false →
        t.hfqw = (s.hfqw + 1) % 2 ^ 32 ∧ t.hostEnt = l ∧ t.outbox = s.outbox ++ [.msix 0 s.hfqv]
          ∧ (s.MemOk → s.hfqb.toNat % 64 = 0 → ∀ k, k < 8 →
              wordAt t (keyHost (s.hfqb.toNat + 64 * (s.hfqw % s.hfqn)) + 8 * k) = e.words.getD k 0)) := by
  have hpost : postNext s = some (hostRing s e) := by
    unfold postNext
    rw [hl, entryDue_cons l hstuck hroom htick hfirst]
  refine ⟨_, hpost, fun hfails => ?_, fun hfails => ?_⟩
  · unfold hostRing
    rw [if_pos hfails]
    exact ⟨rfl, rfl, rfl, rfl⟩
  · have hframe := ringPut_frame (keyHost (s.hfqb.toNat + 64 * (s.hfqw % s.hfqn))) e.words (freshFree s, 0)
    have hwords := fun (hm : s.MemOk) k hk =>
      ringPut_words (keyHost (s.hfqb.toNat + 64 * (s.hfqw % s.hfqn))) e.words (freshFree s, 0) hm.1 (k := k) hk
    rw [hostRing_posted s e hfails]
    generalize (e.words.foldl (ringPut (keyHost (s.hfqb.toNat + 64 * (s.hfqw % s.hfqn)))) (freshFree s, 0)).1 = r at hframe hwords
    refine ⟨?_, ?_, ?_, fun hm _ k hk => hwords hm k hk⟩
    · rw [hframe]; rfl
    · rw [hframe]
      change s.hostEnt.erase e = l
      rw [hl, List.erase_cons_head]
    · rw [hframe]; rfl

/-! ### A partition's queue -/

/-- Where the way to every word of an entry is open and changes nothing, the entry can be written. -/
theorem hwWritable_of_keys {p : Ptr} (h : ∀ k, k < 8 → ∃ j, hwKey s n (offBy p (8 * k)) true false = (s, .ok j)) :
    hwWritable s n p = (s, true) := by
  have hall : ∀ l : List Nat, (∀ k ∈ l, k < 8) → l.foldl (fun a i =>
      match hwKey a.1 n (offBy p (8 * i)) true false with
      | (s1, .ok _) => (s1, a.2)
      | (s1, .bad _ _ _) => (s1, false)) (s, true) = (s, true) := by
    intro l hl
    induction l with
    | nil => rfl
    | cons k t ih =>
      obtain ⟨j, hj⟩ := h k (hl k List.mem_cons_self)
      rw [List.foldl_cons, hj]
      exact ih fun i hi => hl i (List.mem_cons_of_mem k hi)
  exact hall (List.range 8) fun k hk => List.mem_range.mp hk

theorem partEntry_posted {e : Entry} {l : List Entry} (hl : (partOf s n).heldEnt = e :: l) (hstuck : (partOf s n).fqStuck = false)
    (hroom : hasRoom (partOf s n).fqb (partOf s n).fqn (partOf s n).fqw (partOf s n).fqr = true) (htick : e.tsc < s.tsc)
    (hfirst : earlierFault s e = false)
    (hkeys : ∀ k, k < 8 → ∃ j, hwKey s n (offBy (fqSlot (partOf s n)) (8 * k)) true false = (s, .ok j)) :
    ∃ t, partNext s n (partOf s n) = some t ∧ (partOf t n).fqw = ((partOf s n).fqw + 1) % 2 ^ 32 ∧ (partOf t n).heldEnt = l := by
  have hpost : partNext s n (partOf s n) = some (supRing s n e) := by
    unfold partNext
    rw [hl, entryDue_cons l hstuck hroom htick hfirst]
  have hring : supRing s n e = modPart (hwRecord s n (fqSlot (partOf s n)) e.words) n fun q =>
      { q with fqw := (q.fqw + 1) % 2 ^ 32, heldEnt := q.heldEnt.erase e } := by
    unfold supRing
    dsimp only
    rw [hwWritable_of_keys hkeys]
  have hpart : partOf (hwRecord s n (fqSlot (partOf s n)) e.words) n = partOf s n := by
    unfold partOf
    rw [hwRecord_parts]
  refine ⟨_, hpost, ?_, ?_⟩
  · rw [hring, partOf_modPart_self, hpart]
  · rw [hring, partOf_modPart_self, hpart]
    change (partOf s n).heldEnt.erase e = l
    rw [hl, List.erase_cons_head]

end

/-- Settles O50: each register by its row, and each queue by the entry at its head. -/
theorem queueRegisters : Obligations.QueueRegisters := by
  unfold Obligations.QueueRegisters
  intro s n v
  refine ⟨fqbWrite_takes, fqrWrite_takes, hfqbWrite_takes, hfqrWrite_takes, divsClear_clears, fun u tile off ha => ?_,
    fun e l hl hstuck hroom htick hfirst => hostEntry_posted hl hstuck hroom htick hfirst,
    fun e l hl hstuck _ hroom htick hfirst hkeys => partEntry_posted hl hstuck hroom htick hfirst hkeys, fun u unit off ha hu => ?_⟩
  · refine ⟨_, tileRegister_written ha, rfl, ?_, ?_, ?_⟩
    · rintro rfl
      exact tileWrite_rldst (begun s) tile v
    · rintro rfl
      exact tileWrite_orphan (begun s) tile v
    · rintro slot rfl hslot hzero hact
      have haligned : (0x4000 + 8 * slot) / 8 * 8 = 0x4000 + 8 * slot := by omega
      rw [haligned]
      exact tileWrite_resume (begun s) tile slot hslot hzero hact
  · refine ⟨_, devRegister_written ha hu, rfl, ?_, ?_⟩
    · rintro d hd rfl rfl
      exact devWrite_hbas (begun s) hd v
    · rintro rfl hoff
      exact devWrite_hostQueue (begun s) hoff v

end Sys2Proof.Machine

/-! ## Deliveries and what a save waits for do not look at the act in hand (R166, R332) -/

namespace Sys2Proof.Machine

open Sys2Proof.Claims

section
variable (s : State) (a : Option Act)

theorem unsched_withAct (f : Act → Bool) : unsched { s with act := a } f = { unsched s f with act := a } := by
  have hm : anyMove { s with act := a } = anyMove s := rfl
  simp only [unsched, hm]
  split <;> rfl

theorem answered_withAct (w : Req) (res : AccRes) : dropTimeout (answer { s with act := a } w res) w =
    { dropTimeout (answer s w res) w with act := a } := unsched_withAct (answer s w res) a _

theorem serveList_withAct (k : Nat) (l : List Req) : serveList { s with act := a } k l =
    ({ (serveList s k l).1 with act := a }, (serveList s k l).2) := by
  induction l generalizing s with
  | nil => rfl
  | cons w t ih =>
    have hfull : wordFull { s with act := a } k = wordFull s k := rfl
    have hword : wordAt { setView s k w.view with act := a } k = wordAt (setView s k w.view) k := rfl
    simp only [serveList, setView_withAct, hfull, hword]
    split
    · split
      · rename_i vals new fl _
        cases new with
        | none => exact (congrArg (serveList · k t) (answered_withAct _ a w _)).trans (ih _)
        | some x => exact (congrArg (serveList · k t) (answered_withAct (putWord (setView s k w.view) k x.1 x.2) a w _)).trans (ih _)
      · rw [ih]
    · rw [ih]

theorem writeWord_withAct (k : Nat) (v : Word) (full : Bool) : writeWord { s with act := a } k v full =
    { writeWord s k v full with act := a } := by
  have hput : putWord { s with act := a } k v full = { putWord s k v full with act := a } := rfl
  have hwait : waitersAt { putWord s k v full with act := a } k = waitersAt (putWord s k v full) k := rfl
  simp only [writeWord, serve, hput, hwait, serveList_withAct]
  split
  · unfold setWaiters
    split <;> rfl
  · rfl

theorem deliverWord_withAct (j : Job) (reason : Nat) (d : Deliv) : deliverWord { s with act := a } j reason d =
    ({ (deliverWord s j reason d).1 with act := a }, (deliverWord s j reason d).2) := by
  simp only [deliverWord, hwKey_withAct]
  have hpois : ∀ (r : State) k, wordPois { r with act := a } k = wordPois r k := fun _ _ => rfl
  have hword : ∀ (r : State) k, wordAt { r with act := a } k = wordAt r k := fun _ _ => rfl
  have hev : ∀ (r : State) k n, poisonEv { r with act := a } j k n = poisonEv r j k n := fun _ _ _ => rfl
  split
  · rfl
  · rfl
  · rfl
  · rcases hwKey s j.partn d.ptr true false with ⟨s1, x⟩
    cases x with
    | bad c i h => rfl
    | ok k0 =>
      simp only [hpois, hword, hev, writeWord_withAct]
      split
      · split <;> rfl
      · split <;> rfl
      · rfl

theorem canDeliver_withAct (j : Job) (ds : List Deliv) : canDeliver { s with act := a } j ds = canDeliver s j ds := by
  simp only [canDeliver, hwKey_withAct]

end

/-- A run of deliveries with another act in hand. -/
def Delivered.withAct (x : Delivered) (a : Option Act) : Delivered := { x with st := { x.st with act := a } }

section
variable (a : Option Act)

theorem deliverOne_withAct (j : Job) (reason : Nat) (x : Delivered) (d : Deliv) :
    deliverOne j reason (x.withAct a) d = (deliverOne j reason x d).withAct a := by
  have hev : (x.withAct a).ev = x.ev := rfl
  have hst : (x.withAct a).st = { x.st with act := a } := rfl
  simp only [deliverOne, hev, hst, deliverWord_withAct]
  split
  · rfl
  · rcases deliverWord x.st j reason d with ⟨s1, e⟩
    cases e <;> rfl

theorem deliverElem_withAct (j : Job) (reason : Nat) (skip : Bool) (x : Delivered) (ds : List Deliv) :
    deliverElem j reason skip (x.withAct a) ds = (deliverElem j reason skip x ds).withAct a := by
  have hev : (x.withAct a).ev = x.ev := rfl
  have hst : (x.withAct a).st = { x.st with act := a } := rfl
  have hall : ∀ y : Delivered, ds.foldl (deliverOne j reason) (y.withAct a) = (ds.foldl (deliverOne j reason) y).withAct a := by
    induction ds with
    | nil => exact fun _ => rfl
    | cons d t ih => intro y; rw [List.foldl_cons, List.foldl_cons, deliverOne_withAct, ih]
  simp only [deliverElem, hev, hst, canDeliver_withAct, hall]
  split
  · rfl
  · split <;> rfl

theorem deliverAll_withAct (j : Job) (reason : Nat) (skip : Bool) (l : List Deliv) (s : State) :
    deliverAll j reason skip l { s with act := a } = (deliverAll j reason skip l s).withAct a := by
  have hall : ∀ (ds : List (List Deliv)) (y : Delivered),
      ds.foldl (deliverElem j reason skip) (y.withAct a) = (ds.foldl (deliverElem j reason skip) y).withAct a := by
    intro ds
    induction ds with
    | nil => exact fun _ => rfl
    | cons d t ih => intro y; rw [List.foldl_cons, List.foldl_cons, deliverElem_withAct, ih]
  exact hall (byElem l) { st := s, bytes := 0, elems := 0, got := [], charge := 0, skipped := false, ev := none }

end

theorem eventMet_begun (s : State) (r : Running) : eventMet (begun s) r = eventMet s r := by
  have hdone : elemsDone (begun s) r = elemsDone s r := rfl
  have hnow : deliveredNow (begun s) r = (deliveredNow s r).withAct none := by
    unfold deliveredNow
    rw [hdone]
    exact deliverAll_withAct none _ _ _ _ s
  unfold eventMet
  rw [hdone, hnow]
  rfl

theorem copyHolds_begun (s : State) (partn serial : Nat) : copyHolds (begun s) partn serial = copyHolds s partn serial := by
  unfold copyHolds
  simp only [eventMet_begun]
  rfl

theorem teamCounted_begun (s : State) (partn serial : Nat) : teamCounted (begun s) partn serial = teamCounted s partn serial := rfl

theorem saveReady_begun (s : State) (partn serial : Nat) : saveReady (begun s) partn serial = saveReady s partn serial := by
  have htraffic : teamTraffic (begun s) partn serial = teamTraffic s partn serial := rfl
  unfold saveReady jobsHold
  rw [copyHolds_begun, teamCounted_begun, htraffic]

theorem headWaits_begun (s : State) (partn serial prio : Nat) : headWaits (begun s) partn serial prio = headWaits s partn serial prio := rfl

end Sys2Proof.Machine

/-! ## Pre-emption requests (R96, R384) -/

namespace Sys2Proof.Machine

open Sys2Proof.Claims

section
variable {s : State} {partn serial : Nat}

/-! ### Outcomes -/

/-- A PREQ write that shows an outcome and does nothing else. -/
theorem preqOnly_preqOutcome (s : State) (partn n : Nat) : PreqOnly s (preqOutcome (begun s) partn n) partn n := by
  refine ⟨?_, rfl, fun k => ?_⟩
  · unfold preq preqOutcome
    rw [partOf_modPart_self]
  · by_cases hk : k = partn
    · subst hk
      unfold preqOutcome
      rw [partOf_modPart_self]
      rfl
    · unfold preqOutcome
      rw [partOf_modPart_of_ne _ _ _ _ hk]
      rfl

@[simp] theorem preq_preqOutcome (s : State) (partn n : Nat) : preq (preqOutcome s partn n) partn = n := by
  unfold preq preqOutcome
  rw [partOf_modPart_self]

/-- What PREQ shows does not touch the teams. -/
theorem teamOf_modPart_aside (s : State) (partn serial : Nat) {f : Partition → Partition} (hf : ∀ p, (f p).teams = p.teams) :
    teamOf (modPart s partn f) partn serial = teamOf s partn serial := by
  unfold teamOf
  rw [partOf_modPart_self, hf]

@[simp] theorem teamOf_preqOutcome (s : State) (partn n serial : Nat) :
    teamOf (preqOutcome s partn n) partn serial = teamOf s partn serial :=
  teamOf_modPart_aside s partn serial fun _ => rfl

/-- What PREQ makes of a request for a team: refused, or `go` (R384). -/
def asked (s : State) (partn serial : Nat) (go : State) : State :=
  match teamOf s partn serial with
  | none => preqOutcome s partn 1
  | some t => if serial = 0 then preqOutcome s partn 3 else if t.started = false then preqOutcome s partn 1 else go

theorem asked_go {tm : Team} {go : State} (hteam : teamOf s partn serial = some tm) (hserial : serial ≠ 0) (hstarted : tm.started = true) :
    asked s partn serial go = go := by
  unfold asked
  simp only [hteam, if_neg hserial]
  exact if_neg (by rw [hstarted]; exact Bool.false_ne_true.symm)

/-- A save that is accepted: the request, pending with outcome 5. -/
def saveAccepted (s : State) (partn serial : Nat) : State :=
  modPart (request s partn serial .preq) partn fun p => { p with preqOut := 5, preqSerial := some serial }

theorem next_of_save {r : State} (ha : Acting s (.save partn serial))
    (h : asked (begun s) partn serial (saveAccepted (begun s) partn serial) = r) (hb : r.behind = none) : exec .save s = .next r := by
  subst h
  change execSave s = _
  unfold execSave
  refine actRow_done ha.1 ?_ hb
  cases hteam : teamOf (begun s) partn serial with
  | none => simp only [asked, hteam]
  | some tm =>
    simp only [asked, hteam]
    split
    · rfl
    · split <;> rfl

theorem next_of_teamTerminate {r : State} (ha : Acting s (.teamTerminate partn serial))
    (h : asked (begun s) partn serial (preqOutcome (terminateTeam (begun s) partn serial) partn 0) = r) (hb : r.behind = none) :
    exec .teamTerminate s = .next r := by
  subst h
  change execTeamTerminate s = _
  unfold execTeamTerminate
  refine actRow_done ha.1 ?_ hb
  cases hteam : teamOf (begun s) partn serial with
  | none => simp only [asked, hteam]
  | some tm =>
    simp only [asked, hteam]
    split
    · rfl
    · split <;> rfl

/-- A row of PREQ whose request is refused. -/
theorem asked_refused {i : Instr} {go : State} (hnext : ∀ r, asked (begun s) partn serial go = r → r.behind = none → exec i s = .next r)
    (hb : s.behind = none) :
    (teamOf s partn serial = none → ∃ t, exec i s = .next t ∧ PreqOnly s t partn 1)
      ∧ ∀ tm, teamOf s partn serial = some tm →
        (serial = 0 → ∃ t, exec i s = .next t ∧ PreqOnly s t partn 3)
        ∧ (serial ≠ 0 → tm.started = false → ∃ t, exec i s = .next t ∧ PreqOnly s t partn 1) := by
  have hout : ∀ n, asked (begun s) partn serial go = preqOutcome (begun s) partn n → ∃ t, exec i s = .next t ∧ PreqOnly s t partn n :=
    fun n hn => ⟨_, hnext _ hn hb, preqOnly_preqOutcome s partn n⟩
  have hteam : teamOf (begun s) partn serial = teamOf s partn serial := rfl
  refine ⟨fun hnone => hout 1 ?_, fun tm hsome => ⟨fun hserial => hout 3 ?_, fun hserial hstarted => hout 1 ?_⟩⟩
  · simp only [asked, hteam, hnone]
  · simp only [asked, hteam, hsome, if_pos hserial]
  · simp only [asked, hteam, hsome, if_neg hserial, if_pos hstarted]

theorem request_refused {i : Instr} {mk : Nat → Nat → Act} (hi : (i, mk) ∈ [(Instr.save, Act.save), (.teamTerminate, .teamTerminate)])
    (ha : Acting s (mk partn serial)) :
    (teamOf s partn serial = none → ∃ t, exec i s = .next t ∧ PreqOnly s t partn 1)
      ∧ ∀ tm, teamOf s partn serial = some tm →
        (serial = 0 → ∃ t, exec i s = .next t ∧ PreqOnly s t partn 3)
        ∧ (serial ≠ 0 → tm.started = false → ∃ t, exec i s = .next t ∧ PreqOnly s t partn 1) := by
  rcases List.mem_cons.mp hi with he | hi
  · obtain ⟨rfl, rfl⟩ := Prod.mk.inj he
    exact asked_refused (fun r => next_of_save ha) ha.2
  · obtain ⟨rfl, rfl⟩ := Prod.mk.inj (List.mem_singleton.mp hi)
    exact asked_refused (fun r => next_of_teamTerminate ha) ha.2

/-! ### A save is asked for (R162, R384) -/

/-- A request changes the team and the timers alone. -/
theorem request_frame (s : State) (partn serial : Nat) (r : PreReq) :
    (request s partn serial r).threads = s.threads ∧ (request s partn serial r).mem = s.mem ∧ (request s partn serial r).behind = s.behind := by
  unfold request
  split
  · exact ⟨rfl, rfl, rfl⟩
  · split
    · split <;> exact ⟨rfl, rfl, rfl⟩
    · dsimp only
      split <;> exact ⟨rfl, rfl, rfl⟩

/-- A request for a team without one: it stands, and its time limit runs. -/
theorem request_first {tm : Team} (r : PreReq) (hteam : teamOf s partn serial = some tm) (hreq : tm.req = none) :
    teamOf (request s partn serial r) partn serial = some { tm with req := some r, reqAt := s.tsc }
      ∧ ((partOf s partn).ptmo ≠ 0 →
          (s.tsc + (partOf s partn).ptmo.toNat, Act.preemptionTimeout partn serial s.tsc) ∈ (request s partn serial r).timers) := by
  have hmod : teamOf (modTeam s partn serial fun t => { t with req := some r, reqAt := now s }) partn serial
      = some { tm with req := some r, reqAt := s.tsc } := (teamOf_modTeam_self s partn serial _).trans (congrArg (Option.map _) hteam)
  have hnone : ¬ tm.req.isSome = true := by rw [hreq]; exact Bool.false_ne_true
  unfold request
  simp only [hteam, if_neg hnone]
  split
  · rename_i hp
    exact ⟨hmod, fun h => absurd hp h⟩
  · exact ⟨hmod, fun _ => List.mem_append_right _ (List.mem_singleton_self _)⟩

/-- A request joins another, but not one of its own kind. -/
theorem request_joins {tm : Team} (r : PreReq) (hteam : teamOf s partn serial = some tm) (hreq : tm.req.isSome = true) :
    request s partn serial r = if tm.req = some r then s else modTeam s partn serial fun t => { t with req := some .both } := by
  unfold request
  simp only [hteam, if_pos hreq]

theorem save_accepted {tm : Team} (ha : Acting s (.save partn serial)) (hserial : serial ≠ 0)
    (hteam : teamOf s partn serial = some tm) (hstarted : tm.started = true) :
    ∃ t x, exec .save s = .next t ∧ preq t partn = 5 ∧ (partOf t partn).preqSerial = some serial
      ∧ teamOf t partn serial = some x ∧ x.req.isSome = true ∧ t.threads = s.threads ∧ t.mem = s.mem
      ∧ (tm.req = none → x = { tm with req := some .preq, reqAt := s.tsc }
          ∧ ((partOf s partn).ptmo ≠ 0 →
              (s.tsc + (partOf s partn).ptmo.toNat, Act.preemptionTimeout partn serial s.tsc) ∈ t.timers)) := by
  have hteam' : teamOf (begun s) partn serial = some tm := hteam
  obtain ⟨hthreads, hmem, hbehind⟩ := request_frame (begun s) partn serial .preq
  have hpart : partOf (saveAccepted (begun s) partn serial) partn
      = { partOf (request (begun s) partn serial .preq) partn with preqOut := 5, preqSerial := some serial } := partOf_modPart_self _ _ _
  have hsame : teamOf (saveAccepted (begun s) partn serial) partn serial = teamOf (request (begun s) partn serial .preq) partn serial := by
    refine teamOf_modPart_aside _ partn serial fun _ => ?_
    rfl
  obtain ⟨x, hx, hsome, hfirst⟩ : ∃ x, teamOf (request (begun s) partn serial .preq) partn serial = some x ∧ x.req.isSome = true
      ∧ (tm.req = none → x = { tm with req := some .preq, reqAt := s.tsc }) := by
    cases hreq : tm.req with
    | none => exact ⟨_, (request_first .preq hteam' hreq).1, rfl, fun _ => rfl⟩
    | some r =>
      rw [request_joins .preq hteam' (by rw [hreq]; rfl)]
      split
      · exact ⟨tm, hteam, by rw [hreq]; rfl, nofun⟩
      · exact ⟨_, (teamOf_modTeam_self (begun s) partn serial _).trans (congrArg (Option.map _) hteam'), rfl, nofun⟩
  refine ⟨_, x, next_of_save ha (asked_go hteam' hserial hstarted) (hbehind.trans ha.2), congrArg (·.preqOut) hpart,
    congrArg (·.preqSerial) hpart, hsame.trans hx, hsome, hthreads, hmem, fun hreq => ⟨hfirst hreq, fun hp => ?_⟩⟩
  exact (request_first .preq hteam' hreq).2 hp

/-! ### The end of a team's threads (R96, R382) -/

/-- A run over a team's threads leaves of each only what ends later: its relaxed accesses are outstanding. -/
theorem forEach_terminateThread {l : List Nat} (s : State) :
    ∀ u ∈ l, ∀ y, threadOf (forEach l terminateThread s) u = some y → y.ending = true ∧ ∃ x, threadOf s u = some x ∧ rxOut x = true := by
  induction l generalizing s with
  | nil => exact fun u hu => absurd hu List.not_mem_nil
  | cons v t ih =>
    intro u hu y hy
    have hstep : forEach (v :: t) terminateThread s = forEach t terminateThread (terminateThread s v) := rfl
    rw [hstep] at hy
    have hfirst := EndStep.terminateThread s v
    by_cases ht : u ∈ t
    · obtain ⟨hending, x, hx, hrx⟩ := ih (terminateThread s v) u ht y hy
      obtain ⟨w, hw, hstays⟩ := hfirst.lasts.left u x hx
      exact ⟨hending, w, hw, hstays.rx.symm.trans hrx⟩
    · obtain rfl : u = v := (List.mem_cons.mp hu).resolve_right ht
      obtain ⟨x, hx, hstays⟩ := (EndStep.forEach EndStep.terminateThread (terminateThread s u)).lasts.left u y hy
      obtain ⟨w, hw, -⟩ := hfirst.lasts.left u x hx
      rw [threadOf_terminateThread hw] at hx
      split at hx
      · rename_i hrx
        obtain rfl := Option.some.inj hx
        exact ⟨hstays.ending rfl, w, hw, hrx⟩
      · exact nomatch hx

theorem EndStep.terminateTeam (s : State) (partn serial : Nat) : EndStep s (terminateTeam s partn serial) := by
  unfold Machine.terminateTeam
  refine EndStep.trans ?_ (EndStep.teamCheck _ partn serial)
  refine EndStep.trans ?_ (EndStep.forEach EndStep.terminateThread _)
  exact EndStep.of_quiet (quiet_modPart s partn _) fun h => h.also

theorem teamEnded_terminateTeam (hrise : keysRise s.threads = true) (partn serial : Nat) :
    TeamEnded s (terminateTeam s partn serial) partn serial := by
  have hall := EndStep.terminateTeam s partn serial
  have hmem := mem_teamThreads (hall.lasts.rise hrise) partn serial
  have hleft : ∀ u ∈ teamThreads (terminateTeam s partn serial) partn serial,
      ∃ x y, InTeam s partn serial u x ∧ threadOf (terminateTeam s partn serial) u = some y ∧ y.ending = true ∧ rxOut x = true := by
    intro u hu
    obtain ⟨z, hz, hzp, hzs⟩ := (hmem u).mp hu
    obtain ⟨x, hx, hxz⟩ := hall.lasts.left u z hz
    have hx' : InTeam s partn serial u x := ⟨hx, hxz.partn.symm.trans hzp, hxz.serial.symm.trans hzs⟩
    have hlisted : u ∈ teamThreads (teamEnds s partn serial) partn serial :=
      (mem_teamThreads (s := teamEnds s partn serial) hrise partn serial u).mpr ⟨x, hx'⟩
    obtain ⟨y, hy, hyz⟩ := (EndStep.teamCheck (forEach (teamThreads (teamEnds s partn serial) partn serial) terminateThread
      (teamEnds s partn serial)) partn serial).lasts.left u z hz
    obtain ⟨hending, w, hw, hrx⟩ := forEach_terminateThread (teamEnds s partn serial) u hlisted y hy
    obtain rfl := Option.some.inj (hx.symm.trans hw)
    exact ⟨x, z, hx', hz, hyz.ending hending, hrx⟩
  refine ⟨fun u hu => ?_, fun hnone => List.eq_nil_iff_forall_not_mem.mpr fun u hu => ?_⟩
  · obtain ⟨-, y, -, hy, hending, -⟩ := hleft u hu
    exact ⟨y, hy, hending⟩
  · obtain ⟨x, -, hx, -, -, hrx⟩ := hleft u hu
    exact hnone u ((mem_teamThreads hrise partn serial u).mpr ⟨x, hx⟩) x hx.1 ((rxOut_iff x).mp hrx)

theorem teamTerminate_accepted {tm : Team} (ha : Acting s (.teamTerminate partn serial)) (hu : Unhindered s) (hserial : serial ≠ 0)
    (hteam : teamOf s partn serial = some tm) (hstarted : tm.started = true) (hrise : keysRise s.threads = true) :
    ∃ t, exec .teamTerminate s = .next t ∧ preq t partn = 0 ∧ TeamEnded s t partn serial := by
  have hteam' : teamOf (begun s) partn serial = some tm := hteam
  have hclear : Clear (begun s) := clear_of_unhindered ha.2 hu
  have hbehind := ((EndStep.terminateTeam (begun s) partn serial).clear hclear).behind
  refine ⟨_, next_of_teamTerminate ha (asked_go hteam' hserial hstarted) hbehind, preq_preqOutcome _ partn 0, ?_⟩
  exact teamEnded_terminateTeam (s := begun s) hrise partn serial

/-! ### A saved team is discarded (R382, R384) -/

theorem saved_tellOrigin (s : State) (n k : Nat) (t : Team) : (partOf (tellOrigin s n k t) n).saved = (partOf s n).saved := by
  have hqueue : ∀ q f, (partOf (modQueue s n q f) n).saved = (partOf s n).saved := fun q f => by
    unfold modQueue
    rw [partOf_modPart_self]
  have hrecord : ∀ (r : State) q i f, partOf (recordWord r n q i f) n = partOf r n := fun r q i f => by
    unfold recordWord
    split
    · rfl
    · unfold partOf
      rw [hwStore_parts, hwLoad_parts]
  unfold tellOrigin
  split
  · rfl
  · dsimp only
    split
    · exact hqueue _ _
    · rw [hrecord]
      exact hqueue _ _
  · rfl

/-- A discard of a team that is not saved. -/
theorem discard_none (ha : Acting s (.discard partn serial)) (h : ∀ i ∈ (partOf s partn).saved, i.serial ≠ serial) :
    ∃ t, exec .discard s = .next t ∧ PreqOnly s t partn (if serial = 0 then 3 else 1) := by
  have hfind : (partOf (begun s) partn).saved.find? (fun i => decide (i.serial = serial)) = none :=
    List.find?_eq_none.mpr fun i hi hd => h i hi (of_decide_eq_true hd)
  refine ⟨_, ?_, preqOnly_preqOutcome s partn _⟩
  change execDiscard s = _
  unfold execDiscard
  refine actRow_done ha.1 ?_ ha.2
  simp only [hfind]

theorem find_saved {p : Partition} (h : ∃ i ∈ p.saved, i.serial = serial) :
    ∃ i, p.saved.find? (fun i => decide (i.serial = serial)) = some i := by
  obtain ⟨i, hi, hserial⟩ := h
  exact Option.isSome_iff_exists.mp (List.find?_isSome.mpr ⟨i, hi, decide_eq_true hserial⟩)

/-- A discard of a team that is being restored. -/
theorem discard_restored (ha : Acting s (.discard partn serial)) (h : ∃ i ∈ (partOf s partn).saved, i.serial = serial)
    (hteam : (teamOf s partn serial).isSome = true) : ∃ t, exec .discard s = .next t ∧ PreqOnly s t partn 1 := by
  have hteam' : (teamOf (begun s) partn serial).isSome = true := hteam
  obtain ⟨i, hi⟩ := find_saved (p := partOf (begun s) partn) h
  refine ⟨_, ?_, preqOnly_preqOutcome s partn _⟩
  change execDiscard s = _
  unfold execDiscard
  refine actRow_done ha.1 ?_ ha.2
  simp only [hi, if_pos hteam']

/-- A saved team's image is freed, and its origin is told (R382, R384). -/
def discarded (s : State) (partn serial : Nat) (tm : Team) : State :=
  scanNext (tellOrigin (modPart s partn fun p => { p with saved := p.saved.filter fun k => decide (k.serial ≠ serial) }) partn serial
    { tm with reason := 4 })

theorem Clear.discarded (h : Clear s) (tm : Team) : Clear (discarded s partn serial tm) := by
  refine Clear.scanNext ((EndStep.tellOrigin _ partn serial _).clear ?_)
  exact h.also

theorem saved_discarded (s : State) (partn serial : Nat) (tm : Team) :
    (partOf (discarded s partn serial tm) partn).saved = (partOf s partn).saved.filter fun k => decide (k.serial ≠ serial) := by
  refine (saved_tellOrigin _ partn serial _).trans ?_
  rw [partOf_modPart_self]

theorem discard_saved (ha : Acting s (.discard partn serial)) (h : ∃ i ∈ (partOf s partn).saved, i.serial = serial)
    (hteam : teamOf s partn serial = none) (hu : Unhindered s) :
    ∃ t, exec .discard s = .next t ∧ preq t partn = 0 ∧ ∀ i ∈ (partOf t partn).saved, i.serial ≠ serial := by
  have hclear : Clear (begun s) := clear_of_unhindered ha.2 hu
  have hteam' : ¬ (teamOf (begun s) partn serial).isSome = true := by
    rw [show teamOf (begun s) partn serial = none from hteam]
    exact Bool.false_ne_true
  obtain ⟨i, hi⟩ := find_saved (p := partOf (begun s) partn) h
  refine ⟨preqOutcome (discarded (begun s) partn serial i.team) partn 0, ?_, preq_preqOutcome _ partn 0, fun k hk => ?_⟩
  · change execDiscard s = _
    unfold execDiscard
    refine actRow_done ha.1 ?_ (hclear.discarded i.team).behind
    simp only [hi, if_neg hteam']
    rfl
  · unfold preqOutcome at hk
    rw [partOf_modPart_self, saved_discarded] at hk
    exact of_decide_eq_true (List.mem_filter.mp hk).2

end

theorem preemptionRequests : PreemptionRequests := by
  intro s partn serial
  refine ⟨fun i mk hi ha => request_refused hi ha, fun tm ha hserial hteam hstarted => save_accepted ha hserial hteam hstarted,
    fun tm ha hu hserial hteam hstarted hrise => teamTerminate_accepted ha hu hserial hteam hstarted hrise, fun ha => ?_⟩
  exact ⟨discard_none ha, discard_restored ha, discard_saved ha⟩

end Sys2Proof.Machine

/-! ## Slices, time limits and requests that are given up (R162, R166, R383) -/

namespace Sys2Proof.Machine

open Sys2Proof.Claims

section
variable {s : State} {partn serial stamp : Nat} {tm : Team}

/-! ### The end of a slice -/

/-- A slice of a team starts: its end is set, and an act stands for it. -/
theorem startSlice_starts (from_ : Nat) (hteam : teamOf s partn serial = some tm) (hslice : tm.slice ≠ 0) (hserial : serial ≠ 0) :
    teamOf (startSlice s partn serial from_) partn serial = some { tm with sliceEnd := from_ + tm.slice * 1000 }
      ∧ (from_ + tm.slice * 1000, Act.sliceExpiry partn serial (from_ + tm.slice * 1000)) ∈ (startSlice s partn serial from_).timers := by
  have hruns : ¬ (tm.slice = 0 ∨ (tm.sup && decide (serial = 0)) = true) := by simp [hslice, hserial]
  unfold startSlice
  simp only [hteam, if_neg hruns]
  exact ⟨(teamOf_modTeam_self s partn serial _).trans (congrArg (Option.map _) hteam), List.mem_append_right _ (List.mem_singleton_self _)⟩

theorem sliceExpiry_ignored (ha : Acting s (.sliceExpiry partn serial stamp)) (hteam : teamOf s partn serial = some tm)
    (h : tm.sliceEnd ≠ stamp ∨ tm.req = some .slice) : exec .sliceExpiry s = .next { s with act := none } := by
  have hteam' : teamOf (begun s) partn serial = some tm := hteam
  change execSliceExpiry s = _
  unfold execSliceExpiry
  refine actRow_done ha.1 ?_ ha.2
  simp only [hteam']
  by_cases hend : tm.sliceEnd = stamp
  · have hreq := h.resolve_left (not_not.mpr hend)
    have hsome : tm.req.isSome = true := by rw [hreq]; rfl
    rw [if_neg (not_not.mpr hend), if_pos (.inl hsome), request_joins .slice hteam' hsome, if_pos hreq]
  · rw [if_pos hend]

/-- The end of a slice that asks for a save. -/
theorem sliceExpiry_requests (ha : Acting s (.sliceExpiry partn serial stamp)) (hteam : teamOf s partn serial = some tm)
    (hend : tm.sliceEnd = stamp) (h : tm.req.isSome = true ∨ headWaits s partn serial tm.prio = true) :
    exec .sliceExpiry s = .next (request (begun s) partn serial .slice) := by
  have hteam' : teamOf (begun s) partn serial = some tm := hteam
  have hbehind := (request_frame (begun s) partn serial .slice).2.2
  change execSliceExpiry s = _
  unfold execSliceExpiry
  refine actRow_done ha.1 ?_ (hbehind.trans ha.2)
  simp only [hteam']
  rw [if_neg (not_not.mpr hend), headWaits_begun, if_pos h]

theorem sliceExpiry_joins (ha : Acting s (.sliceExpiry partn serial stamp)) (hteam : teamOf s partn serial = some tm)
    (hend : tm.sliceEnd = stamp) (hreq : tm.req = some .preq) :
    ∃ t, exec .sliceExpiry s = .next t ∧ teamOf t partn serial = some { tm with req := some .both }
      ∧ { t with parts := s.parts, act := s.act } = s := by
  have hteam' : teamOf (begun s) partn serial = some tm := hteam
  have hsome : tm.req.isSome = true := by rw [hreq]; rfl
  have hother : tm.req ≠ some .slice := by rw [hreq]; exact nofun
  refine ⟨_, sliceExpiry_requests ha hteam hend (.inl hsome), ?_⟩
  rw [request_joins .slice hteam' hsome, if_neg hother]
  exact ⟨(teamOf_modTeam_self (begun s) partn serial _).trans (congrArg (Option.map _) hteam'), rfl⟩

theorem sliceExpiry_asks (ha : Acting s (.sliceExpiry partn serial stamp)) (hteam : teamOf s partn serial = some tm)
    (hend : tm.sliceEnd = stamp) (hreq : tm.req = none) (hhead : headWaits s partn serial tm.prio = true) :
    ∃ t, exec .sliceExpiry s = .next t ∧ teamOf t partn serial = some { tm with req := some .slice, reqAt := s.tsc } := by
  have hteam' : teamOf (begun s) partn serial = some tm := hteam
  exact ⟨_, sliceExpiry_requests ha hteam hend (.inr hhead), (request_first .slice hteam' hreq).1⟩

theorem sliceExpiry_continues (ha : Acting s (.sliceExpiry partn serial stamp)) (hteam : teamOf s partn serial = some tm)
    (hend : tm.sliceEnd = stamp) (hreq : tm.req = none) (hhead : headWaits s partn serial tm.prio = false) (hslice : tm.slice ≠ 0)
    (hserial : serial ≠ 0) :
    ∃ t, exec .sliceExpiry s = .next t ∧ teamOf t partn serial = some { tm with sliceEnd := stamp + tm.slice * 1000 }
      ∧ (stamp + tm.slice * 1000, Act.sliceExpiry partn serial (stamp + tm.slice * 1000)) ∈ t.timers := by
  have hteam' : teamOf (begun s) partn serial = some tm := hteam
  have hbehind := (startSlice_frame (begun s) partn serial stamp).2.2
  refine ⟨startSlice (begun s) partn serial stamp, ?_, startSlice_starts stamp hteam' hslice hserial⟩
  change execSliceExpiry s = _
  unfold execSliceExpiry
  refine actRow_done ha.1 ?_ (hbehind.trans ha.2)
  simp only [hteam']
  rw [if_neg (not_not.mpr hend), headWaits_begun, if_neg (by simp [hreq, hhead])]

/-! ### A request is given up -/

/-- A thread at a safe point goes on behind it (R166). -/
def goesOn (cycle : Nat) (th : Thread) : Thread :=
  match th.wait with
  | .safept => unitOver (offBy th.pc 4) (cycle + 1) th
  | _ => th

theorem goesOn_eq (cycle : Nat) (th : Thread) :
    goesOn cycle th = if th.wait = .safept then unitOver (offBy th.pc 4) (cycle + 1) th else th := by
  unfold goesOn
  split
  · rename_i h; rw [if_pos h]
  · rename_i h; rw [if_neg h]

/-- A team whose request has been given up. -/
def requestDropped (s : State) (partn serial : Nat) : State :=
  forEach (teamThreads s partn serial) (fun r u => modThread r u (goesOn r.cycle))
    (modTeam s partn serial fun t => { t with req := none })

/-- PREQ shows what became of the request it made. -/
def outcomeTold (s : State) (partn serial out : Nat) : State :=
  if (partOf s partn).preqSerial = some serial then preqOutcome s partn out else s

theorem abandon_eq (out : Nat) (hteam : teamOf s partn serial = some tm) : abandon s partn serial out =
    if tm.req = some .preq then outcomeTold (requestDropped s partn serial) partn serial out
    else startSlice (outcomeTold (requestDropped s partn serial) partn serial out) partn serial
      (now (outcomeTold (requestDropped s partn serial) partn serial out)) := by
  unfold abandon
  simp only [hteam]
  cases tm.req with
  | none => rfl
  | some k => cases k <;> rfl

/-- What a request that is given up leaves: the team without it, PREQ's outcome, and the threads, of which those at safe
points go on. -/
structure GivenUp (s t : State) (partn serial out : Nat) (tm x : Team) : Prop where
  team : teamOf t partn serial = some x
  req : x.req = none
  mem : t.mem = s.mem
  behind : t.behind = s.behind
  outcome : (partOf s partn).preqSerial = some serial → preq t partn = out
  slice : tm.req ≠ some .preq → tm.slice ≠ 0 → serial ≠ 0 → x.sliceEnd = s.tsc + tm.slice * 1000
  threads : ∀ u ∈ teamThreads s partn serial, ∀ th, threadOf s u = some th → threadOf t u = some (goesOn s.cycle th)

theorem forEach_modThread_frame {l : List Nat} (f : State → Thread → Thread) (s : State) :
    (forEach l (fun r u => modThread r u (f r)) s).mem = s.mem ∧ (forEach l (fun r u => modThread r u (f r)) s).tsc = s.tsc
      ∧ (forEach l (fun r u => modThread r u (f r)) s).parts = s.parts
      ∧ (forEach l (fun r u => modThread r u (f r)) s).behind = s.behind := by
  unfold forEach
  induction l generalizing s with
  | nil => exact ⟨rfl, rfl, rfl, rfl⟩
  | cons u t ih => exact ih (modThread s u (f s))

theorem threadOf_requestDropped (hrise : keysRise s.threads = true) :
    ∀ u ∈ teamThreads s partn serial, ∀ th, threadOf s u = some th → threadOf (requestDropped s partn serial) u = some (goesOn s.cycle th) := by
  intro u hu th hth
  have hnodup : (teamThreads s partn serial).Nodup := (nodup_keys_of_keysRise hrise).1.sublist (List.filter_sublist.map _)
  have hall := (forEach_threadBecomes (F := goesOn s.cycle) (P := fun _ _ => True) (c := s.cycle)
    (g := fun r u => modThread r u (goesOn r.cycle)) (fun r v x hc _ _ => hc ▸ threadBecomes_modThread (goesOn r.cycle) v r) hnodup
    (s := modTeam s partn serial fun t => { t with req := none }) rfl fun v hv => by
      obtain ⟨x, hx, -⟩ := (mem_teamThreads hrise partn serial v).mp hv
      exact ⟨x, hx, trivial⟩).1 u
  rw [if_pos hu] at hall
  exact hall.trans (congrArg (Option.map _) hth)

theorem requestDropped_frame (hteam : teamOf s partn serial = some tm) :
    teamOf (requestDropped s partn serial) partn serial = some { tm with req := none }
      ∧ (partOf (requestDropped s partn serial) partn).preqSerial = (partOf s partn).preqSerial
      ∧ (requestDropped s partn serial).mem = s.mem ∧ (requestDropped s partn serial).tsc = s.tsc
      ∧ (requestDropped s partn serial).behind = s.behind := by
  obtain ⟨hmem, htsc, hparts, hbehind⟩ := forEach_modThread_frame (l := teamThreads s partn serial) (fun r => goesOn r.cycle)
    (modTeam s partn serial fun t => { t with req := none })
  have hpart : partOf (requestDropped s partn serial) partn = partOf (modTeam s partn serial fun t => { t with req := none }) partn :=
    congrArg (lookD · partn Partition.reset) hparts
  refine ⟨?_, ?_, hmem, htsc, hbehind⟩
  · have hmod := teamOf_modTeam_self s partn serial fun t => { t with req := none }
    rw [hteam] at hmod
    unfold teamOf at hmod ⊢
    rwa [hpart]
  · rw [hpart, modTeam, partOf_modPart_self]

theorem outcomeTold_frame (s : State) (partn serial out : Nat) :
    teamOf (outcomeTold s partn serial out) partn serial = teamOf s partn serial
      ∧ ((partOf s partn).preqSerial = some serial → preq (outcomeTold s partn serial out) partn = out)
      ∧ (outcomeTold s partn serial out).mem = s.mem ∧ (outcomeTold s partn serial out).tsc = s.tsc
      ∧ (outcomeTold s partn serial out).behind = s.behind ∧ (outcomeTold s partn serial out).threads = s.threads := by
  unfold outcomeTold
  split
  · exact ⟨teamOf_preqOutcome s partn out serial, fun _ => preq_preqOutcome s partn out, rfl, rfl, rfl, rfl⟩
  · rename_i h
    exact ⟨rfl, fun hp => absurd hp h, rfl, rfl, rfl, rfl⟩

theorem preq_modTeam (s : State) (partn serial : Nat) (f : Team → Team) : preq (modTeam s partn serial f) partn = preq s partn := by
  unfold preq modTeam
  rw [partOf_modPart_self]

/-- Where a slice starts or not, the request of the team and what PREQ shows stay. -/
theorem startSlice_keeps (from_ : Nat) (hteam : teamOf s partn serial = some tm) :
    (∃ x, teamOf (startSlice s partn serial from_) partn serial = some x ∧ x.req = tm.req)
      ∧ preq (startSlice s partn serial from_) partn = preq s partn ∧ (startSlice s partn serial from_).mem = s.mem := by
  unfold startSlice
  simp only [hteam]
  split
  · exact ⟨⟨tm, hteam, rfl⟩, rfl, rfl⟩
  · refine ⟨⟨_, (teamOf_modTeam_self s partn serial _).trans (congrArg (Option.map _) hteam), rfl⟩, ?_, rfl⟩
    exact preq_modTeam s partn serial _

theorem givenUp_abandon (out : Nat) (hrise : keysRise s.threads = true) (hteam : teamOf s partn serial = some tm) :
    ∃ x, GivenUp s (abandon s partn serial out) partn serial out tm x := by
  have hdropped := threadOf_requestDropped (partn := partn) (serial := serial) hrise
  obtain ⟨hteam2, hserial2, hmem2, htsc2, hbehind2⟩ := requestDropped_frame hteam
  obtain ⟨hteam3, hout, hmem3, htsc3, hbehind3, hthreads3⟩ := outcomeTold_frame (requestDropped s partn serial) partn serial out
  rw [abandon_eq out hteam]
  generalize outcomeTold (requestDropped s partn serial) partn serial out = t at *
  have hout' : (partOf s partn).preqSerial = some serial → preq t partn = out := fun h => hout (hserial2.trans h)
  have hthreads : ∀ u ∈ teamThreads s partn serial, ∀ th, threadOf s u = some th → threadOf t u = some (goesOn s.cycle th) :=
    fun u hu th hth => (congrArg (look · u) hthreads3).trans (hdropped u hu th hth)
  by_cases hreq : tm.req = some .preq
  · rw [if_pos hreq]
    exact ⟨_, hteam3.trans hteam2, rfl, hmem3.trans hmem2, hbehind3.trans hbehind2, hout', fun h => absurd hreq h, hthreads⟩
  · rw [if_neg hreq]
    obtain ⟨⟨x, hx, hxreq⟩, hpreq, hmem4⟩ := startSlice_keeps (now t) (hteam3.trans hteam2)
    obtain ⟨hthreads4, -, hbehind4⟩ := startSlice_frame t partn serial (now t)
    refine ⟨x, hx, hxreq, hmem4.trans (hmem3.trans hmem2), hbehind4.trans (hbehind3.trans hbehind2), fun h => hpreq.trans (hout' h),
      fun _ hslice hserial => ?_, fun u hu th hth => (congrArg (look · u) hthreads4).trans (hthreads u hu th hth)⟩
    have hstarts := (startSlice_starts (now t) (hteam3.trans hteam2) hslice hserial).1
    obtain rfl := Option.some.inj (hx.symm.trans hstarts)
    exact congrArg (· + tm.slice * 1000) (htsc3.trans htsc2)

/-! ### The time limit of a request (R166, R332) -/

/-- What the end of a request's time limit does to its team. -/
theorem next_of_preemptionTimeout {r : State} (ha : Acting s (.preemptionTimeout partn serial stamp))
    (hteam : teamOf s partn serial = some tm)
    (h : (if tm.req.isNone = true ∨ tm.reqAt ≠ stamp then begun s
      else if teamCounted s partn serial = true ∧ copyHolds s partn serial = false then begun s
      else abandon (begun s) partn serial 2) = r) (hb : r.behind = none) : exec .preemptionTimeout s = .next r := by
  subst h
  have hteam' : teamOf (begun s) partn serial = some tm := hteam
  change execPreemptionTimeout s = _
  unfold execPreemptionTimeout
  refine actRow_done ha.1 ?_ hb
  simp only [hteam', teamCounted_begun, copyHolds_begun]
  split
  · rfl
  · split <;> rfl

theorem preemptionTimeout_ignored (ha : Acting s (.preemptionTimeout partn serial stamp)) (hteam : teamOf s partn serial = some tm)
    (h : tm.req = none ∨ tm.reqAt ≠ stamp) : exec .preemptionTimeout s = .next { s with act := none } := by
  refine next_of_preemptionTimeout ha hteam (if_pos ?_) ha.2
  rcases h with h | h
  · exact .inl (by rw [h]; rfl)
  · exact .inr h

theorem preemptionTimeout_counted (ha : Acting s (.preemptionTimeout partn serial stamp)) (hteam : teamOf s partn serial = some tm)
    (hcounted : teamCounted s partn serial = true) (hcopy : copyHolds s partn serial = false) :
    exec .preemptionTimeout s = .next { s with act := none } :=
  next_of_preemptionTimeout ha hteam (by rw [if_pos (⟨hcounted, hcopy⟩ : _ ∧ _)]; exact ite_self _) ha.2

theorem preemptionTimeout_abandons (ha : Acting s (.preemptionTimeout partn serial stamp)) (hrise : keysRise s.threads = true)
    (hteam : teamOf s partn serial = some tm) (hreq : tm.req.isSome = true) (hstamp : tm.reqAt = stamp)
    (h : teamCounted s partn serial = false ∨ copyHolds s partn serial = true) :
    ∃ t x, exec .preemptionTimeout s = .next t ∧ teamOf t partn serial = some x ∧ x.req = none ∧ t.mem = s.mem
      ∧ ((partOf s partn).preqSerial = some serial → preq t partn = 2)
      ∧ (tm.req ≠ some .preq → tm.slice ≠ 0 → serial ≠ 0 → x.sliceEnd = s.tsc + tm.slice * 1000)
      ∧ ∀ u ∈ teamThreads s partn serial, ∀ th, threadOf s u = some th →
          threadOf t u = some (if th.wait = .safept then unitOver (offBy th.pc 4) (s.cycle + 1) th else th) := by
  have hstands : ¬ (tm.req.isNone = true ∨ tm.reqAt ≠ stamp) := by
    rintro (hn | hn)
    · rw [Option.isNone_iff_eq_none.mp hn] at hreq
      exact nomatch hreq
    · exact hn hstamp
  have hlate : ¬ (teamCounted s partn serial = true ∧ copyHolds s partn serial = false) := by
    rintro ⟨hcounted, hcopy⟩
    rcases h with h | h
    · exact nomatch h.symm.trans hcounted
    · exact nomatch h.symm.trans hcopy
  obtain ⟨x, hx⟩ := givenUp_abandon (s := begun s) (tm := tm) 2 hrise hteam
  refine ⟨_, x, next_of_preemptionTimeout ha hteam ((if_neg hstands).trans (if_neg hlate)) (hx.behind.trans ha.2), hx.team, hx.req, hx.mem,
    hx.outcome, hx.slice, fun u hu th hth => ?_⟩
  rw [← goesOn_eq]
  exact hx.threads u hu th hth

end

end Sys2Proof.Machine

/-! ## A counted team is saved (R162, R163, R386) -/

namespace Sys2Proof.Machine

open Sys2Proof.Claims

/-! ### What stopping a team, and the reads and writes of its image, leave as it was -/

/-- Where a thread stands, and whose it is. -/
def placeOfThread (th : Thread) : Nat × Nat × Nat × Nat := (th.partn, th.serial, th.tile, th.slot)

/-- Nothing of the partitions changes, no access has to wait, and every thread stays in its place. -/
structure Intact (s t : State) : Prop where
  clear : Clear s → Clear t
  rise : keysRise s.threads = true → keysRise t.threads = true
  parts : t.parts = s.parts
  cycle : t.cycle = s.cycle
  placed : ∀ u, (threadOf t u).map placeOfThread = (threadOf s u).map placeOfThread

theorem Intact.refl (s : State) : Intact s s := ⟨id, id, rfl, rfl, fun _ => rfl⟩

theorem Intact.trans {s t r : State} (h : Intact s t) (h' : Intact t r) : Intact s r :=
  ⟨h'.clear ∘ h.clear, h'.rise ∘ h.rise, h'.parts.trans h.parts, h'.cycle.trans h.cycle, fun u => (h'.placed u).trans (h.placed u)⟩

theorem Intact.ite {s t r : State} {c : Prop} [Decidable c] (ht : Intact s t) (hr : Intact s r) : Intact s (if c then t else r) := by
  split <;> assumption

theorem Intact.foldl {α β : Type} {g : β → State} {f : β → α → β} (h : ∀ b a, Intact (g b) (g (f b a))) (l : List α) (b : β) :
    Intact (g b) (g (l.foldl f b)) := by
  induction l generalizing b with
  | nil => exact Intact.refl _
  | cons a t ih => exact (h b a).trans (ih _)

theorem Intact.of_quiet {s t : State} (hq : Quiet s t) (hc : Clear s → Clear t) (hp : t.parts = s.parts) : Intact s t :=
  ⟨hc, fun h => by rwa [hq.threads], hp, hq.cycle, fun u => congrArg _ (hq.threadOf u)⟩

/-- A change of what neither threads, partitions, tiles, ports nor acts are. -/
theorem Intact.aside {s t : State} (h : (t.behind, t.tiles, t.ports, t.agenda, t.threads, t.parts, t.cycle)
    = (s.behind, s.tiles, s.ports, s.agenda, s.threads, s.parts, s.cycle)) : Intact s t := by
  simp only [Prod.mk.injEq] at h
  obtain ⟨hbehind, htiles, hports, hagenda, hthreads, hparts, hcycle⟩ := h
  exact ⟨fun hc => ⟨hbehind ▸ hc.behind, htiles ▸ hc.moves, hports ▸ hc.walks, hagenda ▸ hc.held⟩, fun hr => hthreads ▸ hr, hparts, hcycle,
    fun u => by rw [threadOf, hthreads, threadOf]⟩

theorem Intact.modThread (s : State) (u : Nat) {f : Thread → Thread} (hf : ∀ x, placeOfThread (f x) = placeOfThread x) :
    Intact s (modThread s u f) := by
  refine ⟨(steady_modThread s u f).clear, keysRise_upd _ _ _, rfl, rfl, fun v => ?_⟩
  by_cases hv : v = u
  · subst hv
    rw [threadOf_modThread_self, Option.map_map]
    exact congrArg (Option.map · (threadOf s v)) (funext hf)
  · rw [threadOf_modThread_of_ne _ _ _ _ hv]

theorem Intact.modCu (s : State) (cl : Nat) (f : Cu → Cu) : Intact s (modCu s cl f) := Intact.aside rfl

theorem Intact.unsched (s : State) (f : Act → Bool) : Intact s (unsched s f) :=
  Intact.of_quiet (quiet_unsched s f) (fun h => h.unsched f) (unsched_parts s f)

theorem Intact.writeWord (s : State) (k : Nat) (v : Word) (full : Bool) : Intact s (writeWord s k v full) :=
  Intact.of_quiet (quiet_writeWord s k v full) (fun h => h.writeWord k v full) (writeWord_parts s k v full)

theorem Intact.hwKey (s : State) (n : Nat) (p : Ptr) (w f : Bool) : Intact s (hwKey s n p w f).1 :=
  Intact.of_quiet (quiet_hwKey s n p w f) (fun h => h.hwKey n p w f) (hwKey_parts s n p w f)

theorem Intact.hwStore (s : State) (n : Nat) (p : Ptr) (v : Word) : Intact s (hwStore s n p v) :=
  Intact.of_quiet (quiet_hwStore s n p v) (fun h => h.hwStore n p v) (hwStore_parts s n p v)

theorem Intact.readThrough (s : State) (n : Nat) (l : List Ptr) : Intact s (readThrough s n l) :=
  Intact.foldl (g := id) (fun s p => Intact.hwKey s n p false false) l s

/-! ### Waits and rendezvous counts -/

theorem placeOfThread_withdrawMate (lv : Nat) (t : Thread) : placeOfThread (withdrawMate lv t) = placeOfThread t := by
  unfold withdrawMate
  dsimp only
  split
  · split <;> rfl
  · rfl

/-- The requests of a thread are taken out of every tile and port, and out of what moves hold. -/
def requestsOut (s : State) (u : Nat) : State :=
  { s with
    tiles := (s.tiles.map fun e => (e.1, { e.2 with waiters := reqsWithout u e.2.waiters })).map fun e =>
      (e.1, { e.2 with move := e.2.move.map fun m =>
        { m with held := m.held.filter fun a => match a with | .homeAccess r => decide (r.uid ≠ u) | _ => true } }),
    ports := s.ports.map fun e => (e.1, { e.2 with waiters := reqsWithout u e.2.waiters }) }

theorem Intact.requestsOut (s : State) (u : Nat) : Intact s (requestsOut s u) := by
  refine ⟨fun h => ?_, id, rfl, rfl, fun _ => rfl⟩
  have hplaces := h.mapPlaces (f := fun t => { t with waiters := reqsWithout u t.waiters })
    (g := fun p => { p with waiters := reqsWithout u p.waiters }) (fun _ => id) fun _ => by rfl
  exact hplaces.mapTiles (f := fun t => { t with move := t.move.map fun m =>
    { m with held := m.held.filter fun a => match a with | .homeAccess r => decide (r.uid ≠ u) | _ => true } })
    fun t ht => congrArg (Option.map _) ht

theorem Intact.withdrawSync (s : State) (u : Nat) (th : Thread) : Intact s (withdrawSync s u th) := by
  have hout : ∀ f, Intact s (Machine.unsched (Machine.requestsOut s u) f) := fun f =>
    (Intact.requestsOut s u).trans (Intact.unsched _ f)
  unfold Machine.withdrawSync
  split
  · split
    · dsimp only
      refine Intact.trans ?_ (Intact.modThread _ u fun _ => by rfl)
      split
      · exact Intact.ite ((hout _).trans (Intact.modThread _ _ (placeOfThread_withdrawMate _))) (hout _)
      · exact hout _
    · exact Intact.refl s
  · exact Intact.refl s

theorem Intact.rvPause (s : State) (u : Nat) : Intact s (rvPause s u) := by
  unfold Machine.rvPause
  split
  · exact Intact.refl s
  · split
    · refine Intact.ite (Intact.trans ?_ (Intact.unsched _ _)) (Intact.refl s)
      exact Intact.modThread s u fun _ => by rfl
    · exact Intact.refl s

/-! ### The lists of the copy unit -/

theorem Intact.deliverWord (s : State) (j : Job) (reason : Nat) (d : Deliv) : Intact s (deliverWord s j reason d).1 := by
  have hpeer : ∀ p m, Intact s (peerDeliver s reason p m).1 := fun p m => Intact.aside rfl
  have hkey := Intact.hwKey s j.partn d.ptr true false
  unfold Machine.deliverWord
  split
  · exact Intact.refl s
  · exact hpeer _ _
  · exact hpeer _ _
  · split
    · rename_i e; rw [e] at hkey; exact hkey
    · rename_i e
      rw [e] at hkey
      dsimp only
      split
      · split
        · exact hkey
        · exact hkey.trans (Intact.writeWord _ _ _ true)
      · split
        · exact hkey
        · exact hkey.trans (Intact.writeWord _ _ _ true)
      · exact hkey.trans (Intact.writeWord _ _ _ true)

theorem Intact.deliverOne (j : Job) (reason : Nat) (x : Delivered) (d : Deliv) : Intact x.st (deliverOne j reason x d).st := by
  have hword := Intact.deliverWord x.st j reason d
  unfold Machine.deliverOne
  split
  · exact Intact.refl _
  · dsimp only
    split
    · rename_i e; rw [e] at hword; exact hword
    · rename_i e; rw [e] at hword; exact hword.trans (Intact.aside rfl)

theorem Intact.deliverElem (j : Job) (reason : Nat) (skip : Bool) (x : Delivered) (ds : List Deliv) :
    Intact x.st (deliverElem j reason skip x ds).st := by
  unfold Machine.deliverElem
  split
  · exact Intact.refl _
  · split
    · exact Intact.aside rfl
    · exact Intact.foldl (g := Delivered.st) (Intact.deliverOne j reason) ds x

theorem Intact.deliverAll (j : Job) (reason : Nat) (skip : Bool) (l : List Deliv) (s : State) :
    Intact s (deliverAll j reason skip l s).st :=
  Intact.foldl (g := Delivered.st) (Intact.deliverElem j reason skip) (byElem l)
    { st := s, bytes := 0, elems := 0, got := [], charge := 0, skipped := false, ev := none }

theorem Intact.stopLists (s : State) (cl : Nat) (r : Running) : Intact s (stopLists s cl r) := by
  unfold Machine.stopLists
  dsimp only
  refine Intact.trans ?_ (Intact.modCu _ cl _)
  exact Intact.deliverAll _ _ _ _ s

theorem Intact.stopTeam (s : State) (partn serial : Nat) : Intact s (stopTeam s partn serial) := by
  unfold Machine.stopTeam stopAllLists
  refine Intact.trans (Intact.foldl (g := id) (fun r u => ?_) _ s) (Intact.foldl (g := id) (fun r e => ?_) _ _)
  · dsimp only [id]
    split
    · exact (Intact.withdrawSync r u _).trans (Intact.rvPause _ u)
    · exact Intact.refl r
  · dsimp only [id]
    split
    · exact Intact.ite (Intact.stopLists r e.1 _) (Intact.refl r)
    · exact Intact.refl r

end Sys2Proof.Machine

/-! ### What a saved team leaves, and its image (R165, R386) -/

namespace Sys2Proof.Machine

open Sys2Proof.Claims

theorem teamTiles_of_parts {s t : State} (h : t.parts = s.parts) (partn serial : Nat) : teamTiles t partn serial = teamTiles s partn serial := by
  unfold teamTiles frameOf teamOf partOf
  rw [h]

theorem partOf_of_parts {s t : State} (h : t.parts = s.parts) (n : Nat) : partOf t n = partOf s n := by
  unfold partOf
  rw [h]

section
variable {s s1 : State} {partn serial slot : Nat} {tm : Team}

theorem Intact.modTile (s : State) (k : Nat) {f : Tile → Tile} (hf : ∀ t, (f t).move = t.move) : Intact s (modTile s k f) :=
  Intact.of_quiet (quiet_modTile s k f) (fun h => h.modTile k hf) rfl

/-- A state without the threads of a team. -/
def threadsGone (s : State) (partn serial : Nat) : State :=
  { s with threads := s.threads.filter fun e => decide (e.1 ∉ teamThreads s partn serial) }

/-- A team's threads leave; what cores and clusters kept of it goes too, and the rest stays. -/
theorem Intact.vacateTeam (s : State) (partn serial : Nat) : Intact (threadsGone s partn serial) (vacateTeam s partn serial) := by
  unfold Machine.vacateTeam
  dsimp only
  refine Intact.trans ?_ (Intact.unsched _ _)
  refine Intact.trans (Intact.foldl (g := id) (fun r tile => ?_) (teamTiles s partn serial) (threadsGone s partn serial)) (Intact.aside rfl)
  refine Intact.trans ?_ (Intact.modCu _ _ _)
  exact Intact.modTile r tile fun _ => by rfl

theorem Clear.vacateTeam (h : Clear s) (partn serial : Nat) : Clear (vacateTeam s partn serial) :=
  (Intact.vacateTeam s partn serial).clear ⟨h.behind, h.moves, h.walks, h.held⟩

theorem teamThreads_vacateTeam (hrise : keysRise s.threads = true) (partn serial : Nat) :
    teamThreads (vacateTeam s partn serial) partn serial = [] := by
  have hall := Intact.vacateTeam s partn serial
  have hgone : keysRise (threadsGone s partn serial).threads = true := keysRise_filter _ _ hrise
  refine List.eq_nil_iff_forall_not_mem.mpr fun u hu => ?_
  obtain ⟨y, hy, hpartn, hserial⟩ := (mem_teamThreads (hall.rise hgone) partn serial u).mp hu
  have hplace := hall.placed u
  rw [hy] at hplace
  obtain ⟨x, hx, hxplace⟩ := Option.map_eq_some_iff.mp hplace.symm
  simp only [placeOfThread, Prod.mk.injEq] at hxplace
  obtain ⟨hxpartn, hxserial, -, -⟩ := hxplace
  obtain ⟨hmem, hleft⟩ := List.mem_filter.mp (mem_of_look hx)
  have hu' : u ∈ teamThreads s partn serial := (mem_teamThreads hrise partn serial u).mpr
    ⟨x, (nodup_keys_of_keysRise hrise).2 (u, x) hmem, hxpartn.trans hpartn, hxserial.trans hserial⟩
  exact of_decide_eq_true hleft hu'

/-- Every thread of the team that stands in a slot of one of its cores is in the image. -/
theorem mem_makeImage {s0 : State} (hsame : Intact s0 s1) (hrise : keysRise s0.threads = true)
    (hplaced : ∀ u ∈ teamThreads s0 partn serial, ∀ th, threadOf s0 u = some th → th.tile ∈ teamTiles s0 partn serial ∧ th.slot < 16)
    (tm : Team) (slot : Nat) : ∀ u ∈ teamThreads s0 partn serial, ∃ x ∈ (makeImage s1 partn serial tm slot).threads, x.uid = u := by
  intro u hu
  obtain ⟨th, hth, hpartn, hserial⟩ := (mem_teamThreads hrise partn serial u).mp hu
  obtain ⟨htile, hslot⟩ := hplaced u hu th hth
  have hplace := hsame.placed u
  rw [hth] at hplace
  obtain ⟨y, hy, hyplace⟩ := Option.map_eq_some_iff.mp hplace
  simp only [placeOfThread, Prod.mk.injEq] at hyplace
  obtain ⟨hypartn, hyserial, hytile, hyslot⟩ := hyplace
  have hu1 : u ∈ teamThreads s1 partn serial :=
    (mem_teamThreads (hsame.rise hrise) partn serial u).mpr ⟨y, hy, hypartn.trans hpartn, hyserial.trans hserial⟩
  have hlisted : u ∈ (teamTiles s1 partn serial).flatMap fun tile => (List.range 16).flatMap fun k =>
      (teamThreads s1 partn serial).filter fun u => match threadOf s1 u with
        | some th => decide (th.tile = tile ∧ th.slot = k)
        | none => false := by
    refine List.mem_flatMap.mpr ⟨th.tile, by rw [teamTiles_of_parts hsame.parts]; exact htile, List.mem_flatMap.mpr
      ⟨th.slot, List.mem_range.mpr hslot, List.mem_filter.mpr ⟨hu1, ?_⟩⟩⟩
    rw [hy]
    exact decide_eq_true ⟨hytile, hyslot⟩
  obtain ⟨x, hx, hxu⟩ : ∃ x, savedThread s1 u = some x ∧ x.uid = u := by
    unfold savedThread
    rw [hy]
    exact ⟨_, rfl, rfl⟩
  exact ⟨x, List.mem_filterMap.mpr ⟨u, hlisted, hx⟩, hxu⟩

/-! ### The save (R162, R386) -/

/-- The words of an image put at its place in the pool, after the reads of the ranges it keeps. -/
def imageStored (s1 : State) (partn : Nat) (us : List Nat) (img : Image) : State :=
  ((imageWords s1 img).foldl (fun (a : State × Nat) w =>
      (hwStore a.1 partn (offBy (offBy (partOf s1 partn).tspb (img.slot * (partOf s1 partn).tsps)) (8 * a.2)) w, a.2 + 1))
    (readThrough s1 partn (rangeReads s1 partn ((threadsOf s1 us).flatMap fun th => (liveRanges s1 th).getD [])), 0)).1

theorem Intact.imageStored (s1 : State) (partn : Nat) (us : List Nat) (img : Image) : Intact s1 (imageStored s1 partn us img) :=
  (Intact.readThrough s1 partn _).trans
    (Intact.foldl (g := Prod.fst) (f := fun (a : State × Nat) w =>
        (Machine.hwStore a.1 partn (offBy (offBy (partOf s1 partn).tspb (img.slot * (partOf s1 partn).tsps)) (8 * a.2)) w, a.2 + 1))
      (fun a w => Intact.hwStore a.1 partn _ w) (imageWords s1 img)
      (Machine.readThrough s1 partn (rangeReads s1 partn ((threadsOf s1 us).flatMap fun th => (liveRanges s1 th).getD [])), 0))

/-- A partition that keeps an image in the place of a team. -/
def imageKept (serial : Nat) (img : Image) (p : Partition) : Partition :=
  { p with teams := del p.teams serial, saved := p.saved ++ [img], saveOrder := p.saveOrder + 1 }

/-- The team's place and threads are given up, its image kept. -/
def teamGone (s : State) (partn serial : Nat) (img : Image) : State :=
  let s4 := modPart (vacateTeam s partn serial) partn (imageKept serial img)
  { s4 with timers := s4.timers.filter fun x => match x.2 with
      | .sliceExpiry a b _ => !decide (a = partn ∧ b = serial)
      | .preemptionTimeout a b _ => !decide (a = partn ∧ b = serial)
      | _ => true }

theorem partOf_teamGone (s : State) (partn serial : Nat) (img : Image) :
    partOf (teamGone s partn serial img) partn = imageKept serial img (partOf s partn) := by
  have hparts : (vacateTeam s partn serial).parts = s.parts := (Intact.vacateTeam s partn serial).parts
  rw [← partOf_of_parts hparts partn]
  exact partOf_modPart_self (vacateTeam s partn serial) partn (imageKept serial img)

theorem Clear.teamGone (h : Clear s) (partn serial : Nat) (img : Image) : Clear (teamGone s partn serial img) := by
  have hv := h.vacateTeam partn serial
  exact ⟨hv.behind, hv.moves, hv.walks, hv.held⟩

theorem teamThreads_teamGone (hrise : keysRise s.threads = true) (partn serial : Nat) (img : Image) :
    teamThreads (teamGone s partn serial img) partn serial = [] := teamThreads_vacateTeam hrise partn serial

theorem teamOf_teamGone (s : State) (partn serial : Nat) (img : Image) : teamOf (teamGone s partn serial img) partn serial = none := by
  unfold teamOf
  rw [partOf_teamGone]
  exact look_del_self _ serial

/-- The end of a save: PREQ shows it, and a scan follows. -/
def saveDone (s : State) (partn serial : Nat) (img : Image) : State := scanNext (outcomeTold (teamGone s partn serial img) partn serial 0)

theorem saveDone_leaves (s : State) (partn serial : Nat) (img : Image) :
    teamOf (saveDone s partn serial img) partn serial = none ∧ img ∈ (partOf (saveDone s partn serial img) partn).saved
      ∧ ((partOf s partn).preqSerial = some serial → preq (saveDone s partn serial img) partn = 0) := by
  obtain ⟨hteam, hout, -⟩ := outcomeTold_frame (teamGone s partn serial img) partn serial 0
  have hsaved : (partOf (outcomeTold (teamGone s partn serial img) partn serial 0) partn).saved = (partOf s partn).saved ++ [img] := by
    have hgone : (partOf (teamGone s partn serial img) partn).saved = (partOf s partn).saved ++ [img] :=
      congrArg (·.saved) (partOf_teamGone s partn serial img)
    unfold outcomeTold
    split
    · unfold preqOutcome
      rw [partOf_modPart_self]
      exact hgone
    · exact hgone
  refine ⟨hteam.trans (teamOf_teamGone s partn serial img), ?_, fun h => hout ?_⟩
  · exact hsaved ▸ List.mem_append_right _ (List.mem_singleton_self img)
  · rw [partOf_teamGone]
    exact h

/-- A save whose tables can be used: given up where the pool has no slot, or none with room, and else done. -/
theorem saveTeam_eq {r s0 : State} (hs0 : s0 = readThrough r partn ((threadsOf r (teamThreads r partn serial)).flatMap (tableReads r)))
    (hs1 : s1 = stopTeam s0 partn serial) (hbad : badTables s0 (teamThreads r partn serial) = []) (tm : Team) :
    saveTeam r partn serial tm = (poolSlot (partOf s1 partn)).elim (abandon s0 partn serial 4) fun slot =>
      if (partOf s1 partn).tsps < 8 * (imageWords s1 (makeImage s1 partn serial tm slot)).length ∨ (partOf s1 partn).tspb = 0 then
        abandon s0 partn serial 4
      else saveDone (imageStored s1 partn (teamThreads r partn serial) (makeImage s1 partn serial tm slot)) partn serial
        (makeImage s1 partn serial tm slot) := by
  have hfine : ¬ (!(badTables s0 (teamThreads r partn serial)).isEmpty) = true := by
    rw [hbad]; exact Bool.false_ne_true
  unfold saveTeam
  dsimp only
  rw [← hs0, ← hs1, if_neg hfine]
  cases poolSlot (partOf s1 partn) with
  | none => rfl
  | some slot =>
    have hserial : (partOf (teamGone (imageStored s1 partn (teamThreads r partn serial) (makeImage s1 partn serial tm slot)) partn serial
        (makeImage s1 partn serial tm slot)) partn).preqSerial = (partOf s1 partn).preqSerial := by
      rw [partOf_teamGone, partOf_of_parts (Intact.imageStored s1 partn _ _).parts]
      rfl
    rw [Option.elim_some]
    unfold saveDone outcomeTold
    rw [hserial]
    rfl

theorem next_of_teamSave {r : State} (ha : Acting s (.teamSave partn serial)) (hready : saveReady s partn serial = true)
    (hteam : teamOf s partn serial = some tm) (h : saveTeam (begun s) partn serial tm = r) (hb : r.behind = none) :
    exec .teamSave s = .next r := by
  have hteam' : teamOf (begun s) partn serial = some tm := hteam
  subst h
  change execTeamSave s = _
  unfold execTeamSave
  refine actRow_done ha.1 ?_ hb
  simp only [saveReady_begun, if_pos hready, hteam', Option.map_some]

/-- A save that finds no slot in the pool is given up with outcome 4. -/
theorem teamSave_full (ha : Acting s (.teamSave partn serial)) (hready : saveReady s partn serial = true) (hu : Unhindered s)
    (hrise : keysRise s.threads = true) (hteam : teamOf s partn serial = some tm)
    (hbad : badTables (tablesRead s partn serial) (teamThreads s partn serial) = [])
    (hpool : poolSlot (partOf (stopTeam (tablesRead s partn serial) partn serial) partn) = none) :
    ∃ t x, exec .teamSave s = .next t ∧ teamOf t partn serial = some x ∧ x.req = none
      ∧ ((partOf s partn).preqSerial = some serial → preq t partn = 4) := by
  have hread : Intact (begun s) (tablesRead s partn serial) := Intact.readThrough (begun s) partn _
  have hteam0 : teamOf (tablesRead s partn serial) partn serial = some tm := by
    unfold teamOf
    rw [partOf_of_parts hread.parts]
    exact hteam
  obtain ⟨x, hx⟩ := givenUp_abandon (tm := tm) 4 (hread.rise hrise) hteam0
  have hsave := saveTeam_eq (r := begun s) (s0 := tablesRead s partn serial) rfl rfl hbad tm
  rw [hpool, Option.elim_none] at hsave
  refine ⟨_, x, next_of_teamSave ha hready hteam hsave (hx.behind.trans (hread.clear (clear_of_unhindered ha.2 hu)).behind), hx.team, hx.req,
    fun h => hx.outcome ?_⟩
  rw [partOf_of_parts hread.parts]
  exact h

/-- A save that finds room keeps the image, and gives up the team's threads and place. -/
theorem teamSave_done (ha : Acting s (.teamSave partn serial)) (hready : saveReady s partn serial = true) (hu : Unhindered s)
    (hrise : keysRise s.threads = true) (hteam : teamOf s partn serial = some tm)
    (hplaced : ∀ u ∈ teamThreads s partn serial, ∀ th, threadOf s u = some th → th.tile ∈ teamTiles s partn serial ∧ th.slot < 16)
    (hs1 : s1 = stopTeam (tablesRead s partn serial) partn serial)
    (hbad : badTables (tablesRead s partn serial) (teamThreads s partn serial) = []) (hpool : poolSlot (partOf s1 partn) = some slot)
    (hroom : 8 * (imageWords s1 (makeImage s1 partn serial tm slot)).length ≤ (partOf s1 partn).tsps) (hbase : (partOf s1 partn).tspb ≠ 0) :
    ∃ t, exec .teamSave s = .next t ∧ teamOf t partn serial = none ∧ teamThreads t partn serial = []
      ∧ makeImage s1 partn serial tm slot ∈ (partOf t partn).saved ∧ (makeImage s1 partn serial tm slot).serial = serial
      ∧ (∀ u ∈ teamThreads s partn serial, ∃ x ∈ (makeImage s1 partn serial tm slot).threads, x.uid = u)
      ∧ ((partOf s partn).preqSerial = some serial → preq t partn = 0)
      ∧ ∃ c, t.scanDue = some c ∧ c ≤ s.cycle + 1 := by
  have hstopped : Intact (begun s) s1 := by
    rw [hs1]
    exact (Intact.readThrough (begun s) partn _).trans (Intact.stopTeam _ partn serial)
  have hfits : ¬ ((partOf s1 partn).tsps < 8 * (imageWords s1 (makeImage s1 partn serial tm slot)).length ∨ (partOf s1 partn).tspb = 0) :=
    not_or.mpr ⟨Nat.not_lt.mpr hroom, hbase⟩
  have hmem := mem_makeImage (s0 := begun s) (partn := partn) (serial := serial) hstopped hrise hplaced tm slot
  have hsave := saveTeam_eq (r := begun s) (s0 := tablesRead s partn serial) rfl hs1 hbad tm
  rw [hpool, Option.elim_some, if_neg hfits] at hsave
  generalize himg : makeImage s1 partn serial tm slot = img at hmem hsave
  generalize hstored : imageStored s1 partn (teamThreads (begun s) partn serial) img = s2 at hsave
  have hall : Intact (begun s) s2 := hstored ▸ hstopped.trans (Intact.imageStored s1 partn _ img)
  obtain ⟨hgone, hkept, hout⟩ := saveDone_leaves s2 partn serial img
  obtain ⟨-, -, -, -, hbehind, hthreads⟩ := outcomeTold_frame (teamGone s2 partn serial img) partn serial 0
  have hclear : Clear s2 := hall.clear (clear_of_unhindered ha.2 hu)
  have hcycle : (outcomeTold (teamGone s2 partn serial img) partn serial 0).cycle = s.cycle := by
    have htold : ∀ r : State, (outcomeTold r partn serial 0).cycle = r.cycle := fun r => by
      unfold outcomeTold
      split <;> rfl
    exact (htold _).trans ((Intact.vacateTeam s2 partn serial).cycle.trans hall.cycle)
  refine ⟨_, next_of_teamSave ha hready hteam hsave (hbehind.trans (hclear.teamGone partn serial img).behind), hgone, ?_, hkept, ?_, hmem,
    fun h => hout ?_, scanSoon_scanNext hcycle⟩
  · have hnone := teamThreads_teamGone (hall.rise hrise) partn serial img
    unfold teamThreads threadsWhere at hnone ⊢
    exact (congrArg (fun l : AMap Thread =>
      (l.filter fun e => decide (e.2.partn = partn ∧ e.2.serial = serial)).map (·.1)) hthreads).trans hnone
  · exact himg ▸ rfl
  · rw [partOf_of_parts hall.parts]
    exact h

end

theorem teamSaves : TeamSaves := by
  intro s partn serial tm hrise hteam
  refine ⟨fun stamp ha => ⟨sliceExpiry_ignored ha hteam, sliceExpiry_joins ha hteam, sliceExpiry_asks ha hteam,
    sliceExpiry_continues ha hteam⟩, fun stamp ha => ⟨preemptionTimeout_ignored ha hteam, preemptionTimeout_counted ha hteam,
    preemptionTimeout_abandons ha hrise hteam⟩, fun ha hready hu hplaced hbad => ⟨teamSave_full ha hready hu hrise hteam hbad,
    fun slot hpool hroom hbase => teamSave_done ha hready hu hrise hteam hplaced rfl hbad hpool hroom hbase⟩⟩

/-- Settles O40: requests by what PREQ makes of them, saves by what each step leaves of the team. -/
theorem teamPreemption : Obligations.TeamPreemption := by
  unfold Obligations.TeamPreemption
  exact ⟨preemptionRequests, teamSaves⟩

end Sys2Proof.Machine
